-- ==== Sys2Proof/Word.lean ====
section
/-! DEFINITION. The word types of the IL-4820 (spec/00_scope.md R7): bytes, 32-bit registers, 64-byte lines,
and the sparse table that every addressed store of the model is (an association list; its operations stand in
Machine/Tab.lean). -/

namespace Sys2Proof

/-- One byte. -/
abbrev Byte := BitVec 8

/-- One 32-bit register (spec/00_scope.md, "Registers"). -/
abbrev Word := BitVec 32

/-- One 64-byte line; bit `[8j+7:8j]` is byte `j` (R34). -/
abbrev Line := BitVec 512

/-- A sparse table by number: what is not listed reads as the table's default. Memories are `Tab Byte`,
the same type as a list of `Host.Cell`. -/
abbrev Tab (α : Type) := List (Nat × α)

end Sys2Proof
end

