-- ==== Sys2Proof/Syntax.lean ====
section
/-! DEFINITION. The commands of the IL-4820-M800: one constructor of `Instr` per row of
spec/opcode_table.json, with the operands the spec gives the row. The 29 engine instructions carry the fields of
their words (spec/07_engine_schedules.md Tables 7-5 to 7-11) behind an issue header. -/

namespace Sys2Proof

/-- The two segments of an engine's frame (R26, R176). -/
inductive Seg where
  | rt | bg
  deriving DecidableEq, Repr

/-- A stored bit error that an instruction meets as it issues (Table 9-1): in a word of a Carrel line, corrected or not; in a lane
register or lane quire; in the SFU that works on a lane of a vector; in the code-store word, corrected or not; in the sequencer's
own state. [log 95, DESIGN CHOICE] -/
inductive Upset where
  | carrelSingle (line : BitVec 17)
  | carrelDouble (line : BitVec 17)
  | laneReg (reg : BitVec 4) (lane : BitVec 6)
  | laneQuire (q : BitVec 2) (lane : BitVec 6)
  | sfu (vec : BitVec 12) (lane : BitVec 6)
  | codeSingle
  | codeDouble
  | seqState
  deriving DecidableEq, Repr

/-- Who issues an engine instruction: the logical engine and segment whose sequencer reads the word, the word's DELAY (R171,
R184), and the bit errors that the checks of Table 9-1 find as it issues. [log 95, DESIGN CHOICE] -/
structure IssueHdr where
  leng : BitVec 6
  seg : Seg
  delay : BitVec 16
  upsets : List Upset := []
  deriving DecidableEq, Repr

/-- LDS (Table 7-5). -/
structure LdsOp where
  adv : Bool
  fmt : BitVec 4
  fast : Bool
  ksplit : BitVec 2
  tbase : BitVec 17
  deriving DecidableEq, Repr

/-- PASS (Table 7-5). -/
structure PassOp where
  adv : Bool
  fmt : BitVec 4
  fast : Bool
  ksplit : BitVec 2
  dsth : Bool
  src : Bool
  mm1 : BitVec 8
  boff : BitVec 8
  in0 : BitVec 17
  in1 : BitVec 17
  in2 : BitVec 17
  in3 : BitVec 17
  deriving DecidableEq, Repr

/-- DRAIN and DRAINR (Table 7-6). -/
structure DrainOp where
  adv : Bool
  half : Bool
  base : BitVec 8
  nm1 : BitVec 8
  aslot : BitVec 5
  dst : BitVec 17
  dfmt : BitVec 4
  tag : BitVec 8
  res : Bool
  mul : Bool
  rbase : BitVec 17
  rfmt : BitVec 4
  rslot : BitVec 5
  gbase : BitVec 17
  gfmt : BitVec 4
  gslot : BitVec 5
  deriving DecidableEq, Repr

/-- Layout V: VOP, VRED and the lane-quire opcodes (Table 7-7). -/
structure VOp where
  adv : Bool
  func : BitVec 5
  wfmt : BitVec 4
  nm1 : BitVec 12
  mlq : BitVec 2
  ak : Bool
  a : BitVec 17
  afmt : BitVec 4
  bk : Bool
  b : BitVec 17
  bfmt : BitVec 4
  c : BitVec 4
  dk : Bool
  d : BitVec 17
  dfmt : BitVec 4
  deriving DecidableEq, Repr

/-- Layout F: SFN, GACT, SMX and NRM (Table 7-7); `ctl` is bits [104:99]. -/
structure FOp where
  adv : Bool
  ctl : BitVec 6
  rot : BitVec 2
  nm1 : BitVec 12
  lq : BitVec 2
  ak : Bool
  a : BitVec 17
  afmt : BitVec 4
  bk : Bool
  b : BitVec 17
  bfmt : BitVec 4
  c : BitVec 4
  dk : Bool
  d : BitVec 17
  dfmt : BitVec 4
  deriving DecidableEq, Repr

/-- Layout X: CVT (Table 7-7). -/
structure XOp where
  adv : Bool
  nm1 : BitVec 12
  ak : Bool
  a : BitVec 17
  afmt : BitVec 4
  sen : Bool
  slot : BitVec 5
  tag : BitVec 8
  dk : Bool
  d : BitVec 17
  dfmt : BitVec 4
  deriving DecidableEq, Repr

/-- A 30-bit record operand of an SCL (Table 7-8). -/
structure RecOp where
  sg : BitVec 2
  tag : BitVec 8
  lid : BitVec 12
  bix : BitVec 8
  deriving DecidableEq, Repr

/-- SCL (Table 7-8). -/
structure SclOp where
  adv : Bool
  slot : BitVec 5
  fidx : BitVec 8
  r1 : RecOp
  r2 : RecOp
  r3 : RecOp
  deriving DecidableEq, Repr

/-- STAT (Table 7-9). -/
structure StatOp where
  adv : Bool
  sfmt : BitVec 4
  dfmt : BitVec 4
  base : BitVec 17
  nlines : BitVec 17
  deriving DecidableEq, Repr

/-- MOV (Table 7-9); `remote` is shelfmark bits [47:6]. -/
structure MovOp where
  adv : Bool
  dir : Bool
  xpose : Bool
  xfmt : BitVec 4
  localLine : BitVec 17
  remote : BitVec 42
  len : BitVec 12
  dl : BitVec 16
  tag : BitVec 8
  ten : Bool
  deriving DecidableEq, Repr

/-- CSEND (Table 7-10). -/
structure CsendOp where
  half : Bool
  base : BitVec 8
  nm1 : BitVec 8
  dle : BitVec 6
  ch : BitVec 4
  deriving DecidableEq, Repr

/-- CRECV (Table 7-10). -/
structure CrecvOp where
  half : Bool
  base : BitVec 8
  nm1 : BitVec 8
  sk : Bool
  src : BitVec 6
  ch : BitVec 4
  dl : BitVec 16
  tgt : Bool
  line : BitVec 17
  deriving DecidableEq, Repr

/-- QADD (Table 7-10). -/
structure QaddOp where
  half : Bool
  base : BitVec 8
  nm1 : BitVec 8
  shelf : BitVec 48
  ch : BitVec 4
  deriving DecidableEq, Repr

/-- LOOP (Table 7-11). -/
structure LoopOp where
  cntm1 : BitVec 20
  d0 : BitVec 17
  d1 : BitVec 17
  d2 : BitVec 17
  d3 : BitVec 17
  deriving DecidableEq, Repr

/-- An engine instruction word without its DELAY (Table 7-4). -/
inductive EOp where
  | nop
  | lds (o : LdsOp)
  | pass (o : PassOp)
  | drain (o : DrainOp)
  | drainr (o : DrainOp)
  | bal (g : BitVec 20)
  | vop (o : VOp)
  | vred (o : VOp)
  | cvt (o : XOp)
  | sfn (o : FOp)
  | gact (o : FOp)
  | smx (o : FOp)
  | nrm (o : FOp)
  | qclr (o : VOp)
  | qmac (o : VOp)
  | qacc (o : VOp)
  | qrnd (o : VOp)
  | scl (o : SclOp)
  | stat (o : StatOp)
  | mov (o : MovOp)
  | csend (o : CsendOp)
  | crecv (o : CrecvOp)
  | qadd (o : QaddOp)
  | chk (kind : BitVec 2)
  | loop (o : LoopOp)
  | endl
  | wtick
  | yield (step : Bool)
  | halt
  deriving DecidableEq, Repr

/-- What made the pass fault (R108, R232). -/
inductive PassCause where
  | checksum | statParity | bankParity
  deriving DecidableEq, Repr

/-- A wrong sum: the column (64 for the checksum column) and the error `err * 2^exp` that a fault added to it. -/
structure SumErr where
  col : BitVec 7
  err : Int
  exp : Int
  deriving DecidableEq, Repr

/-- A fault inside a run of a pass: the vector and problem it strikes, its kind, the physical row and column of a stationary
cell (for a bank element, `col` is its logical column), and the errors it puts into the tree outputs. -/
structure FaultSite where
  m : BitVec 8
  p : BitVec 2
  cause : PassCause
  row : BitVec 7
  col : BitVec 7
  errs : List SumErr
  deriving DecidableEq, Repr

/-- The hardware errors of a pass fault: the engine, which pass in flight (0 the oldest), the first fault, the faults that strike
its replay, in cycle order, and whether a third run faults (R108, R232, R234). -/
structure FaultFinding where
  leng : BitVec 6
  pass : Nat
  site : FaultSite
  replay : List FaultSite
  third : Bool
  deriving DecidableEq, Repr

/-- RETRACT message (Table 9-5). -/
structure RetractMsg where
  job : BitVec 2
  bg : Bool
  all : Bool
  omod : BitVec 5
  oleng : BitVec 6
  col : BitVec 6
  workTick : BitVec 64
  tid : BitVec 12
  bix : BitVec 8
  passIdx : BitVec 20
  target : BitVec 48
  count : BitVec 16
  deriving DecidableEq, Repr

/-- What the sensors of Table 10-1 read when a tick falls: power (0.1 W), zone rail power (0.1 W), zone rail current (0.1 A), the
junction sensors TJ0 to TJ7 of dies C0 to C15 (°C), each die's power, the temperature of packages 0 to 25 of hubs H0 to H3 (°C), and
the latched sample counts of the four ports at the tick. -/
structure TickEnv where
  p1ms : BitVec 16
  zpower : List (BitVec 16)
  zcurrent : List (BitVec 12)
  tj : List (BitVec 8)
  dpower : List (BitVec 32)
  tpkg : List (BitVec 8)
  counts : List (BitVec 64)
  deriving DecidableEq, Repr

/-- Why a zone's engine clocks freeze (R269, R267, Table 15-7): a rail current (0.1 A, over 1 µs), a temperature (°C), the input
envelope, another zone's freeze. -/
inductive FreezeCause where
  | current (reading : BitVec 12)
  | temperature (reading : BitVec 8)
  | envelope
  | linked
  deriving DecidableEq, Repr

/-- What the sensors of a frozen zone read (R269): its rail current (0.1 A, over 2 µs) and its temperature (°C). -/
structure ZoneReading where
  zone : BitVec 2
  current : BitVec 12
  temp : BitVec 8
  deriving DecidableEq, Repr

/-- A job-unit packet of the Abfold fabric (Table 13-5): its header and its data lines. In an RDREQ, which carries no data
lines, NLM1 gives the lines to read. -/
structure Packet where
  op : BitVec 4
  job : BitVec 2
  bg : Bool
  last : Bool
  rtry : Bool
  smod : BitVec 5
  sleng : BitVec 6
  ch : BitVec 4
  qfmt : BitVec 4
  nlm1 : BitVec 5
  pidx : BitVec 16
  target : BitVec 48
  workTick : BitVec 64
  deadline : BitVec 32
  poison : BitVec 24
  marks : List Byte
  retShelf : BitVec 48
  terms : BitVec 32
  special : List (BitVec 2)
  lines : List Line
  deriving DecidableEq, Repr

/-- Which of the module's units a physical fault, a retirement or a reset names. -/
inductive RetireCause where
  | training | uncorrectable | corrected | host
  deriving DecidableEq, Repr

/-- What the boot sequencer finds outside the stores the model holds (Table 16-11): REFCLK, fuses, each hub's
bring-up, packages that fail training, each zone's rail, each compute die, engines failing self-test, coolant flow
(0.01 L/min), whether each hub can use stored training, the boot time in ms, and whether RESET_N is low as the boot starts. [log 5, DESIGN CHOICE] -/
structure BootEnv where
  refclk : Bool
  fuses : Bool
  hubs : BitVec 4
  badPackages : List (BitVec 2 × BitVec 5)
  zones : BitVec 4
  dies : BitVec 16
  badEngines : List (BitVec 4 × BitVec 3)
  flow : BitVec 16
  storedOk : BitVec 4
  bootMs : BitVec 16
  resetLow : Bool
  deriving DecidableEq, Repr

/-- What a port measures or receives while its link starts (R289): whether lanes lock and align, and the instant
rate and the lane rate in units the start checks need. -/
structure LinkObs where
  locked : Bool
  aligned : Bool
  deriving DecidableEq, Repr

/-- A level seen on RESET_N (R419, R437, R439): the pin falls, is held low for a number of REFCLK cycles, and
rises. -/
structure ResetPulse where
  lowCycles : Nat
  env : BootEnv
  deriving DecidableEq, Repr

/-- The commands: every row of spec/opcode_table.json. [log 1, DESIGN CHOICE] -/
inductive Instr where
  | nop (h : IssueHdr)
  | lds (h : IssueHdr) (o : LdsOp)
  | pass (h : IssueHdr) (o : PassOp)
  | drain (h : IssueHdr) (o : DrainOp)
  | drainr (h : IssueHdr) (o : DrainOp)
  | bal (h : IssueHdr) (g : BitVec 20)
  | vop (h : IssueHdr) (o : VOp)
  | vred (h : IssueHdr) (o : VOp)
  | cvt (h : IssueHdr) (o : XOp)
  | sfn (h : IssueHdr) (o : FOp)
  | gact (h : IssueHdr) (o : FOp)
  | smx (h : IssueHdr) (o : FOp)
  | nrm (h : IssueHdr) (o : FOp)
  | qclr (h : IssueHdr) (o : VOp)
  | qmac (h : IssueHdr) (o : VOp)
  | qacc (h : IssueHdr) (o : VOp)
  | qrnd (h : IssueHdr) (o : VOp)
  | scl (h : IssueHdr) (o : SclOp)
  | stat (h : IssueHdr) (o : StatOp)
  | mov (h : IssueHdr) (o : MovOp)
  | csend (h : IssueHdr) (o : CsendOp)
  | crecv (h : IssueHdr) (o : CrecvOp)
  | qadd (h : IssueHdr) (o : QaddOp)
  | chk (h : IssueHdr) (kind : BitVec 2)
  | loop (h : IssueHdr) (o : LoopOp)
  | endl (h : IssueHdr)
  | wtick (h : IssueHdr)
  | yield (h : IssueHdr) (step : Bool)
  | halt (h : IssueHdr)
  /-- The oldest pass in flight of the logical engine commits. -/
  | passCommit (leng : BitVec 6)
  | passFault (f : FaultFinding)
  /-- The oldest pending row check completes; `errs` are the errors that faults put into the sums G_n of the pass. -/
  | rowCheckComplete (leng : BitVec 6) (errs : List SumErr)
  /-- A RETRACT reaches logical engine `leng` (or, with `leng = none`, the verdict buffer). -/
  | retract (leng : Option (BitVec 6)) (m : RetractMsg)
  | statReady (leng : BitVec 6) (seg : Seg)
  /-- The oldest record write due on the engine takes place. -/
  | scaleRecordWrite (leng : BitVec 6)
  /-- The oldest queued statistics transfer of the job slot arrives, in time or late. -/
  | statisticsTransfer (slot : BitVec 2) (late : Bool)
  /-- The next element of the chain transfer from `src` on channel `ch` lands at the engine's cycle. -/
  | chainArrival (leng : BitVec 6) (src : BitVec 6) (ch : BitVec 4) (cycle : Nat)
  /-- The next line of mover transfer `xfer` lands in its target's engine cycle `cycle`. -/
  | moverLineArrival (xfer : Nat) (cycle : Nat)
  /-- The declared cycle of mover transfer `xfer` is reached. -/
  | transferDeadline (xfer : Nat)
  /-- Entry `entry` of the slot's hub mover schedule starts. -/
  | hubMoverEntry (slot : BitVec 2) (entry : Nat)
  | idleRampDown (leng : BitVec 6)
  | tick (env : TickEnv)
  | engineFrameStart (leng : BitVec 6)
  | overrun (leng : BitVec 6)
  | segmentCut (leng : BitVec 6)
  /-- The port's sample counter, now `count`, reached TICK.SOFS; the edge falls `since` REFCLK cycles after the last tick. -/
  | tickRephase (count : BitVec 64) (since : Nat)
  /-- TICK_IN is captured `offset` REFCLK cycles after the last tick; `wide` for a 4-cycle wake pulse. -/
  | tickInCapture (offset : Nat) (wide : Bool)
  | tickAlign (master : BitVec 5) (period : BitVec 32) (aligned : BitVec 64)
  | stepLink (slot : BitVec 2) (sender : BitVec 5) (stepCode : BitVec 8) (atTick : BitVec 64)
  /-- A zone's rail current or temperature calls for a freeze at REFCLK time `time`. -/
  | throttleFreeze (zone : BitVec 2) (cause : FreezeCause) (time : Nat)
  /-- A zone's rail current and temperature at REFCLK time `time`. -/
  | freezeRelease (zone : ZoneReading) (time : Nat)
  /-- The 50 µs mean of the input power, in 0.1 W, at REFCLK time `time`. -/
  | envelopeGuard (p50us : BitVec 16) (time : Nat)
  | junctionTrip (tj : BitVec 8)
  | refclkLost
  | completionMonitor (leng : BitVec 6) (seg : Seg)
  | bgWatchdog (leng : BitVec 6)
  /-- The unit running on physical engine `peng` of the die finishes; `outputs` are its output lines in order. -/
  | testUnitComplete (die : BitVec 4) (peng : BitVec 3) (outputs : List Line)
  | catalogueEntryLost (tid : BitVec 12)
  | jobLoad (slot : BitVec 2)
  | jobResume (slot : BitVec 2)
  | jobUnload (slot : BitVec 2)
  | jobSlotReset (slot : BitVec 2)
  | jobPause (slot : BitVec 2)
  | saveImageWrite (slot : BitVec 2)
  | jobCont (slot : BitVec 2)
  | testctlSweep
  | alertClear
  /-- HCTL.BRST of a register page that is not a SEQ page. -/
  | blockReset (page : BitVec 12)
  | engineReset (die : BitVec 4) (peng : BitVec 3)
  | catalogueSel (tid : BitVec 12)
  | retire (hub : BitVec 2) (pkg : BitVec 5)
  | attestationRequest
  | attestationReport
  | registerWrite (addr : BitVec 24) (value : BitVec 32)
  | pwrctlStby
  | pwrctlWake
  /-- The warm reset of MOD.PWRCTL.WRST, with what the boot stages find. -/
  | wrst (env : BootEnv)
  | stbyReqNFall
  | stbyReqNRise
  | wakeNFall
  | standbyEntry
  /-- The wake stage `us` µs after W (Table 10-5). -/
  | wakeStage (us : BitVec 8)
  | firstActiveTick (env : TickEnv)
  /-- A block of 256 decimated samples (I, Q) of the watched port; its first instant's counter value. -/
  | nightDeskBlock (samples : List (BitVec 16 × BitVec 16)) (count : BitVec 64)
  /-- Coolant inlet and outlet (°C) and flow (0.01 L/min). -/
  | coolantSample (inlet : BitVec 8) (outlet : BitVec 8) (flow : BitVec 16)
  | accLinkStart (port : BitVec 2)
  | accLinkStop (port : BitVec 2)
  | arm (port : BitVec 2)
  /-- A SYSREF edge sampled by the port; `onPhase`: it falls on the LEMC phase already fixed. -/
  | sysrefEdge (port : BitVec 2) (onPhase : Bool) (obs : LinkObs)
  | accLinkDown (port : BitVec 2)
  /-- The port relocks; `holdover` is the holdover value of the counter. -/
  | accRelock (port : BitVec 2) (holdover : BitVec 64)
  /-- A CRC-12 mismatch on a lane strikes the instants from `first` to `last`. -/
  | crcerr (port : BitVec 2) (lane : BitVec 5) (first : BitVec 64) (last : BitVec 64)
  /-- The counter value of the first instant released at or after the window edge. -/
  | windowEdge (port : BitVec 2) (count : BitVec 64)
  /-- The codes (24 bits) of the tile of the frame whose window closed last, how many elements reached their code
  by saturation, and whether any row's span holds a bad instant is decided from the port's bad span. -/
  | tileReady (port : BitVec 2) (first : BitVec 64) (codes : List (BitVec 16))
  /-- Lines for a ring (raw, or decimated) starting at line index `index`, covering instants up to `upto`;
  `accepted` false when the Stacks did not take the write. -/
  | captureRingWrite (port : BitVec 2) (dec : Bool) (index : BitVec 36) (codes : List (BitVec 24)) (upto : BitVec 64)
      (accepted : Bool)
  | ringStop (port : BitVec 2) (next : BitVec 64)
  | rawstop (port : BitVec 2)
  | ringStart (port : BitVec 2) (front : BitVec 64)
  | refreshPosition (hub : BitVec 2)
  /-- A patrol reads a group of a hub; the lines of it (offsets in the quadrant) that had a corrected error. -/
  | scrub (hub : BitVec 2) (group : BitVec 20) (corrected : List (BitVec 42))
  /-- The check word of the line at a Stacks offset is written in a host position after an uncorrectable read. -/
  | poisonWriteback (addr : BitVec 42)
  | packageRetirement (hub : BitVec 2) (pkg : BitVec 5) (cause : RetireCause)
  | packageCopyComplete (hub : BitVec 2)
  | abfoldPortEnable (port : BitVec 3)
  | abfoldPortDisable (port : BitVec 3)
  | abfoldRetrain (port : BitVec 3)
  /-- Training of a port ends: lanes locked, the partner's number, dimension and JSHARE, and the measured latency
  in 0.625 ns units. -/
  | abfoldTrainingEnd (port : BitVec 3) (lanes : BitVec 4) (locked : Bool) (pmod : BitVec 5) (pdim : BitVec 3)
      (pshare : BitVec 20) (latency : BitVec 16)
  /-- A link block arrives on a port: the 224 bytes of each of its eight working lanes. -/
  | abfoldBlock (port : BitVec 3) (lanes : List (List Byte))
  | abfoldLaneReplace (port : BitVec 3) (lane : BitVec 4)
  | abfoldPortDown (port : BitVec 3)
  | wr (p : Packet) (cycle : Nat) (late : Bool)
  | rdreq (p : Packet) (cycle : Nat) (late : Bool)
  | rdresp (p : Packet) (cycle : Nat) (late : Bool)
  | qaddPacket (p : Packet) (cycle : Nat) (late : Bool)
  | regRd (tag : BitVec 16) (addr : BitVec 64) (nreg : BitVec 16)
  | regWr (tag : BitVec 16) (addr : BitVec 64) (nreg : BitVec 16) (values : List (BitVec 32))
  | blkWr (tag : BitVec 16) (addr : BitVec 64) (lines : List Line)
  | blkRd (tag : BitVec 16) (addr : BitVec 64) (len : BitVec 16)
  | doorbellFolio (tag : BitVec 16) (value : BitVec 64)
  | doorbellWake (tag : BitVec 16)
  | doorbellPing (tag : BitVec 16)
  | event
  | verdict
  | log
  /-- A Vilri block arrives: the 272 bytes of each of the four logical lanes. -/
  | vilriBlock (lanes : List (List Byte))
  /-- A lane fails; `tx` for the transmit direction (the partner asked), else reception. -/
  | vilriLaneReplace (tx : Bool) (lane : BitVec 3)
  | vilriRetrain
  | vilriTrainingRestart
  /-- Training ends: lanes locked, lane skew (ns), round trip (ns), the control node's advertisements. -/
  | vilriLinkUp (lanes : BitVec 3) (skew : BitVec 16) (rtt : BitVec 16) (adv : List (BitVec 16))
  | vilriLinkDown
  | coldBoot (env : BootEnv)
  | trainingFolioWrite
  | resetN (p : ResetPulse)
  | powerOff
  | inputOutOfRange
  | inputInRange
  /-- Sideband transactions (Table 17-5); `pecOk`: the PEC byte checks. -/
  | read (addr : BitVec 24) (pecOk : Bool)
  | write (addr : BitVec 24) (value : BitVec 32) (pecOk : Bool)
  | wstat
  /-- SUMMARY, with the sensed 48 V input (0.01 V, 0.01 A). -/
  | summary (vin : BitVec 16) (iin : BitVec 16) (pecOk : Bool)
  | tapReset
  | bypass
  | idcode
  | samplePreload
  | extest
  | clamp
  | zoneRailOrClockFault (zone : BitVec 2)
  | hubFault (hub : BitVec 2)
  | dieFault (die : BitVec 4)
  /-- The boot-store write in progress ends; `ok` when every byte was written. -/
  | bootStoreWrite (ok : Bool)
  deriving DecidableEq, Repr

end Sys2Proof
end

