-- ==== Sys2Proof/WellFormed.lean ====
section
/-! DEFINITION. Which instruction words a loaded image can hold: the field rules that the
Registrar checks on every instruction word (R33, R142, R185-R189, R458, R459; Table 7-18 codes 0x05 to 0x09). -/

namespace Sys2Proof

/-- A format code is one of a list. -/
def fmtIn (c : BitVec 4) (l : List Nat) : Bool := l.contains c.toNat

/-- Codes that are not reserved (Table 2-1). -/
def codes : List Nat := [0, 1, 2, 4, 5, 6, 7, 8, 9, 10, 11]
/-- Codes of the formats other than quires. -/
def codesNQ : List Nat := [0, 1, 2, 4, 5, 6, 7, 8]
/-- Array operand codes (Table 2-1). -/
def codesArr : List Nat := [0, 1, 4, 5, 6, 7]
/-- Drain, residual and multiplier codes (R73). -/
def codesDrain : List Nat := [0, 1, 2, 6, 7, 8]
/-- Formats that a function, a reduction or a quire gives, and that it takes from the Carrel: storage codes enter and leave through CVT,
and enter through the expansion of R144 (R33, R43, R141). -/
def codesFn : List Nat := [0, 1, 2, 6, 7, 8]
/-- Formats a lane register may hold (R185). -/
def codesLane : List Nat := [0, 1, 2, 8]
/-- Posit codes. -/
def codesPosit : List Nat := [0, 1, 2]
/-- IEEE codes. -/
def codesIeee : List Nat := [6, 7, 8]

/-- A pair slot of the segment (R186). -/
def slotOk (g : Seg) (n : BitVec 5) : Bool := if g = .rt then decide (n.toNat < 16) else decide (16 ≤ n.toNat)

/-- A tag entry of the segment (R186). -/
def tagOk (g : Seg) (n : BitVec 8) : Bool := if g = .rt then decide (n.toNat < 128) else decide (128 ≤ n.toNat)

/-- A lane register operand leaves the bits above its index 0 (R185). -/
def kindBits (k : Bool) (a : BitVec 17) : Bool := !k || decide (a.toNat < 16)

/-- A lane register operand belongs to the segment (R142); a Carrel operand is not checked at load (R183). -/
def opMine (g : Seg) (k : Bool) (a : BitVec 17) : Bool := !k || (if g = .rt then decide (a.toNat < 8) else decide (8 ≤ a.toNat))

/-- A lane register named by a C field. -/
def regOk (g : Seg) (c : BitVec 4) : Bool := if g = .rt then decide (c.toNat < 8) else decide (8 ≤ c.toNat)

/-- A lane quire or mask register of the segment. -/
def halfOk (g : Seg) (q : BitVec 2) : Bool := if g = .rt then decide (q.toNat < 2) else decide (2 ≤ q.toNat)

/-- A lane-register destination takes a lane format and at most `maxN` vectors (R185, R189). -/
def laneDst (dk : Bool) (f : BitVec 4) (nm1 : BitVec 12) (maxN : Nat) : Bool :=
  !dk || (fmtIn f codesLane && decide (nm1.toNat < maxN))

/-- VOP functions (Table 6-2). -/
def vopFuncs : List Nat := [0, 1, 2, 3, 4, 5, 6, 7, 8, 9, 10, 16, 17, 18, 19]
/-- VOP functions of two or three sources. -/
def vopBin : List Nat := [0, 1, 2, 3, 4, 5, 16, 17, 18, 19]
/-- Compares. -/
def vopCmp : List Nat := [16, 17, 18]

/-- A source format fits the work format (R144): posit work takes posits and storage codes, fp32 work IEEE formats. A
register source keeps its own tag and its format field is not read. -/
def srcFits (w : BitVec 4) (k : Bool) (f : BitVec 4) : Bool :=
  k || (if w = 8 then fmtIn f codesIeee else fmtIn f [0, 1, 2, 4, 5])

/-- A result format fits the work format (R144). -/
def resFits (w f : BitVec 4) : Bool := if w = 8 then fmtIn f codesIeee else fmtIn f codesPosit

/-- An operand's format field: one of a list for a stream; a lane register is read with its own tag, so any code that is not reserved
(R33, R185). -/
def readFmt (k : Bool) (f : BitVec 4) (l : List Nat) : Bool := fmtIn f (if k then codes else l)

/-- Lines of a 64 by 64 tile of a format code (R331). -/
def tileLines (f : BitVec 4) : Nat :=
  if f = 4 then 32 else if f = 0 ∨ f = 5 then 64 else if f = 2 ∨ f = 8 then 256 else 128

namespace EOp

/-- Reserved values: what Table 7-18's check 0x05 refuses beyond the reserved bits of a word (R142, R185, R458, R459, and the
ranges of Tables 7-7 to 7-11). -/
def ok05 : EOp → Bool
  | lds o => decide (o.ksplit.toNat < 3)
  | pass o => decide (o.ksplit.toNat < 3) && (decide (1 ≤ o.ksplit.toNat) || decide (o.in1 = 0)) &&
      (decide (o.ksplit.toNat = 2) || (decide (o.in2 = 0) && decide (o.in3 = 0)))
  | bal g => decide (1 ≤ g.toNat)
  | vop o => vopFuncs.contains o.func.toNat && kindBits o.ak o.a && kindBits o.dk o.d &&
      (!vopBin.contains o.func.toNat || kindBits o.bk o.b)
  | vred o => decide (o.func.toNat ≤ 4) && kindBits o.ak o.a && kindBits o.dk o.d
  | cvt o => kindBits o.ak o.a && kindBits o.dk o.d
  | sfn o => (o.ctl.getLsbD 5 || decide (o.ctl.toNat % 32 ≤ 5)) && decide (o.lq = 0) && kindBits o.ak o.a && kindBits o.dk o.d
  | gact o => (o.ctl.getLsbD 5 || decide (o.ctl.toNat % 32 ≤ 5)) && decide (o.lq = 0) && kindBits o.ak o.a &&
      kindBits o.bk o.b && kindBits o.dk o.d
  | smx o => decide (o.ctl.toNat % 32 = 0) && kindBits o.ak o.a && (!o.ctl.getLsbD 5 || kindBits o.dk o.d)
  | nrm o => decide (o.ctl.toNat / 16 < 3) && decide (o.ctl.toNat % 8 = 0) && decide (o.lq = 0) && kindBits o.ak o.a &&
      (!decide (o.ctl.toNat / 16 = 1) || o.ak) &&
      (!decide (o.ctl.toNat / 16 = 2) || (!o.bk && kindBits o.dk o.d))
  | qclr o => decide (o.func = 0)
  | qmac o => decide (o.func = 0) && kindBits o.ak o.a && kindBits o.bk o.b
  | qacc o => decide (o.func = 0) && kindBits o.ak o.a
  | qrnd o => decide (o.func = 0) && kindBits o.dk o.d
  | stat o => decide (1 ≤ o.nlines.toNat) && decide (o.nlines.toNat ≤ 98304)
  | mov o => decide (1 ≤ o.len.toNat)
  | crecv o => !o.sk || decide (o.src.toNat < 32)
  | chk k => decide (k = 0)
  | _ => true

/-- Format fields: check 0x06 (R33, R73, R124, R331, Tables 2-1, 7-6). [log 19, DEDUCED] -/
def ok06 : EOp → Bool
  | lds o => fmtIn o.fmt codesArr
  | pass o => fmtIn o.fmt codesArr
  | drain o | drainr o => fmtIn o.dfmt codesDrain && fmtIn o.rfmt codes && fmtIn o.gfmt codes &&
      (!o.res || fmtIn o.rfmt codesDrain) && (!o.mul || fmtIn o.gfmt codesDrain)
  | vop o => fmtIn o.wfmt codesLane && readFmt o.ak o.afmt codesNQ && fmtIn o.bfmt codes && fmtIn o.dfmt codes &&
      (!vopBin.contains o.func.toNat || readFmt o.bk o.bfmt codesNQ)
  | vred o => fmtIn o.wfmt codesLane && readFmt o.ak o.afmt codesNQ && fmtIn o.bfmt codes && fmtIn o.dfmt codesFn
  | cvt o => readFmt o.ak o.afmt codesNQ && fmtIn o.dfmt codesNQ
  | sfn o => readFmt o.ak o.afmt codesFn && fmtIn o.bfmt codes && fmtIn o.dfmt codesFn
  | gact o => readFmt o.ak o.afmt codesFn && readFmt o.bk o.bfmt codesFn && fmtIn o.dfmt codesFn
  | smx o => readFmt o.ak o.afmt [0, 1, 2, 8] && fmtIn o.bfmt codes && fmtIn o.dfmt codesFn
  | nrm o => readFmt o.ak o.afmt codesNQ && fmtIn o.bfmt codes && fmtIn o.dfmt codesFn
  | qclr o => fmtIn o.wfmt [9, 10, 11] && fmtIn o.afmt codes && fmtIn o.bfmt codes && fmtIn o.dfmt codes
  | qmac o | qacc o => fmtIn o.wfmt codes && fmtIn o.afmt codes && fmtIn o.bfmt codes && fmtIn o.dfmt codes
  | qrnd o => fmtIn o.wfmt codes && fmtIn o.dfmt codesFn && fmtIn o.afmt codes && fmtIn o.bfmt codes
  | stat o => fmtIn o.sfmt codesNQ && fmtIn o.dfmt [0, 1, 2, 4, 5]
  | mov o => fmtIn o.xfmt codes && (!o.xpose || (fmtIn o.xfmt codesNQ && decide (o.len.toNat % tileLines o.xfmt = 0)))
  | _ => true

/-- A record operand's tag entry belongs to the segment where a record is read (R186, R191). -/
def recMine (g : Seg) (r : RecOp) : Bool := decide (r.sg = 0) || decide (r.sg = 2) || tagOk g r.tag

/-- Segment ownership: check 0x08 (R142, R186). [log 20, DEDUCED] -/
def ok08 (g : Seg) : EOp → Bool
  | drain o | drainr o => slotOk g o.aslot && (!o.res || slotOk g o.rslot) && (!o.mul || slotOk g o.gslot) && tagOk g o.tag
  | vop o => opMine g o.ak o.a && (!vopBin.contains o.func.toNat || opMine g o.bk o.b) &&
      (!decide (o.func.toNat = 3) || regOk g o.c) &&
      (!(vopCmp.contains o.func.toNat || decide (o.func.toNat = 19)) || halfOk g o.mlq) &&
      (vopCmp.contains o.func.toNat || opMine g o.dk o.d)
  | vred o => opMine g o.ak o.a && opMine g o.dk o.d
  | cvt o => opMine g o.ak o.a && opMine g o.dk o.d && (!o.sen || (slotOk g o.slot && tagOk g o.tag))
  | sfn o => opMine g o.ak o.a && opMine g o.dk o.d
  | gact o => opMine g o.ak o.a && opMine g o.bk o.b && opMine g o.dk o.d
  | smx o => opMine g o.ak o.a && halfOk g o.lq && regOk g o.c && (!o.ctl.getLsbD 5 || opMine g o.dk o.d)
  | nrm o => opMine g o.ak o.a && (decide (o.ctl.toNat / 16 = 0) || (regOk g o.c && regOk g (o.c + 1))) &&
      (!decide (o.ctl.toNat / 16 = 2) || opMine g o.dk o.d)
  | qclr o => halfOk g o.mlq
  | qmac o => halfOk g o.mlq && opMine g o.ak o.a && opMine g o.bk o.b
  | qacc o => halfOk g o.mlq && opMine g o.ak o.a
  | qrnd o => halfOk g o.mlq && opMine g o.dk o.d
  | scl o => slotOk g o.slot && recMine g o.r1 && recMine g o.r2 && recMine g o.r3
  | mov o => !o.ten || tagOk g o.tag
  | _ => true

/-- Format mixing and lane destinations: check 0x09 (R144, R147, R167, R185, R189). -/
def ok09 : EOp → Bool
  | vop o => srcFits o.wfmt o.ak o.afmt && (!vopBin.contains o.func.toNat || srcFits o.wfmt o.bk o.bfmt) &&
      (vopCmp.contains o.func.toNat || (resFits o.wfmt o.dfmt && laneDst o.dk o.dfmt o.nm1 1))
  | vred o => srcFits o.wfmt o.ak o.afmt && resFits o.wfmt o.dfmt && laneDst o.dk o.dfmt o.nm1 64 &&
      (decide (o.func.toNat < 3) || !decide (o.dfmt = 0))
  | cvt o => laneDst o.dk o.dfmt o.nm1 1
  | sfn o => laneDst o.dk o.dfmt o.nm1 1
  | gact o => laneDst o.dk o.dfmt o.nm1 1
  | smx o => !o.ctl.getLsbD 5 || laneDst o.dk o.dfmt o.nm1 1
  | nrm o => (o.ak || fmtIn o.afmt [0, 1, 2, 6, 7, 8]) && (!decide (o.ctl.toNat / 16 = 1) || decide (o.nm1 = 0)) &&
      (!decide (o.ctl.toNat / 16 = 2) || laneDst o.dk o.dfmt o.nm1 1)
  | qrnd o => laneDst o.dk o.dfmt o.nm1 1
  | _ => true

/-- The record carries sign +1. -/
def recPlus (r : RecOp) : Bool := decide (r.sg = 1) || decide (r.sg = 2)

/-- Check 0x0A's own part: an SCL has at most one record of sign +1 (R191). -/
def ok0A : EOp → Bool
  | scl o => decide (([o.r1, o.r2, o.r3].filter recPlus).length ≤ 1)
  | _ => true

/-- Check 0x0E's own part: a YIELD stands in a BG segment only (R179). -/
def ok0E (g : Seg) : EOp → Bool
  | yield _ => decide (g = .bg)
  | _ => true

/-- The word's instruction can stand in a loaded image's segment. -/
def ok (g : Seg) (o : EOp) : Bool := o.ok05 && o.ok06 && o.ok08 g && o.ok09 && o.ok0A && o.ok0E g

/-- The command that issues the word's instruction. -/
def instr (h : IssueHdr) : EOp → Instr
  | nop => .nop h
  | lds o => .lds h o
  | pass o => .pass h o
  | drain o => .drain h o
  | drainr o => .drainr h o
  | bal g => .bal h g
  | vop o => .vop h o
  | vred o => .vred h o
  | cvt o => .cvt h o
  | sfn o => .sfn h o
  | gact o => .gact h o
  | smx o => .smx h o
  | nrm o => .nrm h o
  | qclr o => .qclr h o
  | qmac o => .qmac h o
  | qacc o => .qacc h o
  | qrnd o => .qrnd h o
  | scl o => .scl h o
  | stat o => .stat h o
  | mov o => .mov h o
  | csend o => .csend h o
  | crecv o => .crecv h o
  | qadd o => .qadd h o
  | chk k => .chk h k
  | loop o => .loop h o
  | endl => .endl h
  | wtick => .wtick h
  | yield st => .yield h st
  | halt => .halt h

end EOp

namespace Instr

/-- The command is no engine instruction, or one whose word a loaded image can hold. [log 4, DESIGN CHOICE] -/
def wf : Instr → Bool
  | nop _ => true
  | lds h o => (EOp.lds o).ok h.seg
  | pass h o => (EOp.pass o).ok h.seg
  | drain h o => (EOp.drain o).ok h.seg
  | drainr h o => (EOp.drainr o).ok h.seg
  | bal h g => (EOp.bal g).ok h.seg
  | vop h o => (EOp.vop o).ok h.seg
  | vred h o => (EOp.vred o).ok h.seg
  | cvt h o => (EOp.cvt o).ok h.seg
  | sfn h o => (EOp.sfn o).ok h.seg
  | gact h o => (EOp.gact o).ok h.seg
  | smx h o => (EOp.smx o).ok h.seg
  | nrm h o => (EOp.nrm o).ok h.seg
  | qclr h o => (EOp.qclr o).ok h.seg
  | qmac h o => (EOp.qmac o).ok h.seg
  | qacc h o => (EOp.qacc o).ok h.seg
  | qrnd h o => (EOp.qrnd o).ok h.seg
  | scl h o => (EOp.scl o).ok h.seg
  | stat h o => (EOp.stat o).ok h.seg
  | mov h o => (EOp.mov o).ok h.seg
  | csend _ _ => true
  | crecv h o => (EOp.crecv o).ok h.seg
  | qadd _ _ => true
  | chk h k => (EOp.chk k).ok h.seg
  | loop _ _ => true
  | endl _ => true
  | wtick _ => true
  | yield h st => (EOp.yield st).ok h.seg
  | halt _ => true
  | _ => true

end Instr

end Sys2Proof
end

