-- ==== Sys2Proof/Decode.lean ====
section
/-! DEFINITION. The encoding of engine instruction words (spec/07_engine_schedules.md R184-R194, Tables 7-4 to 7-11): the
encoder and the decoder the Registrar's load checks use. A word is a list of fields, lowest first; OPCODE lies in
[127:122] and DELAY in [121:106]. The command table gives no bits, so `decodeTableWord` spells no command. -/

namespace Sys2Proof

/-- Pack fields (width, value), lowest first. -/
def packFields : List (Nat × Nat) → Nat
  | [] => 0
  | (w, v) :: t => v % 2 ^ w + 2 ^ w * packFields t

/-- Cut a number into fields of the given widths, lowest first. -/
def cutFields : List Nat → Nat → List Nat
  | [], _ => []
  | w :: t, n => n % 2 ^ w :: cutFields t (n / 2 ^ w)

/-- Fields of LDS (Table 7-5), lowest first. -/
def ldsFields (o : LdsOp) : List (Nat × Nat) :=
  [(81, 0), (17, o.tbase.toNat), (2, o.ksplit.toNat), (1, o.fast.toNat), (4, o.fmt.toNat), (1, o.adv.toNat)]

/-- The operands of LDS (Table 7-5) from its fields. -/
def ldsOf : List Nat → Option LdsOp
  | [z1, tbase, ksplit, fast, fmt, adv] =>
    if z1 = 0 then
      some { tbase := BitVec.ofNat 17 tbase, ksplit := BitVec.ofNat 2 ksplit, fast := decide (fast = 1),
             fmt := BitVec.ofNat 4 fmt, adv := decide (adv = 1) }
    else none
  | _ => none

/-- Widths of its fields. -/
def ldsW : List Nat := [81, 17, 2, 1, 4, 1]

/-- Fields of PASS (Table 7-5), lowest first. -/
def passFields (o : PassOp) : List (Nat × Nat) :=
  [(12, 0), (17, o.in3.toNat), (17, o.in2.toNat), (17, o.in1.toNat), (17, o.in0.toNat), (8, o.boff.toNat),
   (8, o.mm1.toNat), (1, o.src.toNat), (1, o.dsth.toNat), (2, o.ksplit.toNat), (1, o.fast.toNat), (4, o.fmt.toNat),
   (1, o.adv.toNat)]

/-- The operands of PASS (Table 7-5) from its fields. -/
def passOf : List Nat → Option PassOp
  | [z1, in3, in2, in1, in0, boff, mm1, src, dsth, ksplit, fast, fmt, adv] =>
    if z1 = 0 then
      some { in3 := BitVec.ofNat 17 in3, in2 := BitVec.ofNat 17 in2, in1 := BitVec.ofNat 17 in1,
             in0 := BitVec.ofNat 17 in0, boff := BitVec.ofNat 8 boff, mm1 := BitVec.ofNat 8 mm1,
             src := decide (src = 1), dsth := decide (dsth = 1), ksplit := BitVec.ofNat 2 ksplit,
             fast := decide (fast = 1), fmt := BitVec.ofNat 4 fmt, adv := decide (adv = 1) }
    else none
  | _ => none

/-- Widths of its fields. -/
def passW : List Nat := [12, 17, 17, 17, 17, 8, 8, 1, 1, 2, 1, 4, 1]

/-- Fields of DRAIN and DRAINR (Table 7-6), lowest first. -/
def drainFields (o : DrainOp) : List (Nat × Nat) :=
  [(5, o.gslot.toNat), (4, o.gfmt.toNat), (17, o.gbase.toNat), (5, o.rslot.toNat), (4, o.rfmt.toNat),
   (17, o.rbase.toNat), (1, o.mul.toNat), (1, o.res.toNat), (8, o.tag.toNat), (4, o.dfmt.toNat), (17, o.dst.toNat),
   (5, o.aslot.toNat), (8, o.nm1.toNat), (8, o.base.toNat), (1, o.half.toNat), (1, o.adv.toNat)]

/-- The operands of DRAIN and DRAINR (Table 7-6) from its fields. -/
def drainOf : List Nat → Option DrainOp
  | [gslot, gfmt, gbase, rslot, rfmt, rbase, mul, res, tag, dfmt, dst, aslot, nm1, base, half, adv] =>
    some { gslot := BitVec.ofNat 5 gslot, gfmt := BitVec.ofNat 4 gfmt, gbase := BitVec.ofNat 17 gbase,
           rslot := BitVec.ofNat 5 rslot, rfmt := BitVec.ofNat 4 rfmt, rbase := BitVec.ofNat 17 rbase,
           mul := decide (mul = 1), res := decide (res = 1), tag := BitVec.ofNat 8 tag, dfmt := BitVec.ofNat 4 dfmt,
           dst := BitVec.ofNat 17 dst, aslot := BitVec.ofNat 5 aslot, nm1 := BitVec.ofNat 8 nm1,
           base := BitVec.ofNat 8 base, half := decide (half = 1), adv := decide (adv = 1) }
  | _ => none

/-- Widths of its fields. -/
def drainW : List Nat := [5, 4, 17, 5, 4, 17, 1, 1, 8, 4, 17, 5, 8, 8, 1, 1]

/-- Fields of layout V (Table 7-7), lowest first. -/
def vFields (o : VOp) : List (Nat × Nat) :=
  [(12, 0), (4, o.dfmt.toNat), (17, o.d.toNat), (1, o.dk.toNat), (4, o.c.toNat), (4, o.bfmt.toNat), (17, o.b.toNat),
   (1, o.bk.toNat), (4, o.afmt.toNat), (17, o.a.toNat), (1, o.ak.toNat), (2, o.mlq.toNat), (12, o.nm1.toNat),
   (4, o.wfmt.toNat), (5, o.func.toNat), (1, o.adv.toNat)]

/-- The operands of layout V (Table 7-7) from its fields. -/
def vOf : List Nat → Option VOp
  | [z1, dfmt, d, dk, c, bfmt, b, bk, afmt, a, ak, mlq, nm1, wfmt, func, adv] =>
    if z1 = 0 then
      some { dfmt := BitVec.ofNat 4 dfmt, d := BitVec.ofNat 17 d, dk := decide (dk = 1), c := BitVec.ofNat 4 c,
             bfmt := BitVec.ofNat 4 bfmt, b := BitVec.ofNat 17 b, bk := decide (bk = 1), afmt := BitVec.ofNat 4 afmt,
             a := BitVec.ofNat 17 a, ak := decide (ak = 1), mlq := BitVec.ofNat 2 mlq, nm1 := BitVec.ofNat 12 nm1,
             wfmt := BitVec.ofNat 4 wfmt, func := BitVec.ofNat 5 func, adv := decide (adv = 1) }
    else none
  | _ => none

/-- Widths of its fields. -/
def vW : List Nat := [12, 4, 17, 1, 4, 4, 17, 1, 4, 17, 1, 2, 12, 4, 5, 1]

/-- Fields of layout F (Table 7-7), lowest first. -/
def fFields (o : FOp) : List (Nat × Nat) :=
  [(12, 0), (4, o.dfmt.toNat), (17, o.d.toNat), (1, o.dk.toNat), (4, o.c.toNat), (4, o.bfmt.toNat), (17, o.b.toNat),
   (1, o.bk.toNat), (4, o.afmt.toNat), (17, o.a.toNat), (1, o.ak.toNat), (2, o.lq.toNat), (12, o.nm1.toNat), (1, 0),
   (2, o.rot.toNat), (6, o.ctl.toNat), (1, o.adv.toNat)]

/-- The operands of layout F (Table 7-7) from its fields. -/
def fOf : List Nat → Option FOp
  | [z1, dfmt, d, dk, c, bfmt, b, bk, afmt, a, ak, lq, nm1, z2, rot, ctl, adv] =>
    if z1 = 0 ∧ z2 = 0 then
      some { dfmt := BitVec.ofNat 4 dfmt, d := BitVec.ofNat 17 d, dk := decide (dk = 1), c := BitVec.ofNat 4 c,
             bfmt := BitVec.ofNat 4 bfmt, b := BitVec.ofNat 17 b, bk := decide (bk = 1), afmt := BitVec.ofNat 4 afmt,
             a := BitVec.ofNat 17 a, ak := decide (ak = 1), lq := BitVec.ofNat 2 lq, nm1 := BitVec.ofNat 12 nm1,
             rot := BitVec.ofNat 2 rot, ctl := BitVec.ofNat 6 ctl, adv := decide (adv = 1) }
    else none
  | _ => none

/-- Widths of its fields. -/
def fW : List Nat := [12, 4, 17, 1, 4, 4, 17, 1, 4, 17, 1, 2, 12, 1, 2, 6, 1]

/-- Fields of layout X (Table 7-7), lowest first. -/
def xFields (o : XOp) : List (Nat × Nat) :=
  [(12, 0), (4, o.dfmt.toNat), (17, o.d.toNat), (1, o.dk.toNat), (12, 0), (8, o.tag.toNat), (5, o.slot.toNat),
   (1, o.sen.toNat), (4, o.afmt.toNat), (17, o.a.toNat), (1, o.ak.toNat), (2, 0), (12, o.nm1.toNat), (9, 0),
   (1, o.adv.toNat)]

/-- The operands of layout X (Table 7-7) from its fields. -/
def xOf : List Nat → Option XOp
  | [z1, dfmt, d, dk, z2, tag, slot, sen, afmt, a, ak, z3, nm1, z4, adv] =>
    if z1 = 0 ∧ z2 = 0 ∧ z3 = 0 ∧ z4 = 0 then
      some { dfmt := BitVec.ofNat 4 dfmt, d := BitVec.ofNat 17 d, dk := decide (dk = 1), tag := BitVec.ofNat 8 tag,
             slot := BitVec.ofNat 5 slot, sen := decide (sen = 1), afmt := BitVec.ofNat 4 afmt,
             a := BitVec.ofNat 17 a, ak := decide (ak = 1), nm1 := BitVec.ofNat 12 nm1, adv := decide (adv = 1) }
    else none
  | _ => none

/-- Widths of its fields. -/
def xW : List Nat := [12, 4, 17, 1, 12, 8, 5, 1, 4, 17, 1, 2, 12, 9, 1]

/-- Fields of a record operand, lowest first. -/
def recFields (r : RecOp) : List (Nat × Nat) := [(8, r.bix.toNat), (12, r.lid.toNat), (8, r.tag.toNat), (2, r.sg.toNat)]

/-- Fields of SCL (Table 7-8), lowest first. -/
def sclFields (o : SclOp) : List (Nat × Nat) :=
  [(2, 0)] ++ recFields o.r3 ++ recFields o.r2 ++ recFields o.r1 ++
    [(8, o.fidx.toNat), (5, o.slot.toNat), (1, o.adv.toNat)]

/-- SCL from its fields. -/
def sclOf : List Nat → Option SclOp
  | [z, b3, l3, t3, g3, b2, l2, t2, g2, b1, l1, t1, g1, fidx, slot, adv] =>
    if z = 0 then
      some { adv := decide (adv = 1), slot := BitVec.ofNat 5 slot, fidx := BitVec.ofNat 8 fidx,
             r1 := { sg := BitVec.ofNat 2 g1, tag := BitVec.ofNat 8 t1, lid := BitVec.ofNat 12 l1, bix := BitVec.ofNat 8 b1 },
             r2 := { sg := BitVec.ofNat 2 g2, tag := BitVec.ofNat 8 t2, lid := BitVec.ofNat 12 l2, bix := BitVec.ofNat 8 b2 },
             r3 := { sg := BitVec.ofNat 2 g3, tag := BitVec.ofNat 8 t3, lid := BitVec.ofNat 12 l3, bix := BitVec.ofNat 8 b3 } }
    else none
  | _ => none

/-- Widths of SCL's fields. -/
def sclW : List Nat := [2, 8, 12, 8, 2, 8, 12, 8, 2, 8, 12, 8, 2, 8, 5, 1]

/-- Fields of STAT (Table 7-9), lowest first. -/
def statFields (o : StatOp) : List (Nat × Nat) :=
  [(63, 0), (17, o.nlines.toNat), (17, o.base.toNat), (4, o.dfmt.toNat), (4, o.sfmt.toNat), (1, o.adv.toNat)]

/-- The operands of STAT (Table 7-9) from its fields. -/
def statOf : List Nat → Option StatOp
  | [z1, nlines, base, dfmt, sfmt, adv] =>
    if z1 = 0 then
      some { nlines := BitVec.ofNat 17 nlines, base := BitVec.ofNat 17 base, dfmt := BitVec.ofNat 4 dfmt,
             sfmt := BitVec.ofNat 4 sfmt, adv := decide (adv = 1) }
    else none
  | _ => none

/-- Widths of its fields. -/
def statW : List Nat := [63, 17, 17, 4, 4, 1]

/-- Fields of MOV (Table 7-9), lowest first. -/
def movFields (o : MovOp) : List (Nat × Nat) :=
  [(3, 0), (1, o.ten.toNat), (8, o.tag.toNat), (16, o.dl.toNat), (12, o.len.toNat), (42, o.remote.toNat),
   (17, o.localLine.toNat), (4, o.xfmt.toNat), (1, o.xpose.toNat), (1, o.dir.toNat), (1, o.adv.toNat)]

/-- The operands of MOV (Table 7-9) from its fields. -/
def movOf : List Nat → Option MovOp
  | [z1, ten, tag, dl, len, remote, localLine, xfmt, xpose, dir, adv] =>
    if z1 = 0 then
      some { ten := decide (ten = 1), tag := BitVec.ofNat 8 tag, dl := BitVec.ofNat 16 dl,
             len := BitVec.ofNat 12 len, remote := BitVec.ofNat 42 remote, localLine := BitVec.ofNat 17 localLine,
             xfmt := BitVec.ofNat 4 xfmt, xpose := decide (xpose = 1), dir := decide (dir = 1),
             adv := decide (adv = 1) }
    else none
  | _ => none

/-- Widths of its fields. -/
def movW : List Nat := [3, 1, 8, 16, 12, 42, 17, 4, 1, 1, 1]

/-- Fields of CSEND (Table 7-10), lowest first. -/
def csendFields (o : CsendOp) : List (Nat × Nat) :=
  [(78, 0), (4, o.ch.toNat), (6, o.dle.toNat), (8, o.nm1.toNat), (8, o.base.toNat), (1, o.half.toNat), (1, 0)]

/-- The operands of CSEND (Table 7-10) from its fields. -/
def csendOf : List Nat → Option CsendOp
  | [z1, ch, dle, nm1, base, half, z2] =>
    if z1 = 0 ∧ z2 = 0 then
      some { ch := BitVec.ofNat 4 ch, dle := BitVec.ofNat 6 dle, nm1 := BitVec.ofNat 8 nm1,
             base := BitVec.ofNat 8 base, half := decide (half = 1) }
    else none
  | _ => none

/-- Widths of its fields. -/
def csendW : List Nat := [78, 4, 6, 8, 8, 1, 1]

/-- Fields of CRECV (Table 7-10), lowest first. -/
def crecvFields (o : CrecvOp) : List (Nat × Nat) :=
  [(43, 0), (17, o.line.toNat), (1, o.tgt.toNat), (16, o.dl.toNat), (4, o.ch.toNat), (6, o.src.toNat),
   (1, o.sk.toNat), (8, o.nm1.toNat), (8, o.base.toNat), (1, o.half.toNat), (1, 0)]

/-- The operands of CRECV (Table 7-10) from its fields. -/
def crecvOf : List Nat → Option CrecvOp
  | [z1, line, tgt, dl, ch, src, sk, nm1, base, half, z2] =>
    if z1 = 0 ∧ z2 = 0 then
      some { line := BitVec.ofNat 17 line, tgt := decide (tgt = 1), dl := BitVec.ofNat 16 dl,
             ch := BitVec.ofNat 4 ch, src := BitVec.ofNat 6 src, sk := decide (sk = 1), nm1 := BitVec.ofNat 8 nm1,
             base := BitVec.ofNat 8 base, half := decide (half = 1) }
    else none
  | _ => none

/-- Widths of its fields. -/
def crecvW : List Nat := [43, 17, 1, 16, 4, 6, 1, 8, 8, 1, 1]

/-- Fields of QADD (Table 7-10), lowest first. -/
def qaddFields (o : QaddOp) : List (Nat × Nat) :=
  [(36, 0), (4, o.ch.toNat), (48, o.shelf.toNat), (8, o.nm1.toNat), (8, o.base.toNat), (1, o.half.toNat), (1, 0)]

/-- The operands of QADD (Table 7-10) from its fields. -/
def qaddOf : List Nat → Option QaddOp
  | [z1, ch, shelf, nm1, base, half, z2] =>
    if z1 = 0 ∧ z2 = 0 then
      some { ch := BitVec.ofNat 4 ch, shelf := BitVec.ofNat 48 shelf, nm1 := BitVec.ofNat 8 nm1,
             base := BitVec.ofNat 8 base, half := decide (half = 1) }
    else none
  | _ => none

/-- Widths of its fields. -/
def qaddW : List Nat := [36, 4, 48, 8, 8, 1, 1]

/-- Fields of LOOP (Table 7-11), lowest first. -/
def loopFields (o : LoopOp) : List (Nat × Nat) :=
  [(18, 0), (17, o.d3.toNat), (17, o.d2.toNat), (17, o.d1.toNat), (17, o.d0.toNat), (20, o.cntm1.toNat)]

/-- The operands of LOOP (Table 7-11) from its fields. -/
def loopOf : List Nat → Option LoopOp
  | [z1, d3, d2, d1, d0, cntm1] =>
    if z1 = 0 then
      some { d3 := BitVec.ofNat 17 d3, d2 := BitVec.ofNat 17 d2, d1 := BitVec.ofNat 17 d1, d0 := BitVec.ofNat 17 d0,
             cntm1 := BitVec.ofNat 20 cntm1 }
    else none
  | _ => none

/-- Widths of its fields. -/
def loopW : List Nat := [18, 17, 17, 17, 17, 20]

namespace EOp

/-- OPCODE (Table 7-4). -/
def opcode : EOp → Nat
  | nop => 0x00
  | lds _ => 0x01
  | pass _ => 0x02
  | drain _ => 0x03
  | drainr _ => 0x04
  | bal _ => 0x05
  | vop _ => 0x08
  | vred _ => 0x09
  | cvt _ => 0x0A
  | sfn _ => 0x0B
  | gact _ => 0x0C
  | smx _ => 0x0D
  | nrm _ => 0x0E
  | qclr _ => 0x0F
  | qmac _ => 0x10
  | qacc _ => 0x11
  | qrnd _ => 0x12
  | scl _ => 0x18
  | stat _ => 0x19
  | mov _ => 0x20
  | csend _ => 0x24
  | crecv _ => 0x25
  | qadd _ => 0x26
  | chk _ => 0x28
  | loop _ => 0x30
  | endl => 0x31
  | wtick => 0x32
  | yield _ => 0x33
  | halt => 0x34

/-- The operand fields, bits [105:0], lowest first. -/
def fields : EOp → List (Nat × Nat)
  | nop => [(106, 0)]
  | lds o => ldsFields o
  | pass o => passFields o
  | drain o => drainFields o
  | drainr o => drainFields o
  | bal g => [(85, 0), (20, g.toNat), (1, 0)]
  | vop o => vFields o
  | vred o => vFields o
  | cvt o => xFields o
  | sfn o => fFields o
  | gact o => fFields o
  | smx o => fFields o
  | nrm o => fFields o
  | qclr o => vFields o
  | qmac o => vFields o
  | qacc o => vFields o
  | qrnd o => vFields o
  | scl o => sclFields o
  | stat o => statFields o
  | mov o => movFields o
  | csend o => csendFields o
  | crecv o => crecvFields o
  | qadd o => qaddFields o
  | chk k => [(103, 0), (2, k.toNat), (1, 0)]
  | loop o => loopFields o
  | endl => [(106, 0)]
  | wtick => [(106, 0)]
  | yield st => [(104, 0), (1, st.toNat), (1, 0)]
  | halt => [(106, 0)]

/-- The operands of an opcode from bits [105:0]; none where a reserved bit is set or the opcode is not in Table 7-4. -/
def ofBits (code n : Nat) : Option EOp :=
  match code with
  | 0x00 => if n % 2 ^ 106 = 0 then some nop else none
  | 0x01 => (ldsOf (cutFields ldsW n)).map lds
  | 0x02 => (passOf (cutFields passW n)).map pass
  | 0x03 => (drainOf (cutFields drainW n)).map drain
  | 0x04 => (drainOf (cutFields drainW n)).map drainr
  | 0x05 => match cutFields [85, 20, 1] n with
    | [0, g, 0] => some (bal (BitVec.ofNat 20 g))
    | _ => none
  | 0x08 => (vOf (cutFields vW n)).map vop
  | 0x09 => (vOf (cutFields vW n)).map vred
  | 0x0A => (xOf (cutFields xW n)).map cvt
  | 0x0B => (fOf (cutFields fW n)).map sfn
  | 0x0C => (fOf (cutFields fW n)).map gact
  | 0x0D => (fOf (cutFields fW n)).map smx
  | 0x0E => (fOf (cutFields fW n)).map nrm
  | 0x0F => (vOf (cutFields vW n)).map qclr
  | 0x10 => (vOf (cutFields vW n)).map qmac
  | 0x11 => (vOf (cutFields vW n)).map qacc
  | 0x12 => (vOf (cutFields vW n)).map qrnd
  | 0x18 => (sclOf (cutFields sclW n)).map scl
  | 0x19 => (statOf (cutFields statW n)).map stat
  | 0x20 => (movOf (cutFields movW n)).map mov
  | 0x24 => (csendOf (cutFields csendW n)).map csend
  | 0x25 => (crecvOf (cutFields crecvW n)).map crecv
  | 0x26 => (qaddOf (cutFields qaddW n)).map qadd
  | 0x28 => match cutFields [103, 2, 1] n with
    | [0, k, 0] => some (chk (BitVec.ofNat 2 k))
    | _ => none
  | 0x30 => (loopOf (cutFields loopW n)).map loop
  | 0x31 => if n % 2 ^ 106 = 0 then some endl else none
  | 0x32 => if n % 2 ^ 106 = 0 then some wtick else none
  | 0x33 => match cutFields [104, 1, 1] n with
    | [0, st, 0] => some (yield (decide (st = 1)))
    | _ => none
  | 0x34 => if n % 2 ^ 106 = 0 then some halt else none
  | _ => none

end EOp

/-- The 128-bit word of an instruction with its DELAY (R184). -/
def encodeWord (delay : BitVec 16) (o : EOp) : BitVec 128 :=
  BitVec.ofNat 128 (packFields o.fields + 2 ^ 106 * (delay.toNat + 2 ^ 16 * o.opcode))

/-- The DELAY and instruction of a word; none where the opcode is not in Table 7-4 or a reserved bit is set. -/
def decodeWord (w : BitVec 128) : Option (BitVec 16 × EOp) :=
  (EOp.ofBits (w.toNat / 2 ^ 122) (w.toNat % 2 ^ 106)).map fun o => (BitVec.ofNat 16 (w.toNat / 2 ^ 106 % 2 ^ 16), o)

/-- The command a word of the command table spells: the table gives no row any bits, so none. -/
def decodeTableWord (_nbits _w : Nat) : Option Instr := none

end Sys2Proof
end

