-- ==== Sys2Proof/Machine/Flags.lean ====
section
/-! DEFINITION. Exact values, the numeric flags of Table 2-9, and every rounding of spec/02_tapered_formats.md:
into a posit (R39), into an IEEE format (R50-R52, R55) and into a storage code (R46). -/

namespace Sys2Proof.Machine

/-- The formats of Table 2-1 (R33). -/
inductive Fmt where
  | p8 | p16 | p32 | int4 | int8 | bf16 | fp16 | fp32 | q8 | q16 | q32
  deriving DecidableEq, Repr

/-- A value read out of a word: NaN or NaR, an infinity, or the exact number `(-1)^neg * mag * 2^e`. -/
inductive FVal where
  | nan
  | inf (neg : Bool)
  | num (neg : Bool) (mag : Nat) (e : Int)
  deriving DecidableEq, Repr

/-- Counts of the flags of Table 2-9 raised by an operation. -/
structure Flags where
  inv : Nat := 0
  ovf : Nat := 0
  unf : Nat := 0
  inx : Nat := 0
  nar : Nat := 0
  qovf : Nat := 0
  sat : Nat := 0
  lift : Nat := 0
  deriving DecidableEq, Repr

/-- No flag. -/
def Flags.none : Flags := {}

/-- Both operations' flags. -/
def Flags.add (a b : Flags) : Flags :=
  { inv := a.inv + b.inv, ovf := a.ovf + b.ovf, unf := a.unf + b.unf, inx := a.inx + b.inx,
    nar := a.nar + b.nar, qovf := a.qovf + b.qovf, sat := a.sat + b.sat, lift := a.lift + b.lift }

/-- A flag marked "numeric event" in Table 2-9 was raised. -/
def Flags.event (f : Flags) : Bool :=
  decide (0 < f.inv) || decide (0 < f.ovf) || decide (0 < f.nar) || decide (0 < f.qovf)

/-- The signed integer of a magnitude. -/
def signed (neg : Bool) (mag : Nat) : Int := if neg then -(mag : Int) else (mag : Int)

/-- The exact number `v * 2^e`; zero is +0. -/
def FVal.ofInt (v : Int) (e : Int) : FVal := .num (decide (v < 0)) v.natAbs e

/-- Plus zero. -/
def FVal.zero : FVal := .num false 0 0

/-- The value is a number (not NaN, not an infinity). -/
def FVal.finite : FVal → Bool
  | .num _ _ _ => true
  | _ => false

/-- The sign of a value (NaN counts as positive, R48). -/
def FVal.neg : FVal → Bool
  | .nan => false
  | .inf n => n
  | .num n _ _ => n

/-- The value is a zero. -/
def FVal.isZero : FVal → Bool
  | .num _ 0 _ => true
  | _ => false

/-- Two numbers as integers over one power of two. -/
def alignPair (n1 : Bool) (m1 : Nat) (e1 : Int) (n2 : Bool) (m2 : Nat) (e2 : Int) : Int × Int × Int :=
  let e := min e1 e2
  (signed n1 (m1 * 2 ^ (e1 - e).toNat), signed n2 (m2 * 2 ^ (e2 - e).toNat), e)

/-- Exact order of two numbers; `none` where one is NaN. -/
def FVal.lt? : FVal → FVal → Option Bool
  | .nan, _ => none
  | _, .nan => none
  | .inf a, .inf b => some (a && !b)
  | .inf a, .num _ _ _ => some a
  | .num _ _ _, .inf b => some (!b)
  | .num a m e, .num b k f =>
    let (x, y, _) := alignPair a m e b k f
    some (decide (x < y))

/-- Exact addition with the special addends of IEEE 754-2019 (R67, R75): an exact zero sum is +0 unless both
addends are -0; the flag is INV for infinity minus infinity. -/
def FVal.add : FVal → FVal → FVal × Flags
  | .nan, _ => (.nan, {})
  | _, .nan => (.nan, {})
  | .inf a, .inf b => if a = b then (.inf a, {}) else (.nan, { inv := 1 })
  | .inf a, .num _ _ _ => (.inf a, {})
  | .num _ _ _, .inf b => (.inf b, {})
  | .num a m e, .num b k f =>
    if m = 0 ∧ k = 0 then (.num (a && b) 0 0, {})
    else
      let (x, y, g) := alignPair a m e b k f
      (FVal.ofInt (x + y) g, {})

/-- Exact multiplication: infinity times zero is NaN with INV (R66, R74). -/
def FVal.mul : FVal → FVal → FVal × Flags
  | .nan, _ => (.nan, {})
  | _, .nan => (.nan, {})
  | .inf a, .inf b => (.inf (xor a b), {})
  | .inf a, .num b k _ => if k = 0 then (.nan, { inv := 1 }) else (.inf (xor a b), {})
  | .num a m _, .inf b => if m = 0 then (.nan, { inv := 1 }) else (.inf (xor a b), {})
  | .num a m e, .num b k f => (.num (xor a b) (m * k) (e + f), {})

/-- Two values are the same number, or the same infinity or NaN, however they are written. -/
def FVal.same (a b : FVal) : Bool :=
  match a.lt? b, b.lt? a with
  | some false, some false => true
  | _, _ => decide (a = b)

/-- Negation; NaN stays the canonical NaN. -/
def FVal.negate : FVal → FVal
  | .nan => .nan
  | .inf a => .inf (!a)
  | .num a m e => .num (!a) m e

/-- `x / 2^d` rounded to nearest, ties to even. -/
def rne (x d : Nat) : Nat :=
  let q := x / 2 ^ d
  let r := x % 2 ^ d
  if d = 0 then x
  else if 2 ^ (d - 1) < r ∨ (r = 2 ^ (d - 1) ∧ q % 2 = 1) then q + 1 else q

/-- The scale of a non-zero magnitude: `2^scale ≤ mag * 2^e < 2^(scale+1)`. -/
def scaleOf (mag : Nat) (e : Int) : Int := (Nat.log2 mag : Int) + e

/-- The `n - 1` bits behind the sign of a posit word for a value between minpos and maxpos (R39 step 4). -/
def positBits (n mag : Nat) (e : Int) : Nat :=
  let lg := Nat.log2 mag
  let sc := scaleOf mag e
  let k := sc / 4
  let eb := (sc % 4).toNat
  let reg : Nat × Nat := if 0 ≤ k then (2 ^ (k.toNat + 2) - 2, k.toNat + 2) else (1, (-k).toNat + 1)
  let str := (reg.1 * 4 + eb) * 2 ^ lg + (mag - 2 ^ lg)
  let len := reg.2 + 2 + lg
  if len ≤ n - 1 then str * 2 ^ (n - 1 - len) else rne str (len - (n - 1))

/-- An unsigned posit pattern with its sign applied (two's complement, R35). -/
def positSign (n : Nat) (neg : Bool) (bits : Nat) : Nat :=
  if neg then (2 ^ n - bits) % 2 ^ n else bits

/-- Rounding of a finite value into an `n`-bit posit word (R39), with SAT and LIFT. -/
def roundPositNum (n : Nat) (neg : Bool) (mag : Nat) (e : Int) : Nat × Flags :=
  if mag = 0 then (0, {})
  else
    let sc := scaleOf mag e
    let top : Int := 4 * ((n : Int) - 2)
    if top < sc ∨ (sc = top ∧ mag ≠ 2 ^ Nat.log2 mag) then
      (positSign n neg (2 ^ (n - 1) - 1), { sat := 1 })
    else if sc < -top then (positSign n neg 1, { lift := 1 })
    else (positSign n neg (positBits n mag e), {})

/-- The NaR word of `n` bits (R36). -/
def narWord (n : Nat) : Nat := 2 ^ (n - 1)

/-- Any value into a posit: NaN gives NaR without a flag, an infinity NaR with INV (R54). -/
def roundPosit (n : Nat) : FVal → Nat × Flags
  | .nan => (narWord n, {})
  | .inf _ => (narWord n, { inv := 1 })
  | .num s m e => roundPositNum n s m e

/-- Exponent bits, fraction bits of an IEEE format (Table 2-5). -/
def ieeeShape : Fmt → Nat × Nat
  | .bf16 => (8, 7)
  | .fp16 => (5, 10)
  | _ => (8, 23)

/-- The exponent bias. -/
def ieeeBias (eb : Nat) : Int := 2 ^ (eb - 1) - 1

/-- Sign bit in place. -/
def ieeeSign (eb fb : Nat) (neg : Bool) : Nat := if neg then 2 ^ (eb + fb) else 0

/-- The canonical quiet NaN (R48, Table 2-6). -/
def ieeeNaN (eb fb : Nat) : Nat := (2 ^ eb - 1) * 2 ^ fb + 2 ^ (fb - 1)

/-- Infinity. -/
def ieeeInf (eb fb : Nat) (neg : Bool) : Nat := ieeeSign eb fb neg + (2 ^ eb - 1) * 2 ^ fb

/-- A magnitude rounded to `p` significant bits, ties to even, unbounded exponent: significand and exponent. -/
def roundSig (p mag : Nat) (e : Int) : Nat × Int :=
  let len := Nat.log2 mag + 1
  if len ≤ p then (mag, e) else (rne mag (len - p), e + ((len - p : Nat) : Int))

/-- Rounding of a finite value into an IEEE format, roundTiesToEven: overflow by R52 and R55, gradual underflow for
bf16 and fp16 (R50), the flush of fp32 (R51). -/
def roundIeeeNum (f : Fmt) (neg : Bool) (mag : Nat) (e : Int) : Nat × Flags :=
  let (eb, fb) := ieeeShape f
  let sgn := ieeeSign eb fb neg
  let bias := ieeeBias eb
  let emin : Int := 1 - bias
  if mag = 0 then (sgn, {})
  else
    let (m, x) := roundSig (fb + 1) mag e
    let exact := decide (scaleOf m x = scaleOf mag e) && decide (m * 2 ^ (x - e).toNat = mag)
    let inx : Nat := if exact then 0 else 1
    let sc := scaleOf m x
    if bias < sc then (ieeeInf eb fb neg, { ovf := 1, inx := 1 })
    else if emin ≤ sc then
      let frac := m * 2 ^ fb / 2 ^ Nat.log2 m - 2 ^ fb
      (sgn + (sc + bias).toNat * 2 ^ fb + frac, { inx := inx })
    else if f = .fp32 then (sgn, { unf := 1, inx := 1 })
    else
      let lsb : Int := emin - (fb : Int)
      if lsb ≤ e then (sgn + mag * 2 ^ (e - lsb).toNat, {})
      else
        let d := (lsb - e).toNat
        let q := rne mag d
        if mag % 2 ^ d = 0 then (sgn + q, {}) else (sgn + q, { unf := 1, inx := 1 })

/-- Any value into an IEEE format. -/
def roundIeee (f : Fmt) : FVal → Nat × Flags
  | .nan => (let (eb, fb) := ieeeShape f; (ieeeNaN eb fb, {}))
  | .inf s => (let (eb, fb) := ieeeShape f; (ieeeInf eb fb s, {}))
  | .num s m e => roundIeeeNum f s m e

/-- A magnitude rounded to the nearest integer, ties to even. -/
def roundNat (mag : Nat) (e : Int) : Nat :=
  if 0 ≤ e then mag * 2 ^ e.toNat else rne mag (-e).toNat

/-- Rounding into a storage code of `w` bits (R46): clamp to the symmetric range with SAT; NaN gives the NaR code,
an infinity the NaR code with INV. -/
def roundStore (w : Nat) : FVal → Nat × Flags
  | .nan => (narWord w, {})
  | .inf _ => (narWord w, { inv := 1 })
  | .num s m e =>
    let lim := 2 ^ (w - 1) - 1
    let v := roundNat m e
    let fl : Flags := if lim < v then { sat := 1 } else {}
    (positSign w s (min v lim), fl)

/-- Rounding to a destination format of Table 2-1 (R52); a quire code is never a rounding destination. -/
def roundTo (f : Fmt) (v : FVal) : Nat × Flags :=
  match f with
  | .p8 => roundPosit 8 v
  | .p16 => roundPosit 16 v
  | .p32 => roundPosit 32 v
  | .int4 => roundStore 4 v
  | .int8 => roundStore 8 v
  | .bf16 | .fp16 | .fp32 => roundIeee f v
  | .q8 | .q16 | .q32 => (0, {})

end Sys2Proof.Machine
end

