-- ==== Sys2Proof/Machine/Operands.lean ====
section
/-! DEFINITION. Reading the formats of spec/02_tapered_formats.md: format codes (R33), the packing of a line (R34),
posit words (R35, R36), IEEE words (R47-R51), storage codes (R44, R45) and quires (R40-R43). -/

namespace Sys2Proof.Machine

/-- The format a code names; codes 0x3 and 0xC-0xF are reserved (R33). -/
def fmtOf (c : BitVec 4) : Option Fmt :=
  match c.toNat with
  | 0 => some .p8
  | 1 => some .p16
  | 2 => some .p32
  | 4 => some .int4
  | 5 => some .int8
  | 6 => some .bf16
  | 7 => some .fp16
  | 8 => some .fp32
  | 9 => some .q8
  | 10 => some .q16
  | 11 => some .q32
  | _ => none

/-- The format a code names, p8 for a reserved code (which no loaded image holds, R33). -/
def fmtD (c : BitVec 4) : Fmt := (fmtOf c).getD .p8

/-- The width of a format in bits (Table 2-1). -/
def Fmt.width : Fmt → Nat
  | .p8 => 8 | .p16 => 16 | .p32 => 32 | .int4 => 4 | .int8 => 8 | .bf16 => 16 | .fp16 => 16 | .fp32 => 32
  | .q8 => 128 | .q16 => 256 | .q32 => 512

/-- Elements in a 64-byte line (Table 2-1). -/
def Fmt.perLine (f : Fmt) : Nat := 512 / f.width

/-- A posit format. -/
def Fmt.isPosit : Fmt → Bool
  | .p8 | .p16 | .p32 => true
  | _ => false

/-- An IEEE format. -/
def Fmt.isIeee : Fmt → Bool
  | .bf16 | .fp16 | .fp32 => true
  | _ => false

/-- A storage code. -/
def Fmt.isStore : Fmt → Bool
  | .int4 | .int8 => true
  | _ => false

/-- A quire format. -/
def Fmt.isQuire : Fmt → Bool
  | .q8 | .q16 | .q32 => true
  | _ => false

/-- Lines taken by `n` elements of a format packed by R34. -/
def linesOf (f : Fmt) (n : Nat) : Nat := (n * f.width + 511) / 512

/-- The length of the run of bits equal to `r` downward from bit `i - 1` of `bits`. -/
def regimeRun (bits : Nat) (r : Bool) : Nat → Nat
  | 0 => 0
  | i + 1 => if bits.testBit i = r then regimeRun bits r i + 1 else 0

/-- The bit of `x` at `i - 1`, 0 where the word has ended; `i` counts the bits still to read. -/
def nextBit (x i : Nat) : Nat := if i = 0 then 0 else (x / 2 ^ (i - 1)) % 2

/-- Decoding an `n`-bit posit word (R35). -/
def decodePosit (n w : Nat) : FVal :=
  if w = 0 then .num false 0 0
  else if w = 2 ^ (n - 1) then .nan
  else
    let neg := decide (2 ^ (n - 1) < w)
    let a := if neg then 2 ^ n - w else w
    let bits := a % 2 ^ (n - 1)
    let r0 := bits.testBit (n - 2)
    let m := regimeRun bits r0 (n - 1)
    let left := n - 1 - m - 1
    let k : Int := if r0 then (m : Int) - 1 else -(m : Int)
    let e := 2 * nextBit bits left + nextBit bits (left - 1)
    let fb := left - 2
    let frac := bits % 2 ^ fb
    .num neg (2 ^ fb + frac) (4 * k + (e : Int) - (fb : Int))

/-- Decoding an IEEE word: its value and whether it is a signalling NaN (R48). fp32 subnormals read as zero of the same
sign (R51); bf16 and fp16 subnormals at their value (R49). -/
def decodeIeee (f : Fmt) (w : Nat) : FVal × Bool :=
  let (eb, fb) := ieeeShape f
  let neg := w.testBit (eb + fb)
  let x := (w / 2 ^ fb) % 2 ^ eb
  let frac := w % 2 ^ fb
  let lsb : Int := 1 - ieeeBias eb - (fb : Int)
  if x = 2 ^ eb - 1 then
    if frac = 0 then (.inf neg, false) else (.nan, !frac.testBit (fb - 1))
  else if x = 0 then
    if f = .fp32 then (.num neg 0 0, false) else (.num neg frac lsb, false)
  else (.num neg (2 ^ fb + frac) (lsb + (x : Int) - 1), false)

/-- Decoding a storage code of `w` bits (R44). -/
def decodeStore (w v : Nat) : FVal :=
  if v = 2 ^ (w - 1) then .nan
  else if 2 ^ (w - 1) < v then .num true (2 ^ w - v) 0
  else .num false v 0

/-- A quire: quire NaR, or the signed integer of its bits (R40, R41). -/
inductive QVal where
  | nar
  | int (v : Int)
  deriving DecidableEq, Repr

/-- The width `16 n` bits and the exponent of bit 0 of a quire format (R40). -/
def quireN : Fmt → Nat
  | .q8 => 8
  | .q16 => 16
  | _ => 32

/-- Exponent of the weight of bit 0. -/
def quireLsb (f : Fmt) : Int := 16 - 8 * (quireN f : Int)

/-- Decoding quire bits. -/
def decodeQuire (f : Fmt) (w : Nat) : QVal :=
  let n := 16 * quireN f
  if w = 2 ^ (n - 1) then .nar
  else if 2 ^ (n - 1) < w then .int ((w : Int) - 2 ^ n)
  else .int w

/-- The bits of a quire. -/
def encodeQuire (f : Fmt) : QVal → Nat
  | .nar => 2 ^ (16 * quireN f - 1)
  | .int v => (v % 2 ^ (16 * quireN f)).toNat

/-- The value of a quire. -/
def QVal.toF (f : Fmt) : QVal → FVal
  | .nar => .nan
  | .int v => FVal.ofInt v (quireLsb f)

/-- The integer lies in the numeric range of the quire (R40). -/
def quireInRange (f : Fmt) (v : Int) : Bool :=
  decide (-(2 : Int) ^ (16 * quireN f - 1) < v) && decide (v < (2 : Int) ^ (16 * quireN f - 1))

/-- The integer, in units of a quire's bit 0, of a finite value that is a multiple of it. -/
def toQuireUnits (f : Fmt) (neg : Bool) (mag : Nat) (e : Int) : Int :=
  let d := e - quireLsb f
  if 0 ≤ d then signed neg (mag * 2 ^ d.toNat) else signed neg (mag / 2 ^ (-d).toNat)

/-- A value loaded into a quire exactly; NaN and infinities give quire NaR (R41, R42). -/
def FVal.toQ (f : Fmt) : FVal → QVal
  | .num s m e => .int (toQuireUnits f s m e)
  | _ => .nar

/-- Exact addition into a quire (R41). -/
def QVal.add : QVal → QVal → QVal
  | .int a, .int b => .int (a + b)
  | _, _ => .nar

/-- Widening a quire (R42). -/
def QVal.widen (src dst : Fmt) : QVal → QVal
  | .nar => .nar
  | .int v => .int (v * 2 ^ (quireLsb src - quireLsb dst).toNat)

/-- A word of a format other than a quire: its value and whether it is a signalling NaN. -/
def decodeWordOf (f : Fmt) (w : Nat) : FVal × Bool :=
  match f with
  | .p8 => (decodePosit 8 w, false)
  | .p16 => (decodePosit 16 w, false)
  | .p32 => (decodePosit 32 w, false)
  | .int4 => (decodeStore 4 w, false)
  | .int8 => (decodeStore 8 w, false)
  | .bf16 | .fp16 | .fp32 => decodeIeee f w
  | .q8 | .q16 | .q32 => ((decodeQuire f w).toF f, false)

/-- The value of an operand word, with the INV of a signalling NaN (R48). -/
def readVal (f : Fmt) (w : Nat) : FVal × Flags :=
  let (v, s) := decodeWordOf f w
  (v, if s then { inv := 1 } else {})

/-- Element `j` of a line of format `f` (R34). -/
def lineElem (f : Fmt) (l : Line) (j : Nat) : Nat := (l.toNat / 2 ^ (f.width * j)) % 2 ^ f.width

/-- The line with element `j` replaced. -/
def setLineElem (f : Fmt) (l : Line) (j w : Nat) : Line :=
  let sh := f.width * j
  let cur := lineElem f l j
  BitVec.ofNat 512 (l.toNat + (w % 2 ^ f.width) * 2 ^ sh - cur * 2 ^ sh)

/-- A line packed from its elements in order (R34). -/
def packLine (f : Fmt) (ws : List Nat) : Line :=
  BitVec.ofNat 512 ((ws.reverse).foldl (fun acc w => acc * 2 ^ f.width + w % 2 ^ f.width) 0)

/-- A line from its 64 bytes, byte 0 in bits [7:0] (R34, R7). -/
def lineOfBytes (bs : List Byte) : Line := packLine .p8 (bs.map (·.toNat))

/-- The 64 bytes of a line. -/
def bytesOfLine (l : Line) : List Byte :=
  (List.range 64).map fun j => BitVec.ofNat 8 (lineElem .p8 l j)

/-- Little-endian number of a list of bytes (R7). -/
def leNat : List Byte → Nat
  | [] => 0
  | b :: t => b.toNat + 256 * leNat t

/-- `n` little-endian bytes of a number (R7). -/
def leBytes : Nat → Nat → List Byte
  | 0, _ => []
  | n + 1, v => BitVec.ofNat 8 v :: leBytes n (v / 256)

end Sys2Proof.Machine
end

