-- ==== Sys2Proof/Machine/Crypto.lean ====
section
/-! DEFINITION. The external standards the manual names: CRC-32 of IEEE 802.3 (R116, R247), the SMBus CRC-8 (R448),
SHA-512, Ed25519 of RFC 8032 (R423, R429), and Reed-Solomon decoding over GF(2^8) (R341, R366). -/

namespace Sys2Proof.Machine

/-- One bit step of CRC-32 (reflected polynomial). -/
def crcBit (c : Nat) : Nat := if c % 2 = 1 then Nat.xor (c / 2) 0xEDB88320 else c / 2

/-- `n` applications of `f`. -/
def iter {α : Type} (f : α → α) : Nat → α → α
  | 0, x => x
  | n + 1, x => iter f n (f x)

/-- One byte into the running CRC-32. -/
def crcByte (c : Nat) (b : Byte) : Nat := iter crcBit 8 (Nat.xor c b.toNat)

/-- The running CRC-32 over bytes, from register value `c`. -/
def crcRun (c : Nat) (bs : List Byte) : Nat := bs.foldl crcByte c

/-- CRC-32 of IEEE 802.3. -/
def crc32 (bs : List Byte) : BitVec 32 := BitVec.ofNat 32 (Nat.xor (crcRun 0xFFFFFFFF bs) 0xFFFFFFFF)

/-- SMBus CRC-8, polynomial x^8 + x^2 + x + 1, initial value 0 (R448). -/
def crc8 (bs : List Byte) : Byte :=
  let bit (c : Nat) : Nat := if 128 ≤ c then (Nat.xor (2 * c) 0x107) % 256 else 2 * c
  BitVec.ofNat 8 (bs.foldl (fun c b => iter bit 8 (Nat.xor c b.toNat)) 0)

/-- The largest number whose `k`-th power is at most `v`, found bit by bit from bit `n - 1` down, given the bits `r` above. -/
def rootBits (k v : Nat) : Nat → Nat → Nat
  | 0, r => r
  | n + 1, r => rootBits k v n (if (r + 2 ^ n) ^ k ≤ v then r + 2 ^ n else r)

/-- The first 64 bits of the fractional part of the `k`-th root of `p` (p below 2^9). -/
def rootFrac (k p : Nat) : Nat := rootBits k (p * 2 ^ (64 * k)) 69 0 % 2 ^ 64

/-- The primes below `n`, for n at most 529: what no prime below 23 divides. -/
def primesBelow (n : Nat) : List Nat :=
  let small := [2, 3, 5, 7, 11, 13, 17, 19]
  (List.range n).filter fun x => small.contains x || (decide (1 < x) && small.all fun d => decide (x % d ≠ 0))

/-- SHA-512's 80 round constants: the cube roots of the primes below 410. -/
def shaRoundWords : List Nat := (primesBelow 410).map (rootFrac 3)

/-- SHA-512's initial hash value: the square roots of the first eight primes. -/
def shaStart : List Nat := (primesBelow 20).map (rootFrac 2)

/-- Right rotation of a 64-bit word. -/
def rotr64 (x n : Nat) : Nat := x / 2 ^ n + (x % 2 ^ n) * 2 ^ (64 - n)

/-- Exclusive or of three words. -/
def xor3 (a b c : Nat) : Nat := Nat.xor (Nat.xor a b) c

/-- The message schedule, newest word first, extended by `n` words. -/
def shaSched : Nat → List Nat → List Nat
  | 0, w => w
  | n + 1, w =>
    let a := w.getD 14 0
    let b := w.getD 1 0
    let s0 := xor3 (rotr64 a 1) (rotr64 a 8) (a / 2 ^ 7)
    let s1 := xor3 (rotr64 b 19) (rotr64 b 61) (b / 2 ^ 6)
    shaSched n (((w.getD 15 0 + s0 + w.getD 6 0 + s1) % 2 ^ 64) :: w)

/-- One round on the working variables. -/
def shaRound (v : List Nat) (kw : Nat × Nat) : List Nat :=
  match v with
  | [a, b, c, d, e, f, g, h] =>
    let s1 := xor3 (rotr64 e 14) (rotr64 e 18) (rotr64 e 41)
    let ch := Nat.xor (Nat.land e f) (Nat.land (2 ^ 64 - 1 - e) g)
    let t1 := h + s1 + ch + kw.1 + kw.2
    let s0 := xor3 (rotr64 a 28) (rotr64 a 34) (rotr64 a 39)
    let mj := xor3 (Nat.land a b) (Nat.land a c) (Nat.land b c)
    [(t1 + s0 + mj) % 2 ^ 64, a, b, c, (d + t1) % 2 ^ 64, e, f, g]
  | _ => v

/-- Big-endian number of bytes. -/
def beNat (bs : List Byte) : Nat := bs.foldl (fun a b => 256 * a + b.toNat) 0

/-- `n` big-endian bytes. -/
def beBytes (n v : Nat) : List Byte := (leBytes n v).reverse

/-- One 128-byte block. -/
def shaBlock (h : List Nat) (blk : List Byte) : List Nat :=
  let w0 := (List.range 16).map fun i => beNat ((blk.drop (8 * i)).take 8)
  let w := (shaSched 64 w0.reverse).reverse
  let v := (shaRoundWords.zip w).foldl shaRound h
  (h.zip v).map fun p => (p.1 + p.2) % 2 ^ 64

/-- All blocks. -/
def shaBlocks : Nat → List Nat → List Byte → List Nat
  | 0, h, _ => h
  | n + 1, h, bs => shaBlocks n (shaBlock h (bs.take 128)) (bs.drop 128)

/-- SHA-512. -/
def sha512 (m : List Byte) : List Byte :=
  let pad := (239 - m.length % 128) % 128
  let bs := m ++ (0x80#8 :: List.replicate pad 0#8) ++ beBytes 16 (8 * m.length)
  (shaBlocks (bs.length / 128) shaStart bs).flatMap (beBytes 8)

/-- The field prime of Ed25519. -/
def edP : Nat := 2 ^ 255 - 19
/-- The group order. -/
def edL : Nat := 2 ^ 252 + 27742317777372353535851937790883648493

/-- `b ^ e mod m`, `n` bits of exponent. -/
def powMod (m : Nat) : Nat → Nat → Nat → Nat
  | 0, _, _ => 1 % m
  | n + 1, b, e =>
    let r := powMod m n (b * b % m) (e / 2)
    if e % 2 = 1 then r * b % m else r

/-- Field inverse. -/
def edInv (x : Nat) : Nat := powMod edP 256 x (edP - 2)
/-- The curve constant d. -/
def edD : Nat := (edP - 121665 * edInv 121666 % edP) % edP

/-- Points in extended coordinates (X, Y, Z, T). -/
abbrev EdPt := Nat × Nat × Nat × Nat

/-- Point addition (RFC 8032, 5.1.4). -/
def edAdd (p q : EdPt) : EdPt :=
  let (x1, y1, z1, t1) := p
  let (x2, y2, z2, t2) := q
  let sub (a b : Nat) : Nat := (a + edP - b % edP) % edP
  let a := sub y1 x1 * sub y2 x2 % edP
  let b := (y1 + x1) * (y2 + x2) % edP
  let c := t1 * 2 * edD % edP * t2 % edP
  let d := z1 * 2 * z2 % edP
  let e := sub b a
  let f := sub d c
  let g := (d + c) % edP
  let h := (b + a) % edP
  (e * f % edP, g * h % edP, f * g % edP, e * h % edP)

/-- Scalar multiplication over `n` bits of the scalar. -/
def edMul : Nat → Nat → EdPt → EdPt
  | 0, _, _ => (0, 1, 1, 0)
  | n + 1, k, p =>
    let r := edMul n (k / 2) (edAdd p p)
    if k % 2 = 1 then edAdd r p else r

/-- The x coordinate of a point with a given y and sign bit. -/
def edX (y sgn : Nat) : Option Nat :=
  let y2 := y * y % edP
  let u := (y2 + edP - 1) % edP
  let v := (edD * y2 + 1) % edP
  let xx := u * edInv v % edP
  let c := powMod edP 256 xx ((edP + 3) / 8)
  let r := powMod edP 256 2 ((edP - 1) / 4)
  let x := if c * c % edP = xx then some c else if (c * r % edP) * (c * r % edP) % edP = xx then some (c * r % edP) else none
  match x with
  | none => none
  | some x =>
    if edP ≤ y then none
    else if x = 0 ∧ sgn = 1 then none
    else if x % 2 = sgn then some x else some (edP - x)

/-- Decoding a 32-byte point. -/
def edDecode (bs : List Byte) : Option EdPt :=
  let n := leNat bs
  let y := n % 2 ^ 255
  (edX y (n / 2 ^ 255)).map fun x => (x, y, 1, x * y % edP)

/-- Encoding a point. -/
def edEncode (p : EdPt) : List Byte :=
  let (x, y, z, _) := p
  let zi := edInv z
  leBytes 32 (y * zi % edP + (x * zi % edP) % 2 * 2 ^ 255)

/-- The base point. -/
def edB : EdPt :=
  let y := 4 * edInv 5 % edP
  let x := (edX y 0).getD 0
  (x, y, 1, x * y % edP)

/-- The clamped scalar of a secret key. -/
def edScalar (sk : List Byte) : Nat :=
  let a := leNat ((sha512 sk).take 32)
  a % 2 ^ 254 / 8 * 8 + 2 ^ 254

/-- The public key of a secret key (RFC 8032, 5.1.5). -/
def edPublic (sk : List Byte) : List Byte := edEncode (edMul 256 (edScalar sk) edB)

/-- An Ed25519 signature (RFC 8032, 5.1.6). -/
def edSign (sk msg : List Byte) : List Byte :=
  let a := edScalar sk
  let r := leNat (sha512 ((sha512 sk).drop 32 ++ msg)) % edL
  let rb := edEncode (edMul 256 r edB)
  let k := leNat (sha512 (rb ++ edPublic sk ++ msg)) % edL
  rb ++ leBytes 32 ((r + k * a) % edL)

/-- Ed25519 verification (RFC 8032, 5.1.7). -/
def edVerify (pub msg sig : List Byte) : Bool :=
  let s := leNat (sig.drop 32)
  match edDecode pub, edDecode (sig.take 32) with
  | some a, some r =>
    if edL ≤ s ∨ sig.length ≠ 64 then false
    else
      let k := leNat (sha512 (sig.take 32 ++ pub ++ msg)) % edL
      decide (edEncode (edMul 256 s edB) = edEncode (edAdd r (edMul 256 k a)))
  | _, _ => false

/-- Multiplication in GF(2^8) with polynomial x^8 + x^4 + x^3 + x^2 + 1 (R341, R366). -/
def gfMulN : Nat → Nat → Nat → Nat
  | 0, _, _ => 0
  | n + 1, a, b =>
    let r := gfMulN n (if 128 ≤ a then Nat.xor (2 * a) 0x11D else 2 * a) (b / 2)
    if b % 2 = 1 then Nat.xor a r else r

/-- Field product. -/
def gfMul (a b : Nat) : Nat := gfMulN 8 a b
/-- Field power. -/
def gfPow (a : Nat) : Nat → Nat
  | 0 => 1
  | n + 1 => gfMul a (gfPow a n)
/-- Field inverse. -/
def gfInv (a : Nat) : Nat := gfPow a 254

/-- Value of a polynomial (lowest coefficient first) at `x`. -/
def polyAt (p : List Nat) (x : Nat) : Nat := p.foldr (fun c acc => Nat.xor c (gfMul x acc)) 0

/-- Sum of two polynomials. -/
def polyAdd : List Nat → List Nat → List Nat
  | [], q => q
  | p, [] => p
  | a :: p, b :: q => Nat.xor a b :: polyAdd p q

/-- A polynomial times a constant. -/
def polyScale (c : Nat) (p : List Nat) : List Nat := p.map (gfMul c)

/-- Syndromes of a codeword whose first symbol has the highest degree; roots alpha^0 to alpha^(k-1). -/
def rsSynd (k : Nat) (cw : List Nat) : List Nat :=
  (List.range k).map fun j => let x := gfPow 2 j; cw.foldl (fun acc c => Nat.xor (gfMul acc x) c) 0

/-- The generator polynomial with roots alpha^0 to alpha^(k-1), highest coefficient first, without the leading 1. -/
def rsGen : Nat → List Nat
  | 0 => []
  | k + 1 => let g := rsGen k
             polyAdd (g ++ [0]) (polyScale (gfPow 2 k) (1 :: g))

/-- The `k` parity symbols of data symbols (R341, R366): the remainder of the data polynomial times x^k. -/
def rsParity (k : Nat) (d : List Nat) : List Nat :=
  let g := rsGen k
  d.foldl (fun r c => polyAdd (r.drop 1 ++ [0]) (polyScale (Nat.xor c (r.headD 0)) g)) (List.replicate k 0)

/-- Berlekamp-Massey: the error locator of syndromes. Arguments: syndromes left, index, locator, previous locator, length,
shift, previous discrepancy. -/
def bmStep (syn : List Nat) : Nat → Nat → List Nat → List Nat → Nat → Nat → Nat → List Nat × Nat
  | 0, _, c, _, l, _, _ => (c, l)
  | fuel + 1, n, c, b, l, m, bb =>
    let d := (List.range (l + 1)).foldl (fun acc i => Nat.xor acc (gfMul (c.getD i 0) (syn.getD (n - i) 0))) 0
    if d = 0 then bmStep syn fuel (n + 1) c b l (m + 1) bb
    else
      let t := polyAdd c (polyScale (gfMul d (gfInv bb)) (List.replicate m 0 ++ b))
      if 2 * l ≤ n then bmStep syn fuel (n + 1) t c (n + 1 - l) 1 d
      else bmStep syn fuel (n + 1) t b l (m + 1) bb

/-- Product of two polynomials cut to `k` coefficients. -/
def polyMulMod (k : Nat) (p q : List Nat) : List Nat :=
  (List.range k).map fun i =>
    (List.range (i + 1)).foldl (fun acc j => Nat.xor acc (gfMul (p.getD j 0) (q.getD (i - j) 0))) 0

/-- Decoding a codeword with `k` parity symbols, up to `k / 2` errors: the corrected codeword and how many symbols were
corrected, or none. -/
def rsDecode (k : Nat) (cw : List Nat) : Option (List Nat × Nat) :=
  let syn := rsSynd k cw
  if syn.all (fun x => decide (x = 0)) then some (cw, 0)
  else
    let (loc, l) := bmStep syn k 0 [1] [1] 0 1 1
    let n := cw.length
    let pos := (List.range n).filter fun i => decide (polyAt loc (gfInv (gfPow 2 (n - 1 - i))) = 0)
    if k / 2 < l ∨ pos.length ≠ l then none
    else
      let om := polyMulMod k syn loc
      let der := (List.range loc.length).map fun i => if i % 2 = 0 then loc.getD (i + 1) 0 else 0
      let fix := pos.foldl (fun (w : List Nat) i =>
        let x := gfPow 2 (n - 1 - i)
        let xi := gfInv x
        let e := gfMul x (gfMul (polyAt om xi) (gfInv (polyAt der xi)))
        w.set i (Nat.xor (w.getD i 0) e)) cw
      if (rsSynd k fix).all (fun x => decide (x = 0)) then some (fix, l) else none

end Sys2Proof.Machine
end

