-- ==== Sys2Proof/Machine/RegMap.lean ====
section
/-! DEFINITION. The register fields of every page, as the field tables of spec/15_register_pages.md (Tables 15-2,
15-5 to 15-15), spec/10 (10-7), spec/11 (11-5, 11-6), spec/12 (12-3), spec/13 (13-7), spec/14 (14-8) and spec/16
(16-10) give them: offset, low bit, width, access code (Table 0-3), reset value and, where a table or Table 10-4 states
one, the permitted range. A 64-bit pair is two rows, its LO at `pair = 1` and its HI at `pair = 2` (R400). -/

namespace Sys2Proof.Machine

/-- Access codes of Table 0-3; `shc` is a sticky field that a write of any value clears. -/
inductive Acc where
  | ro | rw | rt | ri | w1c | wo | sh | shc
  deriving DecidableEq, Repr

/-- One field of a register. -/
structure Fld where
  off : Nat
  lo : Nat
  w : Nat
  acc : Acc
  rst : Nat
  mn : Nat
  mx : Nat
  pair : Nat
  deriving DecidableEq, Repr

/-- A field without a stated range. -/
def fl (off lo w : Nat) (a : Acc) (r : Nat) : Fld := ⟨off, lo, w, a, r, 0, 2 ^ w - 1, 0⟩

/-- A field with a stated range. -/
def flr (off lo w : Nat) (a : Acc) (r mn mx : Nat) : Fld := ⟨off, lo, w, a, r, mn, mx, 0⟩

/-- One half of a LO/HI pair. -/
def flp (off lo w : Nat) (a : Acc) (r p : Nat) : Fld := ⟨off, lo, w, a, r, 0, 2 ^ w - 1, p⟩

/-- Fields of the common header of every page. -/
def fldsHeader : List Fld := [
  fl 0x0 0 8 .ro 0, fl 0x0 8 8 .ro 0, fl 0x0 16 5 .ro 0,
  fl 0x0 21 3 .ro 0, fl 0x0 24 8 .ro 0, fl 0x4 0 8 .ro 1,
  fl 0x8 0 1 .ri 1, fl 0x8 1 1 .wo 0, fl 0xC 0 1 .ro 1,
  fl 0xC 1 1 .ro 0, fl 0xC 2 1 .ro 0, fl 0xC 3 1 .ro 0,
  fl 0x10 0 32 .w1c 0, fl 0x14 0 32 .rw 0, fl 0x18 0 1 .rw 1,
  fl 0x18 1 1 .rw 0, fl 0x1C 0 32 .sh 0, fl 0x20 0 1 .ro 0,
  fl 0x20 1 1 .ro 0, fl 0x20 16 16 .ro 0]

/-- Fields of the MOD page, part 1. -/
def fldsModA : List Fld := [
  fl 0x40 0 3 .ro 1, fl 0x40 4 4 .ro 0, fl 0x44 0 1 .wo 0,
  fl 0x44 1 1 .wo 0, fl 0x44 2 1 .wo 0, fl 0x48 0 1 .w1c 0,
  fl 0x48 8 5 .sh 0, fl 0x50 0 1 .wo 0, fl 0x54 0 1 .wo 0,
  fl 0x58 0 1 .wo 0, fl 0x5C 0 1 .wo 0, fl 0x50 1 1 .wo 0,
  fl 0x54 1 1 .wo 0, fl 0x58 1 1 .wo 0, fl 0x5C 1 1 .wo 0,
  fl 0x50 2 1 .wo 0, fl 0x54 2 1 .wo 0, fl 0x58 2 1 .wo 0,
  fl 0x5C 2 1 .wo 0, fl 0x50 3 1 .wo 0, fl 0x54 3 1 .wo 0,
  fl 0x58 3 1 .wo 0, fl 0x5C 3 1 .wo 0, fl 0x50 4 1 .wo 0,
  fl 0x54 4 1 .wo 0, fl 0x58 4 1 .wo 0, fl 0x5C 4 1 .wo 0,
  fl 0x50 5 1 .rw 0, fl 0x54 5 1 .rw 0, fl 0x58 5 1 .rw 0,
  fl 0x5C 5 1 .rw 0, fl 0x50 8 3 .ro 0, fl 0x54 8 3 .ro 0,
  fl 0x58 8 3 .ro 0, fl 0x5C 8 3 .ro 0, fl 0x50 11 1 .ro 0,
  fl 0x54 11 1 .ro 0, fl 0x58 11 1 .ro 0, fl 0x5C 11 1 .ro 0,
  fl 0x50 12 1 .ro 0]

/-- Fields of the MOD page, part 2. -/
def fldsModB : List Fld := [
  fl 0x54 12 1 .ro 0, fl 0x58 12 1 .ro 0, fl 0x5C 12 1 .ro 0,
  flp 0x60 0 32 .rw 0x0 1, flp 0x64 0 32 .rw 0x0 2, flp 0x70 0 32 .rw 0x0 1,
  flp 0x74 0 32 .rw 0x0 2, flp 0x80 0 32 .rw 0x0 1, flp 0x84 0 32 .rw 0x0 2,
  flp 0x90 0 32 .rw 0x0 1, flp 0x94 0 32 .rw 0x0 2, flp 0x68 0 32 .rw 0x0 1,
  flp 0x6C 0 32 .rw 0x0 2, flp 0x78 0 32 .rw 0x0 1, flp 0x7C 0 32 .rw 0x0 2,
  flp 0x88 0 32 .rw 0x0 1, flp 0x8C 0 32 .rw 0x0 2, flp 0x98 0 32 .rw 0x0 1,
  flp 0x9C 0 32 .rw 0x0 2, fl 0xA0 0 8 .sh 0, fl 0xA0 8 16 .sh 0,
  fl 0xA0 24 6 .sh 0, fl 0xA0 30 2 .sh 0, fl 0xA4 0 12 .ro 0,
  fl 0xA8 0 12 .ro 0, fl 0xAC 0 12 .ro 0, fl 0xB0 0 12 .ro 0,
  fl 0xB4 0 1 .wo 0, fl 0xB4 1 1 .ro 0, fl 0xB4 16 16 .ro 0,
  fl 0xB8 0 7 .ro 64, flp 0xC0 0 32 .ro 0x0 1, flp 0xC4 0 32 .ro 0x0 2]

/-- Fields of the MOD page. -/
def fldsMod : List Fld := fldsModA ++ fldsModB

/-- Fields of the TICK page. -/
def fldsTick : List Fld := [
  flr 0x40 0 17 .ri 10000 1000 100000, fl 0x44 0 1 .ri 0, fl 0x44 1 2 .ri 0,
  flr 0x44 4 2 .ri 0 0 2, fl 0x44 6 1 .ro 0, flp 0x48 0 32 .ri 0x0 1,
  flp 0x4C 0 32 .ri 0x0 2, fl 0x50 0 32 .ri 0, flr 0x54 0 8 .ri 64 8 255,
  fl 0x54 8 8 .ri 64, flp 0x58 0 32 .ro 0x0 1, flp 0x5C 0 32 .ro 0x0 2,
  flp 0x60 0 32 .ro 0x0 1, flp 0x64 0 32 .ro 0x0 2, fl 0x68 0 32 .ro 0,
  fl 0x6C 0 16 .rw 0, fl 0x6C 16 8 .ro 0, flp 0x70 0 32 .ro 0x0 1,
  flp 0x74 0 32 .ro 0x0 2]

/-- Fields of the ZONE page. -/
def fldsZone : List Fld := [
  flr 0x40 0 3 .rt 0 0 4, fl 0x40 8 3 .ro 0, fl 0x40 12 3 .ro 0,
  fl 0x40 16 3 .ro 0, fl 0x40 19 1 .ro 0, flr 0x44 0 12 .rt 1600 400 2400,
  fl 0x48 0 8 .ro 0, fl 0x48 8 4 .ro 0, fl 0x4C 0 16 .ro 0,
  fl 0x50 0 12 .ro 0, fl 0x54 0 16 .rw 0, fl 0x54 16 4 .ro 0,
  fl 0x58 0 32 .ro 0, fl 0x5C 0 16 .rw 0, fl 0x60 0 4 .ro 0]

/-- Fields of the SEQ page. -/
def fldsSeq : List Fld := [
  fl 0x40 0 2 .ro 0, fl 0x40 2 1 .ro 0, fl 0x40 4 2 .ro 0,
  fl 0x40 6 1 .ro 0, fl 0x40 8 6 .ro 63, fl 0x44 0 16 .ro 0,
  fl 0x48 0 16 .ro 0, fl 0x4C 0 2 .ro 0, fl 0x4C 2 2 .ro 0,
  fl 0x50 0 32 .ro 0, fl 0x54 0 32 .ro 0, flp 0x58 0 32 .ro 0x0 1,
  flp 0x5C 0 32 .ro 0x0 2, fl 0x60 0 16 .sh 0, fl 0x60 16 8 .sh 0,
  fl 0x60 24 1 .sh 0, fl 0x60 25 1 .sh 0, fl 0x60 31 1 .w1c 0,
  fl 0x64 0 32 .sh 0, fl 0x68 0 32 .rw 0, fl 0x6C 0 32 .ro 0,
  fl 0x70 0 32 .ro 0, fl 0x74 0 16 .rw 0, fl 0x74 16 1 .sh 0,
  fl 0x78 0 3 .sh 0, fl 0x78 31 1 .w1c 0]

/-- Fields of the ARRAY page. -/
def fldsArray : List Fld := [
  fl 0x40 0 4 .ro 0, fl 0x40 4 1 .ro 0, fl 0x40 5 2 .ro 0,
  fl 0x40 7 1 .ro 0, fl 0x44 0 4 .ro 0, fl 0x44 4 4 .ro 0,
  fl 0x48 0 32 .ro 0, fl 0x4C 0 32 .ro 0, fl 0x50 0 7 .ro 127,
  fl 0x50 8 7 .ro 127, fl 0x54 0 7 .ro 127, fl 0x54 8 7 .ro 127,
  fl 0x54 16 7 .ro 64, fl 0x58 0 32 .ro 0, fl 0x5C 0 32 .ro 0,
  fl 0x60 0 32 .ro 0, fl 0x64 0 32 .ro 0, fl 0x68 0 32 .ro 0,
  fl 0x6C 0 32 .ro 0, fl 0x70 0 7 .ro 0, fl 0x74 0 16 .rw 0,
  fl 0x78 0 16 .rw 0, fl 0x7C 0 32 .ro 0, fl 0x80 0 16 .rw 0,
  fl 0x80 16 16 .rw 0]

/-- Fields of the CHECK page. -/
def fldsCheck : List Fld := [
  fl 0x40 0 3 .rt 3, fl 0x40 3 1 .ro 0, fl 0x44 0 32 .ro 0,
  fl 0x48 0 32 .ro 0, fl 0x4C 0 32 .ro 0, fl 0x50 0 16 .rw 0,
  fl 0x50 16 16 .rw 0, fl 0x54 0 1 .ro 0, fl 0x54 1 1 .ro 0,
  fl 0x54 8 2 .ro 0, fl 0x54 16 1 .sh 0, fl 0x54 17 1 .sh 0,
  fl 0x58 0 16 .sh 0, fl 0x58 16 6 .sh 0, fl 0x58 31 1 .w1c 0,
  flp 0x5C 0 32 .sh 0x0 1, flp 0x60 0 32 .sh 0x0 2, fl 0x64 0 16 .rw 0,
  fl 0x64 16 16 .rw 0]

/-- Fields of the SCALE page. -/
def fldsScale : List Fld := [
  fl 0x40 0 16 .rt 4096, fl 0x40 16 16 .rt 64, fl 0x44 0 16 .rw 0,
  fl 0x44 16 16 .rw 0, fl 0x48 0 16 .rw 0, fl 0x48 16 16 .rw 0,
  fl 0x4C 0 8 .sh 0, fl 0x4C 8 5 .sh 0, fl 0x4C 13 3 .sh 0,
  fl 0x4C 16 12 .sh 0, fl 0x4C 31 1 .w1c 0, fl 0x50 0 32 .sh 0,
  fl 0x54 0 32 .sh 0, fl 0x58 0 8 .rw 0, fl 0x5C 0 1 .ro 0,
  fl 0x5C 1 12 .ro 0, fl 0x5C 13 17 .ro 0, fl 0x60 0 32 .ro 0]

/-- Fields of the NUMEV page. -/
def fldsNumev : List Fld := [
  flr 0x40 0 2 .rt 1 0 2, flr 0x40 2 2 .rt 2 0 2, fl 0x44 0 16 .sh 0,
  fl 0x44 16 3 .sh 0, fl 0x44 24 1 .sh 0, fl 0x44 31 1 .w1c 0,
  fl 0x48 0 20 .sh 0, fl 0x4C 0 8 .sh 0, fl 0x4C 8 6 .sh 0,
  fl 0x4C 16 8 .sh 0, flp 0x50 0 32 .sh 0x0 1, flp 0x54 0 32 .sh 0x0 2,
  fl 0x58 0 16 .sh 0, fl 0x58 16 3 .sh 0, fl 0x58 24 1 .sh 0,
  fl 0x58 31 1 .w1c 0, fl 0x5C 0 12 .sh 0, fl 0x5C 12 6 .sh 0,
  fl 0x5C 18 6 .sh 0, flp 0x60 0 32 .sh 0x0 1, flp 0x64 0 32 .sh 0x0 2,
  fl 0x68 0 32 .rw 0, fl 0x6C 0 32 .rw 0, fl 0x70 0 32 .rw 0,
  fl 0x74 0 32 .rw 0, fl 0x78 0 32 .rw 0, fl 0x7C 0 32 .rw 0,
  fl 0x80 0 32 .rw 0, fl 0x84 0 32 .rw 0, fl 0x88 0 32 .rw 0,
  fl 0x8C 0 32 .rw 0]

/-- Fields of the CURATOR page, part 1. -/
def fldsCuratorA : List Fld := [
  fl 0x40 0 5 .rt 31, flr 0x44 0 8 .rt 95 70 95, flr 0x44 8 8 .rt 88 60 92,
  flr 0x44 16 8 .rt 103 73 105, fl 0x48 0 3 .rt 3, fl 0x4C 0 3 .rt 3,
  fl 0x50 0 3 .rt 3, fl 0x54 0 3 .rt 3, fl 0x48 4 3 .rt 6,
  fl 0x4C 4 3 .rt 6, fl 0x50 4 3 .rt 6, fl 0x54 4 3 .rt 6,
  fl 0x48 8 3 .rt 0, fl 0x4C 8 3 .rt 0, fl 0x50 8 3 .rt 0,
  fl 0x54 8 3 .rt 0, fl 0x48 11 1 .rt 1, fl 0x4C 11 1 .rt 1,
  fl 0x50 11 1 .rt 1, fl 0x54 11 1 .rt 1, fl 0x48 12 3 .ro 3,
  fl 0x4C 12 3 .ro 3, fl 0x50 12 3 .ro 3, fl 0x54 12 3 .ro 3,
  flr 0x48 16 16 .rt 4096 1 65535, flr 0x4C 16 16 .rt 4096 1 65535, flr 0x50 16 16 .rt 4096 1 65535,
  flr 0x54 16 16 .rt 4096 1 65535, fl 0x58 0 4 .rt 15, flr 0x58 4 12 .rt 32 1 4095,
  flr 0x58 16 8 .rt 16 4 64, flr 0x5C 0 16 .rt 65471 32768 65535, fl 0x60 0 12 .rt 0,
  fl 0x64 0 12 .rt 0, fl 0x68 0 12 .rt 0, fl 0x6C 0 12 .rt 0,
  fl 0x60 12 1 .rt 0, fl 0x64 12 1 .rt 0, fl 0x68 12 1 .rt 0,
  fl 0x6C 12 1 .rt 0]

/-- Fields of the CURATOR page, part 2. -/
def fldsCuratorB : List Fld := [
  fl 0x60 13 1 .rt 0, fl 0x64 13 1 .rt 0, fl 0x68 13 1 .rt 0,
  fl 0x6C 13 1 .rt 0, flr 0x60 16 6 .rt 32 2 32, flr 0x64 16 6 .rt 32 2 32,
  flr 0x68 16 6 .rt 32 2 32, flr 0x6C 16 6 .rt 32 2 32, flr 0x60 24 8 .rt 16 1 255,
  flr 0x64 24 8 .rt 16 1 255, flr 0x68 24 8 .rt 16 1 255, flr 0x6C 24 8 .rt 16 1 255,
  fl 0x70 0 1 .rt 0, flr 0x70 8 24 .rt 100000 1 16777215, fl 0x74 0 16 .ro 0,
  fl 0x78 0 1 .ro 0, fl 0x78 1 1 .ro 0, fl 0x78 2 1 .ro 0,
  fl 0x78 4 3 .ro 0, fl 0x78 8 1 .ro 0, fl 0x80 0 32 .ro 0,
  fl 0x84 0 32 .ro 0, fl 0x88 0 32 .ro 0, fl 0x8C 0 32 .ro 0,
  fl 0x90 0 32 .ro 0, fl 0x94 0 32 .ro 0, fl 0x98 0 32 .ro 0,
  fl 0x9C 0 32 .ro 0, flp 0xA0 0 32 .ro 0x0 1, flp 0xA4 0 32 .ro 0x0 2,
  fl 0xA8 0 8 .ro 0, fl 0xA8 8 8 .ro 0, fl 0xA8 16 16 .ro 0,
  fl 0xAC 0 32 .ro 0]

/-- Fields of the CURATOR page. -/
def fldsCurator : List Fld := fldsCuratorA ++ fldsCuratorB

/-- Fields of the ERRATA page. -/
def fldsErrata : List Fld := [
  flp 0x40 0 32 .ri 0x6FC00000 1, flp 0x44 0 32 .ri 0x30 2, fl 0x48 0 1 .ri 1,
  fl 0x4C 0 32 .ro 0, fl 0x50 0 16 .ro 0, fl 0x54 0 32 .ro 0,
  fl 0x58 0 32 .ro 0, fl 0x5C 0 3 .sh 0, fl 0x5C 16 16 .sh 0,
  fl 0x60 0 3 .rw 4]

/-- Fields of the HUB page, part 1. -/
def fldsHubA : List Fld := [
  fl 0x40 0 4 .ro 0, fl 0x40 4 4 .ro 0, fl 0x40 8 4 .ro 0,
  fl 0x40 12 4 .ro 0, fl 0x40 16 4 .ro 0, fl 0x40 20 4 .ro 0,
  fl 0x40 24 4 .ro 0, fl 0x40 28 4 .ro 0, fl 0x44 0 4 .ro 0,
  fl 0x44 4 4 .ro 0, fl 0x44 8 4 .ro 0, fl 0x44 12 4 .ro 0,
  fl 0x44 16 4 .ro 0, fl 0x44 20 4 .ro 0, fl 0x44 24 4 .ro 0,
  fl 0x44 28 4 .ro 0, fl 0x48 0 4 .ro 0, fl 0x48 4 4 .ro 0,
  fl 0x48 8 4 .ro 0, fl 0x48 12 4 .ro 0, fl 0x48 16 4 .ro 0,
  fl 0x48 20 4 .ro 0, fl 0x48 24 4 .ro 0, fl 0x48 28 4 .ro 0,
  fl 0x4C 0 4 .ro 0, fl 0x4C 4 4 .ro 0, fl 0x4C 8 4 .ro 0,
  fl 0x4C 12 4 .ro 0, fl 0x4C 16 4 .ro 0, fl 0x4C 20 4 .ro 0,
  fl 0x4C 24 4 .ro 0, fl 0x4C 28 4 .ro 0, fl 0x50 0 4 .ro 0,
  fl 0x50 4 4 .ro 0, fl 0x50 8 4 .ro 0, fl 0x50 12 4 .ro 0,
  fl 0x50 16 4 .ro 0, fl 0x50 20 4 .ro 0, fl 0x50 24 4 .ro 0,
  fl 0x50 28 4 .ro 0]

/-- Fields of the HUB page, part 2. -/
def fldsHubB : List Fld := [
  fl 0x54 0 4 .ro 0, fl 0x54 4 4 .ro 0, fl 0x54 8 4 .ro 0,
  fl 0x54 12 4 .ro 0, fl 0x54 16 4 .ro 0, fl 0x54 20 4 .ro 0,
  fl 0x54 24 4 .ro 0, fl 0x54 28 4 .ro 0, fl 0x58 0 4 .ro 0,
  fl 0x58 4 4 .ro 0, fl 0x58 8 4 .ro 0, fl 0x58 12 4 .ro 0,
  fl 0x58 16 4 .ro 0, fl 0x58 20 4 .ro 0, fl 0x58 24 4 .ro 0,
  fl 0x58 28 4 .ro 0, fl 0x5C 0 4 .ro 0, fl 0x5C 4 4 .ro 0,
  fl 0x5C 8 4 .ro 0, fl 0x5C 12 4 .ro 0, fl 0x5C 16 4 .ro 0,
  fl 0x5C 20 4 .ro 0, fl 0x5C 24 4 .ro 0, fl 0x5C 28 4 .ro 0,
  fl 0x60 0 3 .ro 7, fl 0x60 4 3 .ro 7, fl 0x60 8 3 .ro 7,
  fl 0x60 12 3 .ro 7, fl 0x60 16 3 .ro 7, fl 0x64 0 6 .ro 60,
  fl 0x68 0 5 .ro 31, fl 0x68 5 3 .ro 0, fl 0x6C 0 21 .ro 0,
  flp 0x70 0 32 .ro 0x0 1, flp 0x74 0 32 .ro 0x0 2, flp 0x78 0 32 .ro 0x0 1,
  flp 0x7C 0 32 .ro 0x0 2]

/-- Fields of the HUB page. -/
def fldsHub : List Fld := fldsHubA ++ fldsHubB

/-- Fields of the MC page. -/
def fldsMc : List Fld := [
  fl 0x40 0 2 .ro 0, fl 0x40 2 1 .wo 0, fl 0x44 0 32 .w1c 0,
  fl 0x48 0 32 .w1c 0, flp 0x50 0 32 .sh 0x0 1, flp 0x54 0 32 .sh 0x0 2,
  fl 0x58 0 8 .ro 0]

/-- Fields of the ABF page, part 1. -/
def fldsAbfA : List Fld := [
  fl 0x40 0 1 .rw 0, fl 0x40 1 1 .wo 0, fl 0x44 0 3 .ro 0,
  fl 0x44 3 4 .ro 15, fl 0x44 8 3 .ro 7, fl 0x44 11 5 .ro 0,
  fl 0x44 16 8 .ro 0, fl 0x48 0 16 .rw 0, fl 0x48 16 16 .rw 0,
  fl 0x50 0 32 .ro 0, fl 0x54 0 32 .ro 0, fl 0x58 0 32 .ro 0,
  fl 0x5C 0 32 .ro 0, fl 0x60 0 32 .ro 0, fl 0x64 0 32 .ro 0,
  fl 0x68 0 32 .ro 0, fl 0x6C 0 32 .ro 0, fl 0x70 0 32 .ro 0,
  fl 0x74 0 16 .ro 0, flp 0x78 0 32 .ro 0x0 1, flp 0x7C 0 32 .ro 0x0 2,
  flp 0x80 0 32 .ro 0x0 1, flp 0x84 0 32 .ro 0x0 2, fl 0x100 0 5 .ri 0,
  flr 0x100 5 3 .ri 0 0 5, fl 0x100 8 3 .ri 7, fl 0x104 0 3 .ro 0,
  fl 0x104 3 3 .ro 1, fl 0x104 6 3 .ro 2, fl 0x104 9 3 .ro 3,
  fl 0x104 12 3 .ro 4, flr 0x108 0 5 .ri 6 0 24, flr 0x108 5 5 .ri 6 0 24,
  flr 0x108 10 5 .ri 6 0 24, flr 0x108 15 5 .ri 6 0 24, fl 0x110 0 32 .ri 0,
  fl 0x114 0 32 .ri 0, fl 0x118 0 32 .ri 0, fl 0x11C 0 32 .ri 0,
  flp 0x120 0 32 .ro 0x0 1]

/-- Fields of the ABF page, part 2. -/
def fldsAbfB : List Fld := [
  flp 0x124 0 32 .ro 0x0 2, fl 0x128 0 32 .ro 0]

/-- Fields of the ABF page. -/
def fldsAbf : List Fld := fldsAbfA ++ fldsAbfB

/-- Fields of the VILRI page. -/
def fldsVilri : List Fld := [
  fl 0x40 0 1 .wo 0, fl 0x44 0 2 .ro 0, fl 0x44 2 3 .ro 4,
  fl 0x44 5 3 .ro 4, fl 0x44 8 1 .sh 0, fl 0x44 12 4 .ro 0,
  fl 0x48 0 16 .ro 0, fl 0x4C 0 16 .ro 0, fl 0x50 0 16 .ro 0,
  fl 0x54 0 16 .ro 0, fl 0x58 0 16 .rw 0, fl 0x58 16 16 .rw 0,
  fl 0x5C 0 16 .rw 0, fl 0x60 0 32 .ro 0, fl 0x64 0 32 .ro 0,
  fl 0x68 0 32 .ro 0, fl 0x6C 0 32 .ro 0, fl 0x70 0 32 .ro 0,
  fl 0x74 0 32 .ro 0, fl 0x78 0 32 .ro 0, fl 0x7C 0 32 .ro 0,
  fl 0x80 0 32 .ro 0, flp 0x88 0 32 .ro 0x0 1, flp 0x8C 0 32 .ro 0x0 2,
  fl 0x90 0 16 .ro 0]

/-- Fields of the SEC page, part 1. -/
def fldsSecA : List Fld := [
  fl 0x40 0 1 .ro 0, fl 0x40 1 1 .ro 0, fl 0x40 2 1 .ro 0,
  fl 0x40 8 8 .ro 0, fl 0x40 16 1 .ro 0, fl 0x44 0 32 .ro 0,
  fl 0x48 0 32 .ro 0, fl 0x4C 0 32 .ro 0, fl 0x50 0 32 .ro 0,
  fl 0x54 0 32 .ro 0, fl 0x58 0 32 .ro 0, fl 0x5C 0 32 .ro 0,
  fl 0x60 0 32 .ro 0, fl 0x64 0 32 .ro 0, fl 0x68 0 32 .ro 0,
  fl 0x6C 0 32 .ro 0, fl 0x70 0 32 .ro 0, fl 0x74 0 32 .ro 0,
  fl 0x78 0 32 .ro 0, fl 0x7C 0 32 .ro 0, fl 0x80 0 32 .ro 0,
  flp 0x88 0 32 .rw 0x0 1, flp 0x8C 0 32 .rw 0x0 2, fl 0x90 0 32 .rw 0,
  fl 0x94 0 32 .rw 0, fl 0x98 0 32 .rw 0, fl 0x9C 0 32 .rw 0,
  fl 0xA0 0 32 .rw 0, fl 0xA4 0 32 .rw 0, fl 0xA8 0 32 .rw 0,
  fl 0xAC 0 32 .rw 0, fl 0xB0 0 1 .wo 0, fl 0xB0 1 1 .ro 0,
  fl 0xB4 0 16 .ro 0, fl 0xB8 0 8 .sh 0, fl 0xB8 8 4 .sh 0,
  fl 0xB8 31 1 .w1c 0, fl 0xBC 0 4 .ro 0, fl 0xBC 8 8 .ro 0,
  fl 0xBC 16 4 .ro 0]

/-- Fields of the SEC page, part 2. -/
def fldsSecB : List Fld := [
  fl 0xBC 20 1 .ro 0, fl 0xBC 21 1 .ro 0, fl 0xC0 0 16 .ro 0,
  fl 0xC4 0 2 .ro 0, fl 0xC4 2 1 .ro 0, fl 0xC4 3 1 .ro 0,
  fl 0xC4 4 4 .ro 0, fl 0xC4 8 1 .ro 0]

/-- Fields of the SEC page. -/
def fldsSec : List Fld := fldsSecA ++ fldsSecB

/-- Fields of the ACC page, part 1. -/
def fldsAccA : List Fld := [
  fl 0x40 0 1 .rw 0, fl 0x40 1 1 .ri 1, fl 0x40 2 1 .ri 0,
  fl 0x40 3 1 .wo 0, fl 0x44 0 5 .ri 0, fl 0x44 5 3 .ri 0,
  fl 0x44 8 5 .ri 16, fl 0x44 13 2 .ri 2, fl 0x44 15 2 .ri 0,
  fl 0x44 17 5 .ri 0, fl 0x44 22 6 .ri 0, fl 0x44 28 4 .ri 0,
  fl 0x48 0 1 .ri 0, fl 0x48 1 9 .ri 0, flr 0x48 16 16 .ri 3250 1600 3250,
  fl 0x50 0 5 .ri 0, fl 0x50 8 5 .ri 1, fl 0x50 16 5 .ri 2,
  fl 0x50 24 5 .ri 3, fl 0x54 0 5 .ri 4, fl 0x54 8 5 .ri 5,
  fl 0x54 16 5 .ri 6, fl 0x54 24 5 .ri 7, fl 0x58 0 5 .ri 8,
  fl 0x58 8 5 .ri 9, fl 0x58 16 5 .ri 10, fl 0x58 24 5 .ri 11,
  fl 0x5C 0 5 .ri 12, fl 0x5C 8 5 .ri 13, fl 0x5C 16 5 .ri 14,
  fl 0x5C 24 5 .ri 15, fl 0x60 0 5 .ri 16, fl 0x60 8 5 .ri 17,
  fl 0x60 16 5 .ri 18, fl 0x60 24 5 .ri 19, fl 0x64 0 5 .ri 20,
  fl 0x64 8 5 .ri 21, fl 0x64 16 5 .ri 22, fl 0x64 24 5 .ri 23,
  fl 0x68 0 5 .ri 24]

/-- Fields of the ACC page, part 2. -/
def fldsAccB : List Fld := [
  fl 0x68 8 5 .ri 25, fl 0x68 16 5 .ri 26, fl 0x68 24 5 .ri 27,
  fl 0x6C 0 5 .ri 28, fl 0x6C 8 5 .ri 29, fl 0x6C 16 5 .ri 30,
  fl 0x6C 24 5 .ri 31, fl 0x50 7 1 .ri 0, fl 0x50 15 1 .ri 0,
  fl 0x50 23 1 .ri 0, fl 0x50 31 1 .ri 0, fl 0x54 7 1 .ri 0,
  fl 0x54 15 1 .ri 0, fl 0x54 23 1 .ri 0, fl 0x54 31 1 .ri 0,
  fl 0x58 7 1 .ri 0, fl 0x58 15 1 .ri 0, fl 0x58 23 1 .ri 0,
  fl 0x58 31 1 .ri 0, fl 0x5C 7 1 .ri 0, fl 0x5C 15 1 .ri 0,
  fl 0x5C 23 1 .ri 0, fl 0x5C 31 1 .ri 0, fl 0x60 7 1 .ri 0,
  fl 0x60 15 1 .ri 0, fl 0x60 23 1 .ri 0, fl 0x60 31 1 .ri 0,
  fl 0x64 7 1 .ri 0, fl 0x64 15 1 .ri 0, fl 0x64 23 1 .ri 0,
  fl 0x64 31 1 .ri 0, fl 0x68 7 1 .ri 0, fl 0x68 15 1 .ri 0,
  fl 0x68 23 1 .ri 0, fl 0x68 31 1 .ri 0, fl 0x6C 7 1 .ri 0,
  fl 0x6C 15 1 .ri 0, fl 0x6C 23 1 .ri 0, fl 0x6C 31 1 .ri 0,
  flp 0x70 0 32 .ri 0x0 1]

/-- Fields of the ACC page, part 3. -/
def fldsAccC : List Fld := [
  flp 0x74 0 32 .ri 0x0 2, flp 0x78 0 32 .ro 0x0 1, flp 0x7C 0 32 .ro 0x0 2,
  fl 0x80 0 17 .ri 0, fl 0x84 0 3 .ri 0, fl 0x84 3 3 .ri 1,
  fl 0x84 6 1 .ri 1, fl 0x84 7 1 .ri 0, flr 0x84 8 4 .ri 0 0 12,
  flr 0x84 12 4 .ri 2 0 8, fl 0x84 16 3 .ri 1, fl 0x84 19 2 .ri 3,
  flr 0x84 21 3 .ri 0 0 6, flp 0x88 0 32 .ri 0x0 1, flp 0x8C 0 16 .ri 0x0 2,
  flp 0x90 0 32 .ri 0x0 1, flp 0x94 0 16 .ri 0x0 2, flr 0x98 0 17 .ri 256 16 65536,
  fl 0x9C 0 8 .ri 255, flr 0x9C 8 6 .ri 8 1 32, fl 0x9C 14 16 .ri 0,
  flp 0xA0 0 32 .ri 0x0 1, flp 0xA4 0 4 .ri 0x0 2, flp 0xB0 0 32 .ri 0x0 1,
  flp 0xB4 0 4 .ri 0x0 2, flp 0xA8 0 32 .ri 0x0 1, flp 0xAC 0 4 .ri 0x0 2,
  flp 0xB8 0 32 .ri 0x0 1, flp 0xBC 0 4 .ri 0x0 2, fl 0xC0 0 1 .ri 0,
  fl 0xC0 1 1 .ri 0, fl 0xC0 2 1 .ri 0, fl 0xC0 3 1 .ri 0,
  fl 0xC0 4 1 .wo 0, fl 0xC0 5 1 .wo 0, fl 0xC4 0 32 .ri 0,
  flp 0xC8 0 32 .ro 0x0 1, flp 0xCC 0 32 .ro 0x0 2, flp 0xD0 0 32 .ro 0x0 1,
  flp 0xD4 0 32 .ro 0x0 2]

/-- Fields of the ACC page, part 4. -/
def fldsAccD : List Fld := [
  flp 0xD8 0 32 .ro 0x0 1, flp 0xDC 0 32 .ro 0x0 2, flp 0xE0 0 32 .ro 0x0 1,
  flp 0xE4 0 32 .ro 0x0 2, flp 0xE8 0 32 .ro 0x0 1, flp 0xEC 0 32 .ro 0x0 2,
  flp 0xF0 0 32 .ro 0x0 1, flp 0xF4 0 32 .ro 0x0 2, flp 0xF8 0 32 .ro 0x0 1,
  flp 0xFC 0 32 .ro 0x0 2, fl 0x100 0 2 .ro 0, fl 0x100 2 1 .ro 0,
  fl 0x104 0 16 .rw 0, fl 0x104 16 8 .rw 0, fl 0x104 24 8 .rw 0,
  fl 0x108 0 32 .ro 0, fl 0x10C 0 32 .ro 0, flp 0x110 0 32 .ro 0x0 1,
  flp 0x114 0 32 .ro 0x0 2, flp 0x118 0 32 .ro 0x0 1, flp 0x11C 0 32 .ro 0x0 2,
  fl 0x120 0 8 .ro 0]

/-- Fields of the ACC page. -/
def fldsAcc : List Fld := fldsAccA ++ fldsAccB ++ fldsAccC ++ fldsAccD

/-- Fields of the NDESK page. -/
def fldsNdesk : List Fld := [
  fl 0x40 0 1 .ri 0, fl 0x40 1 2 .ri 0, fl 0x40 3 1 .ri 1,
  fl 0x44 0 32 .ri 0xFFFFFFFF, flr 0x48 0 4 .ri 8 1 15, fl 0x48 4 3 .ri 3,
  fl 0x4C 0 16 .ri 1024, fl 0x4C 16 16 .ri 64, fl 0x50 0 16 .ri 32767,
  fl 0x50 16 16 .ri 32767, flr 0x54 0 16 .ri 4 1 65535, fl 0x58 0 32 .ri 0,
  fl 0x5C 0 32 .ri 0, fl 0x60 0 32 .ri 0, fl 0x64 0 32 .ri 0,
  flp 0x68 0 32 .ri 0x0 1, flp 0x6C 0 32 .ri 0x0 2, flp 0x70 0 32 .ro 0x0 1,
  flp 0x74 0 32 .ro 0x0 2, fl 0x78 0 32 .ro 0, fl 0x7C 0 6 .ro 0]

/-- Fields of the IDENT page. -/
def fldsIdent : List Fld := [
  fl 0x40 0 32 .ro 0x30323834, fl 0x44 0 8 .ro 65, flp 0x48 0 32 .ro 0x0 1,
  flp 0x4C 0 32 .ro 0x0 2, fl 0x50 0 32 .ro 0x3030384D, fl 0x54 0 32 .ro 0]

/-- Fields of the CLOCKS page. -/
def fldsClocks : List Fld := [
  fl 0x40 0 32 .ro 0]

/-- Fields of the CATALOGUE page. -/
def fldsCatalogue : List Fld := [
  fl 0x40 0 12 .rw 0, fl 0x44 0 13 .ro 4096, fl 0x48 0 13 .ro 0]

/-- Fields of the SPARES page. -/
def fldsSpares : List Fld := [
  fl 0x80 0 10 .ro 976]

/-- Fields of the MOVER page. -/
def fldsMover : List Fld := [
  fl 0x40 0 32 .rw 0, fl 0x44 0 32 .rw 0, fl 0x48 0 32 .rw 0,
  fl 0x4C 0 32 .ro 0]

/-- Fields of the VEC page. -/
def fldsVec : List Fld := [
  fl 0x40 0 32 .rw 0, fl 0x44 0 32 .ro 0]

/-- Fields of the SFU page. -/
def fldsSfu : List Fld := [
  fl 0x40 0 12 .ro 1672, fl 0x44 0 32 .rw 0, fl 0x48 0 32 .rw 0,
  fl 0x4C 0 32 .rw 0, fl 0x50 0 32 .rw 0, fl 0x54 0 32 .rw 0,
  fl 0x58 0 32 .rw 0, fl 0x5C 0 32 .ro 0, fl 0x60 0 32 .ro 0]

/-- Fields of the CARREL page. -/
def fldsCarrel : List Fld := [
  fl 0x40 0 32 .rw 0, fl 0x44 0 32 .rw 0, fl 0x48 0 17 .shc 0,
  fl 0x4C 0 17 .ro 0, fl 0x50 0 17 .ro 0, fl 0x54 0 17 .ro 0,
  fl 0x58 0 17 .ro 0]

/-- Fields of the PERF page. -/
def fldsPerf : List Fld := [
  fl 0x40 0 32 .rw 0, fl 0x44 0 32 .ro 0, fl 0x48 0 32 .rw 0,
  fl 0x4C 0 32 .rw 0, fl 0x50 0 32 .rw 0, flp 0x54 0 32 .rw 0x0 1,
  flp 0x58 0 32 .rw 0x0 2]

/-- Fields of the DIEPWR page. -/
def fldsDiepwr : List Fld := [
  fl 0x40 0 32 .ro 0, fl 0x44 0 32 .ro 0, fl 0x48 0 32 .ro 0,
  fl 0x4C 0 32 .ro 0, fl 0x50 0 32 .ro 0, fl 0x54 0 32 .ro 0,
  fl 0x58 0 32 .ro 0, fl 0x5C 0 32 .ro 0, fl 0x60 0 5 .ro 31,
  fl 0x64 0 32 .ro 0]

/-- Fields of the ENGMAP page. -/
def fldsEngmap : List Fld := [
  fl 0x40 0 12 .ro 1672, fl 0x44 0 5 .ro 0, fl 0x48 0 5 .ro 0]

/-- Fields of the D2D page. -/
def fldsD2d : List Fld := [
  fl 0x40 0 32 .rw 0, fl 0x44 0 32 .rw 0, fl 0x48 0 32 .rw 0,
  fl 0x4C 0 32 .rw 0, fl 0x50 0 32 .rw 0, fl 0x54 0 32 .shc 0]

end Sys2Proof.Machine
end

