-- ==== Sys2Proof/Machine/Pages.lean ====
section
/-! DEFINITION. The page directory of the register window (R387, R388, Tables 15-1 to 15-3): which page a number names,
its fields and the reset value of a register. -/

namespace Sys2Proof.Machine

/-- The kinds of page (Table 15-1); `plain` pages hold the common header only, `view` pages are read-only windows. -/
inductive PageKind where
  | mod | ident | sec | cert | secPlain | tick | clocks | clocksPlain | zone | curator | boost | curPlain | ndesk | ndPlain
  | errata | errBuf | errPlain | catalogue | catPlain | spares | hub | mc | mover | acc | abf | vilri
  | seq | array | vec | sfu | carrel | check | scale | numev | perf | diepwr | engmap | d2d
  deriving DecidableEq, Repr

/-- The page a number names, with its hub, die, engine, zone or port numbers: (kind, a, b). -/
def pageOf (p : Nat) : Option (PageKind × Nat × Nat) :=
  if p < 0x100 then
    if p = 0 then some (.mod, 0, 0)
    else if p = 1 then some (.ident, 0, 0)
    else if p = 2 then some (.sec, 0, 0)
    else if p = 3 then some (.cert, 0, 1)
    else if p < 0x10 then some (.secPlain, 0, p - 2)
    else if p = 0x10 then some (.tick, 0, 0)
    else if p = 0x11 then some (.clocks, 0, 0)
    else if p < 0x20 then some (.clocksPlain, 0, p - 0x11)
    else if p < 0x24 then some (.zone, p - 0x20, 0)
    else if p = 0x30 then some (.curator, 0, 0)
    else if p = 0x31 ∨ p = 0x32 then some (.boost, p - 0x31, p - 0x30)
    else if 0x32 < p ∧ p < 0x40 then some (.curPlain, 0, p - 0x30)
    else if p = 0x40 then some (.ndesk, 0, 0)
    else if 0x40 < p ∧ p < 0x50 then some (.ndPlain, 0, p - 0x40)
    else if p = 0x50 then some (.errata, 0, 0)
    else if p = 0x51 ∨ p = 0x52 then some (.errBuf, p - 0x51, p - 0x50)
    else if 0x52 < p ∧ p < 0x60 then some (.errPlain, 0, p - 0x50)
    else if p = 0x60 then some (.catalogue, 0, 0)
    else if 0x60 < p ∧ p < 0x70 then some (.catPlain, 0, p - 0x60)
    else if p = 0x70 then some (.spares, 0, 0)
    else none
  else if p < 0x200 then
    let h := (p - 0x100) / 0x40
    let o := (p - 0x100) % 0x40
    if o = 0 then some (.hub, h, 0)
    else if o ≤ 0x1A then some (.mc, h, o - 1)
    else if 0x20 ≤ o ∧ o ≤ 0x23 then some (.mover, h, o - 0x20)
    else if o = 0x28 then some (.acc, h, 0)
    else if o = 0x2C then
      if h = 0 then some (.abf, 0, 0) else if h = 1 then some (.abf, 1, 1) else if h = 2 then some (.abf, 2, 3)
      else some (.abf, 3, 5)
    else if o = 0x2D ∧ h = 1 then some (.abf, 1, 2)
    else if o = 0x2D ∧ h = 2 then some (.abf, 2, 4)
    else if p = 0x130 then some (.vilri, 0, 0)
    else none
  else if p < 0x400 then none
  else if p < 0xC00 then
    let c := (p - 0x400) / 0x80
    let o := (p - 0x400) % 0x80
    if o < 0x50 then
      match o % 0x10 with
      | 0 => some (.seq, c, o / 0x10)
      | 1 => some (.array, c, o / 0x10)
      | 2 => some (.vec, c, o / 0x10)
      | 3 => some (.sfu, c, o / 0x10)
      | 4 => some (.carrel, c, o / 0x10)
      | 5 => some (.check, c, o / 0x10)
      | 6 => some (.scale, c, o / 0x10)
      | 7 => some (.numev, c, o / 0x10)
      | 8 => some (.perf, c, o / 0x10)
      | _ => none
    else if o = 0x50 then some (.diepwr, c, 0)
    else if o = 0x51 then some (.engmap, c, 0)
    else if o = 0x52 then some (.d2d, c, 0)
    else none
  else none

/-- Module page numbers. -/
def pgMod : Nat := 0
/-- IDENT. -/
def pgIdent : Nat := 1
/-- Security. -/
def pgSec : Nat := 2
/-- TICK. -/
def pgTick : Nat := 0x10
/-- Clocks. -/
def pgClocks : Nat := 0x11
/-- ZONEz. -/
def pgZone (z : Nat) : Nat := 0x20 + z
/-- CURATOR. -/
def pgCur : Nat := 0x30
/-- NDESK. -/
def pgNd : Nat := 0x40
/-- ERRATA. -/
def pgErr : Nat := 0x50
/-- CATALOGUE. -/
def pgCat : Nat := 0x60
/-- SPARES. -/
def pgSpares : Nat := 0x70
/-- VILRI. -/
def pgVilri : Nat := 0x130
/-- Hub services of hub h. -/
def pgHub (h : Nat) : Nat := 0x100 + 0x40 * h
/-- Memory controller of physical package k. -/
def pgMc (h k : Nat) : Nat := 0x101 + 0x40 * h + k
/-- Hub mover of slot j on hub h. -/
def pgMover (h j : Nat) : Nat := 0x120 + 0x40 * h + j
/-- Accession port q. -/
def pgAcc (q : Nat) : Nat := 0x128 + 0x40 * q
/-- Abfold port f (Table 13-1). -/
def pgAbf (f : Nat) : Nat :=
  match f with
  | 0 => 0x12C
  | 1 => 0x16C
  | 2 => 0x16D
  | 3 => 0x1AC
  | 4 => 0x1AD
  | _ => 0x1EC
/-- Engine page `q` of physical engine `e` of die `c`; `k = 5 c + e`. -/
def pgEng (k q : Nat) : Nat := 0x400 + 0x80 * (k / 5) + 0x10 * (k % 5) + q
/-- Die service page. -/
def pgDie (c q : Nat) : Nat := 0x450 + 0x80 * c + q

/-- The block type of a page (Table 15-3). -/
def kindType : PageKind → Nat
  | .mod => 1 | .ident => 2 | .sec | .cert | .secPlain => 3 | .tick => 4 | .clocks | .clocksPlain => 5 | .zone => 6
  | .curator | .boost | .curPlain => 7 | .ndesk | .ndPlain => 8 | .errata | .errBuf | .errPlain => 9
  | .catalogue | .catPlain => 0xA | .spares => 0xB | .hub => 0x10 | .mc => 0x11 | .mover => 0x12 | .acc => 0x13
  | .abf => 0x14 | .vilri => 0x15 | .seq => 0x20 | .array => 0x21 | .vec => 0x22 | .sfu => 0x23 | .carrel => 0x24
  | .check => 0x25 | .scale => 0x26 | .numev => 0x27 | .perf => 0x28 | .diepwr => 0x30 | .engmap => 0x31
  | .d2d => 0x32

/-- The block fields of a page beyond the common header. The fabric registers stand on F0's page only (R361), the WHEEL
and SHARE fields on the hub services pages. -/
def kindFlds : PageKind → Nat → List Fld
  | .mod, _ => fldsMod
  | .ident, _ => fldsIdent
  | .sec, _ => fldsSec
  | .tick, _ => fldsTick
  | .clocks, _ => fldsClocks
  | .zone, _ => fldsZone
  | .curator, _ => fldsCurator
  | .ndesk, _ => fldsNdesk
  | .errata, _ => fldsErrata
  | .catalogue, _ => fldsCatalogue
  | .spares, _ => fldsSpares
  | .hub, _ => fldsHub
  | .mc, _ => fldsMc
  | .mover, _ => fldsMover
  | .acc, _ => fldsAcc
  | .abf, b => if b = 0 then fldsAbf else fldsAbf.filter (fun f => decide (f.off < 0x100))
  | .vilri, _ => fldsVilri
  | .seq, _ => fldsSeq
  | .array, _ => fldsArray
  | .vec, _ => fldsVec
  | .sfu, _ => fldsSfu
  | .carrel, _ => fldsCarrel
  | .check, _ => fldsCheck
  | .scale, _ => fldsScale
  | .numev, _ => fldsNumev
  | .perf, _ => fldsPerf
  | .diepwr, _ => fldsDiepwr
  | .engmap, _ => fldsEngmap
  | .d2d, _ => fldsD2d
  | _, _ => []

/-- The fields of the register at byte offset `off` of page `p` (R387, R389). -/
def fieldsAt (p off : Nat) : List Fld :=
  match pageOf p with
  | none => []
  | some (k, _, b) =>
    (if off < 0x40 then fldsHeader else kindFlds k b).filter (fun f => decide (f.off = off))

/-- PAGE_ID (Table 15-2): TYPE, UNIT, PENG and SUB. -/
def pageId (p : Nat) : Nat :=
  match pageOf p with
  | none => 0
  | some (k, a, b) =>
    let eng := decide (0x20 ≤ kindType k) && decide (kindType k ≤ 0x28)
    let die := eng || decide (0x30 ≤ kindType k)
    let hub := decide (0x10 ≤ kindType k) && decide (kindType k ≤ 0x15)
    let unit := if die then a else if hub then 0x10 + a else 0x1F
    let sub := if die then 0 else if k = .zone then a else if k = .acc then a else b
    kindType k + unit * 2 ^ 16 + (if eng then b else 7) * 2 ^ 21 + sub * 2 ^ 24

/-- Register index of an offset of a page. -/
def ridx (p off : Nat) : Nat := p * 1024 + off / 4

/-- The reset value of a register: the sum of its fields' reset values, PAGE_ID by page, and STATE = spare on the memory
controller page of the package that is the spare at the factory (Table 12-3, R313). [log 6, DESIGN CHOICE] -/
def regReset (i : Nat) : Word :=
  let p := i / 1024
  let off := 4 * (i % 1024)
  if off = 0 then BitVec.ofNat 32 (pageId p)
  else
    let v := (fieldsAt p off).foldl (fun acc f => acc + f.rst * 2 ^ f.lo) 0
    match pageOf p with
    | some (.mc, _, 25) => if off = 0x40 then 1 else BitVec.ofNat 32 v
    | _ => BitVec.ofNat 32 v

end Sys2Proof.Machine
end

