-- ==== Sys2Proof/Config.lean ====
section
/-! DEFINITION. The free values of the model: what the manual names but does not publish, or leaves unstated. Each is
an opaque constant: nothing can evaluate it, and a statement about it holds whatever it is. Each is named in the
assumption log. -/

namespace Sys2Proof.Config

open Sys2Proof.Machine

/-- The order of an IEEE running sum (R68, unpublished): with `n` values left to combine at step `j` of a sum of the
image whose hash is `img`, the active engine count and GENCOMPAT as given, which two of them are added next. [log 11, DESIGN CHOICE] -/
opaque ieeeOrder : (img active gencompat n j : Nat) → Nat × Nat

/-- The 28 DETAIL bytes of an Errata record from its TYPE: their fields in the order of Table 9-11,
whose byte positions are not given. [log 15, DESIGN CHOICE] -/
opaque errDetail : (ty : Nat) → List Nat → BitVec 224

/-- A word the spec leaves open (an element of an invalid half, an unstated result): free value number `n`. -/
opaque openWord : (n : Nat) → BitVec 64

/-- A line the spec leaves open: free value number `n`. -/
opaque openLine : (n : Nat) → BitVec 512

/-- SFU.COEF (Table 15-15): the word of the segment tables that COEFSEL selects; the tables are not printed (R155). [log 12, DESIGN CHOICE] -/
opaque coefWord : (sel : Nat) → BitVec 32

/-- Where the tables hold coefficient `i` of segment `seg` of a primitive: the selections of its words. [log 12, DESIGN CHOICE] -/
opaque coefSel : (code seg i : Nat) → List Nat

/-- The value of a coefficient's words, `n * 2^e`. [log 12, DESIGN CHOICE] -/
opaque coefOf : (words : List (BitVec 32)) → Int × Int

/-- Coefficient `i` of segment `seg` of a primitive in the IL-3610's tables (R168), `n * 2^e`. [log 12, DESIGN CHOICE] -/
opaque ilCoef : (code seg i : Nat) → Int × Int

/-- The order of an IL-3610 fp32 sum in SMX and NRM (R168, unpublished): with `n` values left to combine at step `j`, which two are
added next. [log 13, DESIGN CHOICE] -/
opaque compatOrder : (n j : Nat) → Nat × Nat

/-- The rounding of exp2's quadratic at f to the 26-bit internal value T(f) of softmax (R165), f in units of 2^-200: up, else down. [log 12, DESIGN CHOICE] -/
opaque smxT : (f : Nat) → Bool

/-- Step `i` of the base folio's micro-program `pid` (Table 6-11; the programs are not printed). [log 12, DESIGN CHOICE] -/
opaque baseStep : (pid i : Nat) → BitVec 64

/-- The work format of the base folio's micro-program `pid`: fp32, else p32. [log 12, DESIGN CHOICE] -/
opaque baseWork : (pid : Nat) → Bool

/-- The base of a recipe tensor (R112) as an fp32 word, by the image's digest and the tensor's local id: the image fixes it, and no
section of it holds it. [log 91, DESIGN CHOICE] -/
opaque scaleBase : (img lid : Nat) → BitVec 32

/-- Where the Registrar puts the record of a static tensor at load (R116), which the spec does not say: an index into the job's
engines and lines, or into its Stacks ranges. [log 91, DESIGN CHOICE] -/
opaque staticPlace : (img lid : Nat) → Bool × Nat × Nat

/-- The counts of that record's statistics in the order of Table 5-2, SUMLOG and MAXMAG last. [log 91, DESIGN CHOICE] -/
opaque staticStats : (img lid : Nat) → List Nat

/-- The root public key in H0's mask ROM (R426). [log 15, DESIGN CHOICE] -/
opaque rootKey : List (BitVec 8)

/-- The 32-byte identity seed in the fuses (R429). [log 15, DESIGN CHOICE] -/
opaque identitySeed : List (BitVec 8)

/-- The module's serial number (Table 15-15). [log 15, DESIGN CHOICE] -/
opaque serial : BitVec 64

/-- ISSUED of the identity certificate in the fuses (R430). [log 15, DESIGN CHOICE] -/
opaque certIssued : BitVec 64

/-- The root signature of the identity certificate in the fuses (R430). [log 15, DESIGN CHOICE] -/
opaque certSig : BitVec 512

/-- The base folio the factory wrote into FW0: its FVER and its digest (R163, R423). [log 74, DESIGN CHOICE] -/
opaque factoryFver : Nat
/-- Its folio digest. [log 74, DESIGN CHOICE] -/
opaque factoryDigest : List (BitVec 8)

/-- The 32 DETAIL bytes of an EVENT (Table 14-6), from its code and the values listed there, whose widths are not given. [log 97, DESIGN CHOICE] -/
opaque evtDetail : (code : BitVec 16) → (values : List Nat) → BitVec 256

/-- The header line of a wake record (R283), whose layout is not given: the counter value of the first sample, and the trigger frame
with the decision-table index where a Night Desk decision woke the module. [log 15, DESIGN CHOICE] -/
opaque ndHeader : (first : Nat) → Option (Nat × Nat) → BitVec 512

/-- The oscillator's cosine and sine, in units of 2^-19, for the upper 20 bits of the phase (R298): the rounding of its 20-bit words
is not given. [log 64, DESIGN CHOICE] -/
opaque feWave : (phase : BitVec 20) → BitVec 20 × BitVec 20

/-- Tap `i` of halfband stage `k` (R299), in units of 2^-feTapBits: the coefficients are not printed. [log 64, DESIGN CHOICE] -/
opaque feTap : (k i : Nat) → Int

/-- The fraction bits of those taps. [log 64, DESIGN CHOICE] -/
opaque feTapBits : Nat

/-- Coefficient `i` of window table `win` as the base folio has it, in units of 2^-16 (R300): the tables are not printed. [log 64, DESIGN CHOICE] -/
opaque feWin : (win i : Nat) → BitVec 18

/-- Bin `b` of the N-point FFT of the windowed samples `z`, as 24-bit codes before saturation: a fixed function (R303) within 2^-19 of
R300's sum, whose internal roundings are not given. [log 64, DESIGN CHOICE] -/
opaque feBin : (n : Nat) → (z : List (Int × Int)) → (b : Nat) → Int × Int

/-- The difference of a LOGPOWER code from the exact logarithm, of which R303 says only that it is at most 2 codes. [log 64, DESIGN CHOICE] -/
opaque feLogErr : (p : Nat) → Nat

/-- Night Desk front end (R279): coefficient `tap` (real and imaginary part) of FIR A or, with `b`, FIR B, from the bytes of the
NDCOEF section, whose layout is not published. [log 15, DESIGN CHOICE] -/
opaque ndTap : (coef : List (BitVec 8)) → (b : Bool) → (tap : Nat) → BitVec 18 × BitVec 18

/-- How many low bits the truncation of a FIR's exact sum to 24 bits drops (R279), which the spec does not say. [log 15, DESIGN CHOICE] -/
opaque ndDrop : Nat

/-- Window word `i` of the Night Desk's FFT from the NDCOEF section, whose layout is not published (R279). [log 15, DESIGN CHOICE] -/
opaque ndWin : (coef : List (BitVec 8)) → (i : Nat) → Int

/-- The power of two by which that FFT's bins are scaled down, which is not given (R279). [log 15, DESIGN CHOICE] -/
opaque ndScale : Nat

/-- Bin `i` of the 256-point FFT of a block of FIR B's outputs under the folio's window (R279), whose rounding is not given. [log 15, DESIGN CHOICE] -/
opaque ndFft : (coef : List (BitVec 8)) → (ys : List (Int × Int)) → (i : Nat) → Int × Int

/-- p16 weight of the mini-array (R280): layer 1 or 2, output row, input column; column 16 is the bias. [log 15, DESIGN CHOICE] -/
opaque ndWeight : (coef : List (BitVec 8)) → (layer row col : Nat) → BitVec 16

/-- CLOCKS.LOCK (Table 15-15): a bit per PLL, whose places are not given, from the zones and hubs that are up (bit per zone, per hub). [log 18, DESIGN CHOICE] -/
opaque lockWord : (zones hubs : Nat) → BitVec 32

/-- Stacks training data of a hub as stage D measured it (R417), free value number `n`; its layout is not given. [log 15, DESIGN CHOICE] -/
opaque trainData : (hub n : Nat) → List (BitVec 8)

/-- The package map of a hub that its training data record (R417). [log 15, DESIGN CHOICE] -/
opaque trainMap : (data : List (BitVec 8)) → BitVec 8

/-- FVER of a training folio that the Registrar writes (R417, R423). [log 15, DESIGN CHOICE] -/
opaque trainFver : (n : Nat) → Nat

/-- The SECDED code over a Stacks line's 512 bits and bits [15:11] of its check word (R317), whose matrix is not given. [log 65, DEDUCED] -/
opaque eccCode : (data : BitVec 512) → (top : BitVec 5) → BitVec 11

/-- The four-bit hash of a line's index in its quadrant (R317), which is not given. [log 65, DEDUCED] -/
opaque atagHash : (lq : Nat) → BitVec 4

/-- The JTAG identification register (R451), whose value is not given. [log 15, DESIGN CHOICE] -/
opaque jtagIdcode : BitVec 32

/-- The bits of the boundary-scan register (R451), whose length and order only the BSDL gives, free value number `n`: the levels of the
signals where it captures, what the tester shifts in where it loads. [log 82, DESIGN CHOICE] -/
opaque scanBits : (n : Nat) → List Bool

/-- Sensor `i` in the numbering of `senseFree` at a tick whose command carries no readings (R256, Table 10-1), free value number `n`. [log 134, DESIGN CHOICE] -/
opaque sensor : (n i : Nat) → BitVec 16

end Sys2Proof.Config
end

