-- ==== Sys2Proof/Machine/Sums.lean ====
section
/-! DEFINITION. The arithmetic of the three accumulation paths and of the drain (spec/03_quire_and_accumulation.md):
the fast path's generator and stochastic rounding (R63, R64), the IEEE running sum (R66, R67), and R74. -/

namespace Sys2Proof.Machine

/-- High and low halves of a 32 by 32 bit product. -/
def mulhilo (a b : Nat) : Nat × Nat := ((a * b) / 2 ^ 32, (a * b) % 2 ^ 32)

/-- `n` rounds of Philox-4x32 from round key (k0, k1) (R64). -/
def philoxRounds : Nat → Nat → Nat → Nat → Nat → Nat → Nat → Nat
  | 0, _, _, x0, _, _, _ => x0
  | n + 1, k0, k1, x0, x1, x2, x3 =>
    let (h0, l0) := mulhilo 0xD2511F53 x0
    let (h1, l1) := mulhilo 0xCD9E8D57 x2
    philoxRounds n ((k0 + 0x9E3779B9) % 2 ^ 32) ((k1 + 0xBB67AE85) % 2 ^ 32)
      (Nat.xor (Nat.xor h1 x1) k0) l1 (Nat.xor (Nat.xor h0 x3) k1) l0

/-- The generator word U of one stochastic rounding (R64, Table 3-2). -/
def sbitsU (seed workTick : BitVec 64) (passIdx : BitVec 20) (leng col prob m : Nat) : Nat :=
  philoxRounds 10 (seed.toNat % 2 ^ 32) (seed.toNat / 2 ^ 32) (workTick.toNat % 2 ^ 32) (workTick.toNat / 2 ^ 32)
    (passIdx.toNat * 2 ^ 12 + leng * 2 ^ 6 + col) (prob * 2 ^ 8 + m)

/-- The posit bits behind the sign, cut toward zero. -/
def positTrunc (n mag : Nat) (e : Int) : Nat :=
  let lg := Nat.log2 mag
  let sc := scaleOf mag e
  let k := sc / 4
  let eb := (sc % 4).toNat
  let reg : Nat × Nat := if 0 ≤ k then (2 ^ (k.toNat + 2) - 2, k.toNat + 2) else (1, (-k).toNat + 1)
  let str := (reg.1 * 4 + eb) * 2 ^ lg + (mag - 2 ^ lg)
  let len := reg.2 + 2 + lg
  if len ≤ n - 1 then str * 2 ^ (n - 1 - len) else str / 2 ^ (len - (n - 1))

/-- The exact integers of three numbers over one power of two. -/
def intOver (e : Int) : FVal → Int
  | .num s m f => signed s (m * 2 ^ (f - e).toNat)
  | _ => 0

/-- The exponent of a number. -/
def FVal.exp : FVal → Int
  | .num _ _ e => e
  | _ => 0

/-- Stochastic rounding SR of R63 with the generator word `u`. -/
def stochRound (u : Nat) : FVal → Nat × Flags
  | .num s m e =>
    if m = 0 then (0, {})
    else
      let sc := scaleOf m e
      if 56 < sc ∨ (sc = 56 ∧ m ≠ 2 ^ Nat.log2 m) then (positSign 16 s 0x7FFF, { sat := 1 })
      else if sc < -56 then (positSign 16 s 1, { lift := 1 })
      else
        let t := positTrunc 16 m e
        let w := positSign 16 s t
        let x := FVal.num s m e
        let v := decodePosit 16 w
        let g := min e (v.exp)
        if intOver g x = intOver g v then (w, {})
        else
          let loW := if s then positSign 16 s (t + 1) else t
          let hiW := if s then w else t + 1
          let lo := decodePosit 16 loW
          let hi := decodePosit 16 hiW
          let g := min e (min lo.exp hi.exp)
          let f := ((intOver g x - intOver g lo) * 2 ^ 32) / (intOver g hi - intOver g lo)
          if (u : Int) < f then (hiW, {}) else (loW, {})
  | _ => (narWord 16, {})

/-- A product entering the IEEE running sum (R66). -/
def ieeeProduct (f : Fmt) (a b : Nat) : FVal × Flags :=
  let (x, fx) := readVal f a
  let (y, fy) := readVal f b
  let (p, fp) := x.mul y
  let fl := (fx.add fy).add fp
  match p with
  | .num s m e =>
    if m = 0 then (.num s 0 0, fl)
    else
      let (rm, re) := roundSig 24 m e
      if 127 < scaleOf rm re then (.inf s, fl.add { ovf := 1, inx := 1 })
      else if scaleOf m e < -126 then (.num s 0 0, fl.add { unf := 1 })
      else (p, fl)
  | _ => (p, fl)

/-- One addition into the IEEE running sum (R67). [log 11, DESIGN CHOICE] -/
def ieeeAdd (a b : FVal) : FVal × Flags :=
  match a, b with
  | .num s m e, .num t k f =>
    if m = 0 ∧ k = 0 then (FVal.zero, {})
    else
      let big : Int := if m = 0 then scaleOf k f else if k = 0 then scaleOf m e else max (scaleOf m e) (scaleOf k f)
      let lsb := big - 26
      let cut (mag : Nat) (x : Int) : Nat :=
        if lsb ≤ x then mag * 2 ^ (x - lsb).toNat else mag / 2 ^ (lsb - x).toNat
      let sum := signed s (cut m e) + signed t (cut k f)
      let mag := if 2 ^ 27 ≤ sum.natAbs then sum.natAbs / 2 * 2 else sum.natAbs
      let neg := decide (sum < 0)
      if mag = 0 then (FVal.zero, {})
      else if scaleOf mag lsb < -126 then (.num neg 0 0, { unf := 1 })
      else if 128 ≤ scaleOf mag lsb then (.inf neg, { ovf := 1, inx := 1 })
      else (.num neg mag lsb, {})
  | _, _ => a.add b

/-- The list without its element `i`. -/
def dropAt {α : Type} (l : List α) (i : Nat) : List α := l.take i ++ l.drop (i + 1)

/-- Adding all values of a list, two at a time, in the order `pick` gives (R68): with `n` values left at step `j`,
`pick n j` names the two to add. Says whether an addition overflowed (R71). [log 11, DESIGN CHOICE] -/
def ieeeReduce (pick : Nat → Nat → Nat × Nat) : Nat → Nat → List FVal → FVal × Flags × Bool
  | 0, _, l => (l.headD FVal.zero, {}, false)
  | fuel + 1, j, l =>
    match l with
    | [] => (FVal.zero, {}, false)
    | [a] => (a, {}, false)
    | a :: t =>
      let (p, q) := pick l.length j
      let i := p % l.length
      let x := l.getD i a
      let rest := dropAt l i
      let k := q % rest.length
      let y := rest.getD k (t.headD a)
      let (z, fl) := ieeeAdd x y
      let (r, fl', ov) := ieeeReduce pick fuel (j + 1) (z :: dropAt rest k)
      (r, fl.add fl', ov || decide (0 < fl.ovf))

/-- A scale pair (M, S): the factor `M * 2^(-S)` (R73). -/
structure Pair where
  m : BitVec 32
  s : BitVec 8
  deriving DecidableEq, Repr

/-- The factor of a pair. -/
def Pair.toF (p : Pair) : FVal := .num false p.m.toNat (-p.s.toInt)

/-- Zero without its sign: a drained zero is +0 (Table 3-4). -/
def FVal.unsignZero : FVal → FVal
  | .num _ 0 _ => FVal.zero
  | v => v

/-- The value of R74 just before its final rounding: `q` the element's exact value, `p` its pair's factor, an optional residual and
an optional multiplier with theirs. A NaR or NaN among the operands makes it NaN without a flag (Table 3-4). -/
def drainVal (q p : FVal) (res mul : Option (FVal × FVal)) : FVal × Flags :=
  if q = .nan ∨ (res.any fun r => decide (r.1 = .nan)) ∨ (mul.any fun g => decide (g.1 = .nan)) then (.nan, {}) else
  let (v1, f1) := q.mul p
  let (v2, f2) :=
    match res with
    | none => (v1, Flags.none)
    | some (r, rp) =>
      let (t, ft) := r.mul rp
      let (v, fv) := v1.add t
      (v, ft.add fv)
  let fl := f1.add f2
  match mul with
  | none => (v2.unsignZero, fl)
  | some (g, gp) =>
    let (v3, f3) := if v2.finite then (let (w, fw) := roundPosit 32 v2.unsignZero; (decodePosit 32 w, fw)) else (v2, {})
    let (t, ft) := g.mul gp
    let (v, fv) := v3.mul t
    (v.unsignZero, ((fl.add f3).add ft).add fv)

/-- One drained element: `drainVal` rounded once to the destination format (R52). -/
def drainElem (dst : Fmt) (q p : FVal) (res mul : Option (FVal × FVal)) : Nat × Flags :=
  let (v, fl) := drainVal q p res mul
  let (w, fw) := roundTo dst v
  (w, fl.add fw)

end Sys2Proof.Machine
end

