-- ==== Sys2Proof/Machine/Tab.lean ====
section
/-! DEFINITION. Reading and writing sparse tables. A table is in canonical form (`tabWf`) when its keys rise
strictly and no entry equals what an unlisted key reads as; `tabSet` keeps that form. -/

namespace Sys2Proof.Machine

/-- The value at key `k`; `d` gives what an unlisted key reads as. -/
def tabGet {α : Type} (d : Nat → α) : Tab α → Nat → α
  | [], k => d k
  | (k', v) :: t, k => if k' = k then v else tabGet d t k

/-- Put a key in its place among rising keys. -/
def tabInsert {α : Type} (k : Nat) (v : α) : Tab α → Tab α
  | [] => [(k, v)]
  | (k', v') :: t => if k < k' then (k, v) :: (k', v') :: t else (k', v') :: tabInsert k v t

/-- Write key `k`; writing the default removes the entry. -/
def tabSet {α : Type} [DecidableEq α] (d : Nat → α) (m : Tab α) (k : Nat) (v : α) : Tab α :=
  let m' := m.filter (fun p => decide (p.1 ≠ k))
  if v = d k then m' else tabInsert k v m'

/-- Change key `k` by `f`. -/
def tabMod {α : Type} [DecidableEq α] (d : Nat → α) (m : Tab α) (k : Nat) (f : α → α) : Tab α :=
  tabSet d m k (f (tabGet d m k))

/-- Canonical form: keys rise strictly, and no entry equals the default of its key. -/
def tabWf {α : Type} [DecidableEq α] (d : Nat → α) : Tab α → Bool
  | [] => true
  | [(k, v)] => decide (v ≠ d k)
  | (k, v) :: (k', v') :: t => decide (k < k') && decide (v ≠ d k) && tabWf d ((k', v') :: t)

end Sys2Proof.Machine
end

