-- ==== Sys2Proof/Machine/Types.lean ====
section
/-! DEFINITION. The plain-data parts the state of the block is made of: engines, jobs, transfers, the Catalogue, the
links, the boot store. State.lean puts them together. Cycles are absolute cycles of the engine's zone clock. -/

namespace Sys2Proof.Machine

/-- Outcome marks of a line, element, lane value or slot: the bits of Table 8-3 other than DONE; bit 5 is the poison
mark of R242. -/
abbrev Mark := BitVec 8

/-- The marks of Table 8-3. -/
def mkRecomputed : Mark := 0x02
/-- REPLAYED. -/
def mkReplayed : Mark := 0x04
/-- RETRACTED. -/
def mkRetracted : Mark := 0x08
/-- FAILED. -/
def mkFailed : Mark := 0x10
/-- FAILED-POISON, the poison mark. -/
def mkPoison : Mark := 0x20
/-- OVERRUN. -/
def mkOverrun : Mark := 0x40
/-- SKEW. -/
def mkSkew : Mark := 0x80

/-- The issue units of Table 7-4 (R172). -/
inductive EUnit where
  | array | vector | scale | move | chain | check | control
  deriving DecidableEq, Repr

/-- Carrel ports (R88, R149): four read ports and two write ports. -/
inductive Port where
  | r0 | r1 | r2 | r3 | w0 | w1
  deriving DecidableEq, Repr

/-- A port held by an instruction: `len` cycles from `lo + i * per` on, for `i < n`. -/
structure Claim where
  port : Port
  unit : EUnit
  seg : Seg
  pc : Nat
  lo : Nat
  len : Nat
  per : Nat
  n : Nat
  deriving DecidableEq, Repr

/-- Bank half tags (Table 4-6). -/
inductive Tag where
  | q8 | q16 | fast | ieee | fastW | ieeeW
  deriving DecidableEq, Repr

/-- A bank element's running value (R58, R76): a quire, a p16 running sum, or the IEEE accumulator. -/
inductive BankVal where
  | quire (q : QVal)
  | run (w : BitVec 16)
  | acc (a : FVal)
  deriving DecidableEq, Repr

/-- A bank element with its marks. `adds` are the addends its chain adds have brought since a PASS formed it, under R77: the running
sum first, then each addend with its place in the fixed order of sources, so that the sum does not depend on their arrival; `soft` says that
the element is FAILED by the trap of the sum so far alone. -/
structure Elem where
  val : BankVal := .quire (.int 0)
  mark : Mark := 0
  valid : Bool := false
  adds : List (Nat × FVal) := []
  soft : Bool := false
  deriving DecidableEq, Repr

/-- A quire bank half (R61, R98): `elems` is keyed by `64 * vector + column`. [log 7, DESIGN CHOICE] -/
structure Half where
  tag : Option Tag := none
  valid : Bool := false
  terms : Nat := 0
  elems : Tab Elem := []
  deriving DecidableEq, Repr

/-- The loaded tile (R86, R92); `words` is keyed by `64 * tile row + column`. `base` is its first Carrel line. `sums` are the
checksum cells' row sums by tile row (R85, R95), `wmax` the largest magnitude of each problem's sub-tile (R231). [log 7, DESIGN CHOICE] -/
structure Tile where
  valid : Bool := false
  fmt : Fmt := .p8
  fast : Bool := false
  ksplit : Nat := 1
  words : Tab (BitVec 16) := []
  mark : Mark := 0
  base : Nat := 0
  sums : List FVal := []
  wmax : List FVal := []
  deriving DecidableEq, Repr

/-- A loop level (R182): first word of the body, count, index and strides. -/
structure Loop where
  body : Nat
  count : Nat
  idx : Nat
  d0 : BitVec 17
  d1 : BitVec 17
  d2 : BitVec 17
  d3 : BitVec 17
  deriving DecidableEq, Repr

/-- Statistics of a block (R121): counts, the sum of L and the exact largest magnitude `maxM * 2^maxE`. -/
structure Stats where
  nelem : Nat := 0
  nnz : Nat := 0
  nsat : Nat := 0
  nufl : Nat := 0
  nnf : Nat := 0
  sumlog : Int := 0
  maxM : Nat := 0
  maxE : Int := 0
  deriving DecidableEq, Repr

/-- A scale record's fields (Table 5-2). -/
structure ScaleRec where
  tid : BitVec 12 := 0
  src : BitVec 2 := 0
  fmt : BitVec 4 := 0
  recomp : Bool := false
  clipped : Bool := false
  cold : Bool := false
  directive : Bool := false
  part : Bool := false
  seq : BitVec 32 := 0
  scale : BitVec 32 := 0
  adj : BitVec 8 := 0
  stats : Stats := {}
  deriving DecidableEq, Repr

/-- The output record of a pair slot (R191, R188): its TID, block SEQ, ADJ, source code, base scale word and format. -/
structure OutRec where
  lid : BitVec 12
  tid : BitVec 12
  seq : BitVec 32
  adj : Int
  src : BitVec 2
  deriving DecidableEq, Repr

/-- A pair slot (R114, R115, R119, R120). [log 7, DESIGN CHOICE] -/
structure Slot where
  valid : Bool := false
  bad : Bool := false
  mark : Mark := 0
  pair : Pair := { m := 0, s := 0 }
  x : Int := 0
  out : Option OutRec := none
  usable : Nat := 0
  deriving DecidableEq, Repr

/-- A block tag entry (R118, R186). [log 7, DESIGN CHOICE] -/
structure TagE where
  valid : Bool := false
  tid : BitVec 12 := 0
  seq : BitVec 32 := 0
  line : BitVec 17 := 0
  deriving DecidableEq, Repr

/-- A segment's present record (R124). -/
structure Present where
  valid : Bool := false
  pending : Bool := false
  ready : Nat := 0
  bad : Bool := false
  adj : Int := 0
  mark : Mark := 0
  stats : Stats := {}
  deriving DecidableEq, Repr

/-- A send-log entry (R238): issue cycle, target shelfmark, length, destination. -/
structure SendE where
  cyc : Nat
  target : BitVec 48
  len : Nat
  deriving DecidableEq, Repr

/-- What a segment wrote and sent in the work tick before its present one, for a RETRACT that comes late (R240): from cycle `since` up to
`upto`, the lines and bank elements with their cycles, the send log, and the withdrawals made. -/
structure PastWork where
  wt : BitVec 64
  since : Nat
  upto : Nat
  wrote : List (Nat × Nat)
  halves : List (Bool × Nat × Nat)
  sendLog : List SendE
  sendOvf : Bool
  retAll : Bool
  retSent : List (BitVec 48)
  deriving DecidableEq, Repr

/-- The state of one segment of an engine's frame (R177, R178, R65, R180). `st` is 0 idle, 1 running,
2 in its segment hold or suspended, 3 cut or halted. `wrote` lists (line, cycle) and `halves` (half, vector element, cycle) of the
writes of the work tick; `retMsg` is the withdrawal in force and `retSent` the targets that have had it (R239, R240); `failed` marks a sequencer fault in the
work tick (R245); `past` is the work tick before it, `older` those before that, newest first; `lag` is the λ the
frame began with (R207), `stopAt` the cycle in which a slot reset stops the segment (R27). `sfOld` are summaries of ended work ticks that wait for their records, `sfJob` its slot where that was freed (R175). -/
structure SegSt where
  st : Nat := 0
  pc : Nat := 0
  loops : List Loop := []
  last : Nat := 0
  passIdx : BitVec 20 := 0
  stepNo : BitVec 64 := 0
  stepped : Bool := false
  stepDue : Bool := false
  sig : BitVec 32 := 0xFFFFFFFF
  chk : Option Nat := none
  chkNo : Nat := 0
  sfFirst : Option (Nat × Nat) := none
  sfCount : Nat := 0
  sfOld : List (Nat × Nat × Nat × BitVec 64) := []
  sfJob : Option Nat := none
  present : Present := {}
  sendLog : List SendE := []
  sendOvf : Bool := false
  drained : List (Bool × BitVec 12 × BitVec 8) := []
  retracted : Bool := false
  retAll : Bool := false
  retMsg : Option RetractMsg := none
  retSent : List (BitVec 48) := []
  failed : Bool := false
  quiet : Nat := 0
  busyTo : Nat := 0
  wrote : List (Nat × Nat) := []
  halves : List (Bool × Nat × Nat) := []
  frame : BitVec 64 := 0
  since : Nat := 0
  past : Option PastWork := none
  older : List PastWork := []
  lag : Nat := 0
  stopAt : Option Nat := none
  deriving DecidableEq, Repr

/-- The comparison of one vector and problem in stage B2 (R228, R231): the 64 tree outputs, the checksum column's output, the
bound on their difference, the products whose rounding to p16 changed them by column, and whether the vector is covered. -/
structure ColChk where
  trees : List FVal := []
  chk : FVal := .num false 0 0
  bound : FVal := .num false 0 0
  marks : List Nat := []
  covered : Bool := true
  deriving DecidableEq, Repr

/-- The row check's sums by column (R229): H_n, G_n and the bound on their difference. -/
structure RowSums where
  h : List FVal := []
  g : List FVal := []
  bound : List FVal := []
  deriving DecidableEq, Repr

/-- What a PASS has left outside its half (R56, R71, R72, R228, R244): its job's slot, the flags it counted, the words of the first-event
record before it filled it, its trap, the poison it consumed, and the vectors it counted as not covered. -/
structure PassNote where
  job : Option Nat := none
  fl : Flags := {}
  first : List (Nat × Word) := []
  trap : Bool := false
  ate : Bool := false
  unc : Nat := 0
  deriving DecidableEq, Repr

/-- A pass in flight (R94), with its comparisons keyed `256 * problem + vector` and, where it is row-checked, its row sums; `ldsAt` is
the issue cycle of its tile's LDS and `tileAt` that of the load its tile was read in (R108, R234). `bases` are the first lines of its
inputs, `tile` the tile and `els` the elements it has formed, `note` what it has left elsewhere, `redo` says that it reads again. -/
structure Flight where
  seg : Seg
  pc : Nat
  op : PassOp
  cyc : Nat
  commit : Nat
  idx : BitVec 20
  nprob : Nat
  region : Nat
  beats : Nat
  chk : Bool
  selected : Bool
  iter : List Nat
  workTick : BitVec 64
  cols : Tab ColChk := []
  rows : RowSums := {}
  ldsAt : Nat := 0
  leng : Nat := 0
  tileAt : Nat := 0
  redo : Bool := false
  bases : List Nat := []
  tile : Tile := {}
  els : Tab Elem := []
  note : PassNote := {}
  deriving DecidableEq, Repr

/-- What a DRAIN reads and has made of it, kept while it runs (R102): its first lines, the bank half and slots it reads, the exponent of
its recompute, the number of its first free value, the lines it writes and the flags it counted; `clip` where its δ is 0 (R128). -/
structure DrainRun where
  leng : Nat
  wt : BitVec 64
  db : Nat
  rb : Nat
  gb : Nat
  bank : Half
  pa : Slot
  pr : Slot
  pg : Slot
  delta : Int := 0
  free : Nat := 0
  lines : List (Line × Mark) := []
  extra : Mark := 0
  clip : Bool := false
  fl : Flags := {}
  deriving DecidableEq, Repr

/-- A DRAIN (R125-R129): its fields, timing and statistics, whether it triggers its recompute (R126), and its run. -/
structure DrainSt where
  seg : Seg
  pc : Nat
  op : DrainOp
  issue : Nat
  done : Nat
  rate : Nat
  stats : Stats
  out : Option OutRec
  failed : Bool
  recomputed : Bool
  trig : Bool := false
  run : Option DrainRun := none
  deriving DecidableEq, Repr

/-- A row check still due (R229). -/
structure RowChk where
  seg : Seg
  pc : Nat
  idx : BitVec 20
  due : Nat
  selected : Bool
  workTick : BitVec 64
  half : Bool
  rows : RowSums := {}
  deriving DecidableEq, Repr

/-- A record write still due (R129, R190): the record, its line and tag entry, and the block's first line; `stats` is clear where the
block's producer failed, `lost` set where a hold window turned one of its lines away (R175, R197), `wait` where the recompute slot that
follows its DRAIN is still to come (R125, R129). -/
structure RecWr where
  seg : Seg
  pc : Nat := 0
  due : Nat
  line : Nat
  tag : Nat
  record : ScaleRec
  mark : Mark
  stats : Bool
  isDrain : Bool
  first : Nat := 0
  lost : Bool := false
  wait : Bool := false
  deriving DecidableEq, Repr

/-- A hold window definition (Table 7-15). -/
structure HoldDef where
  openPc : Nat
  closePc : Nat
  line : Nat
  adv : Bool
  k : Nat
  nlines : Nat
  deriving DecidableEq, Repr

/-- A write of a line that an issued instruction makes in cycle `cyc`, in an open hold window (R197). -/
structure LineW where
  line : Nat
  cyc : Nat
  data : Line
  mark : Mark
  pc : Nat
  deriving DecidableEq, Repr

/-- An open hold window (R197): the lines of writes it turned away, and the writes still to come of which the window's end will say
whether they are made. -/
structure HoldOpen where
  seg : Seg
  closePc : Nat
  iter : List Nat
  line : Nat
  nlines : Nat
  blocked : List Nat
  pend : List LineW := []
  deriving DecidableEq, Repr

/-- A value in a lane register: its format tag (none when cleared), its bits, marks and the cycle from which it may be
read (R142, R143, R150). [log 7, DESIGN CHOICE] -/
structure LaneVal where
  tag : Option Fmt := none
  bits : BitVec 32 := 0
  mark : Mark := 0
  ready : Nat := 0
  deriving DecidableEq, Repr

/-- A lane quire (R142, R146). [log 7, DESIGN CHOICE] -/
structure LaneQ where
  tag : Option Fmt := none
  q : QVal := .int 0
  mark : Mark := 0
  ready : Nat := 0
  deriving DecidableEq, Repr

/-- A mask register (R142). [log 7, DESIGN CHOICE] -/
structure MaskR where
  bits : BitVec 64 := 0
  mark : Mark := 0
  ready : Nat := 0
  written : Bool := false
  deriving DecidableEq, Repr

/-- Row state of a lane (R165, R167): the softmax exponent K with its flags, and the count n. `closed` marks that the row's
last phase ended it; `ieee` that the row's inputs were IEEE values, whose words `vals` holds in order of arrival for the sums of the
IL-3610's method (R168). [log 7, DESIGN CHOICE] -/
structure RowSt where
  empty : Bool := true
  bad : Bool := false
  k : Int := 0
  n : Nat := 0
  closed : Bool := false
  ieee : Bool := false
  vals : List (BitVec 32) := []
  mark : Mark := 0
  ready : Nat := 0
  deriving DecidableEq, Repr

/-- A CRECV waiting for its elements (R193), of work tick `wt`. -/
structure Recv where
  pc : Nat
  sk : Bool
  src : Nat
  ch : Nat
  half : Bool
  base : Nat
  n : Nat
  issue : Nat
  due : Nat
  tgt : Bool
  line : Nat
  got : Nat
  seg : Seg
  id : Nat
  late : Bool
  wt : BitVec 64 := 0
  deriving DecidableEq, Repr

/-- The array's own state (R92-R105, R457). `actEnd` and `actLvl` give the level in the last cycle before the
present idle interval; `gap` is a running BAL gap (issue, length, level at issue). `drain` and `drainBg` are the last DRAIN of
the RT and of the BG segment, `reads` the drains whose bank reads may still be under way. -/
structure ArraySt where
  tile : Tile := {}
  half0 : Half := {}
  half1 : Half := {}
  lds : Option Nat := none
  lastPass : Option (Nat × Nat) := none
  flights : List Flight := []
  drain : Option DrainSt := none
  drainBg : Option DrainSt := none
  reads : List DrainSt := []
  gap : Option (Nat × Nat × Nat) := none
  actEnd : Nat := 0
  actLvl : Nat := 0
  colReq : List (BitVec 7) := []
  rowReq : List (BitVec 7) := []
  heldOut : List Nat := []
  deriving DecidableEq, Repr

/-- What a vector-unit instruction replaced, kept while a prevailing unit may still take one of its ports (R149): its segment,
program counter and issue cycle, the former contents of what it writes, its claims on write port 1, the last cycle it may lose a
port in, and the flags it has counted. -/
structure VecRun where
  seg : Seg
  pc : Nat
  cyc : Nat
  lines : List (Nat × Line × Mark)
  vr : Tab LaneVal
  lq : Tab LaneQ
  masks : Tab MaskR
  sk : Tab RowSt
  writes : List Claim
  last : Nat
  fl : Flags := {}
  vrec : List (Nat × Word) := []
  trap : Bool := false
  ate : Bool := false
  deriving DecidableEq, Repr

/-- The vector unit's state (R142, R150, R151). Keys: register times 64 plus lane. -/
structure VecSt where
  vr : Tab LaneVal := []
  lq : Tab LaneQ := []
  masks : Tab MaskR := []
  sk : Tab RowSt := []
  free : Nat := 0
  sfuFree : Nat := 0
  occ : List (Nat × Nat) := []
  busy : Nat := 0
  runs : List VecRun := []
  deriving DecidableEq, Repr

/-- The former contents of a Carrel line that an instruction writes in cycle `at`: a read in a cycle up to `at` still sees them
(R94, R102, R150). -/
structure OldLine where
  line : Nat
  cyc : Nat
  was : Line
  mark : Mark
  pc : Nat := 0
  deriving DecidableEq, Repr

/-- One engine: its storage and its sequencer (Table 0-2). `carrel` is keyed by byte, `cmark` by line; `olds` holds what lines held
before writes still under way, `tagDue` the tag entries (cycle, number, entry) that transfers are about to set (R118); `ce` the
corrections of the frame (block, count, last address) (R253), `landed` the last cycles in which arriving lines took write port 1 (R329), `sfuErrs` the parity errors of its SFUs (SFU, tick) (R248). [log 7, DESIGN CHOICE] -/
structure Eng where
  rt : SegSt := {}
  bg : SegSt := {}
  cyc0 : Nat := 0
  lagged : Bool := false
  units : List (EUnit × Nat) := []
  claims : List Claim := []
  arr : ArraySt := {}
  vec : VecSt := {}
  slots : Tab Slot := []
  tags : Tab TagE := []
  rowChks : List RowChk := []
  recWrs : List RecWr := []
  recvs : List Recv := []
  holdsRt : List HoldDef := []
  holdsBg : List HoldDef := []
  openH : List HoldOpen := []
  code : Tab (BitVec 128) := []
  carrel : Tab Byte := []
  cmark : Tab Mark := []
  olds : List OldLine := []
  tagDue : List (Nat × Nat × TagE) := []
  unlocAt : List Nat := []
  statCells : List (Nat × Nat × Nat × Nat) := []
  cutReset : Bool := false
  landed : List Nat := []
  sfuReq : List Nat := []
  sfuBad : List Nat := []
  sfuErrs : List (Nat × BitVec 64) := []
  ce : List (Nat × Nat × Nat) := []
  takeover : Bool := false
  faultDue : Bool := false
  dShift : Nat := 0
  deriving DecidableEq, Repr

/-- A tensor table entry (Table 7-16). -/
structure TensorE where
  lid : BitVec 12
  src : BitVec 2
  norcmp : Bool
  fmt : BitVec 4
  bpt : Nat
  w : Nat
  lag : Nat
  dirtab : BitVec 64
  deriving DecidableEq, Repr

/-- A hub mover entry (Table 7-17). -/
structure HubMove where
  kind : Nat
  dest : Nat
  len : Nat
  dline : Nat
  tag : Nat
  ten : Bool
  src : BitVec 64
  start : Int
  arrive : Int
  deriving DecidableEq, Repr

/-- A verdict line received for an item (R212). -/
structure VLine where
  line : Line
  mark : Mark
  deriving DecidableEq, Repr

/-- A finished frame whose verdict record is to leave (R214). -/
structure VRec where
  slot : Nat
  frame : BitVec 64
  tickNo : BitVec 64
  lines : List VLine
  marks : Mark
  tevt : BitVec 8
  resumed : Bool
  trig : Bool
  colchk : Nat
  rowchk : Nat
  mismatch : Nat
  ratio : BitVec 3
  cold : Bool
  active : BitVec 8
  zsteps : BitVec 16
  stream : Nat
  digest : List Byte
  seedId : BitVec 32
  gencompat : Bool
  deriving DecidableEq, Repr

/-- A data frame of an RT job whose record is not yet complete (R212-R215): its items, marks, events and counts, and the
engines that have issued WTICK; `slack` is the least slack of those (R256). -/
structure FrameSt where
  frame : BitVec 64
  items : Tab VLine := []
  marks : Mark := 0
  tevt : BitVec 8 := 0
  colchk : Nat := 0
  rowchk : Nat := 0
  mismatch : Nat := 0
  done : BitVec 64 := 0
  trig : Bool := false
  cold : Bool := false
  ratio : BitVec 3 := 3
  active : BitVec 8 := 64
  zsteps : BitVec 16 := 0
  slack : Option Int := none
  deriving DecidableEq, Repr

/-- Poisoned data that a job has consumed (R244): where, by which operand of which instruction, in which work tick, and the shelfmark
the operand was read from, where it has one. -/
structure Consumed where
  leng : Nat
  pc : Nat
  operand : Nat
  origin : Option Nat
  wt : BitVec 64
  deriving DecidableEq, Repr

/-- A job slot (R26, R198, R402). `st` as MOD.JOBCTL.STATE: 0 free, 1 loading, 2 running, 3 pausing, 4 paused,
5 halted; `slacks` are the slacks of the frames that ended since the tick (R256), and `ending` says that a slot reset waits for the pass
boundaries of its engines (R27). [log 88, DESIGN CHOICE] -/
structure Job where
  st : Nat := 0
  bg : Bool := false
  engMask : BitVec 64 := 0
  stream : Nat := 0xFF
  gencompat : Bool := false
  budget : Nat := 0
  yreserve : Nat := 0
  seed : BitVec 64 := 0
  digest : List Byte := []
  seedId : BitVec 32 := 0
  ntensor : Nat := 0
  tensors : List TensorE := []
  factors : Tab (List (BitVec 32)) := []
  hubMoves : List HubMove := []
  foot : Tab (Nat × Nat) := []
  stRanges : List (Nat × Nat) := []
  nitem : Nat := 0
  modset : BitVec 32 := 0
  saved : Bool := false
  resumed : Bool := false
  pauseReq : Bool := false
  unloadReq : Bool := false
  resetReq : Bool := false
  contReq : Bool := false
  pauseTick : BitVec 64 := 0
  firstLost : Option (BitVec 64) := none
  bound : Bool := false
  pendStart : Bool := false
  halted : BitVec 64 := 0
  frames : List FrameSt := []
  faults : Nat := 0
  holdTo : Nat := 0
  ratioPre : Option Nat := none
  consumed : Option Consumed := none
  withdrawn : List Nat := []
  traffic : Nat := 0
  codeAt : Tab (Nat × Nat) := []
  loadWait : Bool := false
  slacks : List Int := []
  ending : Bool := false
  deriving DecidableEq, Repr

/-- A step summary (Table 5-4); `maxmag` and `meanlog` as stored. -/
structure Summary where
  maxmag : BitVec 32
  meanlog : BitVec 32
  zsh : BitVec 16
  ssh : BitVec 16
  nsh : BitVec 16
  deriving DecidableEq, Repr

/-- A Catalogue entry (Table 5-3) with its ring, newest first, and the Curator's boost (R259). [log 88, DESIGN CHOICE] -/
structure CatE where
  mode : Nat := 0
  job : Nat := 0
  fmt : BitVec 4 := 0
  w : Nat := 16
  lag : Nat := 1
  coldLeft : Nat := 0
  adj : Int := 0
  limit : Int := 120
  step : BitVec 64 := 0
  stats : Stats := {}
  stagRun : Nat := 0
  head : Nat := 31
  ring : List Summary := []
  openPart : Bool := false
  boost : Int := 0
  raised : Bool := false
  nonfinAt : Option Nat := none
  dirtab : BitVec 64 := 0
  src : BitVec 2 := 0
  deriving DecidableEq, Repr

/-- A statistics transfer on its way to the Catalogue (R129, R132). -/
structure StatX where
  slot : Nat
  tid : Nat
  adj : Int
  stats : Stats
  ok : Bool
  deriving DecidableEq, Repr

/-- A mover transfer in flight (R326-R332): its lines with their marks (none where they never come, or come from another
module), how many there are and how many have landed, where it goes, and its declared cycle in the clock of the engine
it goes to (of the engine that issued it where it goes to the Stacks or the verdict buffer). `kind` 0: into a Carrel;
1: into the Stacks; 2: into the verdict buffer. `eng` is the target's storage key, `leng` the issuing engine, `wt` its work tick. A `remote` one
waits for RDRESP packets; `src` is the Stacks offset its lines are read from; `xp` is the format of a transposition whose tile gathers in `buf`;
`lost` says that a hold window turned a line away, `tickDue` that its declared cycle counts from the next tick; `local'` is the Carrel line a verdict transfer was read from, `hubNo` the hub of a
hub mover entry, `tileN` the lines that a line read from the Stacks goes into (those of its tile where it is transposed), `hubAt` when a
read's request reaches its hub (R327). -/
structure Xfer where
  id : Nat
  kind : Nat
  slot : Nat
  bg : Bool
  eng : Nat
  leng : Nat
  pc : Nat
  target : Nat
  lines : List (Line × Mark)
  n : Nat
  landed : Nat
  due : Nat
  tag : Nat
  ten : Bool
  hub : Bool
  wt : BitVec 64
  onTime : Bool := true
  remote : Bool := false
  xp : Option (BitVec 4) := none
  buf : List (Line × Mark) := []
  src : Option Nat := none
  lost : Bool := false
  tickDue : Bool := false
  hubNo : Nat := 0
  local' : Option Nat := none
  tileN : Nat := 1
  hubAt : Nat := 0
  deriving DecidableEq, Repr

/-- One value of a chain transfer (R76): a quire of format `fmt` or a special value, with its marks and the shelfmark it came from. -/
structure ChainV where
  fmt : Fmt
  val : BankVal
  mark : Mark
  org : Nat := 0
  deriving DecidableEq, Repr

/-- A chain transfer in flight (R76, R193). -/
structure ChainX where
  src : Nat
  dst : Nat
  ch : Nat
  job : Nat
  terms : Nat
  vals : List ChainV
  sent : Nat
  wt : BitVec 64 := 0
  deriving DecidableEq, Repr

/-- A zone's clock (R18, R19, R200): steps are codes 0 (1.6 GHz) to 4 (0.8 GHz). `frozenAt` is the REFCLK time the
clocks stopped, `causes` the conditions that hold it (Table 15-7's codes); `tickAbs` the cycle of the last tick; `lost`
the frozen REFCLK cycles of the frame so far. `why` says what asked for the decided step: 1 thermal, 2 power, 3 ceiling
or limit, 4 a freeze, 16 + z linked from zone z, 32 + m linked from module m; `frzTag` what froze it, in the codes of `causes`. [log 88, DESIGN CHOICE] -/
structure Zone where
  tickAbs : Nat := 0
  frozenAt : Option Nat := none
  causes : List Nat := []
  why : Nat := 0
  lost : Nat := 0
  froze : Bool := false
  frzTag : Nat := 0
  coolSince : Nat := 0
  thermStepAt : Option Nat := none
  thermUpAt : Option Nat := none
  deriving DecidableEq, Repr

/-- An Errata record (Table 9-10); DETAIL as its list of values, `noRing` where it was made while ring writing was off (R411). -/
structure ErrRec where
  tick : BitVec 64
  seq : BitVec 32
  ty : BitVec 16
  sev : BitVec 8
  level : BitVec 3
  data : Bool
  zq : BitVec 8
  die : BitVec 8
  peng : BitVec 8
  block : BitVec 8
  leng : BitVec 8
  job : BitVec 8
  wt : BitVec 64
  detail : List Nat
  noRing : Bool := false
  deriving DecidableEq, Repr

/-- An EVENT message waiting to be sent (R380). -/
structure EventMsg where
  seq : BitVec 64
  code : BitVec 16
  page : BitVec 16
  bits : BitVec 32
  tick : BitVec 64
  detail : List Nat
  deriving DecidableEq, Repr

/-- What the module has sent: completions, messages, fabric packets and system messages, sideband answers. A RETRACT goes to a module's
engine, its verdict buffer, or neither (a Stacks target), in the 32 bytes of Table 9-5; a pulse on TICK_OUT starts at a REFCLK time;
`scan` is what the boundary-scan register shifts out. -/
inductive Out where
  | completion (cls : Nat) (tag : BitVec 16) (status : Nat) (arg : List Nat) (data : List Byte)
  | event (e : EventMsg)
  | verdict (frame : BitVec 64) (slot : Nat) (stream : Nat) (lines : List Line)
  | log (first : BitVec 32) (recs : List Line)
  | packet (p : Packet)
  | retractTo (mod : Nat) (unit : Option (Option (BitVec 6))) (bytes : List Byte)
  | tickAlign (target : Nat) (period : BitVec 32) (n : BitVec 64)
  | stepLink (target : Nat) (slot : Nat) (step : Nat) (tick : BitVec 64)
  | abfBlock (port : Nat) (lanes : List (List Byte))
  | vilriBlock (lanes : List (List Byte))
  | sideband (bytes : List Byte)
  | tickOut (wake : Bool) (time : Nat)
  | idcode (v : BitVec 32)
  | scan (v : List Bool)
  deriving DecidableEq, Repr

/-- An Accession port beyond its registers (R288-R311). `bnPrev` and `bn` are B_n and B_{n+1} of the window closed last, `bnFrame` the frame that
begins at `bn`, `gapFrom` where a gap began that is still open, `gap` the last one closed, `bad` the
spans of bad instants, `due` the conditions (condition, lane, count) to be recorded at the tick, `rawNext` and `decNext` the next
ring line, `rawResume` and `decResume` a ring whose first write after a wake is still to come, `slept` a port that Standby stopped, `torn` the last
frame whose window was open as a write of EN = 0 stopped the link (R311). [log 88, DESIGN CHOICE] -/
structure AccPort where
  armed : Bool := false
  bnPrev : BitVec 64 := 0
  bn : BitVec 64 := 0
  bnFrame : BitVec 64 := 0
  gapFrom : Option (BitVec 64) := none
  gap : Option (BitVec 64 × BitVec 64) := none
  bad : List (Nat × Nat) := []
  rawOn : Bool := false
  decOn : Bool := false
  rawNext : Nat := 0
  decNext : Nat := 0
  rawResume : Bool := false
  decResume : Bool := false
  stopAt : Option (BitVec 64) := none
  shares : List (Nat × Nat) := []
  tile : List (Line × Mark) := []
  tileFrame : BitVec 64 := 0
  due : List (Nat × Nat × Nat) := []
  slept : Bool := false
  torn : Option (BitVec 64) := none
  deriving DecidableEq, Repr

/-- A hub's memory (R319, R322, R333-R335). `refresh` numbers the frame's next refresh position; `copyPos` counts the refresh positions
of a package copy; `ueGroups` and `ceWin` hold
(package, group or count, tick) of the last 4,096 ticks, `ceDue` the corrections (package, count, last line) of the frame. [log 88, DESIGN CHOICE] -/
structure HubSt where
  refresh : Nat := 0
  copyPos : Nat := 0
  copying : Option Nat := none
  copyDone : Bool := false
  ueGroups : List (Nat × Nat × Nat) := []
  ceWin : List (Nat × Nat × Nat) := []
  ceDue : List (Nat × Nat × Nat) := []
  patrol : Nat := 0
  rd : Nat := 0
  wr : Nat := 0
  deriving DecidableEq, Repr

/-- A link block kept until it is acknowledged (R357, R368): its number, the interval it left in (on the Vilri link the time at which it
began, in 10 ps), what its units are, the units, and the verdict records whose last flit it carries: the flit's slot, the time by which R30
has it leave, the job slot and the frame. -/
structure SentBlock where
  seq : BitVec 32
  sentAt : Nat
  kinds : Nat
  units : List Line
  ends : List (Nat × Nat × Nat × BitVec 64) := []
  deriving DecidableEq, Repr

/-- An Abfold port's link state (R340-R360). `rxSeq` is the last block accepted, `since` counts blocks since the NAK, `blocks` all
blocks received, `swLane` a lane announced in SPLANE and the BSEQ at which it switches, `nakIn` the NAKs in a row of block `nakAck` + 1 that the partner
sent, `await` that F5 is to take the port's dimension at the tick, `parts` the units of each slot's open
packet with whether one came in a replay, `arrived` the packets for this module that wait to land, `lates` (kept at F0) the transfers
already found late (R354): source, work tick and target. Outgoing: `tie` when each slot's last packets reached the port, and their units (R342), `txSeq` is the last BSEQ
used, `txN` the blocks sent, `txQ` the units each slot has waiting, `txSys` the system messages (type, bytes), `kept` the blocks not
acknowledged, `rpl` the next block to resend, `nakDue` a NAK for the next block. [log 88, DESIGN CHOICE] -/
structure AbfSt where
  rxSeq : BitVec 32 := 0xFFFFFFFF
  ackIn : BitVec 32 := 0xFFFFFFFF
  nak : Bool := false
  nakRun : Nat := 0
  since : Nat := 0
  blocks : Nat := 0
  laneFails : List (Nat × Nat) := []
  swLane : Option (Nat × Nat) := none
  spareBad : Bool := false
  parts : Tab (Bool × List Line) := []
  arrived : List Packet := []
  retries : Nat := 0
  txSeq : BitVec 32 := 0xFFFFFFFF
  txN : Nat := 0
  txQ : Tab (List Line) := []
  txSys : List (Nat × List Byte) := []
  kept : List SentBlock := []
  rpl : Option (BitVec 32) := none
  nakDue : Bool := false
  nakIn : Nat := 0
  nakAck : BitVec 32 := 0xFFFFFFFF
  await : Bool := false
  tie : Tab (Nat × Nat) := []
  lates : List (Nat × BitVec 64 × Nat) := []
  deriving DecidableEq, Repr

/-- An upstream message that leaves flit by flit: its channel, itself, the flits left, and, of a verdict record that R30 covers, the time
by which it has to leave, its job slot and its frame. -/
structure TxMsg where
  ch : Nat
  msg : Out
  left : List Line
  until' : Option (Nat × Nat × BitVec 64) := none
  deriving DecidableEq, Repr

/-- The Vilri port's link state (R365-R374, R385). `credIn`, `sentF` and `freed` count flits by channel; `part0` and `part1` are the
messages being received, `waiting` the requests behind a fence, `cplQ` completions that wait for credits, `swLane` an announced
reception lane and the BSEQ [15:0] at which it switches, `badTx` and `badRx` a failed spare lane, `owed` the requests a lost link left
to be executed, `evtLostFrom` the first EVENT lost since the last report, `evtLostN` how many have been and `evtLostTo` the EVSEQ after the last. Outgoing: `txSeq` is the last BSEQ used,
`txMsgs` the messages under way, `kept` the blocks not acknowledged, `rpl` the next block to resend and `rplWait` the blocks before it,
`nakDue` a NAK for the next block, `nakIn` the NAKs in a row of block `nakAck` + 1, `since` the blocks sent since the tick, `firstEvs` the
EVENT flits that leave before anything else, `exclAt` the block of this side at which an excluded lane takes effect. [log 88, DESIGN CHOICE] -/
structure VilriSt where
  rxSeq : BitVec 32 := 0xFFFFFFFF
  ackIn : BitVec 32 := 0xFFFFFFFF
  nak : Bool := false
  nakRun : Nat := 0
  replays : Nat := 0
  credIn : Tab Nat := []
  sentF : Tab Nat := []
  freed : Tab Nat := []
  part0 : List Line := []
  part1 : List Line := []
  waiting : List (List Line) := []
  cplQ : List Out := []
  laneFails : List (Nat × Nat) := []
  blocks : Nat := 0
  swLane : Option (Nat × Nat) := none
  badTx : Bool := false
  badRx : Bool := false
  vrdLost : List (Nat × BitVec 64 × BitVec 64) := []
  evtLostFrom : Option (BitVec 64) := none
  evtLostN : Nat := 0
  evtLostTo : BitVec 64 := 0
  txSeq : BitVec 32 := 0xFFFFFFFF
  txMsgs : List TxMsg := []
  kept : List SentBlock := []
  rpl : Option (BitVec 32) := none
  rplWait : Nat := 0
  nakDue : Bool := false
  exclAt : Option (Nat × BitVec 16) := none
  nakIn : Nat := 0
  nakAck : BitVec 32 := 0xFFFFFFFF
  since : Nat := 0
  firstEvs : Nat := 0
  owed : List (List Line) := []
  deriving DecidableEq, Repr

/-- A parsed folio held in the boot store or installed (R423). -/
structure Folio where
  bytes : List Byte
  pushed : Bool
  lastPass : BitVec 64 := 0
  passed : Nat := 0
  failed : Nat := 0
  deriving DecidableEq, Repr

/-- A test unit under way on a physical engine (R251, R425): that engine runs the image's logical engine 0, with the row, column and SFU map of
the unit in force, each as the physical element and the logical one it serves. -/
structure TestRun where
  die : Nat
  peng : Nat
  folio : Nat
  unit : Nat
  row : Option (Nat × Nat) := none
  col : Option (Nat × Nat) := none
  sfu : Option Nat := none
  deriving DecidableEq, Repr

/-- H0's security block and boot store (R415, R429, R433): slots FW0, FW1, SUPP, TRAIN, TEST0-TEST3; `gone` keeps the counts of test
folios that are no longer installed, since the last cold reset (R252), `windows` the window tables loaded from the firmware in force (R300), `supp` the supplement and `train` the training folio that the last boot put
in force (R424, R428), `ownWrite` a boot-store write that the Registrar makes of its own accord (R417). [log 74, DESIGN CHOICE; 88, DESIGN CHOICE] -/
structure SecSt where
  store : Tab (List Byte) := []
  writing : Option (Nat × List Byte) := none
  folios : List Folio := []
  runs : List TestRun := []
  sweep : Bool := false
  passedOn : List (Nat × Nat × Nat) := []
  lastUnit : Tab Nat := []
  savedSets : List (List Byte × BitVec 32) := []
  swept : List (Nat × Nat × Nat) := []
  gone : List Folio := []
  windows : Tab (List Byte) := []
  supp : List Byte := []
  train : List Byte := []
  attReq : Bool := false
  attBytes : Option (List Byte) := none
  trainedFull : BitVec 4 := 0
  bumpTo : Nat := 0
  ownerKey : List Byte := []
  ownerNext : List Byte := []
  fuseNow : Bool × Bool := (false, false)
  ownerEn : Bool := false
  secver : Nat := 0
  fuseNext : Option (Bool × Bool) := none
  programs : List (Nat × List Byte) := []
  digests : List (List Byte) := []
  doorbells : List (BitVec 64) := []
  ownWrite : Bool := false
  deriving DecidableEq, Repr

/-- The Night Desk (R278-R284, R434): the samples kept, newest first, with the counter value of the oldest; ENV; the persistence
counter; the number of blocks seen; decisions that wait for the end of their block + 2 (block, table index, counter value of the
block's first sample); the trigger frame and table index of the decision that woke the module, and the trigger frame with the slot
that classifies it; the coolant watch's runs, conditions in force and which of these have acted. [log 88, DESIGN CHOICE] -/
structure NdSt where
  ring : List (BitVec 16 × BitVec 16) := []
  first : BitVec 64 := 0
  env : Nat := 0
  persist : Nat := 0
  block : Nat := 0
  decided : List (Nat × Nat × BitVec 64) := []
  woke : Option (Nat × Nat) := none
  trig : Option (BitVec 64 × Nat) := none
  cool : List Nat := [0, 0, 0]
  coolOn : List Bool := [false, false, false]
  coolTold : List Bool := [false, false, false]
  stopped : Bool := false
  quiet : Nat := 0
  matched : Bool := false
  sram : Tab Byte := []
  deriving DecidableEq, Repr

/-- The Curator's own working state (R257-R268). [log 88, DESIGN CHOICE] -/
structure CurSt where
  below : Nat := 0
  shedDraw : Nat := 0
  ratioDraw : Nat := 0
  prevP : Nat := 0
  powerShed : Bool := false
  coolShed : Bool := false
  lastAct : Nat := 0
  trafficShed : Bool := false
  guardDue : Bool := false
  steplinks : List (Nat × Nat × BitVec 64 × Nat) := []
  slackHist : Tab (List Int) := []
  deriving DecidableEq, Repr

/-- Pins and power (R272-R277, R435-R441, R451, R452). `stacksUp`: the Stacks are initialised; `dead`: a hub has failed for good;
`entry`: the module enters Standby at this tick; `wokeAt` the REFCLK time of W, `sources` the wake sources registered, `stage` the
wake stage reached; `tickInAt` the capture of TICK_IN since the last tick, in cycles after it, and `tickSeen` a follower whose ticks a
capture has placed (R204); `sofsPassed` the value of TICK.SOFS that the counter passed without a re-phase (R201), `fabSeen` the fabric time read last; `trigAt` the first tick after the last wake and `trigRun` the slot and trigger frame that run at it;
`lostStreams` the streams a reset stopped, with their first frame not reported; `ringed` and `seen` place the Errata ring; `heldAtA` a boot that
RESET_N holds; `scanReg` and `scanHold` the boundary-scan register's shift and hold stages, `scanDrive` that the hold stage drives the pins,
`bypass` that the bypass register stands between TDI and TDO (R451). [log 5, DESIGN CHOICE; 88, DESIGN CHOICE] -/
structure PwrSt where
  pwrEn : Bool := true
  inputOk : Bool := true
  off : Bool := false
  thermTrip : Bool := false
  refclk : Bool := true
  stacksUp : Bool := false
  dead : Bool := false
  stbyReq : Bool := false
  stbyHeld : Bool := false
  entry : Bool := false
  waking : Bool := false
  wokeAt : Nat := 0
  sources : List Nat := []
  stage : Nat := 0
  trigAt : BitVec 64 := 0
  trigRun : Option (Nat × BitVec 64) := none
  tap : Nat := 0
  scanReg : List Bool := []
  scanHold : List Bool := []
  scanDrive : Bool := false
  bypass : Bool := false
  wstat : BitVec 8 := 0
  tickAligned : Option (BitVec 64) := none
  tickInAt : Option Nat := none
  tickSeen : Bool := false
  sofsPassed : Option (BitVec 64) := none
  fabSeen : Nat := 0
  folioHeld : List (BitVec 64) := []
  bootDone : Bool := false
  lostStreams : List (Nat × BitVec 64) := []
  ringed : Nat := 0
  seen : Nat := 0
  heldAtA : Bool := false
  deriving DecidableEq, Repr

end Sys2Proof.Machine
end

