-- ==== Sys2Proof/Machine/State.lean ====
section
/-! DEFINITION. The state of the IL-4820-M800, its reset, and the reasons a step may stop. -/

namespace Sys2Proof.Machine

/-- Why a step stops. -/
inductive Fault where
  /-- Raised by an instruction command whose word breaks a field rule that the Registrar checks at load, a reserved field, code or
  format among them (R33, R142, R185-R189, R458, R459; Table 7-18 codes 0x05 to 0x09): no loaded image holds it (R33 calls such an
  image invalid). Safe: the hardware never executes such a command. -/
  | noSuchCommand
  deriving DecidableEq, Repr

/-- Why a command has no meaning here. -/
inductive Refusal where
  /-- A command of the table that the model gives no meaning yet; raised by Dispatch only. Safe. -/
  | notModelled (mnemonic : String)
  deriving DecidableEq, Repr

/-- The state of the module. -/
structure State where
  /-- Commands waiting, first in first out (the model's own). -/
  pending : List Instr
  /-- Register values in force, keyed by `ridx`; an unlisted register holds its reset value. -/
  regs : Tab Word
  /-- Tick-class shadows (R394). -/
  shadow : Tab (Option Word)
  /-- Shadows captured at the tick that wait for an engine's cycle 0 (R394, R395). -/
  captured : Tab (Option Word)
  /-- HI latches of the control port and of the sideband (R375, R400). -/
  hiLatch : Word
  hiLatchSb : Word
  /-- Staged LO halves (R400), keyed by the HI register. -/
  stagedLo : Tab (Option Word)
  /-- The 64-bit tick counter (R199). -/
  tick : BitVec 64
  /-- REFCLK time of the last tick (the model's own clock for events that carry a time). -/
  refTick : Nat
  /-- REFCLK time at which fabric time is 0 (R347). -/
  ftimeAt : Nat
  /-- Tick count since the re-phase (k of R201). -/
  phaseK : Nat
  /-- The Stacks, keyed by byte offset; unlisted bytes read 0 (R321). -/
  dram : Tab Byte
  /-- Poison and outcome marks of Stacks lines, keyed by line (R242). -/
  smark : Tab Mark
  /-- Engines by storage engine `5 * die + engine`. -/
  engs : Tab Eng
  /-- The physical engine that holds the storage of each logical engine (R23, R234). -/
  store : Tab Nat
  /-- Job slots J0-J3. -/
  jobs : Tab Job
  zones : Tab Zone
  /-- The Catalogue with the Curator's boosts (R130, R259). -/
  cat : Tab CatE
  /-- The CATALOGUE aperture: entry number and copy (R412). -/
  aperture : Option (Nat × CatE)
  statQ : List StatX
  xfers : List Xfer
  nextXfer : Nat
  chains : List ChainX
  /-- Finished frames whose records are to leave. -/
  ready : List VRec
  accs : Tab AccPort
  hubs : Tab HubSt
  abfs : Tab AbfSt
  vil : VilriSt
  sec : SecSt
  nd : NdSt
  cur : CurSt
  pwr : PwrSt
  /-- H0's buffer of the last 64 Errata records, newest first (R253). -/
  errs : List ErrRec
  /-- EVENT messages waiting (R380, R384). -/
  evq : List EventMsg
  /-- Messages sent, newest first. -/
  sent : List Out
  /-- What the boot stages last found (the model's own; used by a warm reset requested through a register message). -/
  env : BootEnv
  /-- Counter for free values (the model's own). -/
  free : Nat
  deriving DecidableEq, Repr

/-- A boot environment in which every unit comes up. [log 5, DESIGN CHOICE] -/
def goodEnv : BootEnv :=
  { refclk := true, fuses := true, hubs := 0xF, badPackages := [], zones := 0xF, dies := 0xFFFF, badEngines := [],
    flow := 250, storedOk := 0, bootMs := 2300, resetLow := false }

/-- The module right after a cold reset: in Boot (Table 15-5), every register at its reset value, the tick number 0
(R199), the Stacks zero (R321), no job, nothing waiting. [log 88, DESIGN CHOICE] -/
def State.reset : State :=
  { pending := [], regs := [], shadow := [], captured := [], hiLatch := 0, hiLatchSb := 0, stagedLo := [], tick := 0,
    refTick := 0, ftimeAt := 0, phaseK := 0, dram := [], smark := [], engs := [], store := [], jobs := [],
    zones := [], cat := [], aperture := none, statQ := [], xfers := [], nextXfer := 0, chains := [], ready := [],
    accs := [], hubs := [], abfs := [], vil := {}, sec := {}, nd := {}, cur := {}, pwr := {}, errs := [], evq := [],
    sent := [], env := goodEnv, free := 0 }

end Sys2Proof.Machine
end

