-- ==== Sys2Proof/Machine/Ops.lean ====
section
/-! DEFINITION. The named operations over the state: registers, memories, engines, jobs, clocks, events and Errata
records, SCHED_FAULT, poison. Every meaning is written over these. -/

namespace Sys2Proof.Machine

/-- What a meaning answers. -/
abbrev Res := Host.Outcome State Fault Refusal

/-- An instruction word that no loaded image can hold stops (R33, R142, R185-R189); any other command takes its effect. [log 4, DESIGN CHOICE] -/
def gate (ok : Bool) (t : State) : Res := if ok then .next t else .fault .noSuchCommand

/-! ### Bits and registers -/

/-- Bits `[lo+w-1:lo]` of a number. -/
def bitsOf (v lo w : Nat) : Nat := v / 2 ^ lo % 2 ^ w

/-- The number with those bits replaced. -/
def putBits (v lo w x : Nat) : Nat := v - bitsOf v lo w * 2 ^ lo + (x % 2 ^ w) * 2 ^ lo

/-- A bit as a number. -/
def b2n (b : Bool) : Nat := if b then 1 else 0

/-- The register at an offset of a page. -/
def rget (s : State) (p off : Nat) : Word := tabGet regReset s.regs (ridx p off)

/-- Put a register's value. -/
def rset (p off : Nat) (v : Word) (s : State) : State := { s with regs := tabSet regReset s.regs (ridx p off) v }

/-- A field of a register. -/
def fget (s : State) (p off lo w : Nat) : Nat := bitsOf (rget s p off).toNat lo w

/-- Put a field of a register. -/
def fset (p off lo w x : Nat) (s : State) : State :=
  rset p off (BitVec.ofNat 32 (putBits (rget s p off).toNat lo w x)) s

/-- Add to a saturating counter field (R398). [log 87, DEDUCED] -/
def finc (p off lo w n : Nat) (s : State) : State := fset p off lo w (min (fget s p off lo w + n) (2 ^ w - 1)) s

/-- A 64-bit LO/HI pair. -/
def rget64 (s : State) (p off : Nat) : BitVec 64 :=
  BitVec.ofNat 64 ((rget s p off).toNat + (rget s p (off + 4)).toNat * 2 ^ 32)

/-- Put a pair. [log 87, DEDUCED] -/
def rset64 (p off : Nat) (v : BitVec 64) (s : State) : State :=
  rset p (off + 4) (BitVec.ofNat 32 (v.toNat / 2 ^ 32)) (rset p off (BitVec.ofNat 32 v.toNat) s)

/-- A running state change over a list. -/
def foldS {α : Type} (l : List α) (f : α → State → State) (s : State) : State := l.foldl (fun t a => f a t) s

/-- Do it when the condition holds. -/
def whenS (c : Bool) (f : State → State) (s : State) : State := if c then f s else s

/-! ### Parts of the state -/

/-- An engine by storage key. -/
def eng (s : State) (k : Nat) : Eng := tabGet (fun _ => {}) s.engs k
/-- Change an engine. -/
def engMod (k : Nat) (f : Eng → Eng) (s : State) : State := { s with engs := tabMod (fun _ => {}) s.engs k f }
/-- A job slot. -/
def job (s : State) (j : Nat) : Job := tabGet (fun _ => {}) s.jobs j
/-- Change a job slot. -/
def jobMod (j : Nat) (f : Job → Job) (s : State) : State := { s with jobs := tabMod (fun _ => {}) s.jobs j f }
/-- A zone. -/
def zone (s : State) (z : Nat) : Zone := tabGet (fun _ => {}) s.zones z
/-- Change a zone. -/
def zoneMod (z : Nat) (f : Zone → Zone) (s : State) : State := { s with zones := tabMod (fun _ => {}) s.zones z f }
/-- A Catalogue entry. -/
def catE (s : State) (t : Nat) : CatE := tabGet (fun _ => {}) s.cat t
/-- Change a Catalogue entry. -/
def catMod (t : Nat) (f : CatE → CatE) (s : State) : State := { s with cat := tabMod (fun _ => {}) s.cat t f }
/-- An Accession port. -/
def acc (s : State) (q : Nat) : AccPort := tabGet (fun _ => {}) s.accs q
/-- Change an Accession port. -/
def accMod (q : Nat) (f : AccPort → AccPort) (s : State) : State := { s with accs := tabMod (fun _ => {}) s.accs q f }
/-- A hub's memory state. -/
def hub (s : State) (h : Nat) : HubSt := tabGet (fun _ => {}) s.hubs h
/-- Change it. -/
def hubMod (h : Nat) (f : HubSt → HubSt) (s : State) : State := { s with hubs := tabMod (fun _ => {}) s.hubs h f }
/-- An Abfold port. -/
def abf (s : State) (p : Nat) : AbfSt := tabGet (fun _ => {}) s.abfs p
/-- Change it. -/
def abfMod (p : Nat) (f : AbfSt → AbfSt) (s : State) : State := { s with abfs := tabMod (fun _ => {}) s.abfs p f }
/-- A segment of an engine. -/
def Eng.seg (e : Eng) : Seg → SegSt
  | .rt => e.rt
  | .bg => e.bg
/-- Change a segment. -/
def Eng.segMod (g : Seg) (f : SegSt → SegSt) (e : Eng) : Eng :=
  match g with
  | .rt => { e with rt := f e.rt }
  | .bg => { e with bg := f e.bg }
/-- Change a segment of the engine at key `k`. -/
def segMod (k : Nat) (g : Seg) (f : SegSt → SegSt) (s : State) : State := engMod k (Eng.segMod g f) s
/-- A bank half. -/
def ArraySt.half (a : ArraySt) (h : Bool) : Half := if h then a.half1 else a.half0
/-- Change a bank half. -/
def ArraySt.halfMod (h : Bool) (f : Half → Half) (a : ArraySt) : ArraySt :=
  if h then { a with half1 := f a.half1 } else { a with half0 := f a.half0 }
/-- Change the array state of an engine. -/
def arrMod (k : Nat) (f : ArraySt → ArraySt) (s : State) : State := engMod k (fun e => { e with arr := f e.arr }) s
/-- Change the vector state of an engine. -/
def vecMod (k : Nat) (f : VecSt → VecSt) (s : State) : State := engMod k (fun e => { e with vec := f e.vec }) s
/-- Send a message. -/
def emit (o : Out) (s : State) : State := { s with sent := o :: s.sent }

/-! ### Engines, jobs and clocks -/

/-- Storage engine of a logical engine (R23, R234): `5 * die + engine`. [log 9, DEDUCED] -/
def storeKey (s : State) (leng : Nat) : Nat := 5 * (leng / 4) + tabGet (fun l => l % 4) s.store leng

/-- The physical engine bound to a slot by ENGMAP.SLOT (R23); 7 for none. -/
def slotPhys (s : State) (leng : Nat) : Nat := fget s (pgDie (leng / 4) 1) 0x40 (3 * (leng % 4)) 3

/-- Key of the executing engine: from a takeover on the die's spare engine (R234). [log 9, DEDUCED] -/
def execKey (s : State) (leng : Nat) : Nat :=
  5 * (leng / 4) + if (eng s (storeKey s leng)).takeover then 4 else slotPhys s leng

/-- A logical engine is absent: its slot is bound to no working engine (R24), its die is out of service, or its SEQ page
takes it out of service (R399). -/
def absent (s : State) (leng : Nat) : Bool :=
  decide (slotPhys s leng = 7) || decide (fget s (pgDie (leng / 4) 0) 0x0C 2 1 = 1) ||
    decide (fget s (pgEng (execKey s leng) 0) 0x08 0 1 = 0)

/-- The active engine count (R24). -/
def activeCount (s : State) : Nat := ((List.range 64).filter fun l => !absent s l).length

/-- The logical engine that uses a storage engine. [log 9, DEDUCED] -/
def lengOf (s : State) (k : Nat) : Option Nat :=
  ((List.range 4).map (fun i => 4 * (k / 5) + i)).find? fun l => decide (storeKey s l = k) && decide (slotPhys s l ≠ 7)

/-- The job uses the logical engine. -/
def Job.uses (j : Job) (leng : Nat) : Bool := j.engMask.getLsbD leng

/-- A slot is occupied. -/
def Job.occupied (j : Job) : Bool := decide (j.st ≠ 0)

/-- Segment of a job's class. -/
def Job.seg (j : Job) : Seg := if j.bg then .bg else .rt

/-- The slot whose job owns a segment of a logical engine. -/
def ownerOf (s : State) (leng : Nat) (g : Seg) : Option Nat :=
  (List.range 4).find? fun j => let b := job s j; b.occupied && b.bound && b.uses leng && decide (b.seg = g)

/-- Some slot is occupied. -/
def anyJob (s : State) : Bool := (List.range 4).any fun j => (job s j).occupied

/-- Logical engines of a job. -/
def Job.engs (j : Job) : List Nat := (List.range 64).filter j.uses

/-- Zone of a logical engine. -/
def zoneOf (leng : Nat) : Nat := leng / 16

/-- Clock step code in force in a zone (R215). -/
def stepOf (s : State) (z : Nat) : Nat := fget s (pgZone z) 0x40 8 3

/-- Engine cycles per REFCLK cycle at a step (R200). -/
def multOf (step : Nat) : Nat := 16 - 2 * min step 4

/-- TICK.PERIOD. -/
def period (s : State) : Nat := fget s pgTick 0x40 0 17

/-- F, the cycles of one frame in a zone (R200). -/
def frameCycles (s : State) (z : Nat) : Nat := period s * multOf (stepOf s z)

/-- The zone set of a job (R18). -/
def zoneSet (s : State) (j : Nat) : List Nat :=
  (List.range 4).filter fun z => (job s j).engs.any fun l => decide (zoneOf l = z)

/-- One closing step of R18: zones that share a job with a zone of the set. -/
def linkOnce (s : State) (zs : List Nat) : List Nat :=
  (List.range 4).filter fun z => zs.contains z ||
    (List.range 4).any fun j => (job s j).occupied && (job s j).bound && (zoneSet s j).contains z && (zoneSet s j).any zs.contains

/-- The closed set of R18. -/
def linkZones (s : State) (zs : List Nat) : List Nat := linkOnce s (linkOnce s (linkOnce s (linkOnce s zs)))

/-- The lag of an engine (R207). -/
def lagOf (s : State) (leng : Nat) : Nat :=
  let k := storeKey s leng
  (eng s k).cyc0 - (zone s (zoneOf leng)).tickAbs

/-- The work tick of a segment (R65, R180). -/
def workTick (s : State) (leng : Nat) (g : Seg) : BitVec 64 :=
  match g with
  | .rt => ((eng s (storeKey s leng)).rt).frame
  | .bg => ((eng s (storeKey s leng)).bg).stepNo

/-- HCTL.ENABLE of a page (R399): at 0 the block starts no work. [log 61, DEDUCED] -/
def enabled (s : State) (p : Nat) : Bool := decide (fget s p 0x08 0 1 = 1)

/-- MOD.STATE.PSTATE. -/
def pstate (s : State) : Nat := fget s pgMod 0x40 0 3

/-- The module runs frames (Ready or Active). -/
def running (s : State) : Bool := decide (pstate s = 2) || decide (pstate s = 3)

/-- Put PSTATE. -/
def setPstate (v : Nat) (s : State) : State := fset pgMod 0x40 0 3 v s

/-- The Vilri link is UP. -/
def vilriUp (s : State) : Bool := decide (fget s pgVilri 0x44 0 2 = 2)

/-- This module's number (R343). -/
def modNum (s : State) : Nat := fget s (pgAbf 0) 0x100 0 5

/-! ### Memories -/

/-- The line at a byte address of a memory whose unlisted bytes read 0. -/
def readLineAt (m : Tab Byte) (a : Nat) : Line :=
  lineOfBytes ((List.range 64).map fun i => tabGet (fun _ => 0) m (a + i))

/-- Write bytes from an address on. -/
def writeBytesAt (m : Tab Byte) (a : Nat) : List Byte → Tab Byte
  | [] => m
  | b :: t => writeBytesAt (tabSet (fun _ => 0) m a b) (a + 1) t

/-- Write a line at a byte address. -/
def writeLineAt (m : Tab Byte) (a : Nat) (l : Line) : Tab Byte := writeBytesAt m a (bytesOfLine l)

/-- A Stacks offset is populated (R314). -/
def populated (off : Nat) : Bool := decide (off < 2 ^ 40) && decide (off % 2 ^ 38 < 0x3070000000)

/-- The bytes of a Stacks range. -/
def stkBytes (s : State) (off n : Nat) : List Byte := (List.range n).map fun i => tabGet (fun _ => 0) s.dram (off + i)

/-- The mark of a line that read uncorrectable while its POISON = 1 waits for a host position (R319); no outcome mark uses the bit. -/
def mkPending : Mark := 0x01

/-- The marks that a reader of a Stacks line sees: a line that waits for its POISON bit reads uncorrectable as well (R318). -/
def readMark (m : Mark) : Mark := if m &&& mkPending ≠ 0 then (m ||| mkPoison) &&& ~~~mkPending else m

/-- A Stacks line by offset, with its marks. [log 65, DEDUCED] -/
def stkRead (s : State) (off : Nat) : Line × Mark :=
  (readLineAt s.dram off, readMark (tabGet (fun _ => 0) s.smark (off / 64)))

/-- Write a Stacks line with its marks (R242: an unpoisoned write clears the mark; R319: it drops a poison write that waits). -/
def stkWrite (off : Nat) (l : Line) (m : Mark) (s : State) : State :=
  { s with dram := writeLineAt s.dram off l, smark := tabSet (fun _ => 0) s.smark (off / 64) (m &&& ~~~mkPending) }

/-- Write a byte string into the Stacks as whole lines without marks. -/
def stkPut (off : Nat) (bs : List Byte) (s : State) : State :=
  { s with
    dram := writeBytesAt s.dram off bs,
    smark := (List.range ((bs.length + 63) / 64)).foldl (fun t i => tabSet (fun _ => 0) t (off / 64 + i) 0) s.smark }

/-- A Carrel line of the engine at key `k` with its marks. -/
def cRead (s : State) (k line : Nat) : Line × Mark :=
  let e := eng s k
  (readLineAt e.carrel (64 * line), tabGet (fun _ => 0) e.cmark line)

/-- Write a Carrel line, no window checked. -/
def cPut (k line : Nat) (l : Line) (m : Mark) (s : State) : State :=
  engMod k (fun e => { e with carrel := writeLineAt e.carrel (64 * line) l, cmark := tabSet (fun _ => 0) e.cmark line m }) s

/-- A Carrel line as a read in cycle `t` sees it: what an instruction writes in a later cycle, or in this one, is not there yet
(Table 4-8, Table 6-4). [log 90, DEDUCED] -/
def cReadAt (s : State) (k line t : Nat) : Line × Mark :=
  match (eng s k).olds.find? fun o => decide (o.line = line) && decide (t ≤ o.cyc) with
  | some o => (o.was, o.mark)
  | none => cRead s k line

/-- Add marks to a Carrel line, its data kept. -/
def cMark (k line : Nat) (m : Mark) (s : State) : State :=
  engMod k (fun e => { e with cmark := tabMod (fun _ => 0) e.cmark line (fun o => o ||| m) }) s

/-! ### Events, alerts, Errata -/

/-- Queue an EVENT (R380, R384): EVSEQ counts it; beyond 256 waiting it is lost and counted. [log 71, DEDUCED] -/
def queueEvent (code page : Nat) (bits : Word) (detail : List Nat) (s : State) : State :=
  let seq := rget64 s pgVilri 0x88
  let s := rset64 pgVilri 0x88 (seq + 1) s
  let m : EventMsg := { seq := seq, code := BitVec.ofNat 16 code, page := BitVec.ofNat 16 page, bits := bits,
                        tick := s.tick, detail := detail }
  if s.evq.length < 256 then { s with evq := s.evq ++ [m] }
  else
    finc pgVilri 0x7C 0 32 1
      { s with vil := { s.vil with evtLostFrom := some (s.vil.evtLostFrom.getD seq), evtLostN := s.vil.evtLostN + 1, evtLostTo := seq + 1 } }

/-- Queue an EVENT that no page reports. -/
def sendEvent (code : Nat) (detail : List Nat) (s : State) : State := queueEvent code 0xFFFF 0 detail s

/-- A hardware event of a page (R391). -/
def raise (p bit : Nat) (s : State) : State :=
  let old := rget s p 0x10
  if old.getLsbD bit then s
  else
    let s := rset p 0x10 (old ||| BitVec.ofNat 32 (2 ^ bit)) s
    if (rget s p 0x14).getLsbD bit ∨ fget s p 0x18 0 1 = 0 then s else queueEvent 1 p (rget s p 0x10) [] s

/-- ERR_INFO keeps the first error since it was cleared (R392) and raises ERRWR. -/
def errInfo (p code off src detail : Nat) (s : State) : State :=
  let s := if rget s p 0x1C = 0 then
      rset p 0x1C (BitVec.ofNat 32 (code + off * 2 ^ 8 + src * 2 ^ 20 + detail * 2 ^ 24)) s
    else s
  raise p 31 s

/-- The Registrar's alert with a cause bit (Table 15-5). -/
def alertCause (bit : Nat) (s : State) : State :=
  rset pgMod 0x48 (rget s pgMod 0x48 ||| BitVec.ofNat 32 (2 ^ bit + 1)) s

/-- What an Errata record says beyond its tick and number; fields that do not apply are all ones (Table 9-10). -/
structure Er where
  ty : Nat
  sev : Nat
  level : Nat := 0
  data : Bool := false
  zq : Nat := 0xFF
  die : Nat := 0xFF
  peng : Nat := 0xFF
  block : Nat := 0xFF
  leng : Nat := 0xFF
  job : Nat := 0xFF
  wt : BitVec 64 := 0xFFFFFFFFFFFFFFFF
  detail : List Nat := []

/-- The 64 bytes of an Errata record (Table 9-10); the DETAIL of TYPE 0x0107 is the message's bytes 0 to 27 (Table 9-11). -/
def errLine (r : ErrRec) : Line :=
  let b (n : Nat) : List Byte := [BitVec.ofNat 8 n]
  let body := leBytes 8 r.tick.toNat ++ leBytes 4 r.seq.toNat ++ leBytes 2 r.ty.toNat ++ [r.sev] ++
    b (r.level.toNat + b2n r.data * 8) ++ [r.zq, r.die, r.peng, r.block, r.leng, r.job, 0, 0] ++
    leBytes 8 r.wt.toNat ++
    leBytes 28 (if r.ty = 0x0107 then r.detail.headD 0 else (Config.errDetail r.ty.toNat r.detail).toNat)
  lineOfBytes (body ++ leBytes 4 (crc32 body).toNat)

/-- The Errata ring takes records: ring writing on, and the Stacks running (R253, R274, R411, R433). -/
def ringOpen (s : State) : Bool :=
  (running s || (decide (pstate s = 1) && s.pwr.stacksUp) || (s.pwr.waking && decide (60 ≤ s.pwr.stage))) &&
    decide (fget s pgErr 0x48 0 1 = 1) && enabled s pgErr

/-- Copy one record into the ring (R253, R411). -/
def ringWrite (r : ErrRec) (s : State) : State :=
  let i := fget s pgErr 0x50 0 16
  let s := stkWrite ((rget64 s pgErr 0x40).toNat + 64 * i) (errLine r) 0 s
  let s := if 65536 ≤ s.pwr.ringed then raise pgErr 1 (finc pgErr 0x54 0 32 1 s) else s
  fset pgErr 0x50 0 16 (i + 1) { s with pwr := { s.pwr with ringed := s.pwr.ringed + 1, seen := r.seq.toNat + 1 } }

/-- Copy the records that wait in H0's buffer into the ring; those made while ring writing was off stay out of it (R411). -/
def ringFlush (s : State) : State :=
  if ringOpen s then
    foldS ((s.errs.filter fun r => decide (s.pwr.seen ≤ r.seq.toNat) && !r.noRing).reverse) ringWrite s
  else s

/-- Write an Errata record (R253, R254, R411). [log 57, DEDUCED] -/
def errata (x : Er) (s : State) : State :=
  let n := fget s pgErr 0x4C 0 32
  let r : ErrRec :=
    { tick := s.tick, seq := BitVec.ofNat 32 n, ty := BitVec.ofNat 16 x.ty, sev := BitVec.ofNat 8 x.sev,
      level := BitVec.ofNat 3 x.level, data := x.data, zq := BitVec.ofNat 8 x.zq, die := BitVec.ofNat 8 x.die,
      peng := BitVec.ofNat 8 x.peng, block := BitVec.ofNat 8 x.block, leng := BitVec.ofNat 8 x.leng,
      job := BitVec.ofNat 8 x.job, wt := x.wt, detail := x.detail, noRing := decide (fget s pgErr 0x48 0 1 = 0) }
  let full := decide (64 ≤ s.errs.length)
  let oldest := n - 64
  let s := if full && decide (s.pwr.seen ≤ oldest) && !ringOpen s && (s.errs.getLast?.any fun o => !o.noRing) then
      raise pgErr 2 (finc pgErr 0x58 0 32 1 { s with pwr := { s.pwr with seen := oldest + 1 } })
    else s
  let s := { s with errs := r :: s.errs.take 63 }
  let s := fset pgErr 0x4C 0 32 (n + 1) s
  let s := fset pgErr 0x5C 0 3 (max (fget s pgErr 0x5C 0 3) x.sev) s
  let s := finc pgErr 0x5C 16 16 1 s
  let s := whenS (decide (fget s pgErr 0x60 0 3 ≤ x.sev)) (raise pgErr 0) s
  ringFlush s

/-- An Errata record of a logical engine. [log 57, DEDUCED] -/
def errEng (ty sev leng : Nat) (g : Seg) (block : Nat) (detail : List Nat) (s : State) : State :=
  let k := storeKey s leng
  let s := match ownerOf s leng g with
    | some j => if [0x0101, 0x0103, 0x0105, 0x0106].contains ty then jobMod j (fun b => { b with faults := b.faults + 1 }) s else s
    | none => s
  errata { ty := ty, sev := sev, level := 4, zq := zoneOf leng, die := leng / 4, peng := k % 5, block := block,
           leng := leng, job := (ownerOf s leng g).getD 0xFF, wt := workTick s leng g, detail := detail } s

/-- An Errata record of a zone. [log 57, DEDUCED] -/
def errZone (ty sev z : Nat) (detail : List Nat) (s : State) : State :=
  errata { ty := ty, sev := sev, level := 1, zq := z, block := 6, detail := detail } s

/-- A record of the data hierarchy at a hub's quadrant (R17): the quadrant and its hub die. -/
def hubEr (h : Nat) (ty sev block : Nat) : Er :=
  { ty := ty, sev := sev, level := 2, data := true, zq := h, die := 0x10 + h, block := block }

/-- A record of the control hierarchy at a hub die (R17): hub dies belong to no zone (R16). -/
def hubDieEr (h : Nat) (ty sev block : Nat) : Er := { ty := ty, sev := sev, level := 3, die := 0x10 + h, block := block }

/-- Enter Fault-hold with a cause (R413, Table 15-5): no job runs and no tick processes a frame (R414). -/
def faultHold (cause : Nat) (s : State) : State :=
  if pstate s = 5 then s
  else
    let s := setPstate 5 (fset pgMod 0x40 4 4 cause s)
    { s with pwr := { s.pwr with waking := false, stbyReq := false } }

/-- A capacity record, its EVENT and the alert (R249). [log 57, DEDUCED; 86, DEDUCED] -/
def capacity (kind sev : Nat) (x : Er) (s : State) : State :=
  let n := activeCount s
  let s := errata { x with ty := 0x0402, sev := sev, detail := [kind, n] } s
  let s := raise pgMod 4 s
  alertCause 8 (sendEvent 5 [kind, n] s)

/-- A spare-substitution record (R248). [log 57, DEDUCED; 86, DEDUCED] -/
def substitution (x : Er) (kind logical old new : Nat) (s : State) : State :=
  errata { x with ty := 0x0401, sev := 1, detail := [kind, logical, old, new] } s

/-! ### SCHED_FAULT and failures -/

/-- SCHED_FAULT (R175): the SEQ page keeps the first, with its cycle, and counts every one; the work tick's first cause and
count are kept for its summary record. [log 40, DEDUCED] -/
def schedFault (k : Nat) (g : Seg) (pc cause cyc : Nat) (arrival : Bool) (s : State) : State :=
  let p := pgEng k 0
  let gb := if g = .bg then 1 else 0
  let s := if fget s p 0x60 31 1 = 0 then
      rset p 0x64 (BitVec.ofNat 32 (cyc - (eng s k).cyc0))
        (rset p 0x60 (BitVec.ofNat 32 (pc % 2 ^ 16 + cause * 2 ^ 16 + gb * 2 ^ 24 + b2n arrival * 2 ^ 25 + 2 ^ 31)) s)
    else s
  let s := finc p 0x68 0 32 1 s
  let s := segMod k g (fun x => { x with sfFirst := some (x.sfFirst.getD (cause, pc)), sfCount := x.sfCount + 1 }) s
  raise p 0 s

/-- The hub of a logical engine's quadrant. -/
def hubOfEng (l : Nat) : Nat := 2 * (l / 4 / 8) + (l / 4 % 4) / 2

/-- MOVE_LATE at an engine (R79, R330): TYPE 0x0303 with PC, declared and actual cycles, at the quadrant of the mover path (R17). -/
def moveLate (leng : Nat) (g : Seg) (pc due cyc : Nat) (s : State) : State :=
  errata { hubEr (hubOfEng leng) 0x0303 2 0x12 with
    leng := leng, job := (ownerOf s leng g).getD 0xFF, wt := workTick s leng g, detail := [pc, due, cyc] } s

/-- The shelfmark of a Carrel line of a logical engine (Table 13-4). -/
def lineShelf (s : State) (leng line : Nat) : Nat := modNum s * 2 ^ 43 + 2 ^ 42 + leng * 2 ^ 32 + 64 * line

/-- The shelfmark of a bank element of a logical engine whose half holds `per` elements a line (Table 13-4, R353). -/
def elemShelf (s : State) (leng : Nat) (h : Bool) (per key : Nat) : Nat :=
  modNum s * 2 ^ 43 + 2 ^ 42 + (0x40 + leng) * 2 ^ 32 + b2n h * 0x40000 + key * (64 / per)

/-- The first operand, of (operand, line, count), that reads a poisoned Carrel line, with the line's shelfmark; else `rest`. The origin a
poison record names is where the poisoned operand was read, not where the poison was first set. [log 85, DESIGN CHOICE] -/
def poisonFrom (s : State) (leng k : Nat) (l : List (Nat × Nat × Nat)) (rest : Nat × Option Nat) : Nat × Option Nat :=
  match l.findSome? fun x => ((List.range x.2.2).find? fun i => decide ((cRead s k (x.2.1 + i)).2 &&& mkPoison ≠ 0)).map
      fun i => (x.1, some (lineShelf s leng (x.2.1 + i))) with
  | some r => r
  | none => rest

/-- A job consumes poisoned data (R244): it is reset at the next tick, with the poison record and EVENT then, which name the operand
and its origin `o`. [log 85, DESIGN CHOICE] -/
def consume (leng : Nat) (g : Seg) (pc : Nat) (o : Nat × Option Nat) (m : Mark) (s : State) : State :=
  if m &&& mkPoison = 0 then s
  else
    match ownerOf s leng g with
    | none => s
    | some j =>
      if (job s j).consumed.isSome then s
      else
        let wt := workTick s leng g
        jobMod j (fun b =>
          { b with consumed := some { leng := leng, pc := pc, operand := o.1, origin := o.2, wt := wt } }) s

/-- The status byte of an item whose line carries marks `m` (Table 8-3, R213). -/
def statusByte (m : Mark) : Byte :=
  let main : Byte :=
    if m &&& mkPoison ≠ 0 then mkPoison else if m &&& mkFailed ≠ 0 then mkFailed
    else if m &&& mkSkew ≠ 0 then mkSkew else if m &&& mkRetracted ≠ 0 then mkRetracted else 1
  main ||| (m &&& (mkRecomputed ||| mkReplayed ||| mkOverrun))

/-- The line lies in the window. -/
def HoldOpen.covers (h : HoldOpen) (line : Nat) : Bool := decide (h.line ≤ line) && decide (line < h.line + h.nlines)

/-- A PASS of segment `g` at `pc` in loop iteration `it` closes the window (R197), which was opened in the same or an outer iteration
of the loops around that PASS. -/
def HoldOpen.closedBy (h : HoldOpen) (g : Seg) (pc : Nat) (it : List Nat) : Bool :=
  decide (h.seg = g) && decide (h.closePc = pc) && (h.iter.isPrefixOf it || it.isPrefixOf h.iter)

/-- The last cycle of a window whose PASS has issued: that PASS's commit. -/
def Eng.holdEnd (e : Eng) (h : HoldOpen) : Option Nat :=
  (e.arr.flights.find? fun f => h.closedBy f.seg f.pc f.iter).map (·.commit)

/-- The window that holds a Carrel line in cycle `t` (R197): one that is open and whose PASS has not committed before. -/
def heldAt (e : Eng) (line t : Nat) : Option HoldOpen :=
  e.openH.find? fun h => h.covers line && (match e.holdEnd h with
    | some c => decide (t ≤ c)
    | none => true)

/-- A window of segment `g` turns a write of a line away (R197): SCHED_FAULT 0x09 against the segment that owns the window; a block
of that instruction whose record is still due has failed (R175). -/
def turnAway (k line : Nat) (g : Seg) (pc cyc : Nat) (arrival : Bool) (s : State) : State :=
  let s := engMod k (fun e =>
    { e with
      openH := e.openH.map fun x => if x.covers line then { x with blocked := x.blocked ++ [line] } else x
      recWrs := e.recWrs.map fun w =>
        if arrival = false ∧ w.pc = pc ∧ w.first ≤ line ∧ line < w.line then { w with lost := true } else w }) s
  schedFault k g (if arrival then 0 else pc) 0x09 cyc arrival s

/-- Keep what a line holds until it is written in cycle `cyc`. -/
def noteOld (k line pc cyc : Nat) (s : State) : State :=
  engMod k (fun e =>
    { e with olds := e.olds ++ [{ line := line, cyc := cyc, was := readLineAt e.carrel (64 * line),
                                  mark := tabGet (fun _ => 0) e.cmark line, pc := pc }] }) s

/-- A write into a Carrel line in cycle `cyc` by an instruction or an arriving transfer: into an open hold window it is not made
(R197). Marks of the writing segment's retracted work tick are added (R239, R240). [log 30, DEDUCED] -/
def cWrite (k line : Nat) (l : Line) (m : Mark) (pc cyc : Nat) (arrival : Bool) (s : State) : State :=
  match heldAt (eng s k) line cyc with
  | none => cPut k line l m (noteOld k line pc cyc s)
  | some h => turnAway k line h.seg pc cyc arrival s

/-- Keep a write, made after the present, of a line in an open window until that window's end is known. [log 30, DEDUCED] -/
def pendWrite (k : Nat) (w : LineW) (s : State) : State :=
  engMod k (fun e => { e with openH := e.openH.map fun x => if x.covers w.line then { x with pend := x.pend ++ [w] } else x }) s

/-- Writes kept by windows whose cycle `t` has come while the window is open are turned away. [log 30, DEDUCED] -/
def pendTo (k t : Nat) (s : State) : State :=
  foldS (((eng s k).openH).flatMap fun h => (h.pend.filter fun w => decide (w.cyc ≤ t)).map fun w => (h.seg, w))
    (fun x => turnAway k x.2.line x.1 x.2.pc x.2.cyc false)
    (engMod k (fun e => { e with openH := e.openH.map fun h => { h with pend := h.pend.filter fun w => decide (t < w.cyc) } }) s)

/-- Add a mark to consecutive lines. -/
def cMarks (k line n : Nat) (m : Mark) (s : State) : State := foldS ((List.range n).map (· + line)) (fun a => cMark k a m) s

/-! ### Numeric events -/

/-- The CAUSE code of an operation's flags (R409): INV, OVF, NAR, QOVF in that order; 1 for a NaR or NaN operand. -/
def causeOf (f : Flags) (nanOperand : Bool) : Nat :=
  if 0 < f.inv then 2 else if 0 < f.ovf then 3 else if 0 < f.nar then 4 else if 0 < f.qovf then 5
  else if nanOperand then 1 else 0

/-- Count flags on the NUMEV page (R56, R409). -/
def countFlags (k : Nat) (f : Flags) (s : State) : State :=
  let p := pgEng k 7
  foldS [(0, f.inv), (1, f.ovf), (2, f.unf), (3, f.inx), (4, f.nar), (5, f.qovf), (6, f.sat), (7, f.lift)]
    (fun x => whenS (decide (0 < x.2)) (finc p (0x68 + 4 * x.1) 0 32 x.2)) s

/-- Take counted flags back from the NUMEV page. [log 107, DESIGN CHOICE] -/
def uncountFlags (k : Nat) (f : Flags) (s : State) : State :=
  let p := pgEng k 7
  foldS [(0, f.inv), (1, f.ovf), (2, f.unf), (3, f.inx), (4, f.nar), (5, f.qovf), (6, f.sat), (7, f.lift)]
    (fun x => whenS (decide (0 < x.2)) fun s => fset p (0x68 + 4 * x.1) 0 32 (fget s p (0x68 + 4 * x.1) 0 32 - x.2) s) s

/-- Trap policy of a segment: 0 OFF, 1 RECORD, 2 TRAP (R72, Table 15-12). -/
def policy (s : State) (k : Nat) (g : Seg) : Nat := fget s (pgEng k 7) 0x40 (if g = .bg then 2 else 0) 2

/-- Fill the pass record if it is clear (R71). -/
def passRecord (k : Nat) (g : Seg) (pc cause m n kk : Nat) (idx : BitVec 20) (wt : BitVec 64) (s : State) : State :=
  let p := pgEng k 7
  if fget s p 0x44 31 1 = 1 then s
  else
    let s := rset p 0x44 (BitVec.ofNat 32 (pc % 2 ^ 16 + cause * 2 ^ 16 + (if g = .bg then 2 ^ 24 else 0) + 2 ^ 31)) s
    let s := rset p 0x48 (BitVec.ofNat 32 idx.toNat) s
    let s := rset p 0x4C (BitVec.ofNat 32 (m + n * 2 ^ 8 + kk * 2 ^ 16)) s
    raise p 0 (rset64 p 0x50 wt s)

/-- Fill the vector record if it is clear (R152). -/
def vecRecord (k : Nat) (g : Seg) (pc cause j l st : Nat) (wt : BitVec 64) (s : State) : State :=
  let p := pgEng k 7
  if fget s p 0x58 31 1 = 1 then s
  else
    let s := rset p 0x58 (BitVec.ofNat 32 (pc % 2 ^ 16 + cause * 2 ^ 16 + (if g = .bg then 2 ^ 24 else 0) + 2 ^ 31)) s
    let s := rset p 0x5C (BitVec.ofNat 32 (j + l * 2 ^ 12 + st * 2 ^ 18)) s
    raise p 1 (rset64 p 0x60 wt s)

/-- The trap of R72 on an item: counted, reported with the first-event records (R71, R152), and the work item FAILED. [log 38, DEDUCED] -/
def numTrap (k leng : Nat) (g : Seg) (s : State) : State :=
  let p := pgEng k 7
  let s := raise p 2 (finc p 0x8C 0 32 1 s)
  errEng 0x0305 2 leng g 0x27 ([0x44, 0x48, 0x4C, 0x50, 0x54, 0x58, 0x5C].map fun o => (rget s p o).toNat) s

/-- The next free value's number (the model's own counter). [log 10, DESIGN CHOICE] -/
def takeFree (s : State) : Nat × State := (s.free, { s with free := s.free + 1 })

/-! ### Fabric ports and system messages (R343, R345, R356) -/

/-- The port serving a dimension (Table 13-7, DIMMAP); 7 none. -/
def dimPort (s : State) (d : Nat) : Nat := fget s (pgAbf 0) 0x104 (3 * d) 3

/-- A port is UP. -/
def portUp (s : State) (p : Nat) : Bool := decide (p < 6) && decide (fget s (pgAbf p) 0x44 0 3 = 2)

/-- The egress port toward module `t`: that of the lowest dimension in which the numbers differ (R345). -/
def egress (s : State) (t : Nat) : Option Nat :=
  match (List.range 5).find? fun d => decide (bitsOf (Nat.xor (modNum s) t) d 1 = 1) with
  | none => none
  | some d => let p := dimPort s d
              if portUp s p then some p else none

/-- Count a discarded packet (FAB.DROP). -/
def dropPacket (s : State) : State := finc (pgAbf 0) 0x128 0 32 1 s

/-- The 32 bytes of a system message from its bytes 0-27 as a number (R356). -/
def sysBytes (v : Nat) : List Byte :=
  let body := leBytes 28 v
  body ++ leBytes 4 (crc32 body).toNat

/-- A system message of type `ty` (Table 13-2) to module `t`: it waits at the egress port for a place in the system unit (R342), and
goes no further where its dimension is lost. -/
def sendSys (t ty : Nat) (bs : List Byte) (o : Out) (s : State) : State :=
  if t = modNum s then emit o s
  else match egress s t with
    | some f => emit o (abfMod f (fun x => { x with txSys := x.txSys ++ [(ty, bs)] }) s)
    | none => s

end Sys2Proof.Machine
end

