-- ==== Sys2Proof/Machine/Sequencer.lean ====
section
/-! DEFINITION. Timed issue and the control instructions (spec/07_engine_schedules.md R171-R183, R194, R197; R247):
NOP, LOOP, ENDL, WTICK, YIELD, HALT, CHK, and the watchdogs of Table 9-8. -/

namespace Sys2Proof.Machine

/-- An instruction being issued: the state after the sequencer's own bookkeeping, the storage engine, segment, program
counter, actual issue cycle, whether it is a second instruction of its unit in the cycle (R172), and the loop levels. -/
structure Ctx where
  s : State
  k : Nat
  leng : Nat
  g : Seg
  pc : Nat
  cyc : Nat
  declared : Nat
  dup : Bool
  loops : List Loop
  wt : BitVec 64

/-- Loop indices, outermost first. -/
def iters (ls : List Loop) : List Nat := (ls.map (·.idx)).reverse

/-- Stride slot `k` of a level (R182). -/
def Loop.stride (l : Loop) : Nat → BitVec 17
  | 0 => l.d0
  | 1 => l.d1
  | 2 => l.d2
  | _ => l.d3

/-- A field advanced by the enclosing loops (R183). -/
def advance (adv : Bool) (k : Nat) (ls : List Loop) (base : Nat) : Int :=
  if adv then ls.foldl (fun a l => a + (l.idx : Int) * (l.stride k).toInt) (base : Int) else base

/-- The footprint of a segment's job on an engine holds lines `a` to `a + n - 1` (R183, SCHED_FAULT 0x08). -/
def inFoot (s : State) (leng : Nat) (g : Seg) (a : Int) (n : Nat) : Bool :=
  match ownerOf s leng g with
  | none => false
  | some j =>
    let (lo, hi) := tabGet (fun _ => (0, 98303)) (job s j).foot leng
    decide ((lo : Int) ≤ a) && decide (a + n ≤ (hi : Int) + 1) && decide (a + n ≤ 98304)

/-- Zone clock stopped. -/
def frozen (s : State) (leng : Nat) : Bool := ((zone s (zoneOf leng)).frozenAt).isSome

/-- The segment issues: its engine is present, its clock runs, the module runs frames and the segment is running. [log 83, DESIGN CHOICE] -/
def live (s : State) (leng : Nat) (g : Seg) : Bool :=
  running s && !absent s leng && !frozen s leng && decide (((eng s (storeKey s leng)).seg g).st = 1)

/-- The hold windows whose OPENPC is this word, as they open (R197). -/
def newHolds (e : Eng) (g : Seg) (pc : Nat) (ls : List Loop) : List HoldOpen :=
  ((if g = .bg then e.holdsBg else e.holdsRt).filter fun d => decide (d.openPc = pc)).map fun d =>
    { seg := g, closePc := d.closePc, iter := iters ls, line := (advance d.adv d.k ls d.line).toNat,
      nlines := d.nlines, blocked := [] }

/-- The cycles from a PASS's issue to its commit are no fewer (R94): a window whose PASS has not issued stays open that long. -/
def holdMin : Nat := 16

/-- A write of an instruction issued earlier falls into a window that opens: the line keeps what it held, and the write is turned away,
or kept where the window may end before it. [log 30, DEDUCED] -/
def undoWrite (k cyc : Nat) (g : Seg) (o : OldLine) (s : State) : State :=
  let (l, m) := cRead s k o.line
  let s := engMod k (fun e => { e with olds := e.olds.erase o }) (cPut k o.line o.was o.mark s)
  if o.cyc ≤ cyc + holdMin then turnAway k o.line g o.pc o.cyc false s
  else pendWrite k { line := o.line, cyc := o.cyc, data := l, mark := m, pc := o.pc } s

/-- The writes under way that windows opening at a word in cycle `cyc` meet, latest first. [log 30, DEDUCED] -/
def metWrites (e : Eng) (g : Seg) (pc : Nat) (ls : List Loop) (cyc : Nat) : List OldLine :=
  (e.olds.filter fun o => decide (cyc ≤ o.cyc) && !(e.openH.any fun h => h.covers o.line) &&
    (newHolds e g pc ls).any fun h => h.covers o.line).reverse

/-- Open the hold windows whose OPENPC is this word (R197). [log 30, DEDUCED] -/
def openHolds (k : Nat) (g : Seg) (pc : Nat) (ls : List Loop) (cyc : Nat) (s : State) : State :=
  foldS (metWrites (eng s k) g pc ls cyc) (undoWrite k cyc g)
    (engMod k (fun e => { e with openH := e.openH ++ newHolds e g pc ls }) s)

/-- Add a program counter to the RT segment's signature (R247). -/
def sigAdd (pc : Nat) (sig : BitVec 32) : BitVec 32 := BitVec.ofNat 32 (crcRun sig.toNat (leBytes 2 pc))

/-- The last cycle a unit issued in. -/
def lastIn (e : Eng) (u : EUnit) : Option Nat := (e.units.find? fun p => decide (p.1 = u)).map (·.2)

/-- The engine page of a unit's block, where it has one of its own. -/
def EUnit.page : EUnit → Nat
  | .array => 1
  | .vector => 2
  | .scale => 6
  | .check => 5
  | _ => 0

/-- Everything a segment has written from cycle `since` of the work tick on takes mark `m`: lines, bank elements and lane storage. -/
def markSeg (k : Nat) (g : Seg) (since : Nat) (m : Mark) (s : State) : State :=
  let sg := (eng s k).seg g
  let lines := (sg.wrote.filter fun p => decide (since ≤ p.2)).map (·.1)
  let hs := (sg.halves.filter fun p => decide (since ≤ p.2.2)).map fun p => (p.1, p.2.1)
  let s := foldS lines (fun l => cMark k l m) s
  let put (h : Bool) (s : State) : State := arrMod k (fun a => a.halfMod h (fun x =>
    { x with elems := x.elems.map fun p => if hs.contains (h, p.1 / 64) then (p.1, { p.2 with mark := p.2.mark ||| m }) else p })) s
  let s := put true (put false s)
  let mine (key per : Nat) : Bool := if g = .rt then decide (key < per) else decide (per ≤ key)
  vecMod k (fun v =>
    { v with
      vr := v.vr.map fun p => if mine p.1 512 ∧ since < p.2.ready then (p.1, { p.2 with mark := p.2.mark ||| m }) else p
      lq := v.lq.map fun p => if mine p.1 128 ∧ since < p.2.ready then (p.1, { p.2 with mark := p.2.mark ||| m }) else p
      masks := v.masks.map fun p => if mine p.1 2 ∧ since < p.2.ready then (p.1, { p.2 with mark := p.2.mark ||| m }) else p
      sk := v.sk.map fun p => if mine p.1 64 ∧ since < p.2.ready then (p.1, { p.2 with mark := p.2.mark ||| m }) else p }) s

/-- The work ticks that ended since cycle `c` on an engine, of either segment. [log 94, DEDUCED] -/
def endedSince (e : Eng) (c : Nat) : List PastWork :=
  ((e.rt.past.toList ++ e.rt.older) ++ (e.bg.past.toList ++ e.bg.older)).filter fun q => decide (c < q.upto)

/-- What a segment wrote in an earlier work tick, and nothing has overwritten since, takes mark `m` (R240). [log 94, DEDUCED] -/
def markPast (k : Nat) (g : Seg) (p : PastWork) (m : Mark) (s : State) : State :=
  let later := endedSince (eng s k) p.upto
  let now := (eng s k).rt.wrote ++ (eng s k).bg.wrote ++ later.flatMap (·.wrote)
  let new := (eng s k).rt.halves ++ (eng s k).bg.halves ++ later.flatMap (·.halves)
  let lines := (p.wrote.map (·.1)).filter fun l => !(now.any fun x => decide (x.1 = l))
  let hs := (p.halves.map fun x => (x.1, x.2.1)).filter fun h => !(new.any fun x => decide ((x.1, x.2.1) = h))
  let s := foldS lines (fun l => cMark k l m) s
  let put (h : Bool) (s : State) : State := arrMod k (fun a => a.halfMod h (fun x =>
    { x with elems := x.elems.map fun p => if hs.contains (h, p.1 / 64) then (p.1, { p.2 with mark := p.2.mark ||| m }) else p })) s
  let s := put true (put false s)
  let mine (key per ready : Nat) : Bool :=
    (if g = .rt then decide (key < per) else decide (per ≤ key)) && decide (p.since < ready) && decide (ready ≤ p.upto)
  vecMod k (fun v =>
    { v with
      vr := v.vr.map fun p => if mine p.1 512 p.2.ready then (p.1, { p.2 with mark := p.2.mark ||| m }) else p
      lq := v.lq.map fun p => if mine p.1 128 p.2.ready then (p.1, { p.2 with mark := p.2.mark ||| m }) else p
      masks := v.masks.map fun p => if mine p.1 2 p.2.ready then (p.1, { p.2 with mark := p.2.mark ||| m }) else p
      sk := v.sk.map fun p => if mine p.1 64 p.2.ready then (p.1, { p.2 with mark := p.2.mark ||| m }) else p }) s

/-- The frame of an RT job at an engine's work tick takes marks and event bits. -/
def frameMod (j : Nat) (fr : BitVec 64) (f : FrameSt → FrameSt) (s : State) : State :=
  jobMod j (fun b => { b with frames := b.frames.map fun x => if x.frame = fr then f x else x }) s

/-- A sequencer fault of a segment (R246): the monitor is kept on the SEQ page, the engine is contained at the next tick, and every
item of every job on the engine in the work tick is FAILED (R245): the RT job's frame, and what the BG job writes in its step. An
uncorrectable code-store error resets the slots of those jobs as well (R247). The cycle of a monitor whose moment no command gives
is a free value. [log 17, DESIGN CHOICE] -/
def seqFault (leng : Nat) (g : Seg) (monitor : Nat) (cyc : Option Nat) (s : State) : State :=
  let k := storeKey s leng
  let (fr, s) := takeFree s
  let at' := match cyc with
    | some c => c - (eng s k).cyc0
    | none => (Config.openWord fr).toNat
  let p := pgEng k 0
  let pc := ((eng s k).seg g).pc
  let s := rset p 0x78 (0x80000000#32 ||| BitVec.ofNat 32 monitor) s
  let s := raise p 1 s
  let s := errEng 0x0301 (if monitor = 1 then 3 else 2) leng g 0x20 [monitor, pc, at'] s
  let s := match ownerOf s leng .rt with
    | some j => frameMod j ((eng s k).rt).frame (fun f => { f with marks := f.marks ||| mkFailed }) s
    | none => s
  let s := whenS (ownerOf s leng .bg).isSome
    (fun s => segMod k .bg (fun x => { x with failed := true }) (markSeg k .bg ((eng s k).bg).since mkFailed s)) s
  let s := whenS (decide (monitor = 1)) (foldS (List.range 4) (fun j => jobMod j (fun b =>
    if b.bound && b.uses leng then { b with resetReq := true } else b))) s
  engMod k (fun e => { e with faultDue := true }) s

/-- A corrected error of an engine's block, counted for the correction record of the tick (R253). -/
def correction (k block addr : Nat) (s : State) : State :=
  engMod k (fun e =>
    let n := match e.ce.find? fun x => decide (x.1 = block) with
      | some x => x.2.1
      | none => 0
    { e with ce := (block, n + 1, addr) :: e.ce.filter fun x => decide (x.1 ≠ block) }) s

/-- A stored bit error takes its consequence of Table 9-1 as the instruction issues: a Carrel line whose word cannot be corrected is
poisoned, its data a free line; a lane value is FAILED; a word of the code store that cannot be corrected, and the sequencer's own
state, are sequencer faults (Table 9-8). An SFU's error waits for the outputs that use it. [log 95, DESIGN CHOICE] -/
def upset (k leng : Nat) (g : Seg) (pc cyc : Nat) (u : Upset) (s : State) : State :=
  match u with
  | .carrelSingle l => correction k 0x24 l.toNat (finc (pgEng k 4) 0x40 0 32 1 s)
  | .carrelDouble l =>
    let (f, s) := takeFree s
    let s := rset (pgEng k 4) 0x48 (BitVec.ofNat 32 l.toNat) (finc (pgEng k 4) 0x44 0 32 1 s)
    let s := cPut k l.toNat (Config.openLine f) ((cRead s k l.toNat).2 ||| mkPoison) s
    errata { ty := 0x0201, sev := 2, level := 5, data := true, zq := hubOfEng leng, die := leng / 4, peng := k % 5, block := 0x24,
             leng := leng, detail := [1, l.toNat] } s
  | .laneReg r l =>
    vecMod k (fun v => { v with vr := tabMod (fun _ => {}) v.vr (64 * r.toNat + l.toNat) fun y => { y with mark := y.mark ||| mkFailed } })
      (finc (pgEng k 2) 0x40 0 32 1 s)
  | .laneQuire q l =>
    vecMod k (fun v => { v with lq := tabMod (fun _ => {}) v.lq (64 * q.toNat + l.toNat) fun y => { y with mark := y.mark ||| mkFailed } })
      (finc (pgEng k 2) 0x40 0 32 1 s)
  | .sfu _ _ => s
  | .codeSingle => correction k 0x20 pc (raise (pgEng k 0) 2 (finc (pgEng k 0) 0x74 0 16 1 s))
  | .codeDouble => seqFault leng g 1 (some cyc) (fset (pgEng k 0) 0x74 16 1 1 s)
  | .seqState => seqFault leng g 2 (some cyc) s

/-- The instruction issues before its segment stops at a pass boundary (R27). [log 47, DEDUCED] -/
def SegSt.goesOn (x : SegSt) (delay rel : Nat) : Bool := x.stopAt.all fun t => decide (max (x.last + delay) rel < t)

/-- Issue an instruction of unit `u` at its declared cycle, or at `rel` where it is held until later (R171-R173). None
where the segment does not issue. The bit errors it meets come first. [log 83, DESIGN CHOICE] -/
def issue (u : EUnit) (rel : Nat) (h : IssueHdr) (s : State) : Option Ctx :=
  let leng := h.leng.toNat
  if live s leng h.seg && enabled s (pgEng (execKey s leng) u.page) && ((eng s (storeKey s leng)).seg h.seg).goesOn h.delay.toNat rel then
    let k := storeKey s leng
    let e := eng s k
    let sg := e.seg h.seg
    let declared := sg.last + h.delay.toNat
    let cyc := max declared rel
    let dup := decide (lastIn e u = some cyc)
    let s1 := engMod k (fun e => { e with units := (u, cyc) :: (e.units.filter (fun p => decide (p.1 ≠ u))) }) s
    let s2 := segMod k h.seg (fun x =>
      { x with pc := sg.pc + 1, last := cyc, sig := if h.seg = .rt then sigAdd sg.pc x.sig else x.sig }) s1
    let s3 := openHolds k h.seg sg.pc sg.loops cyc s2
    some { s := foldS h.upsets (upset k leng h.seg sg.pc cyc) s3, k := k, leng := leng, g := h.seg, pc := sg.pc, cyc := cyc, declared := declared, dup := dup,
           loops := sg.loops, wt := workTick s leng h.seg }
  else none

/-- Run the rest of an instruction, or leave the state where it does not issue. -/
def issued (u : EUnit) (rel : Nat) (h : IssueHdr) (s : State) (f : Ctx → State) : State :=
  match issue u rel h s with
  | none => s
  | some c => f c

/-- SCHED_FAULT of the instruction in `c`. -/
def Ctx.fault (c : Ctx) (cause : Nat) (s : State) : State := schedFault c.k c.g c.pc cause c.cyc false s

/-- The instruction's unit is busy to the end of cycle `t` (for the segment hold, R177). [log 119, DEDUCED] -/
def busyTo (k : Nat) (g : Seg) (t : Nat) (s : State) : State := segMod k g (fun x => { x with busyTo := max x.busyTo t }) s

/-- Marks every output of the segment takes: RETRACTED in a retracted work tick (R239), FAILED in one with a sequencer fault (R245). -/
def segMark (s : State) (k : Nat) (g : Seg) : Mark :=
  (if ((eng s k).seg g).retracted then mkRetracted else 0) ||| (if ((eng s k).seg g).failed then mkFailed else 0)

/-- Marks on the lines of an operand that lie in the footprint. -/
def markFoot (c : Ctx) (base : Int) (n : Nat) (m : Mark) (s : State) : State :=
  foldS (List.range n) (fun i => whenS (inFoot s c.leng c.g (base + i) 1) (cMark c.k (base + i).toNat m)) s

/-- Remember lines the segment wrote in the work tick, with their write cycles (R239). -/
def noteLines (c : Ctx) (line n : Nat) (wc : Nat → Nat) (s : State) : State :=
  segMod c.k c.g (fun x => { x with wrote := x.wrote ++ (List.range n).map fun i => (line + i, wc i) }) s

/-- The first cycle whose lines something under way at cycle `t` may still have to know: the loaded tile, the passes in flight and the
running drains read theirs in cycles after their issue (R94, R95, R102). -/
def Eng.oldest (e : Eng) (t : Nat) : Nat :=
  let l := (if e.arr.tile.valid then e.arr.lds.toList else []) ++ (e.arr.flights.map fun f => min f.cyc f.tileAt) ++
    ((e.arr.reads.filter fun d => decide (t ≤ d.done)).map (·.issue))
  l.foldl min t

/-- Keep what consecutive lines hold until their write cycles; what was written before all that is under way is forgotten. -/
def keepOld (c : Ctx) (line n : Nat) (wc : Nat → Nat) (s : State) : State :=
  let l := (List.range n).map fun i =>
    ({ line := line + i, cyc := wc i, was := (cRead s c.k (line + i)).1, mark := (cRead s c.k (line + i)).2,
       pc := c.pc } : OldLine)
  engMod c.k (fun e => { e with olds := e.olds.filter (fun o => decide (e.oldest c.cyc ≤ o.cyc)) ++ l }) s

/-- An instruction of `c` writes a line in cycle `t`: where the window that holds the line may end before, the write is kept. -/
def Ctx.writeLine (c : Ctx) (line : Nat) (l : Line) (m : Mark) (t : Nat) (s : State) : State :=
  match heldAt (eng s c.k) line t with
  | none => cPut c.k line l m s
  | some h =>
    if ((eng s c.k).holdEnd h).isNone ∧ c.cyc + holdMin < t then pendWrite c.k { line := line, cyc := t, data := l, mark := m, pc := c.pc } s
    else turnAway c.k line h.seg c.pc t false s

/-- An instruction of `c` writes consecutive lines, line `i` in cycle `wc i`. [log 30, DEDUCED] -/
def Ctx.writeLines (c : Ctx) (line : Nat) (ls : List (Line × Mark)) (wc : Nat → Nat) (s : State) : State :=
  let m := segMark s c.k c.g
  noteLines c line ls.length wc (foldS ls.zipIdx (fun x => c.writeLine (line + x.2) x.1.1 (x.1.2 ||| m) (wc x.2))
    (keepOld c line ls.length wc s))

/-- A window that is still open has turned away a write of one of consecutive lines (R197). -/
def turnedAway (e : Eng) (line n : Nat) : Bool := e.openH.any fun h => h.blocked.any fun a => decide (line ≤ a) && decide (a < line + n)

/-- A pending CHK met an instruction other than its PASS (R194): SCHED_FAULT 0x0B with the CHK's program counter. -/
def revealChk (c : Ctx) (s : State) : State :=
  match ((eng s c.k).seg c.g).chk with
  | none => s
  | some p => segMod c.k c.g (fun x => { x with chk := none }) (schedFault c.k c.g p 0x0B c.cyc false s)

/-- A control instruction second in its cycle still takes effect, with SCHED_FAULT 0x01 (R172, R175). -/
def ctlDup (c : Ctx) (s : State) : State := whenS c.dup (c.fault 0x01) s

/-- NOP. -/
def doNop (h : IssueHdr) (s : State) : State := issued .control 0 h s fun c => ctlDup c c.s

/-- LOOP (R182). -/
def doLoop (h : IssueHdr) (o : LoopOp) (s : State) : State :=
  issued .control 0 h s fun c =>
    let l : Loop := { body := c.pc + 1, count := o.cntm1.toNat + 1, idx := 0, d0 := o.d0, d1 := o.d1, d2 := o.d2, d3 := o.d3 }
    ctlDup c (segMod c.k c.g (fun x => { x with loops := l :: x.loops }) c.s)

/-- ENDL (R182): the next iteration, or the loop closes. -/
def doEndl (h : IssueHdr) (s : State) : State :=
  issued .control 0 h s fun c =>
    ctlDup c (segMod c.k c.g (fun x =>
      match x.loops with
      | [] => x
      | l :: t =>
        if l.idx + 1 < l.count then { x with loops := { l with idx := l.idx + 1 } :: t, pc := l.body }
        else { x with loops := t }) c.s)

/-- CHK (R194): the next array instruction must be its PASS. -/
def doChk (h : IssueHdr) (s : State) : State :=
  issued .check 0 h s fun c =>
    let s := revealChk c c.s
    if c.dup then c.fault 0x01 s else segMod c.k c.g (fun x => { x with chk := some c.pc }) s

/-- Clock steps of the zones as the Colophon's ZSTEPS (Table 8-4). -/
def zsteps (s : State) : BitVec 16 :=
  BitVec.ofNat 16 ((List.range 4).foldl (fun a z => a + stepOf s z * 2 ^ (4 * z)) 0)

/-- Any Catalogue entry is cold (R138). -/
def anyCold (s : State) : Bool := s.cat.any fun p => decide (p.2.mode ≠ 0) && decide (0 < p.2.coldLeft)

/-- The ratio code in force for a job's next frame (R230): that of its lowest engine's CHECK page, or the value captured at the tick,
which commits at the frame's cycle 0 (R210). -/
def jobRatio (s : State) (j : Nat) : Nat :=
  match (job s j).engs with
  | [] => 3
  | l :: _ =>
    let p := pgEng (storeKey s l) 5
    match tabGet (fun _ => none) s.captured (ridx p 0x40) with
    | some w => bitsOf w.toNat 0 3
    | none => fget s p 0x40 0 3

/-- The verdict record of a finished frame of slot `j` (R212, R214, R215): NITEM items, and those of other modules' engines that
landed. [log 49, DEDUCED] -/
def vrecOf (s : State) (j : Nat) (b : Job) (f : FrameSt) : VRec :=
  { slot := j, frame := f.frame, tickNo := s.tick,
    lines := (List.range (f.items.foldl (fun n p => max n (p.1 + 1)) b.nitem)).map fun i => tabGet (fun _ => { line := 0, mark := mkFailed }) f.items i,
    marks := f.marks, tevt := f.tevt, resumed := b.resumed, trig := f.trig, colchk := f.colchk, rowchk := f.rowchk,
    mismatch := f.mismatch, ratio := f.ratio, cold := f.cold, active := f.active, zsteps := f.zsteps, stream := b.stream,
    digest := b.digest, seedId := b.seedId, gencompat := b.gencompat }

/-- The tick of a data frame's own work: the frame number plus 1, or the first tick after the wake for a trigger frame (R282). -/
def workedAt (s : State) (f : FrameSt) : BitVec 64 := if f.trig then s.pwr.trigAt else f.frame + 1

/-- Frames of an RT job whose engines have all ended, from tick frame + 2 on, leave as verdict records (R214). -/
def closeFrames (j : Nat) (s : State) : State :=
  let b := job s j
  let ended (f : FrameSt) : Bool := decide (b.engMask &&& ~~~f.done = 0) && decide (workedAt s f + 1 ≤ s.tick)
  let fin := b.frames.filter ended
  if fin.isEmpty then s
  else
    let recs := fin.zipIdx.map fun (f, i) => vrecOf s j (if i = 0 then b else { b with resumed := false }) f
    let s := { s with ready := s.ready ++ recs }
    jobMod j (fun b => { b with frames := b.frames.filter (fun f => !ended f), resumed := false }) s

/-- The SCHED_FAULT summaries that a segment owes: cause, program counter, count and work tick of each (R175). -/
def SegSt.summaries (x : SegSt) (g : Seg) : List (Nat × Nat × Nat × BitVec 64) :=
  x.sfOld ++ (x.sfFirst.map fun p => (p.1, p.2, x.sfCount, if g = .rt then x.frame else x.stepNo)).toList

/-- The work tick `wt` that a segment ends at cycle `c` (R240). -/
def SegSt.ended (x : SegSt) (wt : BitVec 64) (c : Nat) : PastWork :=
  { wt := wt, since := x.since, upto := c, wrote := x.wrote, halves := x.halves, sendLog := x.sendLog, sendOvf := x.sendOvf,
    retAll := x.retAll, retSent := x.retSent }

/-- A step advance of a BG segment at cycle `c` (R180): the pass index and the work tick's own records restart; the ended
step's SCHED_FAULTs wait for their summary (R175). -/
def SegSt.advanceStep (x : SegSt) (c : Nat) : SegSt :=
  { x with
    stepped := true, stepDue := false, stepNo := x.stepNo + 1, passIdx := 0, chkNo := 0, sendLog := [], sendOvf := false,
    since := c, wrote := [], halves := [], drained := [], retracted := false,
    retAll := false, retMsg := none, retSent := [], failed := false,
    sfOld := x.summaries .bg, sfFirst := none, sfCount := 0, past := some (x.ended x.stepNo c), older := x.past.toList ++ x.older }

/-- Clear the send log's overflow bit of a BG segment at its next work tick (Table 15-10): a step, or a new job's start. -/
def clearSlog (k : Nat) (s : State) : State :=
  match lengOf s k with
  | some l => fset (pgEng (execKey s l) 5) 0x54 17 1 0 s
  | none => s

/-- Start the BG segment of an engine at cycle `c` (R178): deferred step advances take effect first (R180). -/
def startBg (k c : Nat) (s : State) : State :=
  let x := (eng s k).bg
  let s := segMod k .bg (fun x =>
    if x.st = 3 then x
    else
      let x := { x with st := 1, last := c }
      if x.stepDue then x.advanceStep c else x) s
  whenS ((x.stepDue && decide (x.st ≠ 3)) || decide (x.st = 0)) (clearSlog k) s

/-- The BG segment of an engine may start in this frame: a BG job is bound and running. [log 45, DEDUCED] -/
def bgReady (s : State) (leng : Nat) : Bool :=
  match ownerOf s leng .bg with
  | some j => decide ((job s j).st = 2) || decide ((job s j).st = 3)
  | none => false

/-- A segment hold that the tick found unreleased: the engine's next frame starts in the cycle after it (Table 7-1). [log 54, DEDUCED] -/
def lateFrame (c : Ctx) (s : State) : State :=
  if (eng s c.k).cyc0 < (zone s (zoneOf c.leng)).tickAbs then
    engMod c.k (fun e => { e with cyc0 := c.cyc + 1, lagged := true }) s
  else s

/-- A WTICK's slack `v` of a data frame (Table 10-1): the least among its engines counts once all of them have ended. -/
def noteSlack (j : Nat) (fr : BitVec 64) (v : Int) (s : State) : State :=
  let s := frameMod j fr (fun f => { f with slack := some (f.slack.elim v (min v)) }) s
  let done (f : FrameSt) : Bool := decide (f.frame = fr) && decide ((job s j).engMask &&& ~~~f.done = 0)
  match (job s j).frames.find? done with
  | some f => jobMod j (fun b => { b with slacks := b.slacks ++ [f.slack.getD v] }) s
  | none => s

/-- Slack of a WTICK in cycle `c` (Table 10-1): F − λ − the WTICK's cycle, counted from the engine's cycle 0; `lag` is the λ its frame began
with. -/
def wtickSlack (s : State) (leng c lag : Nat) : Int :=
  (frameCycles s (zoneOf leng) : Int) - lag - ((c : Int) - ((eng s (storeKey s leng)).cyc0 : Int))

/-- WTICK (R177, R179, R209, R247). -/
def doWtick (h : IssueHdr) (s : State) : State :=
  let k := storeKey s h.leng.toNat
  issued .control (((eng s k).seg h.seg).busyTo + 1) h s fun c =>
    let s := revealChk c (ctlDup c c.s)
    match c.g with
    | .bg =>
      let s := segMod c.k .bg (fun x => { x with st := 2, quiet := 0 }) s
      lateFrame c (finc (pgEng c.k 8) 0x4C 0 32 1 s)
    | .rt =>
      let sg := (eng s c.k).rt
      let sig := BitVec.ofNat 32 (Nat.xor sg.sig.toNat 0xFFFFFFFF)
      let p := pgEng c.k 0
      let crossed := decide ((eng s c.k).cyc0 < (zone s (zoneOf c.leng)).tickAbs)
      let s := rset p 0x54 (BitVec.ofNat 32 (c.cyc - (eng s c.k).cyc0)) (rset p 0x70 sig s)
      let s := whenS (decide (rget s p 0x6C ≠ sig)) (seqFault c.leng .rt 3 (some c.cyc)) s
      let s := segMod c.k .rt (fun x => { x with st := 2 }) s
      let s := match ownerOf s c.leng .rt with
        | some j => closeFrames j (noteSlack j sg.frame (wtickSlack s c.leng c.cyc sg.lag)
            (frameMod j sg.frame (fun f => { f with done := f.done ||| BitVec.ofNat 64 (2 ^ c.leng) }) s))
        | none => s
      if crossed then lateFrame c s
      else whenS (bgReady s c.leng) (startBg c.k (c.cyc + 1)) s

/-- The yield line of an engine's frame, as a frame cycle (R178, R207). -/
def yieldLine (s : State) (leng : Nat) : Int :=
  let l := match ownerOf s leng .bg with
    | some j => (job s j).yreserve
    | none => 0
  (frameCycles s (zoneOf leng) : Int) - l - lagOf s leng

/-- BG work is shed (R226 step 1): CURATOR.PSTATE.SHED. -/
def shedding (s : State) : Bool := decide (fget s pgCur 0x78 0 1 = 1)

/-- A BG job sheds while one of its shares is withdrawn (R325). -/
def shareGone (s : State) (leng : Nat) : Bool :=
  match ownerOf s leng .bg with
  | some j => !(job s j).withdrawn.isEmpty
  | none => false

/-- A YIELD suspends: at or after the yield line, under shedding, or with a STEP already taken in the frame (R179, R180,
R226). -/
def yieldSuspends (s : State) (h : IssueHdr) (step : Bool) : Bool :=
  let k := storeKey s h.leng.toNat
  let sg := (eng s k).bg
  let decl : Int := ((sg.last + h.delay.toNat : Nat) : Int) - ((eng s k).cyc0 : Int)
  decide (yieldLine s h.leng.toNat ≤ decl) || shedding s || shareGone s h.leng.toNat || (step && sg.stepped)

/-- YIELD (R179, R180). A CHK that a suspending YIELD with STEP reveals counts its SCHED_FAULT in the new step. [log 114, DESIGN CHOICE] -/
def doYield (h : IssueHdr) (step : Bool) (s : State) : State :=
  let k := storeKey s h.leng.toNat
  let susp := yieldSuspends s h step
  issued .control (if susp then ((eng s k).bg).busyTo + 1 else 0) h s fun c =>
    let s := ctlDup c c.s
    let sg := (eng s c.k).bg
    let s := segMod c.k .bg (fun x => { x with quiet := 0 }) s
    let s := whenS step (segMod c.k .bg (fun x =>
      if x.stepped then { x with stepDue := true } else x.advanceStep c.cyc)) s
    let s := whenS (step && !sg.stepped) (clearSlog c.k) s
    if susp then
      let s := revealChk c s
      lateFrame c (finc (pgEng c.k 8) 0x4C 0 32 1 (segMod c.k .bg (fun x => { x with st := 2 }) s))
    else s

/-- HALT (R181): the segment issues nothing more on the engine; a job whose engines have all halted is finished. [log 46, DEDUCED; 84, DEDUCED] -/
def doHalt (h : IssueHdr) (s : State) : State :=
  let k := storeKey s h.leng.toNat
  issued .control (((eng s k).seg h.seg).busyTo + 1) h s fun c =>
    let s := revealChk c (ctlDup c c.s)
    let s := segMod c.k c.g (fun x => { x with st := 3, quiet := 0 }) s
    match ownerOf s c.leng c.g with
    | none => s
    | some j =>
      let bit := BitVec.ofNat 64 (2 ^ c.leng)
      let s := jobMod j (fun b => { b with halted := b.halted ||| bit }) s
      let s := whenS (decide (c.g = .rt)) (fun t =>
        closeFrames j (jobMod j (fun b => { b with frames := b.frames.map fun f => { f with done := f.done ||| bit } }) t)) s
      let b := job s j
      let s := if b.engMask &&& ~~~b.halted = 0 then
          raise pgMod 0 (sendEvent 0x000E [j, 5] (jobMod j (fun b => { b with st := 5 }) s))
        else s
      if (eng s c.k).cyc0 < (zone s (zoneOf c.leng)).tickAbs then lateFrame c s
      else whenS (decide (c.g = .rt) && bgReady s c.leng) (startBg c.k (c.cyc + 1)) s

/-- The completion monitor fires (R246). -/
def doCompletionMonitor (leng : Nat) (g : Seg) (s : State) : State :=
  if running s && !absent s leng then seqFault leng g 4 none s else s

/-- The BG watchdog: 64 consecutive frames without YIELD or WTICK (R246). -/
def doBgWatchdog (leng : Nat) (s : State) : State :=
  if running s && !absent s leng && decide (64 ≤ ((eng s (storeKey s leng)).bg).quiet) then seqFault leng .bg 5 none s else s

/-- NOP. -/
def execNop (h : IssueHdr) (s : State) : Res := .next (doNop h s)
/-- LOOP. -/
def execLoop (h : IssueHdr) (o : LoopOp) (s : State) : Res := .next (doLoop h o s)
/-- ENDL. -/
def execEndl (h : IssueHdr) (s : State) : Res := .next (doEndl h s)
/-- WTICK. -/
def execWtick (h : IssueHdr) (s : State) : Res := .next (doWtick h s)
/-- YIELD. -/
def execYield (h : IssueHdr) (step : Bool) (s : State) : Res := gate (Instr.wf (.yield h step)) (doYield h step s)
/-- HALT. -/
def execHalt (h : IssueHdr) (s : State) : Res := .next (doHalt h s)
/-- CHK. -/
def execChk (h : IssueHdr) (kind : BitVec 2) (s : State) : Res := gate (Instr.wf (.chk h kind)) (doChk h s)
/-- COMPLETION_MONITOR. -/
def execCompletionMonitor (leng : BitVec 6) (g : Seg) (s : State) : Res := .next (doCompletionMonitor leng.toNat g s)
/-- BG_WATCHDOG. -/
def execBgWatchdog (leng : BitVec 6) (s : State) : Res := .next (doBgWatchdog leng.toNat s)

end Sys2Proof.Machine
end

