-- ==== Sys2Proof/Machine/Stats.lean ====
section
/-! DEFINITION. Scale records, block statistics and the present rule (spec/05_scales_and_catalogue.md R112-R123): the
measurements of R121, the rules of R122, R123, R127 and R133, and the bytes of a record (Table 5-2). -/

namespace Sys2Proof.Machine

/-- Floor division of integers. -/
def floorDiv (a b : Int) : Int := Int.fdiv a b

/-- Round an exact rational `a / b`, `b > 0`, to an integer, ties to even. -/
def roundDiv (a : Int) (b : Nat) : Int :=
  let q := floorDiv a b
  let r := a - q * b
  if 2 * r > b ∨ (2 * r = b ∧ q % 2 = 1) then q + 1 else q

/-- Clamp to a range. -/
def clampI (lo hi x : Int) : Int := max lo (min hi x)

/-- `m * 2^e ≤ n * 2^f` exactly. -/
def leExp (m : Nat) (e : Int) (n : Nat) (f : Int) : Bool :=
  let g := min e f
  decide (m * 2 ^ (e - g).toNat ≤ n * 2 ^ (f - g).toNat)

/-- L(x) of R121 for `mag * 2^e`, mag non-zero: `256 E + floor(256 f)`. -/
def logLin (mag : Nat) (e : Int) : Int :=
  let lg := Nat.log2 mag
  256 * scaleOf mag e + ((256 * (mag - 2 ^ lg)) / 2 ^ lg : Nat)

/-- Statistics with one more measured value and the flags of its rounding (R121); `ieee` for an IEEE destination, whose
OVF and UNF count as NSAT and NUFL (R125). -/
def Stats.measure (t : Stats) (v : FVal) (fl : Flags) (ieee : Bool) (toZero : Bool) : Stats :=
  let t := { t with
    nelem := t.nelem + 1
    nsat := t.nsat + (if ieee then fl.ovf else fl.sat)
    nufl := t.nufl + (if ieee then fl.unf else if toZero then 1 else fl.lift) }
  match v with
  | .num _ m e =>
    if m = 0 then t
    else
      { t with
        nnz := t.nnz + 1
        sumlog := t.sumlog + logLin m e
        maxM := if t.maxM = 0 ∨ leExp t.maxM t.maxE m e then m else t.maxM
        maxE := if t.maxM = 0 ∨ leExp t.maxM t.maxE m e then e else t.maxE }
  | _ => { t with nnf := t.nnf + 1 }

/-- Both statistics together (R132). -/
def Stats.merge (a b : Stats) : Stats :=
  let big := decide (a.maxM = 0) || (decide (b.maxM ≠ 0) && leExp a.maxM a.maxE b.maxM b.maxE)
  { nelem := a.nelem + b.nelem, nnz := a.nnz + b.nnz, nsat := a.nsat + b.nsat, nufl := a.nufl + b.nufl,
    nnf := a.nnf + b.nnf, sumlog := a.sumlog + b.sumlog,
    maxM := if big then b.maxM else a.maxM, maxE := if big then b.maxE else a.maxE }

/-- Lmax of R122: log2(maxpos) - 4. -/
def lmaxOf : Fmt → Int
  | .p8 => 20
  | .p16 => 52
  | _ => 116

/-- The largest integer `e` with `m * 2^x * 2^e ≤ 2^l`, m non-zero. -/
def fitPow (m : Nat) (x l : Int) : Int :=
  let sc := scaleOf m x
  if m = 2 ^ Nat.log2 m then l - sc else l - sc - 1

/-- The present rule for a posit destination (R122). -/
def presentPosit (f : Fmt) (t : Stats) : Int :=
  if t.nnz = 0 then 0
  else
    let c := roundDiv t.sumlog (256 * t.nnz)
    clampI (-120) 120 (min (-c) (fitPow t.maxM t.maxE (lmaxOf f)))

/-- The largest integer `e` with `m * 2^x * 2^e ≤ k`. -/
def fitInt (m : Nat) (x : Int) (k : Nat) : Int :=
  let e0 := fitPow m x (Nat.log2 k) + 1
  if leExp m (x + e0) k 0 then e0 else e0 - 1

/-- The present rule for an integer destination (R123). -/
def presentInt (f : Fmt) (t : Stats) : Int :=
  if t.nnz = 0 then 0 else clampI (-120) 120 (fitInt t.maxM t.maxE (if f = .int4 then 7 else 127))

/-- The present rule of a STAT's destination (R124). -/
def presentAdj (f : Fmt) (t : Stats) : Int := if f.isStore then presentInt f t else presentPosit f t

/-- The correction of R127, limited so that ADJ + δ stays within range. -/
def recompDelta (f : Fmt) (t : Stats) (adj : Int) : Int :=
  clampI (-120 - adj) (120 - adj) (fitPow t.maxM t.maxE (lmaxOf f))

/-- The trigger of R126. -/
def triggers (t : Stats) (satDiv uflDiv : Nat) : Bool :=
  decide (t.nelem < t.nsat * satDiv) || decide (t.nelem < t.nufl * uflDiv)

/-- MAXMAG as an fp32 word (Table 5-2). -/
def maxWord (t : Stats) : Nat := (roundTo .fp32 (.num false t.maxM t.maxE)).1

/-- SCALE of a record: base × 2^adj as fp32 (R116). -/
def scaleWord (base : FVal) (adj : Int) : Word := BitVec.ofNat 32 (roundTo .fp32 (base.mul (.num false 1 adj)).1).1

/-- A positive normal fp32 value, as a base is (R112); another word stands for 1. [log 91, DESIGN CHOICE] -/
def baseVal (w : Word) : FVal :=
  if 0 < bitsOf w.toNat 23 9 ∧ bitsOf w.toNat 23 9 < 255 then (decodeIeee .fp32 w.toNat).1 else .num false 1 0

/-- The base of a tensor (R112): that of a recipe tensor is the image's, every other one is 1. [log 91, DESIGN CHOICE] -/
def scaleBase (b : Job) (src : BitVec 2) (lid : Nat) : FVal :=
  if src = 0 then baseVal (Config.scaleBase (leNat b.digest) lid) else .num false 1 0

/-- The base of an output record's tensor on a segment. -/
def outBase (s : State) (leng : Nat) (g : Seg) (out : OutRec) : FVal :=
  scaleBase (job s ((ownerOf s leng g).getD 0)) out.src out.lid.toNat

/-- The bytes 0 to 59 of a record (Table 5-2). -/
def ScaleRec.body (r : ScaleRec) : List Byte :=
  leBytes 2 (r.tid.toNat + r.src.toNat * 2 ^ 12) ++ leBytes 1 r.fmt.toNat ++
  leBytes 1 (b2n r.recomp + b2n r.clipped * 2 + b2n r.cold * 4 + b2n r.directive * 8 + b2n r.part * 16) ++
  leBytes 4 r.seq.toNat ++ leBytes 4 r.scale.toNat ++ [r.adj, 0, 0, 0] ++
  (if r.directive then leBytes 32 0
   else leBytes 4 r.stats.nelem ++ leBytes 4 r.stats.nnz ++ leBytes 4 r.stats.nsat ++ leBytes 4 r.stats.nufl ++
     leBytes 4 r.stats.nnf ++ leBytes 4 (maxWord r.stats) ++ leBytes 8 (BitVec.ofInt 64 r.stats.sumlog).toNat) ++
  leBytes 12 0

/-- The record line (R116). -/
def ScaleRec.line (r : ScaleRec) : Line := lineOfBytes (r.body ++ leBytes 4 (crc32 r.body).toNat)

/-- What an SCL reads of a record line (R119). -/
structure RecView where
  ok : Bool
  tid : BitVec 12
  seq : BitVec 32
  adj : Int
  cold : Bool
  directive : Bool
  src : BitVec 2

/-- Reading a record line. -/
def recOfLine (l : Line) : RecView :=
  let bs := bytesOfLine l
  let w := leNat (bs.take 2)
  let flags := (bs.getD 3 0)
  { ok := decide (leNat ((bs.drop 60).take 4) = (crc32 (bs.take 60)).toNat), tid := BitVec.ofNat 12 w,
    seq := BitVec.ofNat 32 (leNat ((bs.drop 4).take 4)), adj := (bs.getD 12 0).toInt, cold := flags.getLsbD 2,
    directive := flags.getLsbD 3, src := BitVec.ofNat 2 (w / 2 ^ 12) }

/-- The tensor of a local id in a job (Table 7-16). -/
def Job.tensor (b : Job) (lid : BitVec 12) : Option TensorE := b.tensors.find? fun t => decide (t.lid = lid)

/-- TID of a job's local id (R119, R130): the slot's TID base plus LID. [log 32, DEDUCED] -/
def tidOf (s : State) (j : Nat) (lid : BitVec 12) : BitVec 12 :=
  BitVec.ofNat 12 (fget s pgMod (0xA4 + 4 * j) 0 12 + lid.toNat)

/-- SEQ of block `b` of a tensor in work tick `t` (R117). -/
def seqOf (bpt : Nat) (t : BitVec 64) (b : Nat) : BitVec 32 :=
  if bpt = 0 then 0 else BitVec.ofNat 32 (t.toNat * bpt + b)

/-- A tag entry as cycle `t` sees it: a transfer sets its entry in the cycle after its last line lands (R118, R192). -/
def Eng.tagAt (e : Eng) (n t : Nat) : TagE :=
  match (e.tagDue.filter fun d => decide (d.2.1 = n) && decide (d.1 ≤ t)).getLast? with
  | some d => d.2.2
  | none => tabGet (fun _ => {}) e.tags n

/-- The tag table with every transfer that has landed. -/
def Eng.tagTable (e : Eng) : Tab TagE := e.tagDue.foldl (fun x d => tabSet (fun _ => {}) x d.2.1 d.2.2) e.tags

/-- A tag entry with every transfer that has landed. -/
def Eng.tagNow (e : Eng) (n : Nat) : TagE := tabGet (fun _ => {}) e.tagTable n

/-- Set a tag entry; entries 127 and 255 are never written (R186). [log 21, DEDUCED] -/
def tagSet (k n : Nat) (t : TagE) (s : State) : State :=
  if n = 127 ∨ n = 255 then s
  else engMod k (fun e =>
    { e with tags := tabSet (fun _ => {}) e.tags n t, tagDue := e.tagDue.filter fun d => decide (d.2.1 ≠ n) }) s

/-- A transfer sets a tag entry from cycle `cyc` on (R118, R192): the entries due by then are in the table. -/
def tagSetAt (k n cyc : Nat) (t : TagE) (s : State) : State :=
  if n = 127 ∨ n = 255 then s
  else engMod k (fun e =>
    { e with
      tags := (e.tagDue.filter fun d => decide (d.1 < cyc)).foldl (fun x d => tabSet (fun _ => {}) x d.2.1 d.2.2) e.tags
      tagDue := (e.tagDue.filter fun d => decide (cyc ≤ d.1)) ++ [(cyc, n, t)] }) s

/-- Make a tag entry invalid. [log 21, DEDUCED] -/
def tagClear (k n : Nat) (s : State) : State := tagSet k n { (eng s k).tagNow n with valid := false } s

/-- A pair slot. -/
def slotGet (s : State) (k n : Nat) : Slot := tabGet (fun _ => {}) (eng s k).slots n

/-- Put a pair slot. -/
def slotSet (k n : Nat) (v : Slot) (s : State) : State :=
  engMod k (fun e => { e with slots := tabSet (fun _ => {}) e.slots n v }) s

/-- Queue a statistics transfer of a job (R129). -/
def queueStat (x : StatX) (s : State) : State := { s with statQ := s.statQ ++ [x] }

/-- A tracked block that failed without a record: its statistics transfer reaches the Catalogue as a failed one (R135). -/
def statFail (leng : Nat) (g : Seg) (out : Option OutRec) (s : State) : State :=
  match ownerOf s leng g, out with
  | some j, some o => queueStat { slot := j, tid := o.tid.toNat, adj := 0, stats := {}, ok := false } s
  | _, _ => s

/-- A record write still due whose block has failed: it is not made, its tag entry is invalid, its statistics are a failed block's
(R118, R135, R175). -/
def failBlock (k : Nat) (w : RecWr) (s : State) : State :=
  let s := engMod k (fun e => { e with recWrs := e.recWrs.erase w }) s
  let s := tagClear k w.tag (cMark k w.line mkFailed s)
  match lengOf s k with
  | some l => statFail l w.seg (some { lid := 0, tid := w.record.tid, seq := 0, adj := 0, src := 0 }) s
  | none => s

/-- The Catalogue entry of a TID is cold (R137). [log 32, DEDUCED] -/
def coldTid (s : State) (tid : BitVec 12) : Bool :=
  let e := catE s tid.toNat
  decide (e.mode ≠ 0) && decide (0 < e.coldLeft)

end Sys2Proof.Machine
end

