-- ==== Sys2Proof/Machine/Array.lean ====
section
/-! DEFINITION. The matrix array (spec/04_matrix_array.md, spec/03_quire_and_accumulation.md): LDS, PASS, BAL, the
commit of a pass and the idle ramp. -/

namespace Sys2Proof.Machine

/-! ### Activity level (R104, R457) -/

/-- U of Table 4-9 by clock step code. -/
def rampU (step : Nat) : Nat := 6400 - 800 * min step 4

/-- The level `t` cycles into a BAL gap of `g` cycles entered at level `a0` (R104). [log 23, DEDUCED] -/
def balLevel (u a0 g t : Nat) : Nat :=
  if g < 2048 then 64 else max (a0 - t / 64) (64 - ((g - t) * 64) / u)

/-- The last cycle before the idle interval that follows all work issued so far, and the level in it (R457). [log 23, DEDUCED] -/
def idleFrom (u : Nat) (a : ArraySt) : Nat × Nat :=
  match a.gap with
  | some (b, g, a0) => if a.actEnd ≤ b + g then (b + g, balLevel u a0 g g) else (a.actEnd, a.actLvl)
  | none => (a.actEnd, a.actLvl)

/-- The level in cycle `t`: in a pass or the row writes of an LDS, in a gap, or idle after both (R104, R457). [log 23, DEDUCED] -/
def levelAt (u : Nat) (a : ArraySt) (t : Nat) : Nat :=
  let rest : Nat := let i := idleFrom u a; if t ≤ i.1 then i.2 else i.2 - (t - i.1) / 64
  match a.gap with
  | some (b, g, a0) =>
    if t ≤ b then a0 else if t ≤ a.actEnd then a.actLvl else if t ≤ b + g then balLevel u a0 g (t - b) else rest
  | none => rest

/-- The gap, up to cycle `t`, has moved the level by more than one step in 64 cycles (R105): where a pass that ran into it ends, or
where the level rises by two steps in 64 cycles, which a rise of U cycles does when U is below 64 times 64. [log 22, DEDUCED] -/
def gapRamp (u : Nat) (a : ArraySt) (t : Nat) : Bool :=
  match a.gap with
  | none => false
  | some (b, g, _) =>
    let e := min t (b + g)
    let lv := levelAt u a
    (decide (b < a.actEnd) && decide (a.actEnd < e) && decide (lv (min (a.actEnd + 64) e) + 1 < a.actLvl)) ||
      (decide (2048 ≤ g) && decide (u < 4096) && (List.range u).any fun i =>
        let x := b + g + i - u
        decide (b ≤ x) && decide (x + 64 ≤ e) && decide (lv x + 1 < lv (x + 64)))

/-- A PASS or LDS that issues inside a gap ends it at that cycle (R103), whether or not it faults; one that is already over leaves the
idle interval that followed it (R457). -/
def ArraySt.endGap (u cyc : Nat) (a : ArraySt) : ArraySt :=
  match a.gap with
  | none => a
  | some (b, g, _) =>
    if cyc < a.actEnd then { a with gap := none }
    else if cyc ≤ b + g then { a with gap := none, actEnd := cyc, actLvl := levelAt u a cyc }
    else { a with gap := none, actEnd := (idleFrom u a).1, actLvl := (idleFrom u a).2 }

/-- An LDS in cycle `t` raises the level to 64 by more than one step in 64 cycles (R105): from below 63, or from a 63 that itself has come
in those cycles. [log 22, DEDUCED] -/
def ldsRamp (u : Nat) (a : ArraySt) (t : Nat) : Bool :=
  decide (levelAt u a t < 63) || (decide (levelAt u a t = 63) && (List.range 64).any fun i => decide (levelAt u a (t - i) < 63))

/-- The level of an engine's array in a cycle. -/
def engLevel (s : State) (k leng t : Nat) : Nat := levelAt (rampU (stepOf s (zoneOf leng))) (eng s k).arr t

/-- A RAMP event (R105): counted on the executing engine's ARRAY page. [log 22, DEDUCED] -/
def rampEvent (leng : Nat) (s : State) : State :=
  let p := pgEng (execKey s leng) 1
  raise p 0 (finc p 0x74 0 16 1 s)

/-- The level moves of the engine's present gap up to cycle `t` that raise RAMP do so (R105). [log 22, DEDUCED] -/
def gapEvent (k leng t : Nat) (s : State) : State :=
  whenS (gapRamp (rampU (stepOf s (zoneOf leng))) (eng s k).arr t) (rampEvent leng) s

/-! ### Half tags -/

/-- The tag of the path a PASS takes (R57, Table 4-6). -/
def passTag (f : Fmt) (fast : Bool) : Tag :=
  if fast then .fast else if f.isIeee then .ieee else if f = .p8 ∨ f = .int4 then .q8 else .q16

/-- Vectors per half (Table 4-6). -/
def tagCap : Tag → Nat
  | .q16 | .fastW => 128
  | .ieeeW => 64
  | _ => 256

/-- The quire format of a tag's elements. -/
def tagQuire : Tag → Fmt
  | .q8 => .q8
  | .ieeeW => .q32
  | _ => .q16

/-- The exact value of a bank element (R74 step 1). -/
def BankVal.value (t : Tag) : BankVal → FVal
  | .quire q => q.toF (tagQuire t)
  | .run w => decodePosit 16 w.toNat
  | .acc a => a

/-- A half none of whose elements is valid. -/
def Half.invalid (h : Half) : Half := { h with valid := false, elems := h.elems.map fun p => (p.1, { p.2 with valid := false }) }

/-- Bank element `n` of vector element `v`. -/
def Half.elem (h : Half) (v n : Nat) : Elem := tabGet (fun _ => {}) h.elems (64 * v + n)

/-! ### Port claims (R88, R149) -/

/-- A claim occupies cycle `t`. -/
def Claim.has (c : Claim) (t : Nat) : Bool :=
  decide (c.lo ≤ t) && decide ((t - c.lo) / c.per < c.n) && decide ((t - c.lo) % c.per < c.len)

/-- Two claims meet on a port. -/
def Claim.clash (a b : Claim) : Bool :=
  decide (a.port = b.port) && (List.range a.n).any fun i => (List.range a.len).any fun x => b.has (a.lo + i * a.per + x)

/-- The last cycle of a claim. -/
def Claim.last (c : Claim) : Nat := c.lo + (c.n - 1) * c.per + c.len

/-- Entries that an instruction changed from `was` to `aft`, and that nothing has changed since, take back their old value,
marked. -/
def tabUndo {α : Type} [DecidableEq α] (d : Nat → α) (bad : α → α) (was aft now : Tab α) : Tab α :=
  aft.foldl (fun t p =>
    let o := tabGet d was p.1
    if p.2 = o ∨ tabGet d now p.1 ≠ p.2 then t else tabSet d t p.1 (bad o)) now

/-- The poison that an instruction consumed is taken back: its job's slot is not reset for it. [log 107, DESIGN CHOICE] -/
def uneat (k : Nat) (g : Seg) (pc : Nat) (s : State) : State :=
  (((lengOf s k).bind fun l => ownerOf s l g).map fun j => jobMod j (fun b =>
    { b with consumed := b.consumed.filter fun x => decide (x.pc ≠ pc) }) s).getD s

/-- A vector-unit instruction under way loses a port to a prevailing unit: SCHED_FAULT 0x02; its destinations keep their values and
are FAILED, its block's record is not written, and the flags it counted, the first-event record it filled, its trap and the poison it
consumed are taken back (R149, R175). The Errata record 0x0305 and the event bits it has raised by then stay. [log 107, DESIGN CHOICE] -/
def vecLose (k cyc : Nat) (p : VecRun) (s : State) : State :=
  let v := (eng s k).vec
  let later := (v.runs.dropWhile fun r => decide (r ≠ p)).drop 1
  let aft : Tab LaneVal × Tab LaneQ × Tab MaskR × Tab RowSt := match later with
    | n :: _ => (n.vr, n.lq, n.masks, n.sk)
    | [] => (v.vr, v.lq, v.masks, v.sk)
  let s := schedFault k p.seg p.pc 0x02 cyc false s
  let s := foldS p.lines (fun x => whenS (!(later.any fun r => r.lines.any fun y => decide (y.1 = x.1)))
    (cPut k x.1 x.2.1 (x.2.2 ||| mkFailed))) s
  let s := foldS ((eng s k).recWrs.filter fun w => decide (w.seg = p.seg) && decide (w.pc = p.pc) && !w.isDrain)
    (failBlock k) s
  let s := uncountFlags k p.fl s
  let s := foldS p.vrec (fun x => rset (pgEng k 7) x.1 x.2) s
  let s := whenS p.trap (fun s => fset (pgEng k 7) 0x8C 0 32 (fget s (pgEng k 7) 0x8C 0 32 - 1) s) s
  let s := whenS p.ate (uneat k p.seg p.pc) s
  vecMod k (fun v =>
    { v with
      vr := tabUndo (fun _ => {}) (fun o => { o with mark := o.mark ||| mkFailed }) p.vr aft.1 v.vr
      lq := tabUndo (fun _ => {}) (fun o => { o with mark := o.mark ||| mkFailed }) p.lq aft.2.1 v.lq
      masks := tabUndo (fun _ => {}) (fun o => { o with mark := o.mark ||| mkFailed }) p.masks aft.2.2.1 v.masks
      sk := tabUndo (fun _ => {}) (fun o => { o with mark := o.mark ||| mkFailed }) p.sk aft.2.2.2 v.sk
      runs := v.runs.filter fun r => decide (r ≠ p) }) s

/-- What loses the port of a claim that a prevailing unit takes (R88, R149). -/
def loseClaim (k cyc : Nat) (x : Claim) (s : State) : State :=
  match x.unit with
  | .vector =>
    match (eng s k).vec.runs.find? fun r => decide (r.seg = x.seg) && decide (r.pc = x.pc) && decide (r.cyc + 1 = x.lo) with
    | some p => vecLose k cyc p s
    | none => s
  | .scale => segMod k x.seg (fun g => { g with present := { g.present with bad := true } }) (schedFault k x.seg x.pc 0x02 cyc false s)
  | .check =>
    arrMod k (fun a => { a with flights := a.flights.map fun f => if f.cyc + 1 = x.lo ∧ f.seg = x.seg then { f with selected := false } else f })
      (schedFault k x.seg x.pc 0x02 cyc false s)
  | _ => s

/-- The array takes ports: other units' accesses in those cycles are not made. -/
def arrayClaims (k cyc : Nat) (cs : List Claim) (s : State) : State :=
  let hit (x : Claim) : Bool := decide (x.unit ≠ .array) && cs.any fun c => x.clash c
  let lost := (eng s k).claims.filter hit
  let s := engMod k (fun e =>
    { e with claims := cs ++ e.claims.filter (fun x => !hit x && decide (cyc ≤ x.last)) }) s
  foldS lost (loseClaim k cyc) s

/-- Another unit's instruction takes ports unless an array claim, or an earlier one of another unit, holds them (R149). None
where it may not. -/
def otherClaims (k cyc : Nat) (cs : List Claim) (s : State) : Option State :=
  let e := eng s k
  if cs.any (fun c => e.claims.any fun x => c.clash x) then none
  else some (engMod k (fun e => { e with claims := cs ++ e.claims.filter (fun x => decide (cyc ≤ x.last)) }) s)

/-! ### Commit -/

/-- End hold windows at cycle `t`: the lines whose writes they turned away are FAILED, and the writes of later cycles are made (R197). -/
def endHolds (k t : Nat) (hit : HoldOpen → Bool) (s : State) : State :=
  let s := pendTo k t s
  let l := (eng s k).openH.filter hit
  let s := engMod k (fun e => { e with openH := e.openH.filter (fun h => !hit h) }) s
  foldS (l.flatMap (·.pend)) (fun w => cPut k w.line w.data w.mark) (foldS (l.flatMap (·.blocked)) (fun a => cMark k a mkFailed) s)

/-- Close the hold windows that this PASS protects at its commit (R197). -/
def closeHolds (k : Nat) (g : Seg) (pc : Nat) (it : List Nat) (t : Nat) (s : State) : State :=
  endHolds k t (fun h => h.closedBy g pc it) s

/-! ### Spare columns (R110, R233, R236) -/

/-- An engine fault of a logical engine, contained at the next tick (R21, R111). [log 28, DEDUCED] -/
def engineFault (leng : Nat) (s : State) : State := engMod (storeKey s leng) (fun e => { e with faultDue := true }) s

/-- The logical engine that a physical engine executes (R23, R234). -/
def lengAt (s : State) (x : Nat) : Option Nat :=
  ((List.range 4).map (fun i => 4 * (x / 5) + i)).find? fun l => decide (execKey s l = x)

/-- An engine fault of a physical engine: one that is bound to no slot is only marked failed. -/
def engineFaultAt (x : Nat) (s : State) : State :=
  match lengAt s x with
  | some l => engineFault l s
  | none => fset (pgDie (x / 5) 1) 0x44 (x % 5) 1 1 s

/-- The physical column that serves a logical column; 64 is the checksum column's role. -/
def physCol (s : State) (x n : Nat) : Nat :=
  let p := pgEng x 1
  if n = 64 then fget s p 0x54 16 7
  else if fget s p 0x54 0 7 = n then 65 else if fget s p 0x54 8 7 = n then 66 else n

/-- A physical column is marked failed. -/
def colFailed (s : State) (x c : Nat) : Bool := decide (fget s (pgEng x 1) (0x64 + 4 * (c / 32)) (c % 32) 1 = 1)

/-- The free spare columns of an engine. [log 28, DEDUCED] -/
def freeCols (s : State) (x : Nat) : List Nat :=
  let p := pgEng x 1
  [65, 66].filter fun c =>
    decide (fget s p 0x54 (if c = 65 then 0 else 8) 7 = 127) && !colFailed s x c &&
      !((eng s x).arr.heldOut.contains c)

/-- The columns that can take the checksum column's role: the free spares, and the array's own checksum column where it has rejoined the
pool (R236). -/
def pathCols (s : State) (x : Nat) : List Nat :=
  freeCols s x ++ (if physCol s x 64 ≠ 64 ∧ colFailed s x 64 = false ∧ 64 ∉ (eng s x).arr.heldOut then [64] else [])

/-- Bind a spare column to the role `n` of physical column `old`, with its substitution record (R248), and the
capacity record where it is the array's last (R249). -/
def bindCol (x old n new : Nat) (s : State) : State :=
  let p := pgEng x 1
  let s := if old = 65 then fset p 0x54 0 7 127 s else if old = 66 then fset p 0x54 8 7 127 s else s
  let s := whenS (decide (65 ≤ new)) (fset p 0x54 (if new = 65 then 0 else 8) 7 n) s
  let s := whenS (decide (n = 64)) (fset p 0x54 16 7 new) s
  let s := substitution { ty := 0, sev := 1, level := 3, zq := x / 20, die := x / 5, block := 0x21 } 2 n old new (raise p 2 s)
  whenS (freeCols s x).isEmpty (capacity 2 4 { ty := 0, sev := 4, level := 4, zq := x / 20, die := x / 5, peng := x % 5, block := 0x21 }) s

/-- Logical role of a physical column, none for an unused spare. -/
def roleOf (s : State) (x c : Nat) : Option Nat := (List.range 65).find? fun n => decide (physCol s x n = c)

/-- The physical row that serves a logical row (Table 15-9). -/
def physRow (s : State) (x r : Nat) : Nat :=
  let p := pgEng x 1
  if fget s p 0x50 0 7 = r then 64 else if fget s p 0x50 8 7 = r then 65 else r

/-- A physical row is marked failed. -/
def rowFailed (s : State) (x r : Nat) : Bool := decide (fget s (pgEng x 1) (0x58 + 4 * (r / 32)) (r % 32) 1 = 1)

/-- The free spare rows of an engine. -/
def freeRows (s : State) (x : Nat) : List Nat :=
  [64, 65].filter fun r => decide (fget s (pgEng x 1) 0x50 (8 * (r - 64)) 7 = 127) && !rowFailed s x r

/-- Logical row of a physical row, none for an unused one. -/
def rowRole (s : State) (x r : Nat) : Option Nat := (List.range 64).find? fun n => decide (physRow s x n = r)

/-- Bind a spare row to the role `n` of physical row `old`, with its records (R110, R248, R249). -/
def bindRow (x old n new : Nat) (s : State) : State :=
  let p := pgEng x 1
  let s := if 64 ≤ old then fset p 0x50 (8 * (old - 64)) 7 127 s else s
  let s := fset p 0x50 (8 * (new - 64)) 7 n s
  let s := substitution { ty := 0, sev := 1, level := 3, zq := x / 20, die := x / 5, block := 0x21 } 1 n old new (raise p 2 s)
  whenS (freeRows s x).isEmpty (capacity 1 4 { ty := 0, sev := 4, level := 4, zq := x / 20, die := x / 5, peng := x % 5, block := 0x21 }) s

/-- At an LDS the requested spare rows and columns take their places (R110) and a suspect checksum path is replaced, or with no
spare column free the engine has a fault (R236). -/
def ldsSubst (x : Nat) (s : State) : State :=
  let reqs := (eng s x).arr.colReq
  let s := foldS reqs (fun c t =>
    match roleOf t x c.toNat, freeCols t x with
    | some n, sp :: _ => bindCol x c.toNat n sp t
    | _, _ => t) s
  let s := foldS (eng s x).arr.rowReq (fun r t =>
    match rowRole t x r.toNat, freeRows t x with
    | some n, sp :: _ => bindRow x r.toNat n sp t
    | _, _ => t) s
  let s := arrMod x (fun a => { a with colReq := [], rowReq := [] }) s
  let q := pgEng x 5
  if fget s q 0x54 0 1 = 1 then
    let old := physCol s x 64
    match pathCols s x with
    | sp :: _ =>
      fset q 0x54 0 2 0 (arrMod x (fun a => { a with heldOut := a.heldOut ++ [old] }) (bindCol x old 64 sp s))
    | [] => engineFaultAt x (fset q 0x54 0 2 0 s)
  else s

/-! ### LDS -/

/-- Rows of a tile: 64, or 128 in fast mode (R86). -/
def tileRows (fast : Bool) : Nat := if fast then 128 else 64

/-- The words of a tile read from consecutive lines, keyed `64 * row + column` (R86). -/
def tileWords (f : Fmt) (rows : Nat) (ls : List Line) : Tab (BitVec 16) :=
  (List.range (rows * 64)).foldl (fun t i =>
    tabSet (fun _ => 0) t i (BitVec.ofNat 16 (lineElem f (ls.getD (i / f.perLine) 0) (i % f.perLine)))) []

/-- The exact sums of a tile's rows over the 64 columns, which the checksum cells hold; in fast mode a cell row has one for each
of its two multipliers (R85, R95). [log 89, DEDUCED] -/
def tileSums (f : Fmt) (rows : Nat) (ws : Tab (BitVec 16)) : List FVal :=
  (List.range rows).map fun r =>
    (List.range 64).foldl (fun a n => (a.add (readVal f (tabGet (fun _ => 0) ws (64 * r + n)).toNat).1).1) FVal.zero

/-- The magnitude of a value. -/
def FVal.abs : FVal → FVal
  | .num _ m e => .num false m e
  | .inf _ => .inf false
  | .nan => .nan

/-- The largest magnitude among the finite values of a list. -/
def maxAbs (l : List FVal) : FVal :=
  l.foldl (fun a x => if x.finite && decide (a.lt? x.abs = some true) then x.abs else a) FVal.zero

/-- The largest magnitude of each problem's sub-tile, found by the LDS (R231). -/
def tileMax (f : Fmt) (rows ks : Nat) (ws : Tab (BitVec 16)) : List FVal :=
  (List.range ks).map fun p => maxAbs ((List.range (rows / ks * 64)).map fun i =>
    (readVal f (tabGet (fun _ => 0) ws (p * (rows / ks) * 64 + i)).toNat).1)

/-- Why an LDS faults at issue, 0 where it does not (R96, R172, R183). [log 39, DEDUCED] -/
def ldsBad (s : State) (c : Ctx) (o : LdsOp) : Nat :=
  let f := fmtD o.fmt
  let busy := match (eng s c.k).arr.lds with
    | some e => decide (c.cyc ≤ e + 64)
    | none => false
  if c.dup then 0x01
  else if busy || (o.fast && !(decide (f = .p8) || decide (f = .int4))) then 0x03
  else if !inFoot s c.leng c.g (advance o.adv 0 c.loops o.tbase.toNat) (linesOf f (tileRows o.fast * 64)) then 0x08
  else 0

/-! ### PASS -/

/-- Beats per vector: 2 in the 16-bit modes (R87). -/
def beats (f : Fmt) : Nat := if f = .p8 ∨ f = .int4 then 1 else 2

/-- A PASS format matches the loaded tile's (R92, R45). -/
def fmtMatch (f t : Fmt) : Bool :=
  decide (f = t) || (decide (f = .p8 ∨ f = .int4) && decide (t = .p8 ∨ t = .int4)) ||
    (decide (f = .p16 ∨ f = .int8) && decide (t = .p16 ∨ t = .int8))

/-- Elements of vector `m` of a stream at a line (R87), with the marks of the lines they lie in: all of them, also a line that a 16-bit
vector or KSPLIT shares with another vector, are read in the vector's own cycle `t`. [log 115, DESIGN CHOICE] -/
def inputVec (s : State) (k : Nat) (f : Fmt) (line kk m t : Nat) : List Nat × Mark :=
  let first := m * kk / f.perLine
  let last := (m * kk + kk - 1) / f.perLine
  let ls := (List.range (last - first + 1)).map fun i => cReadAt s k (line + first + i) t
  ((List.range kk).map fun i =>
      let j := m * kk + i
      lineElem f ((ls.getD (j / f.perLine - first) (0, 0)).1) (j % f.perLine),
    ls.foldl (fun x l => x ||| l.2) 0)

/-- What one element of a pass comes to: its value, flags, the cause and product index of its first event, and whether its
vector is uncovered by the checksum column (R228). -/
structure SumOut where
  val : BankVal
  fl : Flags
  cause : Nat
  kk : Nat
  unc : Bool

/-- The cause of a product's event (R71): its flags, or a NaN or NaR operand. -/
def prodCause (x y : FVal) (fl : Flags) : Nat := causeOf fl (decide (x = .nan) || decide (y = .nan))

/-- The first product with a cause, by index. -/
def firstCause (l : List Nat) : Nat × Nat :=
  match (l.zipIdx.find? fun p => decide (p.1 ≠ 0)) with
  | some (c, i) => (c, i)
  | none => (0, 0)

/-- The exact path (R59): products summed exactly into the quire. -/
def sumExact (q xf wf : Fmt) (src : Option BankVal) (xs ws : List Nat) : SumOut :=
  let ps := (xs.zip ws).map fun p =>
    let x := (readVal xf p.1).1
    let w := (readVal wf p.2).1
    ((x.mul w).1, prodCause x w {})
  let s0 : QVal := match src with
    | some (.quire v) => v
    | _ => .int 0
  let v := ps.foldl (fun a p => a.add (p.1.toQ q)) s0
  let (c, i) := firstCause (ps.map (·.2))
  { val := .quire v, fl := {}, cause := c, kk := i, unc := ps.any fun p => !p.1.finite }

/-- The fast path (R63): products rounded to p16, their exact sum, one stochastic rounding. -/
def sumFast (xf wf : Fmt) (u : Nat) (src : Option BankVal) (xs ws : List Nat) : SumOut :=
  let ps := (xs.zip ws).map fun p =>
    let x := (readVal xf p.1).1
    let w := (readVal wf p.2).1
    (decodePosit 16 (roundPosit 16 (x.mul w).1).1, prodCause x w {})
  let s0 : FVal := match src with
    | some (.run w) => decodePosit 16 w.toNat
    | _ => .zero
  let t := ps.foldl (fun a p => (a.add p.1).1) s0
  let (w, fl) := stochRound u t
  let (c, i) := firstCause (ps.map (·.2))
  { val := .run (BitVec.ofNat 16 w), fl := fl, cause := c, kk := i, unc := ps.any fun p => !p.1.finite }

/-- The IEEE path (R66-R68). [log 11, DESIGN CHOICE] -/
def sumIeee (xf wf : Fmt) (pick : Nat → Nat → Nat × Nat) (src : Option BankVal) (xs ws : List Nat) : SumOut :=
  let ps := (xs.zip ws).map fun p =>
    let (v, fl) := (match xf, wf with
      | .bf16, .bf16 => ieeeProduct .bf16 p.1 p.2
      | _, _ => ieeeProduct .fp16 p.1 p.2)
    let x := (readVal xf p.1).1
    let w := (readVal wf p.2).1
    (v, fl, prodCause x w fl, !(x.finite && w.finite && v.finite))
  let s0 : List FVal := match src with
    | some (.acc a) => [a]
    | _ => []
  let l := s0 ++ ps.map (·.1)
  let (v, fl, ov) := ieeeReduce pick l.length 0 l
  let fls := ps.foldl (fun a p => a.add p.2.1) fl
  let (c, i) := firstCause (ps.map (·.2.2.1))
  let (c, i) := if c = 0 ∧ ov then (3, 0xFF) else (c, i)
  { val := .acc v, fl := fls, cause := c, kk := i, unc := ps.any fun p => p.2.2.2 }

/-- The identity of a job's image for the order of R68. -/
def imgOf (b : Job) : Nat := leNat b.digest

/-- An element computed by a PASS: its key in the half, the element, its sum. -/
structure PassElem where
  key : Nat
  el : Elem
  m : Nat
  n : Nat
  kb : Nat
  out : SumOut
  prod : Mark

/-- All elements a PASS of a tile writes (R87, R90, R91). -/
def passElemsOf (tl : Tile) (s : State) (c : Ctx) (o : PassOp) (idx : BitVec 20) (bases : List Nat) : List PassElem :=
  let a := (eng s c.k).arr
  let f := fmtD o.fmt
  let ks := 2 ^ o.ksplit.toNat
  let kk := (if o.fast then 128 else 64) / ks
  let tag := passTag f o.fast
  let region := tagCap tag / ks
  let srcH := a.half (!o.dsth)
  let b := job s ((ownerOf s c.leng c.g).getD 0)
  (List.range ks).flatMap fun p =>
    let cols := (List.range 64).map fun n =>
      (List.range kk).map fun i => (tabGet (fun _ => 0) tl.words (64 * (p * kk + i) + n)).toNat
    (List.range (o.mm1.toNat + 1)).flatMap fun m =>
      let (xs, mk) := inputVec s c.k f (bases.getD p 0) kk m (c.cyc + 1 + beats f * m)
      let v := p * region + o.boff.toNat + m
      cols.zipIdx.map fun (ws, n) =>
        let e := srcH.elem v n
        let src := if o.src then some e.val else none
        let r := match tag with
          | .fast => sumFast f tl.fmt (sbitsU b.seed c.wt idx c.leng n p m) src xs ws
          | .ieee => sumIeee f tl.fmt (Config.ieeeOrder (imgOf b) (activeCount s) (b2n b.gencompat)) src xs ws
          | t => sumExact (tagQuire t) f tl.fmt src xs ws
        let prod := mk ||| tl.mark
        let mark := prod ||| (if o.src then e.mark ||| (if e.valid then 0 else mkFailed) else 0)
        { key := 64 * v + n, el := { val := r.val, mark := mark, valid := true }, m := m, n := n, kb := p * kk, out := r, prod := prod }

/-- All elements a PASS writes, of the tile that is loaded. -/
def passElems (s : State) (c : Ctx) (o : PassOp) (idx : BitVec 20) (bases : List Nat) : List PassElem :=
  passElemsOf (eng s c.k).arr.tile s c o idx bases

/-- The first event of a pass in the order of R71: lowest m, then n, then k. -/
def firstEvent (l : List PassElem) : Option PassElem :=
  l.foldl (fun b x =>
    if x.out.cause = 0 then b
    else match b with
      | none => some x
      | some y =>
        let kx := if x.out.kk = 0xFF then 0xFF else x.kb + x.out.kk
        let ky := if y.out.kk = 0xFF then 0xFF else y.kb + y.out.kk
        if x.m < y.m ∨ (x.m = y.m ∧ (x.n < y.n ∨ (x.n = y.n ∧ kx < ky))) then some x else b) none

/-- The write cycle (stage B4) of vector `m` of a pass issued in `c` (R94). -/
def b4 (c bt m : Nat) : Nat := c + bt * m + (bt - 1) + 16

/-- Vector elements of a half (regions of every problem) that a pass covers, with the vector index. -/
def covers (region nprob b m : Nat) : List (Nat × Nat) :=
  (List.range nprob).flatMap fun p => (List.range m).map fun i => (p * region + b + i, i)

/-- The cycle in which a running drain reads bank vector `v` (Table 4-8). -/
def DrainSt.readCyc (d : DrainSt) (v : Nat) : Nat := d.issue + 1 + (v - d.op.base.toNat) * d.rate

/-- The bank hazards of R100: a write into the source half of a pass before that pass has committed, a write of an element that a
drain has still to read or reads in that cycle, a source element read before the earlier pass has written it. [log 129, DESIGN CHOICE] -/
def bankHazard (a : ArraySt) (o : PassOp) (cyc bt region nprob m : Nat) : Bool :=
  let mine := covers region nprob o.boff.toNat m
  a.flights.any (fun f => decide (b4 cyc bt 0 ≤ f.commit) && f.op.src && decide (!f.op.dsth = o.dsth)) ||
  a.reads.any (fun d =>
    decide (d.op.half = o.dsth) && mine.any fun (v, i) =>
      decide (d.op.base.toNat ≤ v) && decide (v < d.op.base.toNat + d.op.nm1.toNat + 1) && decide (b4 cyc bt i ≤ d.readCyc v)) ||
  (o.src && a.flights.any fun f =>
    decide (cyc ≤ f.commit) && decide (f.op.dsth = !o.dsth) &&
      (covers f.region f.nprob f.op.boff.toNat (f.op.mm1.toNat + 1)).any fun (v, i) =>
        mine.any fun (w, j) => decide (v = w) && decide (b4 cyc bt j - 3 ≤ b4 f.cyc f.beats i))

/-- The slot of a CHK is selected (R230). -/
def rowSelected (ratio j : Nat) (wt : BitVec 64) : Bool :=
  if ratio = 7 then false else decide ((j + wt.toNat) % 2 ^ ratio = 0)

/-- The first lines of a PASS's input streams, one per problem, advanced (R183). -/
def passBases (c : Ctx) (o : PassOp) : List Int :=
  (([o.in0, o.in1, o.in2, o.in3].take (2 ^ o.ksplit.toNat)).zipIdx).map fun (b, i) => advance o.adv i c.loops b.toNat

/-- The term count of a PASS's half (R61). -/
def passTerms (s : State) (c : Ctx) (o : PassOp) : Nat :=
  (if o.src then ((eng s c.k).arr.half (!o.dsth)).terms else 0) + (if o.fast then 128 else 64) / 2 ^ o.ksplit.toNat

/-- Why a PASS faults at issue, 0 where it does not (R92, R97, R98, R100, R172, R183). [log 39, DEDUCED] -/
def passBad (s : State) (c : Ctx) (o : PassOp) : Nat :=
  let a := (eng s c.k).arr
  let f := fmtD o.fmt
  let bt := beats f
  let m := o.mm1.toNat + 1
  let ks := 2 ^ o.ksplit.toNat
  let kk := (if o.fast then 128 else 64) / ks
  let tag := passTag f o.fast
  let region := tagCap tag / ks
  let early := match a.lds with
    | some e => decide (c.cyc < e + 61)
    | none => false
  let feeding := match a.lastPass with
    | some (_, fe) => decide (c.cyc < fe)
    | none => false
  if c.dup then 0x01
  else if (o.fast && !(decide (f = .p8) || decide (f = .int4))) || !a.tile.valid || !fmtMatch f a.tile.fmt ||
      decide (o.fast ≠ a.tile.fast) || decide (ks ≠ a.tile.ksplit) || early || feeding ||
      decide (region < o.boff.toNat + m) || bankHazard a o c.cyc bt region ks m then 0x03
  else if (o.src && decide ((a.half (!o.dsth)).tag ≠ some tag)) || decide (2 ^ 31 - 1 < passTerms s c o) then 0x04
  else if !((passBases c o).all fun b => inFoot s c.leng c.g b (linesOf f (m * kk))) then 0x08
  else 0

/-! ### The checksum column and row (R85, R228, R229, R231) -/

/-- The tree output of one column for one vector and problem, and the products whose rounding to p16 changed them: the exact sum
of the products, of the rounded products, or the IEEE running sum of the products. -/
def treeSum (tag : Tag) (xf wf : Fmt) (pick : Nat → Nat → Nat × Nat) (xs ws : List Nat) : FVal × Nat :=
  let exact := (xs.zip ws).map fun p => ((readVal xf p.1).1.mul (readVal wf p.2).1).1
  match tag with
  | .fast =>
    let rd := exact.map fun v => decodePosit 16 (roundPosit 16 v).1
    (rd.foldl (fun a v => (a.add v).1) FVal.zero,
     ((exact.zip rd).filter fun p => decide (p.1.lt? p.2 = some true) || decide (p.2.lt? p.1 = some true)).length)
  | .ieee =>
    let l := (xs.zip ws).map fun p => (ieeeProduct (if xf = .bf16 then .bf16 else .fp16) p.1 p.2).1
    ((ieeeReduce pick l.length 0 l).1, 0)
  | _ => (exact.foldl (fun a v => (a.add v).1) FVal.zero, 0)

/-- g(P) of R231: the gap between the p16 values around P, or the larger of the two gaps where P is one. -/
def gapP16 : FVal → FVal
  | .num _ m e =>
    if m = 0 then FVal.zero
    else
      let t := positTrunc 16 m e
      let v (i : Nat) : FVal := decodePosit 16 i
      let up := ((v (t + 1)).add (v t).negate).1
      let dn := ((v t).add (v (t - 1)).negate).1
      if (v t).lt? (.num false m e) = some true then up else if up.finite && decide (dn.lt? up = some true) then up else dn
  | _ => FVal.zero

/-- A value times a natural number and a power of two. -/
def FVal.times (v : FVal) (n : Nat) (x : Int) : FVal := (v.mul (.num false n x)).1

/-- The bound of Table 9-3 for `n` columns or vectors summed, with `marks` rounded products, K products per column and the largest
product P. -/
def sumBound (tag : Tag) (n marks k : Nat) (p : FVal) : FVal :=
  match tag with
  | .fast => (gapP16 p).times marks (-1)
  | .ieee => ((p.times (n * k * k) (-24)).add (.num false (n * 2 * k) (-126))).1
  | _ => FVal.zero

/-- A comparison passes: both sums are numbers whose difference is within the bound. -/
def within (a b bound : FVal) : Bool := decide (bound.lt? (a.add b.negate).1.abs = some false)

/-- The sum of values. -/
def sumF (l : List FVal) : FVal := l.foldl (fun a v => (a.add v).1) FVal.zero

/-- The comparison of a vector `xs` of a problem (R228): the checksum column multiplies each element by its row's sum. -/
def colChk (tag : Tag) (f : Fmt) (t : Tile) (pick : Nat → Nat → Nat × Nat) (p kk : Nat) (xs : List Nat) (cols : List (List Nat))
    (covered : Bool) : ColChk :=
  let tr := cols.map (treeSum tag f t.fmt pick xs)
  let xv := xs.map fun x => (readVal f x).1
  let marks := tr.map (·.2)
  { trees := tr.map (·.1), chk := sumF ((xv.zip ((t.sums.drop (p * kk)).take kk)).map fun y => (y.1.mul y.2).1), marks := marks,
    bound := sumBound tag 64 (marks.foldl (· + ·) 0) kk ((maxAbs xv).mul (t.wmax.getD p FVal.zero)).1, covered := covered }

/-- The column comparison passes (R228): Σ T_n against the checksum column's output; one that is not covered is skipped. -/
def ColChk.agrees (x : ColChk) : Bool := !x.covered || within (sumF x.trees) x.chk x.bound

/-- The words of column `n` of problem `p` of a tile. -/
def tileCol (t : Tile) (p kk n : Nat) : List Nat := (List.range kk).map fun i => (tabGet (fun _ => 0) t.words (64 * (p * kk + i) + n)).toNat

/-- The comparisons of a PASS, keyed `256 * problem + vector`; `unc` says which vectors are not covered. -/
def passCols (t : Tile) (s : State) (c : Ctx) (o : PassOp) (bases : List Nat) (unc : Nat → Nat → Bool) : Tab ColChk :=
  let f := fmtD o.fmt
  let ks := 2 ^ o.ksplit.toNat
  let kk := (if o.fast then 128 else 64) / ks
  let b := job s ((ownerOf s c.leng c.g).getD 0)
  let pick := Config.ieeeOrder (imgOf b) (activeCount s) (b2n b.gencompat)
  (List.range ks).flatMap fun p =>
    let cols := (List.range 64).map (tileCol t p kk)
    (List.range (o.mm1.toNat + 1)).map fun m =>
      (256 * p + m, colChk (passTag f o.fast) f t pick p kk
        (inputVec s c.k f (bases.getD p 0) kk m (c.cyc + 1 + beats f * m)).1 cols (!unc p m))

/-- The row check's sums (R229): H_n from the sums a_i of the inputs and the tile's shadow copy, G_n from the tree outputs. -/
def passRows (t : Tile) (s : State) (c : Ctx) (o : PassOp) (bases : List Nat) (cs : Tab ColChk) : RowSums :=
  let f := fmtD o.fmt
  let ks := 2 ^ o.ksplit.toNat
  let kk := (if o.fast then 128 else 64) / ks
  let m := o.mm1.toNat + 1
  let ins := (List.range ks).map fun p => (List.range m).map fun i =>
    (inputVec s c.k f (bases.getD p 0) kk i (c.cyc + 1 + beats f * i)).1.map fun x => (readVal f x).1
  let a := ins.map fun vs => (List.range kk).map fun i => sumF (vs.map fun v => v.getD i FVal.zero)
  let pmax := maxAbs (ins.zipIdx.map fun (vs, p) => ((maxAbs vs.flatten).mul (t.wmax.getD p FVal.zero)).1)
  { h := (List.range 64).map fun n => sumF (a.zipIdx.flatMap fun (as, p) =>
      (as.zip (tileCol t p kk n)).map fun y => (y.1.mul (readVal t.fmt y.2).1).1)
    g := (List.range 64).map fun n => sumF (cs.map fun x => x.2.trees.getD n FVal.zero)
    bound := (List.range 64).map fun n =>
      sumBound (passTag f o.fast) m (cs.foldl (fun z x => z + x.2.marks.getD n 0) 0) kk pmax }

/-- The claims of a check slot (R194): read ports 2 and 3 during its occupancy. -/
def slotClaims (c : Ctx) (chkPc len : Nat) : List Claim :=
  [Port.r2, Port.r3].map fun p =>
    { port := p, unit := .check, seg := c.g, pc := chkPc, lo := c.cyc + 1, len := len, per := len, n := 1 }

/-- The shelfmark of the first poisoned element of a half among the vectors that an instruction reads. [log 85, DESIGN CHOICE] -/
def poisonElem (s : State) (leng : Nat) (h : Bool) (hf : Half) (reads : Nat → Bool) : Option Nat :=
  (hf.elems.find? fun p => reads (p.1 / 64) && decide (p.2.mark &&& mkPoison ≠ 0)).map fun p =>
    elemShelf s leng h (tagQuire (hf.tag.getD .q8)).perLine p.1

/-! ### Reading again (R94, R95, R108) -/

/-- The lines of a tile. -/
def Tile.lines (t : Tile) : Nat := linesOf t.fmt (tileRows t.fast * 64)

/-- A tile as an LDS issued in cycle `e` loads it (R95): row i's line as it stands in the cycle of its read. [log 128, DEDUCED] -/
def tileAt (s : State) (k : Nat) (t : Tile) (e : Nat) : Tile :=
  let rows := tileRows t.fast
  let ls := (List.range t.lines).map fun i => cReadAt s k (t.base + i) (e + 1 + i * 64 / t.lines)
  let ws := tileWords t.fmt rows (ls.map (·.1))
  { t with words := ws, mark := ls.foldl (fun x l => x ||| l.2) 0, sums := tileSums t.fmt rows ws, wmax := tileMax t.fmt rows t.ksplit ws }

/-- One of consecutive lines has been written in cycle `t` or after it. -/
def Eng.wroteFrom (e : Eng) (t line n : Nat) : Bool :=
  e.olds.any fun o => decide (t ≤ o.cyc) && decide (line ≤ o.line) && decide (o.line < line + n)

/-- A line of the loaded tile has been written since its LDS issued. -/
def Eng.tileStale (e : Eng) : Bool := e.arr.tile.valid && (e.arr.lds.any fun c => e.wroteFrom c e.arr.tile.base e.arr.tile.lines)

/-- The loaded tile's rows are read in their own cycles (R95). [log 128, DEDUCED] -/
def freshTile (k : Nat) (s : State) : State :=
  if (eng s k).tileStale then arrMod k (fun a => { a with tile := tileAt s k a.tile (a.lds.getD 0) }) s else s

/-- The lines of one input stream of a pass. -/
def Flight.streamLines (f : Flight) : Nat :=
  linesOf (fmtD f.op.fmt) ((f.op.mm1.toNat + 1) * ((if f.op.fast then 128 else 64) / f.nprob))

/-- A pass in flight may read other lines or source elements than it was formed from: one of its lines has been written since, or a
fault has moved its cycles or changed its source. -/
def Flight.stale (e : Eng) (f : Flight) : Bool :=
  f.redo || e.wroteFrom f.tileAt f.tile.base f.tile.lines || f.bases.any fun b => e.wroteFrom f.cyc b f.streamLines

/-- An element of a pass as it is formed, with the trap's mark (R72). -/
def formedElem (trap : Bool) (e : PassElem) : Elem := { e.el with mark := e.el.mark ||| (if trap then mkFailed else 0) }

/-- The vector `i` of problem `p` is not covered by the checksum column (R228). -/
def uncoveredAt (kk : Nat) (els : List PassElem) (p i : Nat) : Bool := els.any fun e =>
  decide (e.kb = p * kk) && decide (e.m = i) && (e.out.unc || decide (e.prod &&& mkPoison ≠ 0))

/-- The first event of a pass fills the pass record, where the policy records (R71). -/
def passEvent (c : Ctx) (pol : Nat) (idx : BitVec 20) (els : List PassElem) (s : State) : State :=
  match firstEvent els with
  | some e => if pol = 0 then s
              else passRecord c.k c.g c.pc e.out.cause e.m e.n (if e.out.kk = 0xFF then 0xFF else e.kb + e.out.kk) idx c.wt s
  | none => s

/-- The words of the pass record that a pass is about to fill, none where it does not fill it. -/
def firstRec (s : State) (k pol : Nat) (els : List PassElem) : List (Nat × Word) :=
  if pol = 0 ∨ fget s (pgEng k 7) 0x44 31 1 = 1 ∨ (firstEvent els).isNone then []
  else [0x44, 0x48, 0x4C, 0x50, 0x54].map fun o => (o, rget s (pgEng k 7) o)

/-- The operand whose poison a pass consumes, with its origin (R244): the tile, an input, or its source element. [log 85, DESIGN CHOICE] -/
def passOrigin (s : State) (c : Ctx) (o : PassOp) (t : Tile) (bases : List Nat) : Nat × Option Nat :=
  let f := fmtD o.fmt
  let ks := 2 ^ o.ksplit.toNat
  let kk := (if o.fast then 128 else 64) / ks
  let m := o.mm1.toNat + 1
  let ins := bases.map fun b => (1, b, linesOf f (m * kk))
  let vs := (covers (tagCap (passTag f o.fast) / ks) ks o.boff.toNat m).map (·.1)
  let src := if o.src then poisonElem s c.leng (!o.dsth) ((eng s c.k).arr.half (!o.dsth)) (fun v => vs.contains v) else none
  poisonFrom s c.leng c.k ((0, t.base, t.lines) :: ins) (2, src)

/-- A PASS takes back the pass record it filled. -/
def unfillRec (k : Nat) (f : Flight) (s : State) : State :=
  if rget s (pgEng k 7) 0x48 = BitVec.ofNat 32 f.idx.toNat ∧ bitsOf (rget s (pgEng k 7) 0x44).toNat 0 16 = f.pc % 2 ^ 16 then
    foldS f.note.first (fun x => rset (pgEng k 7) x.1 x.2) s
  else s

/-- A counted trap is taken back. [log 132, DESIGN CHOICE] -/
def untrap (k : Nat) (s : State) : State := fset (pgEng k 7) 0x8C 0 32 (fget s (pgEng k 7) 0x8C 0 32 - 1) s

/-- An element that a pass formed as `was` and now forms as `new`; what came to it since stays. -/
def reElem (was new now : Elem) : Elem :=
  { now with val := if new.val = was.val then now.val else new.val, mark := (now.mark &&& ~~~was.mark) ||| new.mark }

/-- A pass in flight is formed again, of its lines as they stand in the cycles of its reads (R94, R95, R108): its elements, comparisons,
flags, record, trap and poison follow. A pass whose job is gone stays as it was formed. [log 128, DEDUCED] -/
def reform (k : Nat) (f : Flight) (s : State) : Flight × State :=
  if ownerOf s f.leng f.seg ≠ f.note.job then (f, s)
  else
    let o := f.op
    let kk := (if o.fast then 128 else 64) / f.nprob
    let c : Ctx := { s := s, k := k, leng := f.leng, g := f.seg, pc := f.pc, cyc := f.cyc, declared := f.cyc, dup := false,
                     loops := [], wt := f.workTick }
    let t := tileAt s k f.tile f.tileAt
    let els := passElemsOf t s c o f.idx f.bases
    let pol := policy s k f.seg
    let fls := els.foldl (fun t e => t.add e.out.fl) Flags.none
    let trap := decide (pol = 2) && fls.event
    let new := els.map fun e => (e.key, formedElem trap e)
    let later := ((eng s k).arr.flights.dropWhile fun g => decide (g ≠ f)).drop 1
    let kept (key : Nat) : Bool := later.any fun g => decide (g.op.dsth = o.dsth) && g.els.any fun x => decide (x.1 = key)
    let s := arrMod k (fun a => a.halfMod o.dsth (fun hf =>
      if hf.tag ≠ some (passTag (fmtD o.fmt) o.fast) then hf
      else { hf with elems := new.foldl (fun h x =>
        let was := tabGet (fun _ => {}) f.els x.1
        if x.2 = was ∨ kept x.1 then h else tabMod (fun _ => {}) h x.1 (reElem was x.2)) hf.elems })) s
    let s := whenS (decide (new ≠ f.els)) (arrMod k (fun a =>
      { a with flights := a.flights.map fun g => if later.contains g ∧ g.op.src ∧ g.op.dsth ≠ o.dsth then { g with redo := true } else g })) s
    let cols := passCols t s c o f.bases (uncoveredAt kk els)
    let rows := if f.selected then passRows t s c o f.bases cols else {}
    let m := o.mm1.toNat + 1
    let unc := ((List.range (f.nprob * m)).filter fun i => uncoveredAt kk els (i / m) (i % m)).length
    let q := pgEng (execKey s f.leng) 5
    let s := finc q 0x4C 0 32 (unc - f.note.unc) (fset q 0x4C 0 32 (fget s q 0x4C 0 32 - (f.note.unc - unc)) s)
    let s := unfillRec k f (countFlags k fls (uncountFlags k f.note.fl s))
    let rec' := firstRec s k pol els
    let s := passEvent c pol f.idx els s
    let s := whenS (f.note.trap && !trap) (untrap k) (whenS (trap && !f.note.trap) (numTrap k f.leng f.seg) s)
    let eaten := els.foldl (fun t e => t ||| (e.el.mark &&& mkPoison)) 0
    let s := whenS (f.note.ate && decide (eaten = 0)) (uneat k f.seg f.pc) s
    let s := consume f.leng f.seg f.pc (passOrigin s c o t f.bases) eaten s
    ({ f with tile := t, els := new, cols := cols, rows := rows, redo := false,
              note := { f.note with fl := fls, first := rec', trap := trap, ate := decide (eaten ≠ 0), unc := unc } }, s)

/-- The pass in flight at place `i` is formed again, where it has to be. [log 128, DEDUCED] -/
def reformAt (k i : Nat) (s : State) : State :=
  match (eng s k).arr.flights[i]? with
  | none => s
  | some f =>
    if f.stale (eng s k) = false then s
    else let r := reform k f s; arrMod k (fun a => { a with flights := a.flights.set i r.1 }) r.2

/-! ### Commit -/

/-- One flight commits (R94): its hold windows close and a checked pass awaits its row check (R229). -/
def commitFlight (k : Nat) (f : Flight) (s : State) : State :=
  let s := closeHolds k f.seg f.pc f.iter f.commit s
  whenS f.chk (engMod k (fun e =>
    { e with rowChks := e.rowChks ++ [{ seg := f.seg, pc := f.pc, idx := f.idx, due := f.commit + 80, selected := f.selected,
                                        workTick := f.workTick, half := f.op.dsth, rows := f.rows }] })) s

/-- The oldest pass in flight commits. -/
def commitOldest (k : Nat) (s : State) : State :=
  let s := reformAt k 0 s
  match (eng s k).arr.flights with
  | [] => s
  | f :: _ => arrMod k (fun a => { a with flights := a.flights.drop 1 }) (commitFlight k f s)

/-- The oldest passes in flight commit, `n` at the most, while their commits lie before cycle `t`. -/
def commitTo (k t : Nat) : Nat → State → State
  | 0, s => s
  | n + 1, s => match (eng s k).arr.flights with
    | [] => s
    | f :: _ => if f.commit < t then commitTo k t n (commitOldest k s) else s

/-- Every pass whose commit lies before cycle `t` has committed, and the tile is as its LDS has loaded it. [log 24, DEDUCED; 30, DEDUCED; 128, DEDUCED] -/
def settle (k t : Nat) (s : State) : State := freshTile k (commitTo k t (eng s k).arr.flights.length s)

/-- PASS_COMMIT: the oldest pass in flight commits. [log 3, DESIGN CHOICE; 24, DEDUCED; 83, DESIGN CHOICE] -/
def doPassCommit (leng : Nat) (s : State) : State := commitOldest (storeKey s leng) s

/-! ### The array's instructions -/

/-- LDS (R86, R95-R97, R110). [log 22, DEDUCED] -/
def doLds (h : IssueHdr) (o : LdsOp) (s : State) : State :=
  let k0 := storeKey s h.leng.toNat
  let rel := match (eng s k0).arr.lastPass with
    | some (_, fe) => fe + 3
    | none => 0
  issued .array rel h s fun c =>
    let s := settle c.k c.cyc (revealChk c c.s)
    let f := fmtD o.fmt
    let rows := tileRows o.fast
    let n := linesOf f (rows * 64)
    let base := advance o.adv 0 c.loops o.tbase.toNat
    let bad := ldsBad s c o
    let low := ldsRamp (rampU (stepOf s (zoneOf c.leng))) (eng s c.k).arr c.cyc
    let s := gapEvent c.k c.leng c.cyc s
    let s := arrMod c.k (ArraySt.endGap (rampU (stepOf s (zoneOf c.leng))) c.cyc) s
    if bad ≠ 0 then arrMod c.k (fun a => { a with tile := { a.tile with valid := false } }) (c.fault bad s)
    else
      let s := whenS low (rampEvent c.leng) s
      let s := ldsSubst (execKey s c.leng) s
      let ls := (List.range n).map fun i => cReadAt s c.k (base.toNat + i) (c.cyc + 1 + i * 64 / n)
      let m := ls.foldl (fun x l => x ||| l.2) 0
      let ws := tileWords f rows (ls.map (·.1))
      let s := arrMod c.k (fun a =>
        { a with
          tile := { valid := true, fmt := f, fast := o.fast, ksplit := 2 ^ o.ksplit.toNat, words := ws, mark := m,
                    base := base.toNat, sums := tileSums f rows ws, wmax := tileMax f rows (2 ^ o.ksplit.toNat) ws }
          lds := some c.cyc, actEnd := max a.actEnd (c.cyc + 64), actLvl := 64 }) s
      busyTo c.k c.g (c.cyc + 64) (consume c.leng c.g c.pc (poisonFrom s c.leng c.k [(0, base.toNat, n)] (0, none)) m s)

/-- PASS (R57-R72, R87-R100, R194, R228-R230); a segment that stops at its next pass boundary issues no further one (R27). [log 22, DEDUCED; 24, DEDUCED; 47, DEDUCED] -/
def doPass (h : IssueHdr) (o : PassOp) (s : State) : State :=
  if ((eng s (storeKey s h.leng.toNat)).seg h.seg).stopAt.isSome then
    segMod (storeKey s h.leng.toNat) h.seg (fun x => { x with stopAt := some 0 }) s
  else issued .array 0 h s fun c =>
    let s := settle c.k c.cyc c.s
    let sg := (eng s c.k).seg c.g
    let idx := sg.passIdx
    let x := execKey s c.leng
    let chk := sg.chk
    let ratio := fget s (pgEng c.k 5) 0x40 0 3
    let sel := chk.isSome && rowSelected ratio sg.chkNo c.wt
    let s := segMod c.k c.g (fun x => { x with passIdx := idx + 1, chk := none, chkNo := sg.chkNo + b2n chk.isSome }) s
    let f := fmtD o.fmt
    let bt := beats f
    let m := o.mm1.toNat + 1
    let ks := 2 ^ o.ksplit.toNat
    let kk := (if o.fast then 128 else 64) / ks
    let tag := passTag f o.fast
    let region := tagCap tag / ks
    let bases := passBases c o
    let terms := passTerms s c o
    let ramp := decide (engLevel s c.k c.leng c.cyc < 64)
    let held := chk.map fun q => (q, otherClaims c.k c.cyc (slotClaims c q (bt * m + 12)) s)
    let sel := sel && held.all fun p => p.2.isSome
    let s := match held with
      | some (q, r) =>
        vecMod c.k (fun v => { v with occ := (v.occ.filter fun x => decide (c.cyc ≤ x.2)) ++ [(c.cyc + 1, c.cyc + bt * m + 12)] })
          (match r with
            | some t => t
            | none => schedFault c.k c.g q 0x02 c.cyc false s)
      | none => s
    let bad := passBad s c o
    let a := (eng s c.k).arr
    let s := whenS ramp (rampEvent c.leng) (gapEvent c.k c.leng c.cyc s)
    let s := arrMod c.k (ArraySt.endGap (rampU (stepOf s (zoneOf c.leng))) c.cyc) s
    if bad ≠ 0 then arrMod c.k (fun a => a.halfMod o.dsth Half.invalid) (c.fault bad s)
    else
      let els := passElems s c o idx (bases.map (·.toNat))
      let pol := policy s c.k c.g
      let fls := els.foldl (fun t e => t.add e.out.fl) Flags.none
      let trap := decide (pol = 2) && fls.event
      let extra := segMark s c.k c.g ||| (if trap then mkFailed else 0)
      let s := arrMod c.k (fun a => a.halfMod o.dsth (fun hf =>
        let old := if hf.tag = some tag then hf.elems else []
        { tag := some tag, valid := true, terms := terms,
          elems := els.foldl (fun t e => tabSet (fun _ => {}) t e.key { e.el with mark := e.el.mark ||| extra }) old })) s
      let cols := passCols a.tile s c o (bases.map (·.toNat)) (uncoveredAt kk els)
      let rows := if sel then passRows a.tile s c o (bases.map (·.toNat)) cols else {}
      let eaten := els.foldl (fun t e => t ||| (e.el.mark &&& mkPoison)) 0
      let unc := ((List.range (ks * m)).filter fun i => uncoveredAt kk els (i / m) (i % m)).length
      let note : PassNote := { job := ownerOf s c.leng c.g, fl := fls, first := firstRec s c.k pol els, trap := trap, ate := decide (eaten ≠ 0), unc := unc }
      let s := arrMod c.k (fun a =>
        { a with
          lastPass := some (c.cyc, c.cyc + bt * m), actEnd := max a.actEnd (c.cyc + bt * m + 15), actLvl := 64
          flights := a.flights ++ [{ seg := c.g, pc := c.pc, op := o, cyc := c.cyc, commit := c.cyc + bt * m + 15, idx := idx,
                                     nprob := ks, region := region, beats := bt, chk := chk.isSome, selected := sel,
                                     iter := iters c.loops, workTick := c.wt, cols := cols, rows := rows,
                                     ldsAt := a.lds.getD 0, leng := c.leng, tileAt := a.lds.getD 0, bases := bases.map (·.toNat),
                                     tile := a.tile, els := els.map fun e => (e.key, formedElem trap e), note := note }] }) s
      let s := busyTo c.k c.g (c.cyc + bt * m + 15 + (if chk.isSome then 80 else 0)) s
      let put := (covers region ks o.boff.toNat m).map (fun y => (o.dsth, y.1, b4 c.cyc bt y.2))
      let s := segMod c.k c.g (fun x => { x with halves := x.halves ++ put }) s
      -- checksum column (R228): passes covered, vectors not covered
      let q := pgEng x 5
      let covered := decide (fget s q 0x54 1 1 = 0)
      let s := finc q 0x4C 0 32 unc (whenS covered (finc q 0x44 0 32 1) s)
      let s := match ownerOf s c.leng c.g, c.g with
        | some j, .rt => frameMod j c.wt (fun fr =>
            { fr with colchk := fr.colchk + b2n covered, rowchk := fr.rowchk + b2n sel }) s
        | _, _ => s
      -- numeric events (R71, R72)
      let s := countFlags c.k fls s
      let s := passEvent c pol idx els s
      let s := whenS trap (numTrap c.k c.leng c.g) s
      consume c.leng c.g c.pc (passOrigin s c o a.tile (bases.map (·.toNat))) eaten s

/-! ### BAL and the idle ramp -/

/-- BAL (R103-R105): the gap starts; a jump of the level by more than one step is a RAMP. -/
def doBal (h : IssueHdr) (g : BitVec 20) (s : State) : State :=
  issued .array 0 h s fun c =>
    let s := settle c.k c.cyc (revealChk c c.s)
    if c.dup then c.fault 0x01 s
    else
      let u := rampU (stepOf s (zoneOf c.leng))
      let a0 := engLevel s c.k c.leng c.cyc
      let a1 := balLevel u a0 g.toNat 1
      let s := whenS (decide (a0 + 1 < a1) || decide (a1 + 1 < a0)) (rampEvent c.leng) (gapEvent c.k c.leng c.cyc s)
      arrMod c.k (fun a => { a with gap := some (c.cyc, g.toNat, a0) }) s

/-- IDLE_RAMP_DOWN (R457): 64 more idle cycles have passed, and the level falls by one. [log 23, DEDUCED] -/
def doIdleRampDown (leng : Nat) (s : State) : State :=
  let k := storeKey s leng
  let u := rampU (stepOf s (zoneOf leng))
  let s := gapEvent k leng (idleFrom u (eng s k).arr).1 s
  arrMod k (fun a =>
    let i := idleFrom u a
    let a := { a with gap := none, actEnd := i.1, actLvl := i.2 }
    if a.actLvl = 0 then a else { a with actEnd := a.actEnd + 64, actLvl := a.actLvl - 1 }) s

/-- LDS. -/
def execLds (h : IssueHdr) (o : LdsOp) (s : State) : Res := gate (Instr.wf (.lds h o)) (doLds h o s)
/-- PASS. -/
def execPass (h : IssueHdr) (o : PassOp) (s : State) : Res := gate (Instr.wf (.pass h o)) (doPass h o s)
/-- BAL. -/
def execBal (h : IssueHdr) (g : BitVec 20) (s : State) : Res := gate (Instr.wf (.bal h g)) (doBal h g s)
/-- IDLE_RAMP_DOWN. -/
def execIdleRampDown (leng : BitVec 6) (s : State) : Res := .next (doIdleRampDown leng.toNat s)

end Sys2Proof.Machine
end

