-- ==== Sys2Proof/Machine/Drain.lean ====
section
/-! DEFINITION. DRAIN and DRAINR (R73-R75, R98, R101, R102, R120, R125-R129, R152, R188) and their port claims
(R88). -/

namespace Sys2Proof.Machine

/-! ### Drain -/

/-- Lines per vector of 64 elements in a format of 8 bits or more. -/
def linesPerVec (f : Fmt) : Nat := f.width / 8

/-- One drained element. -/
structure DrainEl where
  word : Nat
  v : FVal
  fl : Flags
  fin : Flags
  mark : Mark
  bad : Bool
  nan : Bool

/-- The factor of a slot's pair, changed by δ (R115, R127). -/
def Slot.factor (x : Slot) (δ : Int) : FVal := .num false x.pair.m.toNat (δ - x.pair.s.toInt)

/-- Cycles per vector (R102). -/
def drainRate (o : DrainOp) : Nat :=
  max (linesPerVec (fmtD o.dfmt))
    (max (if o.res then linesPerVec (fmtD o.rfmt) else 0) (if o.mul then linesPerVec (fmtD o.gfmt) else 0))

/-- All elements of a DRAIN (R74) of a half and pair slots, in order of vector and column, the pairs of the output's own record changed by
δ. A signalling NaN of the residual or multiplier raises INV (R48), also where Q is NaN. -/
def drainElsOf (hf : Half) (pa pr pg : Slot) (free : Nat) (s : State) (c : Ctx) (o : DrainOp) (δ : Int) (rbase gbase : Nat) :
    List DrainEl :=
  let tag := hf.tag.getD .q8
  let dst := fmtD o.dfmt
  let rf := fmtD o.rfmt
  let gf := fmtD o.gfmt
  let sm := pa.mark ||| (if o.res then pr.mark else 0) ||| (if o.mul then pg.mark else 0)
  let rate := drainRate o
  (List.range (o.nm1.toNat + 1)).flatMap fun j => (List.range 64).map fun n =>
    let el := hf.elem (o.base.toNat + j) n
    let i := j * 64 + n
    let (rl, rm) := cReadAt s c.k (rbase + i / rf.perLine) (c.cyc + 1 + j * rate + n / rf.perLine)
    let (gl, gm) := cReadAt s c.k (gbase + i / gf.perLine) (c.cyc + 1 + j * rate + n / gf.perLine)
    let (r, fr) := readVal rf (lineElem rf rl (i % rf.perLine))
    let (g, fg) := readVal gf (lineElem gf gl (i % gf.perLine))
    let q := el.val.value tag
    let (v, f1) := drainVal q (pa.factor δ) (if o.res then some (r, pr.factor (if pr.out.isSome then δ else 0)) else none)
      (if o.mul then some (g, pg.factor 0) else none)
    let (w, f2) := roundTo dst v
    let f0 := (if o.res then fr else {}).add (if o.mul then fg else {})
    let m := el.mark ||| sm ||| (if o.res then rm else 0) ||| (if o.mul then gm else 0)
    if el.valid then
      { word := w, v := v, fl := (f0.add f1).add f2, fin := f2, mark := m, bad := false,
        nan := decide (q = .nan) || (o.res && decide (r = .nan)) || (o.mul && decide (g = .nan)) }
    else
      { word := (Config.openWord (free * 16384 + i)).toNat % 2 ^ dst.width, v := .zero, fl := {}, fin := {},
        mark := m ||| mkFailed, bad := true, nan := false }

/-- All elements of a DRAIN, of the half and slots as they stand. [log 14, DESIGN CHOICE; 116, DEDUCED] -/
def drainEls (s : State) (c : Ctx) (o : DrainOp) (δ : Int) (rbase gbase : Nat) : List DrainEl :=
  drainElsOf ((eng s c.k).arr.half o.half) (slotGet s c.k o.aslot.toNat) (slotGet s c.k o.rslot.toNat) (slotGet s c.k o.gslot.toNat) s.free
    s c o δ rbase gbase

/-- The lines of a list of drained elements. -/
def elLines (f : Fmt) : Nat → List DrainEl → List (Line × Mark)
  | 0, _ => []
  | n + 1, l =>
    let h := l.take f.perLine
    (packLine f (h.map (·.word)), h.foldl (fun m e => m ||| e.mark) 0) :: elLines f n (l.drop f.perLine)

/-- Statistics of a drain (R121). -/
def drainStats (f : Fmt) (l : List DrainEl) : Stats :=
  l.foldl (fun t e => t.measure e.v e.fin f.isIeee false) {}

/-- The lines a drain overlays, advanced. -/
def drainBases (c : Ctx) (o : DrainOp) : Int × Int × Int :=
  (advance o.adv 0 c.loops o.dst.toNat, advance o.adv 1 c.loops o.rbase.toNat, advance o.adv 2 c.loops o.gbase.toNat)

/-- The operand whose poison a drain consumes, with its origin (R244): a residual or multiplier line, or a bank element. [log 85, DESIGN CHOICE] -/
def drainOrigin (s : State) (c : Ctx) (o : DrainOp) (rb gb : Nat) : Nat × Option Nat :=
  let n := o.nm1.toNat + 1
  let ins := (if o.res then [(1, rb, n * linesPerVec (fmtD o.rfmt))] else []) ++
    (if o.mul then [(2, gb, n * linesPerVec (fmtD o.gfmt))] else [])
  let mine (v : Nat) : Bool := decide (o.base.toNat ≤ v) && decide (v < o.base.toNat + n)
  poisonFrom s c.leng c.k ins (0, poisonElem s c.leng o.half ((eng s c.k).arr.half o.half) mine)

/-- Flags, first-event record, trap and poison of a drain's elements (R72, R152, R244). -/
def drainEvents (c : Ctx) (o : DrainOp) (l : List DrainEl) (s : State) : State :=
  let fl := l.foldl (fun t e => t.add e.fl) Flags.none
  let pol := policy s c.k c.g
  let s := countFlags c.k fl s
  let s := match l.zipIdx.find? (fun e => decide (causeOf e.1.fl e.1.nan ≠ 0)) with
    | some (e, i) => if pol = 0 then s else vecRecord c.k c.g c.pc (causeOf e.fl e.nan) (i / 64) (i % 64) 0 c.wt s
    | none => s
  let s := whenS (decide (pol = 2) && fl.event) (numTrap c.k c.leng c.g) s
  let (_, rb, gb) := drainBases c o
  consume c.leng c.g c.pc (drainOrigin s c o rb.toNat gb.toNat) (l.foldl (fun t e => t ||| (e.mark &&& mkPoison)) 0) s

/-- The drain's elements trap (R72). -/
def drainTraps (s : State) (c : Ctx) (l : List DrainEl) : Bool :=
  decide (policy s c.k c.g = 2) && (l.foldl (fun t e => t.add e.fl) Flags.none).event

/-- The record of a drained block (R116, R188). -/
def blockRec (o : DrainOp) (base : FVal) (out : OutRec) (t : Stats) (adj : Int) (recomp clipped cold : Bool) : ScaleRec :=
  { tid := out.tid, src := out.src, fmt := o.dfmt, recomp := recomp, clipped := clipped, cold := cold, seq := out.seq,
    scale := scaleWord base adj, adj := BitVec.ofInt 8 adj, stats := t }

/-- The last cycle of a DRAIN's drain (Table 4-8). -/
def drainDone (d n r : Nat) (mul : Bool) : Nat := d + (if mul then 9 else 5) + n * r

/-- A DRAIN's claims on ports 2 and 3 while it runs (R88, Table 4-8). -/
def drainClaims (c : Ctx) (o : DrainOp) (r : Nat) : List Claim :=
  let len := drainDone c.cyc (o.nm1.toNat + 1) r o.mul - c.cyc
  if o.res || o.mul then
    [Port.r2, Port.r3].map fun p =>
      { port := p, unit := .array, seg := c.g, pc := c.pc, lo := c.cyc + 1, len := len, per := len, n := 1 }
  else []

/-- Why a DRAIN or DRAINR faults at issue, 0 where it does not (R172, Table 4-6, R119, R183); a half that has no tag yet holds as many
vectors as a q8 one. [log 39, DEDUCED; 130, DESIGN CHOICE] -/
def drainBad (s : State) (c : Ctx) (o : DrainOp) : Nat :=
  let hf := (eng s c.k).arr.half o.half
  let n := o.nm1.toNat + 1
  let (db, rb, gb) := drainBases c o
  let use (b : Bool) (x : BitVec 5) : Bool := b && decide (c.cyc < (slotGet s c.k x.toNat).usable)
  if c.dup then 0x01
  else if tagCap (hf.tag.getD .q8) < o.base.toNat + n then 0x04
  else if use true o.aslot || use o.res o.rslot || use o.mul o.gslot then 0x06
  else if !inFoot s c.leng c.g db (n * linesPerVec (fmtD o.dfmt)) ||
      (o.res && !inFoot s c.leng c.g rb (n * linesPerVec (fmtD o.rfmt))) ||
      (o.mul && !inFoot s c.leng c.g gb (n * linesPerVec (fmtD o.gfmt))) then 0x08
  else 0

/-- The last DRAIN of a segment. -/
def ArraySt.lastDrain (a : ArraySt) : Seg → Option DrainSt
  | .rt => a.drain
  | .bg => a.drainBg

/-- Put the last DRAIN of a segment. -/
def ArraySt.setDrain (g : Seg) (d : Option DrainSt) (a : ArraySt) : ArraySt :=
  match g with
  | .rt => { a with drain := d }
  | .bg => { a with drainBg := d }

/-- A DRAIN or DRAINR starts to read the bank. -/
def ArraySt.startDrain (g : Seg) (d : DrainSt) (a : ArraySt) : ArraySt :=
  { a.setDrain g (some d) with reads := a.reads.filter (fun r => decide (d.issue ≤ r.done)) ++ [d] }

/-- The record write of a DRAIN that still waits. -/
def drainRec (e : Eng) (d : DrainSt) : Option RecWr :=
  e.recWrs.find? fun w => w.isDrain && decide (w.seg = d.seg) && decide (w.pc = d.pc) && decide (w.due = d.done + 1)

/-- Change the record write of a DRAIN that still waits. -/
def drainRecMod (k : Nat) (d : DrainSt) (f : RecWr → RecWr) (s : State) : State :=
  engMod k (fun e => { e with recWrs := e.recWrs.map (fun w => if drainRec e d = some w then f w else w) }) s

/-- The record write of a segment's last DRAIN is not made: its block has failed (R118, R129, R135). -/
def failDrain (k : Nat) (g : Seg) (s : State) : State :=
  match (eng s k).arr.lastDrain g with
  | some d => match drainRec (eng s k) d with
    | some w => failBlock k w s
    | none => s
  | none => s

/-- A drain that faults: its lines keep their values and are FAILED, its tag entry is invalid and its block, where it is tracked,
has failed (R135, R175). `first` tells a DRAIN from a DRAINR; a DRAINR with no DRAIN before it would have set what its record slot says. -/
def drainFault (c : Ctx) (o : DrainOp) (first : Bool) (bad : Nat) (s : State) : State :=
  let n := (o.nm1.toNat + 1) * linesPerVec (fmtD o.dfmt)
  let (db, _, _) := drainBases c o
  let pa := slotGet s c.k o.aslot.toNat
  let s := markFoot c db n mkFailed s
  let s := if first then statFail c.leng c.g (if pa.valid then pa.out else none) s else failDrain c.k c.g s
  let own := !pa.valid || pa.out.isSome
  let sets := if first then own else ((eng s c.k).arr.lastDrain c.g).elim own fun d => d.out.isSome || d.failed
  arrMod c.k (ArraySt.setDrain c.g none) (whenS sets (tagClear c.k o.tag.toNat) (c.fault bad s))

/-- The slots a drain names, and whether one is invalid, and the mark its items take then (R120), with the poison of a slot
that has it (R243). [log 29, DEDUCED] -/
def drainSlots (s : State) (c : Ctx) (o : DrainOp) : Option Mark :=
  let l := [slotGet s c.k o.aslot.toNat] ++ (if o.res then [slotGet s c.k o.rslot.toNat] else []) ++
    (if o.mul then [slotGet s c.k o.gslot.toNat] else [])
  let inv := l.filter fun x => !x.valid
  if inv.isEmpty then none
  else some ((if inv.all (fun x => decide (x.mark &&& mkSkew ≠ 0) && !x.bad) then mkSkew else mkFailed) |||
    l.foldl (fun m x => m ||| (x.mark &&& mkPoison)) 0)

/-- The cycle in which a drain writes its line `i` (Table 4-8). -/
def drainCyc (c : Ctx) (o : DrainOp) (i : Nat) : Nat :=
  let w := linesPerVec (fmtD o.dfmt)
  c.cyc + (if o.mul then 10 else 6) + (i / w) * drainRate o + i % w

/-- The recompute slot of a DRAIN follows in its segment's code (R125): the next drain of the code before the segment's flow turns. [log 131, DEDUCED] -/
def slotFollows (s : State) (c : Ctx) : Bool :=
  match ownerOf s c.leng c.g with
  | none => false
  | some j =>
    let (cb, cn) := tabGet (fun _ => (0, 0)) (job s j).codeAt c.leng
    let ops := (List.range (min 256 (cn - c.pc - 1))).map fun i => (decodeWord (tabGet (fun _ => 0) (eng s c.k).code (cb + c.pc + 1 + i))).map (·.2)
    (ops.findSome? fun o => match o with
      | some (.drainr _) => some true
      | some (.drain _) | some .wtick | some .halt | some .endl | some (.loop _) | some (.yield _) | none => some false
      | _ => none).getD false

/-- What a drain keeps of its reads while it runs. -/
def drainRun (s : State) (c : Ctx) (o : DrainOp) (δ : Int) (ls : List (Line × Mark)) (extra : Mark) (clip : Bool) (els : List DrainEl) : DrainRun :=
  let (db, rb, gb) := drainBases c o
  { leng := c.leng, wt := c.wt, db := db.toNat, rb := rb.toNat, gb := gb.toNat, bank := (eng s c.k).arr.half o.half,
    pa := slotGet s c.k o.aslot.toNat, pr := slotGet s c.k o.rslot.toNat, pg := slotGet s c.k o.gslot.toNat, delta := δ, free := s.free,
    lines := ls, extra := extra, clip := clip, fl := els.foldl (fun t e => t.add e.fl) Flags.none }

/-- A running drain forms its lines again, after something it had still to read has changed (R102): the lines it writes, its statistics,
record and trigger, flags, trap and poison follow. A line that no longer holds what the drain wrote stays. [log 128, DEDUCED] -/
def redrain (k i : Nat) (s : State) : State :=
  match (eng s k).arr.reads[i]? with
  | none => s
  | some d =>
    match d.run with
    | none => s
    | some r =>
      let o := d.op
      let dst := fmtD o.dfmt
      let c : Ctx := { s := s, k := k, leng := r.leng, g := d.seg, pc := d.pc, cyc := d.issue, declared := d.issue, dup := false,
                       loops := [], wt := r.wt }
      let els := drainElsOf r.bank r.pa r.pr r.pg r.free s c o r.delta r.rb r.gb
      let t := drainStats dst els
      let traps := drainTraps s c els
      let was := decide (policy s k d.seg = 2) && r.fl.event
      let fl := els.foldl (fun t e => t.add e.fl) Flags.none
      let ls := (elLines dst r.lines.length els).map fun l => (l.1, l.2 ||| r.extra ||| (if traps then mkFailed else 0))
      let s := foldS (r.lines.zip ls).zipIdx (fun x s =>
        let now := cRead s k (r.db + x.2)
        if x.1.1 = x.1.2 ∨ now.1 ≠ x.1.1.1 then s
        else cPut k (r.db + x.2) x.1.2.1 ((now.2 &&& ~~~x.1.1.2) ||| x.1.2.2) s) s
      let s := countFlags k fl (uncountFlags k r.fl s)
      let s := whenS (was && !traps) (untrap k) (whenS (traps && !was) (numTrap k r.leng d.seg) s)
      let eaten := els.foldl (fun t e => t ||| (e.mark &&& mkPoison)) 0
      let s := consume r.leng d.seg d.pc (drainOrigin s c o r.rb r.gb) eaten s
      let trig := dst.isPosit && triggers t (fget s (pgEng k 6) 0x40 0 16) (fget s (pgEng k 6) 0x40 16 16)
      let d' : DrainSt := { d with stats := t, trig := if d.recomputed then d.trig else trig, run := some { r with lines := ls, fl := fl } }
      let s := drainRecMod k d (fun w =>
        { w with mark := ls.foldl (fun x l => x ||| l.2) 0, stats := !d.failed && !traps,
                 record := { w.record with clipped := trig || r.clip, stats := t } }) s
      arrMod k (fun a =>
        { a with reads := a.reads.set i d', drain := if a.drain = some d then some d' else a.drain,
                 drainBg := if a.drainBg = some d then some d' else a.drainBg }) s

/-- A drain still reads a residual or multiplier line in a cycle after `cyc` (Table 4-8). -/
def DrainSt.readsLine (d : DrainSt) (line cyc : Nat) : Bool :=
  d.run.any fun r =>
    let n := d.op.nm1.toNat + 1
    let on (use : Bool) (f : Fmt) (b : Nat) : Bool := use && decide (b ≤ line) && decide (line < b + n * linesPerVec f)
    decide (cyc < d.issue + 1 + n * d.rate) && (on d.op.res (fmtD d.op.rfmt) r.rb || on d.op.mul (fmtD d.op.gfmt) r.gb)

/-- A line has been written in cycle `cyc`: drains that still read it form their lines again. [log 128, DEDUCED] -/
def redrainLine (k line cyc : Nat) (s : State) : State :=
  foldS ((List.range (eng s k).arr.reads.length).filter fun i => ((eng s k).arr.reads[i]?).any fun d => d.readsLine line cyc) (redrain k) s

/-- An arriving transfer writes a line in cycle `cyc` (R197, R329); running drains that still read it see it (R102). [log 128, DEDUCED] -/
def landLine (k line : Nat) (l : Line) (m : Mark) (cyc : Nat) (s : State) : State :=
  redrainLine k line cyc (cWrite k line l m 0 cyc true s)

/-- A chain add has changed element `key` of a half in cycle `cyc`, and with `widened` the half's tag: drains that still read the element
form their lines again (R102). [log 128, DEDUCED] -/
def redrainElem (k : Nat) (h : Bool) (key cyc : Nat) (e : Elem) (widen : Half → Half) (s : State) : State :=
  let hit (d : DrainSt) : Bool := d.run.isSome && decide (d.op.half = h) && decide (d.op.base.toNat ≤ key / 64) &&
    decide (key / 64 ≤ d.op.base.toNat + d.op.nm1.toNat) && decide (cyc < d.readCyc (key / 64))
  let s := arrMod k (fun a =>
    let up (d : DrainSt) : DrainSt := if hit d then
        { d with run := d.run.map fun r => { r with bank := let b := widen r.bank; { b with elems := tabSet (fun _ => {}) b.elems key e } } }
      else d
    { a with reads := a.reads.map up, drain := a.drain.map up, drainBg := a.drainBg.map up }) s
  foldS ((List.range (eng s k).arr.reads.length).filter fun i => ((eng s k).arr.reads[i]?).any hit) (redrain k) s

/-- DRAIN. [log 29, DEDUCED] -/
def doDrain (h : IssueHdr) (o : DrainOp) (s : State) : State :=
  let k0 := storeKey s h.leng.toNat
  let rel := ((eng s k0).arr.flights.filter fun f => decide (f.op.dsth = o.half)).foldl (fun t f => max t (f.commit + 1)) 0
  issued .array rel h s fun c =>
    let s := settle c.k c.cyc (revealChk c c.s)
    let bad := drainBad s c o
    if bad ≠ 0 then drainFault c o true bad s
    else
      let n := o.nm1.toNat + 1
      let r := drainRate o
      let done := drainDone c.cyc n r o.mul
      let dst := fmtD o.dfmt
      let nl := n * linesPerVec dst
      let (db, rb, gb) := drainBases c o
      let pa := slotGet s c.k o.aslot.toNat
      let s := busyTo c.k c.g done (arrayClaims c.k c.cyc (drainClaims c o r) s)
      let st (failed : Bool) (t : Stats) (out : Option OutRec) (trig : Bool) : DrainSt :=
        { seg := c.g, pc := c.pc, op := o, issue := c.cyc, done := done, rate := r, stats := t, out := out, failed := failed,
          recomputed := false, trig := trig }
      match drainSlots s c o with
      | some m =>
        arrMod c.k (ArraySt.startDrain c.g (st true {} none false))
          (tagClear c.k o.tag.toNat (cMarks c.k db.toNat nl m (statFail c.leng c.g (if pa.valid then pa.out else none) s)))
      | none =>
        let els := drainEls s c o 0 rb.toNat gb.toNat
        let s0 := s
        let t := drainStats dst els
        let traps := drainTraps s c els
        let failed := els.any (·.bad)
        let extra := if traps then mkFailed else 0
        let ls := (elLines dst nl els).map fun l => (l.1, l.2 ||| extra)
        let s := (takeFree s).2
        let s := drainEvents c o els (c.writeLines db.toNat ls (drainCyc c o) s)
        let trig := dst.isPosit && triggers t (fget s (pgEng c.k 6) 0x40 0 16) (fget s (pgEng c.k 6) 0x40 16 16)
        let run := drainRun s0 c o 0 ls 0 false els
        let s := arrMod c.k (ArraySt.startDrain c.g { st failed t pa.out trig with run := some run }) s
        match pa.out with
        | none => s
        | some out =>
          let m := ls.foldl (fun x l => x ||| l.2) 0 ||| (if failed then mkFailed else 0)
          let w : RecWr := { seg := c.g, pc := c.pc, due := done + 1, line := db.toNat + nl, tag := o.tag.toNat,
                             record := blockRec o (outBase s c.leng c.g out) out t out.adj false trig (coldTid s out.tid), mark := m,
                             stats := !failed && !traps, isDrain := true, first := db.toNat,
                             lost := turnedAway (eng s c.k) db.toNat nl, wait := slotFollows s c }
          let s := segMod c.k c.g (fun x => { x with drained := x.drained ++ [(o.half, out.tid, BitVec.ofNat 8 o.base.toNat)] }) s
          busyTo c.k c.g (done + 1) (engMod c.k (fun e => { e with recWrs := e.recWrs ++ [w] }) s)

/-- A DRAINR that runs triggered: the drain again with δ, its lines and its record (R127, R128, R137). The record of
a cold recompute has RECOMP 0. [log 118, DEDUCED] -/
def recompute (c : Ctx) (o : DrainOp) (d : DrainSt) (out : OutRec) (cold : Bool) (done : Nat) (s : State) : State :=
  let dst := fmtD o.dfmt
  let nl := (o.nm1.toNat + 1) * linesPerVec dst
  let (db, rb, gb) := drainBases c o
  let δ := if cold then clampI (-120 - out.adj) (120 - out.adj) (presentPosit dst d.stats) else recompDelta dst d.stats out.adj
  let els := drainEls s c o δ rb.toNat gb.toNat
  let t := drainStats dst els
  let p := pgEng c.k 6
  let clip := triggers t (fget s p 0x40 0 16) (fget s p 0x40 16 16) || (!cold && decide (δ = 0))
  let traps := drainTraps s c els
  let extra := (if cold then 0 else mkRecomputed) ||| (if traps then mkFailed else 0)
  let ls := (elLines dst nl els).map fun l => (l.1, l.2 ||| extra)
  let run := drainRun s c o δ ls (if cold then 0 else mkRecomputed) (!cold && decide (δ = 0)) els
  let s := drainEvents c o els (c.writeLines db.toNat ls (drainCyc c o) s)
  let s := arrMod c.k (ArraySt.startDrain c.g
    { d with pc := c.pc, issue := c.cyc, done := done, recomputed := true, stats := t, run := some run }) s
  let s := raise p 3 (finc p 0x48 0 16 1 s)
  let s := whenS clip (fun s => raise p 2 (finc p 0x48 16 16 1 s)) s
  let m := ls.foldl (fun x l => x ||| l.2) 0
  drainRecMod c.k d (fun w =>
    { w with pc := c.pc, due := done + 1, mark := m, stats := w.stats && !traps, wait := false,
             lost := w.lost || turnedAway (eng s c.k) db.toNat nl,
             record := blockRec o (outBase s c.leng c.g out) out t (out.adj + δ) (!cold) clip (coldTid s out.tid) }) s

/-- DRAINR (R125-R128, R137). One whose DRAIN faulted has no drain before it and raises SCHED_FAULT 0x06. [log 31, DEDUCED; 101, DEDUCED] -/
def doDrainr (h : IssueHdr) (o : DrainOp) (s : State) : State :=
  let k0 := storeKey s h.leng.toNat
  let rel := ((eng s k0).arr.flights.filter fun f => decide (f.op.dsth = o.half)).foldl (fun t f => max t (f.commit + 1)) 0
  issued .array rel h s fun c =>
    let s := settle c.k c.cyc (revealChk c c.s)
    let bad := drainBad s c o
    let d? := (eng s c.k).arr.lastDrain c.g
    let ok := d?.any fun d => decide (d.op = o) && decide (d.done < c.cyc)
    if bad ≠ 0 then drainFault c o false bad s
    else if !ok then drainFault c o false 0x06 s
    else
      match d? with
      | none => s
      | some d =>
        let r := drainRate o
        let done := drainDone c.cyc (o.nm1.toNat + 1) r o.mul
        let nl := (o.nm1.toNat + 1) * linesPerVec (fmtD o.dfmt)
        let (db, rb, gb) := drainBases c o
        let s := busyTo c.k c.g done (arrayClaims c.k c.cyc (drainClaims c o r) s)
        let mark (m : Mark) (s : State) : State :=
          tagClear c.k o.tag.toNat (cMarks c.k db.toNat nl m (failDrain c.k c.g s))
        let again (s : State) : State :=
          arrMod c.k (ArraySt.startDrain c.g { d with pc := c.pc, issue := c.cyc, done := done, recomputed := true, run := none }) s
        match drainSlots s c o with
        | some m => again (mark m s)
        | none =>
          if (drainEls s c o 0 rb.toNat gb.toNat).any (·.bad) then again (mark mkFailed s)
          else
            match d.out with
            | none => again s
            | some out =>
              let s := busyTo c.k c.g (done + 1) s
              let cold := coldTid s out.tid && decide (out.src = 1)
              if (fmtD o.dfmt).isPosit && !d.failed && (cold || d.trig) then recompute c o d out cold done s
              else
                again (drainRecMod c.k d (fun w => { w with pc := c.pc, due := done + 1, wait := false }) s)

/-- DRAIN. -/
def execDrain (h : IssueHdr) (o : DrainOp) (s : State) : Res := gate (Instr.wf (.drain h o)) (doDrain h o s)
/-- DRAINR. -/
def execDrainr (h : IssueHdr) (o : DrainOp) (s : State) : Res := gate (Instr.wf (.drainr h o)) (doDrainr h o s)

end Sys2Proof.Machine
end

