-- ==== Sys2Proof/Machine/Scale.lean ====
section
/-! DEFINITION. The scale unit and the Catalogue's inputs (spec/05_scales_and_catalogue.md): SCL, STAT, the present
record, record writes, statistics transfers and the loss of an entry. -/

namespace Sys2Proof.Machine

/-! ### SCL (R114-R120, R124, R183, R191) -/

/-- What reading one record operand gives: its ADJ with the sign applied, the output record it makes, its marks, and the
first comparison that failed with what was compared: (CMP, TID, SEQ expected, SEQ got). -/
structure RecOut where
  x : Int := 0
  out : Option OutRec := none
  mark : Mark := 0
  cmp : Option (Nat × BitVec 12 × BitVec 32 × BitVec 32) := none
  early : Bool := false
  tage : Nat := 0

/-- Sign of a record operand (Table 7-8). -/
def recSign (r : RecOp) : Int := if r.sg = 3 then -1 else 1

/-- One record operand; `bix` is its advanced block index. [log 21, DEDUCED; 34, DEDUCED] -/
def recRead (s : State) (c : Ctx) (j : Nat) (r : RecOp) (bix : Int) : RecOut :=
  let b := job s j
  match b.tensor r.lid with
  | none => {}
  | some te =>
    let tid := tidOf s j r.lid
    let blk := seqOf te.bpt c.wt bix.toNat
    let plus := decide (r.sg = 1) || decide (r.sg = 2)
    let mkOut (adj : Int) : Option OutRec :=
      if plus then some { lid := r.lid, tid := tid, seq := blk, adj := adj, src := te.src } else none
    if r.sg = 0 then {}
    else if r.sg = 2 then { out := mkOut 0, tage := r.tag.toNat }
    else if r.tag = 127 ∨ r.tag = 255 then
      let p := ((eng s c.k).seg c.g).present
      if p.pending && decide (c.cyc < p.ready) then { early := true, tage := r.tag.toNat }
      else if !p.valid || p.bad then { cmp := some (2, tid, blk, 0), tage := r.tag.toNat }
      else { x := recSign r * p.adj, out := mkOut p.adj, mark := p.mark, tage := r.tag.toNat }
    else
      let t := (eng s c.k).tagAt r.tag.toNat c.cyc
      let (l, m) := cReadAt s c.k t.line.toNat c.cyc
      let v := recOfLine l
      if m &&& mkPoison ≠ 0 then
        let adj := if v.ok then v.adj else 0
        { x := recSign r * adj, out := mkOut adj, mark := m, tage := r.tag.toNat }
      else if !t.valid then { cmp := some (2, tid, blk, 0), mark := m, tage := r.tag.toNat }
      else if !v.ok then { cmp := some (1, tid, blk, v.seq), mark := m, tage := r.tag.toNat }
      else
        let want : BitVec 32 := if v.directive then BitVec.ofNat 32 c.wt.toNat else blk
        let cold := v.directive && v.cold
        let adj := if cold then 0 else v.adj
        if v.tid ≠ tid ∨ (!v.directive ∧ t.tid ≠ tid) then { cmp := some (3, tid, want, v.seq), mark := m, tage := r.tag.toNat }
        else if v.seq ≠ want then { cmp := some (4, tid, want, v.seq), mark := m, tage := r.tag.toNat }
        else if !v.directive ∧ t.seq ≠ want then { cmp := some (4, tid, want, t.seq), mark := m, tage := r.tag.toNat }
        else { x := recSign r * adj, out := mkOut adj, mark := m, tage := r.tag.toNat }

/-- A fp32 factor with an odd significand: `m * 2^(-s0)`; none where R115 does not allow it. -/
def factorOf (w : Word) : Option (Nat × Int) :=
  if w = 0 then some (0, 0)
  else
    match decodeIeee .fp32 w.toNat with
    | (.num false m e, _) =>
      if m = 0 then none
      else
        let rec strip (fuel m : Nat) (e : Int) : Nat × Int :=
          match fuel with
          | 0 => (m, -e)
          | f + 1 => if m % 2 = 0 then strip f (m / 2) (e + 1) else (m, -e)
        some (strip 24 m e)
    | _ => none

/-- The pair of ρ0 and X (R115): M = m, S = S0 - X; none where S leaves -128 to 127. -/
def pairOf (w : Word) (x : Int) : Option Pair :=
  match factorOf w with
  | none => none
  | some (m, s0) =>
    if m = 0 then some { m := 0, s := 0 }
    else
      let sv := s0 - x
      if -128 ≤ sv ∧ sv ≤ 127 then some { m := BitVec.ofNat 32 m, s := BitVec.ofInt 8 sv } else none

/-- LASTSKEW, EXPSEQ, GOTSEQ show the last skew (Table 15-11). [log 34, DEDUCED] -/
def lastSkew (k tage slot cmp : Nat) (tid : BitVec 12) (want got : BitVec 32) (s : State) : State :=
  let p := pgEng k 6
  let s := errInfo p 0x10 0 4 cmp s
  rset p 0x54 got (rset p 0x50 want
    (rset p 0x4C (BitVec.ofNat 32 (tage + slot * 2 ^ 8 + cmp * 2 ^ 13 + tid.toNat * 2 ^ 16 + 2 ^ 31)) s))

/-- SKEW (R119): counted, kept, reported; the slot becomes invalid, and keeps the poison `m` of the records read (R243). -/
def doSkew (c : Ctx) (slot : Nat) (m : Mark) (r : RecOut) (cmp : Nat) (tid : BitVec 12) (want got : BitVec 32) (s : State) : State :=
  let p := pgEng c.k 6
  let s := lastSkew c.k r.tage slot cmp tid want got (raise p 0 (finc p 0x44 0 16 1 s))
  let s := errEng 0x0304 2 c.leng c.g 0x26 [slot, cmp, tid.toNat, got.toNat] s
  slotSet c.k slot { valid := false, bad := false, mark := mkSkew ||| (m &&& mkPoison), usable := c.cyc + 8 } s

/-- BADSCALE (R115); the slot keeps the poison `m` of the records read (R243). -/
def doBadscale (c : Ctx) (slot : Nat) (m : Mark) (s : State) : State :=
  let p := pgEng c.k 6
  let s := lastSkew c.k 0 slot 5 0 0 0 (raise p 1 (finc p 0x44 16 16 1 s))
  let s := errEng 0x0304 2 c.leng c.g 0x26 [slot, 5, 0, 0] s
  slotSet c.k slot { valid := false, bad := true, mark := mkFailed ||| (m &&& mkPoison), usable := c.cyc + 8 } s

/-- A block index lies in 0 to BPT - 1, or is 0 for a static tensor (R183). -/
def bixOk (s : State) (j : Nat) (r : RecOp) (bix : Int) : Bool :=
  decide (r.sg = 0) ||
    match (job s j).tensor r.lid with
    | none => true
    | some t => if t.bpt = 0 then decide (bix = 0) else decide (0 ≤ bix) && decide (bix < t.bpt)

/-- SCL. It completes, for the segment's hold, 8 cycles after its issue. [log 34, DEDUCED; 39, DEDUCED; 119, DEDUCED] -/
def doScl (h : IssueHdr) (o : SclOp) (s : State) : State :=
  issued .scale 0 h s fun c =>
    let s := c.s
    let slot := o.slot.toNat
    let j := (ownerOf s c.leng c.g).getD 0
    let recs := [o.r1, o.r2, o.r3]
    let bixs := recs.zipIdx.map fun (r, i) => (r, advance o.adv i c.loops r.bix.toNat)
    let fail (cause : Nat) (s : State) : State :=
      slotSet c.k slot { valid := false, bad := true, mark := mkFailed, usable := c.cyc + 8 } (c.fault cause s)
    if c.dup then fail 0x01 s
    else if !(bixs.all fun x => bixOk s j x.1 x.2) then fail 0x0A s
    else
      let rs := bixs.map fun x => recRead s c j x.1 x.2
      if rs.any (·.early) then fail 0x06 s
      else
        let m := rs.foldl (fun t r => t ||| r.mark) 0
        let org := poisonFrom s c.leng c.k (bixs.zipIdx.map fun x => (x.2, ((eng s c.k).tagAt x.1.1.tag.toNat c.cyc).line.toNat, 1)) (0, none)
        let s := consume c.leng c.g c.pc org m (busyTo c.k c.g (c.cyc + 8) s)
        match rs.find? (fun r => r.cmp.isSome) with
        | some r =>
          match r.cmp with
          | some (cmp, tid, want, got) => doSkew c slot m r cmp tid want got s
          | none => s
        | none =>
          let x := rs.foldl (fun t r => t + r.x) 0
          let w : Word := ((tabGet (fun _ => []) (job s j).factors c.leng).getD o.fidx.toNat 0)
          match pairOf w x with
          | none => doBadscale c slot m s
          | some p =>
            let out := rs.foldl (fun t r => if t.isSome then t else r.out) none
            slotSet c.k slot { valid := true, bad := false, mark := m, pair := p, x := x, out := out, usable := c.cyc + 8 } s

/-! ### STAT (R121-R124) -/

/-- The statistics of consecutive lines of a format (R121). -/
def statLines (f : Fmt) (ls : List Line) : Stats :=
  ls.foldl (fun t l => (List.range f.perLine).foldl (fun t i =>
    t.measure (readVal f (lineElem f l i)).1 {} false false) t) {}

/-- STAT: the present record is invalid from its issue, and pending until its statistics are ready, NLINES + 12
cycles after it, which is when it completes. [log 119, DEDUCED] -/
def doStat (h : IssueHdr) (o : StatOp) (s : State) : State :=
  issued .scale 0 h s fun c =>
    let s := c.s
    let n := o.nlines.toNat
    let base := advance o.adv 0 c.loops o.base.toNat
    let cl : Claim := { port := .r3, unit := .scale, seg := c.g, pc := c.pc, lo := c.cyc + 1, len := n, per := n, n := 1 }
    let rdy := c.cyc + n + 12
    let put (bad : Bool) (adj : Int) (m : Mark) (t : Stats) (s : State) : State :=
      segMod c.k c.g (fun x => { x with present := { valid := false, pending := true, ready := rdy, bad := bad, adj := adj,
                                                     mark := m, stats := t } }) s
    if c.dup then put true 0 0 {} (c.fault 0x01 s)
    else if !inFoot s c.leng c.g base n then put true 0 0 {} (c.fault 0x08 s)
    else
      match otherClaims c.k c.cyc [cl] s with
      | none => put true 0 0 {} (c.fault 0x02 s)
      | some s =>
        let ls := (List.range n).map fun i => cReadAt s c.k (base.toNat + i) (c.cyc + 1 + i)
        let m := ls.foldl (fun t l => t ||| l.2) 0
        let t := statLines (fmtD o.sfmt) (ls.map (·.1))
        busyTo c.k c.g rdy (consume c.leng c.g c.pc (poisonFrom s c.leng c.k [(0, base.toNat, n)] (0, none)) m (put false (presentAdj (fmtD o.dfmt) t) m t s))

/-- STAT_READY (R124): the statistics of the segment's last STAT are ready; the present record is valid unless they are
invalid. [log 83, DESIGN CHOICE] -/
def doStatReady (leng : Nat) (g : Seg) (s : State) : State :=
  let k := storeKey s leng
  segMod k g (fun x =>
    if x.present.pending then { x with present := { x.present with pending := false, valid := !x.present.bad, ready := 0 } } else x) s

/-! ### Record writes and statistics (R118, R129, R132, R135, R190) -/

/-- The record write that is due first, of those that wait for no recompute slot (R129). [log 131, DEDUCED] -/
def Eng.nextRec (e : Eng) : Option RecWr :=
  (e.recWrs.filter fun w => !w.wait).foldl (fun b w => match b with
    | some x => if w.due < x.due then some w else b
    | none => some w) none

/-- The block of a record write has failed: its producer failed, a hold window turned one of its lines away, or its segment is in a
work tick with a sequencer fault (R118, R175, R197, R245). -/
def blockFailed (s : State) (k : Nat) (w : RecWr) : Bool := !w.stats || w.lost || decide (segMark s k w.seg &&& mkFailed ≠ 0)

/-- SCALE_RECORD_WRITE: the record that is due goes out through write port 1, the tag entry is set and the statistics are queued; a
block that failed, or whose record a hold window turns away, leaves its tag entry invalid (R118, R129, R135, R175, R190). The vector unit loses the port in that cycle (R149). [log 31, DEDUCED] -/
def doScaleRecordWrite (leng : Nat) (s : State) : State :=
  let k := storeKey s leng
  let s := match (eng s k).nextRec with
    | some w => pendTo k w.due s
    | none => s
  match (eng s k).nextRec with
  | none => s
  | some w =>
    let s := engMod k (fun e => { e with recWrs := e.recWrs.erase w }) s
    let s := foldS ((eng s k).vec.runs.filter fun p => p.writes.any fun x => x.has w.due) (vecLose k w.due) s
    let j := (ownerOf s leng w.seg).getD 0
    let bad := blockFailed s k w || (heldAt (eng s k) w.line w.due).isSome
    let good := decide (w.mark &&& (mkFailed ||| mkPoison ||| mkSkew) = 0) && !bad
    let q : StatX := { slot := j, tid := w.record.tid.toNat, adj := w.record.adj.toInt, stats := w.record.stats, ok := good }
    let s := queueStat q s
    if blockFailed s k w then tagClear k w.tag (cMark k w.line mkFailed s)
    else if bad then tagClear k w.tag (cWrite k w.line w.record.line w.mark w.pc w.due false s)
    else
      let s := segMod k w.seg (fun x => { x with wrote := x.wrote ++ [(w.line, w.due)] }) s
      let s := cWrite k w.line w.record.line (w.mark ||| segMark s k w.seg) w.pc w.due false s
      tagSet k w.tag { valid := true, tid := w.record.tid, seq := w.record.seq, line := BitVec.ofNat 17 w.line } s

/-- Real magnitudes of a record's statistics (R132): SUMLOG less 256 ADJ NNZ, the record's fp32 MAXMAG times 2^(-ADJ), not
below 2^-126. -/
def realStats (adj : Int) (t : Stats) : Stats :=
  let (m, x) := match (decodeIeee .fp32 (maxWord t)).1 with
    | .num _ m x => (m, x)
    | _ => (t.maxM, t.maxE)
  let e := x - adj
  let low := decide (t.maxM ≠ 0) && (decide (m = 0) || decide (scaleOf m e < -126))
  { t with sumlog := t.sumlog - 256 * adj * t.nnz, maxM := if low then 1 else m, maxE := if low then -126 else e }

/-- STATISTICS_TRANSFER (R132, R135): the slot's oldest queued transfer lands, or is late and marks the open step. -/
def doStatisticsTransfer (slot : Nat) (late : Bool) (s : State) : State :=
  match s.statQ.find? (fun x => decide (x.slot = slot)) with
  | none => s
  | some x =>
    let s := { s with statQ := s.statQ.erase x }
    if (catE s x.tid).mode = 0 then s
    else if late || !x.ok then
      let s := whenS late (fun s =>
        match (job s slot).engs with
        | l :: _ =>
          let (f, s) := takeFree s
          let (g, s) := takeFree s
          moveLate l (job s slot).seg 0 (Config.openWord f).toNat (Config.openWord g).toNat s
        | [] => s) s
      catMod x.tid (fun e => { e with openPart := true }) s
    else catMod x.tid (fun e => { e with stats := e.stats.merge (realStats x.adj x.stats) }) s

/-- An entry whose contents are lost (R136, R137). -/
def loseEntry (e : CatE) : CatE :=
  { mode := e.mode, job := e.job, fmt := e.fmt, w := e.w, lag := e.lag, coldLeft := e.w, step := e.step, dirtab := e.dirtab,
    src := e.src }

/-- CATALOGUE_ENTRY_LOST: an uncorrectable SRAM error; the entry is cold, and the Errata log says so. -/
def doCatalogueEntryLost (tid : Nat) (s : State) : State :=
  if (catE s tid).mode = 0 then s
  else
    errata { ty := 0x0701, sev := 1, level := 5, data := true, block := 0x0A, job := (catE s tid).job, detail := [tid, 3] }
      (catMod tid loseEntry s)

/-- CATALOGUE_SEL (R412): the entry is copied whole into the aperture. [log 62, DEDUCED] -/
def doCatalogueSel (tid : BitVec 12) (s : State) : State :=
  let s := rset pgCat 0x40 (tid.setWidth 32) s
  { s with aperture := some (tid.toNat, catE s tid.toNat) }

/-- SCL. -/
def execScl (h : IssueHdr) (o : SclOp) (s : State) : Res := gate (Instr.wf (.scl h o)) (doScl h o s)
/-- STAT. -/
def execStat (h : IssueHdr) (o : StatOp) (s : State) : Res := gate (Instr.wf (.stat h o)) (doStat h o s)
/-- STAT_READY. -/
def execStatReady (leng : BitVec 6) (g : Seg) (s : State) : Res := .next (doStatReady leng.toNat g s)
/-- SCALE_RECORD_WRITE. -/
def execScaleRecordWrite (leng : BitVec 6) (s : State) : Res := .next (doScaleRecordWrite leng.toNat s)
/-- STATISTICS_TRANSFER. -/
def execStatisticsTransfer (slot : BitVec 2) (late : Bool) (s : State) : Res :=
  .next (doStatisticsTransfer slot.toNat late s)
/-- CATALOGUE_ENTRY_LOST. -/
def execCatalogueEntryLost (tid : BitVec 12) (s : State) : Res := .next (doCatalogueEntryLost tid.toNat s)
/-- CATALOGUE_SEL. -/
def execCatalogueSel (tid : BitVec 12) (s : State) : Res := .next (doCatalogueSel tid s)

end Sys2Proof.Machine
end

