-- ==== Sys2Proof/Machine/Elementary.lean ====
section
/-! DEFINITION. The functions of the SFUs, computed to about 2^-100 of themselves (spec/06_vector_and_functions.md Tables 6-5, 6-11). They say
within what the results of the tables and programs that the spec does not print lie (R156, R157, R163); no result is taken from them. -/

namespace Sys2Proof.Machine

/-- The rational `a / b` (b > 0) as a dyadic with a sticky bit, fine enough that one rounding into any format is that of the
exact quotient. -/
def ratVal (a : Int) (b : Nat) (e : Int) : FVal :=
  if a = 0 then .zero
  else
    let k := 600 + Nat.log2 b - min (600 + Nat.log2 b) (Nat.log2 a.natAbs)
    let n := a.natAbs * 2 ^ k
    let q := n / b
    let st := if n % b = 0 then 0 else 1
    .num (decide (a < 0)) (2 * q + st) (e - (k : Int) - 1)

/-- A value times a power of two. -/
def FVal.scale (v : FVal) (n : Int) : FVal :=
  match v with
  | .num s m e => .num s m (e + n)
  | x => x

/-- The largest integer not above a number. -/
def floorVal : FVal → Int
  | .num s m e =>
    if 0 ≤ e then signed s (m * 2 ^ e.toNat) else floorDiv (signed s m) (2 ^ (-e).toNat)
  | _ => 0

/-- x minus its floor, over the power of two of x. -/
def fracVal : FVal → Nat × Int
  | .num s m e => if 0 ≤ e then (0, 0) else ((Int.emod (signed s m) (2 ^ (-e).toNat)).toNat, e)
  | _ => (0, 0)

/-! ### Arithmetic to 192 bits -/

/-- The leading 192 bits of a number. -/
def trim : FVal → FVal
  | .num s m e => (let k := Nat.log2 m - 191; .num s (m / 2 ^ k) (e + k))
  | x => x

/-- Sum. -/
def rAdd (a b : FVal) : FVal := trim (a.add b).1
/-- Product. -/
def rMul (a b : FVal) : FVal := trim (a.mul b).1
/-- Quotient of two numbers. -/
def rDiv : FVal → FVal → FVal
  | .num s m e, .num t n f => trim (ratVal (signed (xor s t) m) n (e - f))
  | _, _ => .nan
/-- A small integer. -/
def rInt (n : Int) : FVal := FVal.ofInt n 0
/-- Square root of a number that is not negative. -/
def rRoot : FVal → FVal
  | .num _ m e => (let k := 400 + (e % 2).toNat; .num false (Nat.sqrt (m * 2 ^ k)) ((e - k) / 2))
  | x => x
/-- The series 1 + r 1 (1 + r 2 (1 + …)) of `n` ratios. -/
def rSeries (n : Nat) (r : Nat → FVal) : FVal := (List.range n).reverse.foldl (fun t k => rAdd (rInt 1) (rMul (r (k + 1)) t)) (rInt 1)

/-- 2π. -/
def twoPi : FVal := .num false 0x6487ED5110B4611A62633145C06E0E68 (-124)
/-- The natural logarithm of 2. -/
def ln2 : FVal := .num false 0xB17217F7D1CF79ABC9E3B39803F2F6AF (-128)

/-! ### The primitives -/

/-- 2^x. -/
def exp2True (x : FVal) : FVal :=
  let (m, e) := fracVal x
  let y := rMul (.num false m e) ln2
  (rSeries 40 fun k => rDiv y (rInt k)).scale (floorVal x)

/-- The natural logarithm of 1 + y, -1/2 ≤ y ≤ 1. -/
def log1pTrue (y : FVal) : FVal :=
  let z := rDiv y (rAdd (rInt 2) y)
  let q := rMul z z
  (rMul z ((List.range 60).reverse.foldl (fun t k => rAdd (rDiv (rInt 1) (rInt (2 * k + 1))) (rMul q t)) .zero)).scale 1

/-- log2 of a number above zero: from 1/2 to 2 by one series, so that it keeps its relative accuracy near 1. -/
def log2True : FVal → FVal
  | .num _ m e =>
    let sc := scaleOf m e
    let sc := if sc = -1 then 0 else sc
    rAdd (rInt sc) (rDiv (log1pTrue (rAdd ((FVal.num false m e).scale (-sc)) (rInt (-1)))) ln2)
  | x => x

/-- sin or cos of t turns, 0 ≤ t ≤ 1/8. -/
def trigTrue (isCos : Bool) (t : FVal) : FVal :=
  let a := rMul t twoPi
  let q := (rMul a a).negate
  if isCos then rSeries 30 fun k => rDiv q (rInt ((2 * k - 1) * (2 * k)))
  else rMul a (rSeries 30 fun k => rDiv q (rInt (2 * k * (2 * k + 1))))

/-- g(t) of a primitive (Table 6-5). -/
def gTrue (code : Nat) (t : FVal) : FVal :=
  match code with
  | 0 => exp2True t
  | 1 => rDiv (log1pTrue t) ln2
  | 2 => rDiv (rInt 1) (rAdd (rInt 1) t)
  | 3 => rDiv (rInt 1) (rRoot (rAdd (rInt 1) t))
  | c => trigTrue (decide (c = 5)) t

/-! ### The base programs (Table 6-11) -/

/-- The least or the greatest. -/
def clampTo (a b v : FVal) : FVal :=
  let (lo, hi) := if a.lt? b = some true then (a, b) else (b, a)
  if v.lt? lo = some true then lo else if hi.lt? v = some true then hi else v

/-- The magnitude of a number. -/
def absVal (x : FVal) : FVal := if x.neg then x.negate else x

/-- e^x; beyond ±1000, where every format is full or empty, that of ±1000. -/
def expTrue (x : FVal) : FVal := exp2True (rDiv (clampTo (rInt (-1000)) (rInt 1000) x) ln2)
/-- 1 / (1 + e^-x). -/
def sigmoidTrue (x : FVal) : FVal := rDiv (rInt 1) (rAdd (rInt 1) (expTrue x.negate))
/-- The hyperbolic tangent: below 1/2 the quotient of the series of sinh and cosh, which keeps its relative accuracy near 0. -/
def tanhTrue (x : FVal) : FVal :=
  if (absVal x).lt? (.num false 1 (-1)) = some true then
    let q := rMul x x
    rDiv (rMul x (rSeries 30 fun k => rDiv q (rInt (2 * k * (2 * k + 1))))) (rSeries 30 fun k => rDiv q (rInt ((2 * k - 1) * (2 * k))))
  else rAdd ((sigmoidTrue (x.scale 1)).scale 1) (rInt (-1))
/-- The argument of the sigmoid in gelu's tanh form, with its usual constant. [log 113, PRESUMED] -/
def geluArg (x : FVal) : FVal :=
  rMul (rRoot (rDiv (rInt 16) twoPi)) (rAdd x (rMul (rDiv (rInt 44715) (rInt 1000000)) (rMul x (rMul x x))))
/-- The error function. -/
def erfTrue (x : FVal) : FVal :=
  let y := clampTo (rInt (-9)) (rInt 9) x
  let q := (rMul y y).scale 1
  let d := expTrue (rMul y y).negate
  rMul (rMul (rRoot (rDiv (rInt 8) twoPi)) y) (rMul d (rSeries 500 fun k => rDiv q (rInt (2 * k + 1))))
/-- log(1 + e^x). -/
def softplusTrue (x : FVal) : FVal :=
  if x.neg then log1pTrue (expTrue x) else rAdd x (log1pTrue (expTrue x.negate))
/-- atan of 0 ≤ w ≤ 1, its argument reduced three times. -/
def atanTrue (w : FVal) : FVal :=
  let half (w : FVal) : FVal := rDiv w (rAdd (rInt 1) (rRoot (rAdd (rInt 1) (rMul w w))))
  let w := half (half (half w))
  let q := (rMul w w).negate
  (rMul w ((List.range 60).reverse.foldl (fun t k => rAdd (rDiv (rInt 1) (rInt (2 * k + 1))) (rMul q t)) .zero)).scale 3
/-- The angle of the point (x, y), in radians; of the origin 0. -/
def atan2True (y x : FVal) : FVal :=
  if y.isZero ∧ x.isZero then .zero
  else
    let a := absVal y
    let b := absVal x
    let t := if a.lt? b = some true then atanTrue (rDiv a b) else rAdd (twoPi.scale (-2)) (atanTrue (rDiv b a)).negate
    let t := if x.neg then rAdd (twoPi.scale (-1)) t.negate else t
    if y.neg then t.negate else t

/-- The function of a base program on numbers, none outside its domain. -/
def progTrue (pid : Nat) (x y : FVal) : Option FVal :=
  if !x.finite || !y.finite then none
  else
    match pid with
    | 0 => some (expTrue x)
    | 1 => if x.neg || x.isZero then none else some (rMul (log2True x) ln2)
    | 2 => some (sigmoidTrue x)
    | 3 => some (tanhTrue x)
    | 4 => some (rMul x (sigmoidTrue x))
    | 5 => some (rMul x (sigmoidTrue (geluArg x)))
    | 6 => some (erfTrue x)
    | 7 => some (softplusTrue x)
    | 8 => some (atan2True x y)
    | _ => none

/-- A result held to within 2^-n of the true value `a` of itself. [log 13, DESIGN CHOICE] -/
def heldTo (n : Nat) (a v : FVal) : FVal :=
  if !v.finite then a else clampTo (a.add (a.scale (-(n : Int))).negate).1 (a.add (a.scale (-(n : Int)))).1 v

end Sys2Proof.Machine
end

