-- ==== Sys2Proof/Machine/Sfu.lean ====
section
/-! DEFINITION. The special functions (spec/06_vector_and_functions.md R155-R163): primitives with their exact reductions
and special arguments, micro-programs, and exact rational rounding. -/

namespace Sys2Proof.Machine

/-- Segments in one unit of t (Table 6-5): 128 over [0, 1), over [0, 3) and over [0, 1/8). -/
def segScale (code : Nat) : Nat × Nat := if code = 3 then (128, 3) else if code = 4 ∨ code = 5 then (1024, 1) else (128, 1)

/-- The segment that holds `t = m * 2^e` (R155): a seam belongs to the segment it begins, and the end of the range, 1/8 turn in a
folded argument, to the last one. [log 108, DESIGN CHOICE] -/
def segOfT (code m : Nat) (e : Int) : Nat :=
  let (n, d) := segScale code
  min 127 (floorDiv (m * n * 2 ^ e.toNat : Nat) (d * 2 ^ (-e).toNat)).toNat

/-- A coefficient of the tables that SFU.COEF shows, or of the IL-3610's (R155, R168). -/
def coef (code seg i : Nat) (il : Bool) : FVal :=
  let (n, e) := if il then Config.ilCoef code seg i else Config.coefOf ((Config.coefSel code seg i).map Config.coefWord)
  FVal.ofInt n e

/-- The seam at which segment `j` begins. -/
def seamAt (code j : Nat) : FVal :=
  let (n, d) := segScale code
  .num false (j * d) (-(Nat.log2 n : Int))

/-- The quadratic of segment `j`, without its constant on segment 0 of log2 (R155). -/
def quadVal (code j : Nat) (il : Bool) (t : FVal) : FVal :=
  let c (i : Nat) : FVal := coef code j i il
  let r := (t.mul ((c 1).add (t.mul (c 2)).1).1).1
  if code = 1 ∧ j = 0 then r else ((c 0).add r).1

/-- The quadratic of a monotone primitive's segment goes one way from seam to seam, as R157 needs: up for exp2 and log2, else down. [log 12, DESIGN CHOICE] -/
def quadOk (code j : Nat) (il : Bool) : Bool :=
  let slope (t : FVal) : FVal := ((coef code j 1 il).add ((t.mul (coef code j 2 il)).1.scale 1)).1
  let ok (t : FVal) : Bool := (slope t).isZero || decide ((slope t).neg = decide (2 ≤ code))
  ok (seamAt code j) && ok (seamAt code (j + 1))

/-- g(t) of a primitive: the quadratic of t's segment (R155). The tables are not printed; whatever they hold, g keeps what the spec says
of it: a monotone primitive stays between its seams, and none leaves the true value by more than 2^-27 of it, so that the one rounding
meets Table 6-6 (R156, R157); so the bound wins over the form of log2's segment 0. [log 12, DESIGN CHOICE] -/
def gVal (code : Nat) (il : Bool) (m : Nat) (e : Int) : FVal :=
  let j := segOfT code m e
  let t : FVal := .num false m e
  let v :=
    if 4 ≤ code then quadVal code j il t
    else if quadOk code j il then clampTo (gTrue code (seamAt code j)) (gTrue code (seamAt code (j + 1))) (quadVal code j il t)
    else gTrue code t
  heldTo 27 (gTrue code t) v

/-- sin(2π u) or cos(2π u) for `u = m * 2^e` in [0, 1), folded by octants (Table 6-5); multiples of 1/4 are exact (R157). -/
def trig (isCos : Bool) (il : Bool) (m : Nat) (e : Int) : FVal :=
  let g := min e (-3)
  let u := m * 2 ^ (e - g).toNat
  let quarter := 2 ^ (-g - 2).toNat
  let q := u / quarter
  let v := u % quarter
  let q := if isCos then q + 1 else q
  let neg := decide (q % 4 = 2) || decide (q % 4 = 3)
  let useCos := decide (q % 2 = 1)
  if v = 0 then (if useCos then .num neg 1 0 else .zero)
  else
    let half := decide (2 * v < quarter)
    let t := if half then v else quarter - v
    let fold := if half then useCos else !useCos
    match gVal (if fold then 5 else 4) il t g with
    | .num _ a b => .num neg a b
    | x => x

/-- A primitive's value before its one rounding into `out`, with the flags of a special argument (R155, R157, R158). An IEEE infinity
before a posit output, where Table 6-7 has a dash, gives the function's limit, and NaR with INV where there is none. [log 109, DESIGN CHOICE] -/
def primVal (code : Nat) (out : Fmt) (il : Bool) (x : FVal) : FVal × Flags :=
  let undef : FVal × Flags := if out.isIeee then (.nan, { inv := 1 }) else (.nan, { nar := 1 })
  match code, x with
  | _, .nan => (.nan, {})
  | 0, .inf neg => if neg then (.zero, {}) else (.inf false, {})
  | 0, v =>
    let n := floorVal v
    let (m, e) := fracVal v
    if m = 0 then (.num false 1 n, {}) else ((gVal 0 il m e).scale n, {})
  | 1, .inf neg => if neg then (.nan, { inv := 1 }) else (.inf false, {})
  | 1, .num s m e =>
    if m = 0 then (if out.isIeee then (.inf true, {}) else (.nan, { nar := 1 }))
    else if s then undef
    else
      let sc := scaleOf m e
      let t := m - 2 ^ Nat.log2 m
      if t = 0 then (FVal.ofInt sc 0, {})
      else (heldTo 27 (log2True x) ((FVal.ofInt sc 0).add (gVal 1 il t (e - sc))).1, {})
  | 2, .inf _ => (.zero, {})
  | 2, .num s m e =>
    if m = 0 then (if out.isIeee then (.inf s, {}) else (.nan, { nar := 1 }))
    else
      let sc := scaleOf m e
      let t := m - 2 ^ Nat.log2 m
      if t = 0 then (.num s 1 (-sc), {})
      else
        match (gVal 2 il t (e - sc)).scale (-sc) with
        | .num _ a b => (.num s a b, {})
        | v => (v, {})
  | 3, .inf neg => if neg then (.nan, { inv := 1 }) else (.zero, {})
  | 3, .num s m e =>
    if m = 0 then (if out.isIeee then (.inf false, {}) else (.nan, { nar := 1 }))
    else if s then undef
    else
      let h := floorDiv (scaleOf m e) 2
      let base := 2 * h
      let e' := min e base
      let t := m * 2 ^ (e - e').toNat - 2 ^ (base - e').toNat
      if t = 0 then (.num false 1 (-h), {}) else ((gVal 3 il t (e' - base)).scale (-h), {})
  | _, .inf _ => (.nan, { inv := 1 })
  | c, v => (let (m, e) := fracVal v; (trig (decide (c = 5)) il m e, {}))

/-- T(f) as a number over 2^25, f = `m * 2^e` (R165): exp2's quadratic at f, rounded to 26 bits. [log 12, DESIGN CHOICE] -/
def smxTerm (m : Nat) (e : Int) : Nat :=
  if m = 0 then 2 ^ 25
  else
    let t := (floorVal ((gVal 0 false m e).scale 25)).toNat + b2n (Config.smxT (m * 2 ^ (e + 200).toNat))
    max (2 ^ 25) (min t (2 ^ 26 - 1))

/-! ### Micro-programs -/

/-- A program: its arguments, work format and steps, and its PID where it is the base folio's. -/
structure Prog where
  nin : Nat
  fp : Bool
  steps : List (BitVec 64)
  base : Option Nat := none

/-- Steps and arguments of the base folio's programs by PID (Table 6-11). -/
def baseShape : List (Nat × Nat) := [(1, 3), (1, 3), (1, 6), (1, 10), (1, 7), (1, 12), (1, 14), (1, 8), (2, 16)]

/-- A program of the base folio. -/
def baseProg (pid : Nat) : Option Prog :=
  match baseShape[pid]? with
  | none => none
  | some (nin, n) =>
    some { nin := nin, fp := Config.baseWork pid, steps := (List.range n).map (Config.baseStep pid), base := some pid }

/-- A program read from its bytes (Tables 6-8, 6-9). -/
def progOfBytes (bs : List Byte) : Prog :=
  let h := (bs.getD 2 0).toNat
  { nin := h % 4, fp := decide (h / 16 % 2 = 1),
    steps := (List.range ((bs.getD 1 0).toNat % 128)).map fun i => BitVec.ofNat 64 (leNat ((bs.drop (32 + 8 * i)).take 8)) }

/-- The program that a PID runs: the COMPAT version where the image has GENCOMPAT and a folio holds one (R168), else the one
installed by a folio, else the base folio's. One that failed its checks leaves its slot empty (R159). -/
def progOf (s : State) (pid : Nat) (compat : Bool) : Option Prog :=
  match (if compat then s.sec.programs.find? fun p => decide (p.1 = pid + 32) else none) with
  | some p => if p.2.isEmpty then none else some (progOfBytes p.2)
  | none =>
    match s.sec.programs.find? fun p => decide (p.1 = pid) with
    | some p => if p.2.isEmpty then none else some (progOfBytes p.2)
    | none => baseProg pid

/-- a is below b in the order of the work format: posit order (NaR least, R37) or IEEE order. -/
def ltWork (fp : Bool) (a b : FVal) : Bool :=
  match a.lt? b with
  | some r => r
  | none => !fp && decide (a = .nan) && !decide (b = .nan)

/-- MIN or MAX with the special cases of Table 6-2. -/
def minMax (isMax : Bool) (a b : FVal) : FVal :=
  if a = .nan ∨ b = .nan then .nan
  else
    match a.lt? b, b.lt? a with
    | some true, _ => if isMax then b else a
    | _, some true => if isMax then a else b
    | _, _ => if isMax then (if a.neg then b else a) else (if a.neg then a else b)

/-- FLOOR: the integer part toward minus infinity; a zero keeps its sign. -/
def floorF (v : FVal) : FVal :=
  match v with
  | .num s 0 _ => .num s 0 0
  | .num _ _ _ => FVal.ofInt (floorVal v) 0
  | x => x

/-- ABS. -/
def absF : FVal → FVal
  | .nan => .nan
  | .inf _ => .inf false
  | .num _ m e => .num false m e

/-- One step of a program on its registers (Table 6-10), before rounding. -/
def stepVal (fp il : Bool) (w : BitVec 64) (t : List FVal) : FVal × Flags :=
  let n := w.toNat
  let op := bitsOf n 58 6
  let a := t.getD (bitsOf n 52 3) .zero
  let b := t.getD (bitsOf n 49 3) .zero
  let c := t.getD (bitsOf n 46 3) .zero
  let wf : Fmt := if fp then .fp32 else .p32
  match op with
  | 1 => (a, {})
  | 2 => readVal wf (bitsOf n 0 32)
  | 3 => a.add b
  | 4 => a.add b.negate
  | 5 => a.mul b
  | 6 => (let (p, f) := a.mul b; let (r, g) := p.add c; (r, f.add g))
  | 7 => (minMax false a b, {})
  | 8 => (minMax true a b, {})
  | 9 => (absF a, {})
  | 10 => (a.negate, {})
  | 11 => (if ltWork fp a .zero then b else c, {})
  | 12 => (floorF a, {})
  | 13 => (a.scale (BitVec.ofNat 8 (bitsOf n 0 8)).toInt, {})
  | 16 => primVal 0 wf il a
  | 17 => primVal 1 wf il a
  | 18 => primVal 2 wf il a
  | 19 => primVal 3 wf il a
  | 20 => primVal 4 wf il a
  | 21 => primVal 5 wf il a
  | _ => (a, {})

/-- A value rounded to a format and read back, with the flags. -/
def roundVal (f : Fmt) (v : FVal) : FVal × Flags :=
  let (w, fl) := roundTo f v
  ((decodeWordOf f w).1, fl)

/-- Running a program's steps (R161): each is rounded once to the work format. The first step with a numeric event is kept. Where
`held` is given, the last step's exact value is held to it. -/
def runSteps (fp il : Bool) (held : Option FVal) :
    List (BitVec 64) → Nat → List FVal → Flags → Option (Nat × Flags) → FVal × Flags × Option (Nat × Flags)
  | [], _, t, fl, ev => (t.getD 0 .zero, fl, ev)
  | w :: ws, i, t, fl, ev =>
    let (v, f1) := match held, ws with
      | some a, [] => (heldTo 24 a (stepVal fp il w t).1, Flags.none)
      | _, _ => stepVal fp il w t
    let (r, f2) := roundVal (if fp then .fp32 else .p32) v
    let f := f1.add f2
    let ev' := if ev.isNone ∧ f.event then some (i, f) else ev
    runSteps fp il held ws (i + 1) (t.set (bitsOf w.toNat 55 3) r) (fl.add f) ev'

/-- An argument in a program's work format (R161): an IEEE infinity has no posit, and is NaR with INV (R54). One that the format cannot
hold exactly is rounded without a flag in fp32 work and keeps its value in p32 work. [log 110, DESIGN CHOICE] -/
def progArg (fp : Bool) (v : FVal) : FVal × Flags :=
  if fp then ((roundVal .fp32 v).1, {})
  else match v with
    | .inf _ => (.nan, { inv := 1 })
    | v => (v, {})

/-- What the last step of a base program is held to: its steps are not printed; whatever they give, the value that the last one rounds
lies within 2^-24 of the function's value, so that the result lies within EB16 and EB32 (R163) and raises its flags. [log 12, DESIGN CHOICE] -/
def progHeld (p : Prog) (x y : FVal) : Option FVal := p.base.bind fun pid => progTrue pid x y

/-- A program's work-format result (R161); a NaN argument gives NaN. [log 110, DESIGN CHOICE; 136, DESIGN CHOICE] -/
def runProg (p : Prog) (il : Bool) (x y : FVal) : FVal × Flags × Option (Nat × Flags) :=
  let (x, f1) := progArg p.fp x
  let (y, f2) := if p.nin = 2 then progArg p.fp y else (FVal.zero, Flags.none)
  let f := f1.add f2
  let ev := if f.event then some (0, f) else none
  if x = .nan ∨ y = .nan then (.nan, f, ev)
  else runSteps p.fp il (progHeld p x y) p.steps 0 ([x, y] ++ List.replicate 6 .zero) f ev

/-- What a function select names: its steps per element (R150), or none where no program is installed. -/
def sfuSteps (s : State) (ctl : BitVec 6) (compat : Bool) : Option Nat :=
  if ctl.getLsbD 5 then (progOf s (ctl.toNat % 32) compat).map (·.steps.length) else some 1

/-- The work-format result of a function select on its arguments, for an output format: value, flags, and the step of the first
numeric event with that step's flags (R152). An event of the output rounding after the last step has no step of its own and is
recorded as step 0. A program's primitive steps use the IL-4820's tables, in a COMPAT program too. [log 106, DESIGN CHOICE; 136, DESIGN CHOICE] -/
def sfuEval (s : State) (ctl : BitVec 6) (compat : Bool) (out : Fmt) (x y : FVal) : FVal × Flags × Option (Nat × Flags) :=
  if ctl.getLsbD 5 then
    match progOf s (ctl.toNat % 32) compat with
    | none => (.nan, {}, none)
    | some p => runProg p false x y
  else (let (v, f) := primVal (ctl.toNat % 32) out (compat && out.isIeee) x; (v, f, none))

end Sys2Proof.Machine
end

