-- ==== Sys2Proof/Machine/Vector.lean ====
section
/-! DEFINITION. The vector unit (spec/06_vector_and_functions.md R141-R154, R164-R170): VOP, VRED, CVT, SFN, GACT, SMX,
NRM and the lane-quire instructions. -/

namespace Sys2Proof.Machine

/-! ### Issue, ports and destinations -/

/-- The shape of a vector-unit instruction: its count, stream sources and how many elements each holds, its destination,
SFU steps (or an SFU that its rate does not show, and the registers it writes), and the offsets of Table 6-4: first write of vector 0, and completion beyond N r. -/
structure VShape where
  n : Nat
  adv : Bool
  a : Option (BitVec 17 × Fmt) := none
  b : Option (BitVec 17 × Fmt) := none
  bPair : Bool := false
  d : Option (BitVec 17 × Fmt) := none
  red : Bool := false
  reg : Option Nat := none
  steps : Nat := 0
  rot : Nat := 0
  sfu : Bool := false
  also : List Nat := []
  first : Nat := 7
  last : Nat := 6

/-- Half lines read per vector of a format (R150: int4 counts one half). -/
def halfLines (f : Fmt) : Nat := if f = .int4 then 1 else 2 * linesPerVec f

/-- Half lines a shape reads per vector. [log 36, DEDUCED] -/
def VShape.reads (x : VShape) : Nat :=
  (match x.a with
    | some p => halfLines p.2
    | none => 0) +
  (match x.b with
    | some p => if x.bPair then 2 else halfLines p.2
    | none => 0)

/-- Lines written per vector. -/
def VShape.wl (x : VShape) : Nat :=
  match x.d with
  | some p => if x.red then 1 else max 1 (linesPerVec p.2)
  | none => 0

/-- Cycles per vector (R150). -/
def VShape.rate (x : VShape) : Nat := max (max 1 ((x.reads + 3) / 4)) (max x.wl (4 * x.steps))

/-- First lines of the sources and the destination, advanced (Table 7-3). -/
def VShape.bases (x : VShape) (c : Ctx) : Int × Int × Int :=
  let f (i : Nat) (p : Option (BitVec 17 × Fmt)) : Int :=
    match p with
    | some q => advance x.adv i c.loops q.1.toNat
    | none => 0
  (f 0 x.a, f 1 x.b, f 2 x.d)

/-- Lines of the destination stream. -/
def VShape.dLines (x : VShape) : Nat :=
  match x.d with
  | some p => linesOf p.2 (if x.red then x.n else 64 * x.n)
  | none => 0

/-- All operand lines lie in the footprint. -/
def VShape.foot (x : VShape) (s : State) (c : Ctx) : Bool :=
  let (a, b, d) := x.bases c
  (match x.a with
    | some p => inFoot s c.leng c.g a (linesOf p.2 (64 * x.n))
    | none => true) &&
  (match x.b with
    | some p => inFoot s c.leng c.g b (if x.bPair then linesOf .p32 (2 * x.n) else linesOf p.2 (64 * x.n))
    | none => true) &&
  (match x.d with
    | some _ => inFoot s c.leng c.g d x.dLines
    | none => true)

/-- Port claims of the reads: port 2 takes the first line of a cycle, port 3 the second (R149, R150). [log 36, DEDUCED] -/
def VShape.claims (x : VShape) (c : Ctx) : List Claim :=
  let lines := (x.reads + 1) / 2
  let mk' (p : Port) (len : Nat) : List Claim :=
    if len = 0 then []
    else [{ port := p, unit := .vector, seg := c.g, pc := c.pc, lo := c.cyc + 1, len := len, per := x.rate, n := x.n }]
  mk' .r2 ((lines + 1) / 2) ++ mk' .r3 (lines / 2)

/-- Port 1 writes to the Carrel (R150): `wl` lines per vector, or for a VRED each line once, after its last vector (R147). -/
def VShape.writes (x : VShape) (c : Ctx) : List Claim :=
  match x.d with
  | none => []
  | some p =>
    let one (lo len n : Nat) : Claim := { port := .w1, unit := .vector, seg := c.g, pc := c.pc, lo := lo, len := len, per := x.rate, n := n }
    if x.red then
      (List.range x.dLines).map fun i => one (c.cyc + x.first + (min ((i + 1) * p.2.perLine) x.n - 1) * x.rate) 1 1
    else [one (c.cyc + x.first) x.wl x.n]

/-- Marks on a destination that keeps its value (R175). -/
def VShape.failDest (x : VShape) (c : Ctx) (s : State) : State :=
  let (_, _, d) := x.bases c
  let s := match x.d with
    | some _ => markFoot c d x.dLines mkFailed s
    | none => s
  match x.reg with
  | some r =>
    vecMod c.k (fun v =>
      { v with vr := (List.range (if x.red then x.n else 64)).foldl (fun t l =>
          tabMod (fun _ => {}) t (64 * r + l) (fun y => { y with mark := y.mark ||| mkFailed })) v.vr }) s
  | none => s

/-- Why a vector-unit instruction faults at issue, in the order of R172; 0 where nothing but a port may stop it. [log 39, DEDUCED] -/
def VShape.fault (x : VShape) (extra : State → Ctx → Nat) (c : Ctx) : Nat :=
  let v := (eng c.s c.k).vec
  let inOcc := v.occ.any fun o => decide (o.1 ≤ c.cyc) && decide (c.cyc ≤ o.2)
  if c.dup then 0x01
  else if inOcc then 0x0B
  else if decide (c.cyc < v.free) || (decide (0 < x.steps) && decide (c.cyc < v.sfuFree)) then 0x05
  else if !x.foot c.s c then 0x08
  else extra c.s c

/-- The unit takes the instruction: its occupation (R150, R151), and what it replaces is kept (R149). -/
def VShape.start (x : VShape) (c : Ctx) (s : State) : State :=
  let r := x.rate
  let (_, _, d) := x.bases c
  let lines := (List.range x.dLines).map (fun i => (d.toNat + i, cRead s c.k (d.toNat + i)))
  let ws := x.writes c
  let last := (x.claims c ++ ws).foldl (fun t y => max t y.last) c.cyc
  vecMod c.k (fun v =>
    { v with
      busy := v.busy + x.n * r
      free := c.cyc + x.n * r + 1
      sfuFree := if 0 < x.steps then c.cyc + x.n * r + 1 else v.sfuFree
      runs := v.runs.filter (fun p => decide (c.cyc ≤ p.last)) ++
        [{ seg := c.g, pc := c.pc, cyc := c.cyc, lines := lines, vr := v.vr, lq := v.lq, masks := v.masks, sk := v.sk,
           writes := ws, last := last }] }) s

/-- A parity error of the SFU that works on a lane of vector `j` (Table 9-1): it is traced through ROT and the slot map (R154) and
counted, and what its four lanes put out is FAILED: destination elements, or the rows of the lanes. -/
def VShape.sfuHit (x : VShape) (c : Ctx) (j lane : Nat) (s : State) : State :=
  let u := fget s (pgEng (execKey s c.leng) 3) 0x40 (3 * ((lane / 16 + 4 - x.rot) % 4)) 3
  let e := execKey s c.leng
  let s := engMod e (fun y => { y with sfuErrs := (u, s.tick) :: y.sfuErrs }) (finc (pgEng e 3) (0x44 + 4 * u) 0 32 1 s)
  let (_, _, d) := x.bases c
  let s := match x.d with
    | some p => foldS ((List.range 4).map fun i => d.toNat + (64 * j + lane / 4 * 4 + i) / p.2.perLine) (fun l => cMark c.k l mkFailed) s
    | none => s
  let put (v : VecSt) (i : Nat) : VecSt :=
    let l := lane / 4 * 4 + i
    match x.reg.toList ++ x.also with
    | r :: rs => { v with vr := (r :: rs).foldl (fun t r => tabMod (fun _ => {}) t (64 * r + l) fun y => { y with mark := y.mark ||| mkFailed }) v.vr }
    | [] =>
      if x.d.isSome then v
      else { v with sk := tabMod (fun _ => {}) v.sk (64 * (if c.g = .rt then 0 else 1) + l) fun y => { y with mark := y.mark ||| mkFailed } }
  vecMod c.k (fun v => (List.range 4).foldl put v) s

/-- The SFU errors that an instruction meets, in the vectors it has. -/
def VShape.sfuHits (x : VShape) (h : IssueHdr) (c : Ctx) (s : State) : State :=
  foldS h.upsets (fun u s => match u with
    | .sfu v l => whenS ((x.sfu || decide (0 < x.steps)) && decide (v.toNat < x.n)) (x.sfuHit c v.toNat l.toNat) s
    | _ => s) s

/-- Issue a vector-unit instruction (R149-R151, R172, R183, R194): its faults in order, then its effect. -/
def vecIssue (h : IssueHdr) (x : VShape) (extra : State → Ctx → Nat) (fail : Ctx → State → State)
    (body : Ctx → State → State) (s : State) : State :=
  issued .vector 0 h s fun c =>
    let bad := x.fault extra c
    if bad ≠ 0 then fail c (x.failDest c (c.fault bad c.s))
    else
      match otherClaims c.k c.cyc (x.claims c) c.s with
      | none => fail c (x.failDest c (c.fault 0x02 c.s))
      | some s => x.sfuHits h c (busyTo c.k c.g (c.cyc + x.last + x.n * x.rate) (body c (x.start c s)))

/-- One element's result: its word, flags, marks, whether a NaN operand was read, and the step of its first event with that step's
own flags (R152). -/
structure VRes where
  word : Nat := 0
  fl : Flags := {}
  mark : Mark := 0
  nan : Bool := false
  step : Nat := 0
  ev : Option Flags := none

/-- The CAUSE of an element's first event (R152, R409). -/
def VRes.cause (r : VRes) : Nat := causeOf (r.ev.getD r.fl) r.nan

/-- An operand element: its value, the flag of a signalling NaN, its marks. -/
structure VIn where
  v : FVal := .zero
  fl : Flags := {}
  mark : Mark := 0

/-- A lane register value. [log 35, DEDUCED] -/
def laneGet (s : State) (k r l : Nat) : LaneVal := tabGet (fun _ => {}) (eng s k).vec.vr (64 * r + l)
/-- A lane quire element. -/
def quireGet (s : State) (k q l : Nat) : LaneQ := tabGet (fun _ => {}) (eng s k).vec.lq (64 * q + l)
/-- A row state. -/
def rowGet (s : State) (k q l : Nat) : RowSt := tabGet (fun _ => {}) (eng s k).vec.sk (64 * q + l)

/-- The cycle in which a stream operand's element `i` of vector `j` is read (R150): two lines a cycle, the second operand's after
the first's `off` lines. -/
def readCyc (c : Ctx) (x : VShape) (off : Nat) (f : Fmt) (j i : Nat) : Nat :=
  c.cyc + 1 + j * x.rate + (off + (i / f.perLine - j * 64 / f.perLine)) / 2

/-- Element `l` of vector `j` of an operand: a stream at `line` read in cycle `t` of that element, or lane register. -/
def vInAt (s : State) (k : Nat) (reg : Bool) (line : Nat) (f : Fmt) (t : Nat → Nat) (j l : Nat) : VIn :=
  if reg then
    let r := laneGet s k (line % 16) l
    let t := r.tag.getD .p32
    let (v, fl) := readVal t (r.bits.toNat % 2 ^ t.width)
    { v := v, fl := fl, mark := r.mark }
  else
    let i := j * 64 + l
    let (ln, m) := cReadAt s k (line + i / f.perLine) (t i)
    let (v, fl) := readVal f (lineElem f ln (i % f.perLine))
    { v := v, fl := fl, mark := m }

/-- An element of the first operand of an instruction. -/
def vIn (s : State) (c : Ctx) (x : VShape) (reg : Bool) (line : Nat) (f : Fmt) (j l : Nat) : VIn :=
  vInAt s c.k reg line f (readCyc c x 0 f j) j l

/-- An element of the second operand of an instruction. -/
def vIn2 (s : State) (c : Ctx) (x : VShape) (reg : Bool) (line : Nat) (f : Fmt) (j l : Nat) : VIn :=
  let off := match x.a with
    | some p => linesPerVec p.2
    | none => 0
  vInAt s c.k reg line f (readCyc c x off f j) j l

/-- A register operand is unreadable: a lane's value is not yet written, or has a tag that does not fit (R143). A lane that nothing
has written since the register was cleared is not yet written. [log 35, DEDUCED] -/
def regBad (s : State) (c : Ctx) (r : Nat) (fits : Fmt → Bool) : Bool :=
  (List.range 64).any fun l =>
    let x := laneGet s c.k r l
    match x.tag with
    | none => true
    | some t => !fits t || decide (c.cyc + 1 < x.ready)

/-- A tag readable in a work format (R143). -/
def fitsWork (w t : Fmt) : Bool :=
  if w = .fp32 then decide (t = .fp32) else t.isPosit && decide (t.width ≤ w.width)

/-- Extend marks with the traps' FAILED and the segment's RETRACTED. -/
def outMark (s : State) (c : Ctx) (trap : Bool) : Mark := segMark s c.k c.g ||| (if trap then mkFailed else 0)

/-- Lines packed from element words, with per-element marks; a last line that is only partly written keeps the rest. -/
def packStream (s : State) (k line : Nat) (f : Fmt) (keep : Bool) : Nat → Nat → List (Nat × Mark) → List (Line × Mark)
  | 0, _, _ => []
  | fuel + 1, i, l =>
    match l with
    | [] => []
    | _ =>
      let h := l.take f.perLine
      let m := h.foldl (fun t e => t ||| e.2) 0
      let full := decide (h.length = f.perLine)
      let (old, om) := cRead s k (line + i)
      let ln := if full ∨ !keep then packLine f (h.map (·.1))
        else h.zipIdx.foldl (fun t e => setLineElem f t e.2 e.1.1) old
      (ln, if full ∨ !keep then m else m ||| om) :: packStream s k line f keep fuel (i + 1) (l.drop f.perLine)

/-- The first stream operand that reads poison, with its shelfmark; lane storage has none. -/
def VShape.origin (x : VShape) (c : Ctx) (s : State) : Nat × Option Nat :=
  let (a, b, _) := x.bases c
  let one (i : Nat) (base : Int) (p : Option (BitVec 17 × Fmt)) (pair : Bool) : List (Nat × Nat × Nat) :=
    match p with
    | some q => [(i, base.toNat, if pair then linesOf .p32 (2 * x.n) else linesOf q.2 (64 * x.n))]
    | none => []
  poisonFrom s c.leng c.k (one 0 a x.a false ++ one 1 b x.b x.bPair) (0, none)

/-- What the instruction under way leaves outside its destinations is noted with it, to be taken back if it loses a port (R149). -/
def runNote (k : Nat) (f : VecRun → VecRun) (s : State) : State :=
  vecMod k (fun v => { v with runs := v.runs.dropLast ++ (v.runs.getLast?.map f).toList }) s

/-- The words of the vector first-event record, where it is clear. -/
def vecRecWas (s : State) (k : Nat) : List (Nat × Word) :=
  let p := pgEng k 7
  if fget s p 0x58 31 1 = 1 then [] else [0x58, 0x5C, 0x60, 0x64].map fun o => (o, rget s p o)

/-- Flags, first-event record, trap and poison of a vector instruction (R72, R152, R243, R244); `ev`: the CAUSE, vector, lane and step of
its first event. -/
def vecTell (x : VShape) (c : Ctx) (fl : Flags) (ev : Option (Nat × Nat × Nat × Nat)) (reads : Mark) (s : State) : State :=
  let pol := policy s c.k c.g
  let s := runNote c.k (fun r => { r with fl := r.fl.add fl }) (countFlags c.k fl s)
  let s := match ev with
    | some (cause, j, l, st) =>
      if pol = 0 then s
      else runNote c.k (fun r => { r with vrec := vecRecWas s c.k }) (vecRecord c.k c.g c.pc cause j l st c.wt s)
    | none => s
  let s := whenS (decide (pol = 2) && fl.event)
    (fun s => runNote c.k (fun r => { r with trap := true }) (numTrap c.k c.leng c.g s)) s
  let t := consume c.leng c.g c.pc (x.origin c s) reads s
  whenS (decide (t ≠ s)) (runNote c.k (fun r => { r with ate := true })) t

/-- That of elements given in order of vector and lane. -/
def vecEvents (x : VShape) (c : Ctx) (l : List VRes) (reads : Mark) (s : State) : State :=
  vecTell x c (l.foldl (fun t e => t.add e.fl) Flags.none)
    ((l.zipIdx.find? fun e => decide (e.1.cause ≠ 0)).map fun e => (e.1.cause, e.2 / 64, e.2 % 64, e.1.step)) reads s

/-- The instruction traps. [log 38, DEDUCED] -/
def vecTraps (s : State) (c : Ctx) (l : List VRes) : Bool :=
  decide (policy s c.k c.g = 2) && (l.foldl (fun t e => t.add e.fl) Flags.none).event

/-- The vector whose write completes line `i` of a stream: for int4 a line's second (R150). -/
def lastVec (f : Fmt) (wl n i : Nat) : Nat :=
  let vp := max 1 (f.perLine / 64)
  min (i / wl * vp + vp - 1) (n - 1)

/-- Write N vectors of 64 elements to the destination: a stream line by line, each line with the marks of its vectors, or one
vector into a lane register (R141, R150, R185). -/
def vecPut (x : VShape) (c : Ctx) (f : Fmt) (l : List VRes) (s : State) : State :=
  let extra := outMark s c (vecTraps s c l)
  let (_, _, d) := x.bases c
  match x.reg with
  | some r =>
    vecMod c.k (fun v =>
      { v with vr := ((l.take 64).zipIdx).foldl (fun t e =>
          tabSet (fun _ => {}) t (64 * r + e.2)
            { tag := some f, bits := BitVec.ofNat 32 e.1.word, mark := e.1.mark ||| extra, ready := c.cyc + x.first + 1 }) v.vr }) s
  | none =>
    let vm (j : Nat) : Mark := ((l.drop (64 * j)).take 64).foldl (fun t e => t ||| e.mark) 0 ||| extra
    let marks := (List.range x.n).map vm
    let els := l.zipIdx.map fun (e, i) => (e.word, marks.getD (i / 64) 0)
    c.writeLines d.toNat (packStream s c.k d.toNat f true (els.length + 1) 0 els)
      (fun i => c.cyc + x.first + (lastVec f x.wl x.n i) * x.rate + i % x.wl) s

/-- The elements of N vectors computed one by one. -/
def vecMap (n : Nat) (f : Nat → Nat → VRes) : List VRes :=
  (List.range n).flatMap fun j => (List.range 64).map fun l => f j l

/-- OR of the marks that were read. -/
def readMarks (l : List VRes) : Mark := l.foldl (fun t e => t ||| e.mark) 0

/-- The end of a vector instruction whose elements are worked out: its flags, events and marks, and its destination. -/
def vecOut (x : VShape) (f : Fmt) (l : List VRes) (c : Ctx) (s : State) : State :=
  vecPut x c f l (vecEvents x c l (readMarks l) s)

/-- A source as a stream, none for a register. -/
def strm (k : Bool) (a : BitVec 17) (f : BitVec 4) : Option (BitVec 17 × Fmt) := if k then none else some (a, fmtD f)

/-- The line of a stream source or the register number. -/
def srcLine (k : Bool) (a : BitVec 17) (base : Int) : Nat := if k then a.toNat else base.toNat

/-! ### VOP (R144, R145, Table 6-2) -/

/-- An fp32-work source: bf16 and fp16 convert exactly, and an fp32 subnormal that this gives is a zero of its sign (R51,
R144); every posit is above fp32's subnormals. -/
def toWork (w : Fmt) (v : FVal) : FVal :=
  match w, v with
  | .fp32, .num s m e => if m ≠ 0 ∧ scaleOf m e < -126 then .num s 0 0 else v
  | _, _ => v

/-- A value function of Table 6-2. [log 37, DEDUCED] -/
def vopVal (f : Nat) (imm : Int) (a b c : FVal) (sel : Bool) : FVal × Flags :=
  match f with
  | 0 => a.add b
  | 1 => a.add b.negate
  | 2 => a.mul b
  | 3 => (let (p, f1) := a.mul b; let (r, f2) := p.add c; (r, f1.add f2))
  | 4 => (minMax false a b, {})
  | 5 => (minMax true a b, {})
  | 6 => (absF a, {})
  | 7 => (a.negate, {})
  | 8 => (floorF a, {})
  | 9 => (a.scale imm, {})
  | 19 => (if sel then a else b, {})
  | _ => (a, {})

/-- A compare of Table 6-2: posit order, in which NaR is equal to itself and below all; fp32, in which NaN is never equal. [log 37, DEDUCED] -/
def cmpVal (f : Nat) (fp : Bool) (a b : FVal) : Bool :=
  let lt := ltWork fp a b
  let eq := match a.lt? b, b.lt? a with
    | some false, some false => true
    | _, _ => !fp && decide (a = .nan) && decide (b = .nan)
  if f = 16 then lt else if f = 17 then lt || eq else eq

/-- The mask register a VOP names. -/
def maskGet (s : State) (k q : Nat) : MaskR := tabGet (fun _ => {}) (eng s k).vec.masks q

/-- VOP's shape. -/
def vopShape (o : VOp) : VShape :=
  let f := o.func.toNat
  let cmp := vopCmp.contains f
  { n := o.nm1.toNat + 1, adv := o.adv, a := strm o.ak o.a o.afmt,
    b := if vopBin.contains f then strm o.bk o.b o.bfmt else none,
    d := if cmp || o.dk then none else some (o.d, fmtD o.dfmt),
    reg := if !cmp && o.dk then some (o.d.toNat % 16) else none }

/-- Why a VOP's lane operands fault (R143). -/
def vopBad (o : VOp) (s : State) (c : Ctx) : Nat :=
  let w := fmtD o.wfmt
  let f := o.func.toNat
  if (o.ak && regBad s c (o.a.toNat % 16) (fitsWork w)) ||
      (vopBin.contains f && o.bk && regBad s c (o.b.toNat % 16) (fitsWork w)) ||
      (decide (f = 3) && regBad s c o.c.toNat (fitsWork w)) ||
      (decide (f = 19) && (let m := maskGet s c.k o.mlq.toNat; !m.written || decide (c.cyc < m.ready))) then 0x05
  else 0

/-- The elements of a VOP: results of a value function, or 0 and 1 for a compare. A source wider than the work format is read at its
exact value (R144). [log 103, DEDUCED] -/
def vopEls (o : VOp) (s : State) (c : Ctx) : List VRes :=
  let f := o.func.toNat
  let w := fmtD o.wfmt
  let (ab, bb, _) := (vopShape o).bases c
  let mr := maskGet s c.k o.mlq.toNat
  vecMap (o.nm1.toNat + 1) fun j l =>
    let x := vopShape o
    let a := vIn s c x o.ak (srcLine o.ak o.a ab) (fmtD o.afmt) j l
    let b : VIn := if vopBin.contains f then vIn2 s c x o.bk (srcLine o.bk o.b bb) (fmtD o.bfmt) j l else {}
    let cc : VIn := if f = 3 then vIn s c x true o.c.toNat w j l else {}
    let va := toWork w a.v
    let vb := toWork w b.v
    let fl := (a.fl.add b.fl).add cc.fl
    let mk := a.mark ||| b.mark ||| cc.mark ||| (if f = 19 then mr.mark else 0)
    let nan := decide (va = .nan) || decide (vb = .nan) || decide (cc.v = .nan)
    if vopCmp.contains f then
      { word := b2n (cmpVal f (decide (w = .fp32)) va vb), fl := fl, mark := mk, nan := nan }
    else
      let (v, f1) := vopVal f (BitVec.ofNat 8 o.b.toNat).toInt va vb cc.v (mr.bits.getLsbD l)
      let (wd, f2) := roundTo (fmtD o.dfmt) v
      { word := wd, fl := (fl.add f1).add f2, mark := mk, nan := nan }

/-- A mask fails. -/
def maskFail (k q : Nat) (s : State) : State :=
  vecMod k (fun v => { v with masks := tabMod (fun _ => {}) v.masks q (fun m => { m with mark := m.mark ||| mkFailed }) }) s

/-- VOP. -/
def doVop (h : IssueHdr) (o : VOp) (s : State) : State :=
  let x := vopShape o
  let cmp := vopCmp.contains o.func.toNat
  vecIssue h x (vopBad o) (fun c => whenS cmp (maskFail c.k o.mlq.toNat)) (fun c s =>
    let l := vopEls o s c
    if cmp then
      let lastV := l.drop (64 * (x.n - 1))
      let bits := (lastV.zipIdx).foldl (fun b e => b + e.1.word * 2 ^ e.2) 0
      let mr : MaskR :=
        { bits := BitVec.ofNat 64 bits, mark := readMarks lastV ||| outMark s c (vecTraps s c l),
          ready := c.cyc + 7 + (x.n - 1) * x.rate + 1, written := true }
      vecMod c.k (fun v => { v with masks := tabSet (fun _ => {}) v.masks o.mlq.toNat mr }) (vecEvents x c l (readMarks l) s)
    else vecOut x (fmtD o.dfmt) l c s) s

/-! ### VRED (R147) -/

/-- One reduction over 64 lanes (Table 6-3). A sum adds in lane order, so that a NaN met before an infinity keeps INV from being
raised by a later pair of infinities (R147). [log 104, DESIGN CHOICE] -/
def redVal (f : Nat) (l : List FVal) : FVal × Flags :=
  if f = 0 then
    let (v, fl) := l.foldl (fun p x => let (r, g) := p.1.add x; (r, p.2.add g)) (FVal.zero, Flags.none)
    (v.unsignZero, fl)
  else if l.any fun x => decide (x = .nan) then (.nan, {})
  else
    let isMax := decide (f = 1) || decide (f = 3)
    let best := l.foldl (minMax isMax) (l.headD .zero)
    if f < 3 then (best, {})
    else
      let same (x : FVal) : Bool :=
        decide (x.lt? best = some false) && decide (best.lt? x = some false) && decide (x.neg = best.neg)
      (FVal.ofInt (l.findIdx same : Nat) 0, {})

/-- VRED's shape. -/
def vredShape (o : VOp) : VShape :=
  { n := o.nm1.toNat + 1, adv := o.adv, a := strm o.ak o.a o.afmt, red := true, first := 12, last := 11,
    d := if o.dk then none else some (o.d, fmtD o.dfmt), reg := if o.dk then some (o.d.toNat % 16) else none }

/-- Why a VRED's lane operand faults (R143). -/
def vredBad (o : VOp) (s : State) (c : Ctx) : Nat := if o.ak && regBad s c (o.a.toNat % 16) (fitsWork (fmtD o.wfmt)) then 0x05 else 0

/-- The results of a VRED, one per vector; the event's lane is the lowest NaR, NaN or infinite one (R152). -/
def vredEls (o : VOp) (s : State) (c : Ctx) : List (VRes × Nat) :=
  let w := fmtD o.wfmt
  let (ab, _, _) := (vredShape o).bases c
  (List.range (o.nm1.toNat + 1)).map fun j =>
    let ins := (List.range 64).map fun l => vIn s c (vredShape o) o.ak (srcLine o.ak o.a ab) (fmtD o.afmt) j l
    let vs := ins.map fun i => toWork w i.v
    let (v, f1) := redVal o.func.toNat vs
    let (wd, f2) := roundTo (fmtD o.dfmt) v
    let lane := vs.findIdx fun x => !x.finite
    ({ word := wd, fl := ((ins.foldl (fun t i => t.add i.fl) Flags.none).add f1).add f2,
       mark := ins.foldl (fun t i => t ||| i.mark) 0, nan := vs.any fun x => decide (x = .nan) },
     if lane < 64 then lane else 0)

/-- VRED. -/
def doVred (h : IssueHdr) (o : VOp) (s : State) : State :=
  let x := vredShape o
  vecIssue h x (vredBad o) (fun _ s => s) (fun c s =>
    let rs := vredEls o s c
    let l := rs.map (·.1)
    let extra := outMark s c (vecTraps s c l)
    let t := vecTell x c (l.foldl (fun t e => t.add e.fl) Flags.none)
      ((rs.zipIdx.find? fun e => decide (e.1.1.cause ≠ 0)).map fun e => (e.1.1.cause, e.2, e.1.2, 0)) (readMarks l) s
    let f := fmtD o.dfmt
    let (_, _, d) := x.bases c
    match x.reg with
    | some r =>
      vecMod c.k (fun v =>
        { v with vr := l.zipIdx.foldl (fun u e =>
            tabSet (fun _ => {}) u (64 * r + e.2)
              { tag := some f, bits := BitVec.ofNat 32 e.1.word, mark := e.1.mark ||| extra,
                ready := c.cyc + 12 + e.2 * x.rate + 1 }) v.vr }) t
    | none =>
      let els := l.map fun e => (e.word, e.mark ||| extra)
      c.writeLines d.toNat (packStream t c.k d.toNat f false (els.length + 1) 0 els)
        (fun i => c.cyc + 12 + (min ((i + 1) * f.perLine) x.n - 1) * x.rate) t) s

/-! ### CVT (R53-R55, R120, R148, R190) -/

/-- CVT's shape. -/
def cvtShape (o : XOp) : VShape :=
  { n := o.nm1.toNat + 1, adv := o.adv, a := strm o.ak o.a o.afmt,
    d := if o.dk then none else some (o.d, fmtD o.dfmt), reg := if o.dk then some (o.d.toNat % 16) else none }

/-- The exponent a CVT applies and the ADJ of its output: the slot's X and its output record's ADJ; for a cold history tensor the
present record's ADJ stands in place of the output record's, with its marks (R137). Whether that record is valid or still pending is
not tested: the rule names no test, and after a faulted STAT its ADJ is 0. [log 111, DESIGN CHOICE] -/
def cvtX (s : State) (c : Ctx) (o : XOp) : Int × Int × Mark :=
  if !o.sen then (0, 0, 0)
  else
    let sl := slotGet s c.k o.slot.toNat
    match sl.out with
    | some out =>
      if coldTid s out.tid && decide (out.src = 1) then
        let p := ((eng s c.k).seg c.g).present
        (sl.x - out.adj + p.adj, p.adj, p.mark)
      else (sl.x, out.adj, 0)
    | none => (sl.x, 0, 0)

/-- An element of a CVT's source. -/
def cvtIn (o : XOp) (s : State) (c : Ctx) (j l : Nat) : VIn :=
  vIn s c (cvtShape o) o.ak (srcLine o.ak o.a ((cvtShape o).bases c).1) (fmtD o.afmt) j l

/-- The elements of a CVT: each source times a power of two, rounded once (R120, R148); `m` are the slot's marks. -/
def cvtEls (o : XOp) (ex : Int) (m : Mark) (s : State) (c : Ctx) : List VRes :=
  vecMap (o.nm1.toNat + 1) fun j l =>
    let a := cvtIn o s c j l
    let (w, fl) := roundTo (fmtD o.dfmt) (a.v.scale ex)
    { word := w, fl := a.fl.add fl, mark := a.mark ||| m, nan := decide (a.v = .nan) }

/-- Why a CVT's operands fault (R119, R143). -/
def cvtBad (o : XOp) (s : State) (c : Ctx) : Nat :=
  if o.ak && regBad s c (o.a.toNat % 16) (fun _ => true) then 0x05
  else if o.sen && decide (c.cyc < (slotGet s c.k o.slot.toNat).usable) then 0x06 else 0

/-- CVT (R118, R145). One with an output record and a lane-register destination, which has no block for it, writes no record and leaves
its tag entry invalid. [log 102, DESIGN CHOICE] -/
def doCvt (h : IssueHdr) (o : XOp) (s : State) : State :=
  let x := cvtShape o
  let f := fmtD o.dfmt
  vecIssue h x (cvtBad o)
    (fun c s => whenS o.sen (fun s =>
      let sl := slotGet s c.k o.slot.toNat
      tagClear c.k o.tag.toNat (statFail c.leng c.g (if sl.valid then sl.out else none) s)) s) (fun c s =>
    let sl := slotGet s c.k o.slot.toNat
    let (_, _, db) := x.bases c
    if o.sen && !sl.valid then
      let m := (if sl.mark &&& mkSkew ≠ 0 ∧ !sl.bad then mkSkew else mkFailed) ||| (sl.mark &&& mkPoison)
      let s := tagClear c.k o.tag.toNat s
      match x.reg with
      | some r => vecMod c.k (fun v =>
          { v with vr := (List.range 64).foldl (fun t l =>
              tabMod (fun _ => {}) t (64 * r + l) (fun y => { y with mark := y.mark ||| m })) v.vr }) s
      | none => cMarks c.k db.toNat x.dLines m s
    else
      let (ex, adj, pm) := cvtX s c o
      let sm := if o.sen then sl.mark ||| pm else 0
      let srcs := cvtEls o ex sm s c
      let t := vecOut x f srcs c s
      if !o.sen then t
      else
        match sl.out, x.d with
        | some out, some _ =>
          let st := (List.range (x.n * 64)).foldl (fun t i =>
            let v := (cvtIn o s c (i / 64) (i % 64)).v.scale ex
            let (w, fl) := roundTo f v
            t.measure v fl false (f.isStore && decide (w = 0) && v.finite && !v.isZero)) ({} : Stats)
          let trap := vecTraps s c srcs
          let w : RecWr := { seg := c.g, pc := c.pc, due := c.cyc + 6 + x.n * x.rate + 1, line := db.toNat + x.dLines, tag := o.tag.toNat,
                             record := { tid := out.tid, src := out.src, fmt := o.dfmt, cold := coldTid s out.tid, seq := out.seq,
                                         scale := scaleWord (outBase s c.leng c.g out) adj, adj := BitVec.ofInt 8 adj, stats := st },
                             mark := readMarks srcs ||| (if trap then mkFailed else 0), stats := !trap, isDrain := false,
                             first := db.toNat, lost := turnedAway (eng t c.k) db.toNat x.dLines }
          busyTo c.k c.g (c.cyc + 7 + x.n * x.rate) (engMod c.k (fun e => { e with recWrs := e.recWrs ++ [w] }) t)
        | _, _ => tagClear c.k o.tag.toNat t) s

/-! ### SFN and GACT (R155-R164) -/

/-- GENCOMPAT of the issuing segment's job. -/
def compatOf (s : State) (leng : Nat) (g : Seg) : Bool :=
  match ownerOf s leng g with
  | some j => (job s j).gencompat
  | none => false

/-- A GENCOMPAT job of at most 16 engines on this module alone, whose results are the IL-3610's (R77, R170). -/
def r77 (s : State) (leng : Nat) (g : Seg) : Bool :=
  match ownerOf s leng g with
  | some j => (job s j).gencompat && decide ((job s j).engs.length ≤ 16) && decide (fget s (pgAbf 0) (0x110 + 4 * j) 0 32 ≤ 2 ^ modNum s)
  | none => false

/-- Shape of an F-layout instruction of `st` steps. -/
def fShape (o : FOp) (two : Bool) (st first last : Nat) (dst : Bool) : VShape :=
  { n := o.nm1.toNat + 1, adv := o.adv, a := strm o.ak o.a o.afmt, b := if two then strm o.bk o.b o.bfmt else none,
    d := if dst && !o.dk then some (o.d, fmtD o.dfmt) else none,
    reg := if dst && o.dk then some (o.d.toNat % 16) else none, steps := st, rot := o.rot.toNat, first := first, last := last }

/-- The format a function select computes in, which its register arguments must fit (R143, R161): its program's work format; a
primitive's is fp32 for an IEEE output, else p32. -/
def sfuWork (s : State) (ctl : BitVec 6) (compat : Bool) (out : Fmt) : Fmt :=
  if ctl.getLsbD 5 then
    match progOf s (ctl.toNat % 32) compat with
    | some p => if p.fp then .fp32 else .p32
    | none => .p32
  else if out.isIeee then .fp32 else .p32

/-- The program takes two arguments. -/
def ninTwo (s : State) (ctl : BitVec 6) (compat : Bool) : Bool :=
  ctl.getLsbD 5 && (match progOf s (ctl.toNat % 32) compat with
    | some p => decide (p.nin = 2)
    | none => false)

/-- What the load checks 0x05, 0x06 and 0x08 of Table 7-18 ask of the operand B of an SFN whose program takes two arguments (R141, R185,
R189). [log 4, DESIGN CHOICE] -/
def sfnArgB (g : Seg) (o : FOp) (compat : Bool) (s : State) : Bool :=
  !ninTwo s o.ctl compat || (kindBits o.bk o.b && readFmt o.bk o.bfmt codesFn && opMine g o.bk o.b)

/-- SFN's shape: two streams where its program takes two arguments (R151, R161). -/
def sfnShape (o : FOp) (cp : Bool) (s : State) : VShape :=
  let st := (sfuSteps s o.ctl cp).getD 1
  fShape o (ninTwo s o.ctl cp) st (9 + 4 * st) (8 + 4 * st) true

/-- GACT's shape. -/
def gactShape (o : FOp) (cp : Bool) (s : State) : VShape :=
  let st := (sfuSteps s o.ctl cp).getD 1
  fShape o true st (11 + 4 * st) (10 + 4 * st) true

/-- The two operands of an F-layout instruction's element; without a second stream that one is zero. -/
def fIn (o : FOp) (x : VShape) (two : Bool) (s : State) (c : Ctx) (j i : Nat) : VIn × VIn :=
  let (ab, bb, _) := x.bases c
  (vIn s c x o.ak (srcLine o.ak o.a ab) (fmtD o.afmt) j i,
   if two then vIn2 s c x o.bk (srcLine o.bk o.b bb) (fmtD o.bfmt) j i else {})

/-- The elements of an SFN: the function of the operands, rounded once (R153, R155, R161). -/
def sfnEls (o : FOp) (cp : Bool) (x : VShape) (s : State) (c : Ctx) : List VRes :=
  let f := fmtD o.dfmt
  let wk := sfuWork s o.ctl cp f
  vecMap x.n fun j i =>
    let (a, b) := fIn o x (ninTwo s o.ctl cp) s c j i
    let f0 := a.fl.add b.fl
    let (v, f1, ev) := sfuEval s o.ctl cp f (toWork wk a.v) (toWork wk b.v)
    let (w, f2) := roundTo f v
    { word := w, fl := (f0.add f1).add f2, mark := a.mark ||| b.mark, nan := decide (a.v = .nan) || decide (b.v = .nan),
      step := if f0.event then 0 else (ev.map (·.1)).getD 0, ev := if f0.event then some f0 else ev.map (·.2) }

/-- Why the lane operands of an SFN or a GACT fault: the first in A, with `two` the second in B (R143). -/
def fBad (o : FOp) (cp two : Bool) (s : State) (c : Ctx) : Nat :=
  let wk := sfuWork s o.ctl cp (fmtD o.dfmt)
  if (o.ak && regBad s c (o.a.toNat % 16) (fitsWork wk)) || (two && o.bk && regBad s c (o.b.toNat % 16) (fitsWork wk))
  then 0x05 else 0

/-- SFN. -/
def doSfn (h : IssueHdr) (o : FOp) (s : State) : State :=
  let cp := compatOf s h.leng.toNat h.seg
  let x := sfnShape o cp s
  vecIssue h x (fBad o cp (ninTwo s o.ctl cp)) (fun _ s => s) (fun c s => vecOut x (fmtD o.dfmt) (sfnEls o cp x s c) c s) s

/-- The elements of a GACT: g times act(a), the activation at its work format, one rounding of the exact product (R164). -/
def gactEls (o : FOp) (cp : Bool) (x : VShape) (s : State) (c : Ctx) : List VRes :=
  let f := fmtD o.dfmt
  let wf := sfuWork s o.ctl cp f
  vecMap x.n fun j i =>
    let (a, g) := fIn o x true s c j i
    let f0 := a.fl.add g.fl
    let (v, f1, ev) := sfuEval s o.ctl cp wf (toWork wf a.v) .zero
    let (act, f2) := if o.ctl.getLsbD 5 then (v, Flags.none) else roundVal wf v
    let (p, f3) := act.mul (toWork wf g.v)
    let (w, f4) := roundTo f p
    { word := w, fl := (((f0.add f1).add f2).add f3).add f4, mark := a.mark ||| g.mark,
      nan := decide (a.v = .nan) || decide (g.v = .nan),
      step := if f0.event then 0 else (ev.map (·.1)).getD 0, ev := if f0.event then some f0 else ev.map (·.2) }

/-- GACT. [log 38, DEDUCED] -/
def doGact (h : IssueHdr) (o : FOp) (s : State) : State :=
  let cp := compatOf s h.leng.toNat h.seg
  let x := gactShape o cp s
  vecIssue h x (fBad o cp true) (fun _ s => s) (fun c s => vecOut x (fmtD o.dfmt) (gactEls o cp x s c) c s) s

/-! ### Lane quires (R146) -/

/-- Put lane quires of a register from a list over lanes. -/
def quirePut (k q : Nat) (l : List LaneQ) (s : State) : State :=
  vecMod k (fun v => { v with lq := l.zipIdx.foldl (fun t e => tabSet (fun _ => {}) t (64 * q + e.2) e.1) v.lq }) s

/-- A lane quire register fails. -/
def quireFail (k q : Nat) (s : State) : State :=
  vecMod k (fun v =>
    { v with lq := (List.range 64).foldl (fun t l =>
        tabMod (fun _ => {}) t (64 * q + l) (fun y => { y with mark := y.mark ||| mkFailed })) v.lq }) s

/-- QCLR's shape. -/
def qclrShape (o : VOp) : VShape := { n := o.nm1.toNat + 1, adv := o.adv }

/-- QCLR. -/
def doQclr (h : IssueHdr) (o : VOp) (s : State) : State :=
  let x := qclrShape o
  vecIssue h x (fun _ _ => 0) (fun c => quireFail c.k o.mlq.toNat) (fun c s =>
    quirePut c.k o.mlq.toNat (List.replicate 64
      { tag := some (fmtD o.wfmt), q := .int 0, mark := outMark s c false, ready := c.cyc + 7 + (x.n - 1) * x.rate + 1 }) s) s

/-- A quire register is unreadable, or its operand formats do not fit its tag (R143, R146). -/
def quireBad (s : State) (c : Ctx) (q : Nat) (fits : Fmt → Bool) : Bool :=
  (List.range 64).any fun l =>
    let x := quireGet s c.k q l
    match x.tag with
    | none => true
    | some t => !fits t || decide (c.cyc + 1 < x.ready)

/-- The posit format of a quire tag. -/
def positOf (t : Fmt) : Fmt :=
  match t with
  | .q8 => .p8
  | .q16 => .p16
  | _ => .p32

/-- An operand format a QMAC may add under a tag. -/
def fitsMac (f t : Fmt) : Bool := f.isPosit && decide (f.width ≤ (positOf t).width)

/-- One operand added to a lane quire: leaving the range sets quire NaR and QOVF; an infinity NaR and INV (R41, R146). -/
def quireAdd (t : Fmt) (q : QVal) (v : FVal) : QVal × Flags :=
  match v with
  | .inf _ => (.nar, { inv := 1 })
  | .nan => (.nar, {})
  | v =>
    match q.add (v.toQ t) with
    | .int n => if quireInRange t n then (.int n, {}) else (.nar, { qovf := 1 })
    | .nar => (.nar, {})

/-- The lanes of a QMAC or QACC over N vectors; `term` gives the operand of vector j, lane l. -/
def quireRun (s : State) (c : Ctx) (q n rate : Nat) (term : Nat → Nat → FVal × Flags × Mark × Bool) :
    List LaneQ × List VRes :=
  let lanes := (List.range 64).map fun l =>
    let y := quireGet s c.k q l
    let t := y.tag.getD .q32
    (List.range n).foldl (fun (p : LaneQ × List VRes) j =>
      let (v, fl, m, nan) := term j l
      let (z, f2) := quireAdd t p.1.q v
      ({ p.1 with q := z, mark := p.1.mark ||| m, ready := c.cyc + 7 + (n - 1) * rate + 1 },
       p.2 ++ [{ fl := fl.add f2, mark := m ||| (y.mark &&& mkPoison), nan := nan }])) (y, [])
  (lanes.map (·.1), (List.range n).flatMap fun j => lanes.map fun p => p.2.getD j {})

/-- Effects of a quire instruction. -/
def quireEnd (x : VShape) (c : Ctx) (q : Nat) (p : List LaneQ × List VRes) (s : State) : State :=
  let extra := outMark s c (vecTraps s c p.2)
  vecEvents x c p.2 (readMarks p.2) (quirePut c.k q (p.1.map fun x => { x with mark := x.mark ||| extra }) s)

/-- The format a register source is read in; a stream's is its field. -/
def srcFmtBad (s : State) (c : Ctx) (k : Bool) (a : BitVec 17) (f : BitVec 4) (fits : Fmt → Bool) : Bool :=
  if k then regBad s c (a.toNat % 16) fits else !fits (fmtD f)

/-- The tag of a quire register's lane 0. -/
def quireTag (s : State) (k q : Nat) : Fmt := (quireGet s k q 0).tag.getD .q32

/-- QMAC's shape. -/
def qmacShape (o : VOp) : VShape :=
  { n := o.nm1.toNat + 1, adv := o.adv, a := strm o.ak o.a o.afmt, b := strm o.bk o.b o.bfmt }

/-- Why a QMAC's operands fault (R143, R146). -/
def qmacBad (o : VOp) (s : State) (c : Ctx) : Nat :=
  let q := o.mlq.toNat
  let t := quireTag s c.k q
  if quireBad s c q (fun _ => true) || srcFmtBad s c o.ak o.a o.afmt (fun f => fitsMac f t) ||
    srcFmtBad s c o.bk o.b o.bfmt (fun f => fitsMac f t) then 0x05 else 0

/-- QMAC. -/
def doQmac (h : IssueHdr) (o : VOp) (s : State) : State :=
  let q := o.mlq.toNat
  let x := qmacShape o
  vecIssue h x (qmacBad o) (fun c => quireFail c.k q) (fun c s =>
    let (ab, bb, _) := x.bases c
    quireEnd x c q (quireRun s c q x.n x.rate fun j l =>
      let a := vIn s c x o.ak (srcLine o.ak o.a ab) (fmtD o.afmt) j l
      let b := vIn2 s c x o.bk (srcLine o.bk o.b bb) (fmtD o.bfmt) j l
      ((a.v.mul b.v).1, {}, a.mark ||| b.mark, decide (a.v = .nan) || decide (b.v = .nan))) s) s

/-- QACC's shape. -/
def qaccShape (o : VOp) : VShape := { n := o.nm1.toNat + 1, adv := o.adv, a := strm o.ak o.a o.afmt }

/-- Why a QACC's operands fault (R143, R146). -/
def qaccBad (o : VOp) (s : State) (c : Ctx) : Nat :=
  let q := o.mlq.toNat
  let t := quireTag s c.k q
  if quireBad s c q (fun _ => true) ||
    srcFmtBad s c o.ak o.a o.afmt (fun f => fitsMac f t || (decide (f = .fp32) && decide (t = .q32))) then 0x05 else 0

/-- QACC. -/
def doQacc (h : IssueHdr) (o : VOp) (s : State) : State :=
  let q := o.mlq.toNat
  let x := qaccShape o
  vecIssue h x (qaccBad o) (fun c => quireFail c.k q) (fun c s =>
    let (ab, _, _) := x.bases c
    quireEnd x c q (quireRun s c q x.n x.rate fun j l =>
      let a := vIn s c x o.ak (srcLine o.ak o.a ab) (fmtD o.afmt) j l
      (a.v, a.fl, a.mark, decide (a.v = .nan))) s) s

/-- QRND's shape. -/
def qrndShape (o : VOp) : VShape :=
  { n := o.nm1.toNat + 1, adv := o.adv, d := if o.dk then none else some (o.d, fmtD o.dfmt),
    reg := if o.dk then some (o.d.toNat % 16) else none }

/-- The elements of a QRND: each lane's quire rounded once (R43). -/
def qrndEls (o : VOp) (s : State) (c : Ctx) : List VRes :=
  vecMap (o.nm1.toNat + 1) fun _ i =>
    let y := quireGet s c.k o.mlq.toNat i
    let (w, fl) := roundTo (fmtD o.dfmt) (y.q.toF (y.tag.getD .q32))
    { word := w, fl := fl, mark := y.mark, nan := decide (y.q = .nar) }

/-- Why a QRND's quires fault (R143). -/
def qrndBad (o : VOp) (s : State) (c : Ctx) : Nat := if quireBad s c o.mlq.toNat (fun _ => true) then 0x05 else 0

/-- QRND. -/
def doQrnd (h : IssueHdr) (o : VOp) (s : State) : State :=
  vecIssue h (qrndShape o) (qrndBad o) (fun _ s => s) (fun c s => vecOut (qrndShape o) (fmtD o.dfmt) (qrndEls o s c) c s) s

/-! ### SMX (R165, R166, R168) -/

/-- The clamp of y to ±2^30, with SAT. -/
def smxClamp (y : FVal) : FVal × Flags :=
  let lim : FVal := .num false 1 30
  match y.lt? lim.negate, lim.lt? y with
  | some true, _ => (lim.negate, { sat := 1 })
  | _, some true => (lim, { sat := 1 })
  | _, _ => (y, {})

/-- y of an element, none where it is NaR or NaN, with its flags. -/
def smxY (x beta : FVal) : Option FVal × Flags :=
  let (p, f1) := x.mul beta
  let (y, f2) := roundVal .p32 p
  let f := f1.add f2
  if y = .nan then (none, f) else (let (z, f3) := smxClamp y; (some z, f.add f3))

/-- The exponent units of a term: T(f) * 2^n in q32 units. -/
def smxUnits (m : Nat) (e n : Int) : Int := toQuireUnits .q32 false (smxTerm m e) (n - 25)

/-- One element into a lane's row state and sum. An infinite fp32 element, whose y is NaR, sets `bad` and leaves K and S. [log 112, DESIGN CHOICE] -/
def smxAcc (st : RowSt × QVal) (x beta : FVal) : (RowSt × QVal) × Flags :=
  let (r, q) := st
  match smxY x beta with
  | (none, f) => (({ r with bad := true }, q), if x = .nan then {} else f)
  | (some y, f) =>
    let fl := floorVal y
    let (m, e) := fracVal y
    let (k, q) :=
      if r.empty then (fl, q)
      else if r.k < fl then
        (fl, match q with
          | .int v => .int (signed (decide (v < 0)) (v.natAbs / 2 ^ (fl - r.k).toNat))
          | .nar => .nar)
      else (r.k, q)
    let n := fl - k
    let (q, f2) : QVal × Flags := if -64 ≤ n then (match q with
        | .int v =>
          let u := v + smxUnits m e n
          if quireInRange .q32 u then (.int u, {}) else (.nar, { qovf := 1 })
        | .nar => (.nar, {})) else (q, {})
    (({ r with empty := false, k := k }, q), f.add f2)

/-- The output of one element (R165). A sum that is not above zero, which only a quire that no row filled holds, gives NaR or NaN
without a flag. [log 92, DESIGN CHOICE; 112, DESIGN CHOICE] -/
def smxOut (f : Fmt) (r : RowSt) (q : QVal) (x beta : FVal) : Nat × Flags :=
  match smxY x beta, q with
  | (none, fl), _ => (let (w, g) := roundTo f .nan; (w, if x = .nan then g else fl.add g))
  | (some _, fl), .nar => (let (w, g) := roundTo f .nan; (w, fl.add g))
  | (some y, fl), .int sv =>
    if r.bad || decide (sv ≤ 0) then (let (w, g) := roundTo f .nan; (w, fl.add g))
    else
      let (m, e) := fracVal y
      let n := floorVal y - r.k
      let num : Int := if -64 ≤ n then smxUnits m e n else 0
      let (w, g) := roundTo f (ratVal num sv.natAbs 0)
      (w, fl.add g)

/-- A row state, opened anew where its last phase closed the row. [log 37, DEDUCED] -/
def rowOpen (r : RowSt) : RowSt := if r.closed then {} else r

/-- Put the row states of a segment's SK from a list over lanes. -/
def rowPut (k q : Nat) (l : List RowSt) (s : State) : State :=
  vecMod k (fun v => { v with sk := l.zipIdx.foldl (fun t e => tabSet (fun _ => {}) t (64 * q + e.2) e.1) v.sk }) s

/-- SK of a segment. -/
def skOf (g : Seg) : Nat := if g = .rt then 0 else 1

/-- Rows of a segment fail. -/
def rowFail (k q : Nat) (s : State) : State :=
  vecMod k (fun v =>
    { v with sk := (List.range 64).foldl (fun t l =>
        tabMod (fun _ => {}) t (64 * q + l) (fun y => { y with mark := y.mark ||| mkFailed })) v.sk }) s

/-- The format of a source element: the register lane's tag, or the field's (R185). -/
def srcFmt (s : State) (k : Nat) (reg : Bool) (a : BitVec 17) (f : BitVec 4) (l : Nat) : Fmt :=
  if reg then ((laneGet s k (a.toNat % 16) l).tag).getD .p32 else fmtD f

/-- Adding a list of values, each sum rounded to fp32, in the IL-3610's order, with the flags of the sums. [log 13, DESIGN CHOICE] -/
def fp32Sum : Nat → Nat → List FVal → FVal × Flags
  | 0, _, l => (l.headD .zero, {})
  | fuel + 1, j, l =>
    match l with
    | [] => (.zero, {})
    | [a] => (a, {})
    | a :: t =>
      let (p, q) := Config.compatOrder l.length j
      let i := p % l.length
      let x := l.getD i a
      let rest := dropAt l i
      let k := q % rest.length
      let y := rest.getD k (t.headD a)
      let (v, f1) := x.add y
      let (v, f2) := roundVal .fp32 v
      let (v, f3) := fp32Sum fuel (j + 1) (v :: dropAt rest k)
      (v, (f1.add f2).add f3)

/-- The values of kept fp32 words. -/
def fp32Vals (l : List (BitVec 32)) : List FVal := l.map fun w => (decodeIeee .fp32 w.toNat).1

/-- A value with flags rounded to fp32. -/
def to32 (p : FVal × Flags) : FVal × Flags := (let (v, f) := roundVal .fp32 p.1; (v, p.2.add f))

/-- The flags of a list of results. -/
def flagsOf (l : List (FVal × Flags)) : Flags := l.foldl (fun t x => t.add x.2) {}

/-- exp of a row's element below the row's maximum by the IL-3610's method, in fp32 (R168). [log 13, DESIGN CHOICE] -/
def smxExp (beta top x : FVal) : FVal × Flags :=
  let (y, f1) := to32 (x.mul beta)
  let (d, f2) := to32 (y.add top.negate)
  let (e, f3) := to32 (primVal 0 .fp32 true d)
  (e, (f1.add f2).add f3)

/-- The row's part of the IL-3610's SMX (R168): β in fp32, the largest of the row's scaled inputs, and the reciprocal of the fp32 sum
of exp of each below it, with the flags of these steps. -/
def smxRow (r : RowSt) (beta : FVal) : FVal × FVal × FVal × Flags :=
  let vals := fp32Vals r.vals
  let (b, f0) := to32 (beta, {})
  let ys := vals.map fun v => to32 (v.mul b)
  let top := (ys.map (·.1)).foldl (minMax true) ((ys.map (·.1)).headD .zero)
  let es := vals.map (smxExp b top)
  let (sum, f1) := fp32Sum es.length 0 (es.map (·.1))
  let (q, f2) := to32 (primVal 2 .fp32 true sum)
  (b, top, q, (f0.add (flagsOf es)).add (f1.add f2))

/-- The exact softmax of an element's scaled value in its row, for finite values (R166). [log 13, DESIGN CHOICE] -/
def smxTrue (vals : List FVal) (b top x : FVal) : Option FVal :=
  let y (v : FVal) : FVal := ((to32 (v.mul b)).1.add top.negate).1
  if (x :: vals).all (fun v => (y v).finite) then
    some (rDiv (exp2True (y x)) (vals.foldl (fun t v => rAdd t (exp2True (y v))) .zero))
  else none

/-- An output of the IL-3610's SMX (R168): exp of the element below the row's maximum, times the reciprocal of the row's sum; a NaN in
the row gives NaN. The flags of the row's steps count with its first output (`first`). Where the job is beyond the IL-3610's configuration
(`wide`) it is held to R166's bound (R170). [log 13, DESIGN CHOICE] -/
def smxCompat (f : Fmt) (r : RowSt) (x beta : FVal) (first wide : Bool) : Nat × Flags :=
  if r.bad || decide (x = .nan) || decide (beta = .nan) then roundTo f .nan
  else
    let (b, top, q, fr) := smxRow r beta
    let (e, f1) := smxExp b top x
    let (p, f2) := e.mul q
    let p := match (if wide then smxTrue (fp32Vals r.vals) b top x else none) with
      | some a => heldTo 23 a p
      | none => p
    let (w, f3) := roundTo f p
    (w, (if first then fr else {}).add ((f1.add f2).add f3))

/-- SMX's shape in its phase. -/
def smxShape (o : FOp) : VShape := fShape o false 1 21 (if o.ctl.getLsbD 5 then 20 else 13) (o.ctl.getLsbD 5)

/-- The elements of SMX's output phase on the rows and sums of its lanes (R165, R168); `wide`: the job is beyond the IL-3610's
configuration (R170). [log 13, DESIGN CHOICE] -/
def smxEls (o : FOp) (wide : Bool) (s : State) (c : Ctx) : List VRes :=
  let x := smxShape o
  vecMap x.n fun j l =>
    let a := (fIn o x false s c j l).1
    let b := vIn s c x true o.c.toNat .p32 0 l
    let r := rowGet s c.k (skOf c.g) l
    let y := quireGet s c.k o.lq.toNat l
    let (w, fl) := if r.ieee then smxCompat (fmtD o.dfmt) r a.v b.v (decide (j = 0) && !r.closed) wide
      else smxOut (fmtD o.dfmt) r y.q a.v b.v
    { word := w, fl := (a.fl.add b.fl).add fl, mark := a.mark ||| b.mark ||| r.mark ||| y.mark,
      nan := decide (a.v = .nan) || decide (b.v = .nan) || decide (y.q = .nar) }

/-- Why an SMX's operands, row or sums fault (R143, R165). -/
def smxBad (o : FOp) (s : State) (c : Ctx) : Nat :=
  if (o.ak && regBad s c (o.a.toNat % 16) (fun _ => true)) || regBad s c o.c.toNat (fun t => t.isPosit) ||
    quireBad s c o.lq.toNat (fun t => decide (t = .q32)) ||
    ((List.range 64).any fun l => let r := rowGet s c.k (skOf c.g) l; decide (c.cyc + 1 < r.ready) ||
      (o.ctl.getLsbD 5 && (r.empty && !r.bad && !r.ieee)))
  then 0x05 else 0

/-- SMX. [log 13, DESIGN CHOICE] -/
def doSmx (h : IssueHdr) (o : FOp) (s : State) : State :=
  let out := o.ctl.getLsbD 5
  let q := o.lq.toNat
  let sk := skOf h.seg
  let x := smxShape o
  let il (s : State) (k l : Nat) : Bool :=
    compatOf s h.leng.toNat h.seg && decide (srcFmt s k o.ak o.a o.afmt l = .fp32)
  vecIssue h x (smxBad o)
    (fun c s => if out then s else rowFail c.k sk (quireFail c.k q s)) (fun c s =>
    let rdy := c.cyc + 13 + x.n * x.rate + 1
    if out then
      vecOut x (fmtD o.dfmt) (smxEls o (!r77 s h.leng.toNat h.seg) s c) c
        (rowPut c.k sk ((List.range 64).map fun l => { rowGet s c.k sk l with closed := true }) s)
    else
      let lanes := (List.range 64).map fun l =>
        let r := rowOpen (rowGet s c.k sk l)
        let y := quireGet s c.k q l
        let b := vIn s c x true o.c.toNat .p32 0 l
        (List.range x.n).foldl (fun (p : (RowSt × LaneQ) × List VRes) j =>
          let a := (fIn o x false s c j l).1
          let ((r', q'), fl) :=
            if il s c.k l then
              (({ p.1.1 with ieee := true, bad := p.1.1.bad || decide (a.v = .nan),
                             vals := p.1.1.vals ++ [BitVec.ofNat 32 (roundTo .fp32 a.v).1] }, p.1.2.q), Flags.none)
            else smxAcc (p.1.1, p.1.2.q) a.v b.v
          let m := a.mark ||| b.mark
          (({ r' with mark := r'.mark ||| m, ready := rdy }, { p.1.2 with q := q', mark := p.1.2.mark ||| m, ready := rdy }),
           p.2 ++ [{ fl := (a.fl.add b.fl).add fl, mark := m, nan := decide (a.v = .nan) || decide (b.v = .nan) }])) ((r, y), [])
      let l := (List.range x.n).flatMap fun j => lanes.map fun p => p.2.getD j {}
      let extra := outMark s c (vecTraps s c l)
      let s := rowPut c.k sk (lanes.map fun p => { p.1.1 with mark := p.1.1.mark ||| extra }) s
      let s := quirePut c.k q (lanes.map fun p => { p.1.2 with mark := p.1.2.mark ||| extra }) s
      vecEvents x c l (readMarks l) s) s

/-! ### NRM (R167-R169) -/

/-- The two lane quires of a segment. -/
def lqOf (g : Seg) : Nat := if g = .rt then 0 else 2

/-- mu of one lane (R167): the mean in mode LN, 0 in mode RMS. -/
def nrmMean (rms : Bool) (n : Nat) (s1 : QVal) : FVal × Flags :=
  if rms then (.zero, {})
  else match s1 with
    | .int a => roundVal .p32 (ratVal a n (quireLsb .q32))
    | .nar => (.nan, {})

/-- The finish phase of one lane on exact sums: mu and v (R167). A NaR sum or eps leaves v NaR; in mode RMS s1 enters neither. -/
def nrmFinish (rms : Bool) (n : Nat) (s1 s2 : QVal) (eps : FVal) : FVal × FVal × Flags :=
  let (mu, f1) := nrmMean rms n s1
  match (if rms then .int 0 else s1), s2, eps with
  | .int a, .int b, .num es em ee =>
    let lsb := quireLsb .q32
    -- numerator and denominator of the variance in units of 2^(2 lsb), then eps over the same
    let num : Int := if rms then b * 2 ^ (-lsb).toNat else (n : Int) * b * 2 ^ (-lsb).toNat - a * a
    let den : Nat := if rms then n else n * n
    let g := min ee (2 * lsb)
    let v := num * 2 ^ (2 * lsb - g).toNat + signed es (em * 2 ^ (ee - g).toNat) * den
    let (vr, f2) := roundVal .p32 (ratVal v den g)
    (mu, vr, f1.add f2)
  | _, _, _ => (mu, .nan, f1)

/-- The IL-3610's one-pass finish (R168, R169) on its two fp32 sums: says too
whether a variance below zero was replaced. -/
def nrmCompat (rms : Bool) (n : Nat) (s1 s2 eps : FVal) : FVal × FVal × Flags × Bool :=
  let q (x : FVal) : FVal × Flags := match x with
    | .num sg m e => roundVal .fp32 (ratVal (signed sg m) n e)
    | y => (y, {})
  let (mu, f1) := if rms then (FVal.zero, Flags.none) else q s1
  let (m2, f2) := q s2
  let (sq, f3) := mu.mul mu
  let (v, f4) := m2.add sq.negate
  let (v, f5) := roundVal .fp32 v
  let neg := decide (v.lt? .zero = some true)
  let v := if neg then .zero else v
  let (w, f6) := v.add eps
  let (w, f7) := roundVal .fp32 w
  (mu, w, (((f1.add f2).add (f3.add f4)).add (f5.add f6)).add f7, neg)

/-- NRM's shape in a phase. The finish phase, whose rsqrt R150 gives no step count, takes s = 0 at rate 1; its SFUs' parity errors meet
registers C and C + 1 (R154, R167). [log 36, DEDUCED; 105, DESIGN CHOICE] -/
def nrmShape (o : FOp) (ph : Nat) : VShape :=
  if ph = 0 then { n := o.nm1.toNat + 1, adv := o.adv, a := strm o.ak o.a o.afmt, first := 9, last := 8 }
  else if ph = 1 then { n := 1, adv := false, first := 40, last := 39, steps := 0, rot := o.rot.toNat, sfu := true, also := [o.c.toNat, o.c.toNat + 1] }
  else
    { n := o.nm1.toNat + 1, adv := o.adv, a := strm o.ak o.a o.afmt, b := some (o.b, .p32), bPair := true,
      d := if o.dk then none else some (o.d, fmtD o.dfmt), reg := if o.dk then some (o.d.toNat % 16) else none,
      first := 9, last := 8 }

/-- Lane values of a register put from a list over lanes. -/
def lanePut (k r : Nat) (l : List LaneVal) (s : State) : State :=
  vecMod k (fun v => { v with vr := l.zipIdx.foldl (fun t e => tabSet (fun _ => {}) t (64 * r + e.2) e.1) v.vr }) s

/-- Accumulate phase: exact sums in the two quires, or in a compatibility row the inputs kept for its fp32 sums (R167, R168). [log 13, DESIGN CHOICE] -/
def nrmAcc (c : Ctx) (o : FOp) (x : VShape) (s : State) : State :=
  let q := lqOf c.g
  let sk := skOf c.g
  let (ab, _, _) := x.bases c
  let rdy := c.cyc + 8 + x.n * x.rate + 1
  let lanes := (List.range 64).map fun l =>
    let il := (srcFmt s c.k o.ak o.a o.afmt l).isIeee
    let r := rowOpen (rowGet s c.k sk l)
    (List.range x.n).foldl (fun (p : (RowSt × LaneQ × LaneQ) × List VRes) j =>
      let a := vIn s c x o.ak (srcLine o.ak o.a ab) (fmtD o.afmt) j l
      let (r, q1, q2) := p.1
      let (z1, g1) := if il then (q1.q, Flags.none) else quireAdd .q32 q1.q a.v
      let (z2, g2) := if il then (q2.q, Flags.none) else quireAdd .q32 q2.q (a.v.mul a.v).1
      let up (y : LaneQ) (z : QVal) : LaneQ := { y with q := z, mark := y.mark ||| a.mark, ready := rdy }
      let kept := if il then [BitVec.ofNat 32 (roundTo .fp32 (toWork .fp32 a.v)).1] else []
      (({ r with n := r.n + 1, ieee := r.ieee || il, vals := r.vals ++ kept, mark := r.mark ||| a.mark, ready := rdy,
                 empty := false }, up q1 z1, up q2 z2),
       p.2 ++ [{ fl := (a.fl.add g1).add g2, mark := a.mark, nan := decide (a.v = .nan) }]))
      ((r, quireGet s c.k q l, quireGet s c.k (q + 1) l), [])
  let l := (List.range x.n).flatMap fun j => lanes.map fun p => p.2.getD j {}
  let extra := outMark s c (vecTraps s c l)
  let s := rowPut c.k sk (lanes.map fun p => { p.1.1 with mark := p.1.1.mark ||| extra }) s
  let s := quirePut c.k q (lanes.map fun p => { p.1.2.1 with mark := p.1.2.1.mark ||| extra }) s
  let s := quirePut c.k (q + 1) (lanes.map fun p => { p.1.2.2 with mark := p.1.2.2.mark ||| extra }) s
  vecEvents x c l (readMarks l) s

/-- The finish phase of one lane's row: mu and r, with the flags, and whether a variance below zero was replaced; a row of fp32 inputs
by the IL-3610's method (R167, R168). -/
def nrmRow (rms : Bool) (r : RowSt) (s1 s2 : QVal) (eps : FVal) : FVal × FVal × Flags × Bool :=
  if r.ieee then
    let xs := fp32Vals r.vals
    let sq := xs.map fun x => to32 (x.mul x)
    let (t1, g1) := if rms then (FVal.zero, Flags.none) else fp32Sum xs.length 0 xs
    let (t2, g2) := fp32Sum xs.length 0 (sq.map (·.1))
    let (mu, v, f, neg) := nrmCompat rms r.n t1 t2 eps
    let (y, g) := to32 (primVal 3 .fp32 true v)
    (mu, y, (((flagsOf sq).add g1).add (g2.add f)).add g, neg)
  else
    let (mu, v, f) := nrmFinish rms r.n s1 s2 eps
    let (y, g) := primVal 3 .p32 false v
    (mu, y, f.add g, false)

/-- Finish phase: mu and r into registers C and C + 1. [log 13, DESIGN CHOICE] -/
def nrmFin (c : Ctx) (o : FOp) (x : VShape) (s : State) : State :=
  let q := lqOf c.g
  let sk := skOf c.g
  let rms := o.ctl.getLsbD 3
  let rs := (List.range 64).map fun l =>
    let r := rowGet s c.k sk l
    let y1 := quireGet s c.k q l
    let y2 := quireGet s c.k (q + 1) l
    let e := vInAt s c.k true (o.a.toNat % 16) .p32 (fun _ => c.cyc + 1) 0 l
    let (mu, rv, f1, neg) := nrmRow rms r y1.q y2.q e.v
    let (rw, f3) := roundTo .p32 rv
    let (mw, f4) := roundTo .p32 mu
    let m := r.mark ||| y1.mark ||| y2.mark ||| e.mark
    let nan := decide (e.v = FVal.nan) || decide (y1.q = QVal.nar) || decide (y2.q = QVal.nar)
    (mw, rw, ({ fl := ((e.fl.add f1).add f3).add f4, mark := m, nan := nan } : VRes), neg)
  let l := rs.map (·.2.2.1)
  let extra := outMark s c (vecTraps s c l)
  let mk' (w : Nat) (m : Mark) : LaneVal :=
    { tag := some .p32, bits := BitVec.ofNat 32 w, mark := m ||| extra, ready := c.cyc + 41 }
  let p := pgEng c.k 7
  let negs := (rs.filter (·.2.2.2)).length
  let s' := whenS (decide (0 < negs)) (fun s => raise p 3 (finc p 0x88 0 32 negs s)) s
  let s' := lanePut c.k o.c.toNat (rs.map fun t => mk' t.1 t.2.2.1.mark) s'
  let s' := lanePut c.k (o.c.toNat + 1) (rs.map fun t => mk' t.2.1 t.2.2.1.mark) s'
  let s' := rowPut c.k sk ((List.range 64).map fun l => { rowGet s c.k sk l with closed := true }) s'
  vecEvents x c l (readMarks l) s'

/-- (x - mu) r gamma + beta, exactly, with its flags; an IEEE x enters as in fp32 work (R141, R144, R167). -/
def nrmVal (x mu r g b : FVal) : FVal × Flags :=
  let (d, f1) := (toWork .fp32 x).add mu.negate
  let (p, f2) := d.mul r
  let (p, f3) := p.mul g
  let (y, f4) := p.add b
  (y, (f1.add f2).add (f3.add f4))

/-- Element `i` of the pairs of gamma and beta that an apply phase reads (R167). -/
def nrmPair (x : VShape) (s : State) (c : Ctx) (i : Nat) : VIn :=
  let (ln, m) := cReadAt s c.k ((x.bases c).2.1.toNat + i / 16) (c.cyc + 1 + (i / 2) * x.rate)
  let (v, fl) := readVal .p32 (lineElem .p32 ln (i % 16))
  { v := v, fl := fl, mark := m }

/-- The elements of the apply phase, each rounded once (R167). -/
def nrmEls (o : FOp) (s : State) (c : Ctx) : List VRes :=
  let x := nrmShape o 2
  vecMap x.n fun j i =>
    let a := (fIn o x false s c j i).1
    let mu := vIn s c x true o.c.toNat .p32 0 i
    let r := vIn s c x true (o.c.toNat + 1) .p32 0 i
    let g := nrmPair x s c (2 * j)
    let b := nrmPair x s c (2 * j + 1)
    let (y, f1) := nrmVal a.v mu.v r.v g.v b.v
    let (w, f2) := roundTo (fmtD o.dfmt) y
    { word := w, fl := (a.fl.add f1).add f2,
      mark := a.mark ||| mu.mark ||| r.mark ||| g.mark ||| b.mark,
      nan := decide (a.v = .nan) || decide (mu.v = .nan) || decide (r.v = .nan) || decide (g.v = .nan) || decide (b.v = .nan) }

/-- A register that holds NRM's inputs fits (R143, R167): posits, and fp32 where the job has GENCOMPAT. -/
def nrmFits (s : State) (c : Ctx) (t : Fmt) : Bool := t.isPosit || (compatOf s c.leng c.g && decide (t = .fp32))

/-- Why an NRM's operands, row or sums fault in phase `ph` (R143, R167). -/
def nrmBad (o : FOp) (ph : Nat) (s : State) (c : Ctx) : Nat :=
  let q := lqOf c.g
  let rows := (List.range 64).map fun l => rowGet s c.k (skOf c.g) l
  let qs := quireBad s c q (fun t => decide (t = .q32)) || quireBad s c (q + 1) (fun t => decide (t = .q32))
  let late := rows.any fun r => decide (c.cyc + 1 < r.ready)
  if ph = 0 then
    (if qs || late || (o.ak && regBad s c (o.a.toNat % 16) (nrmFits s c)) ||
        (rows.any fun r => decide (2 ^ 24 < (rowOpen r).n + o.nm1.toNat + 1)) then 0x05 else 0)
  else if ph = 1 then
    (if qs || late || (rows.any fun r => decide (r.n = 0) || r.closed) || regBad s c (o.a.toNat % 16) (fitsWork .p32) then 0x05 else 0)
  else
    (if regBad s c o.c.toNat (fitsWork .p32) || regBad s c (o.c.toNat + 1) (fitsWork .p32) ||
        (o.ak && regBad s c (o.a.toNat % 16) (nrmFits s c)) then 0x05 else 0)

/-- NRM. -/
def doNrm (h : IssueHdr) (o : FOp) (s : State) : State :=
  let ph := o.ctl.toNat / 16
  let x := nrmShape o ph
  let q := lqOf h.seg
  let sk := skOf h.seg
  vecIssue h x (nrmBad o ph)
    (fun c s =>
      if ph = 0 then rowFail c.k sk (quireFail c.k q (quireFail c.k (q + 1) s))
      else if ph = 1 then
        vecMod c.k (fun v =>
          { v with vr := (List.range 64).foldl (fun t l =>
              tabMod (fun _ => {}) (tabMod (fun _ => {}) t (64 * o.c.toNat + l) (fun y => { y with mark := y.mark ||| mkFailed }))
                (64 * (o.c.toNat + 1) + l) (fun y => { y with mark := y.mark ||| mkFailed })) v.vr }) s
      else s)
    (fun c s => if ph = 0 then nrmAcc c o x s else if ph = 1 then nrmFin c o x s else vecOut (nrmShape o 2) (fmtD o.dfmt) (nrmEls o s c) c s) s

/-- VOP. -/
def execVop (h : IssueHdr) (o : VOp) (s : State) : Res := gate (Instr.wf (.vop h o)) (doVop h o s)
/-- VRED. -/
def execVred (h : IssueHdr) (o : VOp) (s : State) : Res := gate (Instr.wf (.vred h o)) (doVred h o s)
/-- CVT. -/
def execCvt (h : IssueHdr) (o : XOp) (s : State) : Res := gate (Instr.wf (.cvt h o)) (doCvt h o s)
/-- SFN: an image that names an empty program slot is rejected at load (R159). [log 4, DESIGN CHOICE] -/
def execSfn (h : IssueHdr) (o : FOp) (s : State) : Res :=
  let cp := compatOf s h.leng.toNat h.seg
  gate (Instr.wf (.sfn h o) && (sfuSteps s o.ctl cp).isSome && sfnArgB h.seg o cp s) (doSfn h o s)
/-- GACT. [log 4, DESIGN CHOICE] -/
def execGact (h : IssueHdr) (o : FOp) (s : State) : Res :=
  gate (Instr.wf (.gact h o) && (sfuSteps s o.ctl (compatOf s h.leng.toNat h.seg)).isSome) (doGact h o s)
/-- SMX. -/
def execSmx (h : IssueHdr) (o : FOp) (s : State) : Res := gate (Instr.wf (.smx h o)) (doSmx h o s)
/-- NRM: IEEE inputs need GENCOMPAT (R167). [log 4, DESIGN CHOICE] -/
def execNrm (h : IssueHdr) (o : FOp) (s : State) : Res :=
  gate (Instr.wf (.nrm h o) &&
      (o.ak || !(fmtD o.afmt).isIeee || compatOf s h.leng.toNat h.seg || decide (o.ctl.toNat / 16 = 1)))
    (doNrm h o s)
/-- QCLR. -/
def execQclr (h : IssueHdr) (o : VOp) (s : State) : Res := gate (Instr.wf (.qclr h o)) (doQclr h o s)
/-- QMAC. -/
def execQmac (h : IssueHdr) (o : VOp) (s : State) : Res := gate (Instr.wf (.qmac h o)) (doQmac h o s)
/-- QACC. -/
def execQacc (h : IssueHdr) (o : VOp) (s : State) : Res := gate (Instr.wf (.qacc h o)) (doQacc h o s)
/-- QRND. -/
def execQrnd (h : IssueHdr) (o : VOp) (s : State) : Res := gate (Instr.wf (.qrnd h o)) (doQrnd h o s)

end Sys2Proof.Machine
end

