-- ==== Sys2Proof/Machine/Checks.lean ====
section
/-! DEFINITION. Checking, replay and retraction (spec/09_checksums_replay_and_faults.md R108, R228-R241): pass faults, row
checks and RETRACT. -/

namespace Sys2Proof.Machine

/-- A spare column is requested for a physical column (R233): the column is marked failed and takes effect at the next LDS;
with no spare column left the engine has a fault (R111). -/
def requestColAt (x c : Nat) (s : State) : State :=
  let p := pgEng x 1
  let s := fset p (0x64 + 4 * (c / 32)) (c % 32) 1 1 s
  if (roleOf s x c).isNone || ((eng s x).arr.colReq.map (·.toNat)).contains c then s
  else if (freeCols s x).length ≤ (eng s x).arr.colReq.length then engineFaultAt x s
  else arrMod x (fun a => { a with colReq := a.colReq ++ [BitVec.ofNat 7 c] }) s

/-- The same for a column of a logical engine. [log 28, DEDUCED] -/
def requestCol (leng c : Nat) (s : State) : State := requestColAt (execKey s leng) c s

/-- The same for a physical row. -/
def requestRowAt (x r : Nat) (s : State) : State :=
  let s := fset (pgEng x 1) (0x58 + 4 * (r / 32)) (r % 32) 1 1 s
  if (rowRole s x r).isNone || ((eng s x).arr.rowReq.map (·.toNat)).contains r then s
  else if (freeRows s x).length ≤ (eng s x).arr.rowReq.length then engineFaultAt x s
  else arrMod x (fun a => { a with rowReq := a.rowReq ++ [BitVec.ofNat 7 r] }) s

/-- An unlocated fault (R237): counted over 4,096 ticks; a second one is an engine fault. -/
def unlocated (leng : Nat) (g : Seg) (sev : Nat) (s : State) : State :=
  let k := storeKey s leng
  let t := s.tick.toNat
  let near := (eng s k).unlocAt.filter fun x => decide (t < x + 4096)
  let n := near.length + 1
  let s := engMod k (fun e => { e with unlocAt := t :: near }) s
  let s := fset (pgEng (execKey s leng) 5) 0x54 8 2 (min n 3) s
  let s := errEng 0x0105 sev leng g 0x25 [n] s
  whenS (decide (2 ≤ n)) (engineFault leng) s

/-- The checksum path becomes suspect (R236): column comparisons are suspended until the next LDS, which replaces it. -/
def pathSuspect (leng : Nat) (g : Seg) (s : State) : State :=
  let x := execKey s leng
  let q := pgEng x 5
  let s := raise q 2 (fset q 0x54 0 2 3 s)
  let sp := (pathCols s x).head?
  errEng 0x0104 1 leng g 0x25 [physCol s x 64, sp.getD 0x7F] s

/-- Mark the elements of a half that pass `f` wrote. -/
def markPass (k : Nat) (f : Flight) (m : Mark) (s : State) : State :=
  let vs := (covers f.region f.nprob f.op.boff.toNat (f.op.mm1.toNat + 1)).map (·.1)
  arrMod k (fun a => a.halfMod f.op.dsth (fun h =>
    { h with elems := h.elems.map fun p => if vs.contains (p.1 / 64) then (p.1, { p.2 with mark := p.2.mark ||| m }) else p })) s

/-- Later passes that take their source from a half whose elements were marked inherit the marks. [log 25, DEDUCED] -/
def inheritMarks (k : Nat) (m : Mark) : Bool → List Flight → State → State
  | _, [], s => s
  | h, f :: t, s =>
    if f.op.src ∧ (!f.op.dsth) = h then inheritMarks k m f.op.dsth t (inheritMarks k m h t (markPass k f m s)) else inheritMarks k m h t s

/-- Elements of a discarded half that no pass rewrites stay invalid (R108). [log 25, DEDUCED] -/
def discard (k : Nat) (h : Bool) (fs : List Flight) (s : State) : State :=
  let vs := (fs.filter fun f => decide (f.op.dsth = h)).flatMap fun f =>
    (covers f.region f.nprob f.op.boff.toNat (f.op.mm1.toNat + 1)).map (·.1)
  arrMod k (fun a => a.halfMod h (fun hf =>
    { hf with elems := hf.elems.map fun p => if vs.contains (p.1 / 64) then p else (p.1, { p.2 with valid := false }) })) s

/-- What the replay of a pass and of those after it leaves of their destination halves (R108). -/
def discardRun (k : Nat) (p : Flight) (later : List Flight) (s : State) : State :=
  whenS (later.any fun g => decide (g.op.dsth = !p.op.dsth)) (discard k (!p.op.dsth) later) (discard k p.op.dsth (p :: later) s)

/-- Later instructions of the engine issue `d` cycles late: the running segment, the array's own dates from `from'` on, and the check
slots of the passes that reissue. -/
def shiftEngine (k from' d : Nat) (s : State) : State :=
  engMod k (fun e =>
    let mv (x : SegSt) : SegSt := if x.st = 1 then { x with last := x.last + d, busyTo := x.busyTo + d } else x
    { e with
      rt := mv e.rt, bg := mv e.bg, dShift := e.dShift + d
      vec := { e.vec with occ := e.vec.occ.map fun o => if from' < o.1 then (o.1 + d, o.2 + d) else o }
      claims := e.claims.map fun c => if c.unit = .check ∧ from' < c.lo then { c with lo := c.lo + d } else c
      arr := { e.arr with
        flights := e.arr.flights.map fun f =>
          if from' ≤ f.cyc then
            let mv (c : Nat) : Nat := if from' < c then c + d else c
            { f with cyc := f.cyc + d, commit := f.commit + d, ldsAt := mv f.ldsAt, tileAt := mv f.tileAt, redo := true }
          else f
        lds := e.arr.lds.map fun l => if from' < l then l + d else l
        lastPass := e.arr.lastPass.map fun p => if from' ≤ p.1 then (p.1 + d, p.2 + d) else p
        actEnd := e.arr.actEnd + d } }) s

/-- The tile of pass `p` is loaded again by an LDS issued in cycle `e`: that pass and those after it that share the tile read it as it then
stands (R108, R234). -/
def reloadTile (k e : Nat) (p : Flight) (s : State) : State :=
  arrMod k (fun a => { a with flights := a.flights.map fun f =>
    if p.cyc ≤ f.cyc ∧ f.tileAt = p.tileAt then { f with tileAt := e, redo := true } else f }) s

/-- The LDS that a replay reissues reads its lines again (R108). -/
def rereadTile (k : Nat) (s : State) : State :=
  arrMod k (fun a => if a.tile.valid then { a with tile := tileAt s k a.tile (a.lds.getD 0) } else a) s

/-- Passes in flight that take their source from a half form their elements again. -/
def redoFrom (k : Nat) (h : Bool) (s : State) : State :=
  arrMod k (fun a => { a with flights := a.flights.map fun f => if f.op.src ∧ f.op.dsth ≠ h then { f with redo := true } else f }) s

/-- Every pass in flight is formed of what its lines held in the cycles of its reads (R94). -/
def reformAll (k : Nat) (s : State) : State := foldS (List.range (eng s k).arr.flights.length) (reformAt k) s

/-! ### Resolving a pass fault (R108, R228, R232) -/

/-- The comparison of a fault's vector and problem. -/
def siteChk (x : FaultSite) (p : Flight) : ColChk :=
  tabGet (fun _ => { covered := false }) p.cols (256 * x.p.toNat + x.m.toNat)

/-- The error a fault puts into column `n`. -/
def siteErr (x : FaultSite) (n : Nat) : FVal :=
  sumF ((x.errs.filter fun e => decide (e.col.toNat = n)).map fun e => FVal.ofInt e.err e.exp)

/-- The 64 tree outputs of a faulty vector (R232). -/
def siteOuts (x : FaultSite) (p : Flight) : List FVal := (siteChk x p).trees.zipIdx.map fun y => (y.1.add (siteErr x y.2)).1

/-- Stage B2 finds the fault (R108): a parity error in what the pass reads, two copies of the bank adder that differ, in any pass (R227), or a comparison of a covered vector that fails while
comparisons are not suspended (R228, R236). [log 26, DEDUCED] -/
def siteFound (x : FaultSite) (p : Flight) (suspended : Bool) : Bool :=
  decide (x.m.toNat ≤ p.op.mm1.toNat) && decide (x.p.toNat < p.nprob) &&
    match x.cause with
    | .checksum => !suspended && !ColChk.agrees { siteChk x p with trees := siteOuts x p, chk := ((siteChk x p).chk.add (siteErr x 64)).1 }
    | .statParity => true
    | .bankParity => true

/-- Comparisons of an engine are suspended (R236). -/
def suspended (s : State) (leng : Nat) : Bool := decide (fget s (pgEng (execKey s leng) 5) 0x54 1 1 = 1)

/-- The cycle in which stage B2 finds a fault of a run of the pass issued in cycle `c`. -/
def siteCyc (x : FaultSite) (p : Flight) (c : Nat) : Nat := c + p.beats * x.m.toNat + (p.beats - 1) + 14

/-- The cause as TYPE 0x0101 records it. -/
def passCauseCode : PassCause → Nat
  | .checksum => 0
  | .statParity => 1
  | .bankParity => 2

/-- What a pass fault leaves on the pages and in the log: the counts, LASTD, the TEVT bit, the pass-fault record, which names the
physical row and column of a stationary parity error (R232). -/
def faultReport (leng : Nat) (f : FaultSite) (p : Flight) (d outcome sev : Nat) (s : State) : State :=
  let x := execKey s leng
  let k := storeKey s leng
  let pa := pgEng x 1
  let s := raise pa 1 (rset pa 0x7C (BitVec.ofNat 32 d) (finc pa 0x78 0 16 1 s))
  let pp := pgEng k 8
  let s := rset pp 0x44 (BitVec.ofNat 32 d) (finc pp 0x40 0 32 1 s)
  let s := match f.cause with
    | .checksum => raise (pgEng x 5) 0 (finc (pgEng x 5) 0x50 0 16 1 s)
    | .statParity => raise pa 3 (finc pa 0x80 0 16 1 s)
    | .bankParity => raise pa 3 (finc pa 0x80 16 16 1 s)
  let cell := if f.cause = .statParity then [f.row.toNat, f.col.toNat] else []
  let s := errEng 0x0101 sev leng p.seg 0x21 ([p.pc, p.idx.toNat, f.m.toNat, f.p.toNat, passCauseCode f.cause, d, outcome] ++ cell) s
  match ownerOf s leng p.seg, p.seg with
  | some j, .rt => frameMod j p.workTick (fun fr => { fr with mismatch := fr.mismatch + 1, tevt := fr.tevt ||| 1 }) s
  | _, _ => s

/-- A stationary parity error in the same physical cell of the executing engine under two tiles within 4,096 ticks requests a spare column
(R233). -/
def statCell (leng : Nat) (p : Flight) (f : FaultSite) (s : State) : State :=
  if f.cause ≠ .statParity then s
  else
    let k := execKey s leng
    let t := s.tick.toNat
    let cells := (eng s k).statCells.filter fun x => decide (t < x.2.2.2 + 4096)
    let again := cells.any fun x =>
      decide (x.1 = f.row.toNat) && decide (x.2.1 = f.col.toNat) && decide (x.2.2.1 ≠ p.ldsAt)
    let s := engMod k (fun e => { e with statCells := (f.row.toNat, f.col.toNat, p.ldsAt, t) :: cells }) s
    whenS again (requestCol leng f.col.toNat) s

/-- The columns below 64 that satisfy a test, lowest first. -/
def colsOf (f : Nat → Bool) : List Nat := (List.range 64).filter f

/-- Columns as a bitmap. -/
def colBits (l : List Nat) : Nat := l.foldl (fun b n => Nat.lor b (2 ^ n)) 0

/-- The tree outputs of the replay at the vector and problem of the first fault (R232): with the errors that no check of the replay finds. -/
def replayOuts (f : FaultFinding) (p : Flight) (susp : Bool) : List FVal :=
  (siteChk f.site p).trees.zipIdx.map fun y =>
    sumF (y.1 :: ((f.replay.filter fun x => decide (x.m = f.site.m) && decide (x.p = f.site.p) && !siteFound x p susp).map
      fun x => siteErr x y.2))

/-- The replay's result is used (R232): the pass's items are REPLAYED, and a checksum mismatch is located by the columns in which the
replay's outputs `outs` differ from the first outputs. -/
def replayUsed (leng : Nat) (f : FaultSite) (outs : List FVal) (p : Flight) (later : List Flight) (d : Nat) (suspect : Bool) (s : State) :
    State :=
  let k := storeKey s leng
  let x := execKey s leng
  let s := faultReport leng f p d (if suspect then 1 else 0) 1 s
  let s := discardRun k p later s
  let s := inheritMarks k mkReplayed p.op.dsth later (markPass k p mkReplayed s)
  let s := shiftEngine k p.cyc d s
  if f.cause = .checksum then
    let o := siteOuts f p
    let cols := colsOf fun n => !(o.getD n .zero).same (outs.getD n .zero)
    if suspect ∨ cols.isEmpty then pathSuspect leng p.seg s
    else if cols.length = 1 then
      let c := cols.headD 0
      errEng 0x0102 1 leng p.seg 0x25 [c, physCol s x c, colBits cols] (requestCol leng (physCol s x c) s)
    else unlocated leng p.seg 1 s
  else s

/-- The die's spare engine can take over (R232, R235). -/
def spareFree (s : State) (leng : Nat) : Bool :=
  let c := leng / 4
  !((List.range 4).any fun i => decide (fget s (pgDie c 1) 0x40 (3 * i) 3 = 4)) &&
    decide (fget s (pgDie c 1) 0x44 4 1 = 0) && decide (fget s (pgDie c 1) 0x48 0 5 = 0) &&
    decide (fget s (pgEng (5 * c + 4) 0) 0x08 0 1 = 1)

/-- R235: in an RT segment the frame must hold the whole shift. -/
def timeLeft (s : State) (leng : Nat) (g : Seg) (d : Nat) : Bool :=
  match g with
  | .bg => true
  | .rt =>
    let b := match ownerOf s leng .rt with
      | some j => (job s j).budget
      | none => 0
    decide (b + (eng s (storeKey s leng)).dShift + d + lagOf s leng ≤ frameCycles s (zoneOf leng))

/-- A second fault `f2`, found at `t2` (R232). Where P is left without a result, later passes that use its half are FAILED too (R234, R245). -/
def secondFault (leng : Nat) (f f2 : FaultSite) (p : Flight) (later : List Flight) (t2 : Nat) (third : Bool) (s : State) : State :=
  let k := storeKey s leng
  let drop (s : State) : State :=
    arrMod k (fun a => { a with flights := a.flights.filter fun x => !decide (x = p) }) s
  let kill (s : State) : State :=
    let s := if later.any fun g => decide (g.op.dsth = p.op.dsth) then discard k p.op.dsth later s
      else arrMod k (fun a => a.halfMod p.op.dsth Half.invalid) s
    inheritMarks k mkFailed p.op.dsth later s
  let dTake := t2 + 94 - p.cyc
  let d2 := t2 + 1 - p.cyc
  let elem (x : FaultSite) : Nat := 64 * (x.p.toNat * p.region + p.op.boff.toNat + x.m.toNat) + x.col.toNat % 64
  if f2.cause = .bankParity ∧ f.cause = .bankParity ∧ elem f2 = elem f then
    let key := elem f
    let poison (e : Elem) : Elem := { e with mark := e.mark ||| mkPoison }
    let s := faultReport leng f p d2 2 2 s
    let old := tabGet (fun _ => ({} : Elem)) ((eng s k).arr.half p.op.dsth).elems key
    let s := arrMod k (fun a => a.halfMod (!p.op.dsth) (fun h => { h with elems := tabMod (fun _ => {}) h.elems key poison })) s
    let s := kill s
    let s := arrMod k (fun a => a.halfMod p.op.dsth (fun h =>
      { h with valid := true, elems := tabSet (fun _ => {}) h.elems key { poison old with valid := true } })) s
    let s := redoFrom k p.op.dsth (redoFrom k (!p.op.dsth) (drop s))
    let s := errata { ty := 0x0201, sev := 2, level := 5, data := true, zq := hubOfEng leng, die := leng / 4, peng := k % 5, block := 0x21,
                      leng := leng, detail := [2, key] } s
    let per := (tagQuire (passTag (fmtD p.op.fmt) p.op.fast)).perLine
    consume leng p.seg p.pc (2, some (elemShelf s leng (!p.op.dsth) per key)) mkPoison (shiftEngine k (p.cyc + 1) d2 s)
  else if spareFree s leng && timeLeft s leng p.seg dTake then
    let s := faultReport leng f p dTake 2 (if third then 2 else 1) s
    let s := errEng 0x0103 1 leng p.seg 0x21 [p.pc, t2, dTake, 4] s
    let s := finc (pgEng k 8) 0x48 0 32 1 (fset (pgDie (leng / 4) 1) 0x48 0 5 16 s)
    let s := engMod k (fun e => { e with takeover := true }) s
    let s := if third then kill s else inheritMarks k mkReplayed p.op.dsth later (markPass k p mkReplayed (discardRun k p later s))
    rereadTile k (shiftEngine k p.cyc dTake (reloadTile k (t2 + 33) p s))
  else
    let s := faultReport leng f p d2 2 2 s
    let s := unlocated leng p.seg 2 (kill s)
    shiftEngine k (p.cyc + 1) d2 (drop s)

/-- An error that no check finds stays in the elements of its columns (R255): exactly in a quire, as a free value in a rounded sum. [log 26, DEDUCED] -/
def silentErr (k : Nat) (p : Flight) (f : FaultSite) (s : State) : State :=
  let v := f.p.toNat * p.region + p.op.boff.toNat + f.m.toNat
  let wrong (n : Nat) : BankVal → BankVal
    | .quire q => .quire (q.add ((siteErr f n).toQ (tagQuire (passTag (fmtD p.op.fmt) p.op.fast))))
    | .run _ => .run (BitVec.ofNat 16 (Config.openWord (s.free + n)).toNat)
    | .acc _ => .acc (decodeIeee .fp32 ((Config.openWord (s.free + n)).toNat % 2 ^ 32)).1
  let cols := colsOf fun n => decide (siteErr f n ≠ .zero)
  let s' := arrMod k (fun a => a.halfMod p.op.dsth (fun h =>
    { h with elems := h.elems.map fun e =>
        if e.1 / 64 = v ∧ cols.contains (e.1 % 64) then (e.1, { e.2 with val := wrong (e.1 % 64) e.2.val }) else e })) s
  redoFrom k p.op.dsth { s' with free := s'.free + 64 }

/-- The first of the faults of a replay that ends it (R232): in cycle order, the one that is not the first mismatch come again with the
same outputs. -/
def endsReplay (f : FaultSite) (p : Flight) (susp : Bool) (l : List FaultSite) : Option FaultSite :=
  let again (x : FaultSite) : Bool :=
    decide (f.cause = .checksum) && decide (x.m = f.m) && decide (x.p = f.p) &&
      ((siteOuts x p).zip (siteOuts f p)).all fun y => y.1.same y.2
  (l.filter fun x => siteFound x p susp && !again x).foldl (fun b x =>
    match b with
    | some y => if x.m.toNat < y.m.toNat then some x else some y
    | none => some x) none

/-- PASS_FAULT (R108, R110, R232-R237): a hardware error strikes a pass in flight; if stage B2 finds it, the pass is abandoned and
replayed, and an LDS that the replay makes or reissues takes the requested spares (R110). An error that no check finds, and one that the
replay repeats, reaches the outputs (R232, R255). [log 24, DEDUCED; 25, DEDUCED; 26, DEDUCED; 27, DEDUCED] -/
def doPassFault (f : FaultFinding) (s : State) : State :=
  let leng := f.leng.toNat
  let k := storeKey s leng
  let s := whenS (decide (f.pass < (eng s k).arr.flights.length)) (reformAll k) s
  match ((eng s k).arr.flights)[f.pass]? with
  | none => s
  | some p =>
    let susp := suspended s leng
    if !siteFound f.site p susp then silentErr k p f.site s
    else
      let later := (eng s k).arr.flights.drop (f.pass + 1)
      let t := siteCyc f.site p p.cyc
      let next := (eng s k).arr.lds.filter fun e => decide (p.cyc < e)
      let reload := next.any fun e => decide (e + 1 ≤ t)
      let d := (if reload then t + 62 else t + 1) - p.cyc
      let s := statCell leng p f.site s
      let s := whenS reload (ldsSubst (execKey s leng)) s
      let s := whenS reload (reloadTile k (t + 1) p) s
      let p := { p with tileAt := if reload then t + 1 else p.tileAt, redo := p.redo || reload }
      let s := match endsReplay f.site p susp f.replay with
        | some x => secondFault leng f.site x p later (siteCyc x p (p.cyc + d)) f.third (statCell leng p x s)
        | none =>
          let suspect := decide (f.site.cause = .checksum) && f.replay.any fun x => siteFound x p susp
          replayUsed leng f.site (replayOuts f p susp) p later d suspect (foldS f.replay (silentErr k p) s)
      whenS next.isSome (fun s => rereadTile k (ldsSubst (execKey s leng) s)) s

/-! ### Retraction (R238-R241) -/

/-- The unit an on-chip or Stacks shelfmark names in this module (Table 13-4): a logical engine, the verdict buffer, or
neither. -/
def targetOf (sh : BitVec 48) : Option (Option (BitVec 6)) :=
  if !sh.getLsbD 42 then none
  else
    let sel := bitsOf sh.toNat 32 10
    if sel < 0x80 then some (some (BitVec.ofNat 6 sel)) else if sel = 0x100 then some none else none

/-- The module number of a shelfmark. -/
def shelfMod (sh : BitVec 48) : Nat := bitsOf sh.toNat 43 5

/-- Bytes 0-27 of a RETRACT (Table 9-5) as a number. -/
def retractWord (m : RetractMsg) : Nat :=
  m.job.toNat + b2n m.bg * 2 ^ 2 + b2n m.all * 2 ^ 3 + m.omod.toNat * 2 ^ 8 + m.oleng.toNat * 2 ^ 16 + m.col.toNat * 2 ^ 24 +
    m.workTick.toNat * 2 ^ 32 + m.tid.toNat * 2 ^ 96 + m.bix.toNat * 2 ^ 112 + m.passIdx.toNat * 2 ^ 128 +
    m.target.toNat * 2 ^ 160 + m.count.toNat * 2 ^ 208

/-- The 32 bytes of a RETRACT (Table 9-5). -/
def retractBytes (m : RetractMsg) : List Byte := sysBytes (retractWord m)

/-- One RETRACT leaves an engine: counted, logged and sent (R240, R241, R254). -/
def retractOut (leng : Nat) (g : Seg) (md : Nat) (t : Option (Option (BitVec 6))) (m : RetractMsg) (s : State) : State :=
  let s := finc (pgEng (execKey s leng) 5) 0x64 0 16 1 s
  errEng 0x0107 2 leng g 0x25 [retractWord m] (sendSys md 1 (retractBytes m) (.retractTo md t (retractBytes m)) s)

/-- A RETRACT follows a send-log entry, unless the target has had one in this work tick (R239, R240). -/
def retractSend (leng : Nat) (g : Seg) (m : RetractMsg) (e : SendE) (s : State) : State :=
  let k := storeKey s leng
  if ((eng s k).seg g).retSent.contains e.target then s
  else
    let s := segMod k g (fun x => { x with retSent := x.retSent ++ [e.target] }) s
    retractOut leng g (shelfMod e.target) (targetOf e.target) { m with all := false, target := e.target, count := BitVec.ofNat 16 e.len } s

/-- RETRACTs follow the send-log entries from cycle `since` on; where the log overflowed one with ALL goes to every engine of the job
and, once each, to every other module of its set (R239, R240, R356). [log 94, DEDUCED] -/
def sendRetracts (leng : Nat) (g : Seg) (m : RetractMsg) (since : Nat) (s : State) : State :=
  let k := storeKey s leng
  let sg := (eng s k).seg g
  if sg.sendOvf then
    let mods := (List.range 32).filter fun x =>
      decide (x ≠ modNum s) && decide (fget s (pgAbf 0) (0x110 + 4 * m.job.toNat) x 1 = 1)
    let own := (job s m.job.toNat).engs.map fun l =>
      (modNum s, some (some (BitVec.ofNat 6 l)), BitVec.ofNat 48 (modNum s * 2 ^ 43 + 2 ^ 42 + l * 2 ^ 32))
    let far := mods.map fun x => (x, (none : Option (Option (BitVec 6))), BitVec.ofNat 48 (x * 2 ^ 43))
    foldS (own ++ far) (fun x s =>
      if ((eng s k).seg g).retSent.contains x.2.2 then s
      else
        retractOut leng g x.1 x.2.1 { m with all := true, target := x.2.2, count := 0 }
          (segMod k g (fun y => { y with retSent := y.retSent ++ [x.2.2] }) s)) s
  else foldS (sg.sendLog.filter fun e => decide (since ≤ e.cyc)) (retractSend leng g m) s

/-- Everything the segment wrote from cycle `since` on carries RETRACTED, and so does what it will write in the work tick; what it
sends from now on is followed by the same withdrawal (R239, R240). -/
def retractSeg (k : Nat) (g : Seg) (m : RetractMsg) (since : Nat) (all : Bool) (s : State) : State :=
  segMod k g (fun x => { x with retracted := true, retAll := x.retAll || all, retMsg := some (x.retMsg.getD m) })
    (markSeg k g since mkRetracted s)

/-- The columns in which a row check disagrees (R229, R231): the tree sums G_n with the errors of the run against H_n. A column whose
sums are not numbers is not compared. [log 93, DEDUCED] -/
def rowDisagree (r : RowSums) (errs : List SumErr) : List Nat :=
  colsOf fun n =>
    let h := r.h.getD n .zero
    let g := ((r.g.getD n .zero).add (sumF ((errs.filter fun e => decide (e.col.toNat = n)).map fun e => FVal.ofInt e.err e.exp))).1
    h.finite && g.finite && !within g h (r.bound.getD n .zero)

/-- ROW_CHECK_COMPLETE (R229, R239): the oldest row check due ends; `errs` are the errors that the hardware made in the pass's column
sums or its broadcast elements. -/
def doRowCheckComplete (leng : Nat) (errs : List SumErr) (s : State) : State :=
  let k := storeKey s leng
  match (eng s k).rowChks with
  | [] => s
  | r :: rest =>
    let s := engMod k (fun e => { e with rowChks := rest }) s
    if !r.selected then s
    else
      let x := execKey s leng
      let q := pgEng x 5
      let s := finc q 0x48 0 32 1 s
      let cols := rowDisagree r.rows errs
      if cols.isEmpty then s
      else
        let lo := cols.headD 0
        let s := rset q 0x58 (BitVec.ofNat 32 (r.pc % 2 ^ 16 + lo * 2 ^ 16 + 2 ^ 31)) (rset64 q 0x5C (BitVec.ofNat 64 (colBits cols)) s)
        let s := raise q 1 (finc q 0x50 16 16 1 s)
        let s := errEng 0x0106 2 leng r.seg 0x25 [r.pc, r.idx.toNat, colBits cols] s
        let s := match ownerOf s leng r.seg, r.seg with
          | some j, .rt => frameMod j r.workTick (fun f => { f with mismatch := f.mismatch + 1 }) s
          | _, _ => s
        let commit := r.due - 80
        let sg := (eng s k).seg r.seg
        let first := sg.drained.find? fun d => decide (d.1 = r.half)
        let m : RetractMsg :=
          { job := BitVec.ofNat 2 ((ownerOf s leng r.seg).getD 0), bg := decide (r.seg = .bg), all := false,
            omod := BitVec.ofNat 5 (modNum s), oleng := BitVec.ofNat 6 leng, col := BitVec.ofNat 6 lo, workTick := r.workTick,
            tid := (first.map (·.2.1)).getD 0xFFF, bix := (first.map (·.2.2)).getD 0, passIdx := r.idx, target := 0, count := 0 }
        let s := if workTick s leng r.seg = r.workTick then
            sendRetracts leng r.seg m commit (retractSeg k r.seg m commit false s)
          else s
        if cols.length = 1 then requestCol leng (physCol s x lo) s else unlocated leng r.seg 1 s

/-- The item numbers a RETRACT names in the verdict buffer. -/
def msgItems (m : RetractMsg) : List Nat :=
  (List.range m.count.toNat).map fun i => bitsOf m.target.toNat 6 6 + i

/-- A RETRACT reaches the verdict buffer on H0 (R240): the item lines are marked; a late one is reported. -/
def retractVerdict (m : RetractMsg) (s : State) : State :=
  let j := m.job.toNat
  let its := msgItems m
  if (job s j).frames.any fun f => decide (f.frame = m.workTick) then
    frameMod j m.workTick (fun f =>
      { f with items := its.foldl (fun t i =>
          tabMod (fun _ => ({ line := 0, mark := mkFailed } : VLine)) t i (fun v => { v with mark := v.mark ||| mkRetracted })) f.items }) s
  else if s.ready.any fun r => decide (r.slot = j) && decide (r.frame = m.workTick) then
    { s with ready := s.ready.map fun r =>
        if r.slot = j ∧ r.frame = m.workTick then
          { r with lines := r.lines.zipIdx.map fun (v, i) => if its.contains i then { v with mark := v.mark ||| mkRetracted } else v }
        else r }
  else
    let map := its.foldl (fun b i => Nat.lor b (2 ^ i)) 0
    errata { ty := 0x0108, sev := 2, block := 1, job := j, wt := m.workTick, detail := [m.workTick.toNat, map] }
      (sendEvent 3 [j, m.workTick.toNat, map] s)

/-- A RETRACT for an earlier work tick: its outputs are marked and its send log is followed, once (R240). [log 94, DEDUCED] -/
def retractPast (l : Nat) (g : Seg) (m : RetractMsg) (p : PastWork) (s : State) : State :=
  let k := storeKey s l
  let x := (eng s k).seg g
  let s := segMod k g (fun x => { x with sendLog := p.sendLog, sendOvf := p.sendOvf, retSent := p.retSent }) (markPast k g p mkRetracted s)
  let s := sendRetracts l g m 0 s
  segMod k g (fun y =>
    let put (q : PastWork) : PastWork := if q.wt = p.wt ∧ q.since = p.since then { q with retAll := true, retSent := y.retSent } else q
    { y with sendLog := x.sendLog, sendOvf := x.sendOvf, retSent := x.retSent, past := y.past.map put, older := y.older.map put }) s

/-- RETRACT (R240): an engine marks its outputs of the work tick, the present one or an earlier one, and forwards the withdrawal once. [log 94, DEDUCED] -/
def doRetract (leng : Option (BitVec 6)) (m : RetractMsg) (s : State) : State :=
  match leng with
  | none => retractVerdict m s
  | some l6 =>
    let l := l6.toNat
    let g : Seg := if m.bg then .bg else .rt
    let k := storeKey s l
    let sg := (eng s k).seg g
    let got (s : State) : State :=
      let q := pgEng (execKey s l) 5
      errEng 0x0107 2 l g 0x25 [retractWord m] (raise q 3 (finc q 0x64 16 16 1 s))
    if ownerOf s l g ≠ some m.job.toNat then s
    else if workTick s l g = m.workTick then
      if sg.retAll then s else sendRetracts l g m 0 (retractSeg k g m sg.since true (got s))
    else match (sg.past.toList ++ sg.older).find? fun p => decide (p.wt = m.workTick) with
      | some p => if p.retAll = false then retractPast l g m p (got s) else s
      | none => s

/-- PASS_FAULT. -/
def execPassFault (f : FaultFinding) (s : State) : Res := .next (doPassFault f s)
/-- ROW_CHECK_COMPLETE. -/
def execRowCheckComplete (leng : BitVec 6) (errs : List SumErr) (s : State) : Res :=
  .next (doRowCheckComplete leng.toNat errs s)
/-- RETRACT. -/
def execRetract (leng : Option (BitVec 6)) (m : RetractMsg) (s : State) : Res := .next (doRetract leng m s)

end Sys2Proof.Machine
end

