-- ==== Sys2Proof/Machine/Moves.lean ====
section
/-! DEFINITION. Movers and chain transfers (R76-R79, R99, R192, R193, R212, R238, R326-R332, R351-R354): MOV, CSEND,
CRECV, QADD, the arrivals and deadlines of their transfers, and hub mover entries. -/

namespace Sys2Proof.Machine

/-! ### Fabric time and routes (R345, R347) -/

/-- REFCLK time of a cycle of a logical engine's zone clock in the present frame (R19, R200). -/
def refOf (s : State) (leng c : Nat) : Nat :=
  let z := zone s (zoneOf leng)
  s.refTick + z.lost + (c - z.tickAbs) / multOf (stepOf s (zoneOf leng))

/-- Fabric time at a REFCLK time: 16 ns intervals, five for every 8 REFCLK cycles (R347). [log 18, DESIGN CHOICE; 44, DEDUCED] -/
def fabricAt (s : State) (t : Nat) : Nat := 5 * (t - s.ftimeAt) / 8

/-- The number of some bit or byte fields, field `i` at bit `at0 + w * i`. -/
def packed (at0 w : Nat) (l : List Nat) : Nat := l.zipIdx.foldl (fun a (v, i) => a + v * 2 ^ (at0 + w * i)) 0

/-- The header of a packet (Table 13-5). -/
def writeHeader (k : Packet) : Line :=
  let req := decide (k.op = 2)
  BitVec.ofNat 512
    (k.op.toNat + k.job.toNat * 2 ^ 8 + b2n k.bg * 2 ^ 10 + b2n k.last * 2 ^ 11 + b2n k.rtry * 2 ^ 12 + k.smod.toNat * 2 ^ 16 +
      k.sleng.toNat * 2 ^ 24 + k.ch.toNat * 2 ^ 32 + k.qfmt.toNat * 2 ^ 36 + k.nlm1.toNat * 2 ^ 40 + k.pidx.toNat * 2 ^ 48 +
      k.target.toNat * 2 ^ 64 + k.workTick.toNat * 2 ^ 128 + k.deadline.toNat * 2 ^ 192 + k.poison.toNat * 2 ^ 224 +
      (if req then k.retShelf.toNat * 2 ^ 256 else packed 256 8 ((k.marks.take 24).map (·.toNat))) + k.terms.toNat * 2 ^ 448 +
      packed 480 2 ((k.special.take 16).map (·.toNat)))

/-- The units of a packet: its header and its lines (R353). -/
def packetUnits (k : Packet) : List Line := writeHeader k :: k.lines

/-- Hops on the hub ring between two quadrants (Table 1-3). -/
def ringHops (a b : Nat) : Nat := bitsOf (Nat.xor a b) 0 1 + bitsOf (Nat.xor a b) 1 1

/-- When what an engine sends in a cycle reaches a hub, in 1/168 ns: 20 ns to its own hub and 16 ns a ring hop (Table 12-2, R348). [log 41, DEDUCED] -/
def reachAt (s : State) (leng c h : Nat) : Nat :=
  let z := zone s (zoneOf leng)
  1680 * (s.refTick + z.lost) + (c - z.tickAbs) * (1680 / multOf (stepOf s (zoneOf leng))) + 168 * (20 + 16 * ringHops (hubOfEng leng) h)

/-- The hub of a fabric port (Table 13-1). -/
def abfHub (p : Nat) : Nat := [0, 1, 1, 2, 2, 3].getD p 3

/-- A packet's place among those that reached the port at the same time: by source module, then by logical engine (R342). -/
def placePacket (p : Packet) : Nat → List Line → List Line
  | 0, l => packetUnits p ++ l
  | _, [] => packetUnits p
  | n + 1, h :: t =>
    if (p.smod.toNat, p.sleng.toNat).1 < bitsOf h.toNat 16 8 ∨
        (p.smod.toNat = bitsOf h.toNat 16 8 ∧ p.sleng.toNat < bitsOf h.toNat 24 8) then packetUnits p ++ h :: t
    else
      let k := if bitsOf h.toNat 0 4 = 2 then 0 else bitsOf h.toNat 40 5 + 1
      h :: (t.take k ++ placePacket p n (t.drop k))

/-- A packet joins its slot's queue at a port: behind what is there, and with a time, among those of the same time in R342's order. -/
def queuePacket (p : Packet) (at' : Option Nat) (x : AbfSt) : AbfSt :=
  let j := p.job.toNat
  let q := tabGet (fun _ => []) x.txQ j
  let u := packetUnits p
  let (t, n) := tabGet (fun _ => (0, 0)) x.tie j
  if at' = some t ∧ n ≠ 0 then
    { x with txQ := tabSet (fun _ => []) x.txQ j (q.take (q.length - n) ++ placePacket p n (q.drop (q.length - n))),
             tie := tabSet (fun _ => (0, 0)) x.tie j (t, n + u.length) }
  else
    { x with txQ := tabSet (fun _ => []) x.txQ j (q ++ u),
             tie := tabSet (fun _ => (0, 0)) x.tie j (at'.elim (0, 0) fun t => (t, u.length)) }

/-- Send a packet toward module `t`: its units wait at the egress port for units of its job slot (R342, R345); it is discarded and
counted where its dimension is lost (R360). `from'` is the engine and cycle that send it, where an engine does. -/
def sendPacketOf (from' : Option (Nat × Nat)) (t : Nat) (p : Packet) (s : State) : State :=
  if t = modNum s then emit (.packet p) s
  else match egress s t with
    | some f => emit (.packet p) (abfMod f (queuePacket p (from'.map fun x => reachAt s x.1 x.2 (abfHub f))) s)
    | none => dropPacket s

/-- Send a packet that no engine of this module has issued. -/
def sendPacket (t : Nat) (p : Packet) (s : State) : State := sendPacketOf none t p s

/-- Cut a list into pieces of `n`. -/
def chunks {α : Type} (n : Nat) : Nat → List α → List (List α)
  | 0, _ => []
  | _, [] => []
  | fuel + 1, l => l.take n :: chunks n fuel (l.drop n)

/-! ### Send log (R238) -/

/-- Log a send of the segment: up to 256 entries, then the overflow bit. In a work tick already withdrawn a RETRACT follows at once
(R239, R240). -/
def logSend (c : Ctx) (target : BitVec 48) (len : Nat) (s : State) : State :=
  let e : SendE := { cyc := c.cyc, target := target, len := len }
  let full := decide (256 ≤ ((eng s c.k).seg c.g).sendLog.length)
  let s := if full then
      fset (pgEng (execKey s c.leng) 5) 0x54 (if c.g = .bg then 17 else 16) 1 1 (segMod c.k c.g (fun x => { x with sendOvf := true }) s)
    else segMod c.k c.g (fun x => { x with sendLog := x.sendLog ++ [e] }) s
  match ((eng s c.k).seg c.g).retMsg with
  | none => s
  | some m => if full then sendRetracts c.leng c.g m c.cyc s else retractSend c.leng c.g m e s

/-! ### Mover transfers -/

/-- Lines read from or written into a hub's Stacks in the frame (Table 12-3, RDLINES, WRLINES). [log 65, DEDUCED] -/
def hubCount (off rd wr : Nat) (s : State) : State :=
  hubMod (off / 2 ^ 38) (fun h => { h with rd := h.rd + rd, wr := h.wr + wr }) s

/-- A transfer still to land covers a line; its data for that line. -/
def Xfer.lineAt (x : Xfer) (stride base a : Nat) : Option (Line × Mark) :=
  if base ≤ a ∧ (a - base) % stride = 0 ∧ x.landed ≤ (a - base) / stride then x.lines[(a - base) / stride]? else none

/-- A Stacks line as a job reads it: its own earlier writes come first (R327). [log 41, DEDUCED] -/
def stkReadJob (s : State) (slot off : Nat) : Line × Mark :=
  match (s.xfers.reverse.filterMap fun x =>
      if x.kind = 1 ∧ x.slot = slot then
        (x.lineAt 64 x.target off).map fun v => (v.1, if x.onTime then v.2 else v.2 ||| mkFailed)
      else none) with
  | v :: _ => v
  | [] => stkRead s off

/-- Element (r, c) of a 64 by 64 tile becomes element (c, r) (R331). -/
def transposeTile (f : Fmt) (ls : List Line) : List Line :=
  let at' (i : Nat) : Nat := lineElem f (ls.getD (i / f.perLine) 0) (i % f.perLine)
  (List.range ls.length).map fun a => packLine f ((List.range f.perLine).map fun j =>
    let i := a * f.perLine + j
    at' (64 * (i % 64) + i / 64))

/-- Transposition of consecutive tiles; a marked line marks every line of its tile. -/
def transposeLines (f : Fmt) (ls : List (Line × Mark)) : List (Line × Mark) :=
  let t := 4096 / f.perLine
  (chunks t ls.length ls).flatMap fun tile =>
    let m := tile.foldl (fun a x => a ||| x.2) 0
    (transposeTile f (tile.map (·.1))).map fun l => (l, m)

/-- A transfer reads a Stacks line, or the tile it goes into, and has none of it landed. -/
def Xfer.reads (x : Xfer) (off : Nat) : Bool :=
  match x.src with
  | some b => decide (b ≤ off) && decide (off < b + 64 * x.lines.length) && decide (x.landed ≤ (off - b) / 64 / x.tileN * x.tileN)
  | none => false

/-- A transfer reads line `v` at an offset instead; a transposed tile is formed again (R331). -/
def Xfer.seeLine (off : Nat) (v : Line × Mark) (x : Xfer) : Xfer :=
  let i := (off - x.src.getD 0) / 64
  if x.tileN = 1 then { x with lines := x.lines.set i v }
  else
    let f : Fmt := if x.tileN = 32 then .int4 else if x.tileN = 64 then .p8 else if x.tileN = 128 then .p16 else .p32
    let raw := transposeLines f x.lines
    { x with lines := transposeLines f (raw.set i (v.1, (raw.getD i (0, 0)).2 ||| v.2)) }

/-- A write lands on a Stacks line that another owner's transfer is still reading: no order exists between owners but that of their
positions (R327), so a free bit says for each whether it reads the new line. [log 41, DEDUCED] -/
def raceReads (slot : Option Nat) (off : Nat) (v : Line × Mark) (s : State) : State :=
  let hit (x : Xfer) : Bool := decide (some x.slot ≠ slot) && x.reads off
  if s.xfers.any hit then
    let (f, s) := takeFree s
    { s with xfers := s.xfers.map fun x => if hit x ∧ (Config.openWord f).getLsbD (x.id % 64) then x.seeLine off v else x }
  else s

/-- A line written into the Stacks by an owner: a job slot, or none for a port or the host. [log 41, DEDUCED] -/
def stkLand (slot : Option Nat) (off : Nat) (v : Line × Mark) (s : State) : State := raceReads slot off v (stkWrite off v.1 v.2 s)

/-- A job's write reaches a hub at time `at'`: its own reads under way whose requests reach the hub later, or at that time from a higher
engine or as a hub mover's, read what it writes (R327). [log 41, DEDUCED] -/
def ownReads (slot leng at' off : Nat) (ls : List (Line × Mark)) (s : State) : State :=
  foldS ls.zipIdx (fun y s =>
    let o := off + 64 * y.2
    { s with xfers := s.xfers.map fun x =>
        if x.slot = slot ∧ x.kind = 0 ∧ x.reads o ∧ (at' < x.hubAt ∨ (at' = x.hubAt ∧ (x.hub ∨ leng < x.leng))) then x.seeLine o y.1
        else x }) s

/-- Put a transfer in flight. -/
def addXfer (x : Xfer) (s : State) : State :=
  { s with xfers := s.xfers ++ [{ x with id := s.nextXfer }], nextXfer := s.nextXfer + 1 }

/-- Change a transfer. -/
def xferMod (id : Nat) (f : Xfer → Xfer) (s : State) : State :=
  { s with xfers := s.xfers.map fun x => if x.id = id then f x else x }

/-- Remove a transfer. -/
def xferDrop (id : Nat) (s : State) : State := { s with xfers := s.xfers.filter fun x => decide (x.id ≠ id) }

/-- Where a shelfmark of this module leads (R351, Table 13-4). -/
inductive Place where
  | stacks (off : Nat)
  | carrel (leng line : Nat)
  | bank (leng off : Nat)
  | verdict (slot item : Nat)
  | nowhere
  deriving DecidableEq, Repr

/-- Decoding the unit and offset of a shelfmark (R314, R351). -/
def placeOf (sh : Nat) : Place :=
  if bitsOf sh 42 1 = 0 then
    if populated (bitsOf sh 0 42) then .stacks (bitsOf sh 0 42) else .nowhere
  else
    let sel := bitsOf sh 32 10
    let off := bitsOf sh 0 32
    if sel < 0x40 then (if off % 64 = 0 ∧ off / 64 < 98304 then .carrel sel (off / 64) else .nowhere)
    else if sel < 0x80 then .bank (sel - 0x40) off
    else if sel = 0x100 then (if off / 2 ^ 14 = 0 ∧ off % 64 = 0 ∧ bitsOf off 6 6 < 62 then .verdict (bitsOf off 12 2) (bitsOf off 6 6) else .nowhere)
    else .nowhere

/-- A cycle of one engine's zone clock as a cycle of another's. -/
def toClock (s : State) (src dst c : Nat) : Nat :=
  c - (zone s (zoneOf src)).tickAbs + (zone s (zoneOf dst)).tickAbs

/-- The lines a MOV with DIR = 0 brings from this module; none where nothing answers. [log 41, DEDUCED] -/
def moveSource (s : State) (slot n : Nat) : Place → List (Line × Mark)
  | .stacks off => (List.range n).map fun i => stkReadJob s slot (off + 64 * i)
  | .carrel l line =>
    if absent s l then [] else (List.range n).map fun i => cRead s (storeKey s l) (line + i)
  | _ => []

/-- A MOV reads (DIR = 0). [log 41, DEDUCED] -/
def moveIn (c : Ctx) (o : MovOp) (slot localL : Nat) (sh due : Nat) (ok : Bool) (s : State) : State :=
  let n := o.len.toNat
  let base : Xfer := { id := 0, kind := 0, slot := slot, bg := decide (c.g = .bg), eng := c.k, leng := c.leng, pc := c.pc,
                       target := localL, lines := [], n := n, landed := 0, due := due, tag := o.tag.toNat, ten := o.ten,
                       hub := false, wt := c.wt }
  let m := bitsOf sh 43 5
  if !ok then addXfer { base with kind := 3 } s
  else if m = modNum s then
    let ls := moveSource s slot n (placeOf sh)
    let (s, src) := match placeOf sh with
      | .stacks off => (hubCount off n 0 s, some off)
      | _ => (s, none)
    addXfer { base with lines := if o.xpose then transposeLines (fmtD o.xfmt) ls else ls, src := src,
                        hubAt := (src.map fun off => reachAt s c.leng c.cyc (off / 2 ^ 38)).getD 0,
                        tileN := if o.xpose then 4096 / (fmtD o.xfmt).perLine else 1 } s
  else
    let s := addXfer { base with remote := true, xp := if o.xpose then some o.xfmt else none } s
    let dl := fabricAt s (refOf s c.leng due)
    let ret := modNum s * 2 ^ 43 + 2 ^ 42 + c.leng * 2 ^ 32 + 64 * localL
    let parts := chunks 24 n (List.range n)
    foldS parts.zipIdx (fun (x : List Nat × Nat) => sendPacketOf (some (c.leng, c.cyc)) m
      { op := 2, job := BitVec.ofNat 2 slot, bg := decide (c.g = .bg), last := decide (x.2 + 1 = parts.length), rtry := false,
        smod := BitVec.ofNat 5 (modNum s), sleng := BitVec.ofNat 6 c.leng, ch := 0, qfmt := 0,
        nlm1 := BitVec.ofNat 5 (x.1.length - 1), pidx := BitVec.ofNat 16 x.2,
        target := BitVec.ofNat 48 (sh + 64 * 24 * x.2), workTick := c.wt, deadline := BitVec.ofNat 32 dl, poison := 0,
        marks := [], retShelf := BitVec.ofNat 48 (ret + 64 * 24 * x.2), terms := 0, special := [], lines := [] }) s

/-- The packets of lines sent to another module (R353, R354). -/
def linePackets (s : State) (c : Ctx) (slot sh dl : Nat) (ls : List (Line × Mark)) : List Packet :=
  let parts := chunks 24 ls.length ls
  parts.zipIdx.map fun (part, i) =>
    { op := 1, job := BitVec.ofNat 2 slot, bg := decide (c.g = .bg), last := decide (i + 1 = parts.length), rtry := false,
      smod := BitVec.ofNat 5 (modNum s), sleng := BitVec.ofNat 6 c.leng, ch := 0, qfmt := 0,
      nlm1 := BitVec.ofNat 5 (part.length - 1), pidx := BitVec.ofNat 16 i,
      target := BitVec.ofNat 48 (sh + 64 * 24 * i), workTick := c.wt, deadline := BitVec.ofNat 32 dl,
      poison := BitVec.ofNat 24 ((part.map fun x => b2n (x.2.getLsbD 5)).zipIdx.foldl (fun a (b, j) => a + b * 2 ^ j) 0),
      marks := part.map fun x => x.2 &&& ~~~mkPoison, retShelf := 0, terms := 0, special := [], lines := part.map (·.1) }

/-- The array's feeders or an LDS's row writes hold read ports 0 and 1 in cycle `t` (R88). -/
def arrayReads (e : Eng) (t : Nat) : Bool :=
  (e.arr.flights.any fun f => (decide (f.cyc < t) && decide (t ≤ f.cyc + f.beats * (f.op.mm1.toNat + 1))) ||
    (decide (f.tileAt < t) && decide (t ≤ f.tileAt + 64))) ||
    (match e.arr.lds with
      | some c => decide (c < t) && decide (t ≤ c + 64)
      | none => false)

/-- A read port is claimed by no unit in cycle `t`. -/
def readFree (e : Eng) (t : Nat) : Bool :=
  [Port.r0, .r1, .r2, .r3].any fun p => !(e.claims.any fun c => decide (c.port = p) && c.has t) &&
    !(decide (p = .r0 ∨ p = .r1) && arrayReads e t)

/-- The first cycle from `t` on that a test allows, within `fuel`. -/
def firstFree (ok : Nat → Bool) : Nat → Nat → Nat
  | 0, t => t
  | fuel + 1, t => if ok t then t else firstFree ok fuel (t + 1)

/-- The cycles in which a MOV of `n` lines reads them: one line a cycle through a read port that no other unit claims (R329). [log 41, DEDUCED] -/
def readCycles (e : Eng) : Nat → Nat → List Nat
  | 0, _ => []
  | n + 1, t => let x := firstFree (readFree e) 4096 t; x :: readCycles e n (x + 1)

/-- A MOV writes (DIR = 1). -/
def moveOut (c : Ctx) (o : MovOp) (slot localL : Nat) (sh due : Nat) (ok : Bool) (s : State) : State :=
  let n := o.len.toNat
  let base : Xfer := { id := 0, kind := 1, slot := slot, bg := decide (c.g = .bg), eng := c.k, leng := c.leng, pc := c.pc,
                       target := 0, lines := [], n := n, landed := 0, due := due, tag := 0, ten := false, hub := false,
                       wt := c.wt }
  let m := bitsOf sh 43 5
  let ls := (readCycles (eng s c.k) n (c.cyc + 1)).zipIdx.map fun (t, i) =>
    let x := cReadAt s c.k (localL + i) t; (x.1, x.2 ||| segMark s c.k c.g)
  let ls := if o.xpose then transposeLines (fmtD o.xfmt) ls else ls
  let ls := if ok then ls else []
  if m = modNum s then
    match placeOf sh with
    | .stacks off => whenS ok (fun s =>
        ownReads slot c.leng (reachAt s c.leng c.cyc (off / 2 ^ 38)) off ls (addXfer { base with kind := 1, target := off, lines := ls } s)) s
    | .carrel l line =>
      whenS (!absent s l) (addXfer { base with kind := 0, eng := storeKey s l, target := line, lines := ls,
                                               due := toClock s c.leng l due }) s
    | .verdict j i => whenS (decide (j = slot) && !(job s j).bg) (addXfer { base with kind := 2, target := i, lines := ls, local' := some localL }) s
    | _ => s
  else whenS ok (foldS (linePackets s c slot sh (fabricAt s (refOf s c.leng due)) ls) (sendPacketOf (some (c.leng, c.cyc)) m)) s

/-- MOV (R192): the transfer starts; DIR = 1 is logged (R238). A faulting MOV sends nothing, and its local targets are
FAILED (R175). [log 41, DEDUCED] -/
def doMov (h : IssueHdr) (o : MovOp) (s : State) : State :=
  issued .move 0 h s fun c =>
    let s := c.s
    let n := o.len.toNat
    let ln := advance o.adv 0 c.loops o.localLine.toNat
    let foot := inFoot s c.leng c.g ln n
    let sh := ((advance o.adv 1 c.loops o.remote.toNat) * 64 % 2 ^ 48).toNat
    let due := c.cyc + o.dl.toNat
    let bad := if c.dup then 1 else if !foot then 8 else 0
    let s := whenS (decide (bad ≠ 0)) (c.fault bad) s
    let ok := decide (bad = 0)
    match ownerOf s c.leng c.g with
    | none => s
    | some j =>
      if o.dir then
        let s := whenS ok (logSend c (BitVec.ofNat 48 sh) n) s
        moveOut c o j ln.toNat sh due ok s
      else
        let s := whenS (!ok && o.ten) (tagClear c.k o.tag.toNat) s
        if ok then moveIn c o j ln.toNat sh due true s
        else moveIn c o j ln.toNat sh due false (markFoot c ln n mkFailed s)

/-- MOVE_LATE of a transfer: the actual arrival is not known at its declared cycle, so that field is a free value. [log 17, DESIGN CHOICE] -/
def xferLate (x : Xfer) (s : State) : State :=
  let (f, s) := takeFree s
  let l := if x.kind = 0 then (lengOf s x.eng).getD x.leng else x.leng
  let s := whenS x.hub (fun s => rset (pgMover x.hubNo x.slot) 0x4C (BitVec.ofNat 32 x.pc) (finc (pgMover x.hubNo x.slot) 0x40 0 32 1 s)) s
  moveLate l (if x.bg then .bg else .rt) x.pc x.due (Config.openWord f).toNat s

/-- The declared cycle of a transfer passed with lines still to land (R330): into a Carrel, every target line is FAILED and
what arrives later is discarded; into the Stacks, later lines are still written, FAILED. [log 17, DESIGN CHOICE] -/
def expire (x : Xfer) (s : State) : State :=
  if x.n ≤ x.landed ∨ !x.onTime then s
  else
    let s := xferLate x s
    match x.kind with
    | 0 => xferDrop x.id (whenS x.ten (tagClear x.eng x.tag) (cMarks x.eng x.target x.n mkFailed s))
    | 1 => xferMod x.id (fun y => { y with onTime := false }) s
    | 3 => xferDrop x.id (whenS x.ten (tagClear x.eng x.tag) s)
    | _ =>
      let its := (List.range (x.n - x.landed)).map (x.target + x.landed + ·)
      xferDrop x.id (frameMod x.slot x.wt (fun f =>
        { f with items := its.foldl (fun t i => tabSet (fun _ => ({ line := 0, mark := mkFailed } : VLine)) t i
                                       { line := 0, mark := mkFailed }) f.items }) s)

/-- The tag entry of a transfer is set in the cycle after its last line lands; where a hold window turned a line away, it is invalid
(R118, R175, R192). -/
def landTag (x : Xfer) (l : Line) (last cyc : Nat) (s : State) : State :=
  let r := recOfLine l
  tagSetAt x.eng x.tag (cyc + 1) { valid := !x.lost, tid := r.tid, seq := r.seq, line := BitVec.ofNat 17 last } s

/-- A verdict line lands in its frame's item (R212); delivering a poisoned line consumes it (R244). -/
def landItem (slot : Nat) (frame : BitVec 64) (item leng pc : Nat) (from' : Option Nat) (v : Line × Mark) (s : State) : State :=
  let s := consume leng .rt pc (0, from') v.2 s
  frameMod slot frame (fun f =>
    { f with items := tabMod (fun _ => ({ line := 0, mark := mkFailed } : VLine)) f.items item fun o =>
        { line := v.1, mark := v.2 ||| (o.mark &&& mkRetracted) } }) s

/-- The next line of a transfer lands; the mover of a hub mover entry counts poisoned lines and lines that a hold window turns away
(R337, Table 15-15). [log 62, DEDUCED] -/
def landNext (x : Xfer) (v : Line × Mark) (cyc : Nat) (s : State) : State :=
  let s := whenS (x.hub && v.2.getLsbD 5) (finc (pgMover x.hubNo x.slot) 0x48 0 32 1) s
  let i := x.landed
  let held := decide (x.kind = 0) && (heldAt (eng s x.eng) (x.target + i) cyc).isSome
  let s := whenS (x.hub && held) (finc (pgMover x.hubNo x.slot) 0x44 0 32 1) s
  let x := { x with lost := x.lost || held }
  let g : Seg := if x.bg then .bg else .rt
  let src := storeKey s x.leng
  let m := if x.hub then v.2 else v.2 ||| segMark s src g
  let s := match x.kind with
    | 0 =>
      let s := landLine x.eng (x.target + i) v.1 m cyc s
      whenS (!x.hub && decide (x.eng = src)) (segMod x.eng g (fun y => { y with wrote := y.wrote ++ [(x.target + i, cyc)] })) s
    | 1 => hubCount x.target 0 1 (stkLand (some x.slot) (x.target + 64 * i) (v.1, if x.onTime then m else m ||| mkFailed) s)
    | _ => landItem x.slot x.wt (x.target + i) x.leng x.pc (x.local'.map fun l => lineShelf s x.leng (l + i)) (v.1, m) s
  if i + 1 = x.n then
    xferDrop x.id (whenS (x.ten && decide (x.kind = 0)) (landTag x v.1 (x.target + i) cyc) s)
  else xferMod x.id (fun y => { y with landed := i + 1, lost := x.lost }) s

/-- The transfer is bound for an engine whose clock is stopped: its lines wait in the link until the restart, and its declared cycle
has not come (R19, R20). -/
def Xfer.held (x : Xfer) (s : State) : Bool := decide (x.kind = 0) && frozen s ((lengOf s x.eng).getD x.leng)

/-- Neither the vector unit, the scale unit nor an earlier arrival writes through port 1 in cycle `t` (R329). -/
def writeFree (e : Eng) (t : Nat) : Bool :=
  !(e.vec.runs.any fun r => r.writes.any fun c => c.has t) && !(e.recWrs.any fun w => decide (w.due = t)) && !(e.landed.contains t)

/-- The cycle in which a line that arrives in cycle `cyc` is written: the first in which port 1 is free (R329). -/
def landCycle (e : Eng) (cyc : Nat) : Nat := firstFree (writeFree e) 4096 cyc

/-- An arriving line takes port 1 in cycle `t`. -/
def takePort (k t : Nat) (s : State) : State :=
  engMod k (fun e => { e with landed := t :: e.landed.filter fun x => decide (t < x + 4096) }) s

/-- A line that arrives in cycle `cyc` goes through port 1 into a Carrel (R329). -/
def landIn (k line : Nat) (l : Line) (m : Mark) (cyc : Nat) (s : State) : State :=
  let t := landCycle (eng s k) cyc
  landLine k line l m t (takePort k t s)

/-- MOVER_LINE_ARRIVAL (R20, R329, R330). [log 3, DESIGN CHOICE; 83, DESIGN CHOICE] -/
def doMoverLineArrival (id cyc : Nat) (s : State) : State :=
  match s.xfers.find? fun x => decide (x.id = id) with
  | none => s
  | some x =>
    if x.held s then s
    else match x.lines[x.landed]? with
    | none => s
    | some v =>
      let cyc := if x.kind = 0 then landCycle (eng s x.eng) cyc else cyc
      let s := whenS (decide (x.kind = 0)) (takePort x.eng cyc) s
      if cyc ≤ x.due ∨ !x.onTime then landNext x v cyc s
      else
        let s := expire x s
        if x.kind = 1 then landNext { x with onTime := false } v cyc s else s

/-! ### Chain transfers (R76-R79, R193) -/

/-- The value a chain transfer carries for an element of a half (R76). -/
def chainVal (t : Tag) (e : Elem) : ChainV :=
  match t, e.val with
  | .fast, .run w => { fmt := .q16, val := .quire ((decodePosit 16 w.toNat).toQ .q16), mark := e.mark }
  | .ieee, .acc a => { fmt := .q32, val := if a.finite then .quire (a.toQ .q32) else .acc a, mark := e.mark }
  | t, v => { fmt := tagQuire t, val := v, mark := e.mark }

/-- The values of `n` vectors of a half from vector `base` on; an invalid element sends a free value, FAILED. [log 14, DESIGN CHOICE; 42, DEDUCED] -/
def chainVals (free : Nat) (h : Half) (t : Tag) (base n : Nat) : List ChainV :=
  (List.range (64 * n)).map fun i =>
    let e := h.elem (base + i / 64) (i % 64)
    if h.valid && e.valid then chainVal t e
    else { fmt := (chainVal t {}).fmt, val := .quire (.int (Config.openWord (free + i)).toInt), mark := e.mark ||| mkFailed }

/-- The term count a transfer carries: a widened fast or IEEE value counts as one term (R76). -/
def chainTerms (h : Half) : Tag → Nat
  | .fast | .ieee => 1
  | _ => h.terms

/-- A chain instruction's source faults: second in its cycle, no tag or too many vectors (R98), or a half that an
uncommitted PASS writes (R193). -/
def chainSrcBad (s : State) (c : Ctx) (half : Bool) (base n : Nat) : Nat :=
  let a := (eng s c.k).arr
  if c.dup then 0x01
  else if a.flights.any (fun f => decide (f.op.dsth = half)) then 0x07
  else match (a.half half).tag with
    | none => 0x04
    | some t => if tagCap t < base + n then 0x04 else 0

/-- What a chain instruction sends, once it may. -/
def chainOut (c : Ctx) (half : Bool) (base n : Nat) (s : State) (f : Nat → List ChainV → State → State) : State :=
  let h := (eng s c.k).arr.half half
  match h.tag with
  | none => s
  | some t =>
    let vs := (chainVals s.free h t base n).zipIdx.map fun (v, i) =>
      { v with mark := v.mark ||| segMark s c.k c.g, org := elemShelf s c.leng half (tagQuire t).perLine (64 * base + i) }
    let s := { s with free := s.free + 64 * n }
    let s := consume c.leng c.g c.pc (0, poisonElem s c.leng half h fun v => decide (base ≤ v) && decide (v < base + n)) (vs.foldl (fun m v => m ||| (v.mark &&& mkPoison)) 0) s
    f (chainTerms h t) vs s

/-- CSEND (R193): the values leave for another engine of this module. -/
def doCsend (h : IssueHdr) (o : CsendOp) (s : State) : State :=
  issued .chain 0 h s fun c =>
    let s := settle c.k c.cyc c.s
    let n := o.nm1.toNat + 1
    let bad := chainSrcBad s c o.half o.base.toNat n
    if bad ≠ 0 then c.fault bad s
    else
      match ownerOf s c.leng c.g with
      | none => s
      | some j =>
        let dst := o.dle.toNat
        let sh := modNum s * 2 ^ 43 + 2 ^ 42 + (0x40 + dst) * 2 ^ 32
        let s := logSend c (BitVec.ofNat 48 sh) (64 * n) s
        chainOut c o.half o.base.toNat n s fun terms vs s =>
          whenS (!absent s dst) (fun s => { s with chains := s.chains ++
            [{ src := c.leng, dst := dst, ch := o.ch.toNat, job := j, terms := terms, vals := vs, sent := 0, wt := c.wt }] }) s

/-- Quires per line of a packet. -/
def quireLines (f : Fmt) (vs : List ChainV) : List (Line × Mark) :=
  (chunks f.perLine vs.length vs).map fun part =>
    (packLine f (part.map fun v => match v.val with
      | .quire q => encodeQuire f q
      | _ => 0), part.foldl (fun m v => m ||| v.mark) 0)

/-- SPECIAL of a q32 value (Table 13-5). -/
def specialOf (v : ChainV) : BitVec 2 :=
  match v.val with
  | .acc (.inf false) => 1
  | .acc (.inf true) => 2
  | .acc .nan => 3
  | _ => 0

/-- QADD (R78): the quires leave for another module as packets. Its word has no DL, so DEADLINE is a free value. [log 17, DESIGN CHOICE] -/
def doQadd (h : IssueHdr) (o : QaddOp) (s : State) : State :=
  issued .chain 0 h s fun c =>
    let s := settle c.k c.cyc c.s
    let n := o.nm1.toNat + 1
    let bad := chainSrcBad s c o.half o.base.toNat n
    if bad ≠ 0 then c.fault bad s
    else
      match ownerOf s c.leng c.g with
      | none => s
      | some j =>
        let s := logSend c o.shelf (64 * n) s
        chainOut c o.half o.base.toNat n s fun terms vs s =>
          let f := (vs.headD { fmt := .q8, val := .quire (.int 0), mark := 0 }).fmt
          let per := if f = .q32 then 16 else 24
          let (fr, s) := takeFree s
          let ls := (quireLines f vs).zip (if f = .q32 then vs.map specialOf else List.replicate (quireLines f vs).length 0)
          let parts := chunks per ls.length ls
          let step := if bitsOf o.shelf.toNat 32 10 < 0x40 then f.perLine else 1
          foldS parts.zipIdx (fun (x : List ((Line × Mark) × BitVec 2) × Nat) => sendPacketOf (some (c.leng, c.cyc)) (shelfMod o.shelf)
            { op := 4, job := BitVec.ofNat 2 j, bg := decide (c.g = .bg), last := decide (x.2 + 1 = parts.length),
              rtry := false, smod := BitVec.ofNat 5 (modNum s), sleng := BitVec.ofNat 6 c.leng, ch := o.ch,
              qfmt := (match f with
                | .q8 => 9
                | .q16 => 10
                | _ => 11),
              nlm1 := BitVec.ofNat 5 (x.1.length - 1), pidx := BitVec.ofNat 16 x.2,
              target := o.shelf + BitVec.ofNat 48 (64 * per * step * x.2), workTick := c.wt,
              deadline := BitVec.ofNat 32 (Config.openWord fr).toNat,
              poison := BitVec.ofNat 24 ((x.1.map fun y => b2n (y.1.2.getLsbD 5)).zipIdx.foldl (fun a (b, i) => a + b * 2 ^ i) 0),
              marks := x.1.map fun y => y.1.2 &&& ~~~mkPoison, retShelf := 0, terms := BitVec.ofNat 32 terms,
              special := if f = .q32 then x.1.map (·.2) else [], lines := x.1.map (·.1.1) }) s

/-- CRECV (R193): the engine waits for a chain transfer. A faulting one marks its target FAILED (R175). -/
def doCrecv (h : IssueHdr) (o : CrecvOp) (s : State) : State :=
  issued .chain 0 h s fun c =>
    let s := c.s
    let n := 64 * (o.nm1.toNat + 1)
    let ln := o.line.toNat
    let foot := !o.tgt || inFoot s c.leng c.g ln n
    let bad := if c.dup then 0x01 else if !foot then 0x08 else 0
    if bad ≠ 0 then
      let s := c.fault bad s
      if o.tgt then markFoot c ln n mkFailed s
      else arrMod c.k (fun a => a.halfMod o.half (fun hf =>
        { hf with elems := hf.elems.map fun p =>
            if 64 * o.base.toNat ≤ p.1 ∧ p.1 < 64 * o.base.toNat + n then (p.1, { p.2 with mark := p.2.mark ||| mkFailed }) else p })) s
    else
      let s := engMod c.k (fun e => { e with recvs := e.recvs ++
        [{ pc := c.pc, sk := o.sk, src := o.src.toNat, ch := o.ch.toNat, half := o.half, base := o.base.toNat, n := n,
           issue := c.cyc, due := c.cyc + o.dl.toNat, tgt := o.tgt, line := ln, got := 0, seg := c.g, id := s.nextXfer,
           late := false, wt := c.wt }] }) s
      { s with nextXfer := s.nextXfer + 1 }

/-- A half widened by a chain add (R99): every value exactly into the quire, elements beyond the new capacity invalid. -/
def Half.widen (h : Half) : Half :=
  let go (t : Tag) (conv : BankVal → BankVal) : Half :=
    { h with tag := some t, elems := h.elems.map fun p =>
        (p.1, { p.2 with val := conv p.2.val, valid := p.2.valid && decide (p.1 / 64 < tagCap t) }) }
  match h.tag with
  | some .fast => go .fastW fun v => match v with
    | .run w => .quire ((decodePosit 16 w.toNat).toQ .q16)
    | x => x
  | some .ieee => go .ieeeW fun v => match v with
    | .acc a => if a.finite then .quire (a.toQ .q32) else .acc a
    | x => x
  | _ => h

/-- The exact value that a chain transfer carries. -/
def ChainV.value (v : ChainV) : FVal := v.val.value (if v.fmt = .q8 then .q8 else if v.fmt = .q16 then .q16 else .ieeeW)

/-- A chain add into an element of a half with tag `t` (R76): exact, special tags by R67. Says the flags raised. -/
def chainAdd (t : Tag) (old : BankVal) (v : ChainV) : BankVal × Flags :=
  let b := v.value
  let a := old.value t
  if a.finite && b.finite then (.quire ((a.toQ (tagQuire t)).add (b.toQ (tagQuire t))), {})
  else if t = .ieeeW then (let (x, f) := a.add b; (.acc x, f))
  else (.quire .nar, {})

/-- Put an addend in its place: after those of no later place. [log 11, DESIGN CHOICE] -/
def placeAdd (p : Nat) (v : FVal) : List (Nat × FVal) → List (Nat × FVal)
  | [] => [(p, v)]
  | x :: t => if x.1 ≤ p then x :: placeAdd p v t else (p, v) :: x :: t

/-- The sum of an element's running sum and its chain adds by the accumulator of R67, in a fixed order (R77). [log 11, DESIGN CHOICE] -/
def addsSum (img active : Nat) (l : List (Nat × FVal)) : FVal × Flags :=
  let r := ieeeReduce (Config.ieeeOrder img active 1) l.length 0 (l.map (·.2))
  (r.1, r.2.1)

/-- A chain add under R77 of a value from source `p`: the element takes the sum of all addends so far. Says the flags that this sum
raises, and those that the sum before it raised. [log 11, DESIGN CHOICE] -/
def chainAdd77 (img active p : Nat) (e : Elem) (v : ChainV) : Elem × Flags × Flags :=
  let l0 := if e.adds = [] then [(0, e.val.value .ieee)] else e.adds
  let l := placeAdd (p + 1) v.value l0
  let r := addsSum img active l
  ({ e with val := .acc r.1, adds := l }, r.2, (addsSum img active l0).2)

/-- A half takes chain adds of a quire format (Table 4-6). -/
def chainFits (f : Fmt) : Option Tag → Bool
  | none => true
  | some .q8 => decide (f = .q8)
  | some .q16 | some .fast | some .fastW => decide (f = .q16)
  | some .ieee | some .ieeeW => decide (f = .q32)

/-- Every element of a half takes a mark. -/
def markHalf (k : Nat) (h : Bool) (m : Mark) (s : State) : State :=
  arrMod k (fun a => a.halfMod h (fun hf => { hf with elems := hf.elems.map fun p => (p.1, { p.2 with mark := p.2.mark ||| m }) })) s

/-- The CRECV's target takes FAILED (R79, R330). -/
def failRecv (k : Nat) (r : Recv) (s : State) : State :=
  if r.tgt then cMarks k r.line r.n mkFailed s else markHalf k r.half mkFailed s

/-- Put back a changed CRECV; one that has all its elements is done. -/
def recvPut (k : Nat) (r : Recv) (s : State) : State :=
  engMod k (fun e => { e with recvs := (e.recvs.map fun x => if x.id = r.id then r else x).filter fun x => decide (x.got < x.n) }) s

/-- Where the poison that a chain add consumes comes from (R244): the addend, or the target with the shelfmark `target`. -/
def chainOrigin (v : ChainV) (target : Nat) : Nat × Option Nat :=
  if v.mark &&& mkPoison ≠ 0 then (0, some v.org) else (1, some target)

/-- The transfer is late (R79): MOVE_LATE once, its target FAILED. -/
def recvLate (leng k : Nat) (r : Recv) (actual : Nat) (s : State) : State :=
  if r.late then s
  else
    let s := failRecv k r (moveLate leng r.seg r.pc r.due actual s)
    engMod k (fun e => { e with recvs := e.recvs.map fun x => if x.id = r.id then { x with late := true } else x }) s

/-- One value lands on element `i` of a CRECV's target at cycle `cyc` (R76, R79, R99, R193); `last` ends the transfer. A q32 line has no
term count and holds no infinity: a sum outside its range wraps modulo 2^512, an infinity leaves a free line, a NaN leaves NaR.
An add into an element that no PASS has formed adds to zero, gives an untagged half its tag and leaves the element invalid; a transfer
shorter than its CRECV ends it. Under R77 and TRAP the flags of the sum so far count, mark and trap until a later sum raises none. [log 42, DEDUCED; 98, DESIGN CHOICE; 117, DESIGN CHOICE; 121, DEDUCED; 132, DESIGN CHOICE] -/
def chainLand (leng k : Nat) (r : Recv) (i : Nat) (v : ChainV) (terms : Nat) (last : Bool) (cyc : Nat) (s : State) : State :=
  let got := if last then r.n else r.got + 1
  let done := recvPut k { r with got := got }
  let refuse (cause : Nat) (s : State) : State := failRecv k r (schedFault k r.seg 0 cause cyc true s)
  if r.due < cyc ∨ r.late then
    let s := recvLate leng k r cyc s
    recvPut k { r with got := got, late := true } s
  else if r.n ≤ i then done (refuse 0x07 s)
  else
    let m := v.mark ||| segMark s k r.seg
    if r.tgt then
      let cyc := landCycle (eng s k) cyc
      let s := takePort k cyc s
      let (old, om) := cRead s k (r.line + i)
      let s := consume leng r.seg r.pc (chainOrigin v (lineShelf s leng (r.line + i))) (v.mark ||| om) s
      let b := v.value
      let (fr, s) := takeFree s
      let sum : Line := match b with
        | .inf _ => Config.openLine fr
        | _ => BitVec.ofNat 512 (encodeQuire .q32 ((decodeQuire .q32 old.toNat).add (b.toQ .q32)))
      let s := landLine k (r.line + i) sum (om ||| m) cyc s
      done (segMod k r.seg (fun y => { y with wrote := y.wrote ++ [(r.line + i, cyc)] }) s)
    else
      let s := settle k cyc s
      let a := (eng s k).arr
      let hf := a.half r.half
      let busy := a.flights.any fun f => decide (f.op.dsth = r.half) || (f.op.src && decide (f.op.dsth ≠ r.half))
      let gen := r77 s leng r.seg
      let hf := if gen && decide (hf.tag = some .ieee) then hf else hf.widen
      let vec := r.base + i / 64
      let outside := match hf.tag with
        | some t => decide (tagCap t ≤ vec)
        | none => false
      if busy then done (refuse 0x07 s)
      else if !chainFits v.fmt hf.tag || outside || decide (2 ^ 31 - 1 < hf.terms + terms) then done (refuse 0x04 s)
      else
        let t := hf.tag.getD (if v.fmt = .q8 then .q8 else if v.fmt = .q16 then .q16 else if gen then .ieee else .ieeeW)
        let key := 64 * vec + i % 64
        let old := tabGet (fun _ => ({} : Elem)) hf.elems key
        let s := consume leng r.seg r.pc (chainOrigin v (elemShelf s leng r.half (tagQuire t).perLine key)) (v.mark ||| old.mark) s
        let b := job s ((ownerOf s leng r.seg).getD 0)
        let (e, fl, was) := if t = .ieee then chainAdd77 (imgOf b) (activeCount s) (16 * r.src + r.ch) old v
          else (let (x, f) := chainAdd t old.val v; ({ old with val := x }, f, {}))
        let trap := decide (policy s k r.seg = 2) && fl.event
        let base := (if old.soft then old.mark &&& ~~~mkFailed else old.mark) ||| m
        let e : Elem := { e with mark := base ||| (if trap then mkFailed else 0),
                                 soft := trap && decide (t = .ieee) && decide (base &&& mkFailed = 0) }
        let s := countFlags k fl (uncountFlags k was s)
        let s := whenS (old.soft && !trap) (untrap k) (whenS (trap && !old.soft && !was.event) (numTrap k leng r.seg) s)
        let widen (x : Half) : Half := if gen && decide (x.tag = some .ieee) then x else x.widen
        let s := arrMod k (fun a => a.halfMod r.half (fun _ =>
          { hf with tag := some t, elems := tabSet (fun _ => {}) hf.elems key e,
                    terms := if last then hf.terms + terms else hf.terms })) s
        let s := redrainElem k r.half key cyc e widen s
        done (segMod k r.seg (fun y => { y with halves := y.halves ++ [(r.half, vec, cyc)] }) s)

/-- The CRECV a transfer from a source and channel meets: that of the transfer's work tick, else the first that is not late, else the
first. [log 42, DEDUCED] -/
def recvOf (s : State) (k : Nat) (sk : Bool) (src ch : Nat) (wt : BitVec 64) : Option Recv :=
  let l := (eng s k).recvs.filter fun r => decide (r.sk = sk) && decide (r.src = src) && decide (r.ch = ch)
  (l.find? fun r => decide (r.wt = wt)).orElse fun _ => (l.find? fun r => !r.late).orElse fun _ => l.head?

/-- CHAIN_ARRIVAL (R20, R193): element `sent` of the transfer lands on element `sent` of the CRECV's target; an addend
without a CRECV is dropped and marks no element. [log 42, DEDUCED; 120, DEDUCED] -/
def doChainArrival (leng src ch cyc : Nat) (s : State) : State :=
  if frozen s leng then s
  else match s.chains.findIdx? fun x => decide (x.src = src) && decide (x.dst = leng) && decide (x.ch = ch) with
  | none => s
  | some ix =>
    match s.chains[ix]? with
    | none => s
    | some x =>
      let k := storeKey s leng
      let last := decide (x.vals.length ≤ x.sent + 1)
      let rest := if last then dropAt s.chains ix else s.chains.set ix { x with sent := x.sent + 1 }
      let s := { s with chains := rest }
      match x.vals[x.sent]? with
      | none => s
      | some v =>
        match recvOf s k false src ch x.wt with
        | none => schedFault k (job s x.job).seg 0 0x07 cyc true s
        | some r => chainLand leng k r x.sent v x.terms last cyc s

/-- TRANSFER_DEADLINE (R79, R330): of a mover transfer, or of a CRECV that still waits. [log 83, DESIGN CHOICE] -/
def doTransferDeadline (id : Nat) (s : State) : State :=
  match s.xfers.find? fun x => decide (x.id = id) with
  | some x => whenS (!x.held s && !frozen s x.leng) (expire x) s
  | none =>
    match ((List.range 64).find? fun l => (eng s (storeKey s l)).recvs.any fun r => decide (r.id = id)) with
    | none => s
    | some l =>
      let k := storeKey s l
      match (eng s k).recvs.find? fun r => decide (r.id = id) with
      | none => s
      | some r =>
        let (f, s) := takeFree s
        whenS (!frozen s l) (recvLate l k r (Config.openWord f).toNat) s

/-! ### Hub movers (R332) -/

/-- The record of a port's tile for slot `j` (R305). -/
def tileRecord (s : State) (j : Nat) (fr : BitVec 64) (adj : Int) (t : Stats) : Line :=
  ScaleRec.line { tid := BitVec.ofNat 12 (fget s pgMod (0xA4 + 4 * j) 0 12), src := 2, fmt := 1, seq := BitVec.ofNat 32 fr.toNat,
                  scale := scaleWord (.num false 1 0) adj, adj := BitVec.ofInt 8 adj, stats := t }

/-- Elements of a port's tile: ROWS x COLS (R301). -/
def tileElems (s : State) (q : Nat) : Nat := (fget s (pgAcc q) 0x9C 0 8 + 1) * (32 * fget s (pgAcc q) 0x9C 8 6)

/-- The tile of a port that is not in RUN: zeros and a record of ADJ 0, every line FAILED (R309). -/
def deadTile (s : State) (q j : Nat) (fr : BitVec 64) : List (Line × Mark) :=
  List.replicate (tileElems s q / 32) (0, mkFailed) ++ [(tileRecord s j fr 0 { nelem := tileElems s q }, mkFailed)]

/-- The data frame whose tile the movers now deliver: the present one, or the trigger frame during a wake (R282). -/
def tileNow (s : State) : BitVec 64 :=
  match s.nd.trig with
  | some (f, _) => if s.pwr.waking then f else s.tick
  | none => s.tick

/-- The tile a port has ready for slot `j`. -/
def portTile (s : State) (q j : Nat) : List (Line × Mark) :=
  let fr := tileNow s
  if (acc s q).tileFrame = fr ∧ (acc s q).tile.isEmpty = false then (acc s q).tile
  else if fget s (pgAcc q) 0x100 0 2 ≠ 2 then deadTile s q j fr
  else []

/-- The movers run: Ready, Active, or the last part of a wake (R276). -/
def moversRun (s : State) : Bool := running s || (s.pwr.waking && decide (60 ≤ s.pwr.stage))

/-- HUB_MOVER_ENTRY: lines of the tile of the job's stream, or Stacks lines, start toward an engine. -/
def doHubMoverEntry (slot entry : Nat) (s : State) : State :=
  let b := job s slot
  if moversRun s && b.bound && (decide (b.st = 2) || decide (b.st = 3)) then
    match b.hubMoves[entry]? with
    | none => s
    | some e =>
      let k := storeKey s e.dest
      let hb := if e.kind = 0 then b.stream else 64 * e.src.toNat % 2 ^ 42 / 2 ^ 38
      if absent s e.dest || !enabled s (pgMover hb slot) then s
      else
        let ls := if e.kind = 0 then ((portTile s b.stream slot).drop e.src.toNat).take e.len
          else (List.range e.len).map fun i => stkReadJob s slot (64 * e.src.toNat % 2 ^ 42 + 64 * i)
        let z := zoneOf e.dest
        let base := if s.pwr.waking then (zone s z).tickAbs + 5000 * multOf (stepOf s z)
          else if 0 ≤ e.start then (eng s k).cyc0 else (zone s z).tickAbs + (period s - (zone s z).lost) * multOf (stepOf s z)
        let s := whenS (decide (e.kind = 1)) (hubCount (64 * e.src.toNat % 2 ^ 42) e.len 0) s
        addXfer { id := 0, kind := 0, slot := slot, bg := b.bg, eng := k, leng := e.dest, pc := entry, target := e.dline,
                  lines := ls, n := e.len, landed := 0, due := ((base : Int) + e.arrive).toNat, tag := e.tag, ten := e.ten,
                  hub := true, wt := workTick s e.dest b.seg, hubNo := hb, tickDue := !s.pwr.waking && decide (e.start < 0),
                  hubAt := reachAt s e.dest (((base : Int) + e.start).toNat) hb, src := if e.kind = 1 then some (64 * e.src.toNat % 2 ^ 42) else none } s
  else s

/-- MOV. -/
def execMov (h : IssueHdr) (o : MovOp) (s : State) : Res := gate (Instr.wf (.mov h o)) (doMov h o s)
/-- CSEND. -/
def execCsend (h : IssueHdr) (o : CsendOp) (s : State) : Res := .next (doCsend h o s)
/-- CRECV. -/
def execCrecv (h : IssueHdr) (o : CrecvOp) (s : State) : Res := gate (Instr.wf (.crecv h o)) (doCrecv h o s)
/-- QADD. -/
def execQadd (h : IssueHdr) (o : QaddOp) (s : State) : Res := .next (doQadd h o s)
/-- CHAIN_ARRIVAL. -/
def execChainArrival (leng : BitVec 6) (src : BitVec 6) (ch : BitVec 4) (cycle : Nat) (s : State) : Res :=
  .next (doChainArrival leng.toNat src.toNat ch.toNat cycle s)
/-- MOVER_LINE_ARRIVAL. -/
def execMoverLineArrival (xfer : Nat) (cycle : Nat) (s : State) : Res := .next (doMoverLineArrival xfer cycle s)
/-- TRANSFER_DEADLINE. -/
def execTransferDeadline (xfer : Nat) (s : State) : Res := .next (doTransferDeadline xfer s)
/-- HUB_MOVER_ENTRY. -/
def execHubMoverEntry (slot : BitVec 2) (entry : Nat) (s : State) : Res := .next (doHubMoverEntry slot.toNat entry s)

end Sys2Proof.Machine
end

