-- ==== Sys2Proof/Machine/Slots.lean ====
section
/-! DEFINITION. What jobs, engines and commit classes share (R21, R23, R24, R27, R224, R234, R248, R249, R394): freeing and
resetting a slot, containing an engine fault, committing shadows. -/

namespace Sys2Proof.Machine

/-! ### Job slots -/

/-- Keys of lane storage that belong to a class, out of `per` keys of the RT half (Table 6-1). -/
def laneMine (g : Seg) (per key : Nat) : Bool := if g = .rt then decide (key < per) else decide (per ≤ key)

/-- Clear a class's lane storage (R142). -/
def clearLanes (k : Nat) (g : Seg) (s : State) : State :=
  vecMod k (fun v =>
    { v with
      vr := v.vr.filter fun p => !laneMine g 512 p.1
      lq := v.lq.filter fun p => !laneMine g 128 p.1
      masks := v.masks.filter fun p => !laneMine g 2 p.1
      sk := v.sk.filter fun p => !laneMine g 64 p.1
      runs := v.runs.filter fun r => decide (r.seg ≠ g) }) s

/-- Clear an engine's sequencer state and pending work of one class (R27); a summary that is owed stays. A pass in flight runs to its commit, unchecked (R106). -/
def clearSeg (k : Nat) (g : Seg) (s : State) : State :=
  let own := (lengOf s k).bind fun l => ownerOf s l g
  let s := endHolds k (max (eng s k).rt.last (eng s k).bg.last) (fun h => decide (h.seg = g)) s
  engMod k (fun e =>
    let e := e.segMod g (fun x => { sfOld := x.summaries g, sfJob := own })
    { e with
      holdsRt := if g = .rt then [] else e.holdsRt
      holdsBg := if g = .bg then [] else e.holdsBg
      recWrs := e.recWrs.filter fun w => decide (w.seg ≠ g)
      rowChks := e.rowChks.filter fun r => decide (r.seg ≠ g)
      recvs := e.recvs.filter fun r => decide (r.seg ≠ g)
      claims := e.claims.filter fun c => decide (c.seg ≠ g)
      arr := { e.arr.setDrain g none with
               flights := e.arr.flights.map fun f => if f.seg = g then { f with chk := false, selected := false } else f } }) s

/-- The step a job has reached: a BG job's is that of its lowest logical engine (R180), an RT job's is its frame (R132). -/
def jobStep (s : State) (b : Job) : BitVec 64 :=
  if b.bg then
    match b.engs with
    | l :: _ => ((eng s (storeKey s l)).bg).stepNo
    | [] => 0
  else s.tick - 1

/-- The open steps of an RT job that starts or goes on at the tick are those of its next frame (R132). -/
def openRtSteps (j : Nat) (s : State) : State :=
  if (job s j).bg then s
  else { s with cat := s.cat.map fun p => if p.2.mode ≠ 0 ∧ p.2.job = j then (p.1, { p.2 with step := s.tick }) else p }

/-- Free a job's Catalogue entries (R130). -/
def freeCat (j : Nat) (s : State) : State :=
  { s with cat := s.cat.filter fun p => !(decide (p.2.mode ≠ 0) && decide (p.2.job = j)) }

/-- Free slot j's wheel positions in a hub (R324). -/
def freeWheel (j : Nat) (h : Nat) (s : State) : State :=
  let s := fset (pgHub h) 0x60 (4 * j) 3 7 s
  foldS (List.range 64) (fun p =>
    whenS (decide (fget s (pgHub h) (0x40 + 4 * (p / 8)) (4 * (p % 8)) 4 = j + 1))
      (fset (pgHub h) (0x40 + 4 * (p / 8)) (4 * (p % 8)) 4 0)) s

/-- The engines whose segments a slot holds; one whose load still waits holds none (R27, R251). -/
def Job.held (b : Job) : List Nat := if b.loadWait then [] else b.engs

/-- Free a slot: its engines' segments, mover schedules, transfers, Catalogue entries, shares and footprints go; the module is
Ready when the last one is free (Table 16-1). -/
def freeSlot (j : Nat) (s : State) : State :=
  let b := job s j
  let s := foldS b.held (fun l s =>
    let k := storeKey s l
    let s := clearSeg k b.seg s
    let o := if b.bg then 4 else 0
    rset (pgEng k 4) (0x4C + o) 0 (rset (pgEng k 4) (0x54 + o) 0 s)) s
  let s := { s with
    xfers := s.xfers.filter fun x => decide (x.slot ≠ j)
    chains := s.chains.filter fun x => decide (x.job ≠ j)
    statQ := s.statQ.filter fun x => decide (x.slot ≠ j) }
  let s := freeCat j s
  let s := fset pgMod (0xA4 + 4 * j) 0 12 0 s
  let s := foldS (List.range 4) (freeWheel j) s
  let s := jobMod j (fun _ => {}) s
  whenS (decide (pstate s = 3) && !anyJob s) (setPstate 2) s

/-- Close every frame of a job now: unfinished items are FAILED and the records leave (R27). [log 47, DEDUCED] -/
def flushFrames (j : Nat) (s : State) : State :=
  let b := job s j
  let recs := b.frames.zipIdx.map fun (f, i) => vrecOf s j (if i = 0 then b else { b with resumed := false }) f
  jobMod j (fun b => { b with frames := [] }) { s with ready := s.ready ++ recs }

/-- Job states of EVENT 0x000E in the order of Table 14-6. [log 46, DEDUCED] -/
def jobEvent (j st : Nat) (s : State) : State := raise pgMod 0 (sendEvent 0x000E [j, st] s)

/-- A job-slot reset (R27). [log 47, DEDUCED] -/
def resetSlot (j : Nat) (s : State) : State :=
  let b := job s j
  if !b.occupied then s
  else
    let s := foldS b.held (fun l s => clearLanes (storeKey s l) b.seg s) s
    jobEvent j 6 (freeSlot j (flushFrames j s))

/-- The next pass boundary of a segment, if it has passes in flight that commit after the engine's newest issue: the cycle after the
last of them commits (R27, R106). [log 47, DEDUCED] -/
def boundaryOf (e : Eng) (g : Seg) : Option Nat :=
  let l := e.arr.flights.filter fun f => decide (f.seg = g) && decide (e.units.foldl (fun t u => max t u.2) 0 ≤ f.commit)
  if l = [] then none else some (l.foldl (fun t f => max t (f.commit + 1)) 0)

/-- Every engine of a job is at a pass boundary of its segment. [log 47, DEDUCED] -/
def atBoundary (s : State) (b : Job) : Bool := b.held.all fun l => (boundaryOf (eng s (storeKey s l)) b.seg).isNone

/-- A job-slot reset asked for (R27): each engine's segment stops at its next pass boundary, and the slot is freed when the last one
has, at the next tick at the latest. [log 47, DEDUCED] -/
def stopSlot (j : Nat) (s : State) : State :=
  let b := job s j
  if !b.occupied || atBoundary s b then resetSlot j s
  else
    jobMod j (fun x => { x with ending := true }) (foldS b.held (fun l s =>
      segMod (storeKey s l) b.seg (fun x => { x with stopAt := some ((boundaryOf (eng s (storeKey s l)) b.seg).getD 0) }) s) s)

/-- Slots whose engines have all stopped are freed (R27). [log 47, DEDUCED] -/
def endStops (s : State) : State :=
  foldS (List.range 4) (fun j s => if (job s j).ending && atBoundary s (job s j) then resetSlot j s else s) s

/-- PASS_COMMIT (R94): the oldest pass in flight commits; a job that was to stop there stops (R27). -/
def execPassCommit (leng : BitVec 6) (s : State) : Res := .next (endStops (doPassCommit leng.toNat s))

/-- Every engine of a job has ended its segment of the frame (R219); one whose segment has halted stands at its pause point. [log 138, DESIGN CHOICE] -/
def atPause (s : State) (b : Job) : Bool :=
  b.engs.all fun l => decide (((eng s (storeKey s l)).seg b.seg).st ≠ 1) && !(eng s (storeKey s l)).lagged

/-! ### Engines (R21, R23, R24, R234, R249) -/

/-- Jobs on a logical engine lose it: their items of the frame are FAILED and the slots are reset at the next tick (R224). [log 86, DEDUCED] -/
def loseEngine (leng : Nat) (s : State) : State :=
  foldS (List.range 4) (fun j => jobMod j (fun b =>
    if b.occupied && b.uses leng then
      { b with resetReq := true, frames := b.frames.map fun f => { f with marks := f.marks ||| mkFailed } }
    else b)) s

/-- Refresh MOD.ACTIVE and MOD.ABSENT. -/
def countEngines (s : State) : State :=
  let ab := (List.range 64).foldl (fun a l => a + b2n (absent s l) * 2 ^ l) 0
  rset64 pgMod 0xC0 (BitVec.ofNat 64 ab) (fset pgMod 0xB8 0 7 (activeCount s) s)

/-- A logical engine becomes absent (R24): capacity record, EVENT and alert (R249). -/
def makeAbsent (leng : Nat) (s : State) : State :=
  let s := fset (pgDie (leng / 4) 1) 0x40 (3 * (leng % 4)) 3 7 s
  let s := loseEngine leng (countEngines s)
  capacity 0 4 { ty := 0x0402, sev := 4, level := 4, zq := zoneOf leng, die := leng / 4, leng := leng } s

/-- Bind a slot to the spare engine (R23, R234): the storage stays with the original engine.
The die's last spare engine is then used (R249). -/
def bindSpare (leng : Nat) (s : State) : State :=
  let c := leng / 4
  let old := slotPhys s leng
  let s := fset (pgDie c 1) 0x48 0 5 16 (fset (pgDie c 1) 0x40 (3 * (leng % 4)) 3 4 s)
  let s := { s with store := tabSet (fun l => l % 4) s.store leng (storeKey s leng % 5) }
  let s := countEngines (substitution { ty := 0x0401, sev := 1, level := 3, zq := zoneOf leng, die := c, leng := leng } 0
    (leng % 4) old 4 s)
  capacity 0 4 { ty := 0x0402, sev := 4, level := 3, zq := zoneOf leng, die := c, leng := leng } s

/-- An engine fault is contained by the die's spare engine, else the logical engine becomes absent (R21, R111, R246). -/
def contain (leng : Nat) (s : State) : State :=
  let c := leng / 4
  let old := slotPhys s leng
  let free := spareFree s leng
  let s := fset (pgDie c 1) 0x44 old 1 1 s
  if free then bindSpare leng s else makeAbsent leng s

/-- At a tick: takeovers become bindings, engine faults are contained (R21, R234, R237). -/
def containAll (s : State) : State :=
  foldS (List.range 64) (fun l s =>
    let k := storeKey s l
    let e := eng s k
    if absent s l then s
    else if e.takeover then
      let s := fset (pgDie (l / 4) 1) 0x44 (slotPhys s l) 1 1 s
      engMod k (fun e => { e with takeover := false, faultDue := false }) (bindSpare l s)
    else if e.faultDue then contain l (engMod k (fun e => { e with faultDue := false }) s)
    else s) s

/-! ### Tick-class commits (R394, R395, R210) -/

/-- The tick-class fields of a register take the shadow's value; every other bit stays. -/
def commitWord (p off : Nat) (now sh : Word) : Word :=
  BitVec.ofNat 32 ((fieldsAt p off).foldl (fun v f =>
    if f.acc = .rt then putBits v f.lo f.w (bitsOf sh.toNat f.lo f.w) else v) now.toNat)

/-- Put one shadow in force; SHADOW_STATE.LASTTICK shows the tick (Table 15-2). -/
def commitReg (i : Nat) (sh : Word) (s : State) : State :=
  let p := i / 1024
  let off := 4 * (i % 1024)
  fset p 0x20 16 16 s.tick.toNat (rset p off (commitWord p off (rget s p off) sh) s)

/-- Commit the shadows of the pages that satisfy `f`, in ascending page order (R394). -/
def commitShadows (f : Nat → Bool) (s : State) : State :=
  let due := s.shadow.filter fun x => f (x.1 / 1024)
  let s := foldS due (fun x s => match x.2 with
    | some w => commitReg x.1 w s
    | none => s) s
  { s with shadow := s.shadow.filter fun x => !f (x.1 / 1024) }

/-- Commit the captured shadows of the pages that satisfy `f`. -/
def commitCaptured (f : Nat → Bool) (s : State) : State :=
  let due := s.captured.filter fun x => f (x.1 / 1024)
  let s := foldS due (fun x s => match x.2 with
    | some w => commitReg x.1 w s
    | none => s) s
  { s with captured := s.captured.filter fun x => !f (x.1 / 1024) }

/-- Capture die and engine shadows at the tick edge. -/
def captureShadows (s : State) : State :=
  let due := s.shadow.filter fun x => decide (0x400 ≤ x.1 / 1024)
  { s with
    captured := due.foldl (fun t x => tabSet (fun _ => none) t x.1 x.2) s.captured
    shadow := s.shadow.filter fun x => decide (x.1 / 1024 < 0x400) }

/-- A page belongs to physical engine `k`. -/
def onEngine (k p : Nat) : Bool := decide (pgEng k 0 ≤ p) && decide (p < pgEng k 0 + 16)

/-- A page belongs to a die's service pages. -/
def onDie (c p : Nat) : Bool := decide (pgDie c 0 ≤ p) && decide (p ≤ pgDie c 2)

/-- The lowest bound logical engine of a die. -/
def dieLead (s : State) (c : Nat) : Option Nat :=
  ((List.range 4).map (4 * c + ·)).find? fun l => (List.range 4).any fun j => (job s j).bound && (job s j).uses l

/-- At a logical engine's cycle 0 its captured shadows commit, with its die's where it leads the die. -/
def commitEngine (leng : Nat) (s : State) : State :=
  let k := storeKey s leng
  let x := execKey s leng
  let s := commitCaptured (fun p => onEngine k p || onEngine x p) s
  whenS (decide (dieLead s (leng / 4) = some leng)) (commitCaptured (onDie (leng / 4))) s

end Sys2Proof.Machine
end

