-- ==== Sys2Proof/Machine/Curator.lean ====
section
/-! DEFINITION. The Curator's processing at a tick (R132-R134, R226, R256-R268, R272): step closes and directive records,
watches, check ratios, thermal requests, the power policy, zone steps and the standby policy. -/

namespace Sys2Proof.Machine

/-- An action of the Curator: counted, with its Errata record of TYPE 0x0504 (R257). [log 55, DEDUCED] -/
def action (detail : List Nat) (s : State) : State :=
  errata { ty := 0x0504, sev := 0, block := 7, detail := detail } (finc pgCur 0xAC 0 32 1 s)

/-! ### Step closes (R131-R134) -/

/-- A share of Table 5-4: min(0x7FFF, floor(32,768 n / NELEM)). A step with NELEM = 0, of which the table says nothing, gives 0. [log 99, DESIGN CHOICE] -/
def shareOf (n nelem : Nat) : Nat := if nelem = 0 then 0 else min 0x7FFF (32768 * n / nelem)

/-- The summary of a step (Table 5-4); a MAXMAG beyond fp32 is a free value. [log 33, DEDUCED] -/
def summarize (free : Nat) (t : Stats) (part : Bool) : Summary :=
  let mw := maxWord t
  { maxmag := if mw < 0x7F800000 then BitVec.ofNat 32 mw else BitVec.ofNat 32 (Config.openWord free).toNat,
    meanlog := if t.nnz = 0 then 0x80000000 else BitVec.ofInt 32 (roundDiv (256 * t.sumlog) t.nnz),
    zsh := BitVec.ofNat 16 (shareOf (t.nelem - t.nnz - t.nnf) t.nelem + b2n part * 2 ^ 15),
    ssh := BitVec.ofNat 16 (shareOf t.nsat t.nelem), nsh := BitVec.ofNat 16 (shareOf t.nnf t.nelem) }

/-- PART of a summary. -/
def Summary.part (x : Summary) : Bool := x.zsh.getLsbD 15

/-- A summary counts in the mean. -/
def Summary.used (x : Summary) : Bool := decide (x.meanlog ≠ 0x80000000)

/-- The exact value of an fp32 magnitude as `m * 2^e`. -/
def magOf (w : BitVec 32) : Nat × Int :=
  match (decodeIeee .fp32 (w.toNat % 2 ^ 31)).1 with
  | .num _ m e => (m, e)
  | _ => (1, 128)

/-- The largest of some magnitudes. -/
def maxMag (l : List Summary) : Nat × Int :=
  l.foldl (fun a x => let b := magOf x.maxmag
                      if a.1 = 0 ∨ (b.1 ≠ 0 ∧ leExp a.1 a.2 b.1 b.2) then b else a) (0, 0)

/-- The history rule (R133) over the summaries present in the window. -/
def historyAdj (e : CatE) (win : List Summary) : Int :=
  let use := win.filter Summary.used
  if use.isEmpty then e.adj
  else
    let mw := roundDiv (use.foldl (fun a x => a + x.meanlog.toInt) 0) use.length
    let ec := -roundDiv mw 65536
    let (m, x) := maxMag use
    let em := if m = 0 then 120 else fitPow m x (lmaxOf (fmtD e.fmt))
    clampI (-120) 120 (min (min (ec + e.boost) em) e.limit)

/-- The directive record of step `step + lag` (R134): ADJ and COLD as R137 says, PARTIAL where the window holds a partial
step or lacks one (R135). -/
def directive (tid : Nat) (e : CatE) (closed : BitVec 64) (s : State) : State :=
  let win := e.ring.take e.w
  let cold := decide (0 < e.coldLeft)
  let adj := if cold then 0 else historyAdj e win
  let part := decide (win.length < e.w) || win.any Summary.part
  let st := closed.toNat + e.lag
  let r : ScaleRec := { tid := BitVec.ofNat 12 tid, src := 1, fmt := e.fmt, cold := cold, directive := true, part := part,
                        seq := BitVec.ofNat 32 st, scale := scaleWord (.num false 1 0) adj, adj := BitVec.ofInt 8 adj }
  let off := (64 * e.dirtab.toNat) % 2 ^ 42 + 64 * (st % 4)
  catMod tid (fun x => { x with adj := adj }) (stkWrite off r.line 0 s)

/-- Close the open step of an entry (R132). -/
def closeStep (tid : Nat) (next : BitVec 64) (s : State) : State :=
  let (f, s) := takeFree s
  let e := catE s tid
  let sm := summarize f e.stats e.openPart
  let s := catMod tid (fun e =>
    { e with ring := (sm :: e.ring).take 32, head := (e.head + 1) % 32, stats := {}, openPart := false, step := next,
             coldLeft := e.coldLeft - 1 }) s
  whenS (decide (e.mode = 2)) (directive tid (catE s tid) e.step) s

/-! ### Watches (R258-R261) -/

/-- The stagnation watch on a closed step with counts `t` (R258, R259). -/
def stagWatch (tid : Nat) (t : Stats) (s : State) : State :=
  let e := catE s tid
  let z := (t.nelem + t.nufl) - t.nnz - t.nnf
  let stag := decide ((fget s pgCur 0x5C 0 16) * t.nelem ≤ min z t.nelem * 65536)
  let run := if stag then e.stagRun + 1 else 0
  let s := catMod tid (fun e => { e with stagRun := run }) s
  let win := fget s pgCur 0x58 4 12
  if stag && decide (run % max win 1 = 0) then
    let lim := if e.raised then e.limit else min 120 (e.adj + fget s pgCur 0x58 16 8)
    let atL := decide (lim ≤ e.adj)
    let s := catMod tid (fun e =>
      { e with raised := true, limit := lim, boost := if atL then e.boost else min 127 (e.boost + 4) }) s
    action [1, tid, run] (raise pgCur 0 (sendEvent 6 [tid, run, b2n atL] s))
  else s

/-- A loss-watch event of job `j` (R260): kind 0 LOSSSPIKE, 1 LOSSNF. -/
def lossEvent (j tid kind : Nat) (step : BitVec 64) (s : State) : State :=
  let s := raise pgCur (1 + kind) (sendEvent 7 [j, tid, step.toNat, kind] s)
  let s := jobMod j (fun b => { b with faults := b.faults + 1 }) s
  let s := action [2 + kind, j, tid] s
  if fget s pgCur (0x60 + 4 * j) 13 1 = 1 ∧ (job s j).st = 2 then jobMod j (fun b => { b with st := 3, pauseReq := true }) s else s

/-- The loss watches that name an entry (R260). [log 56, DEDUCED] -/
def lossWatch (tid : Nat) (step : BitVec 64) (s : State) : State :=
  foldS (List.range 4) (fun j s =>
    let o := 0x60 + 4 * j
    if fget s pgCur o 12 1 = 1 ∧ fget s pgCur o 0 12 = tid then
      match (catE s tid).ring with
      | [] => s
      | now :: rest =>
        let earlier := (rest.filter fun x => !x.part && x.used).take (fget s pgCur o 16 6)
        let sum := earlier.foldl (fun a x => a + x.meanlog.toInt) (0 : Int)
        let n := earlier.length
        let spike := !earlier.isEmpty && now.used && !now.part &&
          decide ((fget s pgCur o 24 8 * 4096 * n : Int) < now.meanlog.toInt * n - sum)
        let s := whenS spike (lossEvent j tid 0 step) s
        whenS (decide (now.nsh.toNat % 2 ^ 15 ≠ 0)) (lossEvent j tid 1 step) s
    else s) s

/-- NONFINITE (R261): at most once per entry in any 4,096 steps. -/
def nonfinite (tid : Nat) (step : BitVec 64) (s : State) : State :=
  let e := catE s tid
  match e.ring with
  | [] => s
  | now :: _ =>
    let quiet := match e.nonfinAt with
      | some t => decide (step.toNat < t + 4096)
      | none => false
    if decide (now.nsh.toNat % 2 ^ 15 ≠ 0) && !quiet then
      let s := catMod tid (fun e => { e with nonfinAt := some step.toNat }) s
      action [4, tid, step.toNat] (raise pgCur 3 (sendEvent 8 [tid, step.toNat] s))
    else s

/-- Close every entry that is due, in index order, and run its watches (R257); a job that pauses at this tick closes the step that
ended in its last frame. -/
def closeSteps (s : State) : State :=
  foldS (s.cat.map (·.1)) (fun tid s =>
    let e := catE s tid
    let b := job s e.job
    let next := jobStep s b
    if e.mode ≠ 0 ∧ b.bound ∧ (b.st = 2 ∨ b.st = 3 ∨ (b.st = 4 ∧ (b.bg ∨ b.pauseTick = s.tick))) ∧ e.step < next then
      let t := e.stats
      let s := closeStep tid next s
      let s := whenS (decide (e.mode = 2) && decide (fget s pgCur 0x58 e.job 1 = 1)) (stagWatch tid t) s
      nonfinite tid e.step (lossWatch tid e.step s)
    else s) s

/-! ### Check ratios (R262) -/

/-- Put a job's ratio code: RATIOj.CUR, and the shadow of CHECK.CTL of each of its engines; slots come in order, so on an engine of two jobs
with AUTO = 1 the higher slot's code stands. [log 55, DEDUCED; 139, DESIGN CHOICE] -/
def putRatio (j code : Nat) (s : State) : State :=
  let old := fget s pgCur (0x48 + 4 * j) 12 3
  let s := foldS (job s j).engs (fun l s =>
    let p := pgEng (storeKey s l) 5
    let now := (tabGet (fun _ => none) s.shadow (ridx p 0x40)).getD (rget s p 0x40)
    if bitsOf now.toNat 0 3 = code then s
    else { s with shadow := tabSet (fun _ => none) s.shadow (ridx p 0x40) (some (BitVec.ofNat 32 (putBits now.toNat 0 3 code))) })
    (fset pgCur (0x48 + 4 * j) 12 3 code s)
  if old = code then s else raise pgCur 6 (action [5, j, code] s)

/-- The ratio of one slot: raise, hold and decay. While AUTO = 0 the host sets the code, which RATIOj.CUR follows (Table 15-13). [log 139, DESIGN CHOICE] -/
def ratioStep (j : Nat) (s : State) : State :=
  let b := job s j
  let o := 0x48 + 4 * j
  if fget s pgCur o 11 1 = 1 ∧ b.occupied ∧ b.bound then
    let t := s.tick.toNat
    let cur := fget s pgCur o 12 3
    if 0 < b.faults then
      let s := jobMod j (fun b => { b with faults := 0, holdTo := t + fget s pgCur o 16 16 }) s
      putRatio j (min cur (fget s pgCur o 8 3)) s
    else if b.holdTo ≤ t ∧ (t - b.holdTo) % 1024 = 0 ∧ b.holdTo ≠ t then
      let base := fget s pgCur o 0 3
      putRatio j (if cur < base then cur + 1 else if base < cur then cur - 1 else cur) s
    else putRatio j cur s
  else
    let s := whenS (b.occupied && b.bound) (fset pgCur o 12 3 (jobRatio s j)) s
    jobMod j (fun b => { b with faults := 0 }) s

/-! ### Thermal requests (R268) -/

/-- The thermal request of a zone, with the times it keeps. -/
def thermal (z : Nat) (s : State) : State :=
  let p := pgZone z
  let t := fget s p 0x48 0 8
  let now := s.refTick
  let st := stepOf s z
  let x := zone s z
  let hot := decide (fget s pgCur 0x44 0 8 ≤ t)
  let cool := decide (t ≤ fget s pgCur 0x44 8 8)
  let since := if cool then (if x.coolSince = 0 then now + 1 else x.coolSince) else 0
  let s := zoneMod z (fun x => { x with coolSince := since }) s
  let lately (o : Option Nat) (d : Nat) : Bool := match o with
    | some u => decide (now < u + d)
    | none => false
  let req := if hot then (if lately x.thermStepAt 100000 || lately x.thermUpAt 100000 then st else min 4 (st + 1))
    else if cool && decide (since + 1000000 ≤ now + 1) && !lately x.thermUpAt 1000000 then st - 1
    else st
  fset p 0x40 12 3 req (whenS hot (raise p 2) s)

/-! ### Power (R226, R263-R267) -/

/-- The cap in 0.1 W (Table 10-4). -/
def capW (s : State) : Nat := 10 * (450 + 10 * fget s pgCur 0x40 0 5)

/-- The clock ceiling of the cap, as a step code (Table 10-2). -/
def capCeiling (s : State) : Nat := if capW s < 5000 then 2 else 0

/-- Relative zone power k in hundredths (Table 10-3). -/
def kOf : Nat → Nat
  | 0 => 100
  | 1 => 80
  | 2 => 62
  | 3 => 46
  | _ => 33

/-- The predicted draw with every zone at step `st` is at most `lim` (0.1 W), exactly (R265). -/
def predictFits (s : State) (st lim : Nat) : Bool :=
  let d : Int := 100 * 80 * 62 * 46 * 33
  let p : Int := fget s pgCur 0x74 0 16
  let cut := (List.range 4).foldl (fun (a : Int) z =>
    let kz : Int := kOf (stepOf s z)
    a + (fget s (pgZone z) 0x4C 0 16 : Int) * (kz - kOf st) * (d / kz)) 0
  decide (p * d - cut ≤ (lim : Int) * d)

/-- Step 3's choice: the fastest step at or below the ceiling that fits the cap, or 0.8 GHz (R265). -/
def chooseStep (s : State) : Nat :=
  (((List.range 5).filter fun c => decide (capCeiling s ≤ c)).find? fun c => predictFits s c (capW s)).getD 4

/-- The ratio code of slot `j` under step 2 of R226 (R262). -/
def lowRatio (j : Nat) (s : State) : State :=
  let b := job s j
  let o := 0x48 + 4 * j
  if fget s pgCur o 11 1 = 1 ∧ b.occupied ∧ b.bound then
    let cur := fget s pgCur o 12 3
    let fl := fget s pgCur o 4 3
    let fl := if s.tick.toNat < b.holdTo then min fl 3 else fl
    putRatio j (max cur fl) (jobMod j (fun b => { b with ratioPre := some cur }) s)
  else s

/-- The ratio codes of before step 2 come back (R266), where the Curator still owns them (R262). -/
def restoreRatio (j : Nat) (s : State) : State :=
  let on := decide (fget s pgCur (0x48 + 4 * j) 11 1 = 1)
  match (job s j).ratioPre with
  | some c => whenS on (putRatio j c) (jobMod j (fun b => { b with ratioPre := none }) s)
  | none => s

/-- Change the Curator's working state. -/
def curMod (f : CurSt → CurSt) (s : State) : State := { s with cur := f s.cur }

/-- The next measure of R226 while the draw is above the cap. [log 55, DEDUCED] -/
def powerUp (p : Nat) (s : State) : State :=
  let s := curMod (fun c => { c with below := 0, prevP := p }) s
  if !s.cur.powerShed then raise pgCur 4 (action [6] (curMod (fun c => { c with powerShed := true, lastAct := 1 }) s))
  else if fget s pgCur 0x78 1 1 = 0 then
    action [7] (foldS (List.range 4) lowRatio (fset pgCur 0x78 1 1 1 (curMod (fun c => { c with lastAct := 2 }) s)))
  else
    let c := chooseStep s
    let s := curMod (fun c => { c with lastAct := 3 }) s
    if fget s pgCur 0x78 2 1 = 1 ∧ fget s pgCur 0x78 4 3 = c then s
    else action [8, c] (fset pgCur 0x78 4 3 c (fset pgCur 0x78 2 1 1 s))

/-- One measure comes back after 1,024 ticks well below the cap (R266). A power step that the ceiling has reached holds nothing back, so it
ends beside the next measure. [log 55, DEDUCED] -/
def powerDown (p : Nat) (s : State) : State :=
  let lim := capW s - 100
  let s := whenS (decide (fget s pgCur 0x78 4 3 ≤ capCeiling s)) (fun s => fset pgCur 0x78 2 1 0 (fset pgCur 0x78 4 3 0 s)) s
  let s' := curMod (fun c => { c with below := 0 }) s
  if fget s pgCur 0x78 2 1 = 1 then
    let c := fget s pgCur 0x78 4 3
    if predictFits s (c - 1) lim then
      let s := fset pgCur 0x78 4 3 (c - 1) s'
      action [9, c - 1] (whenS (decide (c - 1 = 0)) (fset pgCur 0x78 2 1 0) s)
    else s
  else if fget s pgCur 0x78 1 1 = 1 then
    if p + s.cur.ratioDraw ≤ lim then action [10] (foldS (List.range 4) restoreRatio (fset pgCur 0x78 1 1 0 s')) else s
  else if s.cur.powerShed then
    if p + s.cur.shedDraw ≤ lim then action [11] (curMod (fun c => { c with powerShed := false }) s') else s
  else s

/-- The power policy at a tick: the measures of R226 and the shedding of R264. [log 55, DEDUCED] -/
def powerPolicy (s : State) : State :=
  let p := fget s pgCur 0x74 0 16
  let cap := capW s
  let s := curMod (fun c =>
    let d := c.prevP - p
    { c with shedDraw := if c.lastAct = 1 then d else c.shedDraw, ratioDraw := if c.lastAct = 2 then d else c.ratioDraw,
             lastAct := 0 }) s
  let s := if cap < p then powerUp p s
    else if p + 300 ≤ cap then
      let s := curMod (fun c => { c with below := c.below + 1 }) s
      if 1024 ≤ s.cur.below then powerDown p s else s
    else curMod (fun c => { c with below := 0 }) s
  let lim := (if cap < 5000 then 44000 else 82700) * period s
  let above := decide (lim < (rget64 s pgCur 0xA0).toNat)
  let s := whenS (above && !s.cur.trafficShed) (fun s => raise pgCur 4 (action [12] s)) s
  let s := whenS (!above && s.cur.trafficShed) (action [13]) s
  curMod (fun c => { c with trafficShed := above }) s

/-- The coolant's second condition sheds BG work and limits the clocks (Table 10-6), decided here as the other measures are. [log 55, DEDUCED] -/
def coolPolicy (s : State) : State :=
  let hot := s.nd.coolOn.getD 1 false
  let s := whenS (hot && !s.cur.coolShed) (fun s => raise pgCur 4 (action [14] s)) s
  let s := whenS (!hot && s.cur.coolShed) (action [15]) s
  curMod (fun c => { c with coolShed := hot }) s

/-- BG shedding decided at the last tick takes effect (R226, R257): PSTATE.SHED. [log 55, DEDUCED] -/
def putShed (s : State) : State :=
  fset pgCur 0x78 0 1 (b2n (s.cur.powerShed || s.cur.trafficShed || s.cur.coolShed)) s

/-! ### Zone steps (R18, R257, R269, R349) -/

/-- The step a zone's own reasons ask for, and which: the slowest of the thermal request, the power step, the ceiling, the
zone's limit, the coolant limit and a step after a freeze. [log 51, DEDUCED] -/
def zoneAsk (s : State) (z : Nat) : Nat × Nat :=
  let p := pgZone z
  let st := stepOf s z
  let th := fget s p 0x40 12 3
  let pw := if fget s pgCur 0x78 2 1 = 1 then fget s pgCur 0x78 4 3 else 0
  let lim := max (max (capCeiling s) (fget s p 0x40 0 3)) (if s.cur.coolShed then 3 else 0)
  let fr := if (zone s z).froze || s.cur.guardDue then min 4 (st + 1) else 0
  let n := max (max th pw) (max lim fr)
  (n, if n = fr ∧ st < fr then 4 else if n = pw ∧ pw ≠ 0 ∧ th < pw then 2 else if n = lim ∧ th < lim then 3 else 1)

/-- The decided steps: in each closed set with a change, the slowest of its zones' (R18). A deferred step waits on (R210). [log 51, DEDUCED] -/
def decideSteps (s : State) : State :=
  let asks := (List.range 4).map (zoneAsk s)
  let ask (z : Nat) : Nat := (asks.getD z (0, 0)).1
  let changed (z : Nat) : Bool := decide (ask z ≠ stepOf s z)
  let s' := foldS (List.range 4) (fun z t =>
    let set := linkZones s [z]
    if set.any changed then
      let n := set.foldl (fun a y => max a (ask y)) 0
      let src := (set.find? fun y => decide (ask y = n) && changed y).getD z
      let t := fset (pgZone z) 0x40 16 3 n t
      let why := if ask z = n ∧ changed z then (asks.getD z (0, 0)).2 else 16 + src
      let set' := set.foldl (fun a y => a + 2 ^ y) 0
      zoneMod z (fun x => { x with why := why, froze := false }) (whenS (decide (n ≠ stepOf s z)) (rset (pgZone z) 0x60 (BitVec.ofNat 32 set')) t)
    else
      let keep := decide (fget s (pgZone z) 0x40 19 1 = 1)
      zoneMod z (fun x => { x with froze := false }) (whenS (!keep) (fset (pgZone z) 0x40 16 3 (stepOf s z)) t)) s
  curMod (fun c => { c with guardDue := false }) s'

/-- STEPLINKs to the other modules of a job's set for the zones whose step changes (R349). -/
def sendStepLinks (s : State) : State :=
  foldS (List.range 4) (fun j s =>
    let b := job s j
    let mask := rget s (pgAbf 0) (0x110 + 4 * j)
    let zs := (zoneSet s j).filter fun z => decide (fget s (pgZone z) 0x40 16 3 ≠ stepOf s z)
    if b.occupied && b.bound && !zs.isEmpty then
      let n := zs.foldl (fun a z => max a (fget s (pgZone z) 0x40 16 3)) 0
      foldS ((List.range 32).filter fun m => mask.getLsbD m && decide (m ≠ modNum s))
        (fun m => sendSys m 3 (sysBytes (j + modNum s * 2 ^ 8 + n * 2 ^ 16 + (s.tick + 1).toNat * 2 ^ 32))
          (.stepLink m j n (s.tick + 1))) s
    else s) s

/-- The standby policy (R272). -/
def standbyPolicy (s : State) : State :=
  let s := { s with nd := { s.nd with quiet := if s.nd.matched then 0 else s.nd.quiet + 1, matched := false } }
  let bg := (List.range 4).any fun j => (job s j).occupied && (job s j).bg
  if fget s pgCur 0x70 0 1 = 1 ∧ !bg ∧ fget s pgCur 0x70 8 24 ≤ s.nd.quiet then
    { s with pwr := { s.pwr with stbyReq := true } }
  else s

/-- Frame slack of an RT job (Table 10-1): of the frames that ended since the last tick, and its minimum over 1,024 frames. [log 56, DEDUCED] -/
def slackOf (j : Nat) (s : State) : State :=
  foldS (job s j).slacks (fun v s =>
    let h := (v :: tabGet (fun _ => ([] : List Int)) s.cur.slackHist j).take 1024
    let s := curMod (fun c => { c with slackHist := tabSet (fun _ => []) c.slackHist j h }) s
    rset pgCur (0x90 + 4 * j) (BitVec.ofInt 32 (h.foldl min v)) (rset pgCur (0x80 + 4 * j) (BitVec.ofInt 32 v) s))
    (jobMod j (fun b => { b with slacks := [] }) s)

/-- The Curator's first stage (R257): it closes the steps that are due; not while the Curator is out of service (R399). -/
def curateSteps (s : State) : State := whenS (enabled s pgCur) closeSteps s

/-- The stages of Curator processing after the steps are closed (R257). Out of service (R399) it still answers the temperatures and
decides the zones' steps, which cannot be disabled (R270). [log 55, DEDUCED; 61, DEDUCED] -/
def curate (s : State) : State :=
  let on := enabled s pgCur
  let s := whenS on (foldS (List.range 4) ratioStep) s
  let s := foldS (List.range 4) thermal s
  let s := coolPolicy (whenS on powerPolicy s)
  whenS on standbyPolicy (sendStepLinks (decideSteps s))

end Sys2Proof.Machine
end

