-- ==== Sys2Proof/Machine/Shares.lean ====
section
/-! DEFINITION. The position wheel of a hub (spec/12_stacks_memory.md R322-R325): the fixed positions, the placing of
shares, and the withdrawal of BG shares at the low power caps. -/

namespace Sys2Proof.Machine

/-- Owner codes of a wheel with its fixed positions only (R322, R323). -/
def fixedWheel : List Nat :=
  (List.range 64).map fun p => if p % 32 = 0 then 0xF else if p % 32 = 16 then 9 else 0

/-- Shares of a hub: owner code and log2 of the share, job slots first. -/
def hubShares (s : State) (h : Nat) : List (Nat × Nat) :=
  ((List.range 4).filterMap fun j =>
    let v := fget s (pgHub h) 0x60 (4 * j) 3
    if v = 7 then none else some (j + 1, v)) ++
  (List.range 4).flatMap fun q => ((acc s q).shares.filter fun p => decide (p.1 = h)).map fun p => (q + 5, p.2)

/-- Positions that shares take. -/
def shareSum (l : List (Nat × Nat)) : Nat := l.foldl (fun a p => a + 2 ^ p.2) 0

/-- Give a share the lowest free residue class of positions modulo 64/s (R324). [log 58, DEDUCED] -/
def placeShare (w : List Nat) (x : Nat × Nat) : List Nat :=
  let m := 64 / 2 ^ x.2
  match (List.range m).find? fun r => (List.range 64).all fun p => decide (p % m ≠ r) || decide (w.getD p 1 = 0) with
  | none => w
  | some r => w.zipIdx.map fun (v, p) => if p % m = r then x.1 else v

/-- Write a hub's wheel: its shares, largest first. [log 58, DEDUCED] -/
def packHub (h : Nat) (s : State) : State :=
  let l := hubShares s h
  let sorted := [5, 4, 3, 2, 1, 0].flatMap fun k => l.filter fun x => decide (x.2 = k)
  let w := sorted.foldl placeShare fixedWheel
  foldS (List.range 8) (fun r =>
    rset (pgHub h) (0x40 + 4 * r) (BitVec.ofNat 32 ((List.range 8).foldl (fun a i => a + w.getD (8 * r + i) 0 * 16 ^ i) 0))) s

/-- Positions a hub may allocate (R325). -/
def hubLimit (s : State) (h : Nat) : Nat := fget s (pgHub h) 0x64 0 6

/-- The least `k` with `2^k` at least `n`. -/
def shareLog (n : Nat) : Nat := ((List.range 7).find? fun k => decide (n ≤ 2 ^ k)).getD 7

/-- Give slot `j` a share in a hub. -/
def putShare (j h k : Nat) (s : State) : State := packHub h (fset (pgHub h) 0x60 (4 * j) 3 k s)

/-- Shares of the capture ports in a hub, as SCAP shows them. -/
def showCapture (h : Nat) (s : State) : State :=
  let v := ((List.range 4).flatMap fun q => (acc s q).shares.filter fun p => decide (p.1 = h)).head?
  fset (pgHub h) 0x60 16 3 ((v.map (·.2)).getD 7) s

/-- Withdraw BG shares of a hub, highest slot first, until it fits (R325); the first share a job loses sheds it, an action of the Curator
(R226). [log 55, DEDUCED; 58, DEDUCED] -/
def withdraw (h : Nat) (s : State) : State :=
  packHub h (foldS [3, 2, 1, 0] (fun j s =>
    let b := job s j
    if b.occupied && b.bg && decide (fget s (pgHub h) 0x60 (4 * j) 3 ≠ 7) && decide (hubLimit s h < shareSum (hubShares s h)) then
      let s := whenS b.withdrawn.isEmpty (fun s => raise pgCur 4 (action [16, j, h] s)) s
      jobMod j (fun b => { b with withdrawn := b.withdrawn ++ [h] }) (fset (pgHub h) 0x60 (4 * j) 3 7 s)
    else s) s)

/-- Withdrawn shares come back where they fit. [log 55, DEDUCED; 58, DEDUCED] -/
def giveBack (h : Nat) (s : State) : State :=
  foldS (List.range 4) (fun j s =>
    if (job s j).withdrawn.contains h && decide (16 + shareSum (hubShares s h) ≤ hubLimit s h) then
      let s := putShare j h 4 (jobMod j (fun b => { b with withdrawn := b.withdrawn.filter fun x => decide (x ≠ h) }) s)
      whenS (job s j).withdrawn.isEmpty (action [17, j, h]) s
    else s) s

/-- The positions follow the cap in force (R325). [log 58, DEDUCED] -/
def capShares (s : State) : State :=
  let lim := if capW s < 5000 then 32 else 60
  foldS (List.range 4) (fun h s =>
    if hubLimit s h = lim then s
    else
      let s := fset (pgHub h) 0x64 0 6 lim s
      if lim = 32 then withdraw h s else giveBack h s) s

/-- RT and capture shares that would not fit the low caps (R325). -/
def capBlocked (s : State) : Bool :=
  (List.range 4).any fun h => decide (32 < shareSum ((hubShares s h).filter fun x =>
    decide (4 < x.1) || !(job s (x.1 - 1)).bg))

end Sys2Proof.Machine
end

