-- ==== Sys2Proof/Machine/AccCfg.lean ====
section
/-! DEFINITION. The configuration of an Accession port (spec/11_accession_ports.md Tables 11-1, 11-6) and the rates of its
capture rings (R296). -/

namespace Sys2Proof.Machine

/-! ### Configuration (Tables 11-1, 11-6) -/

/-- LSTAT.STATE: 0 stopped, 1 training, 2 RUN, 3 RELINK. -/
def accState (s : State) (q : Nat) : Nat := fget s (pgAcc q) 0x100 0 2

/-- L. -/
def accL (s : State) (q : Nat) : Nat := fget s (pgAcc q) 0x44 0 5 + 1
/-- M. -/
def accM (s : State) (q : Nat) : Nat := fget s (pgAcc q) 0x44 5 3 + 1
/-- N'. -/
def accNp (s : State) (q : Nat) : Nat :=
  match fget s (pgAcc q) 0x44 13 2 with
  | 0 => 8
  | 1 => 12
  | _ => 16
/-- S. -/
def accS (s : State) (q : Nat) : Nat := fget s (pgAcc q) 0x44 17 5 + 1
/-- F. -/
def accF (s : State) (q : Nat) : Nat := fget s (pgAcc q) 0x44 22 6 + 1
/-- E. -/
def accE (s : State) (q : Nat) : Nat := fget s (pgAcc q) 0x44 28 4 + 1
/-- D = 2^k (R299). -/
def accD (s : State) (q : Nat) : Nat := 2 ^ fget s (pgAcc q) 0x84 8 4
/-- N of the FFT (R300). -/
def accN (s : State) (q : Nat) : Nat := 2 ^ (fget s (pgAcc q) 0x84 12 4 + 8)
/-- Lane rate in units of 10 Mbit/s. -/
def accRate (s : State) (q : Nat) : Nat := fget s (pgAcc q) 0x48 16 16
/-- FE0.KIND (Table 11-3). -/
def accKind (s : State) (q : Nat) : Nat := fget s (pgAcc q) 0x84 19 2
/-- ROWS. -/
def accRows (s : State) (q : Nat) : Nat := fget s (pgAcc q) 0x9C 0 8 + 1
/-- COLS. -/
def accCols (s : State) (q : Nat) : Nat := 32 * fget s (pgAcc q) 0x9C 8 6
/-- HOP. -/
def accHop (s : State) (q : Nat) : Nat := fget s (pgAcc q) 0x98 0 17
/-- Instants in one LEMC period, Λ (R290). -/
def accLambda (s : State) (q : Nat) : Nat := 256 * accE s q * accS s q / accF s q

/-- A ring is enabled. -/
def ringEn (s : State) (q : Nat) (dec : Bool) : Bool := decide (fget s (pgAcc q) 0xC0 (b2n dec) 1 = 1)

/-- A ring's write rate in bytes per second, as a fraction. -/
def ringRate (s : State) (q : Nat) (dec : Bool) : Nat × Nat :=
  if !ringEn s q dec then (0, 1)
  else if dec then (4 * accRate s q * 10 ^ 7 * accL s q * 64, 66 * accM s q * accNp s q * accD s q)
  else (accRate s q * 10 ^ 7 * accL s q * 8, 66)

/-- The sum of two fractions. -/
def fracAdd (a b : Nat × Nat) : Nat × Nat := (a.1 * b.2 + b.1 * a.2, a.2 * b.2)

/-- Both rings' rate. -/
def captureRate (s : State) (q : Nat) : Nat × Nat := fracAdd (ringRate s q false) (ringRate s q true)

/-- Elements that go out together: those of a line, at 12 bits those of three lines (R294). -/
def ringUnit (s : State) (q : Nat) (dec : Bool) : Nat := if dec then 16 else if accNp s q = 12 then 128 else 512 / accNp s q

/-- Lines that go out together. -/
def ringLines (s : State) (q : Nat) (dec : Bool) : Nat := if !dec && decide (accNp s q = 12) then 3 else 1

/-- Elements per instant, or per decimated sample. -/
def ringEls (s : State) (q : Nat) (dec : Bool) : Nat := if dec then 1 else accM s q

/-- RAWC0 or DECD0. -/
def ringZero (s : State) (q : Nat) (dec : Bool) : BitVec 64 := rget64 s (pgAcc q) (if dec then 0xD0 else 0xC8)

/-- The first group that starts at instant `c` or after it, counted from the ring's start (R294). -/
def ringGroup (s : State) (q : Nat) (dec : Bool) (c : BitVec 64) : Nat :=
  ((c - ringZero s q dec).toNat * ringEls s q dec + ringUnit s q dec - 1) / ringUnit s q dec

/-- The first instant that no group before group `u` holds whole. -/
def ringCount (s : State) (q : Nat) (dec : Bool) (u : Nat) : BitVec 64 :=
  ringZero s q dec + BitVec.ofNat 64 (u * ringUnit s q dec / ringEls s q dec)

/-- The first instant that starts in group `u` or after it. -/
def ringFirst (s : State) (q : Nat) (dec : Bool) (u : Nat) : BitVec 64 :=
  ringZero s q dec + BitVec.ofNat 64 ((u * ringUnit s q dec + ringEls s q dec - 1) / ringEls s q dec)

/-- Capture bytes per frame of a port. -/
def captureTraffic (s : State) (q : Nat) : Nat :=
  let (n, d) := captureRate s q
  (n * period s + d * 10 ^ 8 - 1) / (d * 10 ^ 8)

end Sys2Proof.Machine
end

