-- ==== Sys2Proof/Machine/FrontEnd.lean ====
section
/-! DEFINITION. The front end of an Accession port (spec/11_accession_ports.md R291, R294, R298-R304): samples, mixer, decimator,
FFT and tile codes, and the packing of the capture rings. Window, filter and oscillator words are not printed: free values. -/

namespace Sys2Proof.Machine

/-- The 24-bit sample of an N'-bit code: its upper N bits as a two's-complement number, the lower ones zero, widened exactly
(R291, R298). -/
def feSample (np n : Nat) (w : Nat) : Int :=
  let k := w % 2 ^ np / 2 ^ (np - n) * 2 ^ (np - n)
  (if 2 ^ (np - 1) ≤ k then (k : Int) - 2 ^ np else k) * 2 ^ (24 - np)

/-- `v / d` to nearest, ties to even (R303). -/
def nearest (v : Int) (d : Nat) : Int :=
  let q := v.fdiv d
  let r := 2 * v.fmod d
  if r < d ∨ (r = d ∧ q % 2 = 0) then q else q + 1

/-- Saturation at the limits of `w` bits, and whether it was reached (R303). -/
def satBits (w : Nat) (v : Int) : Int × Bool :=
  if v < -(2 ^ (w - 1)) then (-(2 ^ (w - 1)), true) else if 2 ^ (w - 1) ≤ v then (2 ^ (w - 1) - 1, true) else (v, false)

/-- A complex value of the chain: real and imaginary code, each with its saturation. -/
abbrev FeVal := (Int × Bool) × (Int × Bool)

/-- Cosine and sine of n / d turns, d a power of two from 8 on: the octant's, from an argument of at most 1/8. -/
def circle (n d : Nat) : FVal × FVal :=
  let o := 8 * (n % d) / d
  let r := n % d - o * (d / 8)
  let t := rDiv (rInt (if o % 2 = 1 then d / 8 - r else r : Nat)) (rInt d)
  let c := trigTrue true t
  let s := trigTrue false t
  match o with
  | 0 => (c, s)
  | 1 => (s, c)
  | 2 => (s.negate, c)
  | 3 => (c.negate, s)
  | 4 => (c.negate, s.negate)
  | 5 => (s.negate, c.negate)
  | 6 => (s, c.negate)
  | _ => (c, s.negate)

/-- A code held to within `n` codes of the number `a`. -/
def heldInt (n : Int) (a : FVal) (v : Int) : Int :=
  max (-floorVal (rAdd (rInt n) a.negate)) (min (floorVal (rAdd a (rInt n))) v)

/-- The oscillator's cosine and sine for the upper 20 bits of the phase, in units of 2^-19 (R298): its words, within one code of the
functions. [log 64, DESIGN CHOICE] -/
def feOsc (ph : BitVec 20) : Int × Int :=
  let w := Config.feWave ph
  let t := circle ph.toNat (2 ^ 20)
  ((satBits 20 (heldInt 1 (t.1.scale 19) w.1.toInt)).1, (satBits 20 (heldInt 1 (t.2.scale 19) w.2.toInt)).1)

/-- The mixer's output at instant `c`, from the codes of the instants from `first` on, converter 0 first (R298). -/
def feMix (s : State) (q : Nat) (first : Nat) (codes : List (BitVec 16)) (c : Int) : FeVal :=
  let p := pgAcc q
  let np := accNp s q
  let at' (m : Nat) : Int :=
    if (first : Int) ≤ c then feSample np (fget s p 0x44 8 5) ((codes.getD ((c - first).toNat * accM s q + m) 0).toNat) else 0
  let i := at' (fget s p 0x84 0 3)
  let k := if fget s p 0x84 6 1 = 1 then at' (fget s p 0x84 3 3) else 0
  if fget s p 0x84 7 1 = 1 then
    let ph := (((rget64 s p 0x90).toNat % 2 ^ 48 : Int) + ((rget64 s p 0x88).toNat % 2 ^ 48 : Int) * c).emod (2 ^ 48)
    let (co, si) := feOsc (BitVec.ofInt 20 (ph.fdiv (2 ^ 28)))
    (satBits 24 (nearest (i * co + k * si) (2 ^ 19)), satBits 24 (nearest (k * co - i * si) (2 ^ 19)))
  else ((i, false), (k, false))

/-- Sample `j` behind `k` halfband stages of 55 symmetric taps, each of which halves the rate (R299): the latest input of a stage's
output `j` is its input `2 j + 1`. -/
def feDec (x : Int → FeVal) : Nat → Int → FeVal
  | 0, j => x j
  | k + 1, j =>
    let sum := (List.range 55).foldl (fun (a : Int × Int) (i : Nat) =>
      let y := feDec x k (2 * j + 1 - (i : Int))
      let h := Config.feTap (k + 1) (min i (54 - i))
      (a.1 + h * y.1.1, a.2 + h * y.2.1)) (0, 0)
    (satBits 24 (nearest sum.1 (2 ^ Config.feTapBits)), satBits 24 (nearest sum.2 (2 ^ Config.feTapBits)))

/-- `2^16 log2 n` to nearest, from `2^17 log2 n` rounded down. -/
def log2Code (n : Nat) : Int := ((Nat.log2 (n ^ 131072) : Int) + 1).fdiv 2

/-- The printed form of a window at i / 65536 (R300), in units of 2^-16: Hann and the usual four-term Blackman-Harris; none for a
flat-top, which has several. [log 124, PRESUMED] -/
def winTrue (win i : Nat) : Option FVal :=
  let c (k : Nat) : FVal := (circle (k * i) 65536).1
  let sum (l : List Int) (d : Int) : FVal :=
    rDiv ((l.zipIdx.foldl (fun a (x, k) => rAdd a (rMul (rInt x) (c k))) .zero).scale 16) (rInt d)
  match win with
  | 1 => some (sum [1, -1] 2)
  | 2 => some (sum [35875, -48829, 14128, -1168] 100000)
  | _ => none

/-- The window coefficient of point `i` of `n`, in units of 2^-16 (R300): 1 for the rectangular table; tables 4 to 7 as a WINDOW section of
the firmware in force has them. [log 64, DESIGN CHOICE; 124, PRESUMED] -/
def feWindow (s : State) (win n i : Nat) : Int :=
  let at' := i * (65536 / n)
  if win = 0 then 2 ^ 16
  else match tabGet (fun _ => []) s.sec.windows win with
    | [] =>
      let w := (Config.feWin win at').toInt
      match winTrue win at' with
      | some t => heldInt 1 t w
      | none => w
    | bs => (BitVec.ofNat 18 (leNat ((bs.drop (4 * at')).take 4))).toInt

/-- POWER's exact sum of |X_b|^2 over bins, in units of 2^-46 (R301). -/
def fePower (bins : List FeVal) : Nat := bins.foldl (fun a x => a + (x.1.1 * x.1.1 + x.2.1 * x.2.1).toNat) 0

/-- X_b of R300 in codes of 2^-23, from the windowed samples in units of 2^-39. -/
def binTrue (n : Nat) (zs : List (Int × Int)) (b : Nat) : FVal × FVal :=
  let t := zs.zipIdx.foldl (fun (a : FVal × FVal) (z, i) =>
    let (c, s) := circle (i * (b + n / 2)) n
    (rAdd a.1 (rAdd (rMul (rInt z.1) c) (rMul (rInt z.2) s)), rAdd a.2 (rAdd (rMul (rInt z.2) c) (rMul (rInt z.1) s).negate)))
    (.zero, .zero)
  let d : Int := -(16 + Nat.log2 n : Nat)
  (t.1.scale d, t.2.scale d)

/-- The FFT engine's bin, within 2^-19, 16 codes, of X_b (R300, R303). [log 64, DESIGN CHOICE] -/
def feBin (n : Nat) (zs : List (Int × Int)) (b : Nat) : Int × Int :=
  let v := Config.feBin n zs b
  let t := binTrue n zs b
  (heldInt 16 t.1 v.1, heldInt 16 t.2 v.2)

/-- The codes of the row that ends at decimated sample `e`, each with its saturation (R300, R301, Table 11-3). [log 64, DESIGN CHOICE] -/
def feRow (s : State) (q : Nat) (z : Int → FeVal) (e : Int) : List (Int × Bool) :=
  let cols := accCols s q
  let n := accN s q
  let b := 2 ^ fget s (pgAcc q) 0x84 21 3
  let bin0 := fget s (pgAcc q) 0x9C 14 16
  let zs := (List.range n).map fun (i : Nat) =>
    let x := z (e - n + 1 + i)
    let w := feWindow s (fget s (pgAcc q) 0x84 16 3) n i
    (w * x.1.1, w * x.2.1)
  let bin (i : Nat) : FeVal := let x := feBin n zs i; (satBits 24 x.1, satBits 24 x.2)
  let sums := (List.range cols).map fun c => fePower ((List.range b).map fun i => bin (bin0 + c * b + i))
  match accKind s q with
  | 0 => (List.range (cols / 2)).flatMap fun i => let x := z (e - ((cols / 2 : Nat) : Int) + 1 + i); [x.1, x.2]
  | 1 => (List.range (cols / 2)).flatMap fun i => let x := bin (bin0 + i); [x.1, x.2]
  | 2 => sums.map fun p => satBits 24 (nearest p (b * 2 ^ 24))
  | _ => sums.map fun p =>
    if p = 0 then (-(64 * 2 ^ 16), false)
    else satBits 24 (log2Code p - 2 ^ 16 * (46 + Nat.log2 b) + ((Config.feLogErr p % 5 : Nat) : Int) - 2)

/-- The codes of frame n's tile, row-major, from the instants' codes (R302). -/
def feTile (s : State) (q : Nat) (first : BitVec 64) (codes : List (BitVec 16)) : List (Int × Bool) :=
  let z := feDec (feMix s q first.toNat codes) (fget s (pgAcc q) 0x84 8 4)
  let en : Int := ((acc s q).bn.toNat / accD s q : Nat) - 1
  (List.range (accRows s q)).flatMap fun r => feRow s q z (en - ((accRows s q - 1 - r) * accHop s q : Nat))

/-- An element of the decimated ring: I and Q, each the upper 16 bits of the decimator's output (R294, R303). -/
def decWord (i k : Int) : Nat :=
  let h (v : Int) : Nat := (BitVec.ofInt 16 (satBits 16 (nearest v 256)).1).toNat
  h i + 2 ^ 16 * h k

/-- Instants of a gap (R308). -/
def inGap (a : AccPort) (i : Nat) : Bool :=
  a.gapFrom.any (fun g => decide (g.toNat ≤ i)) || a.gap.any fun g => decide (g.1.toNat ≤ i) && decide (i < g.2.toNat)

/-- The codes of instants from `first` on, zero for those of a gap (R308, Table 11-4). -/
def liveCodes {w : Nat} (s : State) (q first : Nat) (codes : List (BitVec w)) : List (BitVec w) :=
  codes.zipIdx.map fun (x, j) => if inGap (acc s q) (first + j / max 1 (accM s q)) then 0 else x

/-- The codes of the raw ring's elements from group `u` on, zero for the instants of a gap (R294, R308). -/
def gapZeros (s : State) (q u : Nat) (codes : List (BitVec 24)) : List Nat :=
  let c0 := (ringZero s q false).toNat
  codes.zipIdx.map fun (x, j) => if inGap (acc s q) (c0 + (u * ringUnit s q false + j) / accM s q) then 0 else x.toNat

/-- Whole lines of elements of `w` bits, element `j` in bits `[w j + w - 1 : w j]` of the string of lines (R34, R294). -/
def ringPack (w : Nat) (els : List Nat) : List Line :=
  let v := els.zipIdx.foldl (fun a (x, j) => a + x % 2 ^ w * 2 ^ (w * j)) 0
  (List.range (els.length * w / 512)).map fun i => BitVec.ofNat 512 (v / 2 ^ (512 * i))

end Sys2Proof.Machine
end

