-- ==== Sys2Proof/Machine/Folio.lean ====
section
/-! DEFINITION. Folios (spec/16_startup_and_identity.md R415, R423-R429, R433) and test units
(spec/09_checksums_replay_and_faults.md R250-R252): parsing, the checks of Table 16-9, installation, boot-store writes,
and the units that run on idle engines. -/

namespace Sys2Proof.Machine

/-- A little-endian field of a byte string. -/
def leAt (bs : List Byte) (off n : Nat) : Nat := leNat ((bs.drop off).take n)

/-- The identity secret key (R429). -/
def identityKey : List Byte :=
  (sha512 (("IL4820-IDENTITY".toList.map fun c => BitVec.ofNat 8 c.toNat) ++ Config.identitySeed)).take 32

/-- The certificate of the identity key: the 192 bytes of R430's layout. -/
def certificate : List Byte :=
  leBytes 4 0x54435653 ++ leBytes 2 1 ++ leBytes 2 0 ++ leBytes 8 Config.serial.toNat ++ leBytes 4 0x30323834 ++ leBytes 1 0x41 ++ leBytes 3 0 ++
    leBytes 8 Config.certIssued.toNat ++ edPublic identityKey ++ (sha512 Config.rootKey).take 8 ++ List.replicate 56 0 ++
    leBytes 64 Config.certSig.toNat

/-! ### Parsing (R423, R424) -/

/-- A folio header (Table 16-7). -/
structure FHead where
  kind : Nat
  persist : Bool
  bump : Bool
  length : Nat
  nsect : Nat
  series : Nat
  fver : Nat
  secver : Nat
  sigs : Nat
  serial : Nat
  sectOff : Nat
  sigOff : Nat

/-- The header of a folio. -/
def fHead (bs : List Byte) : FHead :=
  { kind := leAt bs 6 1, persist := decide (bitsOf (leAt bs 7 1) 0 1 = 1), bump := decide (bitsOf (leAt bs 7 1) 1 1 = 1),
    length := leAt bs 8 4, nsect := leAt bs 12 2, series := leAt bs 14 2, fver := leAt bs 16 4, secver := leAt bs 20 1,
    sigs := leAt bs 29 1 % 8, serial := leAt bs 32 8, sectOff := leAt bs 40 4, sigOff := leAt bs 44 4 }

/-- A section table entry. -/
structure FSect where
  ty : Nat
  off : Nat
  len : Nat
  arg : Nat

/-- The sections of a folio. -/
def fSects (bs : List Byte) : List FSect :=
  (List.range (fHead bs).nsect).map fun i =>
    let o := (fHead bs).sectOff + 16 * i
    { ty := leAt bs o 2, off := leAt bs (o + 4) 4, len := leAt bs (o + 8) 4, arg := leAt bs (o + 12) 4 }

/-- The bytes of a section. -/
def FSect.bytes (bs : List Byte) (x : FSect) : List Byte := (bs.drop x.off).take x.len

/-- Signatures present. -/
def FHead.nsig (h : FHead) : Nat := bitsOf h.sigs 0 1 + bitsOf h.sigs 1 1 + bitsOf h.sigs 2 1

/-- The folio digest (R423). -/
def folioDigest (bs : List Byte) : List Byte := sha512 (bs.take (fHead bs).length)

/-- A section is owner-scope (Table 16-8A). -/
def ownerScope (bs : List Byte) (x : FSect) : Bool :=
  decide (x.ty = 3) || decide (x.ty = 4) || decide (x.ty = 6) || (decide (x.ty = 5) && decide (16 ≤ leAt (x.bytes bs) 0 1 % 32))

/-- A firmware folio is a supplement (R424). -/
def isSupplement (bs : List Byte) : Bool := decide ((fHead bs).kind = 1) && (fSects bs).all (ownerScope bs)

/-! ### The checks of Table 16-9 -/

/-- 0x01: the parts of the header agree, and the sections lie between the section table and SIGOFF. [log 75, DEDUCED] -/
def folioForm (bs : List Byte) : Bool :=
  let h := fHead bs
  decide (leAt bs 0 4 = 0x494C4F46) && decide (leAt bs 4 2 = 1) && decide (1 ≤ h.nsig) && decide (h.sigOff % 64 = 0) &&
    decide (h.length = h.sigOff + 64 * h.nsig) && decide (h.length ≤ bs.length) && decide (128 ≤ h.sectOff) &&
    decide (h.sectOff + 16 * h.nsect ≤ h.sigOff) &&
    (fSects bs).all fun x =>
      decide (x.off % 64 = 0) && decide (h.sectOff + 16 * h.nsect ≤ x.off) && decide (x.off + x.len ≤ h.sigOff)

/-- 0x02: the folio is for this part and module; a provisioning folio must name the module (R426). [log 75, DEDUCED] -/
def folioPart (bs : List Byte) : Bool :=
  let h := fHead bs
  decide (leAt bs 24 4 = 0x30323834) && decide (leAt bs 28 1 = 0x41) &&
    ((decide (h.serial = 0) && decide (h.kind ≠ 4)) || decide (h.serial = Config.serial.toNat))

/-- 0x03: section types by kind, and the size of the boot-store slot (Table 16-3). -/
def folioTypes (bs : List Byte) : Bool :=
  let h := fHead bs
  let tys := (fSects bs).map (·.ty)
  match h.kind with
  | 1 => tys.all (fun t => decide (1 ≤ t) && decide (t ≤ 5)) && decide (h.length ≤ 8 * 2 ^ 20)
  | 2 => tys.all (fun t => decide (t = 6)) && decide (h.length ≤ 8 * 2 ^ 20)
  | 3 => tys.all (fun t => decide (t = 7)) && decide (h.length ≤ 2 ^ 20)
  | 4 => tys.all fun t => decide (t = 8) || decide (t = 9)
  | _ => false

/-- 0x04: the signatures of Table 16-8B are present. [log 75, DEDUCED] -/
def folioSigs (sec : SecSt) (bs : List Byte) : Bool :=
  let h := fHead bs
  let root := decide (bitsOf h.sigs 0 1 = 1)
  let owner := decide (bitsOf h.sigs 1 1 = 1)
  let ident := decide (bitsOf h.sigs 2 1 = 1)
  let cosign := sec.fuseNow.1
  match h.kind with
  | 1 =>
    if isSupplement bs then (if !sec.ownerEn then root else if cosign then owner else root || owner)
    else root && (!(sec.ownerEn && cosign) || owner)
  | 2 => if !sec.ownerEn then root else if cosign then owner else root || owner
  | 3 => ident
  | _ => root || sec.ownerEn

/-- 0x05: every signature present verifies; they stand in the order root, owner, identity. -/
def folioVerifies (sec : SecSt) (bs : List Byte) : Bool :=
  let h := fHead bs
  let keys := (if bitsOf h.sigs 0 1 = 1 then [Config.rootKey] else []) ++
    (if bitsOf h.sigs 1 1 = 1 then [if sec.ownerEn then sec.ownerKey else []] else []) ++
    (if bitsOf h.sigs 2 1 = 1 then [edPublic identityKey] else [])
  keys.zipIdx.all fun (k, i) => decide (k.length = 32) && edVerify k (bs.take h.sigOff) ((bs.drop (h.sigOff + 64 * i)).take 64)

/-- 0x07: R252 permits installation: a higher version of its series, or a free place among four. -/
def testFits (sec : SecSt) (bs : List Byte) : Bool :=
  let h := fHead bs
  match sec.folios.find? fun f => decide ((fHead f.bytes).series = h.series) with
  | some f => decide ((fHead f.bytes).fver < h.fver)
  | none => decide (sec.folios.length < 4)

/-- The first check of Table 16-9 that fails; 0 for none. [log 75, DEDUCED] -/
def folioCheck (sec : SecSt) (bs : List Byte) : Nat :=
  let h := fHead bs
  if !folioForm bs then 1
  else if !folioPart bs then 2
  else if !folioTypes bs then 3
  else if !folioSigs sec bs then 4
  else if !folioVerifies sec bs then 5
  else if h.kind = 1 ∧ h.secver < sec.secver then 6
  else if h.kind = 2 ∧ testFits sec bs = false then 7
  else if h.kind = 4 ∧ sec.ownerEn then 8
  else 0

/-! ### Results and boot-store writes (R415, R427, R428) -/

/-- Change the security block. -/
def secMod (f : SecSt → SecSt) (s : State) : State := { s with sec := f s.sec }

/-- The result of a folio: SEC.FOLIOST, its event and EVENT 0x000D. -/
def folioResult (bs : List Byte) (code : Nat) (s : State) : State :=
  let s := rset pgSec 0xB8 (BitVec.ofNat 32 (code + (fHead bs).kind % 16 * 2 ^ 8 + 2 ^ 31)) s
  raise pgSec 1 (sendEvent 0x000D [leNat ((folioDigest bs).take 8), b2n (decide (code ≠ 0)), code] s)

/-- A boot-store write starts: SEC.STORE.BUSY. -/
def storeStart (slot : Nat) (bs : List Byte) (s : State) : State :=
  fset pgSec 0xC4 8 1 1 (secMod (fun x => { x with writing := some (slot, bs) }) s)

/-- Boot-store slots by number: FW0, FW1, SUPP, TRAIN, TEST0-TEST3. An empty slot is the empty string; FW0 holds the
factory's base folio until it is written, and an emptied FW0 is a single 0 byte. [log 74, DESIGN CHOICE] -/
def storeGet (s : State) (slot : Nat) : List Byte := tabGet (fun _ => []) s.sec.store slot

/-- Put a slot's contents. [log 74, DESIGN CHOICE] -/
def storePut (slot : Nat) (bs : List Byte) (s : State) : State :=
  secMod (fun x => { x with store := tabSet (fun _ => []) x.store slot (if slot = 0 ∧ bs.isEmpty then [0] else bs) }) s

/-- FW0 still holds the factory's base folio. [log 74, DESIGN CHOICE] -/
def factoryFw (s : State) : Bool := (storeGet s 0).isEmpty

/-- A slot verifies. -/
def storeOk (s : State) (slot : Nat) : Bool :=
  (decide (slot = 0) && factoryFw s) || decide (folioCheck { s.sec with folios := [] } (storeGet s slot) = 0)

/-- SEC.STORE shows which slots verify. -/
def showStore (s : State) : State :=
  foldS (List.range 8) (fun i => fset pgSec 0xC4 i 1 (b2n (storeOk s i))) s

/-- The TEST slot a test folio goes to: that of its series, else a free one. -/
def testSlot (s : State) (bs : List Byte) : Option Nat :=
  match [4, 5, 6, 7].find? fun i => !(storeGet s i).isEmpty && decide ((fHead (storeGet s i)).series = (fHead bs).series) with
  | some i => some i
  | none => [4, 5, 6, 7].find? fun i => (storeGet s i).isEmpty

/-- Install a test folio; one that was installed since the last cold reset goes on with its counts (R252). -/
def installTest (pushed : Bool) (bs : List Byte) (s : State) : State :=
  let new : Folio := { bytes := bs.take (fHead bs).length, pushed := pushed }
  let f := match s.sec.gone.find? fun o => decide (o.bytes = new.bytes) with
    | some o => { o with pushed := pushed }
    | none => new
  secMod (fun x =>
    match x.folios.findIdx? fun g => decide ((fHead g.bytes).series = (fHead bs).series) with
    | some i =>
      { x with folios := x.folios.set i f, gone := (x.folios.drop i).take 1 ++ x.gone, passedOn := x.passedOn.filter fun p => decide (p.1 ≠ i) }
    | none => { x with folios := x.folios ++ [f] }) s

/-- Fuses a provisioning folio blows; they take effect at the next reset (R428), and a fuse that is blown stays so (R426). [log 74, DESIGN CHOICE] -/
def blowFuses (bs : List Byte) (s : State) : State :=
  secMod (fun x => (fSects bs).foldl (fun x y =>
    if y.ty = 8 then { x with ownerNext := if x.ownerEn || !x.ownerNext.isEmpty then x.ownerNext else (y.bytes bs).take 32 }
    else
      let w := leAt (y.bytes bs) 0 4
      let old := x.fuseNext.getD x.fuseNow
      { x with fuseNext := some (old.1 || decide (bitsOf w 0 1 = 1), old.2 || decide (bitsOf w 1 1 = 1)) }) x) s

/-- A range of the Stacks is populated (R314). -/
def rangeOk (off n : Nat) : Bool := decide (off < 2 ^ 40) && decide (off % 2 ^ 38 + n ≤ 0x3070000000)

/-- The firmware slot that is not in force. -/
def otherFw (s : State) : Nat := 1 - fget s pgSec 0xBC 20 1

/-- A folio that passed its checks acts by its kind (R428). [log 75, DEDUCED] -/
def folioAct (bs : List Byte) (s : State) : State :=
  let h := fHead bs
  let bs := bs.take h.length
  match h.kind with
  | 1 => storeStart (if isSupplement bs then 2 else otherFw s) bs s
  | 2 =>
    let s := folioResult bs 0 (installTest true bs s)
    if h.persist then
      match testSlot s bs with
      | some i => storeStart i bs s
      | none => folioResult bs 9 s
    else s
  | 3 => storeStart 3 bs s
  | _ => folioResult bs 0 (blowFuses bs s)

/-- The bytes of the folio at a Stacks offset, or the range is not populated. -/
def folioAt (s : State) (off : Nat) : Option (List Byte) :=
  if !rangeOk off 128 then none
  else
    let hd := stkBytes s off 128
    if leAt hd 0 4 ≠ 0x494C4F46 then some hd
    else if !rangeOk off (fHead hd).length then none
    else some (stkBytes s off (fHead hd).length)

/-- The bytes of the Night Desk's SRAM from an offset on (R434). -/
def sramAt (s : State) (off n : Nat) : List Byte := (List.range n).map fun i => tabGet (fun _ => 0) s.nd.sram (off + i)

/-- The module waits for a recovery image: Fault-hold with boot condition 0x03 (R434). -/
def recovery (s : State) : Bool := decide (pstate s = 5) && decide (fget s pgSec 0xBC 8 8 = 3)

/-- A DOORBELL FOLIO acts (R427, R428, R434). [log 75, DEDUCED] -/
def folioBell (off : Nat) (s : State) : State :=
  if recovery s then
    let bs := sramAt s off (max 128 (min (8 * 2 ^ 20) (fHead (sramAt s off 128)).length))
    let c := folioCheck s.sec bs
    let c := if c = 0 ∧ (fHead bs).kind ≠ 1 then 3 else c
    if c ≠ 0 then folioResult bs c s else storeStart 0 (bs.take (fHead bs).length) s
  else
    match folioAt s off with
    | none => folioResult [] 10 s
    | some bs =>
      let c := folioCheck s.sec bs
      if c ≠ 0 then folioResult bs c s else folioAct bs s

/-- Doorbells act one at a time in arrival order, each when no boot-store write is under way (R378, R428). -/
def runBells : Nat → State → State
  | 0, s => s
  | n + 1, s =>
    match s.sec.doorbells with
    | [] => s
    | v :: t =>
      if s.sec.writing.isSome then s
      else runBells n (folioBell v.toNat (secMod (fun x => { x with doorbells := t }) s))

/-- BOOT_STORE_WRITE (R415, R427, R428): the write ends; a slot whose write did not complete is empty. A doorbell's folio has its result;
the Registrar's own training folio (R417) has none. -/
def doBootStoreWrite (ok : Bool) (s : State) : State :=
  match s.sec.writing with
  | none => s
  | some (slot, bs) =>
    let own := s.sec.ownWrite
    let s := secMod (fun x => { x with writing := none, ownWrite := false }) s
    let s := showStore (fset pgSec 0xC4 8 1 0 (storePut slot (if ok then bs else []) s))
    let s := if ok then raise pgSec 2 s else s
    let s := if own then s
      else if !ok then folioResult bs 9 s
      else if (fHead bs).kind = 2 then s
      else folioResult bs 0 s
    runBells s.sec.doorbells.length s

/-! ### Test units (R250-R252, R425) -/

/-- A test unit: `image` is its schedule image, `row`, `col` and `sfu` the maps in force while it runs. -/
structure TUnit where
  unit : Nat
  cls : Nat
  runCyc : Nat
  expect : List (Nat × Nat × Line)
  image : List Byte
  row : Option (Nat × Nat)
  col : Option (Nat × Nat)
  sfu : Option Nat

/-- A substitution of a unit: the physical and the logical row or column. -/
def unitMap (w : Nat) : Option (Nat × Nat) := if w % 256 = 0xFF then none else some (bitsOf w 0 7, bitsOf w 8 7)

/-- The input patterns of a unit: the lines of its image's CARREL sections, with their places. -/
def TUnit.inputs (u : TUnit) : List (Nat × Line) :=
  let b := u.image
  (List.range (leAt b 50 2)).flatMap fun i =>
    let o := leAt b 52 4 + 32 * i
    if leAt b o 2 = 2 then
      (List.range (leAt b (o + 16) 8 / 64)).map fun n =>
        (leAt b (o + 24) 8 + n, lineOfBytes ((b.drop (leAt b (o + 8) 8 + 64 * n)).take 64))
    else []

/-- The units of a folio in order (R425); an expected entry is its Carrel line, its localisation code and the expected line. -/
def testUnits (bs : List Byte) : List TUnit :=
  (fSects bs).map fun x =>
    let b := x.bytes bs
    { unit := leAt b 0 2, cls := leAt b 2 1, runCyc := leAt b 4 4, image := (b.drop (leAt b 8 4)).take (leAt b 12 4),
      row := unitMap (leAt b 24 2), col := unitMap (leAt b 26 2),
      sfu := if leAt b 28 1 = 0xFF then none else some (leAt b 28 1),
      expect := (List.range (leAt b 20 4)).map fun i =>
        let o := leAt b 16 4 + 72 * i
        (leAt b o 4, leAt b (o + 4) 4, lineOfBytes ((b.drop (o + 8)).take 64)) }

/-- Every unit of the installed folios, as (folio, unit) numbers in folio and unit order. -/
def allUnits (s : State) : List (Nat × Nat) :=
  s.sec.folios.zipIdx.flatMap fun (f, i) => (List.range (testUnits f.bytes).length).map fun u => (i, u)

/-- A unit by its numbers. -/
def unitAt (s : State) (f u : Nat) : Option TUnit :=
  match s.sec.folios[f]? with
  | none => none
  | some x => (testUnits x.bytes)[u]?

/-- Dies in service. -/
def dieUp (s : State) (c : Nat) : Bool := decide (fget s (pgDie c 0) 0x0C 2 1 = 0)

/-- Some job slot binds the physical engine. -/
def boundKey (s : State) (e : Nat) : Bool :=
  (List.range 4).any fun j => let b := job s j
    b.occupied && b.engs.any fun l => decide (storeKey s l = e) || decide (execKey s l = e)

/-- A physical engine is eligible for a unit at a tick (R251). -/
def eligible (s : State) (e : Nat) : Bool :=
  dieUp s (e / 5) && !boundKey s e && ((zone s (e / 20)).frozenAt).isNone &&
    !(s.sec.runs.any fun r => decide (5 * r.die + r.peng = e))

/-- The next unit for an engine that fits it: in a sweep the first not yet swept, else the one after its last. [log 76, DEDUCED] -/
def nextUnit (s : State) (e : Nat) : Option (Nat × Nat) :=
  let fits (p : Nat × Nat) : Bool := match unitAt s p.1 p.2 with
    | some u => decide (u.runCyc ≤ frameCycles s (e / 20))
    | none => false
  let l := (allUnits s).filter fits
  if s.sec.sweep then l.find? fun p => !s.sec.swept.contains (p.1, p.2, e)
  else
    let last := tabGet (fun _ => 0) s.sec.lastUnit e
    match l.find? fun p => decide (last < p.1 * 65536 + p.2 + 1) with
    | some p => some p
    | none => l.head?

/-- A unit's input patterns go to the Carrel of the engine under test (R425). -/
def unitInputs (e f u : Nat) (s : State) : State :=
  match unitAt s f u with
  | some t => foldS t.inputs (fun p => cPut e p.1 p.2 0) s
  | none => s

/-- At a tick units start on the eligible engines, each with its maps in force (R251, R425). [log 76, DEDUCED] -/
def startTests (s : State) : State :=
  foldS (List.range 80) (fun e s =>
    if eligible s e then
      match nextUnit s e with
      | none => s
      | some p =>
        let u := unitAt s p.1 p.2
        let r : TestRun := { die := e / 5, peng := e % 5, folio := p.1, unit := p.2, row := u.bind (·.row), col := u.bind (·.col), sfu := u.bind (·.sfu) }
        secMod (fun x => { x with runs := x.runs ++ [r] }) (unitInputs e p.1 p.2 s)
    else s) s

/-- A sweep ends once every unit has run on every engine in service. -/
def sweepDone (s : State) : State :=
  if s.sec.sweep && (List.range 80).all (fun e => !dieUp s (e / 5) ||
      (allUnits s).all fun p => s.sec.swept.contains (p.1, p.2, e)) then
    fset pgMod 0xB4 1 1 0 (secMod (fun x => { x with sweep := false, swept := [] }) s)
  else s

/-- A folio's pass is complete once each of its units has run on every engine in service (R252). -/
def passDone (f : Nat) (s : State) : State :=
  let us := (allUnits s).filter fun p => decide (p.1 = f)
  if !us.isEmpty && (List.range 80).all (fun e => !dieUp s (e / 5) || us.all fun p => s.sec.passedOn.contains (p.1, p.2, e)) then
    secMod (fun x => { x with
      passedOn := x.passedOn.filter fun p => decide (p.1 ≠ f)
      folios := x.folios.zipIdx.map fun (g, i) => if i = f then { g with lastPass := s.tick } else g }) s
  else s

/-- An SFU fails (R153): it is marked, and a slot that uses it takes the spare at the next tick; with no spare left the engine
has a fault. -/
def sfuFailed (x u : Nat) (s : State) : State :=
  let s := engMod x (fun e => { e with sfuBad := if e.sfuBad.contains u then e.sfuBad else e.sfuBad ++ [u] }) s
  let phys (i : Nat) : Nat := fget s (pgEng x 3) 0x40 (3 * i) 3
  match (List.range 4).find? fun i => decide (phys i = u) with
  | none => s
  | some i =>
    let used := (List.range 4).map phys
    if (eng s x).sfuReq.contains i then s
    else if ((List.range 5).filter fun v => !used.contains v && !(eng s x).sfuBad.contains v).length ≤ (eng s x).sfuReq.length then engineFaultAt x s
    else engMod x (fun e => { e with sfuReq := e.sfuReq ++ [i] }) s

/-- An SFU with two parity errors within 4,096 ticks has failed (Table 9-9); older errors are forgotten. -/
def sfuWorn (s : State) : State :=
  foldS (List.range 80) (fun x s =>
    let l := (eng s x).sfuErrs.filter fun p => decide (s.tick.toNat < p.2.toNat + 4096)
    let bad := (List.range 5).filter fun u => decide (2 ≤ (l.filter fun p => decide (p.1 = u)).length)
    if (eng s x).sfuErrs.isEmpty then s
    else foldS bad (sfuFailed x) (engMod x (fun e => { e with sfuErrs := l.filter fun p => !bad.contains p.1 }) s)) s

/-- Requested SFU substitutions take effect at a tick (R153). -/
def sfuSubst (s : State) : State :=
  foldS (List.range 80) (fun x s => foldS (eng s x).sfuReq (fun i s =>
    let p := pgEng x 3
    let used := (List.range 4).map fun i => fget s p 0x40 (3 * i) 3
    match (List.range 5).find? fun v => !used.contains v && !(eng s x).sfuBad.contains v with
    | none => engineFaultAt x s
    | some v =>
      let at' : Er := { ty := 0, sev := 1, level := 3, zq := x / 20, die := x / 5, block := 0x23 }
      let s := substitution at' 3 i (fget s p 0x40 (3 * i) 3) v (fset p 0x40 (3 * i) 3 v s)
      capacity 3 4 { at' with sev := 4 } s) (engMod x (fun e => { e with sfuReq := [] }) s)) s

/-- The element a localisation code names fails (R251, R425). [log 76, DEDUCED] -/
def markFailed (x code : Nat) (s : State) : State :=
  let i := bitsOf code 8 8
  match bitsOf code 0 4 with
  | 1 => if i < 66 then requestRowAt x i s else s
  | 2 => if i < 67 then requestColAt x i s else s
  | 3 => if i < 5 then sfuFailed x i s else s
  | _ => engineFaultAt x s

/-- The retest of a suspect checksum column by a checksum-path unit (R236): it rejoins the pool, or is marked failed. -/
def retestPath (x : Nat) (pass : Bool) (s : State) : State :=
  let cs := (eng s x).arr.heldOut
  let s := arrMod x (fun a => { a with heldOut := [] }) s
  if pass then s else foldS cs (fun c => fset (pgEng x 1) (0x64 + 4 * (c / 32)) (c % 32) 1 1) s

/-- TEST_UNIT_COMPLETE (R251): the outputs land in their Carrel lines and are compared with the expected lines; the result is
an Errata record, and a failure marks the element its code names. [log 76, DEDUCED] -/
def doTestUnitComplete (die peng : Nat) (outs : List Line) (s : State) : State :=
  match s.sec.runs.find? fun r => decide (r.die = die) && decide (r.peng = peng) with
  | none => s
  | some r =>
    let x := 5 * die + peng
    let s := secMod (fun y => { y with runs := y.runs.filter fun q => !(decide (q.die = die) && decide (q.peng = peng)) }) s
    match unitAt s r.folio r.unit, s.sec.folios[r.folio]? with
    | some u, some f =>
      let s := (u.expect.zip outs).foldl (fun s (e, o) => cPut x e.1 o 0 s) s
      let bad := (u.expect.zipIdx.find? fun (e, i) => decide (outs[i]? ≠ some e.2.2)).map fun (e, _) => e.2.1
      let pass := bad.isNone
      let s := errata { ty := 0x0801, sev := b2n (!pass), level := 4, zq := die / 4, die := die, peng := peng, block := 1,
                        detail := [leNat ((folioDigest f.bytes).take 8), u.unit, b2n pass, bad.getD 0] } s
      let s := secMod (fun y => { y with
        folios := y.folios.zipIdx.map fun (g, i) =>
          if i = r.folio then (if pass then { g with passed := g.passed + 1 } else { g with failed := g.failed + 1 }) else g
        passedOn := if y.passedOn.contains (r.folio, r.unit, x) then y.passedOn else y.passedOn ++ [(r.folio, r.unit, x)]
        swept := if y.sweep && !y.swept.contains (r.folio, r.unit, x) then y.swept ++ [(r.folio, r.unit, x)] else y.swept
        lastUnit := tabSet (fun _ => 0) y.lastUnit x (r.folio * 65536 + r.unit + 1) }) s
      let s := whenS (decide (u.cls = 1)) (retestPath x pass) s
      let s := whenS (!pass) (fun s =>
        let s := whenS s.sec.sweep (finc pgMod 0xB4 16 16 1) s
        markFailed x (bad.getD 0) (raise pgMod 3 s)) s
      sweepDone (passDone r.folio s)
    | _, _ => s

/-- TESTCTL_SWEEP (R251): refused with 0x01 while a slot is occupied. -/
def doTestctlSweep (s : State) : State :=
  if !running s || !enabled s pgMod then s
  else if anyJob s then errInfo pgMod 0x01 0xB4 0 0 s
  else
    sweepDone (fset pgMod 0xB4 1 1 1 (fset pgMod 0xB4 16 16 0 (secMod (fun x => { x with sweep := true, swept := [] }) s)))

/-- BOOT_STORE_WRITE. -/
def execBootStoreWrite (ok : Bool) (s : State) : Res := .next (doBootStoreWrite ok s)
/-- TEST_UNIT_COMPLETE. -/
def execTestUnitComplete (die : BitVec 4) (peng : BitVec 3) (outputs : List Line) (s : State) : Res :=
  .next (whenS (decide (peng.toNat < 5)) (doTestUnitComplete die.toNat peng.toNat outputs) s)
/-- TESTCTL_SWEEP. -/
def execTestctlSweep (s : State) : Res := .next (doTestctlSweep s)

end Sys2Proof.Machine
end

