-- ==== Sys2Proof/Machine/Image.lean ====
section
/-! DEFINITION. Schedule images (spec/07_engine_schedules.md R195-R198, R458-R461) and the Registrar's load checks
(Table 7-18), with the address, traffic and share rules they refer to (R212, R264, R316, R324, R348, R352). -/

namespace Sys2Proof.Machine

/-- A section table entry (Table 7-13). -/
structure ISect where
  ty : Nat
  eng : Nat
  res : Nat
  count : Nat
  off : Nat
  len : Nat
  addr : Nat

/-- A parsed image. -/
structure Img where
  bytes : List Byte
  cls : Nat
  flags : Nat
  length : Nat
  engMask : BitVec 64
  engCount : Nat
  stream : Nat
  budget : Nat
  yreserve : Nat
  seed : BitVec 64
  ntensor : Nat
  nsect : Nat
  sectOff : Nat
  sects : List ISect

/-- Parsing (Tables 7-12, 7-13). -/
def parseImg (bs : List Byte) : Img :=
  let n := leAt bs 50 2
  let so := leAt bs 52 4
  { bytes := bs, cls := leAt bs 6 1, flags := leAt bs 7 1, length := leAt bs 8 8, engMask := BitVec.ofNat 64 (leAt bs 16 8),
    engCount := leAt bs 24 2, stream := leAt bs 26 1, budget := leAt bs 32 4, yreserve := leAt bs 36 4,
    seed := BitVec.ofNat 64 (leAt bs 40 8), ntensor := leAt bs 48 2, nsect := n, sectOff := so,
    sects := (List.range n).map fun i =>
      let o := so + 32 * i
      { ty := leAt bs o 2, eng := leAt bs (o + 2) 1, res := leAt bs (o + 3) 1, count := leAt bs (o + 4) 4,
        off := leAt bs (o + 8) 8, len := leAt bs (o + 16) 8, addr := leAt bs (o + 24) 8 } }

/-- The bytes of a section. -/
def Img.sect (m : Img) (x : ISect) : List Byte := (m.bytes.drop x.off).take x.len

/-- The class's segment. -/
def Img.seg (m : Img) : Seg := if m.cls = 1 then .bg else .rt

/-- Sections of a type. -/
def Img.ofTy (m : Img) (ty : Nat) : List ISect := m.sects.filter fun x => decide (x.ty = ty)

/-- The section of a type for an engine. -/
def Img.for? (m : Img) (ty leng : Nat) : Option ISect := (m.ofTy ty).find? fun x => decide (x.eng = leng)

/-- Logical engines the image names. -/
def Img.engs (m : Img) : List Nat := (List.range 64).filter m.engMask.getLsbD

/-- Bits are all zero in a byte range. -/
def zeroAt (bs : List Byte) (off n : Nat) : Bool := ((bs.drop off).take n).all fun b => decide (b = 0)

/-- The words of an engine's CODE section. -/
def Img.code (m : Img) (leng : Nat) : List (BitVec 128) :=
  match m.for? 1 leng with
  | none => []
  | some x => (List.range x.count).map fun i => BitVec.ofNat 128 (leAt m.bytes (x.off + 16 * i) 16)

/-- Its instructions, none where a word does not decode. -/
def Img.ops (m : Img) (leng : Nat) : List (Option EOp) := (m.code leng).map fun w => (decodeWord w).map (·.2)

/-- Its instructions once every word decodes. -/
def Img.prog (m : Img) (leng : Nat) : List EOp := (m.ops leng).map fun o => o.getD .nop

/-- Tensor table entries (Table 7-16). -/
def Img.tensors (m : Img) : List TensorE :=
  match (m.ofTy 5).head? with
  | none => []
  | some x => (List.range x.count).map fun i =>
      let o := x.off + 16 * i
      let b := m.bytes
      { lid := BitVec.ofNat 12 (leAt b o 2), src := BitVec.ofNat 2 (leAt b (o + 2) 1),
        norcmp := decide (bitsOf (leAt b (o + 2) 1) 2 1 = 1), fmt := BitVec.ofNat 4 (leAt b (o + 3) 1), bpt := leAt b (o + 4) 2,
        w := if leAt b (o + 6) 1 = 0 then 16 else leAt b (o + 6) 1, lag := if leAt b (o + 7) 1 = 0 then 1 else leAt b (o + 7) 1,
        dirtab := BitVec.ofNat 64 (leAt b (o + 8) 8) }

/-- A signed 32-bit field. -/
def sleAt (bs : List Byte) (off : Nat) : Int := (BitVec.ofNat 32 (leAt bs off 4)).toInt

/-- Hub mover entries (Table 7-17). -/
def Img.hubMoves (m : Img) : List HubMove :=
  match (m.ofTy 6).head? with
  | none => []
  | some x => (List.range x.count).map fun i =>
      let o := x.off + 32 * i
      let b := m.bytes
      let d := leAt b (o + 4) 4
      { kind := leAt b o 1, dest := leAt b (o + 1) 1, len := leAt b (o + 2) 2, dline := bitsOf d 0 17, tag := bitsOf d 17 8,
        ten := decide (bitsOf d 25 1 = 1), src := BitVec.ofNat 64 (leAt b (o + 8) 8), start := sleAt b (o + 16),
        arrive := sleAt b (o + 20) }

/-- Hold windows of an engine (Table 7-15). -/
def Img.holds (m : Img) (leng : Nat) : List HoldDef :=
  match m.for? 3 leng with
  | none => []
  | some x => (List.range x.count).map fun i =>
      let o := x.off + 16 * i
      let w := leAt m.bytes (o + 4) 4
      { openPc := leAt m.bytes o 2, closePc := leAt m.bytes (o + 2) 2, line := bitsOf w 0 17, adv := decide (bitsOf w 17 1 = 1),
        k := bitsOf w 18 2, nlines := leAt m.bytes (o + 8) 4 }

/-- The Carrel footprint of an engine: first and last line. -/
def Img.foot (m : Img) (leng : Nat) : Nat × Nat :=
  match m.for? 1 leng with
  | none => (0, 0)
  | some x => (bitsOf x.addr 0 17, bitsOf x.addr 32 17)

/-! ### The static stream -/

/-- The words of a segment with the loops that enclose them, innermost first. -/
def annot : List (Option EOp) → Nat → List LoopOp → List (Nat × EOp × List LoopOp)
  | [], _, _ => []
  | none :: t, pc, st => annot t (pc + 1) st
  | some o :: t, pc, st =>
    (pc, o, st) :: annot t (pc + 1) (match o with
      | .loop l => l :: st
      | .endl => st.tail
      | _ => st)

/-- A loop level at an index. -/
def loopAt (body : Nat) (l : LoopOp) (i : Nat) : Loop :=
  { body := body, count := l.cntm1.toNat + 1, idx := i, d0 := l.d0, d1 := l.d1, d2 := l.d2, d3 := l.d3 }

/-- Every combination of indices of some loops. -/
def combos : List LoopOp → List (List Loop)
  | [] => [[]]
  | l :: t => (List.range (l.cntm1.toNat + 1)).flatMap fun i => (combos t).map (loopAt 0 l i :: ·)

/-- The stream of one pass through a segment, up to its first WTICK or HALT: words with their program counters and loops. -/
def walk (code : List EOp) : Nat → Nat → List Loop → List (Nat × EOp × List Loop)
  | 0, _, _ => []
  | n + 1, pc, ls =>
    match code[pc]? with
    | none => []
    | some o =>
      (pc, o, ls) :: (match o with
        | .wtick => []
        | .halt => []
        | .loop l => walk code n (pc + 1) (loopAt (pc + 1) l 0 :: ls)
        | .endl =>
          match ls with
          | [] => walk code n (pc + 1) []
          | l :: t => if l.idx + 1 < l.count then walk code n l.body ({ l with idx := l.idx + 1 } :: t) else walk code n (pc + 1) t
        | _ => walk code n (pc + 1) ls)

/-- How many words a segment's stream holds, loops counted. -/
def streamLen (code : List EOp) : Nat :=
  ((annot (code.map some) 0 []).map fun x => x.2.2.foldl (fun a l => a * (l.cntm1.toNat + 1)) 1).foldl (· + ·) 0 +
    2 * code.length

/-- The stream of an RT segment's frame. -/
def frameStream (code : List EOp) : List (Nat × EOp × List Loop) := walk code (streamLen code) 0 []

/-- The expected PC signature of an RT segment (R247). -/
def expectedSig (code : List EOp) : BitVec 32 :=
  BitVec.ofNat 32 (Nat.xor ((frameStream code).foldl (fun g x => sigAdd x.1 g) (0xFFFFFFFF : BitVec 32)).toNat 0xFFFFFFFF)

/-- The shelfmark a MOV reaches under some loops (R183, R192). -/
def movAddr (o : MovOp) (ls : List Loop) : Nat := ((advance o.adv 1 ls o.remote.toNat) * 64 % 2 ^ 48).toNat

/-- Every shelfmark a MOV can reach (R316). -/
def movReach (o : MovOp) (st : List LoopOp) : List Nat := (if o.adv then combos st else [[]]).map (movAddr o)

/-! ### Code 0x01: structure and addresses -/

/-- Reserved bytes and bits of the header are 0, CLASS is 0 or 1 (Table 7-12, R460). -/
def okHeader (m : Img) : Bool :=
  let b := m.bytes
  decide (leAt b 0 4 = 0x494E5244) && decide (leAt b 4 2 = 1) && decide (m.cls < 2) && decide (m.flags < 2) &&
    decide (256 ≤ m.length) && decide (m.length = b.length) && decide (256 ≤ m.sectOff) &&
    decide (m.sectOff + 32 * m.nsect ≤ m.length) && zeroAt b 27 1 && decide (leAt b 30 2 < 8) && zeroAt b 56 8 && zeroAt b 160 96

/-- A section table entry keeps its type's rules (Table 7-14, R460). -/
def okSect (m : Img) (x : ISect) : Bool :=
  let per := decide (x.eng < 64) && m.engMask.getLsbD x.eng
  let wide := decide (x.eng = 0xFF)
  decide (x.off % 64 = 0) && decide (x.off + x.len ≤ m.length) && decide (m.sectOff + 32 * m.nsect ≤ x.off ∨ x.off + x.len ≤ m.sectOff) &&
    decide (256 ≤ x.off) && decide (x.res = 0) &&
    match x.ty with
    | 1 => per && decide (x.len = 16 * x.count) && decide (x.addr = bitsOf x.addr 0 17 + bitsOf x.addr 32 17 * 2 ^ 32) &&
        decide (bitsOf x.addr 0 17 ≤ bitsOf x.addr 32 17) && decide (bitsOf x.addr 32 17 < 98304)
    | 2 => per && decide (x.len % 64 = 0) && decide (x.addr + x.len / 64 ≤ 98304)
    | 3 => per && decide (x.len = 16 * x.count) && decide (x.addr = 0)
    | 4 => per && decide (x.len = 4 * x.count) && decide (1 ≤ x.count) && decide (x.count ≤ 256) && decide (x.addr = 0)
    | 5 => wide && decide (x.len = 16 * x.count) && decide (x.count = m.ntensor) && decide (x.addr = 0)
    | 6 => wide && decide (x.len = 32 * x.count) && decide (x.addr = 0)
    | 7 => wide && decide (x.addr < 2 ^ 42)
    | _ => false

/-- Each engine has one CODE section and at most one HOLD and FACTOR section; one TENSOR and HUBMOVE section at most. -/
def okSectCounts (m : Img) : Bool :=
  m.engs.all (fun l =>
    let n (ty : Nat) : Nat := ((m.ofTy ty).filter fun x => decide (x.eng = l)).length
    decide (n 1 = 1) && decide (n 3 ≤ 1) && decide (n 4 ≤ 1)) &&
  decide ((m.ofTy 5).length ≤ 1) && decide ((m.ofTy 6).length ≤ 1)

/-- Bytes between the header, the section table and the sections are 0. -/
def okPadding (m : Img) : Bool :=
  let used := (0, 256) :: (m.sectOff, m.sectOff + 32 * m.nsect) :: m.sects.map fun x => (x.off, x.off + x.len)
  (m.bytes.zipIdx).all fun (b, i) => decide (b = 0) || used.any fun p => decide (p.1 ≤ i) && decide (i < p.2)

/-- Entries of HOLD, TENSOR and HUBMOVE sections keep their reserved bits 0 (R460); CLOSEPC names a PASS. -/
def okEntries (m : Img) : Bool :=
  let b := m.bytes
  (m.ofTy 3).all (fun x => (List.range x.count).all fun i =>
    let o := x.off + 16 * i
    decide (bitsOf (leAt b (o + 4) 4) 20 12 = 0) && zeroAt b (o + 12) 4 &&
      (match (m.code x.eng)[leAt b (o + 2) 2]? with
        | some w => decide (w.toNat / 2 ^ 122 = 2)
        | none => false)) &&
  (m.ofTy 5).all (fun x => (List.range x.count).all fun i =>
    let o := x.off + 16 * i
    decide (leAt b o 2 < 2 ^ 12) && decide (leAt b (o + 2) 1 < 8) && decide (leAt b (o + 3) 1 < 16)) &&
  (m.ofTy 6).all fun x => (List.range x.count).all fun i =>
    let o := x.off + 32 * i
    decide (leAt b (o + 4) 4 < 2 ^ 26) && zeroAt b (o + 24) 8 && decide (leAt b o 1 < 2) &&
      decide (leAt b (o + 1) 1 < 64) && m.engMask.getLsbD (leAt b (o + 1) 1)

/-- A module the job may name: this one, or one of its set below 2^DIMS (R352). -/
def modOk (s : State) (j t : Nat) : Bool :=
  decide (t = modNum s) ||
    (decide (t < 2 ^ fget s (pgAbf 0) 0x100 5 3) && decide (fget s (pgAbf 0) (0x110 + 4 * j) t 1 = 1))

/-- What a MOV of `n` lines may name (R212, R316, R352). -/
def movOk (s : State) (j : Nat) (dir : Bool) (n sh : Nat) : Bool :=
  let off := bitsOf sh 0 32
  modOk s j (bitsOf sh 43 5) &&
    if bitsOf sh 42 1 = 0 then rangeOk (bitsOf sh 0 42) (64 * n)
    else
      let sel := bitsOf sh 32 10
      if sel < 0x40 then decide (off % 64 = 0) && decide (off / 64 + n ≤ 98304)
      else if sel = 0x100 then
        dir && decide (off / 2 ^ 14 = 0) && decide (off % 64 = 0) && decide (bitsOf off 12 2 = j) && decide (bitsOf off 6 6 + n ≤ 62)
      else false

/-- What a QADD may name: a quire bank or a Carrel line (R78, R352). -/
def qaddOk (s : State) (j sh : Nat) : Bool :=
  let sel := bitsOf sh 32 10
  modOk s j (bitsOf sh 43 5) && decide (bitsOf sh 42 1 = 1) &&
    (decide (0x40 ≤ sel ∧ sel < 0x80) || (decide (sel < 0x40) && decide (bitsOf sh 0 32 % 64 = 0) && decide (bitsOf sh 0 32 / 64 < 98304)))

/-- The verdict items an engine's MOVs write in an RT frame: module and item. -/
def itemsOf (code : List EOp) : List (Nat × Nat) :=
  (frameStream code).flatMap fun x => match x.2.1 with
    | .mov o =>
      let sh := movAddr o x.2.2
      match placeOf sh with
      | .verdict _ i => if o.dir then (List.range o.len.toNat).map fun n => (bitsOf sh 43 5, i + n) else []
      | _ => []
    | _ => []

/-- The verdict items an RT image writes, of every module's buffer. -/
def Img.items (m : Img) : List (Nat × Nat) := m.engs.flatMap fun l => itemsOf (m.prog l)

/-- The job of slot `j` spans modules: its set names another one (R345). -/
def spans (s : State) (j : Nat) : Bool :=
  (List.range 32).any fun t => decide (t ≠ modNum s) && decide (fget s (pgAbf 0) (0x110 + 4 * j) t 1 = 1)

/-- Items of this module's buffer, and NITEM: the number of distinct ones, and for a job that spans modules one past the last, since
other modules' engines write the items between. [log 49, DEDUCED] -/
def ownItems (s : State) (l : List (Nat × Nat)) : List Nat := (l.filter fun x => decide (x.1 = modNum s)).map (·.2)

/-- NITEM of an image (R212). [log 49, DEDUCED] -/
def nitemOf (s : State) (j : Nat) (l : List (Nat × Nat)) : Nat :=
  let own := ownItems s l
  if spans s j then own.foldl (fun a i => max a (i + 1)) 0 else own.eraseDups.length

/-- No item is written twice in a frame; a job on this module alone writes each item from 0 on (R212). [log 49, DEDUCED] -/
def okItems (s : State) (j : Nat) (l : List (Nat × Nat)) : Bool :=
  decide (l.length = l.eraseDups.length) && (spans s j || (ownItems s l).all fun i => decide (i < nitemOf s j l))

/-- The first instruction that can reach an address it may not: engine and program counter (R198, R212, R316). [log 49, DEDUCED] -/
def addrBad (s : State) (j : Nat) (m : Img) : Option (Nat × Nat) :=
  m.engs.findSome? fun l => ((annot (m.ops l) 0 []).find? fun x => match x.2.1 with
    | .mov o => !(movReach o x.2.2).all (movOk s j o.dir o.len.toNat)
    | .qadd o => !qaddOk s j o.shelf.toNat
    | _ => false).map fun x => (l, x.1)

/-- Every address that a hub mover entry, a section, a tensor or an item can reach (R212, R316, R352). -/
def okAddrs (s : State) (j : Nat) (m : Img) : Bool :=
  m.hubMoves.all (fun e =>
    decide (e.dline + e.len ≤ 98304) &&
      (decide (e.kind = 0) ||
        (decide (e.src.toNat < 2 ^ 42) && decide (bitsOf (64 * e.src.toNat) 43 5 = modNum s) && decide (bitsOf (64 * e.src.toNat) 42 1 = 0) &&
          rangeOk (64 * e.src.toNat % 2 ^ 42) (64 * e.len)))) &&
  (m.ofTy 7).all (fun x =>
    decide (bitsOf (64 * x.addr) 43 5 = modNum s) && decide (bitsOf (64 * x.addr) 42 1 = 0) && rangeOk (64 * x.addr % 2 ^ 42) x.len) &&
  m.tensors.all (fun t => decide (t.src ≠ 1) ||
    (decide (bitsOf (64 * t.dirtab.toNat) 42 6 = 2 * modNum s) && rangeOk (64 * t.dirtab.toNat % 2 ^ 42) 256)) &&
  (decide (m.cls = 1) || okItems s j m.items)

/-! ### Traffic (R264, R324, R348) -/

/-- The transfers an RT frame makes to and from the Stacks of this module: offset and lines. -/
def stkTransfers (s : State) (m : Img) : List (Nat × Nat) :=
  (m.engs.flatMap fun l => (frameStream (m.prog l)).filterMap fun x => match x.2.1 with
    | .mov o =>
      let sh := movAddr o x.2.2
      match placeOf sh with
      | .stacks off => if bitsOf sh 43 5 = modNum s then some (off, o.len.toNat) else none
      | _ => none
    | _ => none) ++
  (m.hubMoves.filter fun e => decide (e.kind = 1)).map fun e => (64 * e.src.toNat % 2 ^ 42, e.len)

/-- Bursts of a transfer on a channel: its data lines, and one check burst per group it touches there (R315, R317). -/
def burstsOn (c : Nat) (t : Nat × Nat) : Nat :=
  let lq := t.1 % 2 ^ 38 / 64
  let mine := ((List.range t.2).map (lq + ·)).filter fun l => decide (l % 100 = c)
  mine.length + (mine.map fun l => l / 100 / 31).eraseDups.length

/-- B_q: bursts per frame on the busiest channel of a hub (R324). -/
def busiest (ts : List (Nat × Nat)) (q : Nat) : Nat :=
  let mine := ts.filter fun t => decide (t.1 / 2 ^ 38 = q)
  (List.range 100).foldl (fun a c => max a (mine.foldl (fun b t => b + burstsOn c t) 0)) 0

/-- Hubs a BG image addresses. -/
def hubsOf (s : State) (m : Img) : List Nat :=
  let offs := (m.engs.flatMap fun l => (annot (m.ops l) 0 []).flatMap fun x => match x.2.1 with
      | .mov o => (movReach o x.2.2).filterMap fun sh => match placeOf sh with
          | .stacks off => if bitsOf sh 43 5 = modNum s then some off else none
          | _ => none
      | _ => []) ++ (m.hubMoves.filter fun e => decide (e.kind = 1)).map fun e => 64 * e.src.toNat % 2 ^ 42
  (List.range 4).filter fun h => offs.any fun o => decide (o / 2 ^ 38 = h)

/-- The shares a job asks for: (hub, log2 s) (R324). -/
def jobShares (s : State) (m : Img) : List (Nat × Nat) :=
  if m.cls = 1 then (hubsOf s m).map fun h => (h, 4)
  else
    let wf := period s * 10 / 192
    let ts := stkTransfers s m
    (List.range 4).filterMap fun h =>
      let b := busiest ts h
      if b = 0 then none else some (h, shareLog ((b + wf - 1) / max wf 1))

/-- Stacks bytes an RT image moves per frame (R264). -/
def jobTraffic (s : State) (m : Img) : Nat := if m.cls = 1 then 0 else 64 * (stkTransfers s m).foldl (fun a t => a + t.2) 0

/-- The Stacks limit of a frame in bytes (R32, R264). -/
def stackLimit (s : State) : Nat := (if capW s < 5000 then 44000 else 82700) * period s

/-- The port a packet for a module leaves by, UP or not (R345). -/
def firstPort (s : State) (t : Nat) : Nat :=
  match (List.range 5).find? fun d => decide (bitsOf (Nat.xor (modNum s) t) d 1 = 1) with
  | some d => dimPort s d
  | none => 7

/-- The tag that a segment's half has at word `upto` of its frame (R76, R99): that of the last PASS or CRECV into it before, or of
the frame's last one, which the frame before left; a CRECV takes its sender's, `n` senders deep. [log 49, DEDUCED] -/
def frameTag (m : Img) : Nat → Nat → Bool → Nat → Option Tag
  | 0, _, _, _ => none
  | n + 1, l, half, upto =>
    let st := frameStream (m.prog l)
    let gives (x : Nat × EOp × List Loop) : Option Tag := match x.2.1 with
      | .pass o => if o.dsth = half then some (passTag (fmtD o.fmt) o.fast) else none
      | .crecv o =>
        if o.tgt ∨ o.half ≠ half ∨ o.sk then none
        else ((frameStream (m.prog o.src.toNat)).zipIdx.findSome? fun (y, i) => match y.2.1 with
          | .csend z => if z.dle.toNat = l ∧ z.ch = o.ch then some (z.half, i) else none
          | _ => none).bind fun y => frameTag m n o.src.toNat y.1 y.2
      | _ => none
    (((st.take upto).filterMap gives).getLast?).or (st.filterMap gives).getLast?

/-- Lines of a vector that a QADD at word `upto` sends (R353); a tag that only another module gives counts as q8. [log 49, DEDUCED] -/
def qaddLines (m : Img) (l : Nat) (half : Bool) (upto : Nat) : Nat :=
  64 / (chainVal ((frameTag m 4 l half upto).getD .q8) {}).fmt.perLine

/-- Units a frame of an RT image sends on a port: headers and lines of its MOVs and QADDs (R348, R353). -/
def unitsOn (s : State) (m : Img) (p : Nat) : Nat :=
  m.engs.foldl (fun a l => (frameStream (m.prog l)).zipIdx.foldl (fun a (x, i) =>
    match x.2.1 with
    | .mov o =>
      let t := bitsOf (movAddr o x.2.2) 43 5
      let n := o.len.toNat
      if t = modNum s ∨ firstPort s t ≠ p then a
      else a + (n + 23) / 24 + (if o.dir then n else 0)
    | .qadd o =>
      let t := shelfMod o.shelf
      let per := qaddLines m l o.half i
      let n := per * (o.nm1.toNat + 1)
      let pk := if per = 64 then 16 else 24
      if t = modNum s ∨ firstPort s t ≠ p then a else a + n + (n + pk - 1) / pk
    | _ => a) a) 0

/-- R348's test on every port. A BG segment has no frame of its own, so an image does not say how many units a frame of it sends. [log 49, DEDUCED] -/
def okUnits (s : State) (j : Nat) (m : Img) : Bool :=
  decide (m.cls = 1) || (List.range 6).all fun p =>
    decide (unitsOn s m p ≤ fget s (pgAbf 0) 0x108 (5 * j) 5 * (period s * 10 / 16))

/-! ### The checks in order -/

/-- What a load reports: code, program counter, logical engine. -/
abbrev LoadRes := Nat × Nat × Nat

/-- The first word, engine by engine, that fails a test. -/
def firstBad (m : Img) (code : Nat) (ok : Nat → Nat → Option EOp → Bool) : Option LoadRes :=
  (m.engs.flatMap fun l => (m.ops l).zipIdx.map fun (o, pc) => (l, pc, o)).findSome? fun (l, pc, o) =>
    if ok l pc o then none else some (code, pc, l)

/-- A test of decoded words. -/
def wordOk (f : EOp → Bool) (o : Option EOp) : Bool := match o with
  | none => true
  | some o => f o

/-- Check 0x04: footprints and code segments fit beside the other class's job, no second job of a class (R26). -/
def okFit (s : State) (m : Img) (l : Nat) : Bool :=
  let others := (List.range 4).filter fun j => let b := job s j; b.occupied && !b.loadWait && b.uses l
  let (lo, hi) := m.foot l
  others.all fun j =>
    let b := job s j
    let (a, z) := tabGet (fun _ => (0, 98303)) b.foot l
    decide (b.seg ≠ m.seg) && (decide (hi < a) || decide (z < lo)) &&
      (let (cb, cn) := tabGet (fun _ => (0, 0)) b.codeAt l
       decide ((m.code l).length ≤ cb) || decide (cb + cn + (m.code l).length ≤ 65536))

/-- Check 0x07: the place where LOOP and ENDL do not match, nest too deep, a body is empty, or the last word is wrong. -/
def loopBad (bg : Bool) : List EOp → Nat → Nat → Bool → Option Nat
  | [], pc, _, _ => some (pc - 1)
  | [o], pc, d, _ =>
    let okEnd : Bool := match o with
      | .halt => true
      | .wtick => !bg
      | _ => false
    if okEnd && decide (d = 0) then none else some pc
  | o :: t, pc, d, fresh =>
    match o with
    | .loop _ => if 4 ≤ d then some pc else loopBad bg t (pc + 1) (d + 1) true
    | .endl => if d = 0 ∨ fresh then some pc else loopBad bg t (pc + 1) (d - 1) false
    | _ => loopBad bg t (pc + 1) d false

/-- The array instruction a DRAINR pairs with: the one before it with no LOOP, ENDL or array instruction but BAL between. -/
def arrayBefore : List EOp → Option DrainOp
  | [] => none
  | o :: t => match o with
    | .drain d => some d
    | .lds _ | .pass _ | .drainr _ | .loop _ | .endl => none
    | _ => arrayBefore t

/-- The recompute slot that follows a DRAIN. -/
def recomputeAfter : List EOp → Option DrainOp
  | [] => none
  | o :: t => match o with
    | .drainr d => some d
    | .lds _ | .pass _ | .drain _ | .loop _ | .endl => none
    | _ => recomputeAfter t

/-- The output tensor of a pair slot as the code forms it: that of the nearest SCL before a word that forms the slot, else of
the segment's last. [log 31, DEDUCED] -/
def slotOutput (code : List EOp) (pc : Nat) (slot : BitVec 5) : Option (BitVec 12) :=
  let form (o : EOp) : Option (BitVec 12) := match o with
    | .scl x => if x.slot = slot then ([x.r1, x.r2, x.r3].find? EOp.recPlus).map (·.lid) else none
    | _ => none
  match (code.take pc).reverse.findSome? form with
  | some l => some l
  | none => code.reverse.findSome? form

/-- Check 0x0B at a word (R125, R188). [log 31, DEDUCED] -/
def drainrOk (ts : List TensorE) (code : List EOp) (pc : Nat) : Bool :=
  match code[pc]? with
  | some (.drainr d) => decide (arrayBefore (code.take pc).reverse = some d)
  | some (.drain d) =>
    let hist := match slotOutput code pc d.aslot with
      | some l => ts.any fun t => decide (t.lid = l) && decide (t.src = 1)
      | none => false
    !(hist && fmtIn d.dfmt codesPosit) || decide (recomputeAfter (code.drop (pc + 1)) = some d)
  | _ => true

/-- Check 0x0A at a word (R191, Table 7-8). -/
def sclOk (m : Img) (l : Nat) (o : EOp) : Bool :=
  o.ok0A && match o with
    | .scl x =>
      (match m.for? 4 l with
        | some f => decide (x.fidx.toNat < f.count)
        | none => false) &&
      ([x.r1, x.r2, x.r3].filter fun r => decide (r.sg ≠ 0)).all fun r => m.tensors.any fun t => decide (t.lid = r.lid)
    | _ => true

/-- FORMATS of the header and FMT of the tensor table name no reserved code (R33, Table 7-12, Table 7-16). [log 19, DEDUCED] -/
def okFormats (m : Img) : Bool :=
  let fs := leAt m.bytes 28 2
  decide (bitsOf fs 3 1 = 0) && decide (bitsOf fs 12 4 = 0) && m.tensors.all fun t => fmtIn t.fmt codes

/-- Check 0x0C (R113, R139, R305, Table 7-16). -/
def okTensors (m : Img) : Bool :=
  let ts := m.tensors
  decide (ts.length = m.ntensor) && (List.range m.ntensor).all (fun i => decide ((ts.filter fun t => decide (t.lid.toNat = i)).length = 1)) &&
    ts.all (fun t => decide (t.src ≠ 3) && !(decide (t.src = 1) && fmtIn t.fmt [2, 6, 7, 8]) &&
      decide (t.bpt ≤ 256) && decide (t.w ≤ 32) && decide (t.lag ≤ 4) && (decide (t.src = 1) || decide (t.dirtab = 0))) &&
    (decide (m.cls = 1) || ts.any fun t => decide (t.lid = 0) && decide (t.src = 2) && decide (t.fmt = 1) && decide (t.bpt = 1))

/-- Check 0x0D at a word: its micro-program is installed (R159). -/
def pidOk (s : State) (m : Img) (o : EOp) : Bool :=
  match o with
  | .sfn x | .gact x => !x.ctl.getLsbD 5 || (progOf s (x.ctl.toNat % 32) (decide (m.flags = 1))).isSome
  | _ => true

/-- A test of the operand B of an SFN whose program takes two arguments (R185, R189). -/
def argBOk (s : State) (compat : Bool) (f : FOp → Bool) (o : EOp) : Bool :=
  match o with
  | .sfn x => !(x.ctl.getLsbD 5 && decide ((progOf s (x.ctl.toNat % 32) compat).map (·.nin) = some 2)) || f x
  | _ => true

/-- The class's header fields and the stream (R26, R201). -/
def okClass (s : State) (j : Nat) (m : Img) : Bool :=
  if m.cls = 1 then decide (m.budget = 0) && decide (m.stream = 0xFF)
  else
    decide (m.yreserve = 0) && decide (m.stream < 4) &&
      !((List.range 4).any fun i => decide (i ≠ j) && (job s i).occupied && !(job s i).loadWait && !(job s i).bg && decide ((job s i).stream = m.stream)) &&
      !(decide (fget s pgTick 0x44 0 1 = 1) && decide (fget s pgTick 0x44 6 1 = 0))

/-- Budget and yield reserve against F at the highest step the cap allows (R208). -/
def okBudget (s : State) (m : Img) : Bool :=
  let f := period s * multOf (capCeiling s)
  if m.cls = 1 then decide (m.yreserve < f) else decide (m.budget ≤ f)

/-- 32 times T_fe in ns: 1.5 µs, N / 2.0e9 s (none for BASEBAND) and ROWS × COLS / 32e9 s (R307, Table 11-6). [log 50, DEDUCED] -/
def feTime (s : State) (q : Nat) : Nat :=
  let p := pgAcc q
  let n := if fget s p 0x84 19 2 = 0 then 0 else 2 ^ (fget s p 0x84 12 4 + 8)
  48000 + 16 * n + (fget s p 0x9C 0 8 + 1) * (32 * fget s p 0x9C 8 6)

/-- R307's conditions on a job's KIND 0 entries, START in cycles at 0.8 GHz. [log 50, DEDUCED] -/
def okLead (s : State) (q : Nat) (es : List HubMove) : Bool :=
  let lead := fget s (pgAcc q) 0x80 0 17
  decide (lead ≤ period s) && (es.filter fun e => decide (e.kind = 0)).all fun e =>
    decide ((feTime s q : Int) - 320 * lead ≤ 40 * e.start) && decide (e.arrive < 0)

/-- Shares and Stacks traffic fit (R264, R324). [log 58, DEDUCED] -/
def okShares (s : State) (m : Img) : Bool :=
  (jobShares s m).all (fun x => decide (x.2 < 6) && decide (2 ^ x.2 + shareSum (hubShares s x.1) ≤ hubLimit s x.1)) &&
    (decide (m.cls = 1) ||
      decide ((List.range 4).foldl (fun a i => a + (if (job s i).bg then 0 else (job s i).traffic) +
        (if accState s i ≠ 0 then captureTraffic s i else 0)) (jobTraffic s m) ≤ stackLimit s))

/-- The lowest free TID range (R130). [log 32, DEDUCED] -/
def tidBase (s : State) (n : Nat) : Option Nat :=
  let used := s.cat.filterMap fun p => if p.2.mode ≠ 0 then some p.1 else none
  if n = 0 then some 0
  else (0 :: used.map (· + 1)).mergeSort.find? fun b => decide (b + n ≤ 4096) && used.all fun u => decide (u < b) || decide (b + n ≤ u)

/-- The load checks of Table 7-18 in order: the first that fails. -/
def loadCheck (s : State) (j : Nat) (m : Img) : Option LoadRes :=
  let none0 (c : Nat) (ok : Bool) : Option LoadRes := if ok then none else some (c, 0, 0)
  let eng (c : Nat) (f : Nat → Bool) : Option LoadRes := (m.engs.find? fun l => !f l).map fun l => (c, 0, l)
  let word (c : Nat) (f : EOp → Bool) : Option LoadRes := firstBad m c fun _ _ o => wordOk f o
  let argB := argBOk s (decide (m.flags = 1))
  none0 1 (okHeader m && m.sects.all (okSect m) && okSectCounts m && okPadding m && okEntries m)
  <|> (addrBad s j m).map (fun x => (1, x.2, x.1)) <|> none0 1 (okAddrs s j m)
  <|> none0 2 (decide (sha512 (m.bytes.take 64 ++ List.replicate 64 0 ++ m.bytes.drop 128) = (m.bytes.drop 64).take 64))
  <|> eng 3 (fun l => !absent s l) <|> none0 3 (decide (m.engs.length = m.engCount))
  <|> eng 4 (fun l => okFit s m l && decide ((m.code l).length ≤ 65536))
  <|> firstBad m 5 (fun _ _ o => match o with
    | none => false
    | some o => o.ok05)
  <|> word 5 (argB fun x => kindBits x.bk x.b)
  <|> none0 6 (okFormats m) <|> word 6 (fun o => o.ok06 && argB (fun x => readFmt x.bk x.bfmt codesFn) o)
  <|> m.engs.findSome? (fun l => (loopBad (decide (m.cls = 1)) (m.prog l) 0 0 false).map fun pc => (7, pc, l))
  <|> word 8 (fun o => o.ok08 m.seg && argB (fun x => opMine m.seg x.bk x.b) o)
  <|> word 9 (fun o => o.ok09 && (decide (m.flags = 1) || match o with
    | .nrm x => x.ak || fmtIn x.afmt codesPosit
    | _ => true))
  <|> firstBad m 10 (fun l _ o => wordOk (sclOk m l) o)
  <|> firstBad m 11 (fun l pc _ => drainrOk m.tensors (m.prog l) pc)
  <|> none0 12 (okTensors m)
  <|> word 13 (pidOk s m)
  <|> word 14 (EOp.ok0E m.seg)
  <|> none0 14 (okClass s j m && okBudget s m && (decide (m.cls = 1) || okLead s m.stream m.hubMoves) && okShares s m && okUnits s j m)
  <|> none0 15 (tidBase s m.ntensor).isSome

end Sys2Proof.Machine
end

