-- ==== Sys2Proof/Machine/Save.lean ====
section
/-! DEFINITION. Save images (spec/08_frame_tick_and_repeatability.md R219-R223, Tables 8-6, 8-7), the Catalogue entry's bytes
(Tables 5-3, 5-4) and the spare-map digest (R432). Table 8-7 names what a section holds and not its bytes: the sections SEQ,
BANK, LANE and SCALEST are written here as lists of numbers, each a 2-byte length and its bytes (DESIGN CHOICE; no statement
rests on that order). -/

namespace Sys2Proof.Machine

/-! ### Numbers as bytes -/

/-- A number with its length. -/
def putNat (n : Nat) : List Byte := let k := Nat.log2 n / 8 + 1; leBytes 2 k ++ leBytes k n

/-- Numbers with their lengths. [log 16, DESIGN CHOICE] -/
def putNats (l : List Nat) : List Byte := l.flatMap putNat

/-- Read numbers back. -/
def getNats : Nat → List Byte → List Nat
  | 0, _ => []
  | n + 1, bs => if bs.length < 3 then [] else let k := leAt bs 0 2; leAt bs 2 k :: getNats n (bs.drop (2 + k))

/-- An integer as a number. -/
def zig (i : Int) : Nat := if 0 ≤ i then 2 * i.toNat else 2 * (-i).toNat - 1
/-- The integer of a number. -/
def unzig (n : Nat) : Int := if n % 2 = 0 then n / 2 else -((n + 1) / 2 : Nat)

/-- A reader of numbers. -/
abbrev Rd := StateM (List Nat)

/-- The next number. -/
def rdN : Rd Nat := fun l => (l.headD 0, l.tail)
/-- The next integer. -/
def rdI : Rd Int := do return unzig (← rdN)
/-- The next Boolean. -/
def rdB : Rd Bool := do return decide ((← rdN) = 1)
/-- The next bit vector. -/
def rdV (w : Nat) : Rd (BitVec w) := do return BitVec.ofNat w (← rdN)

/-- `n` items. -/
def rdMany {α : Type} (p : Rd α) : Nat → Rd (List α)
  | 0 => pure []
  | n + 1 => do
    let x ← p
    let t ← rdMany p n
    return x :: t

/-- A counted list. -/
def rdList {α : Type} (p : Rd α) : Rd (List α) := do rdMany p (← rdN)
/-- An optional item. -/
def rdOpt {α : Type} (p : Rd α) : Rd (Option α) := do
  if (← rdN) = 0 then return none else return some (← p)
/-- A table. -/
def rdTab {α : Type} (p : Rd α) : Rd (Tab α) := rdList do
  let k ← rdN
  let v ← p
  return (k, v)

/-- A counted list as numbers. -/
def wrList {α : Type} (f : α → List Nat) (l : List α) : List Nat := l.length :: l.flatMap f
/-- An optional item as numbers. -/
def wrOpt {α : Type} (f : α → List Nat) : Option α → List Nat
  | none => [0]
  | some x => 1 :: f x
/-- A table as numbers. -/
def wrTab {α : Type} (f : α → List Nat) (t : Tab α) : List Nat := wrList (fun p => p.1 :: f p.2) t

/-! ### Values -/

/-- A quire value as numbers. -/
def wrQ : QVal → List Nat
  | .nar => [0]
  | .int v => [1, zig v]
/-- It read back. -/
def rdQ : Rd QVal := do
  if (← rdN) = 0 then return .nar else return .int (← rdI)

/-- A value as numbers. -/
def wrF : FVal → List Nat
  | .nan => [0]
  | .inf s => [1, b2n s]
  | .num s m e => [2, b2n s, m, zig e]
/-- It read back. -/
def rdF : Rd FVal := do
  match (← rdN) with
  | 0 => return .nan
  | 1 => return .inf (← rdB)
  | _ =>
    let s ← rdB
    let m ← rdN
    return .num s m (← rdI)

/-- A bank element as numbers, with the addends of R77, so that a resumed job sums them in the same order (R81, R82). -/
def wrElem (e : Elem) : List Nat :=
  (match e.val with
    | .quire q => 0 :: wrQ q
    | .run w => [1, w.toNat]
    | .acc a => 2 :: wrF a) ++ [e.mark.toNat, b2n e.valid, b2n e.soft] ++ wrList (fun p => p.1 :: wrF p.2) e.adds
/-- It read back. -/
def rdElem : Rd Elem := do
  let v ← (do
    match (← rdN) with
    | 0 => return .quire (← rdQ)
    | 1 => return .run (← rdV 16)
    | _ => return .acc (← rdF) : Rd BankVal)
  let m ← rdV 8
  let ok ← rdB
  let soft ← rdB
  let adds ← rdList do
    let p ← rdN
    return (p, ← rdF)
  return { val := v, mark := m, valid := ok, soft := soft, adds := adds }

/-- Tags by code (Table 15-9). -/
def tagCode : Option Tag → Nat
  | none => 0
  | some .q8 => 1
  | some .q16 => 2
  | some .fast => 3
  | some .ieee => 4
  | some .fastW => 5
  | some .ieeeW => 6
/-- The tag of a code. -/
def tagOf : Nat → Option Tag
  | 1 => some .q8
  | 2 => some .q16
  | 3 => some .fast
  | 4 => some .ieee
  | 5 => some .fastW
  | 6 => some .ieeeW
  | _ => none

/-- A bank half as numbers: tag, validity, term count and elements. [log 16, DESIGN CHOICE] -/
def wrHalf (h : Half) : List Nat := [tagCode h.tag, b2n h.valid, h.terms] ++ wrTab wrElem h.elems
/-- It read back. -/
def rdHalf : Rd Half := do
  let t ← rdN
  let v ← rdB
  let n ← rdN
  return { tag := tagOf t, valid := v, terms := n, elems := (← rdTab rdElem) }

/-- Format codes (Table 2-1). -/
def fmtCode : Option Fmt → Nat
  | none => 15
  | some .p8 => 0
  | some .p16 => 1
  | some .p32 => 2
  | some .int4 => 4
  | some .int8 => 5
  | some .bf16 => 6
  | some .fp16 => 7
  | some .fp32 => 8
  | some .q8 => 9
  | some .q16 => 10
  | some .q32 => 11
/-- The format of a code, none for 15. -/
def fmtOpt (n : Nat) : Option Fmt := if n = 15 then none else some (fmtD (BitVec.ofNat 4 n))

/-- Lane storage of a class as numbers (Table 6-1). A value not yet written at the save counts as written at the resume. [log 16, DESIGN CHOICE] -/
def wrLanes (g : Seg) (v : VecSt) : List Nat :=
  wrTab (fun x : LaneVal => [fmtCode x.tag, x.bits.toNat, x.mark.toNat]) (v.vr.filter fun p => laneMine g 512 p.1) ++
  wrTab (fun x : LaneQ => fmtCode x.tag :: wrQ x.q ++ [x.mark.toNat]) (v.lq.filter fun p => laneMine g 128 p.1) ++
  wrTab (fun x : MaskR => [x.bits.toNat, x.mark.toNat, b2n x.written]) (v.masks.filter fun p => laneMine g 2 p.1) ++
  wrTab (fun x : RowSt => [b2n x.empty, b2n x.bad, zig x.k, x.n, b2n x.closed, b2n x.ieee, x.mark.toNat, x.vals.length] ++ x.vals.map (·.toNat))
    (v.sk.filter fun p => laneMine g 64 p.1)

/-- Lane storage read back. -/
def rdLanes : Rd (Tab LaneVal × Tab LaneQ × Tab MaskR × Tab RowSt) := do
  let a ← rdTab do
    let t ← rdN
    let b ← rdV 32
    return { tag := fmtOpt t, bits := b, mark := (← rdV 8) }
  let b ← rdTab do
    let t ← rdN
    let q ← rdQ
    return { tag := fmtOpt t, q := q, mark := (← rdV 8) }
  let c ← rdTab do
    let x ← rdV 64
    let m ← rdV 8
    return { bits := x, mark := m, written := (← rdB) }
  let d ← rdTab do
    let e ← rdB
    let x ← rdB
    let k ← rdI
    let n ← rdN
    let cl ← rdB
    let ie ← rdB
    let m ← rdV 8
    return { empty := e, bad := x, k := k, n := n, closed := cl, ieee := ie, mark := m, vals := (← rdList (rdV 32)) }
  return (a, b, c, d)

/-- Keys of pair slots and tag entries of a class (R186). -/
def scaleMine (g : Seg) (half k : Nat) : Bool := if g = .rt then decide (k < half) else decide (half ≤ k)

/-- Statistics as numbers. -/
def wrStats (t : Stats) : List Nat := [t.nelem, t.nnz, t.nsat, t.nufl, t.nnf, zig t.sumlog, t.maxM, zig t.maxE]
/-- They read back. -/
def rdStats : Rd Stats := do
  let a ← rdN
  let b ← rdN
  let c ← rdN
  let d ← rdN
  let e ← rdN
  let f ← rdI
  let g ← rdN
  return { nelem := a, nnz := b, nsat := c, nufl := d, nnf := e, sumlog := f, maxM := g, maxE := (← rdI) }

/-- Tag entries, pair slots and the present record of a class as numbers. [log 16, DESIGN CHOICE] -/
def wrScale (g : Seg) (e : Eng) : List Nat :=
  wrTab (fun t : TagE => [b2n t.valid, t.tid.toNat, t.seq.toNat, t.line.toNat]) (e.tagTable.filter fun p => scaleMine g 128 p.1) ++
  wrTab (fun x : Slot => [b2n x.valid, b2n x.bad, x.mark.toNat, x.pair.m.toNat, x.pair.s.toNat, zig x.x] ++
      wrOpt (fun o : OutRec => [o.lid.toNat, o.tid.toNat, o.seq.toNat, zig o.adj, o.src.toNat]) x.out)
    (e.slots.filter fun p => scaleMine g 16 p.1) ++
  (let r := (e.seg g).present
   [b2n r.valid, b2n r.bad, zig r.adj, r.mark.toNat] ++ wrStats r.stats)

/-- They read back. -/
def rdScale : Rd (Tab TagE × Tab Slot × Present) := do
  let a ← rdTab do
    let v ← rdB
    let t ← rdV 12
    let q ← rdV 32
    return { valid := v, tid := t, seq := q, line := (← rdV 17) }
  let b ← rdTab do
    let v ← rdB
    let bad ← rdB
    let m ← rdV 8
    let pm ← rdV 32
    let ps ← rdV 8
    let x ← rdI
    let o ← rdOpt do
      let l ← rdV 12
      let t ← rdV 12
      let q ← rdV 32
      let a ← rdI
      return { lid := l, tid := t, seq := q, adj := a, src := (← rdV 2) }
    return { valid := v, bad := bad, mark := m, pair := { m := pm, s := ps }, x := x, out := o }
  let v ← rdB
  let bad ← rdB
  let adj ← rdI
  let m ← rdV 8
  return (a, b, { valid := v, bad := bad, adj := adj, mark := m, stats := (← rdStats) })

/-- The sequencer part of a class as numbers: program counter, whether it has halted (R181), loop levels, step number, pass index, first-event and SCHED_FAULT
records. [log 16, DESIGN CHOICE] -/
def wrSeq (s : State) (leng : Nat) (g : Seg) : List Nat :=
  let k := storeKey s leng
  let x := (eng s k).seg g
  let r (p off : Nat) : Nat := (rget s p off).toNat
  [x.pc, b2n (decide (x.st = 3))] ++ wrList (fun l : Loop => [l.body, l.count, l.idx, l.d0.toNat, l.d1.toNat, l.d2.toNat, l.d3.toNat]) x.loops ++
  [x.stepNo.toNat, b2n x.stepDue, x.passIdx.toNat, x.chkNo] ++
  wrOpt (fun p : Nat × Nat => [p.1, p.2]) x.sfFirst ++ [x.sfCount] ++
  [r (pgEng k 0) 0x60, r (pgEng k 0) 0x64, r (pgEng k 0) 0x68] ++
  (List.range 9).map fun i => r (pgEng k 7) (0x44 + 4 * i)

/-- It read back onto an engine; a segment that had halted has halted (R222). -/
def rdSeq (s : State) (leng : Nat) (g : Seg) : Rd State := do
  let k := storeKey s leng
  let pc ← rdN
  let halted ← rdB
  let ls ← rdList do
    let b ← rdN
    let c ← rdN
    let i ← rdN
    let d0 ← rdV 17
    let d1 ← rdV 17
    let d2 ← rdV 17
    return { body := b, count := c, idx := i, d0 := d0, d1 := d1, d2 := d2, d3 := (← rdV 17) }
  let st ← rdV 64
  let due ← rdB
  let px ← rdV 20
  let cn ← rdN
  let sf ← rdOpt do
    let a ← rdN
    return (a, ← rdN)
  let sc ← rdN
  let bit := BitVec.ofNat 64 (2 ^ leng)
  let s := whenS halted (fun s => ((ownerOf s leng g).map fun j => jobMod j (fun b => { b with halted := b.halted ||| bit }) s).getD s) s
  let s := segMod k g (fun x =>
    { x with st := if halted then 3 else x.st, pc := pc, loops := ls, stepNo := st, stepDue := due, passIdx := px, chkNo := cn, sfFirst := sf, sfCount := sc }) s
  let w ← rdMany (rdV 32) 12
  let s := foldS [0, 1, 2] (fun i => rset (pgEng k 0) (0x60 + 4 * i) (w.getD i 0)) s
  return foldS (List.range 9) (fun i => rset (pgEng k 7) (0x44 + 4 * i) (w.getD (3 + i) 0)) s

/-! ### Catalogue entries as bytes (Tables 5-3, 5-4) -/

/-- A summary's 14 bytes. -/
def sumBytes (x : Summary) : List Byte :=
  leBytes 4 x.maxmag.toNat ++ leBytes 4 x.meanlog.toNat ++ leBytes 2 x.zsh.toNat ++ leBytes 2 x.ssh.toNat ++ leBytes 2 x.nsh.toNat

/-- The ring position that holds summary number `j` of the ring, if it is valid. -/
def CatE.at? (e : CatE) (j : Nat) : Option Summary :=
  let back := (e.head + 32 - j) % 32
  if back < e.ring.length then e.ring[back]? else none

/-- The 512 bytes of an entry; a MAXMAG beyond fp32 reads as fp32 rounds it. -/
def catBytes (tid : Nat) (e : CatE) : List Byte :=
  leBytes 2 (tid + e.mode * 2 ^ 12) ++ leBytes 1 (e.job + e.fmt.toNat * 16) ++ leBytes 1 e.w ++ leBytes 1 (e.lag - 1) ++
  leBytes 1 e.coldLeft ++ leBytes 1 (BitVec.ofInt 8 e.adj).toNat ++ leBytes 1 (BitVec.ofInt 8 e.limit).toNat ++
  leBytes 4 e.step.toNat ++ leBytes 4 e.stats.nelem ++ leBytes 4 e.stats.nnz ++ leBytes 4 e.stats.nsat ++
  leBytes 4 e.stats.nufl ++ leBytes 4 e.stats.nnf ++ leBytes 8 (BitVec.ofInt 64 e.stats.sumlog).toNat ++
  leBytes 4 (maxWord e.stats) ++ leBytes 4 e.stagRun ++ leBytes 1 e.head ++ leBytes 1 e.ring.length ++
  leBytes 1 (b2n e.openPart) ++ leBytes 13 0 ++
  (List.range 32).flatMap fun j => ((e.at? j).map sumBytes).getD (leBytes 14 0)

/-- A signed byte. -/
def sbyte (n : Nat) : Int := (BitVec.ofNat 8 n).toInt

/-- An entry read back from its 512 bytes with every saved field, but warm, whatever it was at the save (R136, R221, R222); its boost is 0
(R259). [log 48, DEDUCED; 96, DEDUCED] -/
def catOf (bs : List Byte) : CatE :=
  let head := leAt bs 48 1 % 64
  let n := leAt bs 49 1 % 64
  let one (j : Nat) : Summary :=
    let o := 64 + 14 * j
    { maxmag := BitVec.ofNat 32 (leAt bs o 4), meanlog := BitVec.ofNat 32 (leAt bs (o + 4) 4), zsh := BitVec.ofNat 16 (leAt bs (o + 8) 2),
      ssh := BitVec.ofNat 16 (leAt bs (o + 10) 2), nsh := BitVec.ofNat 16 (leAt bs (o + 12) 2) }
  let (mm, me) := magOf (BitVec.ofNat 32 (leAt bs 40 4))
  { mode := bitsOf (leAt bs 0 2) 12 2, job := leAt bs 2 1 % 4, fmt := BitVec.ofNat 4 (leAt bs 2 1 / 16), w := leAt bs 3 1,
    lag := leAt bs 4 1 % 4 + 1, coldLeft := 0, adj := sbyte (leAt bs 6 1), limit := sbyte (leAt bs 7 1),
    stats := { nelem := leAt bs 12 4, nnz := leAt bs 16 4, nsat := leAt bs 20 4, nufl := leAt bs 24 4, nnf := leAt bs 28 4,
               sumlog := (BitVec.ofNat 64 (leAt bs 32 8)).toInt, maxM := mm, maxE := me },
    stagRun := leAt bs 44 4, head := head, ring := (List.range (min n 32)).map fun i => one ((head + 32 - i) % 32),
    openPart := decide (leAt bs 50 1 % 2 = 1), raised := decide (sbyte (leAt bs 7 1) ≠ 120) }

/-! ### The spare-map digest (R432) -/

/-- The registers the digest covers, in order. -/
def spareRegs : List (Nat × Nat) :=
  ((List.range 16).flatMap fun c => [(pgDie c 1, 0x40), (pgDie c 1, 0x44)] ++
    (List.range 5).flatMap fun e =>
      ([0x50, 0x54, 0x58, 0x5C, 0x60, 0x64, 0x68, 0x6C].map fun o => (pgEng (5 * c + e) 1, o)) ++ [(pgEng (5 * c + e) 3, 0x40)]) ++
  ((List.range 4).flatMap fun h => (pgHub h, 0x68) :: (List.range 26).map fun k => (pgMc h k, 0x40)) ++
  ((List.range 6).map fun f => (pgAbf f, 0x44)) ++ [(pgAbf 0, 0x104), (pgVilri, 0x44)]

/-- The spare-map digest. -/
def spareDigest (s : State) : List Byte := sha512 (spareRegs.flatMap fun p => leBytes 4 (rget s p.1 p.2).toNat)

/-! ### The save image -/

/-- A section to be written: type, engine, address, bytes. -/
abbrev SSect := Nat × Nat × Nat × List Byte

/-- Carrel lines, then one mark byte for each, which Table 8-7 does not name. [log 16, DESIGN CHOICE] -/
def carrelBytes (s : State) (k lo hi : Nat) : List Byte :=
  let ls := (List.range (hi + 1 - lo)).map fun i => cRead s k (lo + i)
  (ls.flatMap fun x => bytesOfLine x.1) ++ ls.map (·.2)

/-- The sections of a job's save image (Table 8-7). -/
def saveSects (s : State) (j : Nat) : List SSect :=
  let b := job s j
  let g := b.seg
  (b.engs.flatMap fun l =>
    let k := storeKey s l
    let e := eng s k
    let (lo, hi) := tabGet (fun _ => (0, 0)) b.foot l
    [(0x0101, l, 0, putNats ((job s j).modset.toNat :: wrSeq s l g)), (0x0102, l, lo, carrelBytes s k lo hi),
     (0x0103, l, 0, putNats (wrHalf e.arr.half0 ++ wrHalf e.arr.half1)), (0x0104, l, 0, putNats (wrLanes g e.vec)),
     (0x0105, l, 0, putNats (wrScale g e))]) ++
  (let base := fget s pgMod (0xA4 + 4 * j) 0 12
   [(0x0106, 0xFF, 0, (List.range b.ntensor).flatMap fun i => catBytes (base + i) (catE s (base + i)))]) ++
  b.stRanges.map fun r => (0x0107, 0xFF, (modNum s * 2 ^ 43 + r.1) / 64, stkBytes s r.1 r.2)

/-- Zero bytes up to a multiple of 64. -/
def pad64 (n : Nat) : Nat := (64 - n % 64) % 64

/-- Lay the sections out from an offset: their table entries, COUNT 0, and their bytes. [log 133, DESIGN CHOICE] -/
def laySects : Nat → List SSect → List Byte × List Byte
  | _, [] => ([], [])
  | o, (ty, e, a, bs) :: t =>
    let n := bs.length
    let (tab, body) := laySects (o + n + pad64 n) t
    (leBytes 2 ty ++ leBytes 1 e ++ leBytes 1 0 ++ leBytes 4 0 ++ leBytes 8 o ++ leBytes 8 n ++ leBytes 8 a ++ tab,
     bs ++ List.replicate (pad64 n) 0 ++ body)

/-- The save image of a paused job (R220, Table 8-6). -/
def saveImage (s : State) (j : Nat) : List Byte :=
  let b := job s j
  let ss := saveSects s j
  let tabLen := 32 * ss.length
  let start := 256 + tabLen + pad64 tabLen
  let (tab, body) := laySects start ss
  let len := start + body.length
  let head := leBytes 4 0x534E5244 ++ leBytes 2 1 ++ leBytes 1 (b2n b.bg) ++ leBytes 1 j ++ leBytes 8 len ++
    leBytes 8 b.engMask.toNat ++ leBytes 8 b.pauseTick.toNat ++ leBytes 4 ss.length ++ leBytes 4 256 ++
    (spareDigest s).take 8 ++ leBytes 16 0 ++ b.digest
  let rest := leBytes 64 0 ++ tab ++ List.replicate (pad64 tabLen) 0 ++ body
  head ++ sha512 (head ++ leBytes 64 0 ++ rest) ++ rest

/-- The sections of a save image. -/
def savedSects (bs : List Byte) : List SSect :=
  (List.range (leAt bs 32 4)).map fun i =>
    let o := leAt bs 36 4 + 32 * i
    (leAt bs o 2, leAt bs (o + 2) 1, leAt bs (o + 24) 8, (bs.drop (leAt bs (o + 8) 8)).take (leAt bs (o + 16) 8))

/-- The module set of the job that a save image holds (R221, R355), first in its SEQ sections. [log 48, DEDUCED] -/
def savedSet (bs : List Byte) : Option Nat :=
  ((savedSects bs).find? fun x => decide (x.1 = 0x0101)).bind fun x => (getNats x.2.2.2.length x.2.2.2).head?

/-- The other modules of a module set: what makes a job span modules (R221, R355). [log 48, DEDUCED] -/
def otherMods (s : State) (set : Nat) : Nat := (BitVec.ofNat 32 set &&& ~~~BitVec.ofNat 32 (2 ^ modNum s)).toNat

/-- The first check of R221 that fails; 0 for none. `digest` is the image's, `mods` whether the module set is the same. [log 48, DEDUCED] -/
def resumeCheck (s : State) (bs digest : List Byte) (mods : Bool) : Nat :=
  if leAt bs 0 4 ≠ 0x534E5244 ∨ leAt bs 4 2 ≠ 1 then 0x10
  else if sha512 (bs.take 128 ++ leBytes 64 0 ++ bs.drop 192) ≠ (bs.drop 128).take 64 then 0x11
  else if (bs.drop 64).take 64 ≠ digest then 0x12
  else if ((List.range 64).filter (BitVec.ofNat 64 (leAt bs 16 8)).getLsbD).any (absent s) then 0x13
  else if !mods then 0x14
  else 0

/-- The entries of a class take the place of whatever the table held for it (R222). -/
def putBack {α : Type} [DecidableEq α] (d : Nat → α) (mine : Nat → Bool) (l now : Tab α) : Tab α :=
  l.foldl (fun t p => tabSet d t p.1 p.2) (now.filter fun p => !mine p.1)

/-- Put a save image's section back (R221-R223). -/
def restoreSect (j base : Nat) (x : SSect) (s : State) : State :=
  let (ty, e, a, bs) := x
  let g := (job s j).seg
  let k := storeKey s e
  let nums := getNats bs.length bs
  match ty with
  | 0x0101 => (rdSeq s e g (nums.drop 1)).1
  | 0x0102 =>
    let n := bs.length / 65
    foldS (List.range n) (fun i => cPut k (a + i) (lineOfBytes ((bs.drop (64 * i)).take 64)) (bs.getD (64 * n + i) 0)) s
  | 0x0103 =>
    let ((h0, h1), _) := ((do
      let a ← rdHalf
      return (a, ← rdHalf) : Rd (Half × Half)) nums)
    arrMod k (fun r => { r with half0 := h0, half1 := h1 }) s
  | 0x0104 =>
    let ((a, b, c, d), _) := rdLanes nums
    vecMod k (fun v =>
      { v with
        vr := putBack (fun _ => {}) (laneMine g 512) a v.vr, lq := putBack (fun _ => {}) (laneMine g 128) b v.lq,
        masks := putBack (fun _ => {}) (laneMine g 2) c v.masks, sk := putBack (fun _ => {}) (laneMine g 64) d v.sk }) s
  | 0x0105 =>
    let ((a, b, p), _) := rdScale nums
    segMod k g (fun y => { y with present := p }) (engMod k (fun y =>
      { y with tags := putBack (fun _ => {}) (scaleMine g 128) a y.tags, tagDue := y.tagDue.filter (fun x => !scaleMine g 128 x.2.1),
               slots := putBack (fun _ => {}) (scaleMine g 16) b y.slots }) s)
  | 0x0106 =>
    let st := jobStep s (job s j)
    foldS (List.range (bs.length / 512)) (fun i => catMod (base + i) (fun old =>
      let back := (st.toNat % 2 ^ 32 + 2 ^ 32 - leAt bs (512 * i + 8) 4) % 2 ^ 32
      { catOf ((bs.drop (512 * i)).take 512) with
        job := j, dirtab := old.dirtab, src := old.src, step := if (job s j).bg then st - BitVec.ofNat 64 back else old.step })) s
  | 0x0107 => stkPut (64 * a % 2 ^ 42) bs s
  | _ => s

/-- The TID base a save image's Catalogue section was taken at. -/
def savedBase (bs : List Byte) : Option Nat :=
  ((savedSects bs).find? fun x => decide (x.1 = 0x0106)).map fun x => leAt x.2.2.2 0 2 % 2 ^ 12

end Sys2Proof.Machine
end

