-- ==== Sys2Proof/Machine/Jobs.lean ====
section
/-! DEFINITION. Job control (spec/07 R198, spec/08 R219-R223, spec/15 R402, spec/16 R421, spec/01 R27): loading, resuming,
unloading, resetting, pausing and continuing jobs, save images, and the engine reset. -/

namespace Sys2Proof.Machine

/-- MOD.LOADRES and the event of a rejected load (R198, R402). -/
def reject (j code pc leng : Nat) (s : State) : State :=
  let s := rset pgMod 0xA0 (BitVec.ofNat 32 (code + pc % 2 ^ 16 * 2 ^ 8 + leng % 2 ^ 6 * 2 ^ 24 + j * 2 ^ 30)) s
  raise pgMod 1 (jobEvent j 1 s)

/-- The image at a slot's LOADADDR, where its range is populated. [log 49, DEDUCED] -/
def imageAt (s : State) (off : Nat) : Option Img :=
  if !rangeOk off 256 then none
  else
    let n := leAt (stkBytes s off 16) 8 8
    if n < 256 ∨ !rangeOk off n then none else some (parseImg (stkBytes s off n))

/-- The save image at a slot's SAVEADDR. -/
def savedAt (s : State) (off : Nat) : List Byte :=
  if !rangeOk off 256 then []
  else
    let n := leAt (stkBytes s off 16) 8 8
    if !rangeOk off n then [] else stkBytes s off n

/-- Units run on an engine of a job (R251). -/
def testsOn (s : State) (mask : BitVec 64) : Bool :=
  ((List.range 64).filter mask.getLsbD).any fun l =>
    s.sec.runs.any fun r => decide (5 * r.die + r.peng = storeKey s l) || decide (5 * r.die + r.peng = execKey s l)

/-- Where an engine's new code segment goes beside the other job's (R176). -/
def codeBase (s : State) (j l n : Nat) : Nat :=
  match (List.range 4).find? fun i => let b := job s i; b.occupied && !b.loadWait && decide (i ≠ j) && b.uses l with
  | none => 0
  | some i =>
    let (cb, cn) := tabGet (fun _ => (0, 0)) (job s i).codeAt l
    if n ≤ cb then 0 else cb + cn

/-- Install one engine's sections: code, Carrel data, hold windows, footprint registers, the expected PC signature. -/
def installEngine (j : Nat) (m : Img) (l : Nat) (s : State) : State :=
  let k := storeKey s l
  let o := if m.cls = 1 then 4 else 0
  let (lo, hi) := m.foot l
  let base := codeBase s j l (m.code l).length
  let s := engMod k (fun e =>
    { e with
      code := (m.code l).zipIdx.foldl (fun t (w, i) => tabSet (fun _ => 0) t (base + i) w) e.code
      holdsRt := if m.cls = 0 then m.holds l else e.holdsRt
      holdsBg := if m.cls = 1 then m.holds l else e.holdsBg }) s
  let s := engMod k (fun e => e.segMod m.seg (fun _ => {})) s
  let s := foldS ((m.ofTy 2).filter fun x => decide (x.eng = l)) (fun x s =>
    foldS (List.range (x.len / 64)) (fun i => cPut k (x.addr + i) (lineOfBytes ((m.sect x).drop (64 * i) |>.take 64)) 0) s) s
  let s := rset (pgEng k 4) (0x54 + o) (BitVec.ofNat 32 hi) (rset (pgEng k 4) (0x4C + o) (BitVec.ofNat 32 lo) s)
  whenS (decide (m.cls = 0)) (rset (pgEng k 0) 0x6C (expectedSig (m.prog l))) s

/-- The job of an accepted image. -/
def jobOf (s : State) (j : Nat) (m : Img) (resume : Bool) : Job :=
  { st := 1, bg := decide (m.cls = 1), engMask := m.engMask, stream := m.stream, gencompat := decide (m.flags = 1),
    budget := m.budget, yreserve := m.yreserve, seed := m.seed, digest := (m.bytes.drop 64).take 64,
    seedId := BitVec.ofNat 32 (leNat ((sha512 (leBytes 8 m.seed.toNat)).take 4)), ntensor := m.ntensor, tensors := m.tensors,
    factors := m.engs.foldl (fun t l => match m.for? 4 l with
      | some x => tabSet (fun _ => []) t l ((List.range x.count).map fun i => BitVec.ofNat 32 (leAt (m.sect x) (4 * i) 4))
      | none => t) [],
    hubMoves := m.hubMoves, foot := m.engs.foldl (fun t l => tabSet (fun _ => (0, 98303)) t l (m.foot l)) [],
    stRanges := ((m.ofTy 7).map fun x => (64 * x.addr % 2 ^ 42, x.len)) ++
      ((m.tensors.filter fun t => decide (t.src = 1)).map fun t => (64 * t.dirtab.toNat % 2 ^ 42, 256)),
    nitem := if m.cls = 0 then nitemOf s j m.items else 0,
    modset := rget s (pgAbf 0) (0x110 + 4 * j), resumed := resume, traffic := jobTraffic s m,
    codeAt := m.engs.foldl (fun t l => tabSet (fun _ => (0, 0)) t l (codeBase s j l (m.code l).length, (m.code l).length)) [] }

/-- The record of a static tensor, with the TID of the range the load allocates (R116, R117). [log 91, DESIGN CHOICE] -/
def staticRec (b : Job) (base : Nat) (cold : Bool) (t : TensorE) : ScaleRec :=
  let l := Config.staticStats (leNat b.digest) t.lid.toNat
  { tid := BitVec.ofNat 12 (base + t.lid.toNat), src := t.src, fmt := t.fmt, cold := cold,
    scale := scaleWord (scaleBase b t.src t.lid.toNat) 0,
    stats := { nelem := l.getD 0 0, nnz := l.getD 1 0, nsat := l.getD 2 0, nufl := l.getD 3 0, nnf := l.getD 4 0,
               sumlog := unzig (l.getD 5 0), maxM := l.getD 6 0, maxE := unzig (l.getD 7 0) } }

/-- The Registrar writes the records of the static tensors of slot `j` (R116), each at one line of the job's Carrel footprints or Stacks
ranges. [log 91, DESIGN CHOICE] -/
def staticRecs (j base : Nat) (cold : Bool) (s : State) : State :=
  let b := job s j
  foldS (b.tensors.filter fun t => decide (t.bpt = 0)) (fun t s =>
    let v := (staticRec b base cold t).line
    let (stk, x, y) := Config.staticPlace (leNat b.digest) t.lid.toNat
    if stk && !b.stRanges.isEmpty then
      let r := b.stRanges.getD (x % b.stRanges.length) (0, 64)
      stkWrite (r.1 + 64 * (y % max 1 (r.2 / 64))) v 0 s
    else
      let l := b.engs.getD (x % max 1 b.engs.length) 0
      let (lo, hi) := tabGet (fun _ => (0, 98303)) b.foot l
      cPut (storeKey s l) (lo + y % (hi + 1 - lo)) v 0 s) s

/-- A Catalogue entry as a load allocates it: history tensors in MODE 2, others in MODE 1, cold (R130, R137). [log 32, DEDUCED] -/
def freshEntry (j : Nat) (t : TensorE) : CatE :=
  { mode := if t.src = 1 then 2 else 1, job := j, fmt := t.fmt, w := t.w, lag := t.lag, coldLeft := t.w, dirtab := t.dirtab, src := t.src }

/-- The TID range of a load: a resumed job's own range where it is free, else the lowest free one (R130). -/
def loadBase (s : State) (m : Img) (saved : List Byte) : Nat :=
  let low := (tidBase s m.ntensor).getD 0
  match savedBase saved with
  | none => low
  | some b =>
    if b + m.ntensor ≤ 4096 ∧ ((List.range m.ntensor).all fun i => decide ((catE s (b + i)).mode = 0)) then b else low

/-- An accepted image is installed (R198), with the save image's state where it resumes (R221). [log 32, DEDUCED; 48, DEDUCED] -/
def accept (j : Nat) (m : Img) (resume : Bool) (saved : List Byte) (s : State) : State :=
  let b := jobOf s j m resume
  let base := loadBase s m saved
  let shares := jobShares s m
  let s := foldS m.engs (installEngine j m) s
  let s := foldS (m.ofTy 7) (fun x => stkPut (64 * x.addr % 2 ^ 42) (m.sect x)) s
  let s := jobMod j (fun _ => b) s
  let s := fset pgMod (0xA4 + 4 * j) 0 12 base s
  let s := foldS m.tensors (fun t => catMod (base + t.lid.toNat) (fun _ => freshEntry j t)) s
  let s := foldS shares (fun x => putShare j x.1 x.2) (staticRecs j base (!resume) s)
  let s := whenS resume (fun s =>
    let s := foldS (savedSects saved) (restoreSect j base) s
    let s := foldS m.engs (fun l => let k := storeKey s l; finc (pgEng k 8) 0x50 0 32 1) s
    whenS (decide (m.cls = 0)) (jobMod j fun b => { b with firstLost := some (BitVec.ofNat 64 (leAt saved 24 8) - 1) }) s) s
  let s := rset pgMod 0xA0 (BitVec.ofNat 32 (j * 2 ^ 30)) s
  jobEvent j (if resume then 4 else 0) s

/-- Whether a resumed job spans the modules it spanned when it was saved (R221): the set in the save image, and where that holds
none the one recorded at the save. A set that names this module alone, or none, spans nothing. [log 48, DEDUCED] -/
def sameMods (s : State) (saved dig : List Byte) (j : Nat) : Bool :=
  let kept := (s.sec.savedSets.find? fun p => decide (p.1 = dig)).map fun p => p.2.toNat
  decide (otherMods s (((savedSet saved).or kept).getD 0) = otherMods s (rget s (pgAbf 0) (0x110 + 4 * j)).toNat)

/-- The load of the image at LOADADDR of a free slot: the checks of Table 7-18, and of R221 on a resume. [log 48, DEDUCED] -/
def loadNow (j : Nat) (resume : Bool) (s : State) : State :=
  let s := jobMod j (fun _ => {}) s
  match imageAt s (rget64 s pgMod (0x60 + 16 * j)).toNat with
  | none => reject j 1 0 0 s
  | some m =>
    match loadCheck s j m with
    | some (c, pc, l) => reject j c pc l s
    | none =>
      if resume then
        let saved := savedAt s (rget64 s pgMod (0x68 + 16 * j)).toNat
        let dig := (m.bytes.drop 64).take 64
        let c := resumeCheck s saved dig (sameMods s saved dig j)
        if c ≠ 0 then reject j c 0 0 s else accept j m true saved s
      else accept j m false [] s

/-- JOB_LOAD and JOB_RESUME (R198, R221, R251): a slot in use refuses; a load waits for units that run on its engines. [log 49, DEDUCED] -/
def doJobLoad (j : Nat) (resume : Bool) (s : State) : State :=
  if !running s || !enabled s pgMod then s
  else if (job s j).occupied then reject j 0x20 0 0 s
  else
    match imageAt s (rget64 s pgMod (0x60 + 16 * j)).toNat with
    | some m =>
      if testsOn s m.engMask then jobMod j (fun _ => { st := 1, engMask := m.engMask, loadWait := true, resumed := resume }) s
      else loadNow j resume s
    | none => loadNow j resume s

/-- Loads that waited for units go on once none runs on their engines. -/
def heldLoads (s : State) : State :=
  foldS (List.range 4) (fun j s =>
    let b := job s j
    if b.loadWait && !testsOn s b.engMask then loadNow j b.resumed s else s) s

/-- JOB_UNLOAD (R402): at the next pause point; a paused job is at one. [log 46, DEDUCED] -/
def doJobUnload (j : Nat) (s : State) : State :=
  let b := job s j
  if !b.occupied then s
  else if b.st = 4 ∨ b.loadWait then freeSlot j s
  else jobMod j (fun b => { b with unloadReq := true, st := if b.st = 2 then 3 else b.st }) s

/-- JOB_SLOT_RESET (R27). [log 47, DEDUCED] -/
def doJobSlotReset (j : Nat) (s : State) : State := stopSlot j s

/-- JOB_PAUSE (R219) of a running job; in any other state of the slot, state 1 among them, the request is dropped. [log 46, DEDUCED; 138, DESIGN CHOICE] -/
def doJobPause (j : Nat) (s : State) : State :=
  if (job s j).st = 2 then jobMod j (fun b => { b with st := 3, pauseReq := true }) s else s

/-- JOB_CONT (R402): a paused job continues at the next tick. -/
def doJobCont (j : Nat) (s : State) : State :=
  if (job s j).st = 4 ∧ enabled s pgMod = true then jobMod j (fun b => { b with contReq := true }) s else s

/-- SAVE_IMAGE_WRITE (R219): the save image of a paused job goes to SAVEADDR. [log 48, DEDUCED] -/
def doSaveImageWrite (j : Nat) (s : State) : State :=
  let b := job s j
  let off := (rget64 s pgMod (0x68 + 16 * j)).toNat
  if b.st = 4 ∧ b.saved = false then
    let bs := saveImage s j
    if rangeOk off bs.length ∧ off % 64 = 0 then
      let s := secMod (fun x => { x with savedSets := (b.digest, b.modset) :: x.savedSets.filter fun p => decide (p.1 ≠ b.digest) })
        (stkPut off bs s)
      raise pgMod 2 (jobEvent j 3 (jobMod j (fun b => { b with saved := true }) s))
    else s
  else s

/-- The storage a physical engine's reset clears: that of the logical engine it executes or stores. [log 9, DEDUCED; 84, DEDUCED] -/
def resetKey (s : State) (x : Nat) : Nat :=
  match lengAt s x with
  | some l => storeKey s l
  | none => x

/-- ENGINE_RESET (R421): the engine's jobs are reset now, its own state at the next tick. [log 84, DEDUCED] -/
def doEngineReset (x : Nat) (s : State) : State :=
  let k := resetKey s x
  if !running s || (eng s k).cutReset then s
  else
    let s := foldS (List.range 4) (fun j s =>
      if (job s j).engs.any fun l => decide (storeKey s l = k) then stopSlot j s else s) s
    engMod k (fun e => { e with cutReset := true }) s

/-- At the tick an engine reset clears the engine (R421). [log 84, DEDUCED] -/
def engineClear (k : Nat) (s : State) : State :=
  let s := clearLanes k .rt (clearLanes k .bg (clearSeg k .rt (clearSeg k .bg s)))
  let s := engMod k (fun e =>
    { e with tags := [], tagDue := [], slots := [], cutReset := false, units := [], claims := [], olds := [], vec := {},
             arr := { e.arr with tile := { e.arr.tile with valid := false }, half0 := {}, half1 := {}, lds := none, lastPass := none,
                                 flights := [], drain := none, drainBg := none, reads := [], gap := none } }) s
  let s := foldS [0x60, 0x64, 0x78] (fun o => rset (pgEng k 0) o 0) s
  let s := fset (pgEng k 0) 0x74 16 1 0 s
  foldS [0x44, 0x48, 0x4C, 0x50, 0x54, 0x58, 0x5C, 0x60, 0x64] (fun o => rset (pgEng k 7) o 0) s

/-- JOB_LOAD. -/
def execJobLoad (slot : BitVec 2) (s : State) : Res := .next (doJobLoad slot.toNat false s)
/-- JOB_RESUME. -/
def execJobResume (slot : BitVec 2) (s : State) : Res := .next (doJobLoad slot.toNat true s)
/-- JOB_UNLOAD. -/
def execJobUnload (slot : BitVec 2) (s : State) : Res := .next (doJobUnload slot.toNat s)
/-- JOB_SLOT_RESET. -/
def execJobSlotReset (slot : BitVec 2) (s : State) : Res := .next (doJobSlotReset slot.toNat s)
/-- JOB_PAUSE. -/
def execJobPause (slot : BitVec 2) (s : State) : Res := .next (doJobPause slot.toNat s)
/-- SAVE_IMAGE_WRITE. -/
def execSaveImageWrite (slot : BitVec 2) (s : State) : Res := .next (doSaveImageWrite slot.toNat s)
/-- JOB_CONT. -/
def execJobCont (slot : BitVec 2) (s : State) : Res := .next (doJobCont slot.toNat s)
/-- ENGINE_RESET; a die has engines E0 to E4 only (R388). -/
def execEngineReset (die : BitVec 4) (peng : BitVec 3) (s : State) : Res :=
  .next (whenS (decide (peng.toNat < 5)) (doEngineReset (5 * die.toNat + peng.toNat)) s)

end Sys2Proof.Machine
end

