-- ==== Sys2Proof/Machine/Acc.lean ====
section
/-! DEFINITION. The Accession ports (spec/11_accession_ports.md R286-R312): start checks, link start and stop, the sample
counter, windows, tiles and capture rings. -/

namespace Sys2Proof.Machine

/-! ### Start checks (Table 11-7) -/

/-- Check 0x01: parameters within Table 11-1. -/
def accOk1 (s : State) (q : Nat) : Bool :=
  let n := fget s (pgAcc q) 0x44 8 5
  let cs := fget s (pgAcc q) 0x44 15 2
  decide (fget s (pgAcc q) 0x44 13 2 ≠ 3) && decide (8 ≤ n) && decide (n ≤ 16) && decide (cs ≤ 2) && decide (n + cs ≤ accNp s q) &&
    decide (1600 ≤ accRate s q) && decide (accRate s q ≤ 3250)

/-- Check 0x02: the frame size, the multiblock and the release delay. -/
def accOk2 (s : State) (q : Nat) : Bool :=
  decide (accF s q * 8 * accL s q = accM s q * accS s q * accNp s q) && decide (256 * accE s q % accF s q = 0) &&
    decide (fget s (pgAcc q) 0x48 1 9 ≤ 32 * accE s q - 1)

/-- Physical lane of logical lane `i`. -/
def accLane (s : State) (q i : Nat) : Nat := fget s (pgAcc q) (0x50 + 4 * (i / 4)) (8 * (i % 4)) 5

/-- Check 0x03: no physical lane twice. -/
def accOk3 (s : State) (q : Nat) : Bool :=
  let l := (List.range (accL s q)).map (accLane s q)
  decide (l.eraseDups.length = l.length)

/-- Check 0x04: at most 64e9 instants per second (R298); ISEL and QSEL below M. -/
def accOk4 (s : State) (q : Nat) : Bool :=
  decide (accRate s q * 10 ^ 7 * accL s q * 64 ≤ 64 * 10 ^ 9 * 66 * accM s q * accNp s q) &&
    decide (fget s (pgAcc q) 0x84 0 3 < accM s q) && decide (fget s (pgAcc q) 0x84 3 3 < accM s q)

/-- Check 0x05: HOP, NLOG and the FFT load (R300). -/
def accOk5 (s : State) (q : Nat) : Bool :=
  decide (16 ≤ accHop s q) && decide (accHop s q ≤ 65536) && decide (fget s (pgAcc q) 0x84 12 4 ≤ 8) &&
    decide (fget s (pgAcc q) 0x84 8 4 ≤ 12) &&
    (decide (accKind s q = 0) ||
      decide (accRate s q * 10 ^ 7 * accL s q * 64 * accN s q ≤ 2 * 10 ^ 9 * 66 * accM s q * accNp s q * accD s q * accHop s q))

/-- Check 0x06: the tile's size and bins (R301). -/
def accOk6 (s : State) (q : Nat) : Bool :=
  let c32 := fget s (pgAcc q) 0x9C 8 6
  let bins := match accKind s q with
    | 0 => 0
    | 1 => fget s (pgAcc q) 0x9C 14 16 + accCols s q / 2
    | _ => fget s (pgAcc q) 0x9C 14 16 + accCols s q * 2 ^ fget s (pgAcc q) 0x84 21 3
  decide (1 ≤ c32) && decide (c32 ≤ 32) && decide (accRows s q * accCols s q ≤ 65536) && decide (fget s (pgAcc q) 0x84 21 3 ≤ 6) &&
    decide (bins ≤ accN s q)

/-- A port's rings as (first byte, bytes): raw, decimated. -/
def accRing (s : State) (q : Nat) (dec : Bool) : Nat × Nat :=
  let o := if dec then 0xB0 else 0xA0
  (64 * (rget64 s (pgAcc q) o).toNat, 64 * (rget64 s (pgAcc q) (o + 8)).toNat)

/-- Every enabled ring of every port, stopped or not (R293). -/
def allRings (s : State) : List (Nat × Bool) :=
  (List.range 4).flatMap fun p => [false, true].filterMap fun d => if ringEn s p d then some (p, d) else none

/-- Check 0x07: placement, divisibility and overlap (R293, R294). -/
def accOk7 (s : State) (q : Nat) : Bool :=
  let rawLen := (accRing s q false).2 / 64
  (!ringEn s q false || ((decide (accNp s q ≠ 12) || decide (rawLen % 3 = 0)) && decide (rawLen * 512 / accNp s q % accM s q = 0))) &&
    ([false, true].filter (ringEn s q)).all fun d =>
      let (b, n) := accRing s q d
      decide (0 < n) && rangeOk b n && (allRings s).all fun (p, e) =>
        (decide (p = q) && decide (e = d)) ||
          (let (b', n') := accRing s p e; decide (b + n ≤ b') || decide (b' + n' ≤ b))

/-- log2 of the share for a rate (R324): 100 channels of 64 bytes in 192 ns per position. -/
def captureLog (r : Nat × Nat) : Nat :=
  ((List.range 7).find? fun k => decide (r.1 * 32 * 3 ≤ 2 ^ k * 100 * 10 ^ 9 * 31 * r.2)).getD 7

/-- Shares a port needs: (hub, log2 share). -/
def captureShares (s : State) (q : Nat) : List (Nat × Nat) :=
  (List.range 4).filterMap fun h =>
    let r := [false, true].foldl (fun a d =>
      if ringEn s q d && decide ((accRing s q d).1 / 2 ^ 38 = h) then fracAdd a (ringRate s q d) else a) (0, 1)
    if r.1 = 0 then none else some (h, captureLog r)

/-- Check 0x08: the write rate, the Stacks limit and the shares (R264, R296, R324). The 126 GB/s are the 1,008 Gbit/s of a full port,
whose exact payload is 32 x 32.5 x 64/66 Gbit/s (Table 1-9, Example 11-1). [log 122, DEDUCED] -/
def accOk8 (s : State) (q : Nat) : Bool :=
  let r := captureRate s q
  let others := (List.range 4).foldl (fun a p => a + (if p ≠ q ∧ accState s p ≠ 0 then captureTraffic s p else 0)) 0
  let jobs := (List.range 4).foldl (fun a i => a + (if (job s i).bg then 0 else (job s i).traffic)) 0
  decide (r.1 * 66 ≤ 130 * 64 * 10 ^ 9 * r.2) && decide (captureTraffic s q + others + jobs ≤ stackLimit s) &&
    (captureShares s q).all fun x => decide (x.2 < 6) && decide (2 ^ x.2 + shareSum (hubShares s x.1) ≤ hubLimit s x.1)

/-- The RT job of a port's stream (R26, R306). -/
def streamJob (s : State) (q : Nat) : Option Nat :=
  (List.range 4).find? fun j => let b := job s j; b.occupied && decide (b.st ≠ 1 ∨ b.loadWait = false) && !b.bg && decide (b.stream = q)

/-- Check 0x0A: the lead and the mover timing of a loaded RT job (R307). -/
def accOkA (s : State) (q : Nat) : Bool :=
  match streamJob s q with
  | some j => okLead s q (job s j).hubMoves
  | none => true

/-- The start checks in order (Table 11-7); 0 when all hold. [log 64, DESIGN CHOICE] -/
def accCheck (s : State) (q : Nat) : Nat :=
  if !accOk1 s q then 1 else if !accOk2 s q then 2 else if !accOk3 s q then 3 else if !accOk4 s q then 4
  else if !accOk5 s q then 5 else if !accOk6 s q then 6 else if !accOk7 s q then 7 else if !accOk8 s q then 8
  else if !accOkA s q then 0x0A else 0

/-! ### The link (R288-R290, R308, R311) -/

/-- A condition of Table 11-4 to be recorded at the tick: 0 CRC, 1 link down, 2 SYSREF, 3 capture, 4 refusal. [log 57, DEDUCED] -/
def accNote (q cond lane : Nat) (s : State) : State :=
  accMod q (fun a =>
    { a with due := if a.due.any (fun d => decide (d.1 = cond)) then
        a.due.map fun d => if d.1 = cond then (d.1, d.2.1, d.2.2 + 1) else d
      else a.due ++ [(cond, lane, 1)] }) s

/-- Errata of the port conditions of the frame, one each (R310). [log 63, DEDUCED] -/
def tickAcc (s : State) : State :=
  foldS (List.range 4) (fun q s =>
    let s := foldS (acc s q).due (fun d => errata
      { hubEr q 0x0601 (if d.1 = 2 then 1 else 2) 0x13 with detail := [q, d.2.1, d.2.2] }) s
    accMod q (fun a => { a with due := [] }) s) s

/-- Put LSTAT.STATE and HOLDOVER. -/
def accPut (q st : Nat) (hold : Bool) (s : State) : State := fset (pgAcc q) 0x100 2 1 (b2n hold) (fset (pgAcc q) 0x100 0 2 st s)

/-- The port's shares in the wheels. -/
def accShares (q : Nat) (l : List (Nat × Nat)) (s : State) : State :=
  let s := accMod q (fun a => { a with shares := l }) s
  foldS (List.range 4) (fun h s => showCapture h (packHub h s)) s

/-- ACC_LINK_START (R289, R307): the configuration is checked; a refusal leaves the port stopped. [log 57, DEDUCED; 61, DEDUCED] -/
def doAccLinkStart (q : Nat) (s : State) : State :=
  let p := pgAcc q
  if !running s || decide (fget s p 0x08 0 1 = 0) || decide (accState s q ≠ 0) then s
  else
    let s := fset p 0x40 0 1 1 s
    let c := accCheck s q
    if c ≠ 0 then
      let s := rset p 0x120 (BitVec.ofNat 32 c) (fset p 0x0C 2 1 1 s)
      accNote q 4 0xFF (raise p 6 (errInfo p 3 0x40 4 c s))
    else
      let s := rset p 0x120 0 (fset p 0x0C 2 1 0 s)
      let s := accMod q (fun a => { a with gapFrom := none, gap := none, bad := [], tile := [], stopAt := none, rawOn := false, decOn := false, slept := false }) s
      accPut q 1 false (accShares q (captureShares s q) s)

/-- ACC_LINK_STOP (R311): the frame whose window is open, and those before it that no tile has been made of, are FAILED. -/
def doAccLinkStop (q : Nat) (s : State) : State :=
  let p := pgAcc q
  let s := fset p 0x40 0 1 0 s
  if accState s q = 0 then s
  else accShares q [] (accPut q 0 false (accMod q (fun a =>
    { a with rawOn := false, decOn := false, armed := false, slept := false, torn := some (if a.bnFrame ≤ s.tick then s.tick else a.bnFrame) }) s))

/-- ARM (R288, R399): the next SYSREF edge is used, in one-shot mode. -/
def doArm (q : Nat) (s : State) : State :=
  if running s && enabled s (pgAcc q) && decide (fget s (pgAcc q) 0x40 2 1 = 1) then accMod q (fun a => { a with armed := true }) s else s

/-- EVENT 0x000B (Table 14-6). -/
def accEvent (q st : Nat) (cs : List (BitVec 64)) (s : State) : State := sendEvent 0x000B ([q, st] ++ cs.map (·.toNat)) s

/-- The rings of a port start at instant `c` (R294, R295). -/
def ringsStart (q : Nat) (c : BitVec 64) (s : State) : State :=
  let p := pgAcc q
  let d := BitVec.ofNat 64 (c.toNat / accD s q)
  let s := if ringEn s q false then
      accMod q (fun a => { a with rawOn := true, rawNext := 0, stopAt := none, rawResume := false }) (rset64 p 0xC8 c (rset64 p 0xD8 c (rset64 p 0xF0 c s)))
    else s
  if ringEn s q true then
    accMod q (fun a => { a with decOn := true, decNext := 0, decResume := false }) (rset64 p 0xD0 d (rset64 p 0xE0 d (rset64 p 0xF8 d s)))
  else s

/-- A ring goes on at the first whole group from instant `c` on (R294, R295). -/
def ringFrom (q : Nat) (dec : Bool) (c : BitVec 64) (s : State) : State :=
  let p := pgAcc q
  let u := ringGroup s q dec c
  let n := (accRing s q dec).2 / 64 / ringLines s q dec
  let next := if n = 0 then 0 else u % n * ringLines s q dec
  let s := rset64 p (if dec then 0xF8 else 0xF0) (ringFirst s q dec u) (rset64 p (if dec then 0xE0 else 0xD8) (ringCount s q dec u) s)
  accMod q (fun a => if dec then { a with decNext := next } else { a with rawNext := next }) s

/-- The edge selected by the port's mode may be used. -/
def edgeUsable (s : State) (q : Nat) : Bool := decide (fget s (pgAcc q) 0x40 2 1 = 0) || (acc s q).armed

/-- The Night Desk watches the port. -/
def ndWatches (s : State) (q : Nat) : Bool := decide (fget s pgNd 0x40 0 1 = 1) && decide (fget s pgNd 0x40 1 2 = q)

/-- SYSREF_EDGE (R288-R290): the selected edge fixes the LEMC phase, and the counter loads SCNT_INIT at the first release; later
edges of continuous mode are checked. A port that Standby stopped takes none (R311). -/
def doSysrefEdge (q : Nat) (onPhase : Bool) (o : LinkObs) (s : State) : State :=
  let p := pgAcc q
  if accState s q = 1 ∧ (moversRun s || ndWatches s q) = true ∧ o.locked = true ∧ o.aligned = true ∧ edgeUsable s q = true then
    let c := rget64 s p 0x70
    let s := accMod q (fun a => { a with armed := false, bnPrev := c, bn := c }) (rset64 p 0x78 c (accPut q 2 false s))
    accEvent q 2 [c] (raise p 3 (ringsStart q c s))
  else if accState s q = 2 ∧ fget s p 0x40 2 1 = 0 ∧ onPhase = false then
    accNote q 2 0xFF (raise p 4 (finc p 0x104 24 8 1 s))
  else s

/-- A link error of the watched port stops the Night Desk's chain (R278). -/
def ndPortError (q : Nat) (s : State) : State :=
  if ndWatches s q && !s.nd.stopped then
    let s := errata { ty := 0x0601, sev := 2, level := 0, block := 8, detail := [q] } (sendEvent 0x000A [q] s)
    { s with nd := { s.nd with stopped := true } }
  else s

/-- The counter of a port's next instant: the last value a command carried or a read showed, and while the counter runs as much more
as time has passed since, a free value of at most one period at 64e9 instants a second (R298). [log 18, DESIGN CHOICE; 64, DESIGN CHOICE; 123, DESIGN CHOICE] -/
def scntNow (s : State) (q n : Nat) : BitVec 64 :=
  let c := rget64 s (pgAcc q) 0x78
  if (accState s q = 2 ∨ accState s q = 3) ∧ (acc s q).slept = false then c + BitVec.ofNat 64 ((Config.openWord n).toNat % (640 * period s + 1)) else c

/-- ACC_LINK_DOWN (R308, R310): the counter goes into holdover. The counter at the loss and the lane it was on are no operands: free
values. [log 63, DEDUCED; 123, DESIGN CHOICE] -/
def doAccLinkDown (q : Nat) (s : State) : State :=
  let p := pgAcc q
  if accState s q = 2 then
    let (f, s) := takeFree s
    let (l, s) := takeFree s
    let c := scntNow s q f
    let lane := accLane s q ((Config.openWord l).toNat % accL s q)
    let s := accMod q (fun a => { a with gapFrom := some c, armed := false }) (rset64 p 0x78 c (accPut q 3 true s))
    ndPortError q (accNote q 1 lane (accEvent q 0 [c] (raise p 1 s)))
  else s

/-- The smallest counter value that is at least `h` and congruent to SCNT_INIT modulo Λ (R308). [log 63, DEDUCED] -/
def relockValue (s : State) (q : Nat) (h : BitVec 64) : BitVec 64 :=
  let m := max 1 (accLambda s q)
  h + BitVec.ofNat 64 (((rget64 s (pgAcc q) 0x70).toNat + m * 2 ^ 64 - h.toNat) % m)

/-- A span of bad instants (R309, R310). [log 63, DEDUCED] -/
def badSpan (q : Nat) (a b : BitVec 64) (s : State) : State :=
  accMod q (fun x => { x with bad := x.bad ++ [(a.toNat, b.toNat)] }) (rset64 (pgAcc q) 0x118 b (rset64 (pgAcc q) 0x110 a s))

/-- ACC_RELOCK (R308, R311): automatically, or at wake whatever AUTORELINK is; one-shot mode needs a new ARM. [log 63, DEDUCED] -/
def doAccRelock (q : Nat) (holdover : BitVec 64) (s : State) : State :=
  let p := pgAcc q
  let slept := (acc s q).slept
  if accState s q = 3 ∧ moversRun s = true ∧ (fget s p 0x40 1 1 = 1 ∨ slept = true) ∧ edgeUsable s q = true then
    let old := (acc s q).gapFrom.getD (rget64 s p 0x78)
    let h := rget64 s p 0x78
    let c := relockValue s q (if holdover ≤ h then h else holdover)
    let s := accMod q (fun a => { a with armed := false, gapFrom := none, gap := some (old, c), slept := false }) (rset64 p 0x78 c (accPut q 2 false s))
    let s := whenS (decide (old.toNat < c.toNat)) (badSpan q old (c - 1)) s
    let s := whenS (slept && (acc s q).rawOn) (ringFrom q false c) s
    let s := whenS (slept && (acc s q).decOn) (ringFrom q true (BitVec.ofNat 64 (c.toNat / accD s q))) s
    let s := raise p 3 (raise p 2 (finc p 0x104 16 8 1 s))
    let s := accEvent q 2 [c] (accEvent q 1 [old, c] s)
    if ndWatches s q then { s with nd := { s.nd with stopped := false } } else s
  else s

/-- CRCERR (R309, R310): the instants of the multiblock are bad. -/
def doCrcerr (q lane : Nat) (a b : BitVec 64) (s : State) : State :=
  if accState s q = 2 then
    ndPortError q (accNote q 0 lane (raise (pgAcc q) 0 (finc (pgAcc q) 0x104 0 16 1 (badSpan q a b s))))
  else s

/-! ### Windows and tiles (R292, R302-R306, R309) -/

/-- WINDOW_EDGE (R292): the port latches the counter value of the first instant at or after the edge; the counter never goes back, and a
port that Standby stopped keeps none (R311). -/
def doWindowEdge (q : Nat) (c : BitVec 64) (s : State) : State :=
  if (accState s q = 2 ∨ accState s q = 3) ∧ (acc s q).slept = false ∧ rget64 s (pgAcc q) 0x78 ≤ c then
    rset64 (pgAcc q) 0x78 c (accMod q (fun a => { a with bnPrev := a.bn, bn := c, bnFrame := s.tick + 1 }) s)
  else s

/-- The input span of a row that ends at decimated sample `e` (R302, R309). -/
def rowSpan (s : State) (q : Nat) (e : Int) : Int × Int :=
  let d : Int := accD s q
  let n : Int := if accKind s q = 0 then accCols s q / 2 else accN s q
  ((e - n + 2) * d - 1 - 54 * (d - 1), (e + 1) * d - 1)

/-- Some row of the tile of the window closed last reads a bad instant, or its window was open as the link was stopped. [log 63, DEDUCED] -/
def tileBad (s : State) (q : Nat) : Bool :=
  (acc s q).torn.any (fun t => decide (tileNow s ≤ t)) ||
  let en : Int := ((acc s q).bn.toNat / accD s q : Nat) - 1
  ((List.range (accRows s q)).any fun r =>
    let sp := rowSpan s q (en - ((accRows s q - 1 - r) * accHop s q : Nat))
    (acc s q).bad.any fun b => decide (sp.1 ≤ (b.2 : Int)) && decide ((b.1 : Int) ≤ sp.2))

/-- Fraction bits of a kind's codes (Table 11-3). -/
def fracOf (kind : Nat) : Int := match kind with
  | 2 => 22
  | 3 => 16
  | _ => 23

/-- The unscaled value of a 24-bit code. -/
def codeVal (fr : Int) (c : BitVec 24) : FVal := FVal.ofInt c.toInt (-fr)

/-- The measurements of R304: the present rule's ADJ, the p16 words and the statistics. [log 64, DESIGN CHOICE] -/
def tileMeasure (fr : Int) (codes : List (BitVec 24)) (sat : Nat) : Int × List Nat × Stats :=
  let raw := codes.foldl (fun (t : Stats) c => t.measure (codeVal fr c) {} false false) {}
  let adj := presentAdj .p16 raw
  let scaled := codes.map fun c => roundTo .p16 (FVal.ofInt c.toInt (adj - fr))
  (adj, scaled.map (·.1), { raw with nsat := sat, nufl := scaled.foldl (fun a x => a + x.2.lift) 0 })

/-- Lines of p16 elements, 32 to a line (R34, R305). -/
def tileLines : Nat → List Nat → List Line
  | 0, _ => []
  | n + 1, ws => packLine .p16 (ws.take 32) :: tileLines n (ws.drop 32)

/-- TILE_READY (R298-R306, R309): the front end makes the tile from the instants' codes, from instant `first` on; it and its record wait
in the port's buffer. A tile that reads a bad instant, or of a port
not in RUN, is FAILED. [log 63, DEDUCED; 64, DESIGN CHOICE] -/
def doTileReady (q : Nat) (first : BitVec 64) (codes : List (BitVec 16)) (s : State) : State :=
  match streamJob s q with
  | none => s
  | some j =>
    let fr := tileNow s
    if accState s q ≠ 2 then accMod q (fun a => { a with tile := deadTile s q j fr, tileFrame := fr }) s
    else
      let m := if tileBad s q then mkFailed else (0 : Mark)
      let els := feTile s q first (liveCodes s q first.toNat codes)
      let sat := (els.filter (·.2)).length
      let (adj, ws, t) := tileMeasure (fracOf (accKind s q)) (els.map fun x => BitVec.ofInt 24 x.1) sat
      let ls := tileLines (tileElems s q / 32) ws ++ [tileRecord s j fr adj t]
      let s := finc (pgAcc q) 0x108 0 32 sat s
      accMod q (fun a => { a with tile := ls.map fun l => (l, m), tileFrame := fr }) s

/-! ### Capture rings (R293-R297) -/

/-- The elements of a ring's write from group `u` up to count `upto`: N'-bit codes with their control bits, zero for the instants of a gap
(R291, R308); or the decimated samples that the codes' instants, the last of which is the last sample's, give, those of a gap zero (R299, Table 11-4). [log 64, DESIGN CHOICE] -/
def ringData (s : State) (q : Nat) (dec : Bool) (u : Nat) (codes : List (BitVec 24)) (upto : BitVec 64) : List Nat :=
  if dec then
    let first := upto.toNat * accD s q - codes.length / accM s q
    let z := feDec (feMix s q first ((liveCodes s q first codes).map fun x => BitVec.ofNat 16 x.toNat)) (fget s (pgAcc q) 0x84 8 4)
    (List.range (upto - ringCount s q true u).toNat).map fun i =>
      let x := z ((ringCount s q true u).toNat + i : Nat)
      decWord x.1.1 x.2.1
  else gapZeros s q u codes

/-- Where a write of a ring that ends before count `upto` and begins at line `index` stands: its first and its last group; none where no
such write follows what the ring holds, in counter order and in whole lines (R294, R295). The first write after a wake says itself how far
the counter has gone. [log 64, DESIGN CHOICE] -/
def ringSpan (s : State) (q : Nat) (dec : Bool) (index n : Nat) (upto : BitVec 64) : Option (Nat × Nat) :=
  let a := acc s q
  let g := ringLines s q dec
  let u1 := ((upto - ringZero s q dec).toNat * ringEls s q dec + ringEls s q dec - 1) / ringUnit s q dec
  let len := (u1 % n + n - index / g % n) % n
  let u0 := u1 - len
  let front := ringGroup s q dec (rget64 s (pgAcc q) (if dec then 0xE0 else 0xD8))
  if ringCount s q dec u1 = upto ∧ index % g = 0 ∧ len ≤ u1 ∧ 0 < len ∧
      (if (if dec then a.decResume else a.rawResume) = true then front ≤ u0 else u0 = front) then some (u0, u1)
  else none

/-- CAPTURE_RING_WRITE (R291, R294, R295, R310): elements packed into whole lines, in counter order; lines the Stacks do not take are
dropped and counted. [log 64, DESIGN CHOICE] -/
def doCaptureRingWrite (q : Nat) (dec : Bool) (index : Nat) (codes : List (BitVec 24)) (upto : BitVec 64) (accepted : Bool) (s : State) : State :=
  let p := pgAcc q
  let a := acc s q
  let g := ringLines s q dec
  let n := (accRing s q dec).2 / 64 / g
  let base := (accRing s q dec).1
  let on := if dec then a.decOn else a.rawOn
  let room := match a.stopAt with
    | some c => dec || decide (upto ≤ c)
    | none => true
  match ringSpan s q dec index n upto with
  | none => s
  | some (u0, u1) =>
    let els := ringData s q dec u0 codes upto
    if moversRun s && on && (accState s q = 2 || accState s q = 3) && !a.slept && room && decide (els.length = (u1 - u0) * ringUnit s q dec) then
      let lines := ringPack (if dec then 32 else accNp s q) els
      let resume := if dec then a.decResume else a.rawResume
      let from' := ringCount s q dec u0
      let s := accMod q (fun a => if dec then { a with decNext := u1 % n * g, decResume := false }
        else { a with rawNext := u1 % n * g, rawResume := false }) s
      let s := whenS resume (rset64 p (if dec then 0xF8 else 0xF0) (ringFirst s q dec u0)) s
      let s := rset64 p (if dec then 0xE0 else 0xD8) upto s
      if accepted then
        hubCount base 0 lines.length (foldS lines.zipIdx (fun (l, i) => stkLand none (base + 64 * ((index + i) % (n * g))) (l, 0)) s)
      else
        let s := rset64 p (if dec then 0xF8 else 0xF0) (ringFirst s q dec u1) s
        accNote q 3 0xFF (raise p 5 (finc p 0x10C 0 32 (upto - from').toNat s))
    else s

/-- A stop request at instant `c` (R297). -/
def ringStopAt (q : Nat) (c : BitVec 64) (s : State) : State :=
  if fget s (pgAcc q) 0xC0 2 1 = 1 ∧ (acc s q).rawOn = true ∧ (acc s q).stopAt = none then
    accMod q (fun a => { a with stopAt := some (c + BitVec.ofNat 64 (rget s (pgAcc q) 0xC4).toNat) }) s
  else s

/-- RING_STOP (R297). -/
def doRingStop (q : Nat) (next : BitVec 64) (s : State) : State := ringStopAt q next s

/-- RAWSTOP (R297): the ring has written its last whole line before the instant at which it stops. -/
def doRawstop (q : Nat) (s : State) : State :=
  match (acc s q).stopAt with
  | none => s
  | some c =>
    if (acc s q).rawOn && decide (c < ringCount s q false (ringGroup s q false (rget64 s (pgAcc q) 0xD8) + 1)) then
      accMod q (fun a => { a with rawOn := false }) (raise (pgAcc q) 7 (rset64 (pgAcc q) 0xE8 c s))
    else s

/-- RING_START (R297, R399): the stopped ring goes on at the write front. -/
def doRingStart (q : Nat) (front : BitVec 64) (s : State) : State :=
  if enabled s (pgAcc q) && ringEn s q false && !(acc s q).rawOn && (accState s q = 2 || accState s q = 3) then
    accMod q (fun a => { a with rawOn := true, stopAt := none, rawResume := false }) (ringFrom q false front s)
  else s

/-- ACC_LINK_START. -/
def execAccLinkStart (port : BitVec 2) (s : State) : Res := .next (doAccLinkStart port.toNat s)
/-- ACC_LINK_STOP. -/
def execAccLinkStop (port : BitVec 2) (s : State) : Res := .next (doAccLinkStop port.toNat s)
/-- ARM. -/
def execArm (port : BitVec 2) (s : State) : Res := .next (doArm port.toNat s)
/-- SYSREF_EDGE. -/
def execSysrefEdge (port : BitVec 2) (onPhase : Bool) (obs : LinkObs) (s : State) : Res :=
  .next (doSysrefEdge port.toNat onPhase obs s)
/-- ACC_LINK_DOWN. -/
def execAccLinkDown (port : BitVec 2) (s : State) : Res := .next (doAccLinkDown port.toNat s)
/-- ACC_RELOCK. -/
def execAccRelock (port : BitVec 2) (holdover : BitVec 64) (s : State) : Res := .next (doAccRelock port.toNat holdover s)
/-- CRCERR. -/
def execCrcerr (port : BitVec 2) (lane : BitVec 5) (first last : BitVec 64) (s : State) : Res :=
  .next (doCrcerr port.toNat lane.toNat first last s)
/-- WINDOW_EDGE. -/
def execWindowEdge (port : BitVec 2) (count : BitVec 64) (s : State) : Res := .next (doWindowEdge port.toNat count s)
/-- TILE_READY. -/
def execTileReady (port : BitVec 2) (first : BitVec 64) (codes : List (BitVec 16)) (s : State) : Res :=
  .next (doTileReady port.toNat first codes s)
/-- CAPTURE_RING_WRITE. -/
def execCaptureRingWrite (port : BitVec 2) (dec : Bool) (index : BitVec 36) (codes : List (BitVec 24)) (upto : BitVec 64)
    (accepted : Bool) (s : State) : Res :=
  .next (doCaptureRingWrite port.toNat dec index.toNat codes upto accepted s)
/-- RING_STOP. -/
def execRingStop (port : BitVec 2) (next : BitVec 64) (s : State) : Res := .next (doRingStop port.toNat next s)
/-- RAWSTOP. -/
def execRawstop (port : BitVec 2) (s : State) : Res := .next (doRawstop port.toNat s)
/-- RING_START. -/
def execRingStart (port : BitVec 2) (front : BitVec 64) (s : State) : Res := .next (doRingStart port.toNat front s)

end Sys2Proof.Machine
end

