-- ==== Sys2Proof/Machine/Attest.lean ====
section
/-! DEFINITION. The attestation report (spec/16_startup_and_identity.md R431). -/

namespace Sys2Proof.Machine

/-- An entry of the report: digest, KIND, source, SERIES, FVER, last full pass, passed and failed units. -/
def attEntry (digest : List Byte) (kind src series fver : Nat) (tick : BitVec 64) (ok bad : Nat) : List Byte :=
  (digest ++ List.replicate 64 0).take 64 ++ leBytes 1 kind ++ leBytes 1 src ++ leBytes 2 series ++ leBytes 4 fver ++
    leBytes 8 tick.toNat ++ leBytes 4 ok ++ leBytes 4 bad ++ List.replicate 8 0

/-- The entry of a boot-store slot in use. -/
def attStore (bs : List Byte) : List Byte :=
  attEntry (folioDigest bs) (fHead bs).kind 0 (fHead bs).series (fHead bs).fver 0 0 0

/-- The entries of the report: base and supplement firmware in force, the training folio where a hub uses it, the test folios. [log 77, DESIGN CHOICE] -/
def attFolios (s : State) : List (List Byte) :=
  let base := fget s pgSec 0xBC 20 1
  [if base = 0 ∧ factoryFw s then attEntry Config.factoryDigest 1 0 0 Config.factoryFver 0 0 0 else attStore (storeGet s base)] ++
  ([s.sec.supp, s.sec.train].filter fun b => !b.isEmpty).map attStore ++
  s.sec.folios.map fun f =>
    attEntry (folioDigest f.bytes) 2 (b2n f.pushed) (fHead f.bytes).series (fHead f.bytes).fver f.lastPass f.passed f.failed

/-- SEC.FUSE, which IDENT.FUSECFG mirrors (Table 16-10). -/
def fuseWord (s : State) : Nat :=
  b2n s.sec.ownerEn + 2 * b2n s.sec.fuseNow.1 + 4 * b2n s.sec.fuseNow.2 + 2 ^ 8 * s.sec.secver + 2 ^ 16 * fget s pgSec 0x40 16 1

/-- The report with its signature. [log 78, DEDUCED] -/
def attReport (s : State) : List Byte :=
  let es := attFolios s
  let head := leBytes 4 0x54415653 ++ leBytes 2 1 ++ leBytes 2 es.length ++ leBytes 8 Config.serial.toNat ++
    leBytes 8 s.tick.toNat ++ leBytes 4 (fuseWord s) ++ leBytes 1 (pstate s) ++ leBytes 1 (activeCount s) ++ leBytes 2 0 ++
    ((List.range 8).flatMap fun i => leBytes 4 (rget s pgSec (0x90 + 4 * i)).toNat) ++ spareDigest s ++
    (if s.sec.ownerEn then (s.sec.ownerKey ++ List.replicate 32 0).take 32 else List.replicate 32 0) ++ List.replicate 32 0
  let body := head ++ es.flatMap id
  body ++ edSign identityKey body

end Sys2Proof.Machine
end

