-- ==== Sys2Proof/Machine/Stacks.lean ====
section
/-! DEFINITION. The Stacks (spec/12_stacks_memory.md R313-R320, R333-R335) and the faults of hubs, dies and zone rails
(spec/01 R21, R22): refresh, patrol, poison, package retirement. -/

namespace Sys2Proof.Machine

/-- The logical channel of a line of a quadrant (R315). -/
def channelOf (lq : Nat) : Nat := lq % 100

/-- The group of a line of a quadrant (R315). -/
def groupOf (lq : Nat) : Nat := lq / 100 / 31

/-- The slot of a line in its group, which is its burst in the page (R315). -/
def slotOf (lq : Nat) : Nat := lq / 100 % 31

/-- The bank and row of a line's group (R315). -/
def bankOf (lq : Nat) : Nat × Nat := (groupOf lq % 16, groupOf lq / 16)

/-- The line index in its quadrant of a Stacks offset. -/
def lineOf (off : Nat) : Nat := off % 2 ^ 38 / 64

/-- The physical package that holds a line (R313, R333): that of its logical package, or the spare bound to it. -/
def packageOf (s : State) (h lq : Nat) : Nat :=
  let lp := channelOf lq / 4
  if fget s (pgHub h) 0x68 0 5 = lp then 25 else lp

/-! ### Check words (R317) -/

/-- ATAG of a line: four bits of its line index in the quadrant. [log 65, DEDUCED] -/
def atagOf (lq : Nat) : BitVec 4 := Config.atagHash lq

/-- The check word of a Stacks line (R317): ECC in [10:0], POISON in [11], ATAG in [15:12]. [log 65, DEDUCED] -/
def checkWord (s : State) (off : Nat) : BitVec 16 :=
  let pz := (tabGet (fun _ => 0) s.smark (off / 64)).getLsbD 5
  let top : BitVec 5 := atagOf (lineOf off) ++ BitVec.ofBool pz
  top ++ Config.eccCode (readLineAt s.dram off) top

/-- The offset of line `j` of a group on a channel of a quadrant (R315). -/
def lineAtSlot (h ch g j : Nat) : Nat := h * 2 ^ 38 + 64 * ((31 * g + j) * 100 + ch)

/-- Burst 31 of a group's page (R317): check word `j` in bytes 2j and 2j + 1, bytes 62 and 63 zero. -/
def checkBurst (s : State) (h ch g : Nat) : Line :=
  lineOfBytes ((List.range 31).flatMap (fun j => leBytes 2 (checkWord s (lineAtSlot h ch g j)).toNat) ++ [0, 0])

/-- A read finds a line's ATAG to be another line's: the access was misdirected, and the line reads uncorrectable (R318). -/
def misdirected (lq word : Nat) : Bool := decide (bitsOf word 12 4 ≠ (atagOf lq).toNat)

/-- A hub fault (R22): no spare, so the module fails and stays in Fault-hold; its fabric ports go with it (R360). -/
def hubFault (h : Nat) (s : State) : State :=
  if s.pwr.off then s
  else
    let s := fset (pgHub h) 0x0C 2 1 1 s
    let s := foldS ((List.range 6).filter fun p => decide ([0, 1, 1, 2, 2, 3].getD p 3 = h) && portUp s p) (fun p s =>
      abfMod p (fun x => { spareBad := x.spareBad, retries := x.retries }) (fset (pgAbf p) 0x44 0 3 3 s)) s
    let s := capacity 9 5 (hubDieEr h 0x0402 5 0x10) s
    faultHold 2 { s with pwr := { s.pwr with dead := true } }

/-- The hub's spare takes a package's logical number (R333, R335). [log 65, DEDUCED] -/
def bindPackage (h p : Nat) (s : State) : State :=
  let s := fset (pgMc h p) 0x40 0 2 3 (fset (pgMc h 25) 0x40 0 2 0 s)
  let s := fset (pgMc h p) 0x0C 2 1 1 s
  let s := fset (pgHub h) 0x68 5 3 2 (fset (pgHub h) 0x68 0 5 p s)
  capacity 5 4 (hubDieEr h 0x0402 4 0x10) (substitution (hubDieEr h 0x0401 1 0x10) 5 p p 25 s)

/-- A package is retired (R333, R334): at boot the spare is bound at once, else the copy starts; one more asked of the package under copy
changes nothing, and a second package of the hub, or one without a spare, is a hub fault (R22). [log 65, DEDUCED; 86, DEDUCED] -/
def retirePackage (h p : Nat) (atBoot : Bool) (s : State) : State :=
  if fget s (pgMc h p) 0x40 0 2 = 3 then s
  else if p = 25 ∧ fget s (pgMc h 25) 0x40 0 2 = 1 then fset (pgMc h 25) 0x0C 2 1 1 (fset (pgMc h 25) 0x40 0 2 3 s)
  else if (hub s h).copying = some p then s
  else if fget s (pgMc h 25) 0x40 0 2 ≠ 1 then hubFault h s
  else if atBoot then bindPackage h p s
  else
    let s := fset (pgHub h) 0x68 5 3 1 (fset (pgMc h 25) 0x40 0 2 2 (rset (pgHub h) 0x6C 0 s))
    hubMod h (fun x => { x with copying := some p, copyDone := false, copyPos := 0 }) s

/-- The 4,096-tick window ending now holds tick `t`. -/
def inWindow (s : State) (t : Nat) : Bool := decide (s.tick.toNat < t + 4096)

/-- Uncorrectable errors struck four groups of a package in the window (R333); a group is a page of one channel (R315). -/
def ueRetires (s : State) (h p : Nat) : Bool :=
  decide (4 ≤ ((((hub s h).ueGroups.filter fun x => decide (x.1 = p) && inWindow s x.2.2).map (·.2.1)).eraseDups).length)

/-- Corrected errors of a package passed 65,536 in the window (R333). -/
def ceRetires (s : State) (h p : Nat) : Bool :=
  decide (65536 < ((hub s h).ceWin.filter fun x => decide (x.1 = p) && inWindow s x.2.2).foldl (fun a x => a + x.2.1) 0)

/-- The host positions that follow a refresh position carry the poison writes that wait in the hub (R319, R323). [log 65, DEDUCED] -/
def poisonWrites (h : Nat) (s : State) : State :=
  { s with smark := s.smark.map fun p => if p.1 / 2 ^ 32 = h then (p.1, readMark p.2) else p }

/-- A package copy moves on by one host position (R323, R334): 32 of them copy a group's bursts on every channel. [log 65, DEDUCED] -/
def copyStep (h : Nat) (s : State) : State :=
  match (hub s h).copying with
  | none => s
  | some _ =>
    let n := (hub s h).copyPos + 1
    rset (pgHub h) 0x6C (BitVec.ofNat 32 (min (n / 32) 1048576)) (hubMod h (fun x => { x with copyPos := n }) s)

/-- REFRESH_POSITION (R322): refresh position j refreshes bank j mod 16 of every channel; a host position stands between it and the
next (R323). [log 65, DEDUCED] -/
def doRefreshPosition (h : Nat) (s : State) : State :=
  if running s then copyStep h (poisonWrites h (hubMod h (fun x => { x with refresh := x.refresh + 1 }) s)) else s

/-- The bank the last refresh position refreshed. -/
def refreshBank (s : State) (h : Nat) : Nat := ((hub s h).refresh - 1) % 16

/-- SCRUB (R318, R320): a patrol reads a group and rewrites its corrected lines, which are counted on their packages; lines of the group
that a job's or the host's read corrected come with it. [log 65, DEDUCED] -/
def doScrub (h group : Nat) (corrected : List (BitVec 42)) (s : State) : State :=
  if running s then
    foldS (corrected.filter fun a => populated a.toNat && decide (a.toNat / 2 ^ 38 = h) && decide (groupOf (lineOf a.toNat) = group)) (fun a s =>
      let p := packageOf s h (lineOf a.toNat)
      let s := finc (pgMc h p) 0x44 0 32 1 s
      hubMod h (fun x =>
        { x with
          ceWin := (x.ceWin.filter fun w => inWindow s w.2.2) ++ [(p, 1, s.tick.toNat)]
          ceDue := match x.ceDue.find? fun d => decide (d.1 = p) with
            | some d => (x.ceDue.filter fun e => decide (e.1 ≠ p)) ++ [(p, d.2.1 + 1, a.toNat)]
            | none => x.ceDue ++ [(p, 1, a.toNat)] }) s) (hubMod h (fun x => { x with patrol := group }) s)
  else s

/-- The line at a Stacks offset, read uncorrectable, is delivered with its poison mark: that of a transfer under way (R318). -/
def poisonReads (off : Nat) (s : State) : State :=
  { s with xfers := s.xfers.map fun x =>
      match x.src with
      | some b =>
        if b ≤ off ∧ off < b + 64 * x.lines.length then
          { x with lines := x.lines.zipIdx.map fun (v, i) =>
              if i / x.tileN = (off - b) / 64 / x.tileN then (v.1, v.2 ||| mkPoison) else v }
        else x
      | none => x }

/-- POISON_WRITEBACK (R318, R319): an uncorrectable read of a line without POISON is counted and recorded, its readers get the poison mark,
and POISON = 1 waits for the next host position; a data write that comes first drops it. [log 65, DEDUCED] -/
def doPoisonWriteback (addr : Nat) (s : State) : State :=
  let off := addr / 64 * 64
  if running s && populated off && decide (tabGet (fun _ => 0) s.smark (off / 64) &&& mkPoison = 0) then
    let h := off / 2 ^ 38
    let lq := lineOf off
    let p := packageOf s h lq
    let shelf := BitVec.ofNat 64 (modNum s * 2 ^ 43 + off)
    let s := rset64 (pgMc h p) 0x50 shelf (finc (pgMc h p) 0x48 0 32 1 s)
    let s := errata { hubEr h 0x0201 2 0x11 with detail := [0, shelf.toNat] } s
    let s := hubMod h (fun x =>
      { x with ueGroups := (x.ueGroups.filter fun w => inWindow s w.2.2) ++ [(p, 100 * groupOf lq + channelOf lq, s.tick.toNat)] }) s
    poisonReads off { s with smark := tabMod (fun _ => 0) s.smark (off / 64) fun m => m ||| mkPending }
  else s

/-- PACKAGE_RETIREMENT (R333). -/
def doPackageRetirement (h p : Nat) (c : RetireCause) (s : State) : State :=
  match c with
  | .training => if pstate s = 1 then retirePackage h p true s else s
  | .uncorrectable => if running s && ueRetires s h p then retirePackage h p false s else s
  | .corrected => if running s && ceRetires s h p then retirePackage h p false s else s
  | .host => if running s then retirePackage h p false s else s

/-- RETIRE (R333, R399): the host asks for a package's retirement. -/
def doRetire (h p : Nat) (s : State) : State :=
  if running s && enabled s (pgMc h p) then retirePackage h p false s else s

/-- PACKAGE_COPY_COMPLETE (R334, R335): every group of every channel is copied; the binding waits for the tick. -/
def doPackageCopyComplete (h : Nat) (s : State) : State :=
  if running s && (hub s h).copying.isSome then
    rset (pgHub h) 0x6C 1048576 (hubMod h (fun x => { x with copyDone := true }) s)
  else s

/-- HUB_FAULT (R22). -/
def doHubFault (h : Nat) (s : State) : State := hubFault h s

/-- DIE_FAULT (R21): the die is out of service and its four logical engines become absent. -/
def doDieFault (c : Nat) (s : State) : State :=
  if s.pwr.off || decide (fget s (pgDie c 0) 0x0C 2 1 = 1) then s
  else
    let gone := ((List.range 4).map (4 * c + ·)).filter fun l => !absent s l
    let s := foldS [0, 1, 2] (fun q => fset (pgDie c q) 0x0C 2 1 1) s
    foldS gone makeAbsent s

/-- ZONE_RAIL_OR_CLOCK_FAULT (R21): the module enters Fault-hold, cause 1. -/
def doZoneFault (z : Nat) (s : State) : State :=
  if s.pwr.off then s else faultHold 1 (fset (pgZone z) 0x0C 2 1 1 s)

/-- REFRESH_POSITION. -/
def execRefreshPosition (h : BitVec 2) (s : State) : Res := .next (doRefreshPosition h.toNat s)
/-- SCRUB. -/
def execScrub (h : BitVec 2) (group : BitVec 20) (corrected : List (BitVec 42)) (s : State) : Res :=
  .next (doScrub h.toNat group.toNat corrected s)
/-- POISON_WRITEBACK. -/
def execPoisonWriteback (addr : BitVec 42) (s : State) : Res := .next (doPoisonWriteback addr.toNat s)
/-- PACKAGE_RETIREMENT. -/
def execPackageRetirement (h : BitVec 2) (pkg : BitVec 5) (cause : RetireCause) (s : State) : Res :=
  .next (whenS (decide (pkg.toNat < 26)) (doPackageRetirement h.toNat pkg.toNat cause) s)
/-- RETIRE. -/
def execRetire (h : BitVec 2) (pkg : BitVec 5) (s : State) : Res :=
  .next (whenS (decide (pkg.toNat < 26)) (doRetire h.toNat pkg.toNat) s)
/-- PACKAGE_COPY_COMPLETE. -/
def execPackageCopyComplete (h : BitVec 2) (s : State) : Res := .next (doPackageCopyComplete h.toNat s)
/-- HUB_FAULT. -/
def execHubFault (h : BitVec 2) (s : State) : Res := .next (doHubFault h.toNat s)
/-- DIE_FAULT. -/
def execDieFault (die : BitVec 4) (s : State) : Res := .next (doDieFault die.toNat s)
/-- ZONE_RAIL_OR_CLOCK_FAULT. -/
def execZoneRailOrClockFault (z : BitVec 2) (s : State) : Res := .next (doZoneFault z.toNat s)

end Sys2Proof.Machine
end

