-- ==== Sys2Proof/Machine/Tick.lean ====
section
/-! DEFINITION. The frame tick (spec/08_frame_tick_and_repeatability.md R199-R215, R219, spec/01 R18-R20, spec/10 R257,
R267, R269, spec/13 R347-R349, R356, spec/15 R394, R395): TICK with everything that happens on its edge, the frames of
engines, overruns and cuts, alignment, linked steps and freezes. -/

namespace Sys2Proof.Machine

/-! ### The frame of an engine (R177, R178, R207) -/

/-- The RT job whose segment starts in an engine's next frame: bound, running, and past its first tick. -/
def rtStarts (s : State) (leng : Nat) : Bool :=
  match ownerOf s leng .rt with
  | some j => let b := job s j
    (decide (b.st = 2) || decide (b.st = 3)) && !b.pendStart && !b.halted.getLsbD leng
  | none => false

/-- The RT segment starts a frame at cycle `c` (R177, R180, R247): the SCHED_FAULT summary of its last work tick is kept (R175). -/
def SegSt.startRt (x : SegSt) (fr : BitVec 64) (c : Nat) : SegSt :=
  { x with
    st := 1, pc := 0, loops := [], last := c, passIdx := 0, stepped := false, sig := 0xFFFFFFFF, chk := none, chkNo := 0,
    sfOld := x.summaries .rt,
    sfFirst := none, sfCount := 0, sendLog := [], sendOvf := false, drained := [], retracted := false, retAll := false,
    retMsg := none, retSent := [], failed := false, wrote := [], halves := [], frame := fr, since := c,
    past := some (x.ended x.frame c), older := x.past.toList ++ x.older }

/-- Hold windows of an earlier frame whose PASS never commits close by cycle `c`, and their blocked lines are FAILED (R197). [log 30, DEDUCED] -/
def closeStale (k c : Nat) (g : Seg) (s : State) : State := endHolds k c (fun h => decide (h.seg = g)) s

/-- The data frame that a slot's RT work takes up now: `fr`, or the trigger frame in the first frame after a wake (R282). -/
def frameFor (s : State) (j : Nat) (fr : BitVec 64) : BitVec 64 :=
  match s.pwr.trigRun with
  | some (i, t) => if i = j then t else fr
  | none => fr

/-- Cycle 0 of an engine's frame at absolute cycle `c`, for data frame `fr`: its captured shadows commit (R210), its RT segment
starts, or its BG segment where no RT segment does (R177, R178). [log 45, DEDUCED; 54, DEDUCED] -/
def startFrame (leng c : Nat) (fr : BitVec 64) (s : State) : State :=
  let k := storeKey s leng
  let s := rset (pgEng k 2) 0x44 (BitVec.ofNat 32 (eng s k).vec.busy) s
  let s := engMod k (fun e =>
    { e with cyc0 := c, lagged := false, dShift := 0, vec := { e.vec with busy := 0 },
             recvs := e.recvs.filter fun r => !(r.late && decide (r.seg = .rt)) }) s
  let s := commitEngine leng s
  let s := segMod k .bg (fun x => { x with stepped := false }) s
  if rtStarts s leng then
    let s := fset (pgEng (execKey s leng) 5) 0x54 16 1 0 (closeStale k c .rt s)
    segMod k .rt (fun x => { x.startRt (frameFor s ((ownerOf s leng .rt).getD 0) fr) c with lag := c - (zone s (zoneOf leng)).tickAbs }) s
  else whenS (bgReady s leng) (startBg k c) s

/-- An engine has not yet reached the cycle 0 of the present frame. [log 54, DEDUCED] -/
def waits (s : State) (leng : Nat) : Bool :=
  let e := eng s (storeKey s leng)
  e.lagged || decide (e.rt.st = 1) || decide (e.bg.st = 1)

/-- ENGINE_FRAME_START (R207, R209): an engine with lag reaches its cycle 0. [log 3, DESIGN CHOICE; 54, DEDUCED] -/
def doEngineFrameStart (leng : Nat) (s : State) : State :=
  let e := eng s (storeKey s leng)
  if running s && !absent s leng && e.lagged then startFrame leng e.cyc0 (s.tick - 1) s else s

/-! ### Overrun and cut (R209, R211) -/

/-- The frame an engine's RT segment is in. -/
def rtFrame (s : State) (leng : Nat) : BitVec 64 := ((eng s (storeKey s leng)).rt).frame

/-- The tick at which the frame an engine's RT segment is in began its work. -/
def beganAt (s : State) (j : Nat) (fr : BitVec 64) : BitVec 64 :=
  match (job s j).frames.find? fun f => decide (f.frame = fr) with
  | some f => workedAt s f
  | none => fr + 1

/-- OVERRUN (R209): every item of the data frame carries OVERRUN. -/
def doOverrun (leng : Nat) (s : State) : State :=
  let k := storeKey s leng
  let fr := rtFrame s leng
  match ownerOf s leng .rt with
  | none => s
  | some j =>
    if running s && decide (((eng s k).rt).st = 1) && decide (beganAt s j fr + 1 ≤ s.tick) then
      let s := frameMod j fr (fun f => { f with marks := f.marks ||| mkOverrun }) (raise (pgEng k 0) 3 s)
      errEng 0x0503 0 leng .rt 0x20 [fr.toNat, lagOf s leng] s
    else s

/-- The cycle after the last array instruction in flight completes (R106, R211). [log 84, DEDUCED] -/
def drained (e : Eng) (c : Nat) : Nat :=
  let f := e.arr.flights.foldl (fun a x => max a (x.commit + 1)) c
  let f := (e.arr.lds.map (max f <| · + 65)).getD f
  [e.arr.drain, e.arr.drainBg].foldl (fun a x => (x.map fun d => max a (d.done + 1)).getD a) f

/-- SEGMENT_CUT (R211): no further instruction of the segment issues; its frame and the next one are FAILED, and the engine's
cycle 0 follows the last instruction in flight. [log 84, DEDUCED] -/
def doSegmentCut (leng : Nat) (s : State) : State :=
  let k := storeKey s leng
  let fr := rtFrame s leng
  match ownerOf s leng .rt with
  | none => s
  | some j =>
    if running s && decide (((eng s k).rt).st = 1) && decide (beganAt s j fr + 2 ≤ s.tick) then
      let c := drained (eng s k) (zone s (zoneOf leng)).tickAbs
      let bit := BitVec.ofNat 64 (2 ^ leng)
      let cut (f : FrameSt) : FrameSt :=
        { f with marks := f.marks ||| mkFailed ||| mkOverrun, tevt := f.tevt ||| 0x40, done := f.done ||| bit }
      let s := engMod k (fun e => { e with cyc0 := c, lagged := true, rt := { e.rt with st := 3, chk := none } }) s
      let s := frameMod j fr cut (frameMod j (fr + 1) cut s)
      let s := errEng 0x0503 2 leng .rt 0x20 [fr.toNat, fr.toNat + 1, c - (zone s (zoneOf leng)).tickAbs] s
      closeFrames j s
    else s

/-! ### Clocks at a tick (R18, R19, R200, R210) -/

/-- The tick falls `len` REFCLK cycles after the last one: each zone's clock has run for the last `run` of them, except while it
was frozen. -/
def advanceClocks (len run : Nat) (s : State) : State :=
  let now := s.refTick + len
  let s' := foldS (List.range 4) (fun z t =>
    let x := zone s z
    let held := match x.frozenAt with
      | some f => now - max f s.refTick
      | none => 0
    zoneMod z (fun y => { y with tickAbs := y.tickAbs + (min len run - x.lost - held) * multOf (stepOf s z), lost := 0 }) t) s
  { s' with tick := s.tick + 1, refTick := now }

/-- An engine of a zone runs an RT segment that started before this tick (R210). -/
def rtCrosses (s : State) (z : Nat) : Bool :=
  (List.range 16).any fun i =>
    let l := 16 * z + i
    decide (((eng s (storeKey s l)).rt).st = 1) && !absent s l

/-- STEPLINKs that apply to a zone now: the slowest step, and its sender (R349). [log 51, DEDUCED] -/
def linkAsk (s : State) (z : Nat) : Option (Nat × Nat) :=
  (s.cur.steplinks.filter fun (j, _, t, _) => decide (t ≤ s.tick) && (zoneSet s j).contains z).foldl
    (fun a (_, m, _, c) => match a with
      | some (c', m') => if c' < c then some (c, m) else some (c', m')
      | none => some (c, m)) none

/-- The step a zone is to take at this tick, and why. [log 51, DEDUCED] -/
def stepAsk (s : State) (z : Nat) : Option (Nat × Nat) :=
  let n := fget s (pgZone z) 0x40 16 3
  let own := if n ≠ stepOf s z then some (n, (zone s z).why) else none
  match own, linkAsk s z with
  | some (a, w), some (c, m) => if a < c then some (c, 32 + m) else some (a, w)
  | some x, none => some x
  | none, some (c, m) => some (c, 32 + m)
  | none, none => none

/-- A zone takes a step: its event, count and Errata record (R18). One in the direction of the zone's thermal request is a step for
temperature (R268), whatever else asked for it. [log 51, DEDUCED] -/
def takeStep (z n why : Nat) (set : List Nat) (s : State) : State :=
  let p := pgZone z
  let old := stepOf s z
  let late := fget s p 0x40 19 1
  let s := fset p 0x40 8 3 n (fset p 0x40 16 3 n (fset p 0x40 19 1 0 s))
  let s := rset p 0x60 (BitVec.ofNat 32 (set.foldl (fun a y => a + 2 ^ y) 0)) (finc p 0x5C 0 16 1 s)
  let now := s.refTick
  let req := fget s p 0x40 12 3
  let s := zoneMod z (fun x =>
    if old < req ∧ old < n then { x with thermStepAt := some now }
    else if req < old ∧ n < old then { x with thermUpAt := some now } else x) s
  errZone 0x0501 0 z [old, n, why, late] (raise p 0 s)

/-- Steps due at this tick apply, closed under shared jobs, or are deferred (R18, R210). Answers the zones that changed. [log 51, DEDUCED] -/
def applySteps (s : State) : State × List Nat :=
  let s0 := s
  let p := (List.range 4).foldl (fun (p : State × List Nat) z =>
    let set := linkZones s0 [z]
    let asks := set.filterMap fun y => (stepAsk s0 y).map fun a => (a.1, a.2, y)
    match asks with
    | [] => p
    | a :: r =>
      if set.any (rtCrosses s0) then (fset (pgZone z) 0x40 19 1 1 (fset (pgZone z) 0x40 16 3 (r.foldl (fun m x => max m x.1) a.1) p.1), p.2)
      else
        let best := r.foldl (fun m x => if m.1 < x.1 then x else m) a
        let mine := asks.find? fun x => decide (x.2.2 = z) && decide (x.1 = best.1)
        let why := match mine with
          | some x => x.2.1
          | none => if 32 ≤ best.2.1 then best.2.1 else 16 + best.2.2
        if best.1 = stepOf s0 z then (fset (pgZone z) 0x40 19 1 0 (fset (pgZone z) 0x40 16 3 best.1 p.1), p.2)
        else (takeStep z best.1 why set p.1, p.2 ++ [z])) (s, [])
  let deferred := (List.range 4).filter fun z => (linkZones s0 [z]).any (rtCrosses s0)
  let keep (x : Nat × Nat × BitVec 64 × Nat) : Bool :=
    !decide (x.2.2.1 ≤ s0.tick) || (zoneSet s0 x.1).any deferred.contains
  (curMod (fun c => { c with steplinks := c.steplinks.filter keep }) p.1, p.2)

/-! ### Job slots at a tick -/

/-- Slots that a fault, consumed poison or a finished job frees (R27, R181, R224, R244). A poison record names the operand and the
origin that the mark kept; an origin that no mark kept is a free value. [log 46, DEDUCED; 84, DEDUCED; 85, DESIGN CHOICE] -/
def tickResets (s : State) : State :=
  foldS (List.range 4) (fun j s =>
    let b := job s j
    if b.resetReq || b.ending || b.consumed.isSome then
      let s := match b.consumed with
        | some x =>
          let (f, s) := takeFree s
          let l := x.leng
          let org := x.origin.getD (Config.openWord f).toNat
          let s := errata { ty := 0x0202, sev := 3, level := 4, zq := zoneOf l, die := l / 4, peng := storeKey s l % 5, block := 0x12,
                            leng := l, job := j, wt := x.wt, detail := [x.pc, x.operand, org] } s
          sendEvent 4 [j, org] s
        | none => s
      resetSlot j s
    else if b.st = 5 then freeSlot j (flushFrames j s)
    else s) s

/-- Pauses, unloads and continuations that take effect (R219, R402). [log 46, DEDUCED] -/
def tickPauses (s : State) : State :=
  foldS (List.range 4) (fun j s =>
    let b := job s j
    if b.unloadReq && b.bound && atPause s b then freeSlot j (flushFrames j s)
    else if b.pauseReq && b.bound && atPause s b then
      jobEvent j 2 (jobMod j (fun b =>
        { b with st := 4, pauseReq := false, saved := false, pauseTick := s.tick,
                 firstLost := if b.bg then none else some (b.firstLost.getD (s.tick - 1)) }) s)
    else if b.contReq && decide (b.st = 4) then
      jobEvent j 4 (openRtSteps j (jobMod j (fun b => { b with st := 2, contReq := false, pendStart := !b.bg }) s))
    else s) s

/-- The arrays of a job that starts are at level 0 (R104), where no other job runs on the engine. [log 23, DEDUCED] -/
def jobLevels (j : Nat) (s : State) : State :=
  foldS ((job s j).engs.filter fun l => (ownerOf s l .rt).isNone && (ownerOf s l .bg).isNone) (fun l s =>
    let k := storeKey s l
    arrMod k (fun a => if a.flights.isEmpty then { a with gap := none, actEnd := (zone s (zoneOf l)).tickAbs, actLvl := 0 } else a) s) s

/-- Loaded jobs are bound (R26, Table 16-1); a job under AUTO starts at BASE (R262). [log 45, DEDUCED; 55, DEDUCED] -/
def tickBinds (s : State) : State :=
  foldS (List.range 4) (fun j s =>
    let b := job s j
    if decide (b.st = 1) && !b.loadWait && !b.bound then
      let s := setPstate 3 (openRtSteps j (jobMod j (fun b => { b with st := 2, bound := true, pendStart := !b.bg }) (jobLevels j s)))
      let o := 0x48 + 4 * j
      if fget s pgCur o 11 1 = 1 then
        let base := fget s pgCur o 0 3
        foldS b.engs (fun l s =>
          let p := pgEng (storeKey s l) 5
          let now := (tabGet (fun _ => none) s.shadow (ridx p 0x40)).getD (rget s p 0x40)
          { s with shadow := tabSet (fun _ => none) s.shadow (ridx p 0x40) (some (BitVec.ofNat 32 (putBits now.toNat 0 3 base))) })
          (fset pgCur o 12 3 base s)
      else s
    else s) s

/-- RT jobs that were to start at this tick run; the frames not processed are named (R203, R223). At the first tick after a wake only
a classified trigger frame runs, the others start one tick later (R282). [log 45, DEDUCED; 79, DEDUCED] -/
def tickStarts (wake : Bool) (s : State) : State :=
  foldS (List.range 4) (fun j s =>
    let b := job s j
    let trig := decide (s.pwr.trigRun.map (·.1) = some j)
    if b.pendStart && b.bound && decide (b.st = 2) && (!wake || trig) then
      let s := match b.firstLost with
        | some f =>
          let last := if trig then s.tick - 1 else s.tick - 2
          let tr := match s.pwr.trigRun with
            | some (_, t) => [t.toNat, 1]
            | none => []
          sendEvent 2 ([b.stream, f.toNat, last.toNat] ++ tr) s
        | none => s
      jobMod j (fun b => { b with pendStart := false, firstLost := none }) s
    else s) s

/-- A data frame's record begins with the events of its tick (R215); whether an entry is cold is taken before the step closes of this
tick (R138). [log 100, DEDUCED] -/
def frameOpen (s : State) (j : Nat) (fr : BitVec 64) (ev : BitVec 8) (zs : List Nat) : FrameSt :=
  let mine := zoneSet s j
  let stepped := mine.any zs.contains
  let held := mine.any fun z => ((zone s z).frozenAt).isSome
  { frame := fr, tevt := ev ||| (if stepped then 4 else 0) ||| (if held then 2 else 0), cold := anyCold s, done := (job s j).halted,
    ratio := BitVec.ofNat 3 (jobRatio s j), active := BitVec.ofNat 8 (activeCount s), zsteps := zsteps s }

/-- The data frames whose RT work starts at this tick (R209). -/
def tickFrames (ev : BitVec 8) (zs : List Nat) (s : State) : State :=
  foldS (List.range 4) (fun j s =>
    let b := job s j
    if b.bound && !b.bg && !b.pendStart && (decide (b.st = 2) || decide (b.st = 3)) then
      let f := { frameOpen s j (frameFor s j (s.tick - 1)) ev zs with trig := decide (s.pwr.trigRun.map (·.1) = some j) }
      jobMod j (fun b => { b with frames := b.frames ++ [f] }) s
    else s) s

/-! ### SCHED_FAULT summaries (R175) -/

/-- A summary record of an ended work tick. -/
def sfRecord (leng : Nat) (g : Seg) (cause pc count : Nat) (wt : BitVec 64) (s : State) : State :=
  let k := storeKey s leng
  errata { ty := 0x0302, sev := 2, level := 4, zq := zoneOf leng, die := leng / 4, peng := k % 5, block := 0x20, leng := leng,
           job := ((ownerOf s leng g).orElse fun _ => ((eng s k).seg g).sfJob).getD 0xFF, wt := wt, detail := [cause, pc, count] } s

/-- Summaries of the work ticks that ended. [log 40, DEDUCED] -/
def tickSummaries (s : State) : State :=
  foldS (List.range 64) (fun l s =>
    let k := storeKey s l
    let s := whenS (decide (((eng s k).rt).st ≠ 1))
      (segMod k .rt fun x => { x with sfOld := x.summaries .rt, sfFirst := none, sfCount := 0 }) s
    foldS [Seg.rt, Seg.bg] (fun g s =>
      let l' := ((eng s k).seg g).sfOld
      let s := foldS l' (fun (x : Nat × Nat × Nat × BitVec 64) => sfRecord l g x.1 x.2.1 x.2.2.1 x.2.2.2) s
      if l'.isEmpty then s else segMod k g (fun x => { x with sfOld := [], sfJob := none }) s) s) s

/-! ### Sensors, counts and links at a tick -/

/-- What the sensors and the hub counters read (Table 10-1, Table 12-3, Table 15-15, R15): a zone's temperature is the highest of its dies' junction sensors. -/
def sense (v : TickEnv) (s : State) : State :=
  let lines := (List.range 4).foldl (fun a h => a + (hub s h).rd + (hub s h).wr) 0
  let s := rset64 pgCur 0xA0 (BitVec.ofNat 64 (64 * lines)) (fset pgCur 0x74 0 16 v.p1ms.toNat s)
  let at' {w : Nat} (l : List (BitVec w)) (i : Nat) : Nat := (l.getD i 0).toNat
  let s := foldS (List.range 128) (fun i => rset (pgDie (i / 8) 0) (0x40 + 4 * (i % 8)) (BitVec.ofNat 32 (at' v.tj i))) s
  let s := foldS (List.range 16) (fun c => rset (pgDie c 0) 0x64 (BitVec.ofNat 32 (at' v.dpower c))) s
  let s := foldS (List.range 104) (fun i => fset (pgMc (i / 26) (i % 26)) 0x58 0 8 (at' v.tpkg i)) s
  foldS (List.range 4) (fun z s =>
    let p := pgZone z
    let hot := (List.range 32).foldl (fun b i => if at' v.tj b < at' v.tj (32 * z + i) then 32 * z + i else b) (32 * z)
    fset p 0x50 0 12 (at' v.zcurrent z) (fset p 0x4C 0 16 (at' v.zpower z)
      (fset p 0x48 8 4 (hot / 8) (fset p 0x48 0 8 (at' v.tj hot) s)))) s

/-- The readings of a tick whose command carries none, each a free value: junctions from number 0, dies' power from 256, packages from 512,
zones from 768. [log 134, DESIGN CHOICE] -/
def senseFree (n : Nat) : TickEnv :=
  let at' (o i : Nat) : BitVec 16 := Config.sensor n (o + i)
  { p1ms := at' 1024 0, zpower := (List.range 4).map (at' 768), zcurrent := (List.range 4).map fun i => (at' 800 i).setWidth 12,
    tj := (List.range 128).map fun i => (at' 0 i).setWidth 8, dpower := (List.range 16).map fun i => (at' 256 i).setWidth 32,
    tpkg := (List.range 104).map fun i => (at' 512 i).setWidth 8, counts := [] }

/-- Change the pins and power. -/
def pwrMod (f : PwrSt → PwrSt) (s : State) : State := { s with pwr := f s.pwr }

/-- REFCLK cycles from the last tick to the next one: TICK.PERIOD, but a follower's first capture places its tick INDLY cycles
after it (R204), also the first one of a new alignment after TICK_LOST (R206). [log 53, DEDUCED] -/
def tickLen (s : State) : Nat :=
  match s.pwr.tickInAt with
  | some o => if fget s pgTick 0x44 4 2 = 2 ∧ s.pwr.tickSeen = false ∧ fget s pgTick 0x6C 16 8 < 4 then o + fget s pgTick 0x54 8 8 else period s
  | none => period s

/-- A follower compares the pulse with its own count (R206): it was captured INDLY cycles before this tick, `len` cycles after the
last one. `woken` marks a tick that a wake pulse placed (R277). A follower that has captured no pulse yet counts its missing ones too.
Answers whether the tick slipped. [log 53, DEDUCED; 137, DESIGN CHOICE] -/
def slipCheck (len : Nat) (woken : Bool) (s : State) : State × Bool :=
  let seen := woken || decide ((s.pwr.tickInAt.map (· + fget s pgTick 0x54 8 8)) = some len)
  let s := pwrMod (fun x => { x with tickInAt := none, tickSeen := decide (fget s pgTick 0x44 4 2 = 2) && (x.tickSeen || seen) }) s
  if fget s pgTick 0x44 4 2 ≠ 2 then (s, false)
  else
    let run := fget s pgTick 0x6C 16 8
    if 4 ≤ run then (s, false)
    else if seen then (fset pgTick 0x6C 16 8 0 s, false)
    else
      let s := raise pgTick 1 (fset pgTick 0x6C 16 8 (run + 1) (finc pgTick 0x6C 0 16 1 s))
      (if run = 3 then alertCause 10 (sendEvent 0x000F [fget s pgTick 0x6C 0 16] (raise pgTick 2 s)) else s, true)

/-- The port whose samples phase the tick is in RUN. -/
def tickPortRuns (s : State) : Bool := decide (fget s (pgAcc (fget s pgTick 0x44 1 2)) 0x100 0 2 = 2)

/-- A re-phased tick compares the port's counter with its expected value (R201). Answers whether it differs. -/
def driftCheck (counts : List (BitVec 64)) (s : State) : State × Bool :=
  if fget s pgTick 0x44 0 1 = 1 ∧ fget s pgTick 0x44 6 1 = 1 then
    let s := { s with phaseK := s.phaseK + 1 }
    if tickPortRuns s then
      let got := counts.getD (fget s pgTick 0x44 1 2) 0
      let want := rget64 s pgTick 0x60 + BitVec.ofNat 64 (s.phaseK * (rget s pgTick 0x50).toNat)
      if got = want then (s, false)
      else (raise pgTick 0 (rset pgTick 0x68 (BitVec.ofNat 32 (got - want).toNat) s), true)
    else (s, false)
  else (s, false)

/-- The counter of an armed generator's port has gone past TICK.SOFS without a re-phase: the generator stays armed until SOFS is written
again (R201). [log 53, DEDUCED] -/
def sofsCheck (counts : List (BitVec 64)) (s : State) : State :=
  let sofs := rget64 s pgTick 0x48
  whenS (decide (fget s pgTick 0x44 0 1 = 1) && decide (fget s pgTick 0x44 6 1 = 0) && decide (sofs ≤ counts.getD (fget s pgTick 0x44 1 2) 0))
    (pwrMod fun x => { x with sofsPassed := some sofs }) s

/-- Engines write one correction record each block (R253). [log 95, DESIGN CHOICE] -/
def tickCorrections (s : State) : State :=
  foldS (List.range 80) (fun k s =>
    let l := (eng s k).ce
    let s := foldS l (fun d => errata { ty := 0x0109, sev := 1, level := 5, zq := k / 20, die := k / 5, peng := k % 5, block := d.1,
                                        detail := [d.1, d.2.1, d.2.2] }) s
    if l.isEmpty then s else engMod k (fun e => { e with ce := [] }) s) s

/-- The counters that the ports latched at the tick are seen. -/
def countsSeen (counts : List (BitVec 64)) (s : State) : State :=
  foldS (List.range 4) (fun q s =>
    let c := counts.getD q 0
    if (accState s q = 2 ∨ accState s q = 3) ∧ (acc s q).slept = false ∧ rget64 s (pgAcc q) 0x78 < c then rset64 (pgAcc q) 0x78 c s else s) s

/-- RDLINES and WRLINES show the ended frame (Table 12-3), and its corrections are recorded (R253). [log 65, DEDUCED] -/
def tickHubs (s : State) : State :=
  foldS (List.range 4) (fun h s =>
    let x := hub s h
    let s := rset64 (pgHub h) 0x70 (BitVec.ofNat 64 x.rd) (rset64 (pgHub h) 0x78 (BitVec.ofNat 64 x.wr) s)
    let s := foldS x.ceDue (fun d => errata { hubEr h 0x0109 1 0x11 with detail := [0x11, d.2.1, d.2.2] }) s
    hubMod h (fun x => { x with rd := 0, wr := 0, ceDue := [] }) s) s

/-- A package copied to the spare is bound (R335). -/
def tickPackages (s : State) : State :=
  foldS (List.range 4) (fun h s =>
    let x := hub s h
    match x.copying with
    | some p =>
      if x.copyDone then
        bindPackage h p (hubMod h (fun x => { x with copying := none, copyDone := false }) s)
      else s
    | none => s) s

/-- A downed port's dimension goes to F5, which was UP as it fell; it is lost where F5 has gone down since (R360). [log 68, DEDUCED] -/
def tickPorts (s : State) : State :=
  foldS (List.range 5) (fun d s =>
    let f := dimPort s d
    let h := [0, 1, 1, 2, 2, 3].getD f 3
    let go := decide (fget s (pgAbf 0) 0x100 8 3 = d) && decide (f < 5) && decide (fget s (pgAbf f) 0x44 0 3 = 3) && (abf s f).await
    let s := whenS (abf s f).await (abfMod f (fun x => { x with await := false })) s
    if go && !portUp s 5 then capacity 7 4 (hubDieEr h 0x0402 4 0x14) s
    else if go then
      let s := fset (pgAbf 5) 0x44 8 3 d (fset (pgAbf f) 0x44 8 3 7 (fset (pgAbf 0) 0x104 (3 * d) 3 5 s))
      capacity 7 4 (hubDieEr h 0x0402 4 0x14) (substitution (hubDieEr h 0x0401 1 0x14) 7 d f 5 s)
    else s) s

/-- The ports of every dimension are UP, so that a message reaches each module of 0 to 2^DIMS - 1 (R345). [log 53, DEDUCED] -/
def fabricUp (s : State) : Bool := (List.range (fget s (pgAbf 0) 0x100 5 3)).all fun d => portUp s (dimPort s d)

/-- The master's tick pulse, OUTLEAD cycles before the tick, and its alignment message where one is owed: from the write of TICK.CTL on, until
the first tick at which every dimension's port is UP (R204, R205, R356). [log 53, DEDUCED] -/
def tickMaster (s : State) : State :=
  if fget s pgTick 0x44 4 2 ≠ 1 then s
  else
    let s := emit (.tickOut false (s.refTick - fget s pgTick 0x54 0 8)) s
    let n := 2 ^ fget s (pgAbf 0) 0x100 5 3
    if s.pwr.tickAligned.isNone && decide (1 < n) && fabricUp s && !anyJob s then
      let a := s.tick + 16
      let s := rset64 pgTick 0x70 a (pwrMod (fun x => { x with tickAligned := some a }) s)
      foldS ((List.range n).filter fun m => decide (m ≠ modNum s)) (fun m => sendSys m 2
        (sysBytes (modNum s * 2 ^ 8 + period s % 2 ^ 32 * 2 ^ 32 + a.toNat * 2 ^ 64)) (.tickAlign m (BitVec.ofNat 32 (period s)) a)) s
    else s

/-- Fabric time starts at 0 on the aligned tick (R347). -/
def tickFabric (s : State) : State :=
  if s.pwr.tickAligned = some s.tick then pwrMod (fun x => { x with fabSeen := 0 }) { s with ftimeAt := s.refTick } else s

/-- A requested attestation report describes the module at this tick, whatever its power state (R431). [log 78, DEDUCED] -/
def tickAttest (s : State) : State :=
  if s.sec.attReq then secMod (fun x => { x with attReq := false, attBytes := some (attReport s) }) s else s

/-- Shadows of engines and dies that no waiting engine leads commit at the tick (R394). [log 54, DEDUCED] -/
def tickCommits (s : State) : State :=
  let late := (List.range 64).filter fun l => !absent s l && waits s l && decide ((eng s (storeKey s l)).cyc0 ≠ (zone s (zoneOf l)).tickAbs)
  let keys := late.map (storeKey s) ++ late.map (execKey s)
  let dies := late.filterMap fun l => if dieLead s (l / 4) = some l then some (l / 4) else none
  commitCaptured (fun p => !keys.any (fun k => onEngine k p) && !dies.any (fun c => onDie c p)) s

/-! ### The tick -/

/-- Every segment has ended: the module may enter Standby (R273). -/
def allPaused (s : State) : Bool :=
  (List.range 4).all fun j => let b := job s j; !b.occupied || !b.bound || atPause s b

/-- A tick that processes no frame (R203): the module pages' shadows commit (R395), and the RT jobs lose the frame. -/
def tickIdle (s : State) : State :=
  let s := commitShadows (fun p => decide (p < 0x100)) s
  foldS (List.range 4) (fun j => jobMod j fun b =>
    if b.bound && !b.bg then { b with firstLost := some (b.firstLost.getD (s.tick - 1)) } else b) s

/-- Engines whose frame starts at the tick (R177); the others go on with their frame, or wait for its late end. -/
def tickEngines (s : State) : State :=
  foldS (List.range 64) (fun l s =>
    let k := storeKey s l
    if absent s l then s
    else
      let s := whenS (decide (((eng s k).bg).st = 1)) (segMod k .bg fun x => { x with quiet := x.quiet + 1 }) s
      if waits s l then s else startFrame l (zone s (zoneOf l)).tickAbs (s.tick - 1) s) s

/-- What the edge of a tick does in Ready and Active, in the order of R394 and R257; `wake` marks the first tick after a
wake. Steps close before the frames that start at the tick advance them (R132, R180). [log 76, DEDUCED] -/
def tickRun (wake : Bool) (ev : BitVec 8) (s : State) : State :=
  let s := heldLoads (secMod (fun x => { x with runs := [] }) s)
  let s := containAll (sfuSubst (sfuWorn s))
  let s := foldS (List.range 80) (fun k s => if (eng s k).cutReset then engineClear k s else s) s
  let s := tickPackages (tickPorts s)
  let s := foldS (List.range 4) closeFrames s
  let s := tickStarts wake (tickResets s)
  let s := commitShadows (fun p => decide (p < 0x200)) (putShed s)
  let s := capShares s
  let s := tickSummaries (tickPauses s)
  if s.pwr.stbyReq && allPaused s then
    tickMaster (curate (curateSteps (pwrMod (fun x => { x with entry := true }) (applySteps s).1)))
  else
    let (s, zs) := applySteps s
    let s := captureShadows (tickBinds s)
    let s := curateSteps (tickFrames ev zs s)
    let s := tickCommits (tickEngines s)
    let s := curate s
    tickMaster (startTests s)

/-- An Abfold port's retries of the frame are recorded, one record a tick (R357). -/
def tickAbf (s : State) : State :=
  foldS (List.range 6) (fun p s =>
    let n := (abf s p).retries
    whenS (decide (0 < n)) (fun s =>
      errata { hubEr ([0, 1, 1, 2, 2, 3].getD p 3) 0x0601 1 0x14 with detail := [p, 0xFF, n] }
        (abfMod p (fun x => { x with retries := 0 }) s)) s) s

/-- Change the Vilri link state. -/
def vilMod (f : VilriSt → VilriSt) (s : State) : State := { s with vil := f s.vil }

/-- A verdict record of a slot is lost and counted; the frames lost are remembered (R385). -/
def loseVerdict (slot : Nat) (frame : BitVec 64) (s : State) : State :=
  vilMod (fun v =>
    { v with
      vrdLost := match v.vrdLost.find? fun x => decide (x.1 = slot) with
        | some x => (v.vrdLost.filter fun y => decide (y.1 ≠ slot)) ++ [(slot, x.2.1, frame)]
        | none => v.vrdLost ++ [(slot, frame, frame)] }) (finc pgVilri 0x78 0 32 1 s)

/-- Verdict records that cannot leave are lost (R385). -/
def loseVerdicts (s : State) : State :=
  let s' := foldS s.ready (fun r => loseVerdict r.slot r.frame) s
  { s' with ready := [] }

/-- The Vilri port's replays of the frame are recorded (R368), and verdict records that became ready with the link not UP are lost
(R385). -/
def tickVilri (s : State) : State :=
  let s := whenS (!vilriUp s) loseVerdicts s
  let s := vilMod (fun v => { v with since := 0 }) s
  let n := s.vil.replays
  if n = 0 then s
  else errata { hubEr 0 0x0601 1 0x15 with detail := [0, 0xFF, n] }
    { s with vil := { s.vil with replays := 0 } }

/-- Link conditions of the frame, one record for each (R310, R357, R368). -/
def tickLinks (s : State) : State := tickVilri (tickAbf (tickAcc s))

/-- Engines whose late cycle 0 falls before the tick start their frame first (R209). -/
def lateStarts (s : State) : State := foldS (List.range 64) doEngineFrameStart s

/-- The edge of a tick `len` REFCLK cycles after the last, `run` of which the zone clocks ran: clocks, number, sensors, slips, drift,
then what the module's state does at a tick. `wake` marks the first tick after a wake, which latches C0 itself (R276), `woken` one that a wake pulse placed (R277). [log 134, DESIGN CHOICE] -/
def edgeOf (len run : Nat) (wake woken : Bool) (v : Option TickEnv) (s : State) : State :=
  let live := running s
  let s := whenS (live && !wake) (fun s => foldS (List.range 4) slackOf (lateStarts s)) s
  let s := tickFabric (advanceClocks len run s)
  let s := foldS (List.range 4) (fun h => hubMod h fun x => { x with refresh := 0 }) s
  let (s, slip) := slipCheck len woken s
  let (s, drift) := match v with
    | some e => if wake then (s, false) else driftCheck e.counts s
    | none => (s, false)
  let s := match v with
    | some e => whenS live (sense e) (sofsCheck e.counts (countsSeen e.counts s))
    | none => let (f, s) := takeFree s; whenS live (sense (senseFree f)) s
  let ev : BitVec 8 := (if slip then 0x10 else 0) ||| (if drift then 0x20 else 0)
  tickAttest (tickLinks (if live then tickCorrections (tickHubs (tickRun wake ev s)) else tickMaster (tickIdle s)))

/-- The edge of a tick that follows the last by `len` REFCLK cycles. -/
def tickEdge (len : Nat) (v : Option TickEnv) (s : State) : State := edgeOf len (if running s then len else 0) false false v s

/-- Boot has ended: the module is Ready at this tick (R416, R419), the streams that a reset stopped are named (R420), and a fuse
counter that the firmware in force raises is raised (R428). -/
def bootReady (s : State) : State :=
  if pstate s = 1 ∧ s.pwr.bootDone = true then
    let s := foldS s.pwr.lostStreams (fun x => sendEvent 2 [x.1, x.2.toNat, (s.tick + 1).toNat]) s
    let s := secMod (fun x => { x with secver := max x.secver x.bumpTo, bumpTo := 0 }) s
    setPstate 2 (fset pgSec 0xBC 0 4 15 (pwrMod (fun x => { x with bootDone := false, lostStreams := [] }) s))
  else s

/-- Ticks fall: the module is not Off, and REFCLK is present. -/
def ticking (s : State) : Bool := !s.pwr.off && s.pwr.refclk

/-- TICK (R199). [log 8, DESIGN CHOICE] -/
def doTick (v : TickEnv) (s : State) : State :=
  if ticking s then tickEdge (tickLen s) (some v) (bootReady s) else s

/-- TICK_REPHASE (R201): the armed generator's tick falls on this edge, and the port latches its counter as C0. [log 53, DEDUCED] -/
def doTickRephase (count : BitVec 64) (since : Nat) (s : State) : State :=
  if ticking s && decide (fget s pgTick 0x44 0 1 = 1) && decide (fget s pgTick 0x44 6 1 = 0) && tickPortRuns s &&
      decide (rget64 s pgTick 0x48 ≤ count) && decide (s.pwr.sofsPassed ≠ some (rget64 s pgTick 0x48)) && !anyJob s then
    let s := fset pgTick 0x44 6 1 1 (rset64 pgTick 0x60 count { s with phaseK := 0 })
    tickEdge since none (bootReady s)
  else s

/-- TICKALIGN (R205, R206, R356): the next tick takes the number N − 15, and fabric time restarts at tick N. -/
def doTickAlign (aligned : BitVec 64) (s : State) : State :=
  if ticking s && decide (fget s pgTick 0x44 4 2 = 2) && !anyJob s then
    let s := { s with tick := aligned - 16 }
    let s := pwrMod (fun x => { x with tickAligned := some aligned, tickSeen := x.tickSeen && decide (fget s pgTick 0x6C 16 8 < 4) }) s
    raise pgTick 3 (fset pgTick 0x6C 16 8 0 (rset64 pgTick 0x70 aligned s))
  else s

/-- STEPLINK (R349): the step applies at the named tick, or at the next one; a step code above 4 counts as 4. [log 135, DESIGN CHOICE] -/
def doStepLink (slot sender code : Nat) (t : BitVec 64) (s : State) : State :=
  if running s && (job s slot).occupied then
    curMod (fun c => { c with steplinks := c.steplinks ++ [(slot, sender, t, min code 4)] }) s
  else s

/-! ### Freezes (R19, R20, R267, R269) -/

/-- Table 15-7's code of a cause. -/
def causeCode : FreezeCause → Nat
  | .current _ => 1
  | .temperature _ => 2
  | .envelope => 3
  | .linked => 4

/-- One zone's clocks stop, for cause `tag` (its own code, or 16 + z when zone z's freeze links it). [log 52, DEDUCED] -/
def stopZone (z tag time : Nat) (s : State) : State :=
  let p := pgZone z
  let c := if tag < 16 then tag else 4
  if (zone s z).frozenAt.isSome then
    zoneMod z (fun x => if x.causes.contains tag then x else { x with causes := x.causes ++ [tag] }) s
  else
    let s := zoneMod z (fun x => { x with frozenAt := some (max time s.refTick), causes := [tag], frzTag := tag }) s
    let s := raise p 1 (fset p 0x54 16 4 c (finc p 0x54 0 16 1 s))
    let s := whenS (decide (tag = 1)) (raise p 3) s
    foldS (List.range 4) (fun j => jobMod j fun b =>
      if !b.bg && b.engs.any (fun l => decide (zoneOf l = z)) then { b with frames := b.frames.map fun f => { f with tevt := f.tevt ||| 2 } }
      else b) s

/-- A zone and the zones linked to it freeze (R19); the Curator steps the zone at the next tick (R269). [log 52, DEDUCED] -/
def freezeZone (z tag time : Nat) (s : State) : State :=
  let set := linkZones s [z]
  let s := zoneMod z (fun x => { x with froze := true }) (stopZone z tag time s)
  foldS (set.filter fun y => decide (y ≠ z)) (fun y => stopZone y (16 + z) time) s

/-- A zone with no cause left restarts: the length of its freeze, PERF and the Errata record (R19). The next tick now falls on an earlier
engine cycle, and so does what arrives by it (R29). [log 52, DEDUCED] -/
def restartZone (z time : Nat) (s : State) : State :=
  let x := zone s z
  match x.frozenAt with
  | some f =>
    if x.causes.isEmpty then
      let p := pgZone z
      let n := max time f - f
      let gone := max time f - max f s.refTick
      let s := zoneMod z (fun x => { x with frozenAt := none, lost := x.lost + gone }) s
      let s := { s with xfers := s.xfers.map fun y =>
        if y.tickDue ∧ zoneOf y.leng = z then { y with due := y.due - gone * multOf (stepOf s z) } else y }
      let s := foldS (List.range 20) (fun i s =>
        let q := pgEng (20 * z + i) 8
        rset64 q 0x54 (BitVec.ofNat 64 (min (2 ^ 64 - 1) ((rget64 s q 0x54).toNat + n))) s) (rset p 0x58 (BitVec.ofNat 32 n) s)
      errZone 0x0502 0 z [x.frzTag, n] s
    else s
  | none => s

/-- Causes end: the zones without one left restart together. [log 52, DEDUCED] -/
def dropCauses (gone : Nat → Nat → Bool) (time : Nat) (s : State) : State :=
  let s := foldS (List.range 4) (fun z => zoneMod z fun x => { x with causes := x.causes.filter fun c => !gone z c }) s
  foldS (List.range 4) (fun z => restartZone z time) s

/-- A reading that freezes a zone (R269): a rail current above ZONEz.ILIM (0.1 A), a temperature at THERM.FREEZE (°C). Any other cause
has no reading. -/
def freezes (s : State) (z : Nat) (c : FreezeCause) : Bool :=
  match c with
  | .current r => decide (fget s (pgZone z) 0x44 0 12 < r.toNat)
  | .temperature r => decide (fget s pgCur 0x44 16 8 ≤ r.toNat)
  | .envelope | .linked => true

/-- THROTTLE_FREEZE. -/
def doThrottleFreeze (z : Nat) (c : FreezeCause) (time : Nat) (s : State) : State :=
  if running s && freezes s z c then freezeZone z (causeCode c) time s else s

/-- Readings at which a zone's own freeze of cause `c` ends (R269): a current below 90 % of ZONEz.ILIM, a temperature 3 °C below
THERM.FREEZE. -/
def thaws (s : State) (z cur temp c : Nat) : Bool :=
  (decide (c = 1) && decide (10 * cur < 9 * fget s (pgZone z) 0x44 0 12)) ||
    (decide (c = 2) && decide (temp + 3 ≤ fget s pgCur 0x44 16 8)) || decide (c = 4)

/-- FREEZE_RELEASE (R19, R269): the zone's own conditions that its readings end, and with the last of them the freezes it linked. [log 52, DEDUCED] -/
def doFreezeRelease (z cur temp time : Nat) (s : State) : State :=
  if running s then
    let left := (zone s z).causes.filter fun c => decide (c < 16) && decide (c ≠ 3) && !thaws s z cur temp c
    dropCauses (fun y c => (decide (y = z) && thaws s z cur temp c) || (left.isEmpty && decide (c = 16 + z))) time s
  else s

/-- ENVELOPE_GUARD (R267): above 760 W every compute zone freezes; at 700 W they restart. In Standby, where no zone clock runs, it falls in
the same way. [log 52, DEDUCED] -/
def doEnvelopeGuard (p time : Nat) (s : State) : State :=
  let on := decide (fget s pgCur 0x78 8 1 = 1)
  if !running s && decide (pstate s ≠ 4) then s
  else if !on && decide (7600 < p) && running s then
    let s := raise pgCur 5 (fset pgCur 0x78 8 1 1 (curMod (fun c => { c with guardDue := true }) s))
    foldS (List.range 4) (fun z => stopZone z 3 time) s
  else if on && decide (p ≤ 7000) then
    dropCauses (fun _ c => decide (c = 3)) time (fset pgCur 0x78 8 1 0 s)
  else s

/-- TICK. -/
def execTick (env : TickEnv) (s : State) : Res := .next (doTick env s)
/-- ENGINE_FRAME_START. -/
def execEngineFrameStart (leng : BitVec 6) (s : State) : Res := .next (doEngineFrameStart leng.toNat s)
/-- OVERRUN. -/
def execOverrun (leng : BitVec 6) (s : State) : Res := .next (doOverrun leng.toNat s)
/-- SEGMENT_CUT. -/
def execSegmentCut (leng : BitVec 6) (s : State) : Res := .next (doSegmentCut leng.toNat s)
/-- TICK_REPHASE. -/
def execTickRephase (count : BitVec 64) (since : Nat) (s : State) : Res := .next (doTickRephase count since s)
/-- TICKALIGN. -/
def execTickAlign (_master : BitVec 5) (_period : BitVec 32) (aligned : BitVec 64) (s : State) : Res :=
  .next (doTickAlign aligned s)
/-- STEPLINK. -/
def execStepLink (slot : BitVec 2) (sender : BitVec 5) (stepCode : BitVec 8) (atTick : BitVec 64) (s : State) : Res :=
  .next (doStepLink slot.toNat sender.toNat stepCode.toNat atTick s)
/-- THROTTLE_FREEZE. -/
def execThrottleFreeze (zone : BitVec 2) (cause : FreezeCause) (time : Nat) (s : State) : Res :=
  .next (doThrottleFreeze zone.toNat cause time s)
/-- FREEZE_RELEASE. -/
def execFreezeRelease (zone : ZoneReading) (time : Nat) (s : State) : Res :=
  .next (doFreezeRelease zone.zone.toNat zone.current.toNat zone.temp.toNat time s)
/-- ENVELOPE_GUARD. -/
def execEnvelopeGuard (p50us : BitVec 16) (time : Nat) (s : State) : Res := .next (doEnvelopeGuard p50us.toNat time s)

end Sys2Proof.Machine
end

