-- ==== Sys2Proof/Machine/Abfold.lean ====
section
/-! DEFINITION. The Abfold fabric (spec/13_abfold_fabric.md R338-R361): port training, link blocks, lane replacement, ports
that go down, and the packets that land in this module. -/

namespace Sys2Proof.Machine

/-! ### Ports (R343, R344) -/

/-- The dimension a port trains for: the one bound to it, or SPAREDIM for an unbound F5; 7 none (R343). -/
def trainDim (s : State) (p : Nat) : Nat :=
  let dims := fget s (pgAbf 0) 0x100 5 3
  match (List.range 5).find? fun d => decide (dimPort s d = p) && decide (d < dims) with
  | some d => d
  | none =>
    let sd := fget s (pgAbf 0) 0x100 8 3
    if p = 5 ∧ sd < dims then sd else 7

/-- The padded hop latency of a dimension in 0.625 ns units: 180 ns, or 240 ns on dimensions 3 and 4 (R346). -/
def hopPad (d : Nat) : Nat := if d < 3 then 288 else 384

/-- The first failing check of Table 13-3; 0 for none. A port without a dimension skips the checks that need one. -/
def trainCode (s : State) (p lanes : Nat) (locked : Bool) (pmod pdim pshare latency : Nat) : Nat :=
  let d := trainDim s p
  let dims := fget s (pgAbf 0) 0x100 5 3
  if lanes < 8 ∨ locked = false then 1
  else if d ≠ 7 ∧ (pmod ≠ Nat.xor (modNum s) (2 ^ d) ∨ pdim ≠ d) then 2
  else if d ≠ 7 ∧ hopPad d < latency then 3
  else if dims = 0 ∨ 2 ^ dims ≤ modNum s ∨ d = 7 then 4
  else if pshare ≠ fget s (pgAbf 0) 0x108 0 20 then 5
  else 0

/-- A port's Errata record of a link condition: port, lane and count. -/
def abfErr (p sev lane count : Nat) (s : State) : State :=
  errata { hubEr (abfHub p) 0x0601 sev 0x14 with detail := [p, lane, count] } s

/-- Put LSTAT but for SPLANE. -/
def abfPut (p st dim nbr refuse : Nat) (s : State) : State :=
  fset (pgAbf p) 0x44 0 3 st (fset (pgAbf p) 0x44 8 3 dim (fset (pgAbf p) 0x44 11 5 nbr (fset (pgAbf p) 0x44 16 8 refuse s)))

/-- What a port keeps where its link goes down. -/
def AbfSt.dropped (x : AbfSt) : AbfSt := { spareBad := x.spareBad, arrived := x.arrived, retries := x.retries, lates := x.lates }

/-- A port starts training; what its link held is dropped. -/
def abfTrain (p : Nat) (s : State) : State :=
  let s := fset (pgAbf p) 0x0C 2 1 0 (abfPut p 1 7 0 0 s)
  abfMod p AbfSt.dropped s

/-- ABFOLD_PORT_ENABLE (R344). -/
def doAbfEnable (p : Nat) (s : State) : State :=
  if s.pwr.off || !enabled s (pgAbf p) || decide (fget s (pgAbf p) 0x40 0 1 = 1) then s else abfTrain p (fset (pgAbf p) 0x40 0 1 1 s)

/-- ABFOLD_PORT_DISABLE (Table 13-7). -/
def doAbfDisable (p : Nat) (s : State) : State :=
  if s.pwr.off then s
  else
    let s := fset (pgAbf p) 0x0C 2 1 0 (abfPut p 0 7 0 0 (fset (pgAbf p) 0x40 0 1 0 s))
    abfMod p AbfSt.dropped s

/-- ABFOLD_RETRAIN (R344, R399). [log 68, DEDUCED] -/
def doAbfRetrain (p : Nat) (s : State) : State :=
  if s.pwr.off || !enabled s (pgAbf p) || decide (fget s (pgAbf p) 0x40 0 1 = 0) then s else abfTrain p s

/-- ABFOLD_TRAINING_END (R344): UP, or REFUSED with the first failing code. F5 shows no dimension until R360 gives it one. -/
def doAbfTrainingEnd (p lanes : Nat) (locked : Bool) (pmod pdim pshare latency : Nat) (s : State) : State :=
  if fget s (pgAbf p) 0x44 0 3 ≠ 1 then s
  else
    let c := trainCode s p lanes locked pmod pdim pshare latency
    let d := trainDim s p
    if c = 0 then
      fset (pgAbf p) 0x74 0 16 (hopPad d - latency) (abfPut p 2 (if dimPort s d = p then d else 7) pmod 0 s)
    else
      let s := fset (pgAbf p) 0x0C 2 1 1 (abfPut p 4 7 0 c s)
      sendEvent 0x000C [p, 4, c] (abfErr p 2 0xFF c s)

/-! ### Packets (R345, R353) -/

/-- Bytes `[a, a+n)` of a unit, little-endian. -/
def lineNat (l : Line) (a n : Nat) : Nat := l.toNat / 2 ^ (8 * a) % 2 ^ (8 * n)

/-- The header of a packet (Table 13-5). -/
def readHeader (l : Line) : Packet :=
  let op := bitsOf l.toNat 0 4
  let n := bitsOf l.toNat 40 5 + 1
  { op := BitVec.ofNat 4 op, job := BitVec.ofNat 2 (bitsOf l.toNat 8 2), bg := decide (bitsOf l.toNat 10 1 = 1),
    last := decide (bitsOf l.toNat 11 1 = 1), rtry := decide (bitsOf l.toNat 12 1 = 1), smod := BitVec.ofNat 5 (lineNat l 2 1),
    sleng := BitVec.ofNat 6 (lineNat l 3 1), ch := BitVec.ofNat 4 (lineNat l 4 1), qfmt := BitVec.ofNat 4 (bitsOf l.toNat 36 4),
    nlm1 := BitVec.ofNat 5 (n - 1), pidx := BitVec.ofNat 16 (lineNat l 6 2), target := BitVec.ofNat 48 (lineNat l 8 6),
    workTick := BitVec.ofNat 64 (lineNat l 16 8), deadline := BitVec.ofNat 32 (lineNat l 24 4),
    poison := BitVec.ofNat 24 (lineNat l 28 3),
    marks := if op = 2 then [] else (List.range (min n 24)).map fun i => BitVec.ofNat 8 (lineNat l (32 + i) 1),
    retShelf := if op = 2 then BitVec.ofNat 48 (lineNat l 32 6) else 0,
    terms := BitVec.ofNat 32 (lineNat l 56 4),
    special := if op = 4 ∧ bitsOf l.toNat 36 4 = 11 then
      (List.range (min n 16)).map fun i => BitVec.ofNat 2 (bitsOf l.toNat (480 + 2 * i) 2) else [],
    lines := [] }

/-- Data lines that follow a header: an RDREQ carries none. -/
def dataLines (l : Line) : Nat := if bitsOf l.toNat 0 4 = 2 then 0 else bitsOf l.toNat 40 5 + 1

/-- An accepted packet goes on by R345, waits to land here, or has a reserved code (R353). -/
def routePacket (p : Nat) (k : Packet) (s : State) : State :=
  if k.op = 0 ∨ 4 < k.op.toNat then dropPacket s
  else if shelfMod k.target = modNum s then abfMod p (fun x => { x with arrived := x.arrived ++ [k] }) s
  else sendPacket (shelfMod k.target) k s

/-- The packet of a header and its lines, with RTRY where a unit came in a replay. -/
def buildPacket (h : Line) (again : Bool) (ls : List Line) : Packet :=
  let k := readHeader h
  { k with rtry := k.rtry || again, lines := ls }

/-- A slot's next unit in a block; a unit of zeros where a header may stand carries nothing. [log 67, DEDUCED] -/
def takeUnit (p slot : Nat) (again : Bool) (u : Line) (s : State) : State :=
  let (r, us) := tabGet (fun _ => (false, [])) (abf s p).parts slot
  let us := us ++ [u]
  let r := r || again
  match us with
  | [] => s
  | h :: ls =>
    if ls.isEmpty ∧ h = 0 then s
    else if ls.length = dataLines h then
      routePacket p (buildPacket h r ls) (abfMod p (fun x => { x with parts := tabSet (fun _ => (false, [])) x.parts slot (false, []) }) s)
    else abfMod p (fun x => { x with parts := tabSet (fun _ => (false, [])) x.parts slot (r, us) }) s

/-- The slot that owns a job unit (R342). -/
def unitSlot (s : State) (u : Nat) : Option Nat :=
  let sh (j : Nat) : Nat := fget s (pgAbf 0) 0x108 (5 * j) 5
  let at' (j : Nat) : Nat := 2 + ((List.range j).map sh).foldl (· + ·) 0
  (List.range 4).find? fun j => decide (at' j ≤ u) && decide (u < at' j + sh j) && decide (u < 26)

/-! ### Blocks (R340-R342, R357) -/

/-- The lanes of a block decoded: their bytes, and how many each corrected; none for a lane that fails. -/
def laneDecode (lanes : List (List Byte)) : List (Option (List Nat × Nat)) :=
  (List.range 8).map fun i =>
    let l := lanes.getD i []
    if l.length = 224 then rsDecode 16 (l.map (·.toNat)) else none

/-- Unit `k` of decoded lanes (R340). -/
def blockUnit (ls : List (List Nat)) (k : Nat) : Line :=
  lineOfBytes ((List.range 64).map fun j => BitVec.ofNat 8 ((ls.getD (j / 8) []).getD (8 * k + j % 8) 0))

/-- The units of a block whose lanes all decode and whose CRC matches (R341). -/
def blockUnits (ds : List (Option (List Nat × Nat))) : Option (List Line) :=
  if ds.all (·.isSome) then
    let ls := ds.filterMap fun d => d.map (·.1)
    let us := (List.range 26).map (blockUnit ls)
    let c := us.headD 0
    if crc32 ((bytesOfLine c).take 60 ++ (us.drop 1).flatMap bytesOfLine) = BitVec.ofNat 32 (lineNat c 60 4) then some us else none
  else none

/-- The RETRACT of a system message (Table 9-5). -/
def readRetract (v : Nat) : RetractMsg :=
  { job := BitVec.ofNat 2 v, bg := decide (bitsOf v 2 1 = 1), all := decide (bitsOf v 3 1 = 1), omod := BitVec.ofNat 5 (v / 2 ^ 8),
    oleng := BitVec.ofNat 6 (v / 2 ^ 16), col := BitVec.ofNat 6 (v / 2 ^ 24), workTick := BitVec.ofNat 64 (v / 2 ^ 32),
    tid := BitVec.ofNat 12 (v / 2 ^ 96), bix := BitVec.ofNat 8 (v / 2 ^ 112), passIdx := BitVec.ofNat 20 (v / 2 ^ 128),
    target := BitVec.ofNat 48 (v / 2 ^ 160), count := BitVec.ofNat 16 (v / 2 ^ 208) }

/-- A RETRACT message at this module: for every engine of the job, for the unit it names, or on to its module (R356). -/
def sysRetract (m : RetractMsg) (s : State) : State :=
  if shelfMod m.target ≠ modNum s then
    sendSys (shelfMod m.target) 1 (retractBytes m) (.retractTo (shelfMod m.target) (targetOf m.target) (retractBytes m)) s
  else if m.all then foldS (job s m.job.toNat).engs (fun l => doRetract (some (BitVec.ofNat 6 l)) m) s
  else match targetOf m.target with
    | some t => doRetract t m s
    | none => s

/-- A message that holds no target goes on through the ports of the dimensions above the one it came in by, as its copies for the modules
beyond do (R345). [log 125, DESIGN CHOICE] -/
def passOn (p ty : Nat) (bs : List Byte) (o : Nat → Out) (s : State) : State :=
  let d := fget s (pgAbf p) 0x44 8 3
  foldS ((List.range (fget s (pgAbf 0) 0x100 5 3)).filter fun e => decide (d < e))
    (fun e => let m := Nat.xor (modNum s) (2 ^ e); sendSys m ty bs (o m)) s

/-- A TICKALIGN comes in: it acts, and the first of an alignment goes on (R356). [log 125, DESIGN CHOICE] -/
def sysAlign (p v : Nat) (bs : List Byte) (s : State) : State :=
  let n : BitVec 64 := BitVec.ofNat 64 (v / 2 ^ 64)
  let again := decide (s.pwr.tickAligned = some n)
  doTickAlign n (whenS (!again) (passOn p 2 bs fun m => .tickAlign m (BitVec.ofNat 32 (v / 2 ^ 32)) n) s)

/-- A STEPLINK comes in: it acts where the sender is of the slot's job set, and goes on; a copy of one that waits here does neither (R349,
R356). [log 125, DESIGN CHOICE; 135, DESIGN CHOICE] -/
def sysStep (p v : Nat) (bs : List Byte) (s : State) : State :=
  let j := bitsOf v 0 2
  let m := bitsOf v 8 5
  let c := bitsOf v 16 8
  let t : BitVec 64 := BitVec.ofNat 64 (v / 2 ^ 32)
  if s.cur.steplinks.contains (j, m, t, min c 4) then s
  else
    let s := passOn p 3 bs (fun u => .stepLink u j c t) s
    if (rget s (pgAbf 0) (0x110 + 4 * j)).getLsbD m then doStepLink j m c t s else s

/-- A system message of type `ty` that comes in by port `p` (Table 13-2, R356); one whose CRC fails is dropped. [log 67, DEDUCED; 125, DESIGN CHOICE] -/
def sysMessage (p ty v : Nat) (s : State) : State :=
  let bs := leBytes 32 v
  if crc32 (bs.take 28) ≠ BitVec.ofNat 32 (v / 2 ^ 224) then s
  else if ty = 1 then sysRetract (readRetract v) s
  else if ty = 2 then sysAlign p v bs s
  else if ty = 3 then sysStep p v bs s
  else s

/-- The open packets of a port are completed with lines of zeros that carry the poison mark (R359). -/
def completeParts (p : Nat) (s : State) : State :=
  let open' := (abf s p).parts
  let s := abfMod p (fun x => { x with parts := [] }) s
  foldS open' (fun (x : Nat × Bool × List Line) s =>
    match x.2.2 with
    | [] => s
    | h :: ls =>
      let n := dataLines h
      let k := buildPacket h x.2.1 (ls ++ List.replicate (n - ls.length) 0)
      let bad := (List.range n).foldl (fun a i => if ls.length ≤ i then a + 2 ^ i else a) 0
      routePacket p { k with poison := k.poison ||| BitVec.ofNat 24 bad } s) s

/-- ABFOLD_PORT_DOWN (R359, R360, R389): open packets end poisoned, STATUS.FAULT says that the port is out of service, and its dimension is
lost unless F5 can take it. [log 68, DEDUCED] -/
def doAbfPortDown (p : Nat) (s : State) : State :=
  if !portUp s p then s
  else
    let d := fget s (pgAbf p) 0x44 8 3
    let s := completeParts p (finc (pgAbf p) 0x48 16 16 1 (fset (pgAbf p) 0x44 0 3 3 s))
    let s := fset (pgAbf p) 0x0C 2 1 1 (abfMod p AbfSt.dropped s)
    let s := alertCause 12 (sendEvent 0x000C [p, 3, 0] (abfErr p 2 0xFF (fget s (pgAbf p) 0x48 16 16) s))
    if d = 7 then s
    else if p ≠ 5 ∧ fget s (pgAbf 0) 0x100 8 3 = d ∧ portUp s 5 = true then abfMod p (fun x => { x with await := true }) s
    else capacity 7 4 (hubDieEr (abfHub p) 0x0402 4 0x14) s

/-- The spare takes a lane at its announced block (R358). -/
def laneBind (p lane : Nat) (s : State) : State :=
  let s := fset (pgAbf p) 0x44 3 4 lane (abfMod p (fun x => { x with swLane := none, laneFails := [] }) s)
  capacity 6 4 (hubDieEr (abfHub p) 0x0402 4 0x14) (substitution (hubDieEr (abfHub p) 0x0401 1 0x14) 6 lane lane 8 s)

/-- ABFOLD_LANE_REPLACE (R358, R359): the lane is announced, to be the spare's 64 blocks after the next one; with the spare in use,
announced or failed the port goes down. -/
def doAbfLaneReplace (p lane : Nat) (s : State) : State :=
  if !portUp s p then s
  else
    let now := match (abf s p).swLane with
      | some (l, _) => l
      | none => fget s (pgAbf p) 0x44 3 4
    if now ≠ 15 then (if lane = now then s else doAbfPortDown p s)
    else if lane = 8 then abfMod p (fun x => { x with spareBad := true }) s
    else if (abf s p).spareBad then doAbfPortDown p s
    else
      abfMod p (fun x => { x with swLane := some (lane, (x.txSeq.toNat + 65) % 2 ^ 32) }) s

/-- A block that is not intact: the receiver stops and asks for a replay; the eighth NAK of a block takes the port down. [log 67, DEDUCED] -/
def abfNak (p : Nat) (s : State) : State :=
  let s := abfMod p (fun x =>
    { x with nak := true, nakDue := true, nakRun := x.nakRun + 1, since := 0, retries := x.retries + 1 }) s
  let s := finc (pgAbf p) 0x48 0 16 1 s
  if 8 ≤ (abf s p).nakRun then doAbfPortDown p s else s

/-- The partner's acknowledgement and NAK: blocks it has are forgotten; a NAK is answered from the block after them (R357), and the
eighth of one block before it is acknowledged takes the port down (R359). -/
def abfAcked (p : Nat) (ack : BitVec 32) (nak : Bool) (s : State) : State :=
  let s := abfMod p (fun x => { x with
    ackIn := ack, kept := x.kept.filter fun b => decide ((ack - b.seq).toNat ≥ 2 ^ 31), nakAck := ack,
    nakIn := if nak then (if x.nakAck = ack then x.nakIn + 1 else 1) else if x.nakAck = ack then x.nakIn else 0 }) s
  let s := whenS nak (fun s => finc (pgAbf p) 0x48 0 16 1
    (abfMod p (fun x => { x with retries := x.retries + 1, rpl := x.kept.head?.map (·.seq) }) s)) s
  whenS (decide (8 ≤ (abf s p).nakIn)) (doAbfPortDown p) s

/-- A lane the partner announces for replacement is announced here too; both switch at SWSEQ of this side's blocks (R358). -/
def abfSpare (p lane : Nat) (sw : BitVec 32) (s : State) : State :=
  if lane = 15 ∨ lane = fget s (pgAbf p) 0x44 3 4 ∨ (abf s p).swLane.isSome = true then s
  else
    abfMod p (fun x => { x with swLane := some (lane, sw.toNat) }) s

/-- An accepted block: its acknowledgement, a NAK for this side's blocks, system messages, and job units. [log 67, DEDUCED] -/
def abfAccept (p : Nat) (us : List Line) (s : State) : State :=
  let c := us.headD 0
  let again := decide (bitsOf c.toNat 65 1 = 1)
  let seq := BitVec.ofNat 32 (lineNat c 0 4)
  let s := abfMod p (fun x => { x with rxSeq := seq, nak := false, nakRun := 0, since := 0 }) s
  let s := rset64 (pgAbf p) 0x78 (rget64 s (pgAbf p) 0x78 + 1) s
  let s := abfAcked p (BitVec.ofNat 32 (lineNat c 4 4)) (decide (bitsOf c.toNat 64 1 = 1)) s
  if !portUp s p then s else
  let s := abfSpare p (bitsOf c.toNat 88 4) (BitVec.ofNat 32 (lineNat c 12 4)) s
  let sys := us.getD 1 0
  let s := sysMessage p (bitsOf c.toNat 76 4) (sys.toNat / 2 ^ 256) (sysMessage p (bitsOf c.toNat 72 4) (sys.toNat % 2 ^ 256) s)
  foldS (List.range 24) (fun i s =>
    match unitSlot s (i + 2) with
    | some j => takeUnit p j again (us.getD (i + 2) 0) s
    | none => s) s

/-- Lanes whose decoder has failed in 4 of the last 1,024 blocks are announced for replacement 64 blocks ahead (R358); the lane that the
spare carries is the spare (R359). [log 67, DEDUCED] -/
def laneWatch (p : Nat) (failed : List Nat) (s : State) : State :=
  let n := (abf s p).blocks
  let s := abfMod p (fun x =>
    { x with laneFails := (x.laneFails.filter fun f => decide (n < f.2 + 1024)) ++ failed.map fun l => (l, n) }) s
  foldS (failed.filter fun l => decide (4 ≤ ((abf s p).laneFails.filter fun f => decide (f.1 = l)).length))
    (fun l s => doAbfLaneReplace p (if fget s (pgAbf p) 0x44 3 4 = l then 8 else l) s) s

/-- An announced lane switches before the block of its BSEQ leaves. [log 67, DEDUCED] -/
def laneSwitch (p : Nat) (s : State) : State :=
  match (abf s p).swLane with
  | some (l, at') => if ((abf s p).txSeq + 1 - BitVec.ofNat 32 at').toNat < 2 ^ 31 then laneBind p l s else s
  | none => s

/-- Corrected bytes of each lane (LANECE); a lane that the spare replaces counts as lane 8. -/
def laneCount (p : Nat) (ds : List (Option (List Nat × Nat))) (s : State) : State :=
  foldS ds.zipIdx (fun (x : Option (List Nat × Nat) × Nat) s =>
    match x.1 with
    | some (_, n) => finc (pgAbf p) (0x50 + 4 * (if fget s (pgAbf p) 0x44 3 4 = x.2 then 8 else x.2)) 0 32 n s
    | none => s) s

/-! ### Sending (R340-R342, R357) -/

/-- The job units of a new block: each slot's next units in its own places, zeros where it has none (R342). -/
def jobUnits (p : Nat) (s : State) : List Line × Tab (List Line) :=
  let q := (abf s p).txQ
  let sh (j : Nat) : Nat := fget s (pgAbf 0) 0x108 (5 * j) 5
  let own (j : Nat) : List Line := tabGet (fun _ => []) q j
  let us := (List.range 4).flatMap fun j => (own j).take (sh j) ++ List.replicate (sh j - (own j).length) (0 : Line)
  ((us ++ List.replicate 24 (0 : Line)).take 24, (List.range 4).foldl (fun t j => tabSet (fun _ => []) t j ((own j).drop (sh j))) q)

/-- The control unit (Table 13-2) of block `seq` around system and job units `us` whose kinds are SYSA + 16 * SYSB. -/
def abfControl (p : Nat) (seq : BitVec 32) (again : Bool) (kinds : Nat) (us : List Line) (s : State) : Line :=
  let a := abf s p
  let sp := match a.swLane with
    | some (l, b) => (l, b)
    | none => (fget s (pgAbf p) 0x44 3 4, 0)
  let v := seq.toNat + a.rxSeq.toNat * 2 ^ 32 + b2n a.nakDue * 2 ^ 64 + b2n again * 2 ^ 65 + kinds * 2 ^ 72 + modNum s * 2 ^ 80 +
    fget s (pgAbf p) 0x44 8 3 * 2 ^ 85 + sp.1 * 2 ^ 88 + sp.2 * 2 ^ 96 + fget s (pgAbf 0) 0x108 0 20 * 2 ^ 128
  BitVec.ofNat 512 (v + (crc32 (leBytes 60 v ++ us.flatMap bytesOfLine)).toNat * 2 ^ 480)

/-- The eight lanes of a block's units 0 to 25, each with its parity (R340, R341). -/
def blockLanes (us : List Line) : List (List Byte) :=
  (List.range 8).map fun i =>
    let d := us.flatMap fun u => ((bytesOfLine u).drop (8 * i)).take 8
    d ++ (rsParity 16 (d.map (·.toNat))).map (BitVec.ofNat 8)

/-- The port sends its next block: a kept one 32 blocks after its last sending where a replay is due, else a new one with two system
messages and each slot's units. [log 68, DEDUCED; 97, DESIGN CHOICE] -/
def abfSend (p : Nat) (s : State) : State :=
  let a := abf s p
  let n := a.txN + 1
  let old : Option SentBlock := match a.rpl with
    | some q => a.kept.find? fun b => decide (b.seq = q) && decide (b.sentAt + 32 ≤ n)
    | none => none
  let b : SentBlock := match old with
    | some b => { b with sentAt := n }
    | none =>
      let ms : List (Nat × List Byte) := a.txSys.take 2
      let sys := lineOfBytes ((ms.flatMap (fun (m : Nat × List Byte) => m.2) ++ List.replicate 64 0).take 64)
      { seq := a.txSeq + 1, sentAt := n, kinds := packed 0 4 (ms.map (·.1)), units := sys :: (jobUnits p s).1 }
  let c := abfControl p b.seq old.isSome b.kinds b.units s
  let s := abfMod p (fun x =>
    if old.isSome then
      { x with
        txN := n, nakDue := false, rpl := if b.seq = x.txSeq then none else some (b.seq + 1),
        kept := x.kept.map fun y => if y.seq = b.seq then b else y }
    else
      { x with
        txN := n, nakDue := false, txSeq := b.seq, txSys := x.txSys.drop 2, txQ := (jobUnits p s).2,
        tie := x.tie.filter fun t => decide (t.2.2 ≤ (tabGet (fun _ => []) (jobUnits p s).2 t.1).length),
        kept := (x.kept ++ [b]).drop (x.kept.length - 63) }) s
  emit (.abfBlock p (blockLanes (c :: b.units))) (rset64 (pgAbf p) 0x80 (rget64 s (pgAbf p) 0x80 + 1) s)

/-- ABFOLD_BLOCK (R341, R357): while stopped, only the block 32 after the one asked for, or the one expected, counts. [log 67, DEDUCED] -/
def doAbfBlock (p : Nat) (lanes : List (List Byte)) (s : State) : State :=
  if !portUp s p then s
  else
    let ds := laneDecode lanes
    let s := laneCount p ds (abfMod p (fun x => { x with blocks := x.blocks + 1, since := x.since + 1 }) s)
    let a := abf s p
    let s := match blockUnits ds with
      | some us =>
        let seq := BitVec.ofNat 32 (lineNat (us.headD 0) 0 4)
        if seq = a.rxSeq + 1 then abfAccept p us s
        else if a.nak then (if a.since = 32 then abfNak p s else s)
        else if decide ((a.rxSeq - seq).toNat < 64) then s
        else abfNak p s
      | none => if a.nak ∧ a.since ≠ 32 then s else abfNak p s
    let s := if portUp s p then
        laneSwitch p (laneWatch p (ds.zipIdx.filterMap fun (d, i) => if d.isNone then some i else none) s)
      else s
    whenS (portUp s p) (abfSend p) s

/-! ### Landing (R330, R352-R354) -/

/-- The packet is bound for an engine whose clock is stopped: it waits at the engine's hub until the restart (R19, R20, R350). -/
def packetHeld (k : Packet) (s : State) : Bool :=
  decide (shelfMod k.target = modNum s) &&
    match placeOf (k.target.toNat % 2 ^ 43) with
    | .carrel l _ => frozen s l && !absent s l
    | .bank l _ => frozen s l && !absent s l
    | _ => false

/-- The packet leaves the port's waiting list. -/
def landed (k : Packet) (s : State) : State :=
  foldS (List.range 6) (fun p => abfMod p fun x => { x with arrived := x.arrived.erase k }) s

/-- The marks of line `i` of a packet. -/
def packetMark (k : Packet) (i : Nat) : Mark := k.marks.getD i 0 ||| (if k.poison.getLsbD i then mkPoison else 0)

/-- The lines of a packet with their marks. -/
def packetLines (k : Packet) : List (Line × Mark) := k.lines.zipIdx.map fun (l, i) => (l, packetMark k i)

/-- A packet that a hop replayed marks its work tick (R354). -/
def noteRetry (k : Packet) (s : State) : State :=
  if k.rtry && !k.bg then frameMod k.job.toNat k.workTick (fun f => { f with tevt := f.tevt ||| 8 }) s else s

/-- A line that lands in cycle `cyc` is late (R354): later than the packet's DEADLINE, in fabric time. An engine's cycle is taken to fabric
time, a freeze of its zone left out (R350); a line for the Stacks or the verdict buffer, whose hub has no engine clock, gives its fabric time itself. A command that says so is
late also where the fabric's count has not passed DEADLINE. [log 126, DEDUCED] -/
def arrivesLate (k : Packet) (cyc : Nat) (late : Bool) (s : State) : Bool :=
  let at' := match placeOf (k.target.toNat % 2 ^ 43) with
    | .carrel l _ => fabricAt s (refOf s l cyc - (zone s (zoneOf l)).lost)
    | .bank l _ => fabricAt s (refOf s l cyc - (zone s (zoneOf l)).lost)
    | _ => cyc
  late || decide (0 < (BitVec.ofNat 32 at' - k.deadline).toInt)

/-- What tells a packet's transfer from others: its source, work tick and first target (R353). -/
def packetKey (k : Packet) : Nat × BitVec 64 × Nat :=
  (k.smod.toNat * 64 + k.sleng.toNat, k.workTick, k.target.toNat - 64 * 24 * k.pidx.toNat)

/-- An earlier packet of the transfer was late: it is over, and its later lines are late as well (R330, R354). [log 126, DEDUCED] -/
def knownLate (k : Packet) (s : State) : Bool := (abf s 0).lates.contains (packetKey k)

/-- MOVE_LATE at the landing module (R354): its Errata record, once for a transfer. The header names no PC, so that field is a
free value. [log 126, DEDUCED] -/
def packetLate (k : Packet) (hub : Nat) (leng : Option Nat) (cyc : Nat) (s : State) : State :=
  let known := knownLate k s
  let s := abfMod 0 (fun x =>
    { x with lates := (if k.last then [] else [packetKey k]) ++ x.lates.filter fun y => decide (y ≠ packetKey k) }) s
  if known then s
  else
    let (f, s) := takeFree s
    errata { hubEr hub 0x0303 2 0x12 with
      leng := leng.getD 0xFF, job := k.job.toNat, wt := k.workTick, detail := [(Config.openWord f).toNat, k.deadline.toNat, cyc] } s

/-- The source a packet's header names, as far as it does (R353): the module and engine, and the selector of its Carrel or bank. -/
def packetOrg (k : Packet) : Nat :=
  k.smod.toNat * 2 ^ 43 + 2 ^ 42 + ((if k.op = 4 then 0x40 else 0) + k.sleng.toNat) * 2 ^ 32

/-- WR (R353): the lines go into the Carrel, the Stacks or the verdict buffer. A late one into a Carrel ends its transfer: the target lines
of its earlier packets are FAILED too (R330, R354). [log 126, DEDUCED] -/
def doWr (k : Packet) (cyc : Nat) (late : Bool) (s : State) : State :=
  let late := late || knownLate k s
  let s := landed k s
  if shelfMod k.target ≠ modNum s then sendPacket (shelfMod k.target) k s
  else
    let ls := packetLines k
    let n := ls.length
    match placeOf (k.target.toNat % 2 ^ 43) with
    | .stacks off =>
      let s := hubCount off 0 n (noteRetry k s)
      let s := whenS late (packetLate k (off / 2 ^ 38) none cyc) s
      foldS ls.zipIdx (fun (x : (Line × Mark) × Nat) =>
        stkLand (some k.job.toNat) (off + 64 * x.2) (x.1.1, if late then x.1.2 ||| mkFailed else x.1.2)) s
    | .carrel l line =>
      if absent s l then dropPacket s
      else
        let s := noteRetry k s
        let e := storeKey s l
        if late then cMarks e (line - 24 * k.pidx.toNat) (24 * k.pidx.toNat + n) mkFailed (packetLate k (hubOfEng l) (some l) cyc s)
        else foldS ls.zipIdx (fun (x : (Line × Mark) × Nat) => landIn e (line + x.2) x.1.1 x.1.2 (cyc + x.2)) s
    | .verdict slot item =>
      if (job s slot).occupied && !(job s slot).bg then
        let s := noteRetry k s
        let s := whenS late (packetLate k 0 none cyc) s
        let l := (job s slot).engs.headD 0
        foldS (ls.zipIdx.take (62 - item)) (fun (x : (Line × Mark) × Nat) s =>
          if late then frameMod slot k.workTick (fun f =>
            { f with items := tabSet (fun _ => ({ line := 0, mark := mkFailed } : VLine)) f.items (item + x.2) { line := 0, mark := mkFailed } }) s
          else landItem slot k.workTick (item + x.2) l 0 (some (packetOrg k)) x.1 s) s
      else dropPacket s
    | _ => dropPacket s

/-- RDREQ (R353): the lines are read and go back as an RDRESP. [log 43, DEDUCED] -/
def doRdreq (k : Packet) (s : State) : State :=
  let s := landed k s
  if shelfMod k.target ≠ modNum s then sendPacket (shelfMod k.target) k s
  else
    let n := k.nlm1.toNat + 1
    let pl := placeOf (k.target.toNat % 2 ^ 43)
    let ls := moveSource s k.job.toNat n pl
    if ls.isEmpty then dropPacket s
    else
      let s := noteRetry k s
      let s := match pl with
        | .stacks off => hubCount off n 0 s
        | _ => s
      sendPacket (shelfMod k.retShelf)
        { k with op := 3, rtry := false, smod := BitVec.ofNat 5 (modNum s), target := k.retShelf, retShelf := 0,
                 poison := BitVec.ofNat 24 ((ls.map fun x => b2n (x.2.getLsbD 5)).zipIdx.foldl (fun a (b, i) => a + b * 2 ^ i) 0),
                 marks := ls.map fun x => x.2 &&& ~~~mkPoison, lines := ls.map (·.1) } s

/-- Lines arrive for a transfer from another module, and land; transposed ones wait for their tile (R331). -/
def landRemote (id cyc : Nat) (v : Line × Mark) (s : State) : State :=
  match s.xfers.find? fun x => decide (x.id = id) with
  | none => s
  | some x =>
    let land (x : Xfer) (v : Line × Mark) (s : State) : State :=
      let t := landCycle (eng s x.eng) cyc
      let s := takePort x.eng t s
      if t ≤ x.due ∨ !x.onTime then landNext x v t s else expire x s
    match x.xp with
    | none => land x v s
    | some f =>
      let buf := x.buf ++ [v]
      if buf.length < 4096 / (fmtD f).perLine then xferMod id (fun y => { y with buf := buf }) s
      else
        foldS (transposeLines (fmtD f) buf) (fun w s =>
          match s.xfers.find? fun y => decide (y.id = id) with
          | some y => land y w s
          | none => s) (xferMod id (fun y => { y with buf := [] }) s)

/-- RDRESP (R353): the lines land where the MOV declared them; late ones end the transfer (R330), and lines of an ended transfer
are discarded. -/
def doRdresp (k : Packet) (cyc : Nat) (late : Bool) (s : State) : State :=
  let s := landed k s
  if shelfMod k.target ≠ modNum s then sendPacket (shelfMod k.target) k s
  else
    match placeOf (k.target.toNat % 2 ^ 43) with
    | .carrel l line =>
      if absent s l then dropPacket s
      else
        let s := noteRetry k s
        let e := storeKey s l
        match s.xfers.find? fun x => x.remote && decide (x.slot = k.job.toNat) && decide (x.eng = e) &&
            decide (x.target + x.landed + x.buf.length = line) with
        | none => s
        | some x =>
          if late || decide (x.due < cyc) then expire x s
          else foldS (packetLines k) (landRemote x.id cyc) s
    | _ => dropPacket s

/-- The quire format of a QADD packet. -/
def packetFmt (k : Packet) : Fmt := if k.qfmt = 9 then .q8 else if k.qfmt = 10 then .q16 else .q32

/-- The values of a QADD packet in order, a q32 special by SPECIAL (Table 13-5). -/
def packetVals (k : Packet) : List ChainV :=
  let f := packetFmt k
  (packetLines k).zipIdx.flatMap fun ((l, m), i) => (List.range f.perLine).map fun j =>
    let sp := if f = .q32 then k.special.getD i 0 else 0
    { fmt := f, mark := m, org := packetOrg k,
      val := if sp = 1 then .acc (.inf false) else if sp = 2 then .acc (.inf true) else if sp = 3 then .acc .nan
        else .quire (decodeQuire f (lineElem f l j)) }

/-- The element index of a CRECV that a shelfmark names: its half and element, or its line. -/
def recvIndex (f : Fmt) (r : Recv) : Place → Option Nat
  | .bank _ off =>
    let el := off % 0x40000 / (64 / f.perLine)
    if !r.tgt && decide (off / 0x40000 = b2n r.half) && decide (64 * r.base ≤ el) then some (el - 64 * r.base) else none
  | .carrel _ line => if r.tgt && decide (r.line ≤ line) then some (line - r.line) else none
  | _ => none

/-- The chain add of a packet at an engine: with no CRECV, or one whose target the shelfmark does not name, SCHED_FAULT 0x07. -/
def qaddAt (k : Packet) (leng : Nat) (pl : Place) (cyc : Nat) (late : Bool) (s : State) : State :=
  let e := storeKey s leng
  let g : Seg := if k.bg then .bg else .rt
  match recvOf s e true k.smod.toNat k.ch.toNat k.workTick with
  | none => schedFault e g 0 0x07 cyc true s
  | some r =>
    let vs := packetVals k
    let f := packetFmt k
    let at' := k.pidx.toNat * (if f = .q32 then 16 else 24) * f.perLine
    if recvIndex f r pl ≠ some at' ∨ r.n < at' + vs.length then schedFault e r.seg 0 0x07 cyc true s
    else
      foldS vs.zipIdx (fun (x : ChainV × Nat) s =>
        match (eng s e).recvs.find? fun y => decide (y.id = r.id) with
        | none => s
        | some y =>
          chainLand leng e y (at' + x.2) x.1 k.terms.toNat (k.last && decide (x.2 + 1 = vs.length))
            (if late then max cyc (y.due + 1) else cyc) s) s

/-- QADD at its target (R78, R193, R353). [log 42, DEDUCED] -/
def doQaddPacket (k : Packet) (cyc : Nat) (late : Bool) (s : State) : State :=
  let s := landed k s
  if shelfMod k.target ≠ modNum s then sendPacket (shelfMod k.target) k s
  else
    let pl := placeOf (k.target.toNat % 2 ^ 43)
    let go (l : Nat) : State := if absent s l then dropPacket s else qaddAt k l pl cyc late (noteRetry k s)
    match pl with
    | .bank l _ => go l
    | .carrel l _ => go l
    | _ => dropPacket s

/-- A fabric port that exists (F0 to F5, Table 13-1); a command of any other does nothing (R388). -/
def isPort (p : BitVec 3) : Bool := decide (p.toNat < 6)

/-- ABFOLD_PORT_ENABLE. -/
def execAbfoldPortEnable (p : BitVec 3) (s : State) : Res := .next (whenS (isPort p) (doAbfEnable p.toNat) s)
/-- ABFOLD_PORT_DISABLE. -/
def execAbfoldPortDisable (p : BitVec 3) (s : State) : Res := .next (whenS (isPort p) (doAbfDisable p.toNat) s)
/-- ABFOLD_RETRAIN. -/
def execAbfoldRetrain (p : BitVec 3) (s : State) : Res := .next (whenS (isPort p) (doAbfRetrain p.toNat) s)
/-- ABFOLD_TRAINING_END. -/
def execAbfoldTrainingEnd (p : BitVec 3) (lanes : BitVec 4) (locked : Bool) (pmod : BitVec 5) (pdim : BitVec 3)
    (pshare : BitVec 20) (latency : BitVec 16) (s : State) : Res :=
  .next (whenS (isPort p)
    (doAbfTrainingEnd p.toNat lanes.toNat locked pmod.toNat pdim.toNat pshare.toNat latency.toNat) s)
/-- ABFOLD_BLOCK. -/
def execAbfoldBlock (p : BitVec 3) (lanes : List (List Byte)) (s : State) : Res :=
  .next (whenS (isPort p) (doAbfBlock p.toNat lanes) s)
/-- ABFOLD_LANE_REPLACE. -/
def execAbfoldLaneReplace (p : BitVec 3) (lane : BitVec 4) (s : State) : Res :=
  .next (whenS (isPort p && decide (lane.toNat < 9)) (doAbfLaneReplace p.toNat lane.toNat) s)
/-- ABFOLD_PORT_DOWN. -/
def execAbfoldPortDown (p : BitVec 3) (s : State) : Res := .next (whenS (isPort p) (doAbfPortDown p.toNat) s)
/-- WR. [log 126, DEDUCED] -/
def execWr (p : Packet) (cycle : Nat) (late : Bool) (s : State) : Res :=
  .next (whenS (!packetHeld p s) (doWr p cycle (arrivesLate p cycle late s)) s)
/-- RDREQ. -/
def execRdreq (p : Packet) (_cycle : Nat) (_late : Bool) (s : State) : Res := .next (doRdreq p s)
/-- RDRESP. [log 126, DEDUCED] -/
def execRdresp (p : Packet) (cycle : Nat) (late : Bool) (s : State) : Res :=
  .next (whenS (!packetHeld p s) (doRdresp p cycle (arrivesLate p cycle late s)) s)
/-- QADD_PACKET. [log 126, DEDUCED] -/
def execQaddPacket (p : Packet) (cycle : Nat) (late : Bool) (s : State) : Res :=
  .next (whenS (!packetHeld p s) (doQaddPacket p cycle (arrivesLate p cycle late s)) s)

end Sys2Proof.Machine
end

