-- ==== Sys2Proof/Machine/VilriLink.lean ====
section
/-! DEFINITION. The Vilri link (spec/14_vilri_control_port.md R363-R373, R380-R386): training, lanes, credits, what the module
sends, and the loss of the link. -/

namespace Sys2Proof.Machine

/-! ### Credits and sending (R372, R373) -/

/-- Flits of an upstream channel that the control node has room for (R373). -/
def linkCredit (s : State) (c : Nat) : Nat :=
  let get (t : Tab Nat) : Nat := tabGet (fun _ => 0) t c
  (fget s pgVilri (0x48 + 4 * c) 0 16 + get s.vil.credIn + 2 ^ 16 - get s.vil.sentF % 2 ^ 16) % 2 ^ 16

/-- Credits of a channel that no message under way will take: with one left another message begins, and its flits leave as credits come
(R372, R373). -/
def credit (s : State) (c : Nat) : Nat :=
  linkCredit s c - ((s.vil.txMsgs.filter fun m => decide (m.ch = c)).map (·.left.length)).foldl (· + ·) 0

/-- A message header flit (Table 14-4): class, completion, status, tag, payload bytes, ADDR, and ARG from byte 16 on. -/
def headerFlit (cls cpl status tag len addr arg : Nat) : Line :=
  BitVec.ofNat 512 (cls + cpl * 2 ^ 4 + status * 2 ^ 8 + tag * 2 ^ 16 + len * 2 ^ 32 + addr * 2 ^ 64 + arg * 2 ^ 128)

/-- ARG of a completion: the discarded writes of a REG_WR and the first (R375), the poisoned lines of a BLK_RD (R377), the tick and
power state of a PING (R378). -/
def cplArg (cls : Nat) (arg : List Nat) : Nat :=
  let a := arg.getD 0 0
  let b := arg.getD 1 0
  if cls = 2 then a + b * 2 ^ 16 else if cls = 5 then a + b * 2 ^ 64 else a

/-- The flits of a message (R374, R375, R377, R378, R380, R381, R383). -/
def msgFlits : Out → List Line
  | .completion cls tag status arg data =>
    headerFlit cls 1 status tag.toNat data.length 0 (cplArg cls arg) ::
      (List.range ((data.length + 63) / 64)).map fun i => lineOfBytes ((data.drop (64 * i)).take 64)
  | .event e =>
    [headerFlit 6 0 0 0 0 e.seq.toNat
      (e.code.toNat + e.page.toNat * 2 ^ 16 + e.bits.toNat * 2 ^ 32 + e.tick.toNat * 2 ^ 64 +
        (if e.code = 1 then 0 else (Config.evtDetail e.code e.detail).toNat) * 2 ^ 128)]
  | .verdict frame slot stream ls =>
    headerFlit 7 0 0 0 (64 * ls.length) 0 (frame.toNat + slot * 2 ^ 64 + stream * 2 ^ 72 + (ls.length - 2) * 2 ^ 80) :: ls
  | .log first recs => headerFlit 8 0 0 0 (64 * recs.length) 0 (first.toNat + recs.length * 2 ^ 32) :: recs
  | _ => []

/-- A message leaves on a channel: its flits take their slots from now on. [log 97, DESIGN CHOICE] -/
def sendOn (c : Nat) (o : Out) (s : State) : State :=
  emit o (vilMod (fun v => { v with txMsgs := v.txMsgs ++ [{ ch := c, msg := o, left := msgFlits o }] }) s)

/-- Completions leave in order while channel 0 has credits. -/
def flushCpl : Nat → State → State
  | 0, s => s
  | n + 1, s =>
    match s.vil.cplQ with
    | [] => s
    | o :: t =>
      if vilriUp s && decide (1 ≤ credit s 0) then flushCpl n (sendOn 0 o (vilMod (fun v => { v with cplQ := t }) s)) else s

/-- A completion (R374): not sent where the link is not UP (R385). -/
def complete (cls : Nat) (tag : BitVec 16) (status : Nat) (arg : List Nat) (data : List Byte) (s : State) : State :=
  if vilriUp s then
    let s := vilMod (fun v => { v with cplQ := v.cplQ ++ [.completion cls tag status arg data] }) s
    flushCpl s.vil.cplQ.length s
  else s

/-! ### Events, verdicts, logs (R380-R385) -/

/-- An EVENT that reports the link's own losses; it leaves with the others. [log 71, DEDUCED] -/
def reportEvent (code : Nat) (detail : List Nat) (s : State) : State :=
  let seq := rget64 s pgVilri 0x88
  let s := rset64 pgVilri 0x88 (seq + 1) s
  { s with evq := s.evq ++ [{ seq := seq, code := BitVec.ofNat 16 code, page := 0xFFFF, bits := 0, tick := s.tick, detail := detail }] }

/-- EVENT (R380): the oldest one waiting leaves. -/
def doEvent (s : State) : State :=
  match s.evq with
  | [] => s
  | e :: t => if vilriUp s && decide (1 ≤ credit s 2) then sendOn 2 (.event e) { s with evq := t } else s

/-- The Colophon (Table 8-4), emitted while the present tick is the last one. -/
def colophon (s : State) (r : VRec) (status : BitVec 8) : Line :=
  let mods := ((List.range 32).filter fun m => decide (fget s (pgAbf 0) (0x110 + 4 * r.slot) m 1 = 1)).length
  let body := leBytes 8 r.frame.toNat ++ leBytes 8 s.tick.toNat ++ (r.digest ++ List.replicate 16 0).take 16 ++ leBytes 4 r.seedId.toNat ++
    leBytes 1 (r.stream % 4 + 4 * r.slot + 16 * b2n r.cold + 32 * b2n r.gencompat + 64 * b2n r.resumed + 128 * b2n r.trig) ++
    [status] ++ leBytes 1 r.lines.length ++ [r.tevt] ++ leBytes 2 r.colchk ++ leBytes 2 r.rowchk ++ leBytes 1 r.ratio.toNat ++
    leBytes 1 (min r.mismatch 255) ++ leBytes 1 r.active.toNat ++ leBytes 1 (max 1 mods) ++ (spareDigest s).take 8 ++
    leBytes 2 r.zsteps.toNat ++ leBytes 2 0
  lineOfBytes (body ++ leBytes 4 (crc32 body).toNat)

/-- The lines of a verdict record (R214). -/
def recordLines (s : State) (r : VRec) : List Line :=
  let st := r.lines.map fun v => statusByte (v.mark ||| r.marks)
  colophon s r (st.foldl (fun a b => a ||| b) 0) :: lineOfBytes (st ++ List.replicate (64 - st.length) 0) :: r.lines.map (·.line)

/-- The time, in 10 ps, by which a record has to leave: 8 µs after the tick it was ready at; none for one that overran or that a wake
triggered (R30). [log 71, DEDUCED] -/
def leaveBy (s : State) (r : VRec) : Option (Nat × Nat × BitVec 64) :=
  if r.trig ∨ r.marks &&& mkOverrun ≠ 0 then none
  else some (1000 * (s.refTick - (s.tick - r.tickNo).toNat * period s) + 800000, r.slot, r.frame)

/-- VERDICT (R381): the oldest record leaves; whether its last flit is late shows when the control node has it (R382). [log 71, DEDUCED] -/
def doVerdict (s : State) : State :=
  if !vilriUp s then loseVerdicts s
  else
    match s.ready with
    | [] => s
    | r :: t =>
      let o : Out := .verdict r.frame r.slot r.stream (recordLines s r)
      if credit s 1 = 0 then s
      else
        emit o (vilMod (fun v => { v with txMsgs := v.txMsgs ++ [{ ch := 1, msg := o, left := msgFlits o, until' := leaveBy s r }] })
          { s with ready := t })

/-- The verdict records whose last flit an acknowledged block carried, by its last transmission (R382): a late one is counted and
reported, with the ns beyond its bound. [log 71, DEDUCED] -/
def verdictEnds (b : SentBlock) (s : State) : State :=
  foldS b.ends (fun x s =>
    let left := b.sentAt + (x.1 + 1) * 2048 / 17
    if left ≤ x.2.1 then s
    else sendEvent 0x0013 [x.2.2.1, x.2.2.2.toNat, (left - x.2.1 + 99) / 100] (finc pgVilri 0x74 0 32 1 s)) s

/-- A record by number: from H0's buffer, else from the ring while it is held there (R253). -/
def errRecord (s : State) (n : Nat) : Option Line :=
  match s.errs.find? fun r => decide (r.seq.toNat = n) with
  | some r => some (errLine r)
  | none =>
    let base := (rget64 s pgErr 0x40).toNat
    let held := min s.pwr.ringed 65536
    (((List.range held).map fun i => (stkRead s (base + 64 * i)).1).find? fun l => decide (l.toNat / 2 ^ 64 % 2 ^ 32 = n))

/-- The oldest record from number `n` on that is still held. -/
def oldestHeld (s : State) : Nat → Nat → Nat
  | 0, n => n
  | k + 1, n => if (errRecord s n).isSome then n else oldestHeld s k (n + 1)

/-- Records that are no longer held are skipped and reported (R385). -/
def logGap (s : State) : State :=
  let n := fget s pgVilri 0x80 0 32
  let top := fget s pgErr 0x4C 0 32
  let o := oldestHeld s (top - n) n
  if n < o then reportEvent 0x0012 [n, o - 1] (fset pgVilri 0x80 0 32 o s) else s

/-- Consecutive records that are held, from `n` on, at most `k`. -/
def heldRun (s : State) : Nat → Nat → List Line
  | 0, _ => []
  | k + 1, n => match errRecord s n with
    | some l => l :: heldRun s k (n + 1)
    | none => []

/-- LOG (R383): up to 64 records leave in order, without gaps. [log 71, DEDUCED] -/
def doLog (s : State) : State :=
  if !vilriUp s then s
  else
    let s := logGap s
    let n := fget s pgVilri 0x80 0 32
    let ls := heldRun s (min 64 (fget s pgErr 0x4C 0 32 - n)) n
    if ls.isEmpty || decide (credit s 3 = 0) then s
    else sendOn 3 (.log (BitVec.ofNat 32 n) ls) (fset pgVilri 0x80 0 32 (n + ls.length) s)

/-- The four logical lanes of a block's 17 flits, each with the parity of its two codewords (R365, R366). -/
def vilLanes (fs : List Line) : List (List Byte) :=
  let bs := fs.map bytesOfLine
  (List.range 4).map fun i =>
    let d := (bs.flatMap fun f => (List.range 16).map fun k => (f.getD (4 * k + i) 0).toNat).take 264
    let par (o : Nat) : List Nat := rsParity 4 ((List.range 132).map fun k => d.getD (2 * k + o) 0)
    let (a, b) := (par 0, par 1)
    (d ++ (List.range 8).map fun k => (if k % 2 = 0 then a else b).getD (k / 2) 0).map (BitVec.ofNat 8)

/-- An INIT block (R370): every message byte names its physical lane and its slot, and the CRED fields the module's receive buffers
(Table 14-3). One stands for all of a training. Its BSEQ is not given. [log 127, DESIGN CHOICE] -/
def initBlock (s : State) : List (List Byte) :=
  let phys (i : Nat) : Nat := ((List.range 5).filter fun l => decide (l ≠ fget s pgVilri 0x44 2 3)).getD i 4
  let fs := (List.range 16).map fun k => lineOfBytes ((List.range 64).map fun j => BitVec.ofNat 8 (phys (j % 4) + 16 * k))
  let c := s.vil.txSeq.toNat + s.vil.rxSeq.toNat * 2 ^ 32 + 2 ^ 66 + fget s pgVilri 0x44 5 3 * 2 ^ 72 + 256 * 2 ^ 96 + 1040 * 2 ^ 112 +
    (2 ^ 64 - 1) * 2 ^ 160
  vilLanes (fs ++ [BitVec.ofNat 512 (c + (crc32 (fs.flatMap bytesOfLine ++ leBytes 28 c)).toNat * 2 ^ 224)])

/-! ### Training and loss of the link (R369-R371, R385) -/

/-- Training starts. -/
def vilriTrain (s : State) : State := fset pgVilri 0x0C 2 1 0 <| fset pgVilri 0x44 0 2 1 (fset pgVilri 0x44 12 4 0 s)

/-- A message not completely sent when the link goes down (R385): an EVENT waits again, a verdict record is lost, and the LOG resumes at
its first record. -/
def unsend (m : TxMsg) (s : State) : State :=
  match m.msg with
  | .event e => { s with evq := s.evq ++ [e] }
  | .verdict frame slot _ _ => loseVerdict slot frame s
  | .log first _ => fset pgVilri 0x80 0 32 (min first.toNat (fget s pgVilri 0x80 0 32)) s
  | _ => s

/-- What was under way is taken back; EVENTs keep their order. -/
def unsendAll (s : State) : State :=
  let later := s.evq
  let s := foldS s.vil.txMsgs unsend { s with evq := [] }
  { s with evq := s.evq ++ later }

/-- VILRI_LINK_DOWN (R385, R389). The requests received completely are owed: they are still executed. A verdict record whose flits have all
left is judged by their last transmission (R382). -/
def doVilriLinkDown (s : State) : State :=
  if !vilriUp s then s
  else
    let s := foldS s.vil.kept verdictEnds s
    let s := fset pgVilri 0x0C 2 1 1 (finc pgVilri 0x5C 0 16 1 (fset pgVilri 0x44 0 2 0 (unsendAll s)))
    let s := vilMod (fun v =>
      { replays := v.replays, blocks := v.blocks, badTx := v.badTx, badRx := v.badRx, vrdLost := v.vrdLost, evtLostFrom := v.evtLostFrom,
        evtLostN := v.evtLostN, evtLostTo := v.evtLostTo, since := v.since, owed := v.owed ++ v.waiting }) s
    let s := loseVerdicts s
    alertCause 9 (errata { hubEr 0 0x0601 2 0x15 with detail := [0, 0xFF, fget s pgVilri 0x5C 0 16] } s)

/-- VILRI_RETRAIN (R370, R399): a link that was UP goes down first. -/
def doVilriRetrain (s : State) : State := if s.pwr.off || !enabled s pgVilri then s else vilriTrain (doVilriLinkDown s)

/-- VILRI_TRAINING_RESTART (R370): 100 ms after a refusal or a loss. -/
def doVilriTrainingRestart (s : State) : State :=
  let st := fget s pgVilri 0x44 0 2
  if !s.pwr.off && (decide (st = 0) || decide (st = 3)) then vilriTrain s else s

/-- What a new link reports (R385): verdicts lost by job, events lost, records gone. The EVENTs that wait leave before anything else. [log 71, DEDUCED] -/
def linkReports (s : State) : State :=
  let s := foldS s.vil.vrdLost (fun x => reportEvent 0x0010 [x.1, x.2.1.toNat, x.2.2.toNat]) s
  let s := match s.vil.evtLostFrom with
    | some _ => reportEvent 0x0011 [s.vil.evtLostN, s.vil.evtLostTo.toNat] s
    | none => s
  let s := logGap (vilMod (fun v => { v with vrdLost := [], evtLostFrom := none, evtLostN := 0 }) s)
  vilMod (fun v => { v with firstEvs := s.evq.length }) s

/-- A capacity record of the Vilri lanes. -/
def vilriCapacity (s : State) : State := capacity 8 4 (hubDieEr 0 0x0402 4 0x15) s

/-- The spare takes the lane of a direction (R369). -/
def vilBind (tx : Bool) (lane : Nat) (s : State) : State :=
  let s := if tx then s else vilMod (fun v => { v with swLane := none, laneFails := [] }) s
  let s := fset pgVilri 0x44 8 1 1 (fset pgVilri 0x44 (if tx then 2 else 5) 3 lane s)
  vilriCapacity (substitution (hubDieEr 0 0x0401 1 0x15) 8 lane lane 4 s)

/-- VILRI_LINK_UP (R370): UP, or refused with the first failing code. No advertisement has come in where no INIT block has: the 50 ms have
passed. With four lanes locked the fifth, whose number the command does not say, is left out. [log 127, DESIGN CHOICE] -/
def doVilriLinkUp (lanes skew rtt : Nat) (adv : List (BitVec 16)) (s : State) : State :=
  if s.pwr.off || decide (fget s pgVilri 0x44 0 2 ≠ 1) then s
  else
    let low := (List.range 4).any fun c => decide ((adv.getD c 0).toNat < [130, 520, 64, 130].getD c 0)
    let code := if lanes < 4 ∨ adv.length < 4 then 1 else if 32 < skew then 2 else if low then 3 else 0
    let s := if code = 1 then s else emit (.vilriBlock (initBlock s)) s
    if code ≠ 0 then fset pgVilri 0x0C 2 1 1 <| fset pgVilri 0x44 0 2 3 (fset pgVilri 0x44 12 4 code s)
    else
      let s := loseVerdicts s
      let s := if lanes = 4 ∧ fget s pgVilri 0x44 5 3 = 4 then
          let (f, s) := takeFree s
          let l := (Config.openWord f).toNat % 5
          if l = 4 then vilMod (fun v => { v with badRx := true }) s else vilBind false l s
        else s
      let s := foldS (List.range 4) (fun c => fset pgVilri (0x48 + 4 * c) 0 16 (adv.getD c 0).toNat) s
      let s := fset pgVilri 0x90 0 16 rtt (fset pgVilri 0x44 0 2 2 (fset pgVilri 0x44 12 4 0 s))
      linkReports (vilMod (fun v =>
        { replays := v.replays, blocks := v.blocks, badTx := v.badTx, badRx := v.badRx, vrdLost := v.vrdLost, evtLostFrom := v.evtLostFrom,
          evtLostN := v.evtLostN, evtLostTo := v.evtLostTo, since := v.since, owed := v.owed }) s)

/-- VILRI_LANE_REPLACE (R369): a received lane is announced, to be left out 64 blocks ahead; of the transmission the spare takes the lane.
A second failed lane of a direction takes the link down. -/
def doVilriLaneReplace (tx : Bool) (lane : Nat) (s : State) : State :=
  let now := match tx, s.vil.swLane with
    | false, some (l, _) => l
    | _, _ => fget s pgVilri 0x44 (if tx then 2 else 5) 3
  let bad := if tx then s.vil.badTx else s.vil.badRx
  if !vilriUp s || decide (now ≠ 4 ∧ lane = now) then s
  else if now ≠ 4 ∨ (bad = true ∧ lane ≠ 4) then vilriCapacity (doVilriLinkDown s)
  else if lane = 4 then vilMod (fun v => if tx then { v with badTx := true } else { v with badRx := true }) s
  else if tx then vilBind true lane s
  else vilMod (fun v => { v with swLane := some (lane, (v.rxSeq.toNat + 64) % 2 ^ 16) }) s

/-! ### Blocks sent (R365-R369, R372) -/

/-- The next flit of a channel's first message, and, where it is the message's last, the time by which R30 has it leave. -/
def popFlit (c : Nat) : List TxMsg → Option ((Line × Option (Nat × Nat × BitVec 64)) × List TxMsg)
  | [] => none
  | m :: t =>
    if m.ch = c then
      match m.left with
      | [] => none
      | [l] => some ((l, m.until'), t)
      | l :: ls => some ((l, none), { m with left := ls } :: t)
    else (popFlit c t).map fun r => (r.1, m :: r.2)

/-- The message slots of a block: each takes a flit of the highest-priority channel that has one and a credit for it (R372); `first` EVENT
flits leave before anything else (R385). -/
def fillSlots : Nat → (cr : Nat → Nat) → (first : Nat) → List TxMsg → List (Nat × Line × Option (Nat × Nat × BitVec 64)) × List TxMsg
  | 0, _, _, ms => ([], ms)
  | n + 1, cr, first, ms =>
    match (if first = 0 then [1, 2, 0, 3] else [2]).findSome? fun c =>
        if 0 < cr c then (popFlit c ms).map fun r => (c, r) else none with
    | some (c, l, ms) => let r := fillSlots n (fun d => if d = c then cr d - 1 else cr d) (first - b2n (decide (c = 2))) ms
                         ((c, l) :: r.1, r.2)
    | none => (List.replicate (n + 1) (15, 0, none), ms)

/-- The control flit of a block (Table 14-2) without its parity: `kinds` is SLOTMAP. -/
def controlFlit (seq : BitVec 32) (again : Bool) (kinds : Nat) (fs : List Line) (s : State) : Line :=
  let v := s.vil
  let ex := match v.swLane with
    | some (l, b) => (l, b)
    | none => (fget s pgVilri 0x44 5 3, 0)
  let c := seq.toNat + v.rxSeq.toNat * 2 ^ 32 + b2n v.nakDue * 2 ^ 64 + b2n again * 2 ^ 65 + ex.1 * 2 ^ 72 + ex.2 * 2 ^ 80 +
    packed 96 16 ((List.range 4).map fun i => tabGet (fun _ => 0) v.freed i % 2 ^ 16) + kinds * 2 ^ 160
  BitVec.ofNat 512 (c + (crc32 (fs.flatMap bytesOfLine ++ leBytes 28 c)).toNat * 2 ^ 224)

/-- An excluded lane takes effect at the block whose number the control node named (R369). -/
def vilExclude (seq : BitVec 32) (s : State) : State :=
  match s.vil.exclAt with
  | some (l, n) =>
    if BitVec.setWidth 16 seq = n then doVilriLaneReplace true l (vilMod (fun v => { v with exclAt := none }) s) else s
  | none => s

/-- Flits of each channel in a block. -/
def countFlits (kinds : List Nat) (sent : Tab Nat) : Tab Nat := kinds.foldl (fun t c => if c < 4 then tabMod (fun _ => 0) t c (· + 1) else t) sent

/-- The module sends its next block: the next to be resent where a resend is due, counted, else a new one, whose message slots stay empty
while 256 blocks are unacknowledged. Those empty blocks are not kept: their resend is empty again. [log 97, DESIGN CHOICE] -/
def vilSend (s : State) : State :=
  let v := s.vil
  let now := 1000 * s.refTick + 2048 * v.since
  let old : Option SentBlock := match v.rpl with
    | some q => if v.rplWait ≠ 0 then none else match v.kept.find? fun b => decide (b.seq = q) with
        | some b => some { b with sentAt := now }
        | none => some { seq := q, sentAt := now, kinds := 2 ^ 64 - 1, units := List.replicate 16 0 }
    | none => none
  let full := decide (256 ≤ v.kept.length)
  let r := if full then (List.replicate 16 (15, 0, none), v.txMsgs) else fillSlots 16 (linkCredit s) v.firstEvs v.txMsgs
  let b : SentBlock := match old with
    | some b => b
    | none => { seq := v.txSeq + 1, sentAt := now, kinds := packed 0 4 (r.1.map (·.1)), units := r.1.map (·.2.1),
                ends := r.1.zipIdx.filterMap fun x => x.1.2.2.map fun e => (x.2, e) }
  let s := vilExclude b.seq s
  if !vilriUp s then s
  else
    let c := controlFlit b.seq old.isSome b.kinds b.units s
    let s := vilMod (fun v =>
      if old.isSome then
        { v with nakDue := false, since := v.since + 1, rpl := if b.seq = v.txSeq then none else some (b.seq + 1),
                 kept := v.kept.map fun y => if y.seq = b.seq then b else y }
      else
        { v with nakDue := false, since := v.since + 1, rplWait := v.rplWait - 1, txSeq := b.seq, txMsgs := r.2,
                 kept := if full then v.kept else v.kept ++ [b], sentF := countFlits (r.1.map (·.1)) v.sentF,
                 firstEvs := v.firstEvs - ((r.1.filter fun x => decide (x.1 = 2)).length) }) s
    emit (.vilriBlock (vilLanes (b.units ++ [c]))) (whenS old.isSome (finc pgVilri 0x58 0 16 1) s)

/-- EVENT. -/
def execEvent (s : State) : Res := .next (doEvent s)
/-- VERDICT. -/
def execVerdict (s : State) : Res := .next (doVerdict s)
/-- LOG. -/
def execLog (s : State) : Res := .next (doLog s)

end Sys2Proof.Machine
end

