-- ==== Sys2Proof/Machine/Power.lean ====
section
/-! DEFINITION. Power states (spec/16_startup_and_identity.md R413-R422, R433, spec/10_curator_and_night_desk.md R272-R277, R283,
spec/17_module_physical.md R437-R444, R452): boot, resets, Standby and wake, Off, and the pins' events. -/

namespace Sys2Proof.Machine

/-! ### Micro-programs at installation (R159, R162) -/

/-- Sources that a step code uses: A, B, C; none for a code that is reserved (Table 6-10). -/
def stepSources (op : Nat) : Option (List Nat) :=
  if op = 1 ∨ op = 9 ∨ op = 10 ∨ op = 12 ∨ op = 13 ∨ (16 ≤ op ∧ op ≤ 21) then some [52]
  else if op = 2 then some []
  else if (3 ≤ op ∧ op ≤ 5) ∨ op = 7 ∨ op = 8 then some [52, 49]
  else if op = 6 ∨ op = 11 then some [52, 49, 46]
  else none

/-- Every source is an argument or was written by an earlier step; `seen` are the registers that hold a value. -/
def sourcesOk : List Nat → List (BitVec 64) → Bool
  | _, [] => true
  | seen, w :: ws =>
    (match stepSources (bitsOf w.toNat 58 6) with
      | some l => l.all fun lo => seen.contains (bitsOf w.toNat lo 3)
      | none => false) && sourcesOk (bitsOf w.toNat 55 3 :: seen) ws

/-- A p16 word as a signed number: posit order (R37). -/
def positOrd (w : BitVec 16) : Int := w.toInt

/-- The outputs of a program over an interval never step against the claimed direction, at `out` bits. -/
def monoOk (p : Prog) (out : Fmt) (down : Bool) (lo hi : Int) : Bool :=
  let val (i : Int) : Int :=
    let v := (runProg p false (decodeWordOf .p16 (BitVec.ofInt 16 i).toNat).1 .zero).1
    let w := (roundTo out v).1
    if out = .p8 then (BitVec.ofNat 8 w).toInt else (BitVec.ofNat 16 w).toInt
  (List.range (hi - lo).toNat).all fun k =>
    let a := val (lo + k)
    let b := val (lo + k + 1)
    if down then decide (b ≤ a) else decide (a ≤ b)

/-- The first check of R162 that a program fails; 0 for none. -/
def progCheck (bs : List Byte) : Nat :=
  let at' (i : Nat) : Nat := (bs.getD i 0).toNat
  let n := at' 1 % 128
  let p := progOfBytes bs
  let mono := at' 2 / 64
  let lo := positOrd (BitVec.ofNat 16 (leAt bs 4 2))
  let hi := positOrd (BitVec.ofNat 16 (leAt bs 6 2))
  let lo' := max lo (-32767)
  let reserved := decide (at' 0 < 32) && decide (at' 1 < 128) && decide (at' 2 / 4 % 4 = 0) && decide (at' 2 / 32 % 2 = 0) &&
    decide (at' 3 < 2) && decide (mono ≠ 3) && ((bs.drop 16).take 16).all (fun b => decide (b = 0)) &&
    p.steps.all fun w => decide (bitsOf w.toNat 32 14 = 0)
  if n = 0 ∨ 64 < n ∨ bs.length ≠ 32 + 8 * n ∨ p.steps.any (fun w => (stepSources (bitsOf w.toNat 58 6)).isNone) then 1
  else if !sourcesOk (if p.nin = 2 then [0, 1] else [0]) p.steps then 2
  else if bitsOf ((p.steps.getLast?.map (·.toNat)).getD 0) 55 3 ≠ 0 then 3
  else if reserved = false ∨ p.nin = 0 ∨ p.nin = 3 then 4
  else if p.nin = 2 ∧ mono ≠ 0 then 5
  else if mono ≠ 0 ∧ (monoOk p .p16 (decide (mono = 2)) lo' hi && monoOk p .p8 (decide (mono = 2)) lo' hi) = false then 6
  else 0

/-- BOOTST.CODE. -/
def bootCode (c : Nat) (s : State) : State := fset pgSec 0xBC 8 8 c s

/-- A program is checked and installed on every engine; one that fails leaves its slot empty (R159, boot condition 0x0A). -/
def installProg (bs : List Byte) (s : State) : State :=
  let pid := (bs.getD 0 0).toNat % 32
  let key := pid + 32 * ((bs.getD 3 0).toNat % 2)
  let c := progCheck bs
  let put (v : List Byte) : State → State := secMod fun x => { x with programs := x.programs.filter (fun p => decide (p.1 ≠ key)) ++ [(key, v)] }
  if c = 0 then
    put bs (secMod (fun x => { x with digests := if x.digests.contains (sha512 bs) then x.digests else x.digests ++ [sha512 bs] }) s)
  else bootCode 10 (errata { ty := 0x0702, sev := 0, level := 0, block := 1, detail := [pid, c] } (put [] s))

/-! ### What the resets keep (R401, R415, R420, Table 16-5) -/

/-- The security block after a reset: the boot store and the fuses, with fuses blown since in effect (R428); a slot whose write was
under way is empty (R415). [log 73, DEDUCED] -/
def secKept (x : SecSt) : SecSt :=
  { store := (match x.writing with
      | some (slot, _) => tabSet (fun _ => []) x.store slot (if slot = 0 then [0] else [])
      | none => x.store),
    ownerKey := if x.ownerNext.isEmpty then x.ownerKey else x.ownerNext,
    ownerEn := x.ownerEn || !x.ownerNext.isEmpty,
    fuseNow := (match x.fuseNext with
      | some (c, j) => (x.fuseNow.1 || c, x.fuseNow.2 || j)
      | none => x.fuseNow),
    secver := x.secver, savedSets := x.savedSets, digests := x.digests }

/-- The module with everything lost that a cold reset loses. -/
def coldClear (s : State) : State :=
  { State.reset with
    pending := s.pending, sent := s.sent, env := s.env, free := s.free, sec := { secKept s.sec with digests := [], savedSets := [] },
    pwr := { pwrEn := s.pwr.pwrEn, inputOk := s.pwr.inputOk, dead := s.pwr.dead, refclk := s.pwr.refclk } }

/-- A register that a warm reset keeps (R401), and the state of the Vilri link, which stays UP (R420). [log 71, DEDUCED; 73, DEDUCED] -/
def warmKeeps (i : Nat) : Bool :=
  let p := i / 1024
  let off := 4 * (i % 1024)
  if p = pgErr then decide (off = 0x4C)
  else if p = pgErr + 1 ∨ p = pgErr + 2 then true
  else if p = pgTick then decide (off = 0x70) || decide (off = 0x74)
  else if p = pgVilri then [0x44, 0x48, 0x4C, 0x50, 0x54, 0x80, 0x88, 0x8C, 0x90].contains off
  else if p = pgSpares then true
  else match pageOf p with
    | some (.engmap, _, _) => true
    | some (.hub, _, _) => decide (off = 0x68) || decide (off = 0x6C)
    | some (.mc, _, _) => decide (off = 0x40)
    | some (.array, _, _) => decide (0x50 ≤ off) && decide (off ≤ 0x6C)
    | some (.sfu, _, _) => decide (off = 0x40)
    | some (.abf, _, _) => decide (off = 0x44)
    | _ => false

/-- The registers after a warm reset: of LSTAT of an Abfold port the failed-lane mark only. [log 73, DEDUCED] -/
def warmRegs (s : State) : Tab Word :=
  let kept := s.regs.filter fun r => warmKeeps r.1
  let t : State := { State.reset with regs := kept }
  (foldS (List.range 6) (fun f t => fset (pgAbf f) 0x44 3 4 (fget s (pgAbf f) 0x44 3 4) (rset (pgAbf f) 0x44 0x778 t)) t).regs

/-- The first data frame of an RT job without a verdict record. -/
def firstUnsent (s : State) (b : Job) : BitVec 64 :=
  match b.frames with
  | f :: _ => f.frame
  | [] => b.firstLost.getD s.tick

/-- The module with everything lost that a warm reset loses (R419, R420, Table 16-5). [log 73, DEDUCED] -/
def warmClear (s : State) : State :=
  let lost := (List.range 4).filterMap fun j => let b := job s j
    if b.occupied && !b.bg && !b.loadWait then some (b.stream, firstUnsent s b) else none
  { State.reset with
    pending := s.pending, sent := s.sent, env := s.env, free := s.free, regs := warmRegs s, tick := s.tick, refTick := s.refTick,
    ftimeAt := s.ftimeAt, dram := s.dram, smark := s.smark, store := s.store,
    engs := s.engs.filterMap fun e =>
      let k : Eng := { sfuBad := e.2.sfuBad, arr := { heldOut := e.2.arr.heldOut } }
      if k = {} then none else some (e.1, k),
    abfs := s.abfs.filterMap fun a => if a.2.spareBad then some (a.1, { spareBad := true }) else none
    hubs := s.hubs, ready := s.ready, vil := s.vil, errs := s.errs, evq := s.evq,
    sec := { secKept s.sec with trainedFull := s.sec.trainedFull, train := s.sec.train, gone := s.sec.folios ++ s.sec.gone },
    nd := { cool := s.nd.cool, coolOn := s.nd.coolOn },
    pwr := { pwrEn := s.pwr.pwrEn, inputOk := s.pwr.inputOk, dead := s.pwr.dead, refclk := s.pwr.refclk, stacksUp := s.pwr.stacksUp,
             ringed := s.pwr.ringed, tap := s.pwr.tap, wstat := s.pwr.wstat, tickAligned := s.pwr.tickAligned, seen := s.pwr.seen,
             lostStreams := s.pwr.lostStreams ++ lost } }

/-! ### Boot (R416-R420, Tables 16-2, 16-4, 16-11) -/

/-- A boot condition that ends in Fault-hold. -/
def bootFail (code cause : Nat) (s : State) : State := faultHold cause (bootCode code s)

/-- The certificate of R430 verifies: its fields are this module's by its layout, and the root key signed them. -/
def certOk : Bool := edVerify Config.rootKey (certificate.take 128) ((certificate.drop 128).take 64)

/-- The identity shown on the security page (R429, R430). -/
def showIdentity (s : State) : State :=
  let k := edPublic identityKey
  fset pgSec 0x40 16 1 (b2n certOk) (foldS (List.range 8) (fun i => rset pgSec (0x64 + 4 * i) (BitVec.ofNat 32 (leAt k (4 * i) 4))) s)

/-- Stage A: REFCLK, fuses, identity; the coolant watch runs from here on. A flow too low for stage A is the watch's third condition, which
16 good samples end (R284, R422). [log 72, DEDUCED] -/
def bootA (e : BootEnv) (s : State) : State :=
  let s := pwrMod (fun p => { p with refclk := e.refclk }) s
  if !e.refclk then bootFail 1 5 s
  else if !e.fuses then bootFail 2 5 s
  else
    let s := showIdentity s
    if e.flow.toNat < 50 ∨ s.nd.coolOn.getD 2 false = true then
      bootFail 6 3 { s with nd := { s.nd with coolOn := s.nd.coolOn.set 2 true, cool := s.nd.cool.set 2 0 } }
    else s

/-- A firmware slot holds a base folio that verifies. -/
def baseOk (s : State) (i : Nat) : Bool :=
  storeOk s i && ((decide (i = 0) && factoryFw s) || (decide ((fHead (storeGet s i)).kind = 1) && !isSupplement (storeGet s i)))

/-- FVER of a firmware slot. -/
def fwVer (s : State) (i : Nat) : Nat := if i = 0 ∧ factoryFw s = true then Config.factoryFver else (fHead (storeGet s i)).fver

/-- A firmware slot holds anything. -/
def fwThere (s : State) (i : Nat) : Bool :=
  (decide (i = 0) && factoryFw s) || decide (4 ≤ (storeGet s i).length)

/-- Stage B: the base folio of higher FVER, else the other one (condition 0x0C); neither is condition 0x03. A folio with BUMP will
raise the fuse counter. -/
def bootB (s : State) : State :=
  let s := showStore s
  let first := if fwThere s 0 && fwThere s 1 then (if fwVer s 0 < fwVer s 1 then 1 else 0) else if fwThere s 1 then 1 else 0
  let pick (i : Nat) (s : State) : State :=
    let h := fHead (storeGet s i)
    let bump := if (decide (i = 0) && factoryFw s) || !h.bump then 0 else h.secver
    let sup := fHead (storeGet s 2)
    let bump := if storeOk s 2 && sup.bump then max bump sup.secver else bump
    secMod (fun x => { x with bumpTo := bump }) (fset pgSec 0xBC 20 1 i s)
  if baseOk s first then pick first s
  else if baseOk s (1 - first) then bootCode 12 (fset pgSec 0xBC 21 1 1 (pick (1 - first) s))
  else bootFail 3 5 s

/-- Stage C: hub bring-up (condition 0x04). -/
def bootC (e : BootEnv) (s : State) : State :=
  if s.pwr.dead then bootFail 4 2 s
  else match (List.range 4).find? fun h => decide (bitsOf e.hubs.toNat h 1 = 0) with
    | some h => hubFault h (bootCode 4 s)
    | none => s

/-- Stage D: packages that fail training are retired (condition 0x07; a second one of a hub is 0x04), and a hub uses stored training
only where the training folio verifies, names this module and records the package map in force (R417); the operand says what the temperatures and
the channels' read-back leave. [log 15, DESIGN CHOICE; 72, DEDUCED] -/
def bootD (e : BootEnv) (s : State) : State :=
  let usable := storeOk s 3 && decide ((fHead (storeGet s 3)).kind = 3) && decide ((fHead (storeGet s 3)).serial = Config.serial.toNat)
  let s := whenS (!usable) (bootCode 11) s
  let f := storeGet s 3
  let mapOk (h : Nat) : Bool := ((fSects f).find? fun x => decide (x.ty = 7) && decide (x.arg = h)).any fun x =>
    decide ((Config.trainMap (x.bytes f)).toNat = fget s (pgHub h) 0x68 0 8)
  let stored := (List.range 4).foldl (fun a h => if usable && e.storedOk.getLsbD h && mapOk h then a + 2 ^ h else a) 0
  let s := secMod (fun x => { x with trainedFull := BitVec.ofNat 4 (15 - stored), train := if stored = 0 then [] else f }) (fset pgSec 0xBC 16 4 stored s)
  foldS (e.badPackages.filter fun p => decide (p.2.toNat < 26)) (fun p s =>
    if pstate s ≠ 1 then s
    else
      let s := retirePackage p.1.toNat p.2.toNat true s
      bootCode (if pstate s = 1 then 7 else 4) s) s

/-- The Stacks are there: the Errata ring opens and takes the waiting records. -/
def bootStacks (zero : Bool) (s : State) : State :=
  let s := if zero then { s with dram := [], smark := [] } else s
  ringFlush (pwrMod (fun p => { p with stacksUp := true }) (foldS (List.range 4) packHub s))

/-- Zones, compute dies and engines (conditions 0x05, 0x08, 0x09). -/
def bootF (e : BootEnv) (s : State) : State :=
  match (List.range 4).find? fun z => decide (bitsOf e.zones.toNat z 1 = 0) with
  | some z => bootFail 5 1 (fset (pgZone z) 0x0C 2 1 1 s)
  | none =>
    let s := foldS ((List.range 16).filter fun c => decide (bitsOf e.dies.toNat c 1 = 0)) (fun c s => fset (pgDie c 0) 0x0C 3 1 1 (bootCode 8 (doDieFault c s))) s
    let s := foldS (e.badEngines.filter fun x => decide (x.2.toNat < 5)) (fun x s =>
      if dieUp s x.1.toNat then bootCode 9 (engineFaultAt (5 * x.1.toNat + x.2.toNat) s) else s) s
    countEngines (containAll s)

/-- The micro-programs of a firmware folio. -/
def folioProgs (bs : List Byte) : List (List Byte) := ((fSects bs).filter fun x => decide (x.ty = 5)).map (·.bytes bs)

/-- Parts of the base firmware in force, then of the supplement (R424). -/
def folioParts {α : Type} (s : State) (b : Nat) (f : List Byte → List α) : List α :=
  (if b = 0 ∧ factoryFw s = true then [] else f (storeGet s b)) ++
    (if storeOk s 2 && isSupplement (storeGet s 2) then f (storeGet s 2) else [])

/-- Tables, micro-programs of the base and the supplement, and the boot store's test folios, which keep their counts (R424, R428). -/
def bootG (s : State) : State :=
  let b := fget s pgSec 0xBC 20 1
  let s := secMod (fun x => { x with supp := if storeOk s 2 && isSupplement (storeGet s 2) then storeGet s 2 else [] }) s
  let s := foldS (folioParts s b folioProgs) installProg s
  let wins (bs : List Byte) : List (Nat × List Byte) :=
    ((fSects bs).filter fun x => decide (x.ty = 4) && decide (4 ≤ x.arg) && decide (x.arg < 8)).map fun x => (x.arg, x.bytes bs)
  let s := foldS (folioParts s b wins) (fun w => secMod fun x => { x with windows := tabSet (fun _ => []) x.windows w.1 w.2 }) s
  foldS ([4, 5, 6, 7].filter fun i => storeOk s i && decide ((fHead (storeGet s i)).kind = 2))
    (fun i s => installTest false (storeGet s i) s) s

/-- Boot stages in order, each with the number BOOTST.STAGE shows; a stage that ends in Fault-hold ends the boot. [log 72, DEDUCED] -/
def bootStages (l : List (Nat × (State → State))) (s : State) : State :=
  foldS l (fun x s => if pstate s = 1 then x.2 (fset pgSec 0xBC 0 4 x.1 s) else s) s

/-- The end of a boot: Ready at the next tick. -/
def bootEnd (e : BootEnv) (s : State) : State :=
  if pstate s = 1 then pwrMod (fun p => { p with bootDone := true }) (fset pgSec 0xC0 0 16 e.bootMs.toNat s) else s

/-- Cold-boot stages from B on. -/
def coldFromB (e : BootEnv) (s : State) : State :=
  bootEnd e (bootStages [(2, bootB), (3, bootC e), (4, bootD e), (5, bootStacks true), (6, bootF e), (7, bootG), (8, id)] s)

/-- A cold boot (R416): Vilri training starts in stage A, and RESET_N low holds the boot at its end (R439). [log 72, DEDUCED] -/
def coldBoot (e : BootEnv) (s : State) : State :=
  let s := coldClear { s with env := e }
  let s := bootStages [(1, fun s => bootA e (vilriTrain s))] s
  if e.resetLow then pwrMod (fun p => { p with heldAtA := decide (pstate s = 1) }) s else coldFromB e s

/-- COLD_BOOT (R416, R438): PWR_EN high with the input in range, from Off or right after the reset. -/
def doColdBoot (e : BootEnv) (s : State) : State :=
  if s.pwr.off then
    let s := pwrMod (fun p => { p with pwrEn := true }) { s with env := e }
    if s.pwr.inputOk then coldBoot e s else s
  else if pstate s = 1 ∧ fget s pgSec 0xBC 0 4 = 0 then coldBoot e s
  else s

/-- A warm reset (R419, R420, R422). With the Stacks not yet initialised it runs the boot from stage B. [log 72, DEDUCED] -/
def warmReset (e : BootEnv) (s : State) : State :=
  if s.pwr.off || decide (pstate s = 5 ∧ fget s pgMod 0x40 4 4 = 4) then s
  else
    let up := s.pwr.stacksUp
    let s := warmClear { s with env := e }
    if up then
      bootEnd e (bootStages [(9, id), (10, bootA e), (10, bootB), (11, bootC e), (11, bootStacks false), (12, bootF e),
        (13, bootG), (14, id)] s)
    else coldFromB e (bootStages [(2, bootA e)] s)

/-- WRST (R419). -/
def doWrst (e : BootEnv) (s : State) : State := warmReset e s

/-- RESET_N rises (R419, R439): after a low of at least 10 µs, 1,000 REFCLK cycles, the module resets; a boot that it held goes on. [log 72, DEDUCED] -/
def doResetN (p : ResetPulse) (s : State) : State :=
  if s.pwr.heldAtA && decide (pstate s = 1) then coldFromB p.env (pwrMod (fun x => { x with heldAtA := false }) { s with env := p.env })
  else if p.lowCycles < 1000 then s else warmReset p.env s

/-! ### Off, the input, the trip, REFCLK (R438, R441, R444, R452) -/

/-- The module goes to Off: what has no power is lost. -/
def powerOff (s : State) : State :=
  let s := coldClear s
  pwrMod (fun p => { p with off := true, refclk := true }) { s with vil := {}, nd := {} }

/-- POWER_OFF (R438). -/
def doPowerOff (s : State) : State := powerOff (pwrMod (fun p => { p with pwrEn := false }) s)

/-- INPUT_OUT_OF_RANGE (R441). -/
def doInputOut (s : State) : State := powerOff (pwrMod (fun p => { p with inputOk := false }) s)

/-- The observations of a boot that no command brings: what the last boot found, in a time of its own (R418). The flow is the coolant watch's
affair. [log 72, DEDUCED] -/
def envAgain (s : State) : BootEnv × State :=
  let (f, s) := takeFree s
  ({ s.env with flow := 50, bootMs := (Config.openWord f).setWidth 16, resetLow := false }, s)

/-- INPUT_IN_RANGE (R441): with PWR_EN high a cold boot starts, whose coolant flow is a free value. [log 72, DEDUCED] -/
def doInputIn (s : State) : State :=
  let s := pwrMod (fun p => { p with inputOk := true }) s
  if s.pwr.off && s.pwr.pwrEn then
    let (f, s) := takeFree s
    let (e, s) := envAgain s
    coldBoot { e with flow := (Config.openWord f).setWidth 16, resetLow := s.env.resetLow } s
  else s

/-- JUNCTION_TRIP (R452): at 110 °C the zone and hub rails go, with the Stacks, and the module is in Fault-hold, cause 4. -/
def doJunctionTrip (tj : Nat) (s : State) : State :=
  if s.pwr.off || decide (tj < 110) then s
  else
    let s := fset pgMod 0x40 4 4 4 (setPstate 5 s)
    pwrMod (fun p => { p with thermTrip := true, stacksUp := false, waking := false, stbyReq := false })
      { s with dram := [], smark := [] }

/-- REFCLK_LOST (R444): after boot the zones freeze and the module enters Fault-hold, cause 1; the tick count holds and the Vilri
link goes down. [log 80, DEDUCED] -/
def doRefclkLost (s : State) : State :=
  if s.pwr.off || decide (pstate s = 1) then s
  else
    let s := foldS (List.range 4) (fun z => zoneMod z fun x => { x with frozenAt := some (x.frozenAt.getD s.refTick) }) s
    let s := doVilriLinkDown (raise pgClocks 0 (faultHold 1 s))
    pwrMod (fun p => { p with refclk := false }) s

/-! ### Standby and wake (R272-R277) -/

/-- A request for Standby (R272): held during a wake. -/
def stbyRequest (s : State) : State :=
  if running s then pwrMod (fun p => { p with stbyReq := true }) s
  else if s.pwr.waking then pwrMod (fun p => { p with stbyHeld := true }) s
  else s

/-- PWRCTL_STBY. -/
def doPwrctlStby (s : State) : State := stbyRequest s

/-- STBY_REQ_N_FALL. -/
def doStbyFall (s : State) : State := if s.pwr.refclk then stbyRequest s else s

/-- Ports asleep in Standby: all that run but the one the Night Desk watches (R274, R311), the counter where it then is; one in training
waits for the wake. [log 123, DESIGN CHOICE] -/
def sleepPorts (s : State) : State :=
  foldS (List.range 4) (fun q s =>
    if ndWatches s q ∨ accState s q = 0 then s
    else if accState s q = 1 then accMod q (fun a => { a with armed := false }) s
    else
      let (f, s) := takeFree s
      let c := scntNow s q f
      accMod q (fun a => { a with slept := true, armed := false, gapFrom := some (a.gapFrom.getD c) }) (rset64 (pgAcc q) 0x78 c (accPut q 3 true s))) s

/-- STANDBY_ENTRY (R273): at the tick whose segments have all ended. Tiles moved for a frame not processed are discarded, and RT jobs
lose the frames from the one this tick would have processed. -/
def doStandbyEntry (s : State) : State :=
  if running s && s.pwr.entry then
    let s := foldS (List.range 4) (fun j => jobMod j fun b =>
      if b.bound && !b.bg then { b with firstLost := some (b.firstLost.getD (s.tick - 1)), pendStart := false } else b) s
    let s := foldS (List.range 4) (fun q => accMod q fun a => { a with tile := [] }) { s with xfers := s.xfers.filter fun x => !x.hub }
    setPstate 4 (sleepPorts (pwrMod (fun p => { p with entry := false, stbyReq := false }) s))
  else s

/-- A wake source (R275, R284): the first starts the wake, later ones are recorded; in Standby a coolant condition leaves only the
host's. `src` is 0 WAKE_N, 1 STBY_REQ_N, 2 PWRCTL.WAKE, 3 DOORBELL, 4 Night Desk, 5 a follower's wake pulse. W falls `since` cycles
after the last tick, or, where no command gives its moment, as many as a free value within the period says. [log 17, DESIGN CHOICE] -/
def wakeSource (src : Nat) (since : Option Nat) (s : State) : State :=
  let s := if running s && s.pwr.entry then doStandbyEntry s else s
  if pstate s ≠ 4 ∨ (s.nd.coolOn.getD 1 false = true ∧ src ≠ 2 ∧ src ≠ 3) then s
  else if s.pwr.waking then pwrMod (fun p => { p with sources := p.sources ++ [src] }) s
  else
    let (f, s) := takeFree s
    let w := s.refTick + since.getD ((Config.openWord f).toNat % period s)
    let s := pwrMod (fun p => { p with waking := true, wokeAt := w, sources := [src], stage := 0 }) s
    let s := if src = 4 then s else { s with nd := { s.nd with woke := none, trig := none } }
    if fget s pgTick 0x44 4 2 = 1 then emit (.tickOut true (w + 1)) s else s

/-- PWRCTL_WAKE. -/
def doPwrctlWake (s : State) : State := wakeSource 2 none s

/-- STBY_REQ_N_RISE. -/
def doStbyRise (s : State) : State := if s.pwr.refclk then wakeSource 1 none s else s

/-- WAKE_N_FALL. -/
def doWakeFall (s : State) : State := if s.pwr.refclk then wakeSource 0 none s else s

/-- TICK_IN_CAPTURE (R204, R206, R277): a follower's capture; a wake pulse in Standby is its wake source. -/
def doTickInCapture (offset : Nat) (wide : Bool) (s : State) : State :=
  if !ticking s || decide (fget s pgTick 0x44 4 2 ≠ 2) then s
  else if wide then wakeSource 5 (some offset) s
  else pwrMod (fun p => { p with tickInAt := some offset }) s

/-- Bytes of the samples kept, oldest first: I and Q, 16 bits each (R278). -/
def sampleBytes (l : List (BitVec 16 × BitVec 16)) : List Byte :=
  l.reverse.flatMap fun x => leBytes 2 x.1.toNat ++ leBytes 2 x.2.toNat

/-- The wake record (R283): the samples at WAKEADDR, then the header line. [log 66, DEDUCED] -/
def wakeRecord (s : State) : State :=
  if fget s pgNd 0x40 0 1 = 0 then s
  else
    let base := 64 * (rget64 s pgNd 0x68).toNat % 2 ^ 42
    let bs := sampleBytes s.nd.ring
    let s := stkPut base bs s
    stkWrite (base + (bs.length + 63) / 64 * 64) (Config.ndHeader s.nd.first.toNat s.nd.woke) 0 s

/-- The Stacks, the movers and the raw rings are there again (W + 60 µs). [log 66, DEDUCED] -/
def wake60 (s : State) : State :=
  let s := foldS (List.range 4) (fun q s =>
    accMod q (fun a => if a.slept then a else { a with rawResume := a.rawOn, decResume := a.decOn }) s) s
  wakeRecord (ringFlush s)

/-- WAKE_STAGE (Table 10-5). [log 3, DESIGN CHOICE; 79, DEDUCED] -/
def doWakeStage (us : Nat) (s : State) : State :=
  if !s.pwr.waking || decide (us ≤ s.pwr.stage) then s
  else
    let before := s.pwr.stage
    whenS (decide (before < 60) && decide (60 ≤ us)) wake60 (pwrMod (fun p => { p with stage := us }) s)

/-- Every array is at level 64 at the first tick after a wake (R276). [log 79, DEDUCED] -/
def arraysUp (s : State) : State :=
  foldS (List.range 64) (fun l s => let k := storeKey s l
    arrMod k (fun a => { a with actEnd := (zone s (zoneOf l)).tickAbs + 5000 * multOf (stepOf s (zoneOf l)), actLvl := 64, gap := none }) s) s

/-- FIRST_ACTIVE_TICK (R276, R277, R282): 25,000 REFCLK cycles after W, or placed from the capture of a master's wake pulse. Zone clocks have run for 50 µs; a classified trigger frame runs now,
other RT frames from the next tick on. [log 52, DEDUCED; 79, DEDUCED] -/
def doFirstActiveTick (v : TickEnv) (s : State) : State :=
  if !s.pwr.waking then s
  else
    let s := whenS (decide (s.pwr.stage < 60)) (fun s => wake60 (pwrMod (fun p => { p with stage := 250 }) s)) s
    let pulse := decide (s.pwr.sources.head? = some 5)
    let len := s.pwr.wokeAt + (if pulse then 24999 - fget s pgTick 0x54 0 8 + fget s pgTick 0x54 8 8 else 25000) - s.refTick
    let held := s.pwr.folioHeld
    let again := s.pwr.stbyHeld
    let s := setPstate (if anyJob s then 3 else 2) s
    let s := foldS (List.range 4) (fun j => jobMod j fun b => if b.bound && !b.bg then { b with pendStart := true } else b) s
    let s := foldS (List.range 4) (fun z => zoneMod z fun x => { x with lost := 0, frozenAt := none, causes := [] }) s
    let s := pwrMod (fun p =>
      { p with waking := false, stage := 0, stbyHeld := false, folioHeld := [], trigAt := s.tick + 1,
               trigRun := s.nd.trig.map fun t => (t.2, t.1) }) s
    let s := if fget s pgTick 0x44 0 1 = 1 then
        rset64 pgTick 0x60 (v.counts.getD (fget s pgTick 0x44 1 2) 0) { s with phaseK := 0 }
      else s
    let s := edgeOf len 5000 true pulse (some v) (arraysUp s)
    let s := whenS (decide (fget s pgCur 0x78 8 1 = 1)) (fun s => foldS (List.range 4) (fun z => stopZone z 3 s.refTick) s) s
    let s := pwrMod (fun p => { p with trigRun := none, stbyReq := p.stbyReq || again }) s
    let s := secMod (fun x => { x with doorbells := x.doorbells ++ held }) s
    runBells s.sec.doorbells.length s

/-- COLD_BOOT. -/
def execColdBoot (env : BootEnv) (s : State) : Res := .next (doColdBoot env s)
/-- WRST. -/
def execWrst (env : BootEnv) (s : State) : Res := .next (doWrst env s)
/-- RESET_N. -/
def execResetN (p : ResetPulse) (s : State) : Res := .next (doResetN p s)
/-- POWER_OFF. -/
def execPowerOff (s : State) : Res := .next (doPowerOff s)
/-- INPUT_OUT_OF_RANGE. -/
def execInputOutOfRange (s : State) : Res := .next (doInputOut s)
/-- INPUT_IN_RANGE. -/
def execInputInRange (s : State) : Res := .next (doInputIn s)
/-- JUNCTION_TRIP. -/
def execJunctionTrip (tj : BitVec 8) (s : State) : Res := .next (doJunctionTrip tj.toNat s)
/-- REFCLK_LOST. -/
def execRefclkLost (s : State) : Res := .next (doRefclkLost s)
/-- PWRCTL_STBY. -/
def execPwrctlStby (s : State) : Res := .next (doPwrctlStby s)
/-- PWRCTL_WAKE. -/
def execPwrctlWake (s : State) : Res := .next (doPwrctlWake s)
/-- STBY_REQ_N_FALL. -/
def execStbyReqNFall (s : State) : Res := .next (doStbyFall s)
/-- STBY_REQ_N_RISE. -/
def execStbyReqNRise (s : State) : Res := .next (doStbyRise s)
/-- WAKE_N_FALL. -/
def execWakeNFall (s : State) : Res := .next (doWakeFall s)
/-- STANDBY_ENTRY. -/
def execStandbyEntry (s : State) : Res := .next (doStandbyEntry s)
/-- WAKE_STAGE. -/
def execWakeStage (us : BitVec 8) (s : State) : Res := .next (doWakeStage us.toNat s)
/-- FIRST_ACTIVE_TICK. -/
def execFirstActiveTick (env : TickEnv) (s : State) : Res := .next (doFirstActiveTick env s)
/-- TICK_IN_CAPTURE. -/
def execTickInCapture (offset : Nat) (wide : Bool) (s : State) : Res := .next (doTickInCapture offset wide s)

end Sys2Proof.Machine
end

