-- ==== Sys2Proof/Machine/NightDesk.lean ====
section
/-! DEFINITION. The Night Desk (spec/10_curator_and_night_desk.md R278-R285): blocks of samples, the detector, decisions, the trigger
frame, and the coolant watch. -/

namespace Sys2Proof.Machine

/-- The bytes of the NDCOEF section in force: that of the supplement the last boot applied, else the base folio's (R424, R428). -/
def ndCoef (s : State) : List Byte :=
  let find (bs : List Byte) : Option (List Byte) := ((fSects bs).find? fun x => decide (x.ty = 3)).map (·.bytes bs)
  let base := storeGet s (fget s pgSec 0xBC 20 1)
  match find s.sec.supp with
  | some b => b
  | none => (find base).getD []

/-- The exact sum of a FIR truncated to 24 bits: its low bits are dropped, and what is left wraps (R279). [log 15, DESIGN CHOICE] -/
def trunc24 (v : Int) : Int := (BitVec.ofInt 24 (v.fdiv (2 ^ Config.ndDrop))).toInt

/-- Output `i` of FIR A or FIR B in a block: 64 complex taps over the samples up to sample `i`; `ring` holds the samples up to the
block's end, newest first (R279). -/
def ndFir (coef : List Byte) (b : Bool) (ring : List (BitVec 16 × BitVec 16)) (i : Nat) : Int × Int :=
  let y := ((ring.drop (255 - i)).take 64).zipIdx.foldl (fun (a : Int × Int) (x, t) =>
    let c := Config.ndTap coef b t
    (a.1 + c.1.toInt * x.1.toInt - c.2.toInt * x.2.toInt, a.2 + c.1.toInt * x.2.toInt + c.2.toInt * x.1.toInt)) (0, 0)
  (trunc24 y.1, trunc24 y.2)

/-- E: the mean of |y_A|^2 over the block (R279). -/
def ndEnergy (coef : List Byte) (ring : List (BitVec 16 × BitVec 16)) : Nat :=
  ((List.range 256).foldl (fun a i => let y := ndFir coef false ring i; a + (y.1 * y.1 + y.2 * y.2).toNat) 0) / 256 % 2 ^ 48

/-- X_i: the 256-point FFT of FIR B's output under the folio's window (R279), to within one of its codes. [log 15, DESIGN CHOICE] -/
def ndBin (coef : List Byte) (ys : List (Int × Int)) (i : Nat) : Int × Int :=
  let v := Config.ndFft coef ys i
  let t := ys.zipIdx.foldl (fun (a : FVal × FVal) (y, j) =>
    let (c, s) := circle (i * j) 256
    let w := rInt (Config.ndWin coef j)
    (rAdd a.1 (rMul w (rAdd (rMul (rInt y.1) c) (rMul (rInt y.2) s))),
     rAdd a.2 (rMul w (rAdd (rMul (rInt y.2) c) (rMul (rInt y.1) s).negate)))) (.zero, .zero)
  (heldInt 1 (t.1.scale (-(Config.ndScale : Int))) v.1, heldInt 1 (t.2.scale (-(Config.ndScale : Int))) v.2)

/-- P_i for each bin of the block: |X_i|^2 + 1 (R279). -/
def ndPowers (coef : List Byte) (ring : List (BitVec 16 × BitVec 16)) : List Nat :=
  let ys := (List.range 256).map (ndFir coef true ring)
  (List.range 256).map fun i => let x := ndBin coef ys i; (x.1 * x.1 + x.2 * x.2).toNat + 1

/-- SF: the mean of L(P_i) minus L of the mean of P_i (R279). -/
def ndFlat (coef : List Byte) (ring : List (BitVec 16 × BitVec 16)) : Int :=
  let ps := ndPowers coef ring
  (ps.foldl (fun a p => a + logLin p 0) 0).fdiv 256 - logLin (ps.foldl (· + ·) 0) (-8)

/-- The band feature f_k as a p16 word (R279). -/
def ndFeature (coef : List Byte) (ring : List (BitVec 16 × BitVec 16)) (k : Nat) : Nat :=
  let p := (((ndPowers coef ring).drop (16 * k)).take 16).foldl (· + ·) 0
  (roundPosit 16 (FVal.ofInt (logLin p 0) (-8))).1

/-- A row of a layer: exact in a q16 quire, rounded once to p16 (R280). -/
def ndRow (coef : List Byte) (layer row : Nat) (xs : List Nat) : Nat :=
  let v (w : Nat) : FVal := decodePosit 16 w
  let sum := xs.zipIdx.foldl (fun (q : QVal) (x, c) =>
      q.add (((v (Config.ndWeight coef layer row c).toNat).mul (v x)).1.toQ .q16))
    ((v (Config.ndWeight coef layer row 16).toNat).toQ .q16)
  (roundPosit 16 (sum.toF .q16)).1

/-- A p16 word in posit order. -/
def posOrd (w : Nat) : Int := (BitVec.ofNat 16 w).toInt

/-- The scores s0 and s1 of the two-layer detector (R280). -/
def ndScore (coef : List Byte) (ring : List (BitVec 16 × BitVec 16)) (i : Nat) : Nat :=
  let f := (List.range 16).map (ndFeature coef ring)
  let h := (List.range 16).map fun r => let y := ndRow coef 1 r f; if posOrd y < 0 then 0 else y
  ndRow coef 2 i h

/-- The condition vector (R281) of a block with energy `e` and flatness `sf`. -/
def ndVector (s : State) (e : Nat) (sf : Int) (s0 s1 : Nat) : Nat :=
  let c0 := decide (fget s pgNd 0x44 0 32 ≤ e / 2 ^ 16)
  let c1 := decide (s.nd.env * 2 ^ fget s pgNd 0x48 4 3 ≤ e)
  let c2 := decide (sf ≤ -(fget s pgNd 0x4C 0 16 : Int))
  let c3 := decide (-(fget s pgNd 0x4C 16 16 : Int) ≤ sf)
  let c4 := decide (posOrd (fget s pgNd 0x50 0 16) ≤ posOrd s0)
  let c5 := decide (posOrd (fget s pgNd 0x50 16 16) ≤ posOrd s1)
  b2n c0 + 2 * b2n c1 + 4 * b2n c2 + 8 * b2n c3 + 16 * b2n c4 + 32 * b2n c5

/-- The action of a decision-table entry (R281). -/
def ndAction (s : State) (i : Nat) : Nat := fget s pgNd (0x58 + 4 * (i / 16)) (2 * (i % 16)) 2

/-- The frame whose sample window holds instant `c` of the watched port (R28, R282, R292). [log 79, DEDUCED] -/
def frameOfInstant (s : State) (q : Nat) (c : BitVec 64) : BitVec 64 :=
  let a := acc s q
  if a.bn ≤ c then a.bnFrame else if a.bnPrev ≤ c then a.bnFrame - 1 else a.bnFrame - 2

/-- A decision that wakes the module (R281, R282): the trigger frame is classified where TRIGCLS = 1, the stream has an RT job and the
period and T_lead together are at most 250 µs. -/
def ndWake (idx : Nat) (first : BitVec 64) (s : State) : State :=
  let q := fget s pgNd 0x40 1 2
  let fr := frameOfInstant s q first
  let fresh := decide (pstate s = 4) && !s.pwr.waking
  let s := wakeSource 4 none s
  if fresh && s.pwr.waking then
    let ok := decide (fget s pgNd 0x40 3 1 = 1) && decide (period s + fget s (pgAcc q) 0x80 0 17 ≤ 25000)
    { s with nd := { s.nd with
        woke := some (fr.toNat, idx)
        trig := if ok then (streamJob s q).map fun j => (fr, j) else none } }
  else s

/-- A decision is a stop request to every port with NDSTOP = 1 (R297); `next` is the watched port's next instant. -/
def ndStops (next : BitVec 64) (s : State) : State :=
  foldS ((List.range 4).filter fun q => decide (fget s (pgAcc q) 0xC0 3 1 = 1)) (fun q s =>
    if ndWatches s q then ringStopAt q next s
    else
      let (n, s) := takeFree s
      ringStopAt q (scntNow s q n) s) s

/-- A decision, made at the end of its block + 2 (R281); while entry to Standby is under way it starts a wake too (R275). [log 80, DEDUCED] -/
def ndDecide (idx : Nat) (first next : BitVec 64) (s : State) : State :=
  let s := ndStops next (fset pgNd 0x7C 0 6 idx s)
  let s := if running s && s.pwr.entry then doStandbyEntry s else s
  if pstate s = 4 then ndWake idx first s else if running s then raise pgNd 0 s else s

/-- The Night Desk runs: enabled, not stopped by a link error, and not in Off, Boot or Fault-hold (R278). -/
def ndRuns (s : State) : Bool :=
  decide (fget s pgNd 0x40 0 1 = 1) && enabled s pgNd && !s.nd.stopped && !s.pwr.off && (running s || decide (pstate s = 4))

/-- NIGHT_DESK_BLOCK (R278-R282). [log 80, DEDUCED] -/
def doNightDeskBlock (samples : List (BitVec 16 × BitVec 16)) (count : BitVec 64) (s : State) : State :=
  if !ndRuns s then s
  else
    let d := accD s (fget s pgNd 0x40 1 2)
    let ring := (samples.reverse ++ s.nd.ring).take 2097152
    let first := count - BitVec.ofNat 64 (d * (ring.length - samples.length))
    let coef := ndCoef s
    let e := ndEnergy coef ring
    let sf := ndFlat coef ring
    let idx := ndVector s e sf (ndScore coef ring 0) (ndScore coef ring 1)
    let act := ndAction s idx
    let alpha := fget s pgNd 0x48 0 4
    let env := ((s.nd.env : Int) + ((e : Int) - s.nd.env).fdiv (2 ^ alpha)).toNat
    let n := s.nd.block
    let cnt := if act = 0 then 0 else if act = 1 then min (s.nd.persist + 1) 65535 else s.nd.persist
    let fires := decide (act = 2) || (decide (act = 1) && decide (cnt = fget s pgNd 0x54 0 16))
    let waits := s.nd.decided ++ (if fires then [(n, idx, count)] else [])
    let due := waits.filter fun x => decide (x.1 + 2 ≤ n)
    let s := rset pgNd 0x78 (BitVec.ofInt 32 sf) (rset64 pgNd 0x70 (BitVec.ofNat 64 e) s)
    let s := { s with nd := { s.nd with
      ring := ring, first := first, env := env, persist := cnt, block := n + 1, decided := waits.filter fun x => !decide (x.1 + 2 ≤ n)
      matched := s.nd.matched || decide (act ≠ 0) } }
    foldS due (fun x => ndDecide x.2.1 x.2.2 (count + BitVec.ofNat 64 (256 * d))) s

/-! ### The coolant watch (R284, Table 10-6) -/

/-- The conditions of Table 10-6. -/
def coolHolds (inlet flow k : Nat) : Bool :=
  match k with
  | 0 => decide (inlet < 15) || decide (40 < inlet) || decide (flow < 250)
  | 1 => decide (45 < inlet) || decide (flow < 150)
  | _ => decide (flow < 50)

/-- A condition that applies is reported; the third one ends in Fault-hold. The second one's shedding and clock limit are the
Curator's at the tick. [log 80, DEDUCED] -/
def coolStart (k inlet outlet flow : Nat) (s : State) : State :=
  let s := errata { ty := 0x0504, sev := 0, level := 0, block := 8, detail := [k, inlet, outlet, flow] }
    (sendEvent 9 [k, inlet, outlet, flow] (raise pgNd 1 s))
  let s := alertCause 11 s
  if k = 2 then faultHold 3 s else s

/-- The coolant conditions act, once each time they come, where the module is Ready, Active or in Standby (Table 10-6). [log 80, DEDUCED] -/
def coolAct (inlet outlet flow : Nat) (s : State) : State :=
  foldS (List.range 3) (fun k s =>
    if s.nd.coolOn.getD k false && !s.nd.coolTold.getD k false && (running s || decide (pstate s = 4)) then
      coolStart k inlet outlet flow { s with nd := { s.nd with coolTold := s.nd.coolTold.set k true } }
    else s) s

/-- COOLANT_SAMPLE (R284): a condition comes or goes after 16 consecutive samples. [log 80, DEDUCED] -/
def doCoolantSample (inlet outlet flow : Nat) (s : State) : State :=
  if s.pwr.off then s
  else
    let s := rset pgCur 0xA8 (BitVec.ofNat 32 (inlet + outlet * 2 ^ 8 + flow * 2 ^ 16)) s
    coolAct inlet outlet flow (foldS (List.range 3) (fun k s =>
      let on := s.nd.coolOn.getD k false
      let n := if coolHolds inlet flow k = on then 0 else s.nd.cool.getD k 0 + 1
      if n < 16 then { s with nd := { s.nd with cool := s.nd.cool.set k n } }
      else
        let s := { s with nd := { s.nd with cool := s.nd.cool.set k 0, coolOn := s.nd.coolOn.set k (!on),
                                            coolTold := s.nd.coolTold.set k false } }
        if !on && decide (k = 2) && decide (pstate s = 1) && !s.pwr.off then bootFail 6 3 s else s) s)

/-- NIGHT_DESK_BLOCK. -/
def execNightDeskBlock (samples : List (BitVec 16 × BitVec 16)) (count : BitVec 64) (s : State) : Res :=
  .next (whenS (decide (samples.length = 256)) (doNightDeskBlock samples count) s)
/-- COOLANT_SAMPLE. -/
def execCoolantSample (inlet outlet : BitVec 8) (flow : BitVec 16) (s : State) : Res :=
  .next (doCoolantSample inlet.toNat outlet.toNat flow.toNat s)

end Sys2Proof.Machine
end

