-- ==== Sys2Proof/Machine/Registers.lean ====
section
/-! DEFINITION. The register window (spec/15_register_pages.md R387-R402, R412; R202, R262, R325, R361, R376, R414, R462): which pages
answer, what a read shows, and what a write does under each field's access code. -/

namespace Sys2Proof.Machine

/-! ### Which pages answer (R376, R414, R462) -/

/-- Pages that answer in Standby; in Fault-hold the security pages do too. -/
def awakeKind : PageKind → Bool
  | .mod | .ident | .tick | .ndesk | .ndPlain | .errata | .errBuf | .errPlain => true
  | _ => false

/-- The security pages. -/
def secKind : PageKind → Bool
  | .sec | .cert | .secPlain => true
  | _ => false

/-- The row of Table 16-13 that names a page. -/
def bootRow : PageKind → Nat
  | .hub | .mc | .mover | .acc | .abf => 1
  | .zone | .seq | .array | .vec | .sfu | .carrel | .check | .scale | .numev | .perf | .diepwr | .engmap | .d2d => 2
  | .curator | .boost | .curPlain | .catalogue | .catPlain | .spares => 3
  | _ => 0

/-- The stage a row answers after, by BOOTST.STAGE: 1-8 cold, 9-14 warm (Table 16-10). -/
def bootAnswers (row stage : Nat) : Bool :=
  if stage ≤ 8 then decide ([1, 3, 6, 7].getD row 7 < stage)
  else row = 0 || decide ([8, 11, 12, 13].getD row 13 < stage)

/-- The die of a compute-die page. -/
def dieOfPage (p : Nat) : Option Nat := if 0x400 ≤ p ∧ p < 0xC00 then some ((p - 0x400) / 0x80) else none

/-- BOOTST.STAGE as the pages see it: a boot that RESET_N holds has ended stage A (R439). [log 72, DEDUCED] -/
def stageSeen (s : State) : Nat := if s.pwr.heldAtA then 2 else fget s pgSec 0xBC 0 4

/-- A page's block is asleep. A page that the directory does not assign always answers (R388). -/
def pageAsleep (s : State) (p : Nat) : Bool :=
  match pageOf p with
  | none => false
  | some (k, _, _) =>
    s.pwr.off ||
    (match pstate s with
      | 1 => !bootAnswers (bootRow k) (stageSeen s)
      | 4 => !awakeKind k
      | 5 => !(awakeKind k || secKind k)
      | _ => false) ||
    (match dieOfPage p with
      | some c => decide (fget s (pgDie c 0) 0x0C 3 1 = 1)
      | none => false)

/-! ### Idle conditions (Table 15-3, R361, R399) -/

/-- An engine has an RT or BG segment bound: as the storage or as the executing engine of a logical one. -/
def engBusy (s : State) (k : Nat) : Bool :=
  ((List.range 4).map (4 * (k / 5) + ·)).any fun l =>
    (decide (storeKey s l = k) || decide (execKey s l = k)) && (List.range 4).any fun j => (job s j).bound && (job s j).uses l

/-- The job slots bind an engine of the die. -/
def dieBusy (s : State) (c : Nat) : Bool :=
  ((List.range 4).map (4 * c + ·)).any fun l => (List.range 4).any fun j => (job s j).bound && (job s j).uses l

/-- The job slots bind an engine of the zone. -/
def zoneBusy (s : State) (z : Nat) : Bool :=
  ((List.range 16).map (16 * z + ·)).any fun l => (List.range 4).any fun j => (job s j).bound && (job s j).uses l

/-- An attestation is under way: SEC.ATTCTL.BUSY. [log 78, DEDUCED] -/
def attBusy (s : State) : Bool := s.sec.attReq || s.sec.attBytes.isSome

/-- A capture ring of some port writes a hub. -/
def captures (s : State) (h : Nat) : Bool := (List.range 4).any fun q => (acc s q).shares.any fun x => decide (x.1 = h)

/-- Every Abfold port is disabled (R361). -/
def abfOff (s : State) : Bool := (List.range 6).all fun p => decide (fget s (pgAbf p) 0x40 0 1 = 0)

/-- STATUS.IDLE of a page. -/
def idleOf (s : State) (p : Nat) : Bool :=
  if !enabled s p then true
  else
    match pageOf p with
    | none => true
    | some (k, a, b) =>
      match k with
      | .ident => true
      | .sec | .cert | .secPlain => s.sec.writing.isNone && !attBusy s
      | .zone => !zoneBusy s a
      | .ndesk | .ndPlain => decide (fget s pgNd 0x40 0 1 = 0)
      | .errata | .errBuf | .errPlain => decide (fget s pgErr 0x48 0 1 = 0)
      | .hub => !anyJob s && !captures s a
      | .mc => decide (fget s p 0x40 0 2 ≠ 0)
      | .mover => !(job s b).occupied
      | .acc => decide (accState s a = 0)
      | .abf => decide (fget s p 0x40 0 1 = 0)
      | .vilri => !vilriUp s
      | .seq | .array | .vec | .sfu | .carrel | .check | .scale | .numev | .perf => !engBusy s (5 * a + b)
      | .diepwr | .engmap | .d2d => !dieBusy s a
      | _ => !anyJob s

/-- A block reset may be made (R399): the page is idle, and a mover's slot is free whatever its HCTL.ENABLE says. -/
def resetIdle (s : State) (p : Nat) : Bool :=
  idleOf s p && (match pageOf p with
    | some (.mover, _, b) => !(job s b).occupied
    | _ => true)

/-- The idle condition of a field: the page's, those of R361 for the fabric registers, and those of R202 and R285, which HCTL.ENABLE does
not lift. -/
def fieldIdle (s : State) (p off : Nat) : Bool :=
  if p = pgTick ∧ 0x40 ≤ off then !anyJob s
  else if p = pgNd ∧ 0x40 < off then decide (fget s pgNd 0x40 0 1 = 0)
  else if p = pgAbf 0 ∧ off = 0x100 then abfOff s
  else if p = pgAbf 0 ∧ off = 0x108 then !anyJob s
  else if p = pgAbf 0 ∧ 0x110 ≤ off ∧ off < 0x120 then !(job s ((off - 0x110) / 4)).occupied
  else idleOf s p

/-! ### What a read shows -/

/-- The logical engine whose storage a page's engine holds. -/
def pageLeng (s : State) (k : Nat) : Option Nat := lengOf s k

/-- A word of a byte string. -/
def wordAt (bs : List Byte) (off : Nat) : Nat := leAt bs off 4

/-- SEQ.BIND (Table 15-8). -/
def bindWord (s : State) (k : Nat) : Nat :=
  match pageLeng s k with
  | none => 0x3F00
  | some l =>
    let rt := ownerOf s l .rt
    let bg := ownerOf s l .bg
    rt.getD 0 + 4 * b2n rt.isSome + 16 * bg.getD 0 + 64 * b2n bg.isSome + 2 ^ 8 * l

/-- The Curator owns CHECK.CTL.RATIO of an engine (R262, Table 15-10): a bound job on it has AUTO = 1. [log 56, DEDUCED] -/
def ratioOwned (s : State) (k : Nat) : Bool :=
  match pageLeng s k with
  | none => false
  | some l => (List.range 4).any fun j =>
    (job s j).bound && (job s j).uses l && decide (fget s pgCur (0x48 + 4 * j) 11 1 = 1)

/-- SPARES.REMAIN (Table 15-15). [log 86, DEDUCED] -/
def remainWord (s : State) : Nat :=
  let eng := ((List.range 16).filter fun c =>
    dieUp s c && decide (fget s (pgDie c 1) 0x44 4 1 = 0) && (List.range 4).all fun i => decide (slotPhys s (4 * c + i) ≠ 4)).length
  let lane := ((List.range 6).filter fun f => decide (fget s (pgAbf f) 0x44 3 4 = 15) && !(abf s f).spareBad).length
  let f5 := decide (fget s (pgAbf 5) 0x44 8 3 = 7) && decide (fget s (pgAbf 5) 0x44 0 3 ≠ 3)
  let vl := decide (fget s pgVilri 0x44 2 3 = 4) && decide (fget s pgVilri 0x44 5 3 = 4) && !s.vil.badTx && !s.vil.badRx
  eng + 2 ^ 5 * lane + 2 ^ 8 * b2n f5 + 2 ^ 9 * b2n vl

/-- Fabric time at some moment since the last tick (R347): a free value gives the time passed; it never goes back. -/
def fabricNow (s : State) (n : Nat) : Nat :=
  max s.pwr.fabSeen (fabricAt s (s.refTick + (Config.openWord n).toNat % period s))

/-- The words of an ARRAY page that show the array itself (Table 15-9). LEVEL is that of R104 in the cycle of the read, a free one since the
engine's last issue. [log 18, DESIGN CHOICE] -/
def arrayView (s : State) (k n off : Nat) : Option Nat :=
  let a := (eng s k).arr
  match off with
  | 0x40 => some (fmtCode (some a.tile.fmt) + 16 * b2n a.tile.fast +
      32 * (if a.tile.ksplit = 4 then 2 else a.tile.ksplit - 1) + 128 * b2n a.tile.valid)
  | 0x44 =>
    let t (h : Half) : Nat := if h.valid then tagCode h.tag else 0
    some (t a.half0 + 16 * t a.half1)
  | 0x48 => some a.half0.terms
  | 0x4C => some a.half1.terms
  | 0x70 => (pageLeng s k).map fun l =>
      let e := eng s (storeKey s l)
      let t := max e.rt.last e.bg.last + (Config.openWord n).toNat % frameCycles s (zoneOf l)
      engLevel s (storeKey s l) l t
  | _ => none

/-- RTST (Table 15-8): 3 after a cut, and 0 once the segment has ended by WTICK or HALT. While units of the segment are busy beyond its last
issue, whether a segment hold stands in the cycle of the read is a free value. [log 18, DESIGN CHOICE] -/
def rtStOf (s : State) (k n : Nat) (x : SegSt) : Nat :=
  let halted := (pageLeng s k).any fun l => (ownerOf s l .rt).any fun j => (job s j).halted.getLsbD l
  if x.st = 1 then (if x.last < x.busyTo then 1 + (Config.openWord n).toNat % 2 else 1) else if x.st = 3 ∧ halted = false then 3 else 0

/-- The words of a SEQ page that show the sequencer itself (Table 15-8). -/
def seqView (s : State) (k n off : Nat) : Option Nat :=
  let e := eng s k
  match off with
  | 0x40 => some (bindWord s k)
  | 0x44 => some e.rt.pc
  | 0x48 => some e.bg.pc
  | 0x4C => some (rtStOf s k n e.rt + 4 * (e.bg.st % 4))
  | 0x50 => some ((pageLeng s k).elim 0 (lagOf s))
  | 0x58 => some (e.bg.stepNo.toNat % 2 ^ 32)
  | 0x5C => some (e.bg.stepNo.toNat / 2 ^ 32)
  | _ => none

/-- The words of a SCALE page that show the selected tag entry (Table 15-11). [log 62, DEDUCED] -/
def scaleView (s : State) (k p off : Nat) : Option Nat :=
  let t := (eng s k).tagNow (fget s p 0x58 0 8)
  match off with
  | 0x5C => some (b2n t.valid + 2 * t.tid.toNat + 2 ^ 13 * t.line.toNat)
  | 0x60 => some t.seq.toNat
  | _ => none

/-- The boost of four TIDs (R410). -/
def boostWord (s : State) (t : Nat) : Nat :=
  (List.range 4).foldl (fun a i => a + (BitVec.ofInt 8 (catE s (t + i)).boost).toNat * 2 ^ (8 * i)) 0

/-- Word `i` of buffer slot `n` (R411): the record whose SEQNO modulo 64 is `n`. -/
def errWord (s : State) (n i : Nat) : Nat :=
  match s.errs.find? fun r => decide (r.seq.toNat % 64 = n) with
  | some r => wordAt (bytesOfLine (errLine r)) (4 * i)
  | none => 0

/-- The words of the module pages that show state held elsewhere. -/
def moduleView (s : State) (p n off : Nat) : PageKind → Nat → Option Nat
  | .mod, _ =>
    if 0x50 ≤ off ∧ off < 0x60 then
      let j := (off - 0x50) / 4
      let b := job s j
      some (putBits (rget s p off).toNat 8 5 (b.st + 8 * b2n b.saved + 16 * b2n b.bg))
    else none
  | .ident, _ =>
    if off = 0x48 then some (Config.serial.toNat % 2 ^ 32) else if off = 0x4C then some (Config.serial.toNat / 2 ^ 32)
    else if off = 0x54 then some (fuseWord s) else none
  | .sec, _ =>
    if off = 0x40 then some (fuseWord s)
    else if 0x44 ≤ off ∧ off < 0x64 then some (if s.sec.ownerEn then wordAt s.sec.ownerKey (off - 0x44) else 0)
    else if off = 0xB0 then some (2 * b2n (attBusy s)) else none
  | .cert, _ => if 0x40 ≤ off ∧ off < 0x100 then some (wordAt certificate (off - 0x40)) else none
  | .tick, _ =>
    if off = 0x58 then some (s.tick.toNat % 2 ^ 32) else if off = 0x5C then some (s.tick.toNat / 2 ^ 32) else none
  | .clocks, _ =>
    if off = 0x40 then
      some (Config.lockWord ((List.range 4).foldl (fun a z => a + (1 - fget s (pgZone z) 0x0C 2 1) * 2 ^ z) 0) (if s.pwr.dead then 0 else 15)).toNat
    else none
  | .curator, _ =>
    let j := (off - 0x48) / 4
    if 0x48 ≤ off ∧ off < 0x58 ∧ fget s pgCur off 11 1 = 0 ∧ (job s j).bound = true then
      some (putBits (rget s p off).toNat 12 3 (jobRatio s j))
    else none
  | .boost, a => if 0x40 ≤ off ∧ off < 0x840 then some (boostWord s (2048 * a + (off - 0x40))) else none
  | .errBuf, a => if 0x40 ≤ off ∧ off < 0x840 then some (errWord s (32 * a + (off - 0x40) / 64) ((off - 0x40) % 64 / 4)) else none
  | .catalogue, _ =>
    let used := s.cat.filter fun x => decide (x.2.mode ≠ 0)
    if off = 0x44 then some (4096 - used.length)
    else if off = 0x48 then some (used.filter fun x => decide (0 < x.2.coldLeft)).length
    else if 0x200 ≤ off ∧ off < 0x400 then
      match s.aperture with
      | some (t, e) => some (wordAt (catBytes t e) (off - 0x200))
      | none => some 0
    else none
  | .spares, _ =>
    if 0x40 ≤ off ∧ off < 0x80 then some (wordAt (spareDigest s) (off - 0x40))
    else if off = 0x80 then some (remainWord s) else none
  | .acc, a =>
    if off = 0x78 then some ((scntNow s a n).toNat % 2 ^ 32) else if off = 0x7C then some ((scntNow s a n).toNat / 2 ^ 32) else none
  | .abf, a =>
    if a = 0 ∧ off = 0x120 then some (fabricNow s n % 2 ^ 32) else if a = 0 ∧ off = 0x124 then some (fabricNow s n / 2 ^ 32 % 2 ^ 32)
    else none
  | _, _ => none

/-- The words of the engine pages that show state held elsewhere. -/
def engineView (s : State) (k p n off : Nat) : PageKind → Option Nat
  | .seq => seqView s k n off
  | .array => arrayView s k n off
  | .check =>
    if off = 0x40 then some (putBits (rget s p off).toNat 3 1 (b2n (ratioOwned s k)))
    else if off = 0x54 then
      let near := (pageLeng s k).elim 0 fun l => ((eng s (storeKey s l)).unlocAt.filter fun x => decide (s.tick.toNat < x + 4096)).length
      some (putBits (rget s p off).toNat 8 2 (min near 3))
    else none
  | .scale => scaleView s k p off
  | .sfu =>
    if off = 0x5C then some (Config.coefWord (rget s p 0x58).toNat).toNat
    else if off = 0x60 then some ((List.range 32).foldl (fun a i => a + b2n (progOf s i false).isSome * 2 ^ i) 0) else none
  | _ => none

/-- The block is out of service after a fault or a retirement (Table 15-2): its own mark, that of its engine in ENGMAP.FAILED, that of its
die or hub, or a package's STATE. -/
def faultBit (s : State) (p : Nat) : Bool :=
  decide (fget s p 0x0C 2 1 = 1) || (match pageOf p with
    | some (.mc, h, b) => decide (fget s (pgHub h) 0x0C 2 1 = 1) || decide (fget s (pgMc h b) 0x40 0 2 = 3)
    | some (.mover, h, _) | some (.acc, h, _) | some (.abf, h, _) => decide (fget s (pgHub h) 0x0C 2 1 = 1)
    | some (k, a, b) => decide (0x20 ≤ kindType k) && decide (kindType k ≤ 0x28) &&
        (decide (fget s (pgDie a 0) 0x0C 2 1 = 1) || decide (fget s (pgDie a 1) 0x44 b 1 = 1))
    | none => false)

/-- STATUS (Table 15-2). Whether a block that is not idle works in the very cycle of the read is a free value. [log 18, DESIGN CHOICE] -/
def statusWord (s : State) (p n : Nat) : Nat :=
  let idle := idleOf s p
  b2n idle + 2 * (if idle then 0 else (Config.openWord n).toNat % 2) + 4 * b2n (faultBit s p) + 8 * b2n (pageAsleep s p)

/-- SHADOW_STATE (R394, R395). [log 54, DEDUCED] -/
def shadowWord (s : State) (p : Nat) : Nat :=
  b2n (s.shadow.any fun x => decide (x.1 / 1024 = p)) + 2 * b2n (s.captured.any fun x => decide (x.1 / 1024 = p)) +
    2 ^ 16 * fget s p 0x20 16 16

/-- The word a read of offset `off` of page `p` finds; `n` numbers its free value. Reserved pages and offsets read 0 (R9, R388). -/
def regView (s : State) (n p off : Nat) : Word :=
  match pageOf p with
  | none => 0
  | some (k, a, b) =>
    if off = 0x0C then BitVec.ofNat 32 (statusWord s p n)
    else if off = 0x20 then BitVec.ofNat 32 (shadowWord s p)
    else
      match (if 0x20 ≤ kindType k ∧ kindType k ≤ 0x28 then engineView s (5 * a + b) p n off k else
          moduleView s p n off k (if k = .abf then b else a)) with
      | some v => BitVec.ofNat 32 v
      | none => if fieldsAt p off = [] then 0 else rget s p off

/-- The half of a pair that a register is: 1 LO, 2 HI, 0 neither (R400). The fabric time, the port counter and the step number are
pairs too. -/
def pairOf' (p off : Nat) : Nat := ((fieldsAt p off).head?.map (·.pair)).getD 0

/-- A running counter that a read has shown never reads lower: the port's instants, the fabric time. [log 18, DESIGN CHOICE] -/
def noteClock (p off : Nat) (v : Nat) (s : State) : State :=
  if p = pgAbf 0 ∧ off = 0x120 then pwrMod (fun x => { x with fabSeen := v }) s
  else match pageOf p with
    | some (.acc, _, _) => if off = 0x78 then rset64 p 0x78 (BitVec.ofNat 64 v) s else s
    | _ => s

/-- A register is read, by the control port or, with `sb`, the sideband (R400): LO latches HI, HI reads as latched. [log 59, DEDUCED] -/
def regRead (sb : Bool) (addr : Nat) (s : State) : Word × State :=
  let p := addr / 4096
  let off := addr % 4096 / 4 * 4
  let (n, s) := takeFree s
  match pairOf' p off with
  | 1 =>
    let hi := regView s n p (off + 4)
    let lo := regView s n p off
    (lo, noteClock p off (lo.toNat + hi.toNat * 2 ^ 32) (if sb then { s with hiLatchSb := hi } else { s with hiLatch := hi }))
  | 2 => (if sb then s.hiLatchSb else s.hiLatch, s)
  | _ => (regView s n p off, s)

/-! ### Refusals (R202, R262, R325, R361, R390, R393, R396) -/

/-- A field that starts and stops its block (R396). [log 60, DEDUCED] -/
def enField (p off : Nat) (f : Fld) : Bool :=
  decide (f.lo = 0) && (decide (p = pgNd ∧ off = 0x40) || decide (p = pgErr ∧ off = 0x48))

/-- The page is an engine's SEQ page. -/
def seqPage (p : Nat) : Bool :=
  match pageOf p with
  | some (.seq, _, _) => true
  | _ => false

/-- THROTTLE as it stands after a write of `v`: the value written where it is in range, else the one that waits or is in force. [log 56, DEDUCED] -/
def throttleAfter (s : State) (v : Nat) : Nat :=
  let x := bitsOf v 0 8
  if 70 ≤ x ∧ x ≤ 95 then x
  else bitsOf ((tabGet (fun _ => none) s.shadow (ridx pgCur 0x44)).getD (rget s pgCur 0x44)).toNat 0 8

/-- The range of a field in a write of `v` (Table 10-4). [log 60, DEDUCED] -/
def rangeOf (s : State) (p off v : Nat) (f : Fld) : Nat × Nat :=
  if p = pgCur ∧ off = 0x44 ∧ f.lo = 8 then (60, throttleAfter s v - 3)
  else if p = pgCur ∧ off = 0x44 ∧ f.lo = 16 then (throttleAfter s v + 3, 105)
  else (f.mn, f.mx)

/-- The lowest hub whose RT and capture shares exceed 32 positions (R325). [log 58, DEDUCED] -/
def capHub (s : State) : Option Nat :=
  (List.range 4).find? fun h => decide (32 < shareSum ((hubShares s h).filter fun x =>
    decide (4 < x.1) || !(job s (x.1 - 1)).bg))

/-- The refusal of one field in a write of `v`: code and DETAIL of Table 15-4. [log 60, DEDUCED] -/
def refusal (s : State) (p off v : Nat) (f : Fld) : Option (Nat × Nat) :=
  let x := bitsOf v f.lo f.w
  let r := rangeOf s p off v f
  let brst := decide (off = 8 ∧ f.lo = 1 ∧ x = 1) && !seqPage p
  let idleClass := decide (f.acc = .ri) || brst
  if brst && !resetIdle s p then some (1, f.lo)
  else if idleClass && !fieldIdle s p off && !(enField p off f && decide (x = 0)) then some (1, f.lo)
  else if (f.acc = .rw ∨ f.acc = .rt ∨ f.acc = .ri) ∧ (x < r.1 ∨ r.2 < x) then some (5, f.lo)
  else if p = pgAbf 0 ∧ off = 0x108 ∧ 24 < bitsOf v 0 5 + bitsOf v 5 5 + bitsOf v 10 5 + bitsOf v 15 5 then some (5, f.lo)
  else if p = pgCur ∧ off = 0x40 ∧ x ≤ 4 then (capHub s).map fun h => (4, h)
  else if p = pgMod ∧ off = 0xB4 ∧ f.lo = 0 ∧ x = 1 ∧ anyJob s = true then some (1, 0)
  else if p = pgSec ∧ off = 0xB0 ∧ f.lo = 0 ∧ x = 1 ∧ attBusy s = true then some (1, 0)
  else
    match pageOf p with
    | some (.check, a, b) => if off = 0x40 ∧ f.lo = 0 ∧ ratioOwned s (5 * a + b) = true then some (2, 0) else none
    | _ => none

/-! ### What a write does -/

/-- A register of sticky fields that a write of any value clears (R392, R402, R411, R412). -/
def anyClear (p off : Nat) : Bool :=
  decide (off = 0x1C) || decide (p = pgMod ∧ off = 0xA0) || decide (p = pgErr ∧ off = 0x5C)

/-- A field that its own operation writes. -/
def ownField (p off : Nat) (f : Fld) : Bool :=
  decide (off = 0x40) && decide (f.lo = 0) && (match pageOf p with
    | some (.acc, _, _) | some (.abf, _, _) => true
    | _ => false)

/-- One field takes its value under its access code (Table 0-3); a start field of a block out of service does not (R399). [log 60, DEDUCED] -/
def putField (p off v : Nat) (f : Fld) (s : State) : State :=
  let x := bitsOf v f.lo f.w
  match f.acc with
  | .ro | .wo => s
  | .rw | .ri => if ownField p off f || (enField p off f && decide (x = 1) && !enabled s p) then s else fset p off f.lo f.w x s
  | .rt =>
    let i := ridx p off
    let now := (tabGet (fun _ => none) s.shadow i).getD ((tabGet (fun _ => none) s.captured i).getD (rget s p off))
    { s with shadow := tabSet (fun _ => none) s.shadow i (some (BitVec.ofNat 32 (putBits now.toNat f.lo f.w x))) }
  | .w1c => fset p off f.lo f.w (fget s p off f.lo f.w &&& (2 ^ f.w - 1 - x)) s
  | .sh => if anyClear p off then fset p off f.lo f.w 0 s else s
  | .shc => fset p off f.lo f.w 0 s

/-- Registers that a VALID bit clears (Tables 15-8 to 15-12, 16-10): (page kind, offset of the bit, registers). -/
def validClears : List (PageKind × Nat × List Nat) := [
  (.seq, 0x60, [0x60, 0x64]), (.seq, 0x78, [0x78]), (.check, 0x58, [0x58, 0x5C, 0x60]), (.scale, 0x4C, [0x4C, 0x50, 0x54]),
  (.numev, 0x44, [0x44, 0x48, 0x4C, 0x50, 0x54]), (.numev, 0x58, [0x58, 0x5C, 0x60, 0x64]), (.sec, 0xB8, [0xB8])]

/-- ALERT_CLEAR (R402): ASSERT and every cause bit. -/
def doAlertClear (s : State) : State := if pageAsleep s pgMod then s else rset pgMod 0x48 0 s

/-- ATTESTATION_REQUEST (R431). -/
def doAttestationRequest (s : State) : State :=
  if pageAsleep s pgSec || !enabled s pgSec then s
  else if attBusy s then errInfo pgSec 1 0xB0 0 0 s
  else secMod (fun x => { x with attReq := true }) s

/-- A block reset of a page that is not a SEQ page (R399): what can be written returns to its reset value, HCTL.ENABLE kept. [log 61, DEDUCED] -/
def resetBlock (p : Nat) (s : State) : State :=
  let mine (i : Nat) : Bool := decide (i / 1024 = p) && decide (i % 1024 ≠ 2)
  let put (r : Nat × Word) (s : State) : State :=
    let off := 4 * (r.1 % 1024)
    foldS ((fieldsAt p off).filter fun f => decide (f.acc ≠ .ro)) (fun f => fset p off f.lo f.w f.rst) s
  let s := { s with shadow := s.shadow.filter fun x => !mine x.1, captured := s.captured.filter fun x => !mine x.1,
                    stagedLo := s.stagedLo.filter fun x => !mine x.1 }
  foldS (s.regs.filter fun r => mine r.1) put s

/-- BLOCK_RESET (R399): idle class; the SEQ page's is the engine reset. [log 61, DEDUCED] -/
def doBlockReset (p : Nat) (s : State) : State :=
  match pageOf p with
  | none => s
  | some (.seq, a, b) => if pageAsleep s p then s else doEngineReset (5 * a + b) s
  | some _ =>
    if pageAsleep s p then s
    else if !resetIdle s p then errInfo p 1 8 0 1 s
    else resetBlock p s

/-- What else a landed write of a module page does; `v` holds the bits of the fields that took it. [log 53, DEDUCED; 81, DEDUCED] -/
def moduleAct (off v : Nat) (s : State) : PageKind → State
  | .mod =>
    let bit (i : Nat) : Bool := decide (bitsOf v i 1 = 1)
    if off = 0x44 then
      whenS (bit 2) (fun s => let (e, s) := envAgain s; doWrst e s) (whenS (bit 1) doPwrctlWake (whenS (bit 0) doPwrctlStby s))
    else if off = 0x48 then whenS (bit 0) doAlertClear s
    else if 0x50 ≤ off ∧ off < 0x60 then
      let j := (off - 0x50) / 4
      let s := whenS (bit 0) (doJobLoad j (bit 5)) s
      let s := whenS (bit 1) (doJobUnload j) s
      let s := whenS (bit 2) (doJobSlotReset j) s
      whenS (bit 4) (doJobCont j) (whenS (bit 3) (doJobPause j) s)
    else if off = 0xB4 then whenS (bit 0) doTestctlSweep s
    else s
  | .sec => if off = 0xB0 ∧ bitsOf v 0 1 = 1 then doAttestationRequest s else s
  | .tick =>
    if anyJob s = true then s
    else if off = 0x4C then fset pgTick 0x44 6 1 0 (pwrMod (fun x => { x with sofsPassed := none }) s)
    else if off = 0x44 then
      let sofs := rget64 s pgTick 0x48
      let gone := decide (fget s pgTick 0x44 0 1 = 1) && decide (sofs ≤ rget64 s (pgAcc (fget s pgTick 0x44 1 2)) 0x78)
      fset pgTick 0x44 6 1 0 (pwrMod (fun x =>
        { x with sofsPassed := if gone then some sofs else none
                 tickAligned := if fget s pgTick 0x44 4 2 = 1 then none else x.tickAligned }) s)
    else s
  | .catalogue => if off = 0x40 then doCatalogueSel (BitVec.ofNat 12 (fget s pgCat 0x40 0 12)) s else s
  | .vilri => if off = 0x40 ∧ bitsOf v 0 1 = 1 ∧ enabled s pgVilri = true then doVilriRetrain s else s
  | _ => s

/-- What else a landed write of a hub's page does. -/
def hubAct (p off v a b : Nat) (s : State) : PageKind → State
  | .mc => if off = 0x40 ∧ bitsOf v 2 1 = 1 ∧ enabled s p = true then doRetire a b s else s
  | .acc =>
    if off = 0x40 then
      let s := if bitsOf v 0 1 = 1 then doAccLinkStart a s else doAccLinkStop a s
      whenS (decide (bitsOf v 3 1 = 1) && enabled s p) (doArm a) s
    else if off = 0xC0 then
      let (n, s) := takeFree s
      let c := scntNow s a n
      let s := whenS (decide (bitsOf v 4 1 = 1)) (doRingStop a c) s
      whenS (decide (bitsOf v 5 1 = 1) && enabled s p) (doRingStart a c) s
    else s
  | .abf =>
    if off = 0x40 then
      let s := if bitsOf v 0 1 = 1 then doAbfEnable b s else if fget s p 0x40 0 1 = 1 then doAbfDisable b s else s
      whenS (decide (bitsOf v 1 1 = 1) && enabled s p) (doAbfRetrain b) s
    else s
  | _ => s

/-- The Night Desk's chain starts or stops with EN: it begins without samples, at block 0. [log 62, DEDUCED] -/
def ndSwitch (was : Nat) (s : State) : State :=
  if fget s pgNd 0x40 0 1 = was then s
  else { s with nd := { cool := s.nd.cool, coolOn := s.nd.coolOn, coolTold := s.nd.coolTold, sram := s.nd.sram } }

/-- One register word is written by source `src` (R393): each field by its own rule. Answers whether a field was refused. -/
def writeWordAt (src p off v : Nat) (s : State) : State × Bool :=
  let fs := (fieldsAt p off).map fun f => (f, refusal s p off v f)
  let took := fs.foldl (fun a x => if x.2.isNone then a + bitsOf v x.1.lo x.1.w * 2 ^ x.1.lo else a) 0
  let en := fget s pgNd 0x40 0 1
  let t := foldS fs (fun x s => match x.2 with
    | none => putField p off v x.1 s
    | some _ => s) s
  let t := foldS fs (fun x s => match x.2 with
    | none => s
    | some r => errInfo p r.1 off src r.2 s) t
  let t := match pageOf p with
    | none => t
    | some (k, a, b) =>
      let t := foldS (validClears.filter fun c => decide (c.1 = k) && decide (c.2.1 = off) && decide (bitsOf took 31 1 = 1))
        (fun c => fun s => foldS c.2.2 (fun o => rset p o 0) s) t
      let t := if off = 8 ∧ bitsOf took 1 1 = 1 then doBlockReset p t else t
      if off < 0x40 then t else hubAct p off took a b (moduleAct off took (whenS (decide (k = .ndesk)) (ndSwitch en) t) k) k
  (t, fs.any fun x => x.2.isSome)

/-- HCTL.ENABLE of a SEQ page makes its logical engine absent, or present again (R399, R24, R249); a job loaded on an engine that
goes loses it (R224). [log 61, DEDUCED] -/
def seqEnable (old s : State) : State :=
  let gone := (List.range 64).filter fun l => !absent old l && absent s l
  foldS gone (fun l s => capacity 0 4 { ty := 0x0402, sev := 4, level := 4, zq := zoneOf l, die := l / 4, leng := l } (loseEngine l s)) (countEngines s)

/-- A word reaches its register; a write of a SEQ page's HCTL may change which engines are present. -/
def writeWord (src p off v : Nat) (s : State) : State × Bool :=
  let r := writeWordAt src p off v s
  match pageOf p with
  | some (.seq, _, _) => if off = 8 then (seqEnable s r.1, r.2) else r
  | _ => r

/-- RINGBASE takes a 64-byte-aligned offset with 4 MiB populated behind it (Table 15-14). [log 60, DEDUCED] -/
def pairFits (p off : Nat) (lo hi : Nat) : Bool :=
  if p = pgErr ∧ off = 0x44 then
    let v := lo + hi * 2 ^ 32
    decide (v % 64 = 0) && rangeOk v (4 * 2 ^ 20)
  else true

/-- A register is written (R388, R393, R400): a LO is staged, the HI that follows commits both. [log 59, DEDUCED] -/
def regWrite (src addr : Nat) (v : Word) (s : State) : State × Bool :=
  let p := addr / 4096
  let off := addr % 4096 / 4 * 4
  let writable := (fieldsAt p off).any fun f => decide (f.acc ≠ .ro)
  match pairOf' p off with
  | 1 => (if writable then { s with stagedLo := tabSet (fun _ => none) s.stagedLo (ridx p (off + 4)) (some v) } else s, false)
  | 2 =>
    let lo := tabGet (fun _ => none) s.stagedLo (ridx p off)
    let s := { s with stagedLo := tabSet (fun _ => none) s.stagedLo (ridx p off) none }
    if writable && !pairFits p off ((lo.getD (rget s p (off - 4))).toNat) v.toNat && fieldIdle s p off then
      (errInfo p 5 off src 0 s, true)
    else
      let a := match lo with
        | some w => writeWord src p (off - 4) w.toNat s
        | none => (s, false)
      let b := writeWord src p off v.toNat a.1
      (b.1, a.2 || b.2)
  | _ => writeWord src p off v.toNat s

/-- REGISTER_WRITE (R393). -/
def doRegisterWrite (addr : Nat) (v : Word) (s : State) : State :=
  if pageAsleep s (addr / 4096) || decide (addr % 4 ≠ 0) then s else (regWrite 0 addr v s).1

/-- ALERT_N is driven low (R391): an unmasked event routed to it, or the Registrar's alert. -/
def alertLow (s : State) : Bool :=
  decide (fget s pgMod 0x48 0 1 = 1) ||
    (List.range 0xC00).any fun p => (pageOf p).isSome && decide (fget s p 0x18 1 1 = 1) &&
      decide (rget s p 0x10 &&& ~~~(rget s p 0x14) ≠ 0)

/-! ### Attestation and the training folio -/

/-- The Stacks take writes: the module runs, or boots or wakes with them up. -/
def stacksOpen (s : State) : Bool :=
  running s || (decide (pstate s = 1) && s.pwr.stacksUp) || (s.pwr.waking && decide (60 ≤ s.pwr.stage))

/-- ATTESTATION_REPORT (R431): the report built at the tick is written. [log 78, DEDUCED] -/
def doAttestationReport (s : State) : State :=
  match s.sec.attBytes with
  | none => s
  | some bs =>
    if !stacksOpen s then s
    else
      let off := (rget64 s pgSec 0x88).toNat
      let s := if rangeOk off bs.length then stkPut off bs s else s
      raise pgSec 0 (fset pgSec 0xB4 0 16 bs.length (secMod (fun x => { x with attBytes := none }) s))

/-- The bytes of a training folio over four hubs' data (R423, R424), signed with the identity key. [log 77, DESIGN CHOICE] -/
def trainingFolio (data : List (List Byte)) (fver : Nat) : List Byte :=
  let pad (l : List Byte) : List Byte := l ++ List.replicate (pad64 l.length) 0
  let offs := data.foldl (fun (a : List (Nat × Nat) × Nat) d => (a.1 ++ [(a.2, d.length)], a.2 + d.length + pad64 d.length)) ([], 192)
  let sig := offs.2
  let head := leBytes 4 0x494C4F46 ++ leBytes 2 1 ++ leBytes 1 3 ++ leBytes 1 0 ++ leBytes 4 (sig + 64) ++ leBytes 2 data.length ++
    leBytes 2 0 ++ leBytes 4 fver ++ leBytes 4 0 ++ leBytes 4 0x30323834 ++ leBytes 1 0x41 ++ leBytes 1 4 ++ leBytes 2 0 ++
    leBytes 8 Config.serial.toNat ++ leBytes 4 128 ++ leBytes 4 sig ++ List.replicate 80 0
  let table := offs.1.zipIdx.flatMap fun x => leBytes 2 7 ++ leBytes 2 0 ++ leBytes 4 x.1.1 ++ leBytes 4 x.1.2 ++ leBytes 4 x.2
  let body := head ++ table ++ data.flatMap pad
  body ++ edSign identityKey body

/-- TRAINING_FOLIO_WRITE (R417): after Ready, the write of a new training folio into TRAIN starts. [log 77, DESIGN CHOICE] -/
def doTrainingFolioWrite (s : State) : State :=
  if running s && decide (s.sec.trainedFull ≠ 0) && s.sec.writing.isNone then
    let (n, s) := takeFree s
    storeStart 3 (trainingFolio ((List.range 4).map fun h => (Config.trainData h n).take 200000) (Config.trainFver n))
      (secMod (fun x => { x with trainedFull := 0, ownWrite := true }) s)
  else s

/-- ALERT_CLEAR. -/
def execAlertClear (s : State) : Res := .next (doAlertClear s)
/-- BLOCK_RESET. -/
def execBlockReset (page : BitVec 12) (s : State) : Res := .next (doBlockReset page.toNat s)
/-- ATTESTATION_REQUEST. -/
def execAttestationRequest (s : State) : Res := .next (doAttestationRequest s)
/-- ATTESTATION_REPORT. -/
def execAttestationReport (s : State) : Res := .next (doAttestationReport s)
/-- REGISTER_WRITE. -/
def execRegisterWrite (addr : BitVec 24) (value : BitVec 32) (s : State) : Res := .next (doRegisterWrite addr.toNat value s)
/-- TRAINING_FOLIO_WRITE. -/
def execTrainingFolioWrite (s : State) : Res := .next (doTrainingFolioWrite s)

end Sys2Proof.Machine
end

