-- ==== Sys2Proof/Machine/Vilri.lean ====
section
/-! DEFINITION. The requests of the Vilri port and its blocks (spec/14_vilri_control_port.md R365-R368, R372-R379, R385,
spec/16_startup_and_identity.md R434). -/

namespace Sys2Proof.Machine

/-! ### Register access (R375, R376) -/

/-- The registers named lie on one page, aligned, inside the window (Table 14-5). [log 69, DEDUCED] -/
def regRangeOk (addr nreg : Nat) : Bool :=
  decide (addr < 2 ^ 24) && decide (addr % 4 = 0) && decide (1 ≤ nreg) && decide (addr % 4096 + 4 * nreg ≤ 4096)

/-- `n` registers from an address on, in ascending order. -/
def readRegs (sb : Bool) : Nat → Nat → State → List Word × State
  | 0, _, s => ([], s)
  | n + 1, addr, s =>
    let r := regRead sb addr s
    let t := readRegs sb n (addr + 4) r.2
    (r.1 :: t.1, t.2)

/-- The bytes of some registers. -/
def regBytes (l : List Word) : List Byte := l.flatMap fun w => leBytes 4 w.toNat

/-- REG_RD (R375): class 1. [log 69, DEDUCED] -/
def doRegRd (tag : BitVec 16) (addr nreg : Nat) (s : State) : State :=
  if s.pwr.off then s
  else if !regRangeOk addr nreg then complete 1 tag 3 [] [] s
  else if pageAsleep s (addr / 4096) then complete 1 tag 2 [] (regBytes (List.replicate nreg 0)) s
  else
    let r := readRegs false nreg addr s
    complete 1 tag 0 [] (regBytes r.1) r.2

/-- Write registers in ascending order: how many writes were discarded, and the index of the first. -/
def writeRegs (src : Nat) : List Word → Nat → Nat → Nat × Nat → State → (Nat × Nat) × State
  | [], _, _, d, s => (d, s)
  | v :: vs, addr, i, d, s =>
    let r := regWrite src addr v s
    writeRegs src vs (addr + 4) (i + 1) (if r.2 then (d.1 + 1, if d.1 = 0 then i else d.2) else d) r.1

/-- REG_WR (R375): class 2. LEN is 4 × NREG. [log 69, DEDUCED] -/
def doRegWr (tag : BitVec 16) (addr nreg : Nat) (vs : List Word) (s : State) : State :=
  if s.pwr.off then s
  else if vs.length ≠ nreg then complete 2 tag 6 [] [] s
  else if !regRangeOk addr nreg then complete 2 tag 3 [] [] s
  else if pageAsleep s (addr / 4096) then complete 2 tag 2 [] [] s
  else
    let r := writeRegs 0 vs addr 0 (0, 0) s
    complete 2 tag (if r.1.1 = 0 then 0 else 1) [r.1.1, r.1.2] [] r.2

/-! ### Block transfers (R377, R434) -/

/-- A block transfer's offset and length name Stacks of one quadrant. -/
def blkRangeOk (addr n : Nat) : Bool := decide (addr < 2 ^ 42) && decide (addr % 64 = 0) && rangeOk addr n

/-- BLK_WR (R377): class 3. While a recovery image is awaited, an offset below 8 MiB names the Night Desk's SRAM. [log 69, DEDUCED] -/
def doBlkWr (tag : BitVec 16) (addr : Nat) (ls : List Line) (s : State) : State :=
  if s.pwr.off then s
  else if ls.length = 0 ∨ 64 < ls.length then complete 3 tag 6 [] [] s
  else if recovery s then
    if addr % 64 ≠ 0 ∨ 2 ^ 42 ≤ addr then complete 3 tag 3 [] [] s
    else if 8 * 2 ^ 20 < addr + 64 * ls.length then complete 3 tag 2 [] [] s
    else complete 3 tag 0 [] [] { s with nd := { s.nd with sram := writeBytesAt s.nd.sram addr (ls.flatMap bytesOfLine) } }
  else if !blkRangeOk addr (64 * ls.length) then complete 3 tag 3 [] [] s
  else if !stacksOpen s then complete 3 tag 2 [] [] s
  else complete 3 tag 0 [] [] (hubCount addr 0 ls.length (foldS ls.zipIdx (fun x => stkLand none (addr + 64 * x.2) (x.1, 0)) s))

/-- BLK_RD (R377): class 4. [log 69, DEDUCED] -/
def doBlkRd (tag : BitVec 16) (addr len : Nat) (s : State) : State :=
  if s.pwr.off then s
  else if len = 0 ∨ 4096 < len ∨ len % 64 ≠ 0 then complete 4 tag 6 [] [] s
  else if !blkRangeOk addr len then complete 4 tag 3 [] [] s
  else if !stacksOpen s then complete 4 tag 2 [] [] s
  else
    let ls := (List.range (len / 64)).map fun i => stkRead s (addr + 64 * i)
    let bad : Nat := ls.zipIdx.foldl (fun (a : Nat) x => if x.1.2 &&& mkPoison = 0 then a else a + 2 ^ x.2) 0
    complete 4 tag (if bad = 0 then 0 else 4) [bad] (ls.flatMap fun x => bytesOfLine x.1) (hubCount addr ls.length 0 s)

/-! ### Doorbells (R378, R379, R428) -/

/-- A DOORBELL in Standby is a wake source. -/
def bellWake (s : State) : State := if pstate s = 4 then wakeSource 3 none s else s

/-- DOORBELL FOLIO: accepted at once; in Standby it waits for the first tick after the wake, and with Security's HCTL.ENABLE 0 no work starts
(R399). [log 69, DEDUCED] -/
def doDoorbellFolio (tag : BitVec 16) (v : BitVec 64) (s : State) : State :=
  if s.pwr.off then s
  else
    let s := complete 5 tag 0 [] [] s
    if !enabled s pgSec then bellWake s
    else if pstate s = 4 then bellWake (pwrMod (fun p => { p with folioHeld := p.folioHeld ++ [v] }) s)
    else
      let s := secMod (fun x => { x with doorbells := x.doorbells ++ [v] }) s
      runBells s.sec.doorbells.length s

/-- DOORBELL WAKE. [log 69, DEDUCED] -/
def doDoorbellWake (tag : BitVec 16) (s : State) : State :=
  if s.pwr.off then s else bellWake (complete 5 tag 0 [] [] s)

/-- DOORBELL PING: the tick number and the power state. -/
def doDoorbellPing (tag : BitVec 16) (s : State) : State :=
  if s.pwr.off then s else bellWake (complete 5 tag 0 [s.tick.toNat, pstate s] [] s)

/-! ### Messages (Table 14-4, R374) -/

/-- A message received whole: its header flit and its payload. [log 69, DEDUCED] -/
def request (m : List Line) (s : State) : State :=
  let h := (m.headD 0).toNat
  let cls := bitsOf h 0 4
  let tag := BitVec.ofNat 16 (bitsOf h 16 16)
  let len := bitsOf h 32 16
  let addr := bitsOf h 64 64
  let arg (byte n : Nat) : Nat := bitsOf h (8 * byte) (8 * n)
  let code (st : Nat) : State := complete cls tag st [] [] s
  if bitsOf h 4 1 = 1 then code 5
  else if cls = 1 then (if len ≠ 0 then code 6 else doRegRd tag addr (arg 16 2) s)
  else if cls = 2 then
    if len ≠ 4 * arg 16 2 then code 6
    else
      let bs := (m.drop 1).flatMap bytesOfLine
      doRegWr tag addr (arg 16 2) ((List.range (arg 16 2)).map fun i => BitVec.ofNat 32 (wordAt bs (4 * i))) s
  else if cls = 3 then (if len = 0 ∨ len % 64 ≠ 0 ∨ 4096 < len then code 6 else doBlkWr tag addr (m.drop 1) s)
  else if cls = 4 then (if len ≠ 0 then code 6 else doBlkRd tag addr (arg 16 2) s)
  else if cls = 5 then
    if len ≠ 0 then code 6
    else if arg 16 1 = 1 then doDoorbellFolio tag (BitVec.ofNat 64 (arg 24 8)) s
    else if arg 16 1 = 2 then doDoorbellWake tag s
    else if arg 16 1 = 3 then doDoorbellPing tag s
    else if s.pwr.off then s
    else bellWake (code 5)
  else code 5

/-- Flits of the message that a header flit begins: at most 65. -/
def messageFlits (h : Line) : Nat := 1 + min 64 ((bitsOf h.toNat 32 16 + 63) / 64)

/-- Flits of a channel consumed. -/
def freeFlits (c n : Nat) : State → State := vilMod fun v => { v with freed := tabMod (fun _ => 0) v.freed c (· + n) }

/-- Requests of channel 0 that a fence holds: those from the first DOORBELL on that came after the header of a BLK_WR still under way
(R378). -/
def drainWaiting : Nat → State → State
  | 0, s => s
  | n + 1, s =>
    match s.vil.waiting with
    | [] => s
    | m :: t =>
      if !s.vil.part1.isEmpty && decide (bitsOf (m.headD 0).toNat 0 4 = 5) then s
      else drainWaiting n (request m (freeFlits 0 m.length (vilMod (fun v => { v with waiting := t }) s)))

/-- A message flit of a downstream channel arrives. -/
def takeFlit (c : Nat) (l : Line) (s : State) : State :=
  if c = 0 then
    let p := s.vil.part0 ++ [l]
    if p.length < messageFlits (p.headD 0) then vilMod (fun v => { v with part0 := p }) s
    else
      let s := vilMod (fun v => { v with part0 := [], waiting := v.waiting ++ [p] }) s
      drainWaiting s.vil.waiting.length s
  else
    let p := s.vil.part1 ++ [l]
    if p.length < messageFlits (p.headD 0) then vilMod (fun v => { v with part1 := p }) s
    else
      let s := request p (freeFlits 1 p.length (vilMod (fun v => { v with part1 := [] }) s))
      drainWaiting s.vil.waiting.length s

/-! ### Blocks (R365-R369) -/

/-- The two codewords of a lane decoded (R366): its bytes, and how many were corrected. -/
def vilLane (l : List Byte) : Option (List Nat × Nat) :=
  if l.length ≠ 272 then none
  else
    let even := (List.range 136).map fun i => (l.getD (2 * i) 0).toNat
    let odd := (List.range 136).map fun i => (l.getD (2 * i + 1) 0).toNat
    match rsDecode 4 even, rsDecode 4 odd with
    | some a, some b => some ((List.range 272).map fun i => (if i % 2 = 0 then a.1 else b.1).getD (i / 2) 0, a.2 + b.2)
    | _, _ => none

/-- Corrected bytes of a lane (LANECE): of each codeword that decodes. -/
def vilFixed (l : List Byte) : Nat :=
  if l.length ≠ 272 then 0
  else
    ([0, 1].filterMap fun o => (rsDecode 4 ((List.range 136).map fun i => (l.getD (2 * i + o) 0).toNat)).map (·.2)).foldl (· + ·) 0

/-- The flit of a slot (R365). -/
def vilFlit (ls : List (List Nat)) (k : Nat) : Line :=
  lineOfBytes ((List.range 64).map fun j => BitVec.ofNat 8 ((ls.getD (j % 4) []).getD (16 * k + j / 4) 0))

/-- The flits of a block that is intact. -/
def vilFlits (ds : List (Option (List Nat × Nat))) : Option (List Line) :=
  if ds.all (·.isSome) then
    let ls := ds.filterMap fun d => d.map (·.1)
    let fs := (List.range 17).map (vilFlit ls)
    let c := bytesOfLine (fs.getD 16 0)
    if crc32 ((fs.take 16).flatMap bytesOfLine ++ c.take 28) = BitVec.ofNat 32 (leAt c 28 4) then some fs else none
  else none

/-- Physical lane of a received logical lane (R365). -/
def vilPhys (s : State) (i : Nat) : Nat :=
  ((List.range 5).filter fun l => decide (l ≠ fget s pgVilri 0x44 5 3)).getD i 4

/-- A block that is not intact (R368): the next control flit carries NAK; the eighth NAK of a block takes the link down. [log 70, DEDUCED] -/
def vilNak (s : State) : State :=
  let s := finc pgVilri 0x58 16 16 1 (vilMod (fun v => { v with nak := true, nakDue := true, nakRun := v.nakRun + 1, replays := v.replays + 1 }) s)
  if 8 ≤ s.vil.nakRun then doVilriLinkDown s else s

/-- The control fields of an intact block (Table 14-2): acknowledgement, NAK, excluded lane, credits. The first block that begins 40.96 ns
or more after a NAK is the third (R368). The eighth NAK in a row of one block, none of whose resends was intact, takes the link down (R371). [log 70, DEDUCED; 97, DESIGN CHOICE] -/
def vilControl (c : Line) (s : State) : State :=
  let v := c.toNat
  let ack := BitVec.ofNat 32 (bitsOf v 32 32)
  let nak := decide (bitsOf v 64 1 = 1)
  let open' (b : SentBlock) : Bool := decide (2 ^ 31 ≤ (ack - b.seq).toNat)
  let s := foldS (s.vil.kept.filter fun b => !open' b) verdictEnds s
  let s := vilMod (fun x =>
    { x with ackIn := ack, kept := x.kept.filter open', nakAck := ack
             nakIn := if nak then (if x.nakAck = ack then x.nakIn + 1 else 1) else if x.nakAck = ack then x.nakIn else 0
             credIn := (List.range 4).foldl (fun t i => tabSet (fun _ => 0) t i (bitsOf v (96 + 16 * i) 16)) x.credIn }) s
  if 8 ≤ s.vil.nakIn then doVilriLinkDown s else
  let s := whenS nak
    (vilMod fun x => { x with replays := x.replays + 1, rpl := if ack = x.txSeq then none else some (ack + 1), rplWait := 2 }) s
  let ex := bitsOf v 72 3
  let s := whenS (decide (ex < 4 ∧ ex ≠ fget s pgVilri 0x44 2 3))
    (vilMod fun x => { x with exclAt := some (ex, BitVec.ofNat 16 (bitsOf v 80 16)) }) s
  flushCpl s.vil.cplQ.length s

/-- The message flits of an accepted block. -/
def vilAccept (fs : List Line) (s : State) : State :=
  let c := (fs.getD 16 0).toNat
  let s := vilMod (fun x => { x with rxSeq := BitVec.ofNat 32 (bitsOf c 0 32), nak := false, nakRun := 0 }) s
  foldS (List.range 16) (fun i s =>
    let ch := bitsOf c (160 + 4 * i) 4
    if ch < 2 then takeFlit ch (fs.getD i 0) s else s) s

/-- Lanes whose codewords failed in 4 of the last 1,024 blocks are announced for replacement 64 blocks ahead (R369). [log 70, DEDUCED] -/
def vilWatch (failed : List Nat) (s : State) : State :=
  let n := s.vil.blocks
  let s := vilMod (fun v =>
    { v with laneFails := (v.laneFails.filter fun f => decide (n < f.2 + 1024)) ++ failed.map fun l => (l, n) }) s
  match failed.find? fun l => decide (4 ≤ (s.vil.laneFails.filter fun f => decide (f.1 = l)).length) with
  | some l => doVilriLaneReplace false l s
  | none => s

/-- An announced lane is replaced before the block of its BSEQ. [log 70, DEDUCED] -/
def vilSwitch (s : State) : State :=
  match s.vil.swLane with
  | some (l, b) => if (BitVec.setWidth 16 (s.vil.rxSeq + 1) - BitVec.ofNat 16 b).toNat < 2 ^ 15 then vilBind false l s else s
  | none => s

/-- VILRI_BLOCK (R365-R369): a block that is not intact is NAKed; until the resend begins, messages are discarded and only the
control fields of intact blocks act. [log 70, DEDUCED] -/
def doVilriBlock (lanes : List (List Byte)) (s : State) : State :=
  if !vilriUp s then s
  else
    let ds := (List.range 4).map fun i => vilLane (lanes.getD i [])
    let s := vilMod (fun v => { v with blocks := v.blocks + 1 }) s
    let s := foldS (List.range 4) (fun i s => finc pgVilri (0x60 + 4 * vilPhys s i) 0 32 (vilFixed (lanes.getD i [])) s) s
    let failed := ds.zipIdx.filterMap fun x => if x.1.isNone then some (vilPhys s x.2) else none
    let s := match vilFlits ds with
      | none => vilNak s
      | some fs =>
        let c := fs.getD 16 0
        let seq := BitVec.ofNat 32 (bitsOf c.toNat 0 32)
        let again := decide (bitsOf c.toNat 65 1 = 1)
        if bitsOf c.toNat 66 1 = 1 then s
        else
          let s := vilControl c s
          if !vilriUp s then s
          else if seq = s.vil.rxSeq + 1 ∧ (s.vil.nak = false ∨ again = true) then vilAccept fs s
          else if s.vil.nak ∨ decide ((s.vil.rxSeq - seq).toNat < 256) then s
          else vilNak s
    let s := whenS (vilriUp s) (fun s => vilSwitch (vilWatch failed s)) s
    whenS (vilriUp s) vilSend s

/-- REG_RD. -/
def execRegRd (tag : BitVec 16) (addr : BitVec 64) (nreg : BitVec 16) (s : State) : Res :=
  .next (doRegRd tag addr.toNat nreg.toNat s)
/-- REG_WR. -/
def execRegWr (tag : BitVec 16) (addr : BitVec 64) (nreg : BitVec 16) (values : List (BitVec 32)) (s : State) : Res :=
  .next (doRegWr tag addr.toNat nreg.toNat values s)
/-- BLK_WR. -/
def execBlkWr (tag : BitVec 16) (addr : BitVec 64) (lines : List Line) (s : State) : Res :=
  .next (doBlkWr tag addr.toNat lines s)
/-- BLK_RD. -/
def execBlkRd (tag : BitVec 16) (addr : BitVec 64) (len : BitVec 16) (s : State) : Res :=
  .next (doBlkRd tag addr.toNat len.toNat s)
/-- DOORBELL_FOLIO. -/
def execDoorbellFolio (tag : BitVec 16) (value : BitVec 64) (s : State) : Res := .next (doDoorbellFolio tag value s)
/-- DOORBELL_WAKE. -/
def execDoorbellWake (tag : BitVec 16) (s : State) : Res := .next (doDoorbellWake tag s)
/-- DOORBELL_PING. -/
def execDoorbellPing (tag : BitVec 16) (s : State) : Res := .next (doDoorbellPing tag s)
/-- The requests that a lost link left complete are executed; no completion is sent (R385). -/
def runOwed (s : State) : State := foldS s.vil.owed request (vilMod (fun v => { v with owed := [] }) s)

/-- VILRI_BLOCK. -/
def execVilriBlock (lanes : List (List Byte)) (s : State) : Res := .next (runOwed (doVilriBlock lanes s))
/-- VILRI_RETRAIN. -/
def execVilriRetrain (s : State) : Res := .next (doVilriRetrain (runOwed (whenS (!s.pwr.off && enabled s pgVilri) doVilriLinkDown s)))
/-- VILRI_TRAINING_RESTART. -/
def execVilriTrainingRestart (s : State) : Res := .next (doVilriTrainingRestart (runOwed s))
/-- VILRI_LINK_UP. -/
def execVilriLinkUp (lanes : BitVec 3) (skew rtt : BitVec 16) (adv : List (BitVec 16)) (s : State) : Res :=
  .next (doVilriLinkUp lanes.toNat skew.toNat rtt.toNat adv (runOwed s))
/-- VILRI_LINK_DOWN. -/
def execVilriLinkDown (s : State) : Res := .next (runOwed (doVilriLinkDown s))
/-- VILRI_LANE_REPLACE. -/
def execVilriLaneReplace (tx : Bool) (lane : BitVec 3) (s : State) : Res :=
  .next (runOwed (whenS (decide (lane.toNat < 5)) (doVilriLaneReplace tx lane.toNat) s))

end Sys2Proof.Machine
end

