-- ==== Sys2Proof/Machine/Sideband.lean ====
section
/-! DEFINITION. The I²C sideband and the JTAG port (spec/17_module_physical.md R447-R452). -/

namespace Sys2Proof.Machine

/-! ### Sideband -/

/-- The sideband answers: not in Off, and from the end of cold-boot stage A on (R447). [log 81, DEDUCED] -/
def sbOn (s : State) : Bool := !s.pwr.off && !(decide (pstate s = 1) && decide (stageSeen s ≤ 1))

/-- What the module returns to a transaction whose bytes so far, after the address byte, are `cmd`: the data and its PEC. [log 81, DEDUCED] -/
def sbReply (cmd data : List Byte) (s : State) : State :=
  emit (.sideband (data ++ [crc8 ((0xB8 : Byte) :: cmd ++ (0xB9 : Byte) :: data)])) s

/-- READ (R448, R449): STATUS and a register. A transaction whose PEC fails changes nothing, so HI stays as latched. -/
def doRead (addr : Nat) (pecOk : Bool) (s : State) : State :=
  if !sbOn s then s
  else
    let cmd := leBytes 1 1 ++ leBytes 3 addr
    let reply (st : Nat) (v : Word) : State → State := sbReply cmd (leBytes 1 (if pecOk then st else 8) ++ leBytes 4 v.toNat)
    if addr % 4 ≠ 0 then reply 3 0 s
    else if pageAsleep s (addr / 4096) then reply 2 0 s
    else
      let r := regRead true addr s
      reply 0 r.1 (if pecOk then r.2 else { r.2 with hiLatchSb := s.hiLatchSb })

/-- Registers the sideband may write (R449). -/
def sbWritable (addr : Nat) : Bool :=
  let p := addr / 4096
  let off := addr % 4096
  (p = pgMod && (decide (off = 0x44) || decide (off = 0x48))) || (decide (p = pgCur) && decide (off = 0x40)) ||
    (decide (pgZone 0 ≤ p) && decide (p ≤ pgZone 3) && decide (off = 0x40)) || (decide (p = pgErr) && decide (off = 0x5C)) ||
    ((pageOf p).isSome && (decide (off = 0x10) || decide (off = 0x1C)))

/-- STATUS of the last WRITE. -/
def putWstat (v : Nat) : State → State := pwrMod fun p => { p with wstat := BitVec.ofNat 8 v }

/-- WRITE (R448, R449): one whose PEC fails is not carried out. -/
def doWrite (addr : Nat) (v : Word) (pecOk : Bool) (s : State) : State :=
  if !sbOn s then s
  else if !pecOk then putWstat 8 s
  else if addr % 4 ≠ 0 then putWstat 3 s
  else if !sbWritable addr then putWstat 7 s
  else if pageAsleep s (addr / 4096) then putWstat 2 s
  else
    let r := regWrite 1 addr v s
    putWstat (b2n r.2) r.1

/-- WSTAT. -/
def doWstat (s : State) : State := if sbOn s then sbReply (leBytes 1 3) [s.pwr.wstat] s else s

/-- The 32 bytes of SUMMARY (Table 17-6). [log 81, DEDUCED] -/
def summaryBytes (vin iin : Nat) (s : State) : List Byte :=
  let alert := rget s pgMod 0x48
  leBytes 1 (rget s pgMod 0x40).toNat ++ leBytes 2 (rget s pgSec 0xBC).toNat ++
    leBytes 1 (fget s pgErr 0x5C 0 3 + 8 * b2n (vilriUp s)) ++ leBytes 2 (fget s pgErr 0x5C 16 16) ++
    leBytes 4 (rget s pgErr 0x4C).toNat ++ leBytes 2 (fget s pgCur 0x74 0 16) ++
    ((List.range 4).flatMap fun z => leBytes 1 (fget s (pgZone z) 0x48 0 8)) ++
    leBytes 1 ((List.range 4).foldl (fun a h => (List.range 26).foldl (fun a k => max a (fget s (pgMc h k) 0x58 0 8)) a) 0) ++
    leBytes 1 (fget s pgCur 0xA8 0 8) ++ leBytes 1 (fget s pgCur 0xA8 8 8) ++ leBytes 2 (fget s pgCur 0xA8 16 16) ++
    leBytes 1 (fget s pgMod 0xB8 0 7) ++ leBytes 1 (bitsOf alert.toNat 8 5 + 32 * b2n s.pwr.thermTrip) ++
    leBytes 2 vin ++ leBytes 2 iin ++ leBytes 1 0 ++ leBytes 4 s.tick.toNat

/-- SUMMARY (R450). [log 81, DEDUCED] -/
def doSummary (vin iin : Nat) (s : State) : State :=
  if sbOn s then sbReply (leBytes 1 0x10) (summaryBytes vin iin s) s else s

/-! ### JTAG (R451): `tap` numbers the instruction in the register: 0 IDCODE, 1 BYPASS, 2 SAMPLE/PRELOAD, 3 EXTEST, 4 CLAMP -/

/-- The TAP has power. [log 82, DESIGN CHOICE] -/
def tapOn (s : State) : Bool := s.pwr.inputOk

/-- An instruction goes into the TAP's register, and the register it selects stands between TDI and TDO: the identification, the bypass
register (BYPASS, CLAMP) or the boundary-scan register (SAMPLE/PRELOAD, EXTEST). Under EXTEST and CLAMP the pins are driven. [log 82, DESIGN CHOICE] -/
def tapPut (v : Nat) (s : State) : State :=
  if tapOn s then
    pwrMod (fun p => { p with tap := v, bypass := decide (v = 1) || decide (v = 4), scanDrive := decide (v = 3) || decide (v = 4) }) s
  else s

/-- A scan of the boundary-scan register: it captures the signals, shifts them out while the tester's bits come in, and these go into
its hold stage. [log 82, DESIGN CHOICE] -/
def tapScan (s : State) : State :=
  if tapOn s then
    let (a, s) := takeFree s
    let (b, s) := takeFree s
    emit (.scan (Config.scanBits a)) (pwrMod (fun p => { p with scanReg := Config.scanBits b, scanHold := Config.scanBits b }) s)
  else s

/-- SAMPLE/PRELOAD: the signals are sampled, and the hold stage is loaded for EXTEST and CLAMP. -/
def doSamplePreload (s : State) : State := tapScan (tapPut 2 s)

/-- TRST_N: the register holds IDCODE. [log 82, DESIGN CHOICE] -/
def doTapReset (s : State) : State := tapPut 0 s

/-- IDCODE: the identification is shifted out. [log 82, DESIGN CHOICE] -/
def doIdcode (s : State) : State := if tapOn s then emit (.idcode Config.jtagIdcode) (tapPut 0 s) else s

/-- EXTEST and CLAMP are accepted only in Off with the input in range, or in Fault-hold. -/
def tapTakes (s : State) : Bool := (s.pwr.off && s.pwr.inputOk) || (!s.pwr.off && decide (pstate s = 5))

/-- EXTEST: the pins are driven from the hold stage, and the scan samples them and loads the next levels. [log 82, DESIGN CHOICE] -/
def doExtest (s : State) : State := if tapTakes s then tapScan (tapPut 3 s) else s

/-- CLAMP: the pins stay driven from the hold stage while the bypass register is selected. [log 82, DESIGN CHOICE] -/
def doClamp (s : State) : State := if tapTakes s then tapPut 4 s else s

/-- READ. -/
def execRead (addr : BitVec 24) (pecOk : Bool) (s : State) : Res := .next (doRead addr.toNat pecOk s)
/-- WRITE. -/
def execWrite (addr : BitVec 24) (value : BitVec 32) (pecOk : Bool) (s : State) : Res := .next (doWrite addr.toNat value pecOk s)
/-- WSTAT. -/
def execWstat (s : State) : Res := .next (doWstat s)
/-- SUMMARY: the block has no STATUS byte, so a PEC that fails changes nothing it returns. -/
def execSummary (vin : BitVec 16) (iin : BitVec 16) (_pecOk : Bool) (s : State) : Res := .next (doSummary vin.toNat iin.toNat s)
/-- TAP_RESET. -/
def execTapReset (s : State) : Res := .next (doTapReset s)
/-- BYPASS. -/
def execBypass (s : State) : Res := .next (tapPut 1 s)
/-- IDCODE. -/
def execIdcode (s : State) : Res := .next (doIdcode s)
/-- SAMPLE_PRELOAD. -/
def execSamplePreload (s : State) : Res := .next (doSamplePreload s)
/-- EXTEST. -/
def execExtest (s : State) : Res := .next (doExtest s)
/-- CLAMP. -/
def execClamp (s : State) : Res := .next (doClamp s)

end Sys2Proof.Machine
end

