-- ==== Sys2Proof/Machine/Dispatch.lean ====
section
/-! DEFINITION. One arm per command of the table: the call of its meaning. -/

namespace Sys2Proof.Machine

open Sys2Proof

def exec (i : Instr) (s : State) : Host.Outcome State Fault Refusal :=
  match i with
  | .nop h => Sys2Proof.Machine.execNop h s
  | .lds h o => Sys2Proof.Machine.execLds h o s
  | .pass h o => Sys2Proof.Machine.execPass h o s
  | .drain h o => Sys2Proof.Machine.execDrain h o s
  | .drainr h o => Sys2Proof.Machine.execDrainr h o s
  | .bal h g => Sys2Proof.Machine.execBal h g s
  | .vop h o => Sys2Proof.Machine.execVop h o s
  | .vred h o => Sys2Proof.Machine.execVred h o s
  | .cvt h o => Sys2Proof.Machine.execCvt h o s
  | .sfn h o => Sys2Proof.Machine.execSfn h o s
  | .gact h o => Sys2Proof.Machine.execGact h o s
  | .smx h o => Sys2Proof.Machine.execSmx h o s
  | .nrm h o => Sys2Proof.Machine.execNrm h o s
  | .qclr h o => Sys2Proof.Machine.execQclr h o s
  | .qmac h o => Sys2Proof.Machine.execQmac h o s
  | .qacc h o => Sys2Proof.Machine.execQacc h o s
  | .qrnd h o => Sys2Proof.Machine.execQrnd h o s
  | .scl h o => Sys2Proof.Machine.execScl h o s
  | .stat h o => Sys2Proof.Machine.execStat h o s
  | .mov h o => Sys2Proof.Machine.execMov h o s
  | .csend h o => Sys2Proof.Machine.execCsend h o s
  | .crecv h o => Sys2Proof.Machine.execCrecv h o s
  | .qadd h o => Sys2Proof.Machine.execQadd h o s
  | .chk h kind => Sys2Proof.Machine.execChk h kind s
  | .loop h o => Sys2Proof.Machine.execLoop h o s
  | .endl h => Sys2Proof.Machine.execEndl h s
  | .wtick h => Sys2Proof.Machine.execWtick h s
  | .yield h step => Sys2Proof.Machine.execYield h step s
  | .halt h => Sys2Proof.Machine.execHalt h s
  | .passCommit leng => Sys2Proof.Machine.execPassCommit leng s
  | .passFault f => Sys2Proof.Machine.execPassFault f s
  | .rowCheckComplete leng errs => Sys2Proof.Machine.execRowCheckComplete leng errs s
  | .retract leng m => Sys2Proof.Machine.execRetract leng m s
  | .statReady leng seg => Sys2Proof.Machine.execStatReady leng seg s
  | .scaleRecordWrite leng => Sys2Proof.Machine.execScaleRecordWrite leng s
  | .statisticsTransfer slot late => Sys2Proof.Machine.execStatisticsTransfer slot late s
  | .chainArrival leng src ch cycle => Sys2Proof.Machine.execChainArrival leng src ch cycle s
  | .moverLineArrival xfer cycle => Sys2Proof.Machine.execMoverLineArrival xfer cycle s
  | .transferDeadline xfer => Sys2Proof.Machine.execTransferDeadline xfer s
  | .hubMoverEntry slot entry => Sys2Proof.Machine.execHubMoverEntry slot entry s
  | .idleRampDown leng => Sys2Proof.Machine.execIdleRampDown leng s
  | .tick env => Sys2Proof.Machine.execTick env s
  | .engineFrameStart leng => Sys2Proof.Machine.execEngineFrameStart leng s
  | .overrun leng => Sys2Proof.Machine.execOverrun leng s
  | .segmentCut leng => Sys2Proof.Machine.execSegmentCut leng s
  | .tickRephase count since => Sys2Proof.Machine.execTickRephase count since s
  | .tickInCapture offset wide => Sys2Proof.Machine.execTickInCapture offset wide s
  | .tickAlign master period aligned => Sys2Proof.Machine.execTickAlign master period aligned s
  | .stepLink slot sender stepCode atTick => Sys2Proof.Machine.execStepLink slot sender stepCode atTick s
  | .throttleFreeze zone cause time => Sys2Proof.Machine.execThrottleFreeze zone cause time s
  | .freezeRelease zone time => Sys2Proof.Machine.execFreezeRelease zone time s
  | .envelopeGuard p50us time => Sys2Proof.Machine.execEnvelopeGuard p50us time s
  | .junctionTrip tj => Sys2Proof.Machine.execJunctionTrip tj s
  | .refclkLost => Sys2Proof.Machine.execRefclkLost s
  | .completionMonitor leng seg => Sys2Proof.Machine.execCompletionMonitor leng seg s
  | .bgWatchdog leng => Sys2Proof.Machine.execBgWatchdog leng s
  | .testUnitComplete die peng outputs => Sys2Proof.Machine.execTestUnitComplete die peng outputs s
  | .catalogueEntryLost tid => Sys2Proof.Machine.execCatalogueEntryLost tid s
  | .jobLoad slot => Sys2Proof.Machine.execJobLoad slot s
  | .jobResume slot => Sys2Proof.Machine.execJobResume slot s
  | .jobUnload slot => Sys2Proof.Machine.execJobUnload slot s
  | .jobSlotReset slot => Sys2Proof.Machine.execJobSlotReset slot s
  | .jobPause slot => Sys2Proof.Machine.execJobPause slot s
  | .saveImageWrite slot => Sys2Proof.Machine.execSaveImageWrite slot s
  | .jobCont slot => Sys2Proof.Machine.execJobCont slot s
  | .testctlSweep => Sys2Proof.Machine.execTestctlSweep s
  | .alertClear => Sys2Proof.Machine.execAlertClear s
  | .blockReset page => Sys2Proof.Machine.execBlockReset page s
  | .engineReset die peng => Sys2Proof.Machine.execEngineReset die peng s
  | .catalogueSel tid => Sys2Proof.Machine.execCatalogueSel tid s
  | .retire hub pkg => Sys2Proof.Machine.execRetire hub pkg s
  | .attestationRequest => Sys2Proof.Machine.execAttestationRequest s
  | .attestationReport => Sys2Proof.Machine.execAttestationReport s
  | .registerWrite addr value => Sys2Proof.Machine.execRegisterWrite addr value s
  | .pwrctlStby => Sys2Proof.Machine.execPwrctlStby s
  | .pwrctlWake => Sys2Proof.Machine.execPwrctlWake s
  | .wrst env => Sys2Proof.Machine.execWrst env s
  | .stbyReqNFall => Sys2Proof.Machine.execStbyReqNFall s
  | .stbyReqNRise => Sys2Proof.Machine.execStbyReqNRise s
  | .wakeNFall => Sys2Proof.Machine.execWakeNFall s
  | .standbyEntry => Sys2Proof.Machine.execStandbyEntry s
  | .wakeStage us => Sys2Proof.Machine.execWakeStage us s
  | .firstActiveTick env => Sys2Proof.Machine.execFirstActiveTick env s
  | .nightDeskBlock samples count => Sys2Proof.Machine.execNightDeskBlock samples count s
  | .coolantSample inlet outlet flow => Sys2Proof.Machine.execCoolantSample inlet outlet flow s
  | .accLinkStart port => Sys2Proof.Machine.execAccLinkStart port s
  | .accLinkStop port => Sys2Proof.Machine.execAccLinkStop port s
  | .arm port => Sys2Proof.Machine.execArm port s
  | .sysrefEdge port onPhase obs => Sys2Proof.Machine.execSysrefEdge port onPhase obs s
  | .accLinkDown port => Sys2Proof.Machine.execAccLinkDown port s
  | .accRelock port holdover => Sys2Proof.Machine.execAccRelock port holdover s
  | .crcerr port lane first last => Sys2Proof.Machine.execCrcerr port lane first last s
  | .windowEdge port count => Sys2Proof.Machine.execWindowEdge port count s
  | .tileReady port first codes => Sys2Proof.Machine.execTileReady port first codes s
  | .captureRingWrite port dec index codes upto accepted => Sys2Proof.Machine.execCaptureRingWrite port dec index codes upto accepted s
  | .ringStop port next => Sys2Proof.Machine.execRingStop port next s
  | .rawstop port => Sys2Proof.Machine.execRawstop port s
  | .ringStart port front => Sys2Proof.Machine.execRingStart port front s
  | .refreshPosition hub => Sys2Proof.Machine.execRefreshPosition hub s
  | .scrub hub group corrected => Sys2Proof.Machine.execScrub hub group corrected s
  | .poisonWriteback addr => Sys2Proof.Machine.execPoisonWriteback addr s
  | .packageRetirement hub pkg cause => Sys2Proof.Machine.execPackageRetirement hub pkg cause s
  | .packageCopyComplete hub => Sys2Proof.Machine.execPackageCopyComplete hub s
  | .abfoldPortEnable port => Sys2Proof.Machine.execAbfoldPortEnable port s
  | .abfoldPortDisable port => Sys2Proof.Machine.execAbfoldPortDisable port s
  | .abfoldRetrain port => Sys2Proof.Machine.execAbfoldRetrain port s
  | .abfoldTrainingEnd port lanes locked pmod pdim pshare latency => Sys2Proof.Machine.execAbfoldTrainingEnd port lanes locked pmod pdim pshare latency s
  | .abfoldBlock port lanes => Sys2Proof.Machine.execAbfoldBlock port lanes s
  | .abfoldLaneReplace port lane => Sys2Proof.Machine.execAbfoldLaneReplace port lane s
  | .abfoldPortDown port => Sys2Proof.Machine.execAbfoldPortDown port s
  | .wr p cycle late => Sys2Proof.Machine.execWr p cycle late s
  | .rdreq p cycle late => Sys2Proof.Machine.execRdreq p cycle late s
  | .rdresp p cycle late => Sys2Proof.Machine.execRdresp p cycle late s
  | .qaddPacket p cycle late => Sys2Proof.Machine.execQaddPacket p cycle late s
  | .regRd tag addr nreg => Sys2Proof.Machine.execRegRd tag addr nreg s
  | .regWr tag addr nreg values => Sys2Proof.Machine.execRegWr tag addr nreg values s
  | .blkWr tag addr lines => Sys2Proof.Machine.execBlkWr tag addr lines s
  | .blkRd tag addr len => Sys2Proof.Machine.execBlkRd tag addr len s
  | .doorbellFolio tag value => Sys2Proof.Machine.execDoorbellFolio tag value s
  | .doorbellWake tag => Sys2Proof.Machine.execDoorbellWake tag s
  | .doorbellPing tag => Sys2Proof.Machine.execDoorbellPing tag s
  | .event => Sys2Proof.Machine.execEvent s
  | .verdict => Sys2Proof.Machine.execVerdict s
  | .log => Sys2Proof.Machine.execLog s
  | .vilriBlock lanes => Sys2Proof.Machine.execVilriBlock lanes s
  | .vilriLaneReplace tx lane => Sys2Proof.Machine.execVilriLaneReplace tx lane s
  | .vilriRetrain => Sys2Proof.Machine.execVilriRetrain s
  | .vilriTrainingRestart => Sys2Proof.Machine.execVilriTrainingRestart s
  | .vilriLinkUp lanes skew rtt adv => Sys2Proof.Machine.execVilriLinkUp lanes skew rtt adv s
  | .vilriLinkDown => Sys2Proof.Machine.execVilriLinkDown s
  | .coldBoot env => Sys2Proof.Machine.execColdBoot env s
  | .trainingFolioWrite => Sys2Proof.Machine.execTrainingFolioWrite s
  | .resetN p => Sys2Proof.Machine.execResetN p s
  | .powerOff => Sys2Proof.Machine.execPowerOff s
  | .inputOutOfRange => Sys2Proof.Machine.execInputOutOfRange s
  | .inputInRange => Sys2Proof.Machine.execInputInRange s
  | .read addr pecOk => Sys2Proof.Machine.execRead addr pecOk s
  | .write addr value pecOk => Sys2Proof.Machine.execWrite addr value pecOk s
  | .wstat => Sys2Proof.Machine.execWstat s
  | .summary vin iin pecOk => Sys2Proof.Machine.execSummary vin iin pecOk s
  | .tapReset => Sys2Proof.Machine.execTapReset s
  | .bypass => Sys2Proof.Machine.execBypass s
  | .idcode => Sys2Proof.Machine.execIdcode s
  | .samplePreload => Sys2Proof.Machine.execSamplePreload s
  | .extest => Sys2Proof.Machine.execExtest s
  | .clamp => Sys2Proof.Machine.execClamp s
  | .zoneRailOrClockFault zone => Sys2Proof.Machine.execZoneRailOrClockFault zone s
  | .hubFault hub => Sys2Proof.Machine.execHubFault hub s
  | .dieFault die => Sys2Proof.Machine.execDieFault die s
  | .bootStoreWrite ok => Sys2Proof.Machine.execBootStoreWrite ok s

end Sys2Proof.Machine
end

