-- ==== Sys2Proof/Safety.lean ====
section
/-! DEFINITION. What the statements call a safe state and a legal register file. -/

namespace Sys2Proof.Machine

/-- The Stacks keep their canonical form: offsets rise strictly, and no byte that is listed is 0. -/
abbrev Memory.wf (s : State) : Prop := tabWf (fun _ => (0 : Byte)) s.dram = true

/-- The registers' and shadows' tables, and the captured values', are in canonical form: keys rise strictly, and no entry equals what an
unlisted register reads as. -/
abbrev tablesWf (s : State) : Prop :=
  Memory.wf s ∧ tabWf regReset s.regs = true ∧ tabWf (fun _ => none) s.shadow = true ∧ tabWf (fun _ => none) s.captured = true

/-- The next command of the queue, if there is one, is one that a loaded image or a module can hold. -/
def frontWf (s : State) : Bool :=
  match s.pending with
  | [] => true
  | c :: _ => c.wf

/-- The state runs on: its next step answers a state, neither a fault nor a refusal. -/
def runsOn (s : State) : Bool :=
  match step s with
  | .next _ => true
  | .fault _ => false
  | .refused _ => false

/-- The byte of the Stacks at an offset (R321). -/
def stkByte (s : State) (a : Nat) : Byte := tabGet (fun _ => 0) s.dram a

/-- An offset lies in the Errata ring in the Stacks (R253): 65,536 records of 64 bytes from RINGBASE on. -/
def inErrataRing (s : State) (a : Nat) : Prop :=
  (rget64 s pgErr 0x40).toNat ≤ a ∧ a < (rget64 s pgErr 0x40).toNat + 64 * 65536

/-- Every byte of the Stacks outside the Errata ring is kept. -/
def stacksKept (s t : State) : Prop := ∀ a, ¬ inErrataRing s a → stkByte t a = stkByte s a

/-- Every register of a page is kept. -/
def pageKept (p : Nat) (s t : State) : Prop := ∀ off, off < 4096 → rget t p off = rget s p off

/-- The clocks, the Catalogue, the Accession ports, the stores and the control units are kept: nothing of the state outside the
engines, the jobs' records, the registers and the logs changes. -/
def machineKept (s t : State) : Prop :=
  t.pending = s.pending ∧ t.tick = s.tick ∧ t.refTick = s.refTick ∧ t.ftimeAt = s.ftimeAt ∧ t.phaseK = s.phaseK ∧
    t.shadow = s.shadow ∧ t.captured = s.captured ∧ t.hiLatch = s.hiLatch ∧ t.hiLatchSb = s.hiLatchSb ∧ t.env = s.env ∧ t.stagedLo = s.stagedLo ∧ t.zones = s.zones ∧
    t.store = s.store ∧ t.cat = s.cat ∧ t.accs = s.accs ∧ t.sec = s.sec ∧ t.nd = s.nd ∧ t.cur = s.cur ∧
    t.aperture = s.aperture

/-- The segment of a logical engine (R26, R176). -/
def segOf (s : State) (leng : BitVec 6) (g : Seg) : SegSt := (eng s (storeKey s leng.toNat)).seg g

/-- The segment issues, with no slot reset waiting for its pass boundary (R27), and the page of the instruction's unit is enabled
(R171, R399): pages 0 SEQ, 1 ARRAY, 2 VEC, 5 CHECK, 6 SCALE. -/
def issues (s : State) (h : IssueHdr) (page : Nat) : Bool :=
  live s h.leng.toNat h.seg && enabled s (pgEng (execKey s h.leng.toNat) page) && decide ((segOf s h.leng h.seg).stopAt = none)

/-- The program counter has moved past the word (R171). -/
def pcMoved (s t : State) (h : IssueHdr) : Prop := (segOf t h.leng h.seg).pc = (segOf s h.leng h.seg).pc + 1

/-- No write waits for a hold window's end, and the windows that open at the segment's next word meet no write under way (R197). -/
def holdsQuiet (s : State) (h : IssueHdr) : Prop :=
  (∀ w ∈ (eng s (storeKey s h.leng.toNat)).openH, w.pend = []) ∧
    metWrites (eng s (storeKey s h.leng.toNat)) h.seg (segOf s h.leng h.seg).pc (segOf s h.leng h.seg).loops
      ((segOf s h.leng h.seg).last + h.delay.toNat) = []

/-- The loaded tile and every pass in flight are formed of what their lines held in the cycles of their reads (R94, R95): nothing is
to be read again. -/
def formed (e : Eng) : Prop := e.tileStale = false ∧ ∀ f ∈ e.arr.flights, f.stale e = false

/-- The declared cycle of the next word of the segment (R171). -/
def declared (s : State) (h : IssueHdr) : Nat := (segOf s h.leng h.seg).last + h.delay.toNat

/-- The value of a lane register's lane, read by its own tag (R142, R185). -/
def laneOp (s : State) (k r l : Nat) : FVal := (vInAt s k true r .p32 (fun _ => 0) 0 l).v

/-- The lane registers a vector instruction writes (R142). -/
def regDests : EOp → List Nat
  | .vop o => if vopCmp.contains o.func.toNat then [] else if o.dk then [o.d.toNat % 16] else []
  | .vred o => if o.dk then [o.d.toNat % 16] else []
  | .cvt o => if o.dk then [o.d.toNat % 16] else []
  | .sfn o | .gact o => if o.dk then [o.d.toNat % 16] else []
  | .smx o => if o.ctl.getLsbD 5 && o.dk then [o.d.toNat % 16] else []
  | .nrm o => if o.ctl.toNat / 16 = 1 then [o.c.toNat, o.c.toNat + 1]
      else if o.ctl.toNat / 16 = 2 ∧ o.dk then [o.d.toNat % 16] else []
  | .qrnd o => if o.dk then [o.d.toNat % 16] else []
  | _ => []

/-- The lane quires a vector instruction writes. -/
def quireDests (g : Seg) : EOp → List Nat
  | .qclr o | .qmac o | .qacc o => [o.mlq.toNat]
  | .smx o => if o.ctl.getLsbD 5 then [] else [o.lq.toNat]
  | .nrm o => if o.ctl.toNat / 16 = 0 then [lqOf g, lqOf g + 1] else []
  | _ => []

/-- The mask registers a vector instruction writes. -/
def maskDests : EOp → List Nat
  | .vop o => if vopCmp.contains o.func.toNat then [o.mlq.toNat] else []
  | _ => []

/-- The shape of a vector instruction on a state. -/
def vecShape (s : State) (h : IssueHdr) : EOp → Option VShape
  | .vop o => some (vopShape o)
  | .vred o => some (vredShape o)
  | .cvt o => some (cvtShape o)
  | .sfn o => some (sfnShape o (compatOf s h.leng.toNat h.seg) s)
  | .gact o => some (gactShape o (compatOf s h.leng.toNat h.seg) s)
  | .smx o => some (smxShape o)
  | .nrm o => some (nrmShape o (o.ctl.toNat / 16))
  | .qclr o => some (qclrShape o)
  | .qmac o => some (qmacShape o)
  | .qacc o => some (qaccShape o)
  | .qrnd o => some (qrndShape o)
  | _ => none

/-- Why a vector instruction's own operands fault at issue, 0 where they do not (R119, R143). -/
def vecBad (s : State) (h : IssueHdr) : EOp → State → Ctx → Nat
  | .vop o => vopBad o
  | .vred o => vredBad o
  | .cvt o => cvtBad o
  | .sfn o =>
    let cp := compatOf s h.leng.toNat h.seg
    fBad o cp (ninTwo s o.ctl cp)
  | .gact o => fBad o (compatOf s h.leng.toNat h.seg) true
  | .smx o => smxBad o
  | .nrm o => nrmBad o (o.ctl.toNat / 16)
  | .qmac o => qmacBad o
  | .qacc o => qaccBad o
  | .qrnd o => qrndBad o
  | _ => fun _ _ => 0

/-- An image can hold a vector instruction: its operands pass the load checks, its program slot is filled (R159), an SFN's second operand is one that its program may have, and an IEEE stream
enters NRM only where the job has GENCOMPAT (R167). -/
def vecLoads (s : State) (h : IssueHdr) (o : EOp) : Bool :=
  (o.instr h).wf &&
    match o with
    | .sfn o => let cp := compatOf s h.leng.toNat h.seg; (sfuSteps s o.ctl cp).isSome && sfnArgB h.seg o cp s
    | .gact o => (sfuSteps s o.ctl (compatOf s h.leng.toNat h.seg)).isSome
    | .nrm o => o.ak || !(fmtD o.afmt).isIeee || compatOf s h.leng.toNat h.seg || decide (o.ctl.toNat / 16 = 1)
    | _ => true

/-- The elements that a vector instruction in `c` puts into its destination, and their format, on the state `u` in which the unit has
taken it: none where it puts none (a compare, an accumulation, NRM's finish, a CVT whose slot is invalid). -/
def vecOuts (s : State) (h : IssueHdr) (u : State) (c : Ctx) : EOp → Option (Fmt × List VRes)
  | .vop o => if vopCmp.contains o.func.toNat then none else some (fmtD o.dfmt, vopEls o u c)
  | .vred o => some (fmtD o.dfmt, (vredEls o u c).map (·.1))
  | .cvt o =>
    let sl := slotGet u c.k o.slot.toNat
    let x := cvtX u c o
    if o.sen && !sl.valid then none
    else some (fmtD o.dfmt, cvtEls o x.1 (if o.sen then sl.mark ||| x.2.2 else 0) u c)
  | .sfn o =>
    let cp := compatOf s h.leng.toNat h.seg
    some (fmtD o.dfmt, sfnEls o cp (sfnShape o cp s) u c)
  | .gact o =>
    let cp := compatOf s h.leng.toNat h.seg
    some (fmtD o.dfmt, gactEls o cp (gactShape o cp s) u c)
  | .smx o => if o.ctl.getLsbD 5 then some (fmtD o.dfmt, smxEls o (!r77 u h.leng.toNat h.seg) u c) else none
  | .nrm o => if o.ctl.toNat / 16 = 2 then some (fmtD o.dfmt, nrmEls o u c) else none
  | .qrnd o => some (fmtD o.dfmt, qrndEls o u c)
  | _ => none

/-- A Carrel line is one a vector instruction writes: of its stream destination at the loops' present indices (Table 7-3). -/
def vecWritesLine (s : State) (h : IssueHdr) (o : EOp) (line : Nat) : Prop :=
  ∃ x p, vecShape s h o = some x ∧ x.d = some p ∧
    (advance x.adv 2 (segOf s h.leng h.seg).loops p.1.toNat).toNat ≤ line ∧
    line < (advance x.adv 2 (segOf s h.leng h.seg).loops p.1.toNat).toNat + x.dLines

end Sys2Proof.Machine
end

