-- ==== Sys2Proof/Certificates/Slice0/Obligations.lean ====
section
/-! DEFINITION. The statements for the provers. Each says in its docstring which rules of spec/ it formalises. -/

open Sys2Proof Sys2Proof.Machine

/-- For every word of a posit format and every wider posit format, the word followed by zero bits stands for the same value (or
NaR), and rounding the value to the wider format gives that word. (R38) -/
def Obligations.PositWidening : Prop :=
  ∀ n m w : Nat, (n, m) ∈ [(8, 16), (8, 32), (16, 32)] → w < 2 ^ n →
    (roundPosit m (decodePosit n w)).1 = w * 2 ^ (m - n) ∧
    (decodePosit n w = .nan → decodePosit m (w * 2 ^ (m - n)) = .nan) ∧
    ∀ neg mag e, decodePosit n w = .num neg mag e → ∃ k : Nat, decodePosit m (w * 2 ^ (m - n)) = .num neg (mag * 2 ^ k) (e - k)

/-- An int4 or int8 word reads as its two's-complement integer, but for the codes 0b1000 and 0x80, which read as NaR. (R44) -/
def Obligations.IntegerCodes : Prop :=
  (∀ w, w < 16 → (readVal .int4 w).1 = if w = 8 then .nan else FVal.ofInt (if w < 8 then (w : Int) else (w : Int) - 16) 0) ∧
    ∀ w, w < 256 → (readVal .int8 w).1 = if w = 128 then .nan else FVal.ofInt (if w < 128 then (w : Int) else (w : Int) - 256) 0

/-- An LDS that issues without a fault leaves a tile with its format, fast bit and KSPLIT, and a read of ARRAY.MODE finds them.
A PASS that issues with another format (the pairs int4 with p8 and int8 with p16 count as a match), fast bit or KSPLIT than the
loaded tile's raises SCHED_FAULT, counted for its segment and on the engine's SEQ page (once where no CHK waits for the PASS and
no hold window turns a write under way away), and leaves its destination half invalid; said of a segment that is not stopped at
its pass boundary (R27). (R92) -/
def Obligations.TileFormats : Prop :=
  (∀ (h : IssueHdr) (o : LdsOp) (s : State) (c : Ctx), (Instr.lds h o).wf = true →
      issue .array (match (eng s (storeKey s h.leng.toNat)).arr.lastPass with
        | some (_, fe) => fe + 3
        | none => 0) h s = some c →
      ldsBad (settle c.k c.cyc (revealChk c c.s)) c o = 0 →
      ∃ t, exec (.lds h o) s = .next t ∧ (eng t c.k).arr.tile.fmt = fmtD o.fmt ∧ (eng t c.k).arr.tile.fast = o.fast ∧
        (eng t c.k).arr.tile.ksplit = 2 ^ o.ksplit.toNat ∧
        ∀ n, ∃ v, arrayView t c.k n 0x40 = some v ∧ bitsOf v 0 4 = o.fmt.toNat ∧ bitsOf v 4 1 = b2n o.fast ∧
          bitsOf v 5 2 = o.ksplit.toNat) ∧
    (∀ (h : IssueHdr) (o : PassOp) (s : State) (c : Ctx) (u : Tile), (Instr.pass h o).wf = true → issue .array 0 h s = some c →
      (segOf s h.leng h.seg).stopAt = none → u = (eng c.s c.k).arr.tile →
      ((fmtD o.fmt ≠ u.fmt ∧ ¬ (fmtD o.fmt ∈ [.p8, .int4] ∧ u.fmt ∈ [.p8, .int4]) ∧
          ¬ (fmtD o.fmt ∈ [.p16, .int8] ∧ u.fmt ∈ [.p16, .int8])) ∨ o.fast ≠ u.fast ∨ 2 ^ o.ksplit.toNat ≠ u.ksplit) →
      ∃ t, exec (.pass h o) s = .next t ∧ (segOf s h.leng h.seg).sfCount < (segOf t h.leng h.seg).sfCount ∧
        min (fget s (pgEng c.k 0) 0x68 0 32 + 1) (2 ^ 32 - 1) ≤ fget t (pgEng c.k 0) 0x68 0 32 ∧
        ((segOf s h.leng h.seg).chk = none → holdsQuiet s h → (segOf t h.leng h.seg).sfCount = (segOf s h.leng h.seg).sfCount + 1 ∧
          fget t (pgEng c.k 0) 0x68 0 32 = min (fget s (pgEng c.k 0) 0x68 0 32 + 1) (2 ^ 32 - 1)) ∧
        ((eng t c.k).arr.half o.dsth).valid = false) ∧
    (∀ f u, (f ∈ [.p8, .int4] ∧ u ∈ [.p8, .int4]) ∨ (f ∈ [.p16, .int8] ∧ u ∈ [.p16, .int8]) → fmtMatch f u = true)

/-- For every command c and every state whose queue is c followed by rest, step is exec of c on the state with the queue's rest;
on an empty queue step answers the state unchanged (the model's idle step, log entry 2). (00_scope.md) -/
def Obligations.StepRunsFront : Prop :=
  ∀ s : State, (∀ c rest, s.pending = c :: rest → step s = exec c { s with pending := rest }) ∧
    (s.pending = [] → step s = .next s)

/-- Whatever command exec runs, and in every state, a next state it answers has the queue it was given: step alone takes
commands from it (the model's queue, log entry 2). (00_scope.md) -/
def Obligations.ExecKeepsQueue : Prop :=
  ∀ (c : Instr) (s t : State), exec c s = .next t → t.pending = s.pending

/-- For every state in which the table of the Stacks, of the registers, of the shadows or of the captured values is in canonical
form (keys rise strictly; no listed byte of the Stacks is 0, no listed register has its reset value, no listed shadow or
captured value is absent), a next state that step answers has it in that form: each table for itself, whatever the others are.
(12_stacks_memory.md; 15_register_pages.md) -/
def Obligations.StepKeepsTableForms : Prop :=
  ∀ s t : State, step s = .next t →
    (Memory.wf s → Memory.wf t) ∧ (tabWf regReset s.regs = true → tabWf regReset t.regs = true) ∧
    (tabWf (fun _ => none) s.shadow = true → tabWf (fun _ => none) t.shadow = true) ∧
    (tabWf (fun _ => none) s.captured = true → tabWf (fun _ => none) t.captured = true)

/-- At State.reset the tick is 0, every byte of the Stacks reads 0, MOD.STATE.PSTATE is 1 (Boot), every register of an existing
page reads its reset value, all four job slots are free, the queue is empty, and the Stacks, registers, shadows and captured
values are in canonical form. (08_frame_tick_and_repeatability.md R199; 12_stacks_memory.md R321; 15_register_pages.md;
16_startup_and_identity.md) -/
def Obligations.ResetState : Prop :=
  State.reset.tick = 0 ∧ (∀ a, stkByte State.reset a = 0) ∧ pstate State.reset = 1 ∧
    (∀ p off, rget State.reset p off = regReset (ridx p off)) ∧ (∀ j, (job State.reset j).st = 0) ∧
    State.reset.pending = [] ∧ tablesWf State.reset

/-- For every DELAY and every engine instruction with any operands, decodeWord of encodeWord is that DELAY and instruction.
(07_engine_schedules.md R184; 07_engine_schedules.md R187; 07_engine_schedules.md Tables 7-4 to 7-11) -/
def Obligations.WordRoundTrip : Prop :=
  ∀ (d : BitVec 16) (o : EOp), decodeWord (encodeWord d o) = some (d, o)

/-- Every 128-bit word that decodes is the encoding of what it decodes to: a set reserved bit or an opcode outside Table 7-4
never decodes. (07_engine_schedules.md R184; 07_engine_schedules.md R187; 07_engine_schedules.md Tables 7-4 to 7-11) -/
def Obligations.WordCanonical : Prop :=
  ∀ (w : BitVec 128) (d : BitVec 16) (o : EOp), decodeWord w = some (d, o) → encodeWord d o = w

/-- The stop noSuchCommand is the model's own choice (log entry 4, DESIGN CHOICE: the spec rejects the image at load and says
nothing of such a command). An engine instruction whose operands fail Instr.wf (a reserved value, a reserved format, storage of
the other segment: what check 0x05, 0x06, 0x08, 0x09, 0x0A or 0x0E of Table 7-18 rejects at load, so that no image holds the
word) answers the fault noSuchCommand, in every state. (07_engine_schedules.md R185; 07_engine_schedules.md R186;
07_engine_schedules.md R187; 07_engine_schedules.md Table 7-18) -/
def Obligations.RefusedWords : Prop :=
  ∀ (c : Instr) (s : State), c.wf = false → exec c s = .fault .noSuchCommand

/-- Where the segment issues: NOP moves the program counter past the word at its declared cycle and leaves the loops, and where
no bit error strikes the array and lanes, as they were; LOOP opens a level with count CNTM1 + 1, index 0, body the next word and
its strides; ENDL of an inner iteration advances the index and goes back to the first word of the body, and closes the loop
after the last one. A CHK that issues, and is not the check unit's second instruction of the cycle, is remembered with its
program counter as the slot of the segment's next PASS; where no hold window turns a write under way away, a CHK already waiting
raises SCHED_FAULT 0x0B, counted once for its segment, and nothing is counted where none waits. (07_engine_schedules.md R171;
07_engine_schedules.md R182; 07_engine_schedules.md R172; 07_engine_schedules.md R194) -/
def Obligations.LoopWords : Prop :=
  (∀ (h : IssueHdr) (s : State), issues s h 0 = true →
    (∃ t, exec (.nop h) s = .next t ∧ pcMoved s t h ∧ (segOf t h.leng h.seg).last = declared s h ∧
      (segOf t h.leng h.seg).loops = (segOf s h.leng h.seg).loops ∧
      (h.upsets = [] → (eng t (storeKey s h.leng.toNat)).arr = (eng s (storeKey s h.leng.toNat)).arr ∧
        (eng t (storeKey s h.leng.toNat)).vec = (eng s (storeKey s h.leng.toNat)).vec)) ∧
    (∀ o : LoopOp, ∃ t, exec (.loop h o) s = .next t ∧ pcMoved s t h ∧ (segOf t h.leng h.seg).last = declared s h ∧
      (segOf t h.leng h.seg).loops =
        { body := (segOf s h.leng h.seg).pc + 1, count := o.cntm1.toNat + 1, idx := 0, d0 := o.d0, d1 := o.d1, d2 := o.d2,
          d3 := o.d3 } :: (segOf s h.leng h.seg).loops) ∧
    (∀ l rest, (segOf s h.leng h.seg).loops = l :: rest →
      ∃ t, exec (.endl h) s = .next t ∧ (segOf t h.leng h.seg).last = declared s h ∧
        (l.idx + 1 < l.count → (segOf t h.leng h.seg).loops = { l with idx := l.idx + 1 } :: rest ∧
          (segOf t h.leng h.seg).pc = l.body) ∧
        (l.count ≤ l.idx + 1 → (segOf t h.leng h.seg).loops = rest ∧ pcMoved s t h))) ∧
  (∀ (h : IssueHdr) (s : State), issues s h 5 = true →
    lastIn (eng s (storeKey s h.leng.toNat)) .check ≠ some (declared s h) →
    ∃ t, exec (.chk h 0) s = .next t ∧ pcMoved s t h ∧ (segOf t h.leng h.seg).chk = some (segOf s h.leng h.seg).pc ∧
      (holdsQuiet s h → (segOf s h.leng h.seg).chk.isSome = true → (segOf t h.leng h.seg).sfCount = (segOf s h.leng h.seg).sfCount + 1) ∧
      (holdsQuiet s h → (segOf s h.leng h.seg).chk = none → (segOf t h.leng h.seg).sfCount = (segOf s h.leng h.seg).sfCount))

/-- Where the segment issues: WTICK ends it for the frame, not before the cycle after the last one its units are busy; a YIELD
that suspends waits in the same way, one that does not issues in its declared cycle and leaves the segment running, and a YIELD
with STEP not yet taken in the frame advances the step number by one; HALT, after the same wait, ends the segment for good, and
the halted bit of the engine is set in its job. On a present engine of a running module COMPLETION_MONITOR records monitor 4,
and BG_WATCHDOG after 64 quiet frames monitor 5, on the engine's SEQ page, and the engine is due for containment at the next
tick; fewer quiet frames leave the state as it was. (07_engine_schedules.md R177; 07_engine_schedules.md R179;
07_engine_schedules.md R180; 07_engine_schedules.md R181; 09_checksums_replay_and_faults.md R246; 15_register_pages.md) -/
def Obligations.SegmentEnds : Prop :=
  (∀ (h : IssueHdr) (s : State), issues s h 0 = true →
    (∃ t, exec (.wtick h) s = .next t ∧ pcMoved s t h ∧ (segOf t h.leng h.seg).st = 2 ∧
      (segOf t h.leng h.seg).last = max (declared s h) ((segOf s h.leng h.seg).busyTo + 1)) ∧
    (h.seg = .bg → ∀ step : Bool, ∃ t, exec (.yield h step) s = .next t ∧ pcMoved s t h ∧
      (segOf t h.leng .bg).st = (if yieldSuspends s h step then 2 else 1) ∧
      (segOf t h.leng .bg).last = (if yieldSuspends s h step then max (declared s h) ((segOf s h.leng .bg).busyTo + 1)
        else declared s h) ∧
      (step = true → (segOf s h.leng .bg).stepped = false → (segOf t h.leng .bg).stepNo = (segOf s h.leng .bg).stepNo + 1) ∧
      (step = false → (segOf t h.leng .bg).stepNo = (segOf s h.leng .bg).stepNo)) ∧
    (∃ t, exec (.halt h) s = .next t ∧ pcMoved s t h ∧ (segOf t h.leng h.seg).st = 3 ∧
      (segOf t h.leng h.seg).last = max (declared s h) ((segOf s h.leng h.seg).busyTo + 1) ∧
      ∀ j, ownerOf s h.leng.toNat h.seg = some j → (job t j).halted.getLsbD h.leng.toNat = true)) ∧
  (∀ (l : BitVec 6) (g : Seg) (s : State), running s = true → absent s l.toNat = false →
    (∃ t, exec (.completionMonitor l g) s = .next t ∧
      rget t (pgEng (storeKey s l.toNat) 0) 0x78 = BitVec.ofNat 32 (4 + 2 ^ 31) ∧
      (eng t (storeKey s l.toNat)).faultDue = true) ∧
    (64 ≤ (segOf s l .bg).quiet → ∃ t, exec (.bgWatchdog l) s = .next t ∧
      rget t (pgEng (storeKey s l.toNat) 0) 0x78 = BitVec.ofNat 32 (5 + 2 ^ 31) ∧
      (eng t (storeKey s l.toNat)).faultDue = true) ∧
    ((segOf s l .bg).quiet < 64 → exec (.bgWatchdog l) s = .next s))

/-- An LDS that issues without a SCHED_FAULT makes the tile valid with its format, mode and KSPLIT, its base line, its words
read row-major from consecutive Carrel lines, each as it stands in the cycle of its read, and the sums of its rows; one that
faults makes the tile invalid. (04_matrix_array.md R85; 04_matrix_array.md R86; 04_matrix_array.md R95; 07_engine_schedules.md
R172; 07_engine_schedules.md R183) -/
def Obligations.StationaryLoad : Prop :=
  ∀ (h : IssueHdr) (o : LdsOp) (s : State) (c : Ctx), (Instr.lds h o).wf = true →
    issue .array (match (eng s (storeKey s h.leng.toNat)).arr.lastPass with
      | some (_, fe) => fe + 3
      | none => 0) h s = some c →
    ∃ t, exec (.lds h o) s = .next t ∧ pcMoved s t h ∧
      (ldsBad (settle c.k c.cyc (revealChk c c.s)) c o ≠ 0 → (eng t c.k).arr.tile.valid = false) ∧
      (ldsBad (settle c.k c.cyc (revealChk c c.s)) c o = 0 →
        (eng t c.k).arr.tile.valid = true ∧ (eng t c.k).arr.tile.fmt = fmtD o.fmt ∧ (eng t c.k).arr.tile.fast = o.fast ∧
        (eng t c.k).arr.tile.ksplit = 2 ^ o.ksplit.toNat ∧ (eng t c.k).arr.lds = some c.cyc ∧
        (eng t c.k).arr.tile.base = (advance o.adv 0 c.loops o.tbase.toNat).toNat ∧
        (eng t c.k).arr.tile.words = tileWords (fmtD o.fmt) (tileRows o.fast)
          ((List.range (linesOf (fmtD o.fmt) (tileRows o.fast * 64))).map fun i =>
            (cReadAt (settle c.k c.cyc (revealChk c c.s)) c.k ((advance o.adv 0 c.loops o.tbase.toNat).toNat + i)
              (c.cyc + 1 + i * 64 / linesOf (fmtD o.fmt) (tileRows o.fast * 64))).1) ∧
        (eng t c.k).arr.tile.sums = tileSums (fmtD o.fmt) (tileRows o.fast) (eng t c.k).arr.tile.words)

/-- A PASS that issues on a segment not stopped at its pass boundary (R27) advances the segment's pass index. Without a
SCHED_FAULT the destination half takes the tag of its path, is valid, holds at each element of the pass the value the path
forms, and counts its terms, and the pass is in flight with its commit cycle; with a SCHED_FAULT the destination half is
invalid. A PASS of a segment that a slot reset stops at its next boundary is not issued: it changes nothing but that the segment
has stopped (log entry 47). (03_quire_and_accumulation.md R59; 03_quire_and_accumulation.md R61; 04_matrix_array.md R94;
07_engine_schedules.md R175) -/
def Obligations.PassAccumulates : Prop :=
  ∀ (h : IssueHdr) (o : PassOp) (s : State), (Instr.pass h o).wf = true →
    ((segOf s h.leng h.seg).stopAt.isSome = true → exec (.pass h o) s =
      .next (segMod (storeKey s h.leng.toNat) h.seg (fun x => { x with stopAt := some 0 }) s)) ∧
    ∀ c : Ctx, issue .array 0 h s = some c → (segOf s h.leng h.seg).stopAt = none →
    ∃ t, exec (.pass h o) s = .next t ∧ pcMoved s t h ∧
      (segOf t h.leng h.seg).passIdx = (segOf s h.leng h.seg).passIdx + 1 ∧
      (passBad (settle c.k c.cyc c.s) c o ≠ 0 → ((eng t c.k).arr.half o.dsth).valid = false) ∧
      (passBad (settle c.k c.cyc c.s) c o = 0 →
        ((eng t c.k).arr.half o.dsth).tag = some (passTag (fmtD o.fmt) o.fast) ∧
        ((eng t c.k).arr.half o.dsth).valid = true ∧
        ((eng t c.k).arr.half o.dsth).terms = passTerms (settle c.k c.cyc c.s) c o ∧
        (∃ f, (eng t c.k).arr.flights.getLast? = some f ∧ f.op = o ∧ f.cyc = c.cyc ∧
          f.commit = c.cyc + beats (fmtD o.fmt) * (o.mm1.toNat + 1) + 15) ∧
        ∀ e ∈ passElems (settle c.k c.cyc c.s) c o (segOf s h.leng h.seg).passIdx ((passBases c o).map (·.toNat)),
          (tabGet (fun _ => ({} : Elem)) ((eng t c.k).arr.half o.dsth).elems e.key).val = e.el.val ∧
          (tabGet (fun _ => ({} : Elem)) ((eng t c.k).arr.half o.dsth).elems e.key).valid = true)

/-- Summing the same pairs of operands in any order, from the same source element, gives the same quire.
(03_quire_and_accumulation.md R59; 03_quire_and_accumulation.md R60) -/
def Obligations.ExactSumOrderFree : Prop :=
  ∀ (q xf wf : Fmt) (src : Option BankVal) (ps qs : List (Nat × Nat)), ps.Perm qs →
    (sumExact q xf wf src (ps.map (·.1)) (ps.map (·.2))).val = (sumExact q xf wf src (qs.map (·.1)) (qs.map (·.2))).val

/-- A BAL that is not its unit's second instruction of the cycle opens a gap of G cycles; PASS_COMMIT takes the oldest pass out
of flight, and a checked one then waits for its row check, due 80 cycles after the commit (said where no slot waits for its pass
boundary, R27, and the pass's lines have not changed since it was formed); IDLE_RAMP_DOWN, in the reading of log entry 23
(DEDUCED), ends a gap in every state and lowers the level that the array idles at by one step, the idle interval's start 64
cycles on, until it is 0. (04_matrix_array.md R94; 04_matrix_array.md R103; 04_matrix_array.md R457;
09_checksums_replay_and_faults.md R229) -/
def Obligations.ArrayIdle : Prop :=
  (∀ (h : IssueHdr) (g : BitVec 20) (s : State), (Instr.bal h g).wf = true → issues s h 1 = true →
      lastIn (eng s (storeKey s h.leng.toNat)) .array ≠ some (declared s h) →
      ∃ t, exec (.bal h g) s = .next t ∧ pcMoved s t h ∧
        ∃ a0, (eng t (storeKey s h.leng.toNat)).arr.gap = some (declared s h, g.toNat, a0)) ∧
    (∀ (l : BitVec 6) (s : State) (f : Flight) (rest : List Flight),
      (eng s (storeKey s l.toNat)).arr.flights = f :: rest → (∀ j, j < 4 → (job s j).ending = false) →
      f.stale (eng s (storeKey s l.toNat)) = false →
      ∃ t, exec (.passCommit l) s = .next t ∧ (eng t (storeKey s l.toNat)).arr.flights = rest ∧
        (f.chk = true → ∃ r, (eng t (storeKey s l.toNat)).rowChks = (eng s (storeKey s l.toNat)).rowChks ++ [r] ∧
          r.due = f.commit + 80 ∧ r.pc = f.pc ∧ r.selected = f.selected ∧ r.rows = f.rows) ∧
        (f.chk = false → (eng t (storeKey s l.toNat)).rowChks = (eng s (storeKey s l.toNat)).rowChks)) ∧
    (∀ (l : BitVec 6) (s : State), ∃ t, exec (.idleRampDown l) s = .next t ∧
      (eng t (storeKey s l.toNat)).arr.gap = none ∧
      ((eng s (storeKey s l.toNat)).arr.gap = none →
        (eng t (storeKey s l.toNat)).arr.actLvl = (eng s (storeKey s l.toNat)).arr.actLvl - 1 ∧
        (0 < (eng s (storeKey s l.toNat)).arr.actLvl →
          (eng t (storeKey s l.toNat)).arr.actEnd = (eng s (storeKey s l.toNat)).arr.actEnd + 64)) ∧
      ∀ e v, idleFrom (rampU (stepOf s (zoneOf l.toNat))) (eng s (storeKey s l.toNat)).arr = (e, v) →
        (eng t (storeKey s l.toNat)).arr.actLvl = v - 1 ∧
        (eng t (storeKey s l.toNat)).arr.actEnd = (if v = 0 then e else e + 64))

/-- A DRAIN that issues without a SCHED_FAULT and whose pair slots are valid is remembered as its segment's last drain; where no
hold window is open its lines in the Carrel are the packed results of the drained elements, and where its slot has an output
record that record waits to be written: to the line after the block, in the cycle after the drain's last (R129), under the
DRAIN's tag, with the record's tensor and sequence number; a slot without one leaves the waiting records as they were. One whose
pair slot is invalid, or that faults, keeps the data of its lines. (03_quire_and_accumulation.md R74; 04_matrix_array.md R101;
05_scales_and_catalogue.md R129; 05_scales_and_catalogue.md R120; 07_engine_schedules.md R175) -/
def Obligations.DrainWrites : Prop :=
  ∀ (h : IssueHdr) (o : DrainOp) (s : State) (c : Ctx) (s1 s2 : State), (Instr.drain h o).wf = true →
    issue .array (((eng s (storeKey s h.leng.toNat)).arr.flights.filter fun f => decide (f.op.dsth = o.half)).foldl
      (fun t f => max t (f.commit + 1)) 0) h s = some c →
    s1 = settle c.k c.cyc (revealChk c c.s) →
    s2 = busyTo c.k c.g (drainDone c.cyc (o.nm1.toNat + 1) (drainRate o) o.mul) (arrayClaims c.k c.cyc (drainClaims c o (drainRate o)) s1) →
    ∃ t, exec (.drain h o) s = .next t ∧ pcMoved s t h ∧
      (drainBad s1 c o ≠ 0 → (eng t c.k).arr.lastDrain c.g = none ∧ (eng t c.k).carrel = (eng s1 c.k).carrel) ∧
      (drainBad s1 c o = 0 → (∃ d, (eng t c.k).arr.lastDrain c.g = some d ∧ d.op = o ∧ d.issue = c.cyc) ∧
        (drainSlots s2 c o ≠ none → (eng t c.k).carrel = (eng s2 c.k).carrel) ∧
        (drainSlots s2 c o = none → (eng s2 c.k).openH = [] →
          ∀ i l, (elLines (fmtD o.dfmt) ((o.nm1.toNat + 1) * linesPerVec (fmtD o.dfmt))
              (drainEls s2 c o 0 (drainBases c o).2.1.toNat (drainBases c o).2.2.toNat))[i]? = some l →
            (cRead t c.k ((drainBases c o).1.toNat + i)).1 = l.1) ∧
        (drainSlots s2 c o = none → (eng s2 c.k).openH = [] →
          ((slotGet s2 c.k o.aslot.toNat).out = none → (eng t c.k).recWrs = (eng s2 c.k).recWrs) ∧
          ∀ out, (slotGet s2 c.k o.aslot.toNat).out = some out → ∃ w, (eng t c.k).recWrs = (eng s2 c.k).recWrs ++ [w] ∧
            w.line = (drainBases c o).1.toNat + (o.nm1.toNat + 1) * linesPerVec (fmtD o.dfmt) ∧
            w.due = drainDone c.cyc (o.nm1.toNat + 1) (drainRate o) o.mul + 1 ∧ w.tag = o.tag.toNat ∧ w.seg = h.seg ∧
            w.isDrain = true ∧ w.record.tid = out.tid ∧ w.record.seq = out.seq))

/-- A DRAINR that issues without another fault and finds the DRAIN it repeats (its segment's last, of the same operands,
completed) marks that drain as recomputed; one that does not find it raises SCHED_FAULT 0x06, drops the drain, and keeps the
data of its lines. (05_scales_and_catalogue.md R125; 05_scales_and_catalogue.md R126; 07_engine_schedules.md R175) -/
def Obligations.DrainrMatches : Prop :=
  ∀ (h : IssueHdr) (o : DrainOp) (s : State) (c : Ctx) (s1 : State), (Instr.drainr h o).wf = true →
    issue .array (((eng s (storeKey s h.leng.toNat)).arr.flights.filter fun f => decide (f.op.dsth = o.half)).foldl
      (fun t f => max t (f.commit + 1)) 0) h s = some c →
    s1 = settle c.k c.cyc (revealChk c c.s) → drainBad s1 c o = 0 →
    ∃ t, exec (.drainr h o) s = .next t ∧ pcMoved s t h ∧
      (∀ d, (eng s1 c.k).arr.lastDrain c.g = some d → d.op = o → d.done < c.cyc →
        ∃ d', (eng t c.k).arr.lastDrain c.g = some d' ∧ d'.op = o ∧ d'.recomputed = true ∧ d'.issue = c.cyc) ∧
      ((∀ d, (eng s1 c.k).arr.lastDrain c.g = some d → ¬ (d.op = o ∧ d.done < c.cyc)) →
        (eng t c.k).arr.lastDrain c.g = none ∧ (eng t c.k).carrel = (eng s1 c.k).carrel ∧
        (segOf t h.leng h.seg).sfCount = ((eng s1 c.k).seg c.g).sfCount + 1)

/-- A VOP of one vector with lane-register sources that issues, without a SCHED_FAULT and with its ports free: a value function
into a lane register leaves in every lane the one rounding to DFMT of the function of the lane's operands; a compare leaves its
result of every lane in the mask register. VOP with a value function, VRED, CVT, SFN, GACT, SMX in its output phase, NRM in its
apply phase and QRND, in every form (lane or stream sources, with or without a slot, of one or two arguments), that issue
without a SCHED_FAULT and find their ports free: a lane-register destination holds the words of their elements in DFMT; a stream
destination, where no hold window is open, is the consecutive lines of those words from its base on, packed by DFMT (for a VRED
one word a vector, else 64). (06_vector_and_functions.md R144; 06_vector_and_functions.md R145; 06_vector_and_functions.md Table
6-2; 06_vector_and_functions.md R150; 06_vector_and_functions.md R141; 07_engine_schedules.md R183; 07_engine_schedules.md R197)
-/
def Obligations.VectorValues : Prop :=
  (∀ (h : IssueHdr) (o : VOp) (s : State) (c : Ctx), (Instr.vop h o).wf = true → issue .vector 0 h s = some c →
    o.nm1 = 0 → o.ak = true → o.bk = true → (vopShape o).fault (vopBad o) c = 0 →
    (vopCmp.contains o.func.toNat = false → o.dk = true → ∃ t, exec (.vop h o) s = .next t ∧ pcMoved s t h ∧ ∀ l, l < 64 →
      (laneGet t c.k (o.d.toNat % 16) l).tag = some (fmtD o.dfmt) ∧
      (laneGet t c.k (o.d.toNat % 16) l).ready = c.cyc + 8 ∧
      (laneGet t c.k (o.d.toNat % 16) l).bits = BitVec.ofNat 32
        (roundTo (fmtD o.dfmt) (vopVal o.func.toNat (BitVec.ofNat 8 o.b.toNat).toInt
          (toWork (fmtD o.wfmt) (laneOp c.s c.k o.a.toNat l))
          (if vopBin.contains o.func.toNat then toWork (fmtD o.wfmt) (laneOp c.s c.k o.b.toNat l)
            else toWork (fmtD o.wfmt) .zero)
          (if o.func = 3 then (laneOp c.s c.k o.c.toNat l) else .zero)
          ((maskGet c.s c.k o.mlq.toNat).bits.getLsbD l)).1).1) ∧
    (vopCmp.contains o.func.toNat = true → ∃ t, exec (.vop h o) s = .next t ∧ pcMoved s t h ∧
      (maskGet t c.k o.mlq.toNat).written = true ∧ ∀ l, l < 64 →
      (maskGet t c.k o.mlq.toNat).bits.getLsbD l = cmpVal o.func.toNat (decide (fmtD o.wfmt = .fp32))
        (toWork (fmtD o.wfmt) (laneOp c.s c.k o.a.toNat l))
        (if vopBin.contains o.func.toNat then toWork (fmtD o.wfmt) (laneOp c.s c.k o.b.toNat l)
          else toWork (fmtD o.wfmt) .zero))) ∧
  (∀ (h : IssueHdr) (o : EOp) (s : State) (c : Ctx) (x : VShape) (s1 u : State) (f : Fmt) (l : List VRes), vecLoads s h o = true →
    issue .vector 0 h s = some c → vecShape s h o = some x → x.fault (vecBad s h o) c = 0 →
    otherClaims c.k c.cyc (x.claims c) c.s = some s1 → u = x.start c s1 → vecOuts s h u c o = some (f, l) →
    ∃ t, exec (o.instr h) s = .next t ∧ pcMoved s t h ∧
      (∀ r, x.reg = some r → ∀ i, i < (if x.red then x.n else 64) → (laneGet t c.k r i).tag = some f ∧
        (laneGet t c.k r i).bits = BitVec.ofNat 32 ((l.map (·.word)).getD i 0)) ∧
      (∀ p, x.d = some p → (eng u c.k).openH = [] → ∀ i, i < (if x.red then x.dLines else 64 * x.n / f.perLine) →
        (cRead t c.k ((x.bases c).2.2.toNat + i)).1 = packLine f (((l.map (·.word)).drop (i * f.perLine)).take f.perLine)))

/-- A CVT, an SFN and a GACT, each of one vector with lane registers, that issue without a SCHED_FAULT leave in every lane of
the destination the one rounding to DFMT: of the operand, times two to the exponent of a valid pair slot where the CVT has one
(for a cold history tensor with the present record's ADJ in place of the slot's own); of the function of the one or two
operands; and of the activation of A times G. A CVT whose slot is invalid leaves its destination's values as they were. A VRED
of one vector from a lane register into a lane register that issues without a SCHED_FAULT leaves in lane 0 the one rounding of
the reduction over the 64 lanes. (06_vector_and_functions.md R144; 06_vector_and_functions.md R148; 06_vector_and_functions.md
R155; 06_vector_and_functions.md R161; 06_vector_and_functions.md R164; 02_tapered_formats.md R53; 05_scales_and_catalogue.md
R120; 05_scales_and_catalogue.md R137; 06_vector_and_functions.md R147; 06_vector_and_functions.md Table 6-3) -/
def Obligations.FunctionValues : Prop :=
  (∀ (h : IssueHdr) (s : State) (c : Ctx), issue .vector 0 h s = some c →
    (∀ (o : XOp) (sl : Slot), (Instr.cvt h o).wf = true → o.nm1 = 0 → o.ak = true → o.dk = true →
      (cvtShape o).fault (cvtBad o) c = 0 → sl = slotGet c.s c.k o.slot.toNat →
      ∃ t, exec (.cvt h o) s = .next t ∧ pcMoved s t h ∧ ∀ l, l < 64 →
        (o.sen = true → sl.valid = false →
          (laneGet t c.k (o.d.toNat % 16) l).bits = (laneGet c.s c.k (o.d.toNat % 16) l).bits) ∧
        (o.sen = false ∨ sl.valid = true →
          (laneGet t c.k (o.d.toNat % 16) l).tag = some (fmtD o.dfmt) ∧
          ∀ ex : Int, (o.sen = false → ex = 0) →
            (o.sen = true → (∀ out, sl.out = some out → (coldTid c.s out.tid && decide (out.src = 1)) = false) → ex = sl.x) →
            (∀ out, o.sen = true → sl.out = some out → (coldTid c.s out.tid && decide (out.src = 1)) = true →
              ex = sl.x - out.adj + (segOf c.s h.leng h.seg).present.adj) →
            (laneGet t c.k (o.d.toNat % 16) l).bits = BitVec.ofNat 32
              (roundTo (fmtD o.dfmt) ((laneOp c.s c.k o.a.toNat l).scale ex)).1)) ∧
    (∀ (o : FOp) (cp two : Bool) (wf : Fmt), (Instr.sfn h o).wf = true → cp = compatOf s h.leng.toNat h.seg →
      two = ninTwo s o.ctl cp → wf = sfuWork s o.ctl cp (fmtD o.dfmt) → (sfuSteps s o.ctl cp).isSome = true →
      o.nm1 = 0 → o.ak = true → (two = true → o.bk = true) → sfnArgB h.seg o cp s = true → o.dk = true →
      (sfnShape o cp s).fault (fBad o cp two) c = 0 →
      ∃ t, exec (.sfn h o) s = .next t ∧ pcMoved s t h ∧ ∀ l, l < 64 →
        (laneGet t c.k (o.d.toNat % 16) l).bits = BitVec.ofNat 32 (roundTo (fmtD o.dfmt)
          (sfuEval c.s o.ctl cp (fmtD o.dfmt) (toWork wf (laneOp c.s c.k o.a.toNat l))
            (if two then toWork wf (laneOp c.s c.k o.b.toNat l) else .zero)).1).1) ∧
    (∀ (o : FOp) (cp : Bool) (wf : Fmt), (Instr.gact h o).wf = true → cp = compatOf s h.leng.toNat h.seg →
      (sfuSteps s o.ctl cp).isSome = true → o.nm1 = 0 → o.ak = true → o.bk = true → o.dk = true →
      wf = sfuWork s o.ctl cp (fmtD o.dfmt) → (gactShape o cp s).fault (fBad o cp true) c = 0 →
      ∃ t, exec (.gact h o) s = .next t ∧ pcMoved s t h ∧ ∀ l, l < 64 →
        (laneGet t c.k (o.d.toNat % 16) l).bits = BitVec.ofNat 32 (roundTo (fmtD o.dfmt)
          ((if o.ctl.getLsbD 5 then (sfuEval c.s o.ctl cp wf (toWork wf (laneOp c.s c.k o.a.toNat l)) .zero).1
            else (roundVal wf (sfuEval c.s o.ctl cp wf (toWork wf (laneOp c.s c.k o.a.toNat l)) .zero).1).1).mul
            (toWork wf (laneOp c.s c.k o.b.toNat l))).1).1)) ∧
  (∀ (h : IssueHdr) (o : VOp) (s : State) (c : Ctx), (Instr.vred h o).wf = true → issue .vector 0 h s = some c →
    o.nm1 = 0 → o.ak = true → o.dk = true →
    (vredShape o).fault (vredBad o) c = 0 →
    ∃ t, exec (.vred h o) s = .next t ∧ pcMoved s t h ∧ (laneGet t c.k (o.d.toNat % 16) 0).tag = some (fmtD o.dfmt) ∧
      (laneGet t c.k (o.d.toNat % 16) 0).bits = BitVec.ofNat 32 (roundTo (fmtD o.dfmt) (redVal o.func.toNat
        ((List.range 64).map fun l => toWork (fmtD o.wfmt) (laneOp c.s c.k o.a.toNat l))).1).1)

/-- Each issuing without a SCHED_FAULT, with lane-register operands and one vector: QCLR sets every lane's quire to zero with
its tag; QMAC adds the exact product of the lane's operands and QACC the lane's operand to the lane's quire; QRND leaves the one
rounding of the lane's quire in the destination lane. (06_vector_and_functions.md R146; 02_tapered_formats.md R41;
02_tapered_formats.md R43) -/
def Obligations.LaneQuires : Prop :=
  ∀ (h : IssueHdr) (o : VOp) (s : State) (c : Ctx), issue .vector 0 h s = some c → o.nm1 = 0 →
    ((Instr.qclr h o).wf = true → (qclrShape o).fault (fun _ _ => 0) c = 0 →
      ∃ t, exec (.qclr h o) s = .next t ∧ pcMoved s t h ∧ ∀ l, l < 64 →
        (quireGet t c.k o.mlq.toNat l).tag = some (fmtD o.wfmt) ∧ (quireGet t c.k o.mlq.toNat l).q = .int 0) ∧
    ((Instr.qmac h o).wf = true → o.ak = true → o.bk = true → (qmacShape o).fault (qmacBad o) c = 0 →
      ∃ t, exec (.qmac h o) s = .next t ∧ pcMoved s t h ∧ ∀ l, l < 64 →
        (quireGet t c.k o.mlq.toNat l).q = (quireAdd ((quireGet c.s c.k o.mlq.toNat l).tag.getD .q32) (quireGet c.s c.k o.mlq.toNat l).q
          ((laneOp c.s c.k o.a.toNat l).mul (laneOp c.s c.k o.b.toNat l)).1).1) ∧
    ((Instr.qacc h o).wf = true → o.ak = true → (qaccShape o).fault (qaccBad o) c = 0 →
      ∃ t, exec (.qacc h o) s = .next t ∧ pcMoved s t h ∧ ∀ l, l < 64 →
        (quireGet t c.k o.mlq.toNat l).q = (quireAdd ((quireGet c.s c.k o.mlq.toNat l).tag.getD .q32) (quireGet c.s c.k o.mlq.toNat l).q
          (laneOp c.s c.k o.a.toNat l)).1) ∧
    ((Instr.qrnd h o).wf = true → o.dk = true → (qrndShape o).fault (qrndBad o) c = 0 →
      ∃ t, exec (.qrnd h o) s = .next t ∧ pcMoved s t h ∧ ∀ l, l < 64 →
        (laneGet t c.k (o.d.toNat % 16) l).tag = some (fmtD o.dfmt) ∧
        (laneGet t c.k (o.d.toNat % 16) l).bits = BitVec.ofNat 32 (roundTo (fmtD o.dfmt)
          ((quireGet c.s c.k o.mlq.toNat l).q.toF ((quireGet c.s c.k o.mlq.toNat l).tag.getD .q32))).1)

/-- Issuing without a SCHED_FAULT, on one vector from a lane register. Accumulating: SMX on posit values takes every lane's
exponent K and sum on by its element (a row that was closed starts anew), and NRM on posit values counts the element and adds it
and its square to the lane's two quires. SMX's output phase closes the rows and leaves in every lane the quotient of its element
in the lane's row (a row of fp32 inputs by the IL-3610's method, whose free order of sums is log entry 13). NRM's finish phase
closes the rows and leaves mu and r of each lane's row in registers C and C + 1; its apply phase leaves in every lane the one
rounding of (x - mu) r gamma + beta. (06_vector_and_functions.md R165; 06_vector_and_functions.md R166;
06_vector_and_functions.md R167; 06_vector_and_functions.md R168) -/
def Obligations.RowPhases : Prop :=
  ∀ (h : IssueHdr) (o : FOp) (s : State) (c : Ctx), issue .vector 0 h s = some c →
    ((Instr.smx h o).wf = true → o.nm1 = 0 → o.ak = true → o.ctl.getLsbD 5 = false → compatOf s h.leng.toNat h.seg = false →
      (smxShape o).fault (smxBad o) c = 0 →
      ∃ t, exec (.smx h o) s = .next t ∧ pcMoved s t h ∧ ∀ l, l < 64 →
        (rowGet t c.k (skOf h.seg) l).k = (smxAcc (rowOpen (rowGet c.s c.k (skOf h.seg) l), (quireGet c.s c.k o.lq.toNat l).q)
          (laneOp c.s c.k o.a.toNat l) (laneOp c.s c.k o.c.toNat l)).1.1.k ∧
        (quireGet t c.k o.lq.toNat l).q = (smxAcc (rowOpen (rowGet c.s c.k (skOf h.seg) l), (quireGet c.s c.k o.lq.toNat l).q)
          (laneOp c.s c.k o.a.toNat l) (laneOp c.s c.k o.c.toNat l)).1.2) ∧
    ((Instr.smx h o).wf = true → o.nm1 = 0 → o.ak = true → o.dk = true → o.ctl.getLsbD 5 = true →
      (smxShape o).fault (smxBad o) c = 0 →
      ∃ t, exec (.smx h o) s = .next t ∧ pcMoved s t h ∧ ∀ l, l < 64 → ∀ r, r = rowGet c.s c.k (skOf h.seg) l →
        (rowGet t c.k (skOf h.seg) l).closed = true ∧ (laneGet t c.k (o.d.toNat % 16) l).tag = some (fmtD o.dfmt) ∧
        (laneGet t c.k (o.d.toNat % 16) l).bits = BitVec.ofNat 32 (if r.ieee
          then (smxCompat (fmtD o.dfmt) r (laneOp c.s c.k o.a.toNat l) (laneOp c.s c.k o.c.toNat l) (!r.closed)
            (!r77 c.s h.leng.toNat h.seg)).1
          else (smxOut (fmtD o.dfmt) r (quireGet c.s c.k o.lq.toNat l).q (laneOp c.s c.k o.a.toNat l)
            (laneOp c.s c.k o.c.toNat l)).1)) ∧
    ((Instr.nrm h o).wf = true → o.nm1 = 0 → o.ak = true → o.ctl.toNat / 16 = 0 →
      (∀ l, l < 64 → (srcFmt c.s c.k true o.a o.afmt l).isIeee = false) → (nrmShape o 0).fault (nrmBad o 0) c = 0 →
      ∃ t, exec (.nrm h o) s = .next t ∧ pcMoved s t h ∧ ∀ l, l < 64 →
        (rowGet t c.k (skOf h.seg) l).n = (rowOpen (rowGet c.s c.k (skOf h.seg) l)).n + 1 ∧
        (quireGet t c.k (lqOf h.seg) l).q = (quireAdd .q32 (quireGet c.s c.k (lqOf h.seg) l).q
          (laneOp c.s c.k o.a.toNat l)).1 ∧
        (quireGet t c.k (lqOf h.seg + 1) l).q = (quireAdd .q32 (quireGet c.s c.k (lqOf h.seg + 1) l).q
          ((laneOp c.s c.k o.a.toNat l).mul (laneOp c.s c.k o.a.toNat l)).1).1) ∧
    ((Instr.nrm h o).wf = true → o.ctl.toNat / 16 = 1 → (nrmShape o 1).fault (nrmBad o 1) c = 0 →
      ∃ t, exec (.nrm h o) s = .next t ∧ pcMoved s t h ∧ ∀ l, l < 64 → ∀ mu v fl neg,
        (mu, v, fl, neg) = nrmRow (o.ctl.getLsbD 3) (rowGet c.s c.k (skOf h.seg) l) (quireGet c.s c.k (lqOf h.seg) l).q
          (quireGet c.s c.k (lqOf h.seg + 1) l).q (laneOp c.s c.k o.a.toNat l) →
        (rowGet t c.k (skOf h.seg) l).closed = true ∧
        (laneGet t c.k o.c.toNat l).tag = some .p32 ∧ (laneGet t c.k (o.c.toNat + 1) l).tag = some .p32 ∧
        (laneGet t c.k o.c.toNat l).bits = BitVec.ofNat 32 (roundTo .p32 mu).1 ∧
        (laneGet t c.k (o.c.toNat + 1) l).bits = BitVec.ofNat 32 (roundTo .p32 v).1) ∧
    (∀ s1 u, (Instr.nrm h o).wf = true → o.ctl.toNat / 16 = 2 → o.nm1 = 0 → o.ak = true → o.dk = true →
      (nrmShape o 2).fault (nrmBad o 2) c = 0 → otherClaims c.k c.cyc ((nrmShape o 2).claims c) c.s = some s1 →
      u = (nrmShape o 2).start c s1 →
      ∃ t, exec (.nrm h o) s = .next t ∧ pcMoved s t h ∧ ∀ l, l < 64 →
        (laneGet t c.k (o.d.toNat % 16) l).tag = some (fmtD o.dfmt) ∧
        (laneGet t c.k (o.d.toNat % 16) l).bits = BitVec.ofNat 32 (roundTo (fmtD o.dfmt)
          (nrmVal (laneOp c.s c.k o.a.toNat l) (laneOp c.s c.k o.c.toNat l) (laneOp c.s c.k (o.c.toNat + 1) l)
            (nrmPair (nrmShape o 2) u c 0).v (nrmPair (nrmShape o 2) u c 1).v).1).1)

/-- For VOP, VRED, CVT, SFN, GACT, SMX, NRM, QCLR, QMAC, QACC and QRND in every form, whether they issue, fault or not: a next
state keeps every other engine, the array's tile and bank halves, the pair slots, every lane register, lane quire and mask
register but the instruction's destinations, the row states but for SMX and NRM, the data of every Carrel line outside the
destination stream, every register outside the engine's SEQ and NUMEV pages, the ERRATA page and VILRI's event counters, every
byte of the Stacks outside the Errata ring, the waiting statistics but for a CVT with a slot, and the rest of the machine. A bit
error that strikes as the instruction issues (the header's upsets) changes more of the engine, but nothing of the rest of the
machine; and where a hold window that opens at the word meets a write under way, that line may go back to what it held.
(06_vector_and_functions.md R142; 06_vector_and_functions.md R149; 06_vector_and_functions.md R152; 07_engine_schedules.md R171;
07_engine_schedules.md R175; 12_stacks_memory.md) -/
def Obligations.VectorFrame : Prop :=
  ∀ (h : IssueHdr) (o : EOp) (s t : State), (vecShape s h o).isSome = true → exec (o.instr h) s = .next t →
    machineKept s t ∧ stacksKept s t ∧ t.abfs = s.abfs ∧ t.xfers = s.xfers ∧ t.chains = s.chains ∧ t.sent = s.sent ∧
    t.hubs = s.hubs ∧ t.nextXfer = s.nextXfer ∧ t.ready = s.ready ∧ ((∀ d, o = .cvt d → d.sen = false) → t.statQ = s.statQ) ∧
    (∀ k', k' ≠ storeKey s h.leng.toNat → k' ≠ execKey s h.leng.toNat → eng t k' = eng s k') ∧
    (h.upsets = [] →
    (∀ k', k' ≠ storeKey s h.leng.toNat → eng t k' = eng s k') ∧
    (eng t (storeKey s h.leng.toNat)).arr = (eng s (storeKey s h.leng.toNat)).arr ∧
    (eng t (storeKey s h.leng.toNat)).slots = (eng s (storeKey s h.leng.toNat)).slots ∧
    (∀ p, p ≠ pgEng (storeKey s h.leng.toNat) 0 → p ≠ pgEng (storeKey s h.leng.toNat) 7 → p ≠ pgErr → p ≠ pgVilri →
      pageKept p s t) ∧
    (∀ r l, l < 64 → r ∉ regDests o → laneGet t (storeKey s h.leng.toNat) r l = laneGet s (storeKey s h.leng.toNat) r l) ∧
    (∀ q l, l < 64 → q ∉ quireDests h.seg o → quireGet t (storeKey s h.leng.toNat) q l = quireGet s (storeKey s h.leng.toNat) q l) ∧
    (∀ q, q ∉ maskDests o → maskGet t (storeKey s h.leng.toNat) q = maskGet s (storeKey s h.leng.toNat) q) ∧
    ((∀ d, o ≠ .smx d ∧ o ≠ .nrm d) →
      ∀ q l, rowGet t (storeKey s h.leng.toNat) q l = rowGet s (storeKey s h.leng.toNat) q l) ∧
    (∀ line, holdsQuiet s h → ¬ vecWritesLine s h o line →
      (cRead t (storeKey s h.leng.toNat) line).1 = (cRead s (storeKey s h.leng.toNat) line).1))

/-- An SCL that issues, is not second in its cycle and whose block indices are in range, with no record pending: where every
record compares, the slot holds the pair of the factor and the sum of the signed exponents, readable 8 cycles after issue, or is
invalid where no pair exists; where a record does not compare, the slot is invalid with the SKEW mark (and the poison of the
records read) and SCALE.SKEWS goes up by one. (05_scales_and_catalogue.md R114; 05_scales_and_catalogue.md R115;
05_scales_and_catalogue.md R119; 07_engine_schedules.md R191) -/
def Obligations.PairSlot : Prop :=
  ∀ (h : IssueHdr) (o : SclOp) (s : State) (c : Ctx) (j : Nat) (rs : List RecOut), (Instr.scl h o).wf = true →
    issue .scale 0 h s = some c → c.dup = false → j = (ownerOf c.s c.leng c.g).getD 0 →
    (([o.r1, o.r2, o.r3].zipIdx.map fun (r, i) => (r, advance o.adv i c.loops r.bix.toNat)).all fun x => bixOk c.s j x.1 x.2) = true →
    rs = ([o.r1, o.r2, o.r3].zipIdx.map fun (r, i) => (r, advance o.adv i c.loops r.bix.toNat)).map (fun x => recRead c.s c j x.1 x.2) →
    rs.any (·.early) = false →
    ∃ t, exec (.scl h o) s = .next t ∧ pcMoved s t h ∧ (slotGet t c.k o.slot.toNat).usable = c.cyc + 8 ∧
      (rs.all (fun r => r.cmp.isNone) = true →
        ∀ p, pairOf ((tabGet (fun _ => []) (job c.s j).factors c.leng).getD o.fidx.toNat 0) (rs.foldl (fun t r => t + r.x) 0) = p →
          (slotGet t c.k o.slot.toNat).valid = p.isSome ∧ (∀ q, p = some q → (slotGet t c.k o.slot.toNat).pair = q)) ∧
      (rs.all (fun r => r.cmp.isNone) = false →
        (slotGet t c.k o.slot.toNat).valid = false ∧ (slotGet t c.k o.slot.toNat).mark = (mkSkew ||| (rs.foldl (fun m r => m ||| r.mark) 0 &&& mkPoison)) ∧
        fget t (pgEng c.k 6) 0x44 0 16 = min (fget s (pgEng c.k 6) 0x44 0 16 + 1) 65535)

/-- A STAT that issues leaves the segment's present record invalid and pending until NLINES + 12 cycles after its issue;
STAT_READY on a pending record ends the wait and makes the record valid unless its statistics are invalid, and leaves a record
that is not pending alone. The record write that is due first on an engine takes place: its statistics join the job's transfers
as good ones exactly where its block did not fail, its record meets no hold window and it carries no mark; where its block did
not fail and no hold window turns the record away, the record line is written and its tag entry (other than 127 and 255) is
valid with the block's TID, SEQ and record line; a block that failed, or whose record is turned away, leaves its tag entry
invalid. A vector instruction that writes in the record's cycle loses the port and is under way no more; the rest is said where
there is none. (05_scales_and_catalogue.md R121; 05_scales_and_catalogue.md R124; 05_scales_and_catalogue.md R118;
05_scales_and_catalogue.md R129; 05_scales_and_catalogue.md R135) -/
def Obligations.ScaleRecords : Prop :=
  ((∀ (h : IssueHdr) (o : StatOp) (s : State) (c : Ctx), (Instr.stat h o).wf = true → issue .scale 0 h s = some c →
      ∃ t, exec (.stat h o) s = .next t ∧ pcMoved s t h ∧ (segOf t h.leng h.seg).present.valid = false ∧
        (segOf t h.leng h.seg).present.pending = true ∧ (segOf t h.leng h.seg).present.ready = c.cyc + o.nlines.toNat + 12) ∧
    (∀ (l : BitVec 6) (g : Seg) (s : State), ∃ t, exec (.statReady l g) s = .next t ∧
      ((segOf s l g).present.pending = true → (segOf t l g).present.pending = false ∧
        (segOf t l g).present.valid = !(segOf s l g).present.bad ∧ (segOf t l g).present.adj = (segOf s l g).present.adj) ∧
      ((segOf s l g).present.pending = false → segOf t l g = segOf s l g))) ∧
  (∀ (l : BitVec 6) (s : State) (w : RecWr), (eng s (storeKey s l.toNat)).nextRec = some w →
    w.tag ≠ 127 → w.tag ≠ 255 → (∀ h ∈ (eng s (storeKey s l.toNat)).openH, h.pend = []) →
    ∃ t, exec (.scaleRecordWrite l) s = .next t ∧
      (∀ p ∈ (eng t (storeKey s l.toNat)).vec.runs, p ∈ (eng s (storeKey s l.toNat)).vec.runs ∧
        (p.writes.any fun x => x.has w.due) = false) ∧
      ((∀ p ∈ (eng s (storeKey s l.toNat)).vec.runs, (p.writes.any fun x => x.has w.due) = false) →
      (∃ q, t.statQ = s.statQ ++ [q] ∧ q.tid = w.record.tid.toNat ∧ q.stats = w.record.stats ∧
        q.ok = (decide (w.mark &&& (mkFailed ||| mkPoison ||| mkSkew) = 0) && !blockFailed s (storeKey s l.toNat) w &&
          (heldAt (eng s (storeKey s l.toNat)) w.line w.due).isNone)) ∧
      (blockFailed s (storeKey s l.toNat) w = false → heldAt (eng s (storeKey s l.toNat)) w.line w.due = none →
        (eng t (storeKey s l.toNat)).recWrs = (eng s (storeKey s l.toNat)).recWrs.erase w ∧
        (cRead t (storeKey s l.toNat) w.line).1 = w.record.line ∧
        tabGet (fun _ => ({} : TagE)) (eng t (storeKey s l.toNat)).tags w.tag =
          { valid := true, tid := w.record.tid, seq := w.record.seq, line := BitVec.ofNat 17 w.line }) ∧
      (blockFailed s (storeKey s l.toNat) w = true ∨ heldAt (eng s (storeKey s l.toNat)) w.line w.due ≠ none →
        (tabGet (fun _ => ({} : TagE)) (eng t (storeKey s l.toNat)).tags w.tag).valid = false)))

/-- STATISTICS_TRANSFER takes the slot's oldest transfer from the queue; in time and with good statistics it merges their real
magnitudes into the entry's open step, late or without statistics it marks the step as partial. CATALOGUE_ENTRY_LOST on an entry
in use leaves it cold for its whole window with an empty ring. CATALOGUE_SEL copies the entry whole into the aperture.
(05_scales_and_catalogue.md R132; 05_scales_and_catalogue.md R135; 05_scales_and_catalogue.md R136; 05_scales_and_catalogue.md
R137; 15_register_pages.md R412) -/
def Obligations.CatalogueInputs : Prop :=
  (∀ (slot : BitVec 2) (late : Bool) (s : State) (x : StatX), s.statQ.find? (fun x => decide (x.slot = slot.toNat)) = some x →
      ∃ t, exec (.statisticsTransfer slot late) s = .next t ∧ t.statQ = s.statQ.erase x ∧
        ((catE s x.tid).mode ≠ 0 → late = false → x.ok = true →
          (catE t x.tid).stats = (catE s x.tid).stats.merge (realStats x.adj x.stats)) ∧
        ((catE s x.tid).mode ≠ 0 → (late = true ∨ x.ok = false) →
          (catE t x.tid).openPart = true ∧ (catE t x.tid).stats = (catE s x.tid).stats)) ∧
    (∀ (tid : BitVec 12) (s : State), (catE s tid.toNat).mode ≠ 0 →
      ∃ t, exec (.catalogueEntryLost tid) s = .next t ∧ (catE t tid.toNat).coldLeft = (catE s tid.toNat).w ∧
        (catE t tid.toNat).ring = [] ∧ (catE t tid.toNat).adj = 0 ∧ ∀ u, u ≠ tid.toNat → catE t u = catE s u) ∧
    (∀ (tid : BitVec 12) (s : State), ∃ t, exec (.catalogueSel tid) s = .next t ∧
      t.aperture = some (tid.toNat, catE s tid.toNat) ∧ t.cat = s.cat)

/-- A MOV that issues without a SCHED_FAULT, on an engine of a job: reading a populated Stacks range of this module it puts in
flight a transfer into the engine's Carrel with its length and declared cycle; writing to one it puts in flight a transfer of
its Carrel lines to that range, and the send log with room takes an entry. (07_engine_schedules.md R192;
09_checksums_replay_and_faults.md R238; 12_stacks_memory.md R327; 12_stacks_memory.md R328) -/
def Obligations.MovesStart : Prop :=
  ∀ (h : IssueHdr) (o : MovOp) (s : State) (c : Ctx) (j off sh : Nat) (ln : Int), (Instr.mov h o).wf = true →
    issue .move 0 h s = some c → c.dup = false → ln = advance o.adv 0 c.loops o.localLine.toNat →
    inFoot c.s c.leng c.g ln o.len.toNat = true → ownerOf c.s c.leng c.g = some j →
    sh = ((advance o.adv 1 c.loops o.remote.toNat) * 64 % 2 ^ 48).toNat → bitsOf sh 43 5 = modNum s →
    placeOf sh = .stacks off →
    ∃ t, exec (.mov h o) s = .next t ∧ pcMoved s t h ∧ t.nextXfer = s.nextXfer + 1 ∧
      ∃ x, t.xfers = s.xfers ++ [x] ∧ x.id = s.nextXfer ∧ x.slot = j ∧ x.n = o.len.toNat ∧ x.due = c.cyc + o.dl.toNat ∧ x.landed = 0 ∧
        (o.dir = false → x.kind = 0 ∧ x.eng = c.k ∧ x.target = ln.toNat) ∧
        (o.dir = true → x.kind = 1 ∧ x.target = off ∧
          ((segOf s h.leng h.seg).sendLog.length < 256 →
            ∃ e, (segOf t h.leng h.seg).sendLog = (segOf s h.leng h.seg).sendLog ++ [e] ∧ e.cyc = c.cyc ∧ e.len = o.len.toNat))

/-- Each issuing without a SCHED_FAULT on an engine of a job: CSEND to a present engine puts in flight a chain transfer of 64
values per vector with its channel; QADD and CSEND each add an entry to a send log with room; CRECV waits for the values of its
source and channel until its declared cycle. (03_quire_and_accumulation.md R76; 07_engine_schedules.md R193;
09_checksums_replay_and_faults.md R238) -/
def Obligations.ChainWords : Prop :=
  ∀ (h : IssueHdr) (s : State) (c : Ctx) (j : Nat), issue .chain 0 h s = some c → ownerOf c.s c.leng c.g = some j →
    (∀ o : CsendOp, chainSrcBad (settle c.k c.cyc c.s) c o.half o.base.toNat (o.nm1.toNat + 1) = 0 → absent s o.dle.toNat = false →
      ∃ t, exec (.csend h o) s = .next t ∧ pcMoved s t h ∧
        (∃ x, t.chains = s.chains ++ [x] ∧ x.src = c.leng ∧ x.dst = o.dle.toNat ∧ x.ch = o.ch.toNat ∧ x.job = j ∧
          x.vals.length = 64 * (o.nm1.toNat + 1) ∧ x.sent = 0) ∧
        ((segOf s h.leng h.seg).sendLog.length < 256 →
          (segOf t h.leng h.seg).sendLog.length = (segOf s h.leng h.seg).sendLog.length + 1)) ∧
    (∀ o : QaddOp, chainSrcBad (settle c.k c.cyc c.s) c o.half o.base.toNat (o.nm1.toNat + 1) = 0 →
      ∃ t, exec (.qadd h o) s = .next t ∧ pcMoved s t h ∧ t.chains = s.chains ∧
        ((segOf s h.leng h.seg).sendLog.length < 256 →
          ∃ e, (segOf t h.leng h.seg).sendLog = (segOf s h.leng h.seg).sendLog ++ [e] ∧ e.cyc = c.cyc ∧ e.target = o.shelf ∧
            e.len = 64 * (o.nm1.toNat + 1))) ∧
    (∀ o : CrecvOp, (Instr.crecv h o).wf = true → c.dup = false →
      (o.tgt = true → inFoot c.s c.leng c.g o.line.toNat (64 * (o.nm1.toNat + 1)) = true) →
      ∃ t, exec (.crecv h o) s = .next t ∧ pcMoved s t h ∧
        ∃ r, (eng t c.k).recvs = (eng s c.k).recvs ++ [r] ∧ r.sk = o.sk ∧ r.src = o.src.toNat ∧ r.ch = o.ch.toNat ∧
          r.due = c.cyc + o.dl.toNat ∧ r.n = 64 * (o.nm1.toNat + 1) ∧ r.got = 0)

/-- The next value of a chain transfer leaves it (the last one ends it). Where the receiving engine has no CRECV of that source
and channel, SCHED_FAULT 0x07 is counted on its SEQ page and nothing is added to its halves; where one with fewer values left
than it expects waits, it has one value more; and a value that comes in time to an idle half of a q8 or q16 quire format, within
its vectors and term count, is added exactly to element SENT of the CRECV's target. While the receiving engine's clock is
stopped nothing changes. (03_quire_and_accumulation.md R76; 03_quire_and_accumulation.md R79; 07_engine_schedules.md R193) -/
def Obligations.ChainArrives : Prop :=
  ∀ (l src : BitVec 6) (ch : BitVec 4) (cyc : Nat) (s : State) (x : ChainX) (rest : List ChainX) (v : ChainV),
    (frozen s l.toNat = true → exec (.chainArrival l src ch cyc) s = .next s) ∧
    (frozen s l.toNat = false →
    s.chains = x :: rest → x.src = src.toNat → x.dst = l.toNat → x.ch = ch.toNat → x.vals[x.sent]? = some v →
    ∃ t, exec (.chainArrival l src ch cyc) s = .next t ∧
      t.chains = (if x.vals.length ≤ x.sent + 1 then rest else { x with sent := x.sent + 1 } :: rest) ∧
      (recvOf s (storeKey s l.toNat) false src.toNat ch.toNat x.wt = none →
        (eng t (storeKey s l.toNat)).arr = (eng s (storeKey s l.toNat)).arr ∧
        fget t (pgEng (storeKey s l.toNat) 0) 0x68 0 32 = min (fget s (pgEng (storeKey s l.toNat) 0) 0x68 0 32 + 1) (2 ^ 32 - 1)) ∧
      (∀ r, recvOf s (storeKey s l.toNat) false src.toNat ch.toNat x.wt = some r →
        (r.got + 1 < r.n → x.sent + 1 < x.vals.length →
          ∃ r', r' ∈ (eng t (storeKey s l.toNat)).recvs ∧ r'.id = r.id ∧ r'.got = r.got + 1) ∧
        (∀ tg, r.tgt = false → r.late = false → cyc ≤ r.due → x.sent < r.n → (eng s (storeKey s l.toNat)).arr.flights = [] →
          ((eng s (storeKey s l.toNat)).arr.half r.half).tag = some tg → (tg = .q8 ∨ tg = .q16) → v.fmt = tagQuire tg →
          r.base + x.sent / 64 < tagCap tg → ((eng s (storeKey s l.toNat)).arr.half r.half).terms + x.terms ≤ 2 ^ 31 - 1 →
          (((eng t (storeKey s l.toNat)).arr.half r.half).elem (r.base + x.sent / 64) (x.sent % 64)).val =
            (chainAdd tg (((eng s (storeKey s l.toNat)).arr.half r.half).elem (r.base + x.sent / 64) (x.sent % 64)).val v).1)))

/-- In its declared cycle or before, the next line of a transfer into the Stacks is written to its place and every byte outside
that line is kept, and the transfer has one more line landed or is done; the next line of a transfer into a Carrel, its engine's
clock running, no hold window open and no drain still reading, is written to its place in the first cycle from its arrival on in
which write port 1 is free, if that is not after the declared cycle. At the declared cycle of a transfer into a Carrel with
lines still to land, every target line carries the FAILED mark and the transfer is dropped. While the movers run, an entry of a
bound running job toward a present engine, the mover page of the hub it takes its lines from (the stream's for a tile, the
Stacks') being enabled, puts in flight one transfer into that engine's Carrel, of the entry's length and tag; where the movers
do not run nothing changes. (12_stacks_memory.md R329; 12_stacks_memory.md R330; 12_stacks_memory.md R332; 12_stacks_memory.md
R326) -/
def Obligations.MoverLines : Prop :=
  ((∀ (id cyc : Nat) (s : State) (x : Xfer) (v : Line × Mark), s.xfers.find? (fun x => decide (x.id = id)) = some x → x.kind = 1 →
      x.onTime = true → cyc ≤ x.due → x.lines[x.landed]? = some v →
      ∃ t, exec (.moverLineArrival id cyc) s = .next t ∧ (stkRead t (x.target + 64 * x.landed)).1 = v.1 ∧
        (∀ a, (a < x.target + 64 * x.landed ∨ x.target + 64 * x.landed + 64 ≤ a) → stkByte t a = stkByte s a) ∧
        (x.landed + 1 = x.n → ∀ y ∈ t.xfers, y.id ≠ id) ∧
        (x.landed + 1 ≠ x.n → ∃ y ∈ t.xfers, y.id = id ∧ y.landed = x.landed + 1)) ∧
    (∀ (id cyc : Nat) (s : State) (x : Xfer) (v : Line × Mark), s.xfers.find? (fun x => decide (x.id = id)) = some x → x.kind = 0 →
      x.held s = false → x.onTime = true → landCycle (eng s x.eng) cyc ≤ x.due → x.lines[x.landed]? = some v → (eng s x.eng).openH = [] →
      (eng s x.eng).arr.reads = [] →
      ∃ t, exec (.moverLineArrival id cyc) s = .next t ∧ (cRead t x.eng (x.target + x.landed)).1 = v.1 ∧ t.dram = s.dram) ∧
    (∀ (id : Nat) (s : State) (x : Xfer), s.xfers.find? (fun x => decide (x.id = id)) = some x → x.kind = 0 → x.onTime = true →
      x.landed < x.n → x.held s = false → frozen s x.leng = false →
      ∃ t, exec (.transferDeadline id) s = .next t ∧ (∀ y ∈ t.xfers, y.id ≠ id) ∧
        ∀ i, i < x.n → (cRead t x.eng (x.target + i)).2 &&& mkFailed = mkFailed ∧
          (cRead t x.eng (x.target + i)).1 = (cRead s x.eng (x.target + i)).1)) ∧
  (∀ (slot : BitVec 2) (n : Nat) (s : State) (e : HubMove),
    (moversRun s = false → exec (.hubMoverEntry slot n) s = .next s) ∧
    (moversRun s = true → (job s slot.toNat).bound = true → (job s slot.toNat).st = 2 → (job s slot.toNat).hubMoves[n]? = some e →
      absent s e.dest = false → enabled s (pgMover (if e.kind = 0 then (job s slot.toNat).stream else 64 * e.src.toNat % 2 ^ 42 / 2 ^ 38) slot.toNat) = true →
      ∃ t x, exec (.hubMoverEntry slot n) s = .next t ∧ t.xfers = s.xfers ++ [x] ∧ x.kind = 0 ∧ x.hub = true ∧
        x.eng = storeKey s e.dest ∧ x.target = e.dline ∧ x.n = e.len ∧ x.tag = e.tag ∧ x.slot = slot.toNat ∧ t.engs = s.engs))

/-- An error in no pass in flight changes nothing. The rest is said where the tile and every pass in flight are formed of what
their lines held when they were read. An error that no check of the pass finds leaves the registers and the flights' operations,
issue and commit cycles as they were and every element as it was but those of the faulty vector in the columns with an error.
One that is found, in a pass whose replay runs without a fault: every pass issued from the faulty one on stays in flight, issued
d cycles later, where d runs from its issue to the cycle after the faulty vector, or to the end of the tile's reload where a
later LDS had begun; the engine's ARRAY page counts it, and every element of the pass's vectors in the destination half carries
REPLAYED. One whose replay ends in a second fault is counted too, and the pass either stays in flight or is dropped.
(04_matrix_array.md R108; 09_checksums_replay_and_faults.md R232; 09_checksums_replay_and_faults.md R255; 15_register_pages.md)
-/
def Obligations.FaultFindings : Prop :=
  ∀ (f : FaultFinding) (s : State) (e : Eng), e = eng s (storeKey s f.leng.toNat) →
    (e.arr.flights[f.pass]? = none → exec (.passFault f) s = .next s) ∧
    (formed e → ∀ p, e.arr.flights[f.pass]? = some p →
      (siteFound f.site p (suspended s f.leng.toNat) = false →
        ∃ t, exec (.passFault f) s = .next t ∧ t.regs = s.regs ∧
          (eng t (storeKey s f.leng.toNat)).arr.flights.map (fun g => (g.op, g.cyc, g.commit)) =
            e.arr.flights.map (fun g => (g.op, g.cyc, g.commit)) ∧
          ∀ b v n, n < 64 → (siteErr f.site n = .zero ∨ b ≠ p.op.dsth ∨
            v ≠ f.site.p.toNat * p.region + p.op.boff.toNat + f.site.m.toNat) →
            ((eng t (storeKey s f.leng.toNat)).arr.half b).elem v n = (e.arr.half b).elem v n) ∧
      (∀ c d, siteFound f.site p (suspended s f.leng.toNat) = true → c = siteCyc f.site p p.cyc →
        d = (if (e.arr.lds.filter fun a => decide (p.cyc < a)).any (fun a => decide (a + 1 ≤ c)) then c + 62 else c + 1) - p.cyc →
        f.replay = [] → ∃ t, exec (.passFault f) s = .next t ∧
          (eng t (storeKey s f.leng.toNat)).arr.flights.map (fun g => (g.op, g.cyc, g.commit)) =
            e.arr.flights.map (fun g => if p.cyc ≤ g.cyc then (g.op, g.cyc + d, g.commit + d) else (g.op, g.cyc, g.commit)) ∧
          (eng t (storeKey s f.leng.toNat)).dShift = e.dShift + d ∧
          fget t (pgEng (execKey s f.leng.toNat) 1) 0x78 0 16 = min (fget s (pgEng (execKey s f.leng.toNat) 1) 0x78 0 16 + 1) 65535 ∧
          ∀ x ∈ ((eng t (storeKey s f.leng.toNat)).arr.half p.op.dsth).elems,
            ((covers p.region p.nprob p.op.boff.toNat (p.op.mm1.toNat + 1)).map (·.1)).contains (x.1 / 64) = true →
            x.2.mark &&& mkReplayed = mkReplayed) ∧
      (∀ x, siteFound f.site p (suspended s f.leng.toNat) = true →
        endsReplay f.site p (suspended s f.leng.toNat) f.replay = some x → ∃ t, exec (.passFault f) s = .next t ∧
          fget t (pgEng (execKey s f.leng.toNat) 1) 0x78 0 16 = min (fget s (pgEng (execKey s f.leng.toNat) 1) 0x78 0 16 + 1) 65535 ∧
          (eng t (storeKey s f.leng.toNat)).arr.flights.length ≤ e.arr.flights.length))

/-- The oldest row check of an engine leaves the queue; a selected one whose sums, with the errors the hardware made in them,
disagree in the segment's present work tick retracts the segment's work tick, one that agrees leaves the segment and the array
as they were. A RETRACT for the segment's work tick marks it whole; one for an earlier work tick that the segment still keeps
marks that one's output lines which nothing has overwritten since, the present work tick untouched (which work ticks are kept,
and that an overwritten line is not marked, is log entry 94, DEDUCED: R240 says every output in w); one for a work tick that is
marked whole, of another job, or for a work tick that is not kept, has no effect. A RETRACT for the verdict buffer marks its
items of the named frame. (09_checksums_replay_and_faults.md R229; 09_checksums_replay_and_faults.md R239;
09_checksums_replay_and_faults.md R240) -/
def Obligations.RowChecksAndRetraction : Prop :=
  (∀ (l : BitVec 6) (errs : List SumErr) (s : State) (r : RowChk) (rest : List RowChk),
      (eng s (storeKey s l.toNat)).rowChks = r :: rest →
      ∃ t, exec (.rowCheckComplete l errs) s = .next t ∧ (eng t (storeKey s l.toNat)).rowChks = rest ∧
        (r.selected = true → rowDisagree r.rows errs ≠ [] → workTick s l.toNat r.seg = r.workTick →
          (segOf t l r.seg).retracted = true) ∧
        (r.selected = false ∨ rowDisagree r.rows errs = [] → segOf t l r.seg = segOf s l r.seg ∧
          (eng t (storeKey s l.toNat)).arr = (eng s (storeKey s l.toNat)).arr)) ∧
    (∀ (l : BitVec 6) (m : RetractMsg) (s : State) (g : Seg), g = (if m.bg then .bg else .rt) →
      (ownerOf s l.toNat g = some m.job.toNat → workTick s l.toNat g = m.workTick → (segOf s l g).retAll = false →
        ∃ t, exec (.retract (some l) m) s = .next t ∧ (segOf t l g).retracted = true ∧ (segOf t l g).retAll = true) ∧
      (∀ p, ownerOf s l.toNat g = some m.job.toNat → workTick s l.toNat g ≠ m.workTick →
        ((segOf s l g).past.toList ++ (segOf s l g).older).find? (fun p => decide (p.wt = m.workTick)) = some p → p.retAll = false →
        ∃ t q, exec (.retract (some l) m) s = .next t ∧ q ∈ (segOf t l g).past.toList ++ (segOf t l g).older ∧ q.wt = p.wt ∧
          q.since = p.since ∧ q.retAll = true ∧ (segOf t l g).retracted = (segOf s l g).retracted ∧
          ∀ x ∈ p.wrote, x.1 ∉ (segOf s l .rt).wrote.map (·.1) → x.1 ∉ (segOf s l .bg).wrote.map (·.1) →
            (∀ q ∈ endedSince (eng s (storeKey s l.toNat)) p.upto, x.1 ∉ q.wrote.map (·.1)) →
            (cRead t (storeKey s l.toNat) x.1).2 &&& mkRetracted = mkRetracted) ∧
      (ownerOf s l.toNat g ≠ some m.job.toNat ∨ (workTick s l.toNat g = m.workTick ∧ (segOf s l g).retAll = true) ∨
          (workTick s l.toNat g ≠ m.workTick ∧ ∀ p, ((segOf s l g).past.toList ++ (segOf s l g).older).find? (fun p => decide (p.wt = m.workTick)) = some p →
            p.retAll = true) →
        exec (.retract (some l) m) s = .next s)) ∧
    (∀ (m : RetractMsg) (s : State), ((job s m.job.toNat).frames.any fun x => decide (x.frame = m.workTick)) = true →
      ∃ t, exec (.retract none m) s = .next t ∧ t.engs = s.engs ∧ ∀ x ∈ (job t m.job.toNat).frames, x.frame = m.workTick →
        ∀ i ∈ msgItems m, (tabGet (fun _ => ({ line := 0, mark := mkFailed } : VLine)) x.items i).mark &&& mkRetracted = mkRetracted)

/-- While REFCLK runs and the module is not Off, TICK advances the tick number by one in every power state, and the REFCLK time
by TICK.PERIOD; where a follower's first capture places its tick, its tick not lost, by the capture's offset and INDLY (that the
first capture alone places it is log entry 53, DEDUCED). Otherwise it changes nothing. TICK_REPHASE of an armed generator whose
port runs, with the counter at or past a SOFS that it has not passed before, and no job in a slot, is a tick that takes the next
number and latches the counter as C0; of a generator that is not armed, or has passed SOFS, it changes nothing (a SOFS that the
counter had passed at an earlier tick counts as passed: log entry 53). (08_frame_tick_and_repeatability.md R199;
08_frame_tick_and_repeatability.md R201; 08_frame_tick_and_repeatability.md R203; 08_frame_tick_and_repeatability.md R204;
08_frame_tick_and_repeatability.md R206) -/
def Obligations.TickAdvances : Prop :=
  (∀ (v : TickEnv) (s : State), (ticking s = true → ∃ t, exec (.tick v) s = .next t ∧ t.tick = s.tick + 1 ∧
        t.refTick = s.refTick + tickLen s ∧ (fget s pgTick 0x44 4 2 ≠ 2 ∨ s.pwr.tickSeen = true ∨ s.pwr.tickInAt = none ∨ 4 ≤ fget s pgTick 0x6C 16 8 →
          t.refTick = s.refTick + period s) ∧
        ∀ o, fget s pgTick 0x44 4 2 = 2 → s.pwr.tickSeen = false → fget s pgTick 0x6C 16 8 < 4 → s.pwr.tickInAt = some o →
          t.refTick = s.refTick + o + fget s pgTick 0x54 8 8) ∧
      (ticking s = false → exec (.tick v) s = .next s)) ∧
    (∀ (count : BitVec 64) (since : Nat) (s : State),
      (ticking s = true → fget s pgTick 0x44 0 1 = 1 → fget s pgTick 0x44 6 1 = 0 → tickPortRuns s = true →
        rget64 s pgTick 0x48 ≤ count → s.pwr.sofsPassed ≠ some (rget64 s pgTick 0x48) → anyJob s = false →
        ∃ t, exec (.tickRephase count since) s = .next t ∧ t.tick = s.tick + 1 ∧ rget64 t pgTick 0x60 = count) ∧
      (fget s pgTick 0x44 0 1 = 0 ∨ s.pwr.sofsPassed = some (rget64 s pgTick 0x48) →
        exec (.tickRephase count since) s = .next s))

/-- An engine whose cycle 0 was to follow the tick starts its frame: it no longer waits, and where a running RT job whose first
tick has passed owns it, the RT segment is at word 0 with no loops, counting its first DELAY from the engine's cycle 0. An
engine with no lag is left as it was. Where the RT segment of an engine still runs at the tick after the one its frame should
have ended by, every frame record of that data frame carries OVERRUN; one tick later the segment is cut: it issues nothing more,
the engine waits for its cycle 0, and a record of either frame still open carries FAILED and OVERRUN with TEVT bit 6.
(07_engine_schedules.md R177; 08_frame_tick_and_repeatability.md R207; 08_frame_tick_and_repeatability.md R210;
08_frame_tick_and_repeatability.md R209; 08_frame_tick_and_repeatability.md R211) -/
def Obligations.FrameStartsAndEnds : Prop :=
  (∀ (l : BitVec 6) (s : State),
    ((eng s (storeKey s l.toNat)).lagged = false → exec (.engineFrameStart l) s = .next s) ∧
    (running s = true → absent s l.toNat = false → (eng s (storeKey s l.toNat)).lagged = true → rtStarts s l.toNat = true →
      ∃ t, exec (.engineFrameStart l) s = .next t ∧ (eng t (storeKey s l.toNat)).lagged = false ∧ (segOf t l .rt).st = 1 ∧
        (segOf t l .rt).pc = 0 ∧ (segOf t l .rt).loops = [] ∧ (segOf t l .rt).last = (eng s (storeKey s l.toNat)).cyc0)) ∧
  (∀ (l : BitVec 6) (s : State) (j : Nat) (fr : BitVec 64), ownerOf s l.toNat .rt = some j → fr = rtFrame s l.toNat →
    running s = true → (segOf s l .rt).st = 1 →
    (beganAt s j fr + 1 ≤ s.tick → ∃ t, exec (.overrun l) s = .next t ∧
      ∀ f ∈ (job t j).frames, f.frame = fr → f.marks &&& mkOverrun = mkOverrun) ∧
    (beganAt s j fr + 2 ≤ s.tick → ∃ t, exec (.segmentCut l) s = .next t ∧ (segOf t l .rt).st = 3 ∧
      (eng t (storeKey s l.toNat)).lagged = true ∧
      ∀ f ∈ (job t j).frames, f.frame = fr ∨ f.frame = fr + 1 →
        f.marks &&& (mkFailed ||| mkOverrun) = mkFailed ||| mkOverrun ∧ f.tevt.getLsbD 6 = true))

/-- While REFCLK runs and the module is not Off, in every power state, a tick puts the shadow of CURATOR.THERM (a tick-class
register of a module page) in force field by field and leaves no shadow of it. A captured value of an engine's CHECK.CTL commits
at that engine's cycle 0, where a late engine starts its frame: RATIO takes it, and nothing of it waits any more. (Said of
tables in canonical form, which StepKeepsTableForms keeps.) (15_register_pages.md R394; 15_register_pages.md R395;
08_frame_tick_and_repeatability.md R210) -/
def Obligations.TickClassCommits : Prop :=
  (∀ (v : TickEnv) (s : State) (w : Word), ticking s = true → tabWf (fun _ => none) s.shadow = true →
      tabGet (fun _ => none) s.shadow (ridx pgCur 0x44) = some w → ∃ t, exec (.tick v) s = .next t ∧
        tabGet (fun _ => none) t.shadow (ridx pgCur 0x44) = none ∧ ∀ lo ∈ [0, 8, 16], fget t pgCur 0x44 lo 8 = bitsOf w.toNat lo 8) ∧
    (∀ (l : BitVec 6) (s : State) (w : Word) (k : Nat), k = storeKey s l.toNat → k < 80 → running s = true → absent s l.toNat = false →
      (eng s k).lagged = true → tabWf (fun _ => none) s.captured = true →
      tabGet (fun _ => none) s.captured (ridx (pgEng k 5) 0x40) = some w → ∃ t, exec (.engineFrameStart l) s = .next t ∧
        tabGet (fun _ => none) t.captured (ridx (pgEng k 5) 0x40) = none ∧
        fget t (pgEng k 5) 0x40 0 3 = bitsOf w.toNat 0 3)

/-- On a follower with no job in a slot TICKALIGN sets the tick so that the tick 16 later has the named number, and shows that
number; TICK_IN_CAPTURE keeps the capture's offset (a normal pulse); STEPLINK of an occupied slot of a running module is kept
with its sender, tick and step code (a code above 4 counts as 4, the model's choice of log entry 135). On a module that is no
follower TICKALIGN and TICK_IN_CAPTURE change nothing. (08_frame_tick_and_repeatability.md R204;
08_frame_tick_and_repeatability.md R205; 08_frame_tick_and_repeatability.md R206; 13_abfold_fabric.md R349; 13_abfold_fabric.md
R356) -/
def Obligations.TickAlignment : Prop :=
  (∀ (m : BitVec 5) (p : BitVec 32) (n : BitVec 64) (s : State),
      (ticking s = true → fget s pgTick 0x44 4 2 = 2 → anyJob s = false → ∃ t, exec (.tickAlign m p n) s = .next t ∧
        t.tick + 16 = n ∧ rget64 t pgTick 0x70 = n ∧ t.pwr.tickAligned = some n) ∧
      (fget s pgTick 0x44 4 2 ≠ 2 → exec (.tickAlign m p n) s = .next s)) ∧
    (∀ (off : Nat) (s : State),
      (ticking s = true → fget s pgTick 0x44 4 2 = 2 → ∃ t, exec (.tickInCapture off false) s = .next t ∧
        t.pwr.tickInAt = some off ∧ t.tick = s.tick) ∧
      (fget s pgTick 0x44 4 2 ≠ 2 → ∀ w, exec (.tickInCapture off w) s = .next s)) ∧
    (∀ (slot : BitVec 2) (m : BitVec 5) (c : BitVec 8) (n : BitVec 64) (s : State), running s = true → (job s slot.toNat).occupied = true →
      ∃ t, exec (.stepLink slot m c n) s = .next t ∧
        t.cur.steplinks = s.cur.steplinks ++ [(slot.toNat, m.toNat, n, min c.toNat 4)])

/-- On a running module a current above ZONEz.ILIM, a temperature at or above THERM.FREEZE and every other cause stop the clocks
of the zone and of every zone linked to it by R18, which then hold the condition as a cause; below those readings nothing
changes. Above 760 W the envelope guard stops all four zones, at 700 W or below it restarts every zone that it alone held, and
between the two it changes nothing. A current below 90 % of ZONEz.ILIM, or a temperature 3 °C below THERM.FREEZE, restarts a
zone that this condition alone held; at a higher reading the zone stays as it was. Not running, none of the three changes
anything, but that in Standby the guard falls at 700 W or below. (01_module_and_hierarchies.md R18; 01_module_and_hierarchies.md
R19; 10_curator_and_night_desk.md R267; 10_curator_and_night_desk.md R269) -/
def Obligations.FreezeStops : Prop :=
  (∀ (z : BitVec 2) (c : FreezeCause) (time : Nat) (s : State),
      (running s = true → (∀ r, c = .current r → fget s (pgZone z.toNat) 0x44 0 12 < r.toNat) →
        (∀ r, c = .temperature r → fget s pgCur 0x44 16 8 ≤ r.toNat) →
        ∃ t, exec (.throttleFreeze z c time) s = .next t ∧ (zone t z.toNat).frozenAt.isSome = true ∧
          causeCode c ∈ (zone t z.toNat).causes ∧
          ∀ y ∈ linkZones s [z.toNat], (zone t y).frozenAt.isSome = true ∧ (y ≠ z.toNat → 16 + z.toNat ∈ (zone t y).causes)) ∧
      (running s = false ∨ (∃ r, c = .current r ∧ r.toNat ≤ fget s (pgZone z.toNat) 0x44 0 12) ∨
        (∃ r, c = .temperature r ∧ r.toNat < fget s pgCur 0x44 16 8) → exec (.throttleFreeze z c time) s = .next s)) ∧
    (∀ (p : BitVec 16) (time : Nat) (s : State), running s = true →
      (fget s pgCur 0x78 8 1 = 0 → 7600 < p.toNat → ∃ t, exec (.envelopeGuard p time) s = .next t ∧
        fget t pgCur 0x78 8 1 = 1 ∧ ∀ z, z < 4 → (zone t z).frozenAt.isSome = true ∧
          ((zone s z).causes = [] → (zone t z).causes = [3]) ∧ (zone t z).causes.contains 3 = true) ∧
      (fget s pgCur 0x78 8 1 = 1 → p.toNat ≤ 7000 → ∃ t, exec (.envelopeGuard p time) s = .next t ∧ fget t pgCur 0x78 8 1 = 0 ∧
        ∀ z, z < 4 → (zone s z).causes = [3] → (zone t z).frozenAt = none) ∧
      (fget s pgCur 0x78 8 1 = 0 → p.toNat ≤ 7600 → exec (.envelopeGuard p time) s = .next s) ∧
      (fget s pgCur 0x78 8 1 = 1 → 7000 < p.toNat → exec (.envelopeGuard p time) s = .next s)) ∧
    (∀ (p : BitVec 16) (r : ZoneReading) (time : Nat) (s : State), running s = false →
      exec (.freezeRelease r time) s = .next s ∧ (pstate s ≠ 4 → exec (.envelopeGuard p time) s = .next s) ∧
      (pstate s = 4 → (fget s pgCur 0x78 8 1 = 0 ∨ 7000 < p.toNat → exec (.envelopeGuard p time) s = .next s) ∧
        (fget s pgCur 0x78 8 1 = 1 → p.toNat ≤ 7000 → ∃ t, exec (.envelopeGuard p time) s = .next t ∧ fget t pgCur 0x78 8 1 = 0))) ∧
    (∀ (z : BitVec 2) (cur : BitVec 12) (temp : BitVec 8) (time : Nat) (s : State), running s = true →
      (((zone s z.toNat).causes = [1] ∧ 10 * cur.toNat < 9 * fget s (pgZone z.toNat) 0x44 0 12) ∨
        ((zone s z.toNat).causes = [2] ∧ temp.toNat + 3 ≤ fget s pgCur 0x44 16 8) →
        ∃ t, exec (.freezeRelease ⟨z, cur, temp⟩ time) s = .next t ∧ (zone t z.toNat).frozenAt = none ∧
          (zone t z.toNat).causes = [] ∧
          ∀ y, y < 4 → (zone s y).causes = [16 + z.toNat] → (zone t y).frozenAt = none ∧ (zone t y).causes = []) ∧
      (((zone s z.toNat).causes = [1] ∧ 9 * fget s (pgZone z.toNat) 0x44 0 12 ≤ 10 * cur.toNat) ∨
        ((zone s z.toNat).causes = [2] ∧ fget s pgCur 0x44 16 8 < temp.toNat + 3) →
        ∃ t, exec (.freezeRelease ⟨z, cur, temp⟩ time) s = .next t ∧ (zone t z.toNat).causes = (zone s z.toNat).causes ∧
          (zone t z.toNat).frozenAt = (zone s z.toNat).frozenAt))

/-- At 110 °C or more, unless the module is Off, the trip puts it in Fault-hold with cause 4 and the Stacks lose their contents;
below that nothing changes. The loss of REFCLK after boot freezes every zone and puts a module that is not yet held in Fault-
hold with cause 1; in Boot or Off nothing changes. On a module that is not Off and not in Fault-hold: a zone rail or clock fault
and a hub fault mark the unit failed and put the module in Fault-hold with causes 1 and 2. A die fault marks the die out of
service, makes its four logical engines absent, and holds nothing. (17_module_physical.md R444; 17_module_physical.md R452;
16_startup_and_identity.md R413; 01_module_and_hierarchies.md R21; 01_module_and_hierarchies.md R22;
01_module_and_hierarchies.md R24) -/
def Obligations.HardwareFaults : Prop :=
  ((∀ (tj : BitVec 8) (s : State),
      (s.pwr.off = false → 110 ≤ tj.toNat → ∃ t, exec (.junctionTrip tj) s = .next t ∧ pstate t = 5 ∧ fget t pgMod 0x40 4 4 = 4 ∧
        (∀ a, stkByte t a = 0) ∧ t.pwr.thermTrip = true) ∧
      (tj.toNat < 110 → exec (.junctionTrip tj) s = .next s)) ∧
    (∀ s : State,
      (s.pwr.off = false → pstate s ≠ 1 → ∃ t, exec .refclkLost s = .next t ∧ pstate t = 5 ∧ t.pwr.refclk = false ∧
        t.tick = s.tick ∧ (pstate s ≠ 5 → fget t pgMod 0x40 4 4 = 1) ∧ ∀ z, z < 4 → (zone t z).frozenAt.isSome = true) ∧
      (s.pwr.off = true ∨ pstate s = 1 → exec .refclkLost s = .next s))) ∧
  (∀ s : State, s.pwr.off = false →
    (pstate s ≠ 5 → (∀ z : BitVec 2, ∃ t, exec (.zoneRailOrClockFault z) s = .next t ∧ fget t (pgZone z.toNat) 0x0C 2 1 = 1 ∧
        pstate t = 5 ∧ fget t pgMod 0x40 4 4 = 1) ∧
      (∀ h : BitVec 2, ∃ t, exec (.hubFault h) s = .next t ∧ fget t (pgHub h.toNat) 0x0C 2 1 = 1 ∧ pstate t = 5 ∧
        fget t pgMod 0x40 4 4 = 2 ∧ t.pwr.dead = true)) ∧
    (∀ d : BitVec 4, fget s (pgDie d.toNat 0) 0x0C 2 1 = 0 → ∃ t, exec (.dieFault d) s = .next t ∧
      fget t (pgDie d.toNat 0) 0x0C 2 1 = 1 ∧ pstate t = pstate s ∧
      ∀ l : BitVec 6, l.toNat / 4 = d.toNat → absent t l.toNat = true))

/-- JOB_PAUSE of a running job asks for a pause and shows state 3; JOB_CONT of a paused one asks for its continuation;
JOB_UNLOAD of a bound running job asks for its unload; JOB_SLOT_RESET of an occupied slot whose engines are all at a pass
boundary frees it at once, ends its transfers and drops its open frames into the records that are to leave; with passes in
flight the slot is kept, and each of its segments stops in the cycle after the last of them commits: no instruction of it from
there on does anything, and with the PASS_COMMIT after which no engine of it has a pass left the slot is free. On a free slot
all four change nothing. (That an unload shows state 3 until its tick is log entry 46, DEDUCED; the records of a reset slot, and
the cycle in which its segments stop, log entry 47, DEDUCED; the clause on a free slot, which the spec leaves to the reader, log
entry 3, DESIGN CHOICE.) (08_frame_tick_and_repeatability.md R219; 15_register_pages.md R402; 01_module_and_hierarchies.md R27)
-/
def Obligations.JobRequests : Prop :=
  (∀ (h : IssueHdr) (o : EOp) (s t : State) (n : Nat), (∀ d, o ≠ .pass d) → (segOf s h.leng h.seg).stopAt = some n → n ≤ declared s h →
      exec (o.instr h) s = .next t → t = s) ∧
    (∀ (l : BitVec 6) (s : State), ∃ t, exec (.passCommit l) s = .next t ∧
      ∀ j, j < 4 → (job t j).ending = true → atBoundary t (job t j) = false) ∧
    ∀ (slot : BitVec 2) (s : State),
    ((job s slot.toNat).st = 2 → ∃ t, exec (.jobPause slot) s = .next t ∧ (job t slot.toNat).st = 3 ∧
      (job t slot.toNat).pauseReq = true ∧ t.engs = s.engs ∧ t.regs = s.regs) ∧
    ((job s slot.toNat).st = 4 → enabled s pgMod = true → ∃ t, exec (.jobCont slot) s = .next t ∧
      (job t slot.toNat).contReq = true ∧ (job t slot.toNat).st = 4 ∧ t.engs = s.engs ∧ t.regs = s.regs) ∧
    ((job s slot.toNat).st = 2 → (job s slot.toNat).loadWait = false → ∃ t, exec (.jobUnload slot) s = .next t ∧
      (job t slot.toNat).unloadReq = true ∧ (job t slot.toNat).st = 3 ∧ t.engs = s.engs ∧ t.regs = s.regs) ∧
    ((job s slot.toNat).st ≠ 0 → atBoundary s (job s slot.toNat) = true → ∃ t, exec (.jobSlotReset slot) s = .next t ∧
      (job t slot.toNat).st = 0 ∧
      (∀ x ∈ t.xfers, x.slot ≠ slot.toNat) ∧ t.ready.length = s.ready.length + (job s slot.toNat).frames.length) ∧
    ((job s slot.toNat).st ≠ 0 → atBoundary s (job s slot.toNat) = false → ∃ t, exec (.jobSlotReset slot) s = .next t ∧
      (job t slot.toNat).ending = true ∧ (job t slot.toNat).st = (job s slot.toNat).st ∧ t.ready = s.ready ∧ t.xfers = s.xfers ∧
      ∀ l ∈ (job s slot.toNat).held, ((eng t (storeKey s l)).seg (job s slot.toNat).seg).stopAt =
        some ((boundaryOf (eng s (storeKey s l)) (job s slot.toNat).seg).getD 0)) ∧
    ((job s slot.toNat).st = 0 → exec (.jobPause slot) s = .next s ∧ exec (.jobCont slot) s = .next s ∧
      exec (.jobUnload slot) s = .next s ∧ exec (.jobSlotReset slot) s = .next s)

/-- On a running module with the MOD page enabled, and no test unit on the image's engines: JOB_LOAD of an image at LOADADDR of
a free slot that passes every check of Table 7-18 occupies the slot as state 1 with the image's class, engines, stream and
digest, and LOADRES shows that it was accepted; JOB_RESUME does the same where the save image at SAVEADDR passes the checks of
R221 too, and the job is marked as resumed. An image that fails a check leaves the slot free, and LOADRES shows the first
failing code with its program counter and engine; so does a JOB_RESUME whose save image fails a check of R221, with that code
alone, and no image, with code 0x01. A slot in use keeps its job and engines, and LOADRES shows code 0x20.
(07_engine_schedules.md R198; 08_frame_tick_and_repeatability.md R221; 15_register_pages.md R402) -/
def Obligations.JobLoads : Prop :=
  ∀ (slot : BitVec 2) (s s0 : State), running s = true → enabled s pgMod = true → s0 = jobMod slot.toNat (fun _ => {}) s →
    (∀ m, (job s slot.toNat).st = 0 → imageAt s (rget64 s pgMod (0x60 + 16 * slot.toNat)).toNat = some m →
      testsOn s m.engMask = false → loadCheck s0 slot.toNat m = none →
      (∃ t, exec (.jobLoad slot) s = .next t ∧ (job t slot.toNat).st = 1 ∧ (job t slot.toNat).engMask = m.engMask ∧
        (job t slot.toNat).bg = decide (m.cls = 1) ∧ (job t slot.toNat).stream = m.stream ∧
        (job t slot.toNat).digest = (m.bytes.drop 64).take 64 ∧ (job t slot.toNat).resumed = false ∧
        rget t pgMod 0xA0 = BitVec.ofNat 32 (slot.toNat * 2 ^ 30)) ∧
      (∀ saved dig c, saved = savedAt s0 (rget64 s pgMod (0x68 + 16 * slot.toNat)).toNat → dig = (m.bytes.drop 64).take 64 →
        c = resumeCheck s0 saved dig (sameMods s0 saved dig slot.toNat) →
        (c = 0 → ∃ t, exec (.jobResume slot) s = .next t ∧ (job t slot.toNat).st = 1 ∧ (job t slot.toNat).engMask = m.engMask ∧
          (job t slot.toNat).bg = decide (m.cls = 1) ∧ (job t slot.toNat).stream = m.stream ∧ (job t slot.toNat).digest = dig ∧
          (job t slot.toNat).resumed = true ∧ rget t pgMod 0xA0 = BitVec.ofNat 32 (slot.toNat * 2 ^ 30)) ∧
        (c ≠ 0 → ∃ t, exec (.jobResume slot) s = .next t ∧ (job t slot.toNat).st = 0 ∧ t.engs = s.engs ∧
          rget t pgMod 0xA0 = BitVec.ofNat 32 (c + slot.toNat * 2 ^ 30)))) ∧
    (∀ m c pc l, (job s slot.toNat).st = 0 → imageAt s (rget64 s pgMod (0x60 + 16 * slot.toNat)).toNat = some m →
      testsOn s m.engMask = false → loadCheck s0 slot.toNat m = some (c, pc, l) → ∀ i ∈ [Instr.jobLoad slot, Instr.jobResume slot],
      ∃ t, exec i s = .next t ∧ (job t slot.toNat).st = 0 ∧ t.engs = s.engs ∧
        rget t pgMod 0xA0 = BitVec.ofNat 32 (c + pc % 2 ^ 16 * 2 ^ 8 + l % 2 ^ 6 * 2 ^ 24 + slot.toNat * 2 ^ 30)) ∧
    ((job s slot.toNat).st ≠ 0 → ∀ i ∈ [Instr.jobLoad slot, Instr.jobResume slot],
      ∃ t, exec i s = .next t ∧ t.jobs = s.jobs ∧ t.engs = s.engs ∧ rget t pgMod 0xA0 = BitVec.ofNat 32 (0x20 + slot.toNat * 2 ^ 30)) ∧
    ((job s slot.toNat).st = 0 → imageAt s (rget64 s pgMod (0x60 + 16 * slot.toNat)).toNat = none →
      ∀ i ∈ [Instr.jobLoad slot, Instr.jobResume slot],
      ∃ t, exec i s = .next t ∧ (job t slot.toNat).st = 0 ∧ t.engs = s.engs ∧
        rget t pgMod 0xA0 = BitVec.ofNat 32 (1 + slot.toNat * 2 ^ 30))

/-- A save of a paused job whose SAVEADDR is a whole line with room for the image writes the image there, byte for byte, and
shows the job as saved; a second save of the same pause changes nothing. ENGINE_RESET of a running module marks the engine for
clearing at the next tick and frees the slots of every job on it whose engines are at a pass boundary; those of any other are
freed there (log entry 47). (08_frame_tick_and_repeatability.md R219; 16_startup_and_identity.md R421) -/
def Obligations.SaveAndEngineReset : Prop :=
  (∀ (slot : BitVec 2) (s : State) (off : Nat), off = (rget64 s pgMod (0x68 + 16 * slot.toNat)).toNat → (job s slot.toNat).st = 4 →
      ((job s slot.toNat).saved = false → rangeOk off (saveImage s slot.toNat).length = true → off % 64 = 0 →
        ∃ t, exec (.saveImageWrite slot) s = .next t ∧ (job t slot.toNat).saved = true ∧
          ∀ i b, (saveImage s slot.toNat)[i]? = some b → stkByte t (off + i) = b) ∧
      ((job s slot.toNat).saved = true → exec (.saveImageWrite slot) s = .next s)) ∧
    (∀ (die : BitVec 4) (e : BitVec 3) (s : State), e.toNat < 5 → running s = true →
      (eng s (resetKey s (5 * die.toNat + e.toNat))).cutReset = false →
      ∃ t, exec (.engineReset die e) s = .next t ∧ (eng t (resetKey s (5 * die.toNat + e.toNat))).cutReset = true ∧
        ∀ j, j < 4 → (job s j).st ≠ 0 →
          ((job s j).engs.any fun l => decide (storeKey s l = resetKey s (5 * die.toNat + e.toNat))) = true →
          (atBoundary s (job s j) = true → (job t j).st = 0) ∧ (atBoundary s (job s j) = false → (job t j).ending = true))

/-- On a running module PWRCTL_STBY and a fall of STBY_REQ_N ask for Standby, and during a wake they are held; STANDBY_ENTRY at
the tick that enters sets PSTATE to Standby. In Standby, with no wake under way and no coolant condition, PWRCTL_WAKE, a fall of
WAKE_N and a rise of STBY_REQ_N each start the wake with their own source; a wake stage later than the one reached is reached.
(That the wake registers between the last tick and the next is log entry 17, DESIGN CHOICE; the clauses on no entry and no wake
under way are log entry 3, DESIGN CHOICE.) The first tick after a wake takes the next tick number, falls 25,000 REFCLK cycles
after the wake was registered (24,999 − OUTLEAD + INDLY after the capture of a master's wake pulse), and ends the wake; while no
wake is under way it changes nothing. (10_curator_and_night_desk.md R272; 10_curator_and_night_desk.md R273;
10_curator_and_night_desk.md R275; 10_curator_and_night_desk.md R276) -/
def Obligations.StandbyAndWake : Prop :=
  (∀ s : State,
    (running s = true → (∃ t, exec .pwrctlStby s = .next t ∧ t.pwr.stbyReq = true ∧ pstate t = pstate s) ∧
      (s.pwr.refclk = true → ∃ t, exec .stbyReqNFall s = .next t ∧ t.pwr.stbyReq = true)) ∧
    (running s = false → s.pwr.waking = true → ∃ t, exec .pwrctlStby s = .next t ∧ t.pwr.stbyHeld = true) ∧
    (running s = true → s.pwr.entry = true → ∃ t, exec .standbyEntry s = .next t ∧ pstate t = 4 ∧ t.pwr.entry = false) ∧
    (s.pwr.entry = false → exec .standbyEntry s = .next s) ∧
    (pstate s = 4 → s.pwr.waking = false → s.nd.coolOn.getD 1 false = false → s.pwr.refclk = true →
      (∃ t, exec .pwrctlWake s = .next t ∧ t.pwr.waking = true ∧ t.pwr.sources = [2] ∧ s.refTick ≤ t.pwr.wokeAt ∧
          (0 < period s → t.pwr.wokeAt < s.refTick + period s)) ∧
      (∃ t, exec .wakeNFall s = .next t ∧ t.pwr.waking = true ∧ t.pwr.sources = [0]) ∧
      (∃ t, exec .stbyReqNRise s = .next t ∧ t.pwr.waking = true ∧ t.pwr.sources = [1])) ∧
    (∀ us : BitVec 8, s.pwr.waking = true → s.pwr.stage < us.toNat → ∃ t, exec (.wakeStage us) s = .next t ∧ t.pwr.stage = us.toNat)) ∧
  (∀ (v : TickEnv) (s : State),
    (s.pwr.waking = true → s.refTick ≤ s.pwr.wokeAt → ∃ t, exec (.firstActiveTick v) s = .next t ∧ t.tick = s.tick + 1 ∧
      t.pwr.waking = false ∧ (s.pwr.sources.head? ≠ some 5 → t.refTick = s.pwr.wokeAt + 25000) ∧
      (s.pwr.sources.head? = some 5 → t.refTick + fget s pgTick 0x54 0 8 = s.pwr.wokeAt + 24999 + fget s pgTick 0x54 8 8)) ∧
    (s.pwr.waking = false → exec (.firstActiveTick v) s = .next s))

/-- A warm reset of a module with its Stacks initialised, not Off and not in the trip's Fault-hold, by WRST or by a low of
RESET_N of at least 1,000 REFCLK cycles: the tick number is kept, every job slot is free, no shadow is left, and every byte of
the Stacks is kept but for those of the Errata ring at the reset value of RINGBASE, into which waiting records may go. A shorter
low changes nothing. (A low of RESET_N that holds a boot at its stage A is BootAndOff's.) (16_startup_and_identity.md R419;
16_startup_and_identity.md R420; 16_startup_and_identity.md Table 16-5; 17_module_physical.md R439) -/
def Obligations.Resets : Prop :=
  ∀ (e : BootEnv) (s : State), s.pwr.off = false → ¬ (pstate s = 5 ∧ fget s pgMod 0x40 4 4 = 4) → s.pwr.stacksUp = true →
    (∃ t, exec (.wrst e) s = .next t ∧ t.tick = s.tick ∧ (∀ j, j < 4 → (job t j).st = 0) ∧ t.shadow = [] ∧
      ∀ a, ¬ inErrataRing State.reset a → stkByte t a = stkByte s a) ∧
    (∀ n, n < 1000 → s.pwr.heldAtA = false → exec (.resetN { lowCycles := n, env := e }) s = .next s) ∧
    (∀ n, 1000 ≤ n → s.pwr.heldAtA = false → ∃ t, exec (.resetN { lowCycles := n, env := e }) s = .next t ∧ t.tick = s.tick ∧
      (∀ j, j < 4 → (job t j).st = 0) ∧ ∀ a, ¬ inErrataRing State.reset a → stkByte t a = stkByte s a)

/-- POWER_OFF and INPUT_OUT_OF_RANGE take the module to Off: its tick number, jobs and Stacks are gone. In Off with the input in
range COLD_BOOT boots: the tick number is 0, no job is there and every byte of the Stacks outside the Errata ring reads 0; with
RESET_N low it waits at stage A, and the rise of RESET_N lets it go on; with the input out of range it stays Off, and
INPUT_IN_RANGE with PWR_EN high boots then. (16_startup_and_identity.md R416; 17_module_physical.md R438; 17_module_physical.md
R441) -/
def Obligations.BootAndOff : Prop :=
  ∀ s : State,
    (∃ t, exec .powerOff s = .next t ∧ t.pwr.off = true ∧ t.tick = 0 ∧ t.jobs = [] ∧ ∀ a, stkByte t a = 0) ∧
    (∃ t, exec .inputOutOfRange s = .next t ∧ t.pwr.off = true ∧ t.pwr.inputOk = false ∧ t.tick = 0 ∧ t.jobs = [] ∧
      ∀ a, stkByte t a = 0) ∧
    (∀ e, s.pwr.off = true → s.pwr.inputOk = true → ∃ t, exec (.coldBoot e) s = .next t ∧ t.pwr.off = false ∧ t.tick = 0 ∧
      t.jobs = [] ∧ (∀ a, ¬ inErrataRing State.reset a → stkByte t a = 0) ∧ (e.resetLow = true → t.pwr.heldAtA = decide (pstate t = 1) ∧ t.pwr.bootDone = false)) ∧
    (∀ p, s.pwr.heldAtA = true → pstate s = 1 → ∃ t, exec (.resetN p) s = .next t ∧ t.tick = s.tick ∧ t.pwr.heldAtA = false ∧
      (pstate t = 1 → t.pwr.bootDone = true)) ∧
    (∀ e, s.pwr.off = true → s.pwr.inputOk = false → ∃ t, exec (.coldBoot e) s = .next t ∧ t.pwr.off = true) ∧
    (s.pwr.off = true → s.pwr.pwrEn = true → ∃ t, exec .inputInRange s = .next t ∧ t.pwr.inputOk = true ∧ t.pwr.off = false)

/-- While the Night Desk runs, a block of 256 samples is kept as the newest ones, counted, and its energy shown; while it does
not run nothing changes. A coolant sample is shown on the CURATOR page; a condition of Table 10-6 comes or goes with the 16th
sample in a row that differs from its state, and not before. (10_curator_and_night_desk.md R278; 10_curator_and_night_desk.md
R279; 10_curator_and_night_desk.md R284; 10_curator_and_night_desk.md Table 10-6) -/
def Obligations.NightDeskWatch : Prop :=
  (∀ (l : List (BitVec 16 × BitVec 16)) (c : BitVec 64) (s : State), l.length = 256 →
      (ndRuns s = true → ∃ t, exec (.nightDeskBlock l c) s = .next t ∧ t.nd.block = s.nd.block + 1 ∧
        t.nd.ring = (l.reverse ++ s.nd.ring).take 2097152 ∧
        rget64 t pgNd 0x70 = BitVec.ofNat 64 (ndEnergy (ndCoef s) ((l.reverse ++ s.nd.ring).take 2097152))) ∧
      (ndRuns s = false → exec (.nightDeskBlock l c) s = .next s)) ∧
    (∀ (inlet outlet : BitVec 8) (flow : BitVec 16) (s : State), s.pwr.off = false → s.nd.cool.length = 3 → s.nd.coolOn.length = 3 →
      ∃ t, exec (.coolantSample inlet outlet flow) s = .next t ∧
        rget t pgCur 0xA8 = BitVec.ofNat 32 (inlet.toNat + outlet.toNat * 2 ^ 8 + flow.toNat * 2 ^ 16) ∧
        ∀ k, k < 3 →
          (s.nd.cool.getD k 0 = 15 → t.nd.coolOn.getD k false = coolHolds inlet.toNat flow.toNat k) ∧
          (s.nd.cool.getD k 0 < 15 → t.nd.coolOn.getD k false = s.nd.coolOn.getD k false))

/-- On a running module with the port's page enabled and the port stopped, ACC_LINK_START that passes the checks of Table 11-7
puts the port in state 1 with no refusal shown; one that fails leaves it stopped and shows the check's number. ACC_LINK_STOP
leaves it stopped with no ring running. ARM in one-shot mode, the port's page being enabled, arms it; a usable SYSREF edge with
lanes locked and aligned, the module not in Standby or the Night Desk watching the port, brings state 1 to state 2 with the
counter at SCNT_INIT. (11_accession_ports.md R289; 11_accession_ports.md R290; 11_accession_ports.md R307; 11_accession_ports.md
R311) -/
def Obligations.AccessionStart : Prop :=
  ∀ (q : BitVec 2) (s : State),
    (running s = true → enabled s (pgAcc q.toNat) = true → accState s q.toNat = 0 →
      (accCheck (fset (pgAcc q.toNat) 0x40 0 1 1 s) q.toNat = 0 → ∃ t, exec (.accLinkStart q) s = .next t ∧
        accState t q.toNat = 1 ∧ rget t (pgAcc q.toNat) 0x120 = 0) ∧
      (accCheck (fset (pgAcc q.toNat) 0x40 0 1 1 s) q.toNat ≠ 0 → ∃ t, exec (.accLinkStart q) s = .next t ∧
        accState t q.toNat = 0 ∧
        rget t (pgAcc q.toNat) 0x120 = BitVec.ofNat 32 (accCheck (fset (pgAcc q.toNat) 0x40 0 1 1 s) q.toNat))) ∧
    (accState s q.toNat ≠ 0 → ∃ t, exec (.accLinkStop q) s = .next t ∧ accState t q.toNat = 0 ∧
      (acc t q.toNat).rawOn = false ∧ (acc t q.toNat).decOn = false) ∧
    (running s = true → enabled s (pgAcc q.toNat) = true → fget s (pgAcc q.toNat) 0x40 2 1 = 1 → ∃ t, exec (.arm q) s = .next t ∧ (acc t q.toNat).armed = true ∧
      t.regs = s.regs) ∧
    (∀ on, accState s q.toNat = 1 → (moversRun s || ndWatches s q.toNat) = true → edgeUsable s q.toNat = true →
      ∃ t, exec (.sysrefEdge q on { locked := true, aligned := true }) s = .next t ∧ accState t q.toNat = 2 ∧
        rget64 t (pgAcc q.toNat) 0x78 = rget64 s (pgAcc q.toNat) 0x70)

/-- In state 2: a lost link goes into holdover (state 3) with the gap open at the counter's value at the loss (a free value at
or past the last one seen, log 123); a CRC-12 mismatch makes the instants bad and counts; a SYSREF edge off the fixed phase in
continuous mode counts. A relock of a port in holdover, where it may relock and its edge is usable, sets the counter to the
first value from the holdover value on, or from the counter where that is further, that is congruent to SCNT_INIT. In another
state the first two change nothing. (11_accession_ports.md R290; 11_accession_ports.md R308; 11_accession_ports.md R309;
11_accession_ports.md R310) -/
def Obligations.AccessionErrors : Prop :=
  ∀ (q : BitVec 2) (s : State),
    (accState s q.toNat = 2 →
      (∃ t, exec (.accLinkDown q) s = .next t ∧ accState t q.toNat = 3 ∧
        (acc t q.toNat).gapFrom = some (scntNow s q.toNat s.free)) ∧
      (∀ lane a b, ∃ t, exec (.crcerr q lane a b) s = .next t ∧ (acc t q.toNat).bad = (acc s q.toNat).bad ++ [(a.toNat, b.toNat)] ∧
        fget t (pgAcc q.toNat) 0x104 0 16 = min (fget s (pgAcc q.toNat) 0x104 0 16 + 1) 65535) ∧
      (fget s (pgAcc q.toNat) 0x40 2 1 = 0 → ∀ o, ∃ t, exec (.sysrefEdge q false o) s = .next t ∧ accState t q.toNat = 2 ∧
        fget t (pgAcc q.toNat) 0x104 24 8 = min (fget s (pgAcc q.toNat) 0x104 24 8 + 1) 255)) ∧
    (accState s q.toNat ≠ 2 → exec (.accLinkDown q) s = .next s ∧ ∀ lane a b, exec (.crcerr q lane a b) s = .next s) ∧
    (∀ h, accState s q.toNat = 3 → moversRun s = true → fget s (pgAcc q.toNat) 0x40 1 1 = 1 → edgeUsable s q.toNat = true →
      ∃ t, exec (.accRelock q h) s = .next t ∧ accState t q.toNat = 2 ∧ (acc t q.toNat).gapFrom = none ∧
        rget64 t (pgAcc q.toNat) 0x78 = relockValue s q.toNat (if h ≤ rget64 s (pgAcc q.toNat) 0x78 then rget64 s (pgAcc q.toNat) 0x78 else h))

/-- A window edge of a port in state 2 or 3 that has not slept since its last lock and whose count is not below the port's
counter latches it as the frame's first instant and keeps the one before; the counter never goes back, so one below it, or on a
stopped port or one that Standby has put to sleep, changes nothing. A tile of a port in state 2 with an RT job on its stream
waits as its element lines and its scale record, every line FAILED where a row reads a bad instant and unmarked otherwise; a
port in another state leaves a tile whose lines are all FAILED. (11_accession_ports.md R292; 11_accession_ports.md R305;
11_accession_ports.md R309) -/
def Obligations.WindowsAndTiles : Prop :=
  ∀ (q : BitVec 2) (s : State),
    (∀ c, accState s q.toNat = 2 ∨ accState s q.toNat = 3 → (acc s q.toNat).slept = false → rget64 s (pgAcc q.toNat) 0x78 ≤ c → ∃ t, exec (.windowEdge q c) s = .next t ∧ (acc t q.toNat).bn = c ∧
      (acc t q.toNat).bnPrev = (acc s q.toNat).bn ∧ (acc t q.toNat).bnFrame = s.tick + 1 ∧ rget64 t (pgAcc q.toNat) 0x78 = c) ∧
    (∀ c, (accState s q.toNat ≠ 2 ∧ accState s q.toNat ≠ 3) ∨ (acc s q.toNat).slept = true ∨ c < rget64 s (pgAcc q.toNat) 0x78 →
      exec (.windowEdge q c) s = .next s) ∧
    (∀ first codes j, streamJob s q.toNat = some j →
      (accState s q.toNat = 2 → ∃ t, exec (.tileReady q first codes) s = .next t ∧
        (acc t q.toNat).tile.length = tileElems s q.toNat / 32 + 1 ∧ (acc t q.toNat).tileFrame = tileNow s ∧
        ∀ l ∈ (acc t q.toNat).tile, l.2 = (if tileBad s q.toNat then mkFailed else 0)) ∧
      (accState s q.toNat ≠ 2 → ∃ t, exec (.tileReady q first codes) s = .next t ∧ (acc t q.toNat).tileFrame = tileNow s ∧
        ∀ l ∈ (acc t q.toNat).tile, l.2 = mkFailed))

/-- CAPTURE_RING_WRITE, RING_STOP, RAWSTOP and RING_START each complete. A write of a running ring of a port in state 2 or 3, in
whole lines from where the ring stands on and of as many codes as those lines hold, not past a stop, moves the ring's count to
the write's end; taken by the Stacks it puts the elements, packed into whole lines, at their places in the ring, whose first
byte and length the ring's base and length registers give, and changes no byte outside the ring; not taken it changes no byte of
the Stacks. A stop request with a raw ring running names the last instant, the request's plus POST; the ring stops when its last
whole line before that instant is written, and not before, and a start, the port's page being enabled, goes on with the first
whole line at or after the write front. (11_accession_ports.md R291; 11_accession_ports.md R294; 11_accession_ports.md R295;
11_accession_ports.md R297) -/
def Obligations.CaptureRings : Prop :=
  (∀ (q : BitVec 2) (dec : Bool) (idx : BitVec 36) (codes : List (BitVec 24)) (upto : BitVec 64) (ok : Bool) (s : State)
      (u0 u1 g n base : Nat) (els : List Nat) (lines : List Line),
      moversRun s = true → (if dec then (acc s q.toNat).decOn else (acc s q.toNat).rawOn) = true →
      (accState s q.toNat = 2 ∨ accState s q.toNat = 3) → (acc s q.toNat).slept = false →
      (∀ c, (acc s q.toNat).stopAt = some c → dec = true ∨ upto ≤ c) →
      g = ringLines s q.toNat dec → n = (accRing s q.toNat dec).2 / 64 / g → base = (accRing s q.toNat dec).1 → 0 < n →
      ringSpan s q.toNat dec idx.toNat n upto = some (u0, u1) → els = ringData s q.toNat dec u0 codes upto →
      els.length = (u1 - u0) * ringUnit s q.toNat dec → lines = ringPack (if dec then 32 else accNp s q.toNat) els →
      lines.length ≤ n * g →
      ∃ t, exec (.captureRingWrite q dec idx codes upto ok) s = .next t ∧
        rget64 t (pgAcc q.toNat) (if dec then 0xE0 else 0xD8) = upto ∧
        (ok = true → (∀ i l, lines[i]? = some l → (stkRead t (base + 64 * ((idx.toNat + i) % (n * g)))).1 = l) ∧
          ∀ a, (a < base ∨ base + 64 * (n * g) ≤ a) → stkByte t a = stkByte s a) ∧
        (ok = false → ∀ a, stkByte t a = stkByte s a)) ∧
    (∀ (q : BitVec 2) (c : BitVec 64) (s : State),
      ∃ t, exec (.ringStop q c) s = .next t ∧ t.regs = s.regs ∧ t.dram = s.dram ∧
        (fget s (pgAcc q.toNat) 0xC0 2 1 = 1 → (acc s q.toNat).rawOn = true → (acc s q.toNat).stopAt = none →
          (acc t q.toNat).stopAt = some (c + BitVec.ofNat 64 (rget s (pgAcc q.toNat) 0xC4).toNat)) ∧
        ((acc s q.toNat).rawOn = false → t = s)) ∧
    (∀ (q : BitVec 2) (c : BitVec 64) (s : State), (acc s q.toNat).stopAt = some c → (acc s q.toNat).rawOn = true →
      (c < ringCount s q.toNat false (ringGroup s q.toNat false (rget64 s (pgAcc q.toNat) 0xD8) + 1) →
        ∃ t, exec (.rawstop q) s = .next t ∧ (acc t q.toNat).rawOn = false ∧ rget64 t (pgAcc q.toNat) 0xE8 = c ∧ t.dram = s.dram) ∧
      (ringCount s q.toNat false (ringGroup s q.toNat false (rget64 s (pgAcc q.toNat) 0xD8) + 1) ≤ c →
        exec (.rawstop q) s = .next s)) ∧
    (∀ (q : BitVec 2) (c : BitVec 64) (s : State), enabled s (pgAcc q.toNat) = true →
      ringEn s q.toNat false = true → (acc s q.toNat).rawOn = false →
      (accState s q.toNat = 2 ∨ accState s q.toNat = 3) →
      ∃ t, exec (.ringStart q c) s = .next t ∧ (acc t q.toNat).rawOn = true ∧ (acc t q.toNat).stopAt = none ∧ t.dram = s.dram ∧
        rget64 t (pgAcc q.toNat) 0xD8 = ringCount s q.toNat false (ringGroup s q.toNat false c) ∧
        rget64 t (pgAcc q.toNat) 0xF0 = ringFirst s q.toNat false (ringGroup s q.toNat false c))

/-- On a running module a refresh position moves the hub's count on, changes no byte and no mark that a read sees, and writes
the hub's waiting poison; a patrol read names its group as the last and counts a corrected line once on its package; an
uncorrectable read of an unpoisoned populated line leaves its data and gives it the poison mark. On a running module that is not
Off: RETIRE through an enabled page, or a host's package retirement, of a package in service of a hub with its spare free starts
the copy of that package; with the spare taken for another package it is a hub fault, and the module enters Fault-hold; a
package that is being copied or is already retired is left alone. The end of a copy is kept for the tick. (12_stacks_memory.md
R318; 12_stacks_memory.md R319; 12_stacks_memory.md R320; 12_stacks_memory.md R322; 12_stacks_memory.md R333;
12_stacks_memory.md R334; 12_stacks_memory.md R335) -/
def Obligations.StacksUpkeep : Prop :=
  (∀ s : State, running s = true →
    (∀ h : BitVec 2, ∃ t, exec (.refreshPosition h) s = .next t ∧ (hub t h.toNat).refresh = (hub s h.toNat).refresh + 1 ∧
      t.dram = s.dram ∧ (∀ a, stkRead t a = stkRead s a) ∧
      ∀ i, i / 2 ^ 32 = h.toNat → tabGet (fun _ => (0 : Mark)) t.smark i = readMark (tabGet (fun _ => 0) s.smark i)) ∧
    (∀ (h : BitVec 2) (g : BitVec 20) (a : BitVec 42), populated a.toNat = true → a.toNat / 2 ^ 38 = h.toNat →
      groupOf (lineOf a.toNat) = g.toNat → ∃ t, exec (.scrub h g [a]) s = .next t ∧ (hub t h.toNat).patrol = g.toNat ∧
        fget t (pgMc h.toNat (packageOf s h.toNat (lineOf a.toNat))) 0x44 0 32 =
          min (fget s (pgMc h.toNat (packageOf s h.toNat (lineOf a.toNat))) 0x44 0 32 + 1) (2 ^ 32 - 1) ∧
        t.dram = s.dram) ∧
    (∀ a : BitVec 42, populated (a.toNat / 64 * 64) = true → (stkRead s (a.toNat / 64 * 64)).2 &&& mkPoison = 0 →
      ∃ t, exec (.poisonWriteback a) s = .next t ∧ (stkRead t (a.toNat / 64 * 64)).2 &&& mkPoison = mkPoison ∧ stacksKept s t)) ∧
  (∀ (h : BitVec 2) (p : BitVec 5) (s : State), p.toNat < 25 → running s = true → s.pwr.off = false →
    (fget s (pgMc h.toNat p.toNat) 0x40 0 2 ≠ 3 → fget s (pgMc h.toNat 25) 0x40 0 2 = 1 → (hub s h.toNat).copying ≠ some p.toNat →
      (enabled s (pgMc h.toNat p.toNat) = true → ∃ t, exec (.retire h p) s = .next t ∧ (hub t h.toNat).copying = some p.toNat ∧ (hub t h.toNat).copyDone = false ∧
        fget t (pgMc h.toNat 25) 0x40 0 2 = 2) ∧
      (∃ t, exec (.packageRetirement h p .host) s = .next t ∧ (hub t h.toNat).copying = some p.toNat)) ∧
    (fget s (pgMc h.toNat p.toNat) 0x40 0 2 ≠ 3 → fget s (pgMc h.toNat 25) 0x40 0 2 ≠ 1 → (hub s h.toNat).copying ≠ some p.toNat →
      enabled s (pgMc h.toNat p.toNat) = true → ∃ t, exec (.retire h p) s = .next t ∧ pstate t = 5 ∧ fget t pgMod 0x40 4 4 = 2) ∧
    (fget s (pgMc h.toNat p.toNat) 0x40 0 2 = 3 ∨ (hub s h.toNat).copying = some p.toNat ∨ enabled s (pgMc h.toNat p.toNat) = false →
      exec (.retire h p) s = .next s) ∧
    ((hub s h.toNat).copying.isSome = true → ∃ t, exec (.packageCopyComplete h) s = .next t ∧ (hub t h.toNat).copyDone = true ∧
      (hub t h.toNat).copying = (hub s h.toNat).copying))

/-- For every engine instruction that is not one of the vector unit, in every form, whether it issues, faults or not: a next
state keeps every engine but the storage and the executing one (an LDS that finds no spare column may make another due for
containment), every register outside those engines' pages and the MOD, ERRATA, VILRI and fabric pages (and for an LDS the die's
engine map), every byte of the Stacks outside the Errata ring, and the rest of the machine; the records that are to leave but
for WTICK and HALT, and the transfers' numbers but for MOV, CSEND, QADD and CRECV. All but MOV, CSEND and QADD keep the fabric
ports, the transfers and chain transfers, the hubs and what the module has sent. All but DRAIN and DRAINR keep the waiting
statistics and, where no bit error strikes, the lane registers, quires, masks and row states and, where no hold window turns a
write under way away or has one kept, the data of every Carrel line; DRAIN and DRAINR, where no bit error strikes and no vector
instruction is under way to lose a port, keep the lane storage, and the data of every line outside their destination. All but
SCL keep the pair slots; where no hold window turns a write under way away or has one kept, all but LDS keep the tile, and all
but PASS and CRECV, where no bit error strikes, the bank halves, unless a line of the tile or of a pass in flight has been
written since it was read from (then it is read again, R94, R95). (03_quire_and_accumulation.md R57; 04_matrix_array.md R94;
05_scales_and_catalogue.md R114; 07_engine_schedules.md R171; 07_engine_schedules.md R175; 07_engine_schedules.md R192;
07_engine_schedules.md R193; 12_stacks_memory.md) -/
def Obligations.EngineFrame : Prop :=
  ∀ (h : IssueHdr) (o : EOp) (s t : State) (k : Nat), k = storeKey s h.leng.toNat → vecShape s h o = none → exec (o.instr h) s = .next t →
    machineKept s t ∧ stacksKept s t ∧
    ((∀ d, o ≠ .mov d) → (∀ d, o ≠ .csend d) → (∀ d, o ≠ .qadd d) → t.abfs = s.abfs ∧ t.xfers = s.xfers ∧ t.chains = s.chains ∧
      t.sent = s.sent ∧ t.hubs = s.hubs ∧ ((∀ d, o ≠ .crecv d) → t.nextXfer = s.nextXfer)) ∧
    (o ≠ .wtick → o ≠ .halt → t.ready = s.ready) ∧
    (∀ k', k' ≠ k → k' ≠ execKey s h.leng.toNat →
      eng t k' = eng s k' ∨ ((∃ d, o = .lds d) ∧ eng t k' = { eng s k' with faultDue := true })) ∧
    (∀ p, (∀ i, i < 16 → p ≠ pgEng k i ∧ p ≠ pgEng (execKey s h.leng.toNat) i) →
      (∀ l, lengOf s k = some l ∨ (∃ f ∈ (eng s k).arr.flights, f.leng = l) → p ≠ pgEng (execKey s l) 5) → p ≠ pgMod → p ≠ pgErr →
      p ≠ pgVilri → p ≠ pgAbf 0 → (∀ d, o = .lds d → p ≠ pgDie (execKey s h.leng.toNat / 5) 1) → pageKept p s t) ∧
    ((∀ d, o ≠ .drain d ∧ o ≠ .drainr d) → t.statQ = s.statQ) ∧
    (h.upsets = [] → ((∀ d, o ≠ .drain d ∧ o ≠ .drainr d) ∨ (eng s k).vec.runs = []) →
      (∀ r l, laneGet t k r l = laneGet s k r l) ∧ (∀ q l, quireGet t k q l = quireGet s k q l) ∧
      (∀ q, maskGet t k q = maskGet s k q) ∧ (∀ q l, rowGet t k q l = rowGet s k q l) ∧
      (holdsQuiet s h → ∀ line, (∀ d b, o = .drain d ∨ o = .drainr d →
          b = (advance d.adv 0 (segOf s h.leng h.seg).loops d.dst.toNat).toNat →
          line < b ∨ b + (d.nm1.toNat + 1) * linesPerVec (fmtD d.dfmt) ≤ line) →
        (cRead t k line).1 = (cRead s k line).1)) ∧
    ((∀ d, o ≠ .scl d) → (eng t k).slots = (eng s k).slots) ∧
    ((∀ d, o ≠ .lds d) → (eng s k).tileStale = false → holdsQuiet s h →
      (eng t k).arr.tile = (eng s k).arr.tile) ∧
    (h.upsets = [] → formed (eng s k) → holdsQuiet s h → (∀ d, o ≠ .pass d) → (∀ d, o ≠ .crecv d) →
      ∀ b, (eng t k).arr.half b = (eng s k).arr.half b)

/-- A write of EVENT_MASK of a page that answers takes effect at once and changes no other register; a write of a page that is
asleep changes nothing. A write of CURATOR.CAP (a tick-class register) that the shares allow leaves the register as it was and
waits as its shadow. ALERT_CLEAR clears MOD.ALERT and nothing else. BLOCK_RESET of an idle page other than a SEQ page returns
its writable fields to their reset values, drops its shadows and keeps HCTL.ENABLE. (15_register_pages.md R390;
15_register_pages.md R391; 15_register_pages.md R393; 15_register_pages.md R399; 15_register_pages.md R402) -/
def Obligations.RegisterCommands : Prop :=
  (∀ (a : BitVec 24) (v : BitVec 32) (s : State) (p : Nat), a.toNat = 4096 * p + 0x14 → pageOf p ≠ none →
      (pageAsleep s p = true → exec (.registerWrite a v) s = .next s) ∧
      (pageAsleep s p = false → ∃ t, exec (.registerWrite a v) s = .next t ∧ rget t p 0x14 = v ∧ t.engs = s.engs ∧ t.jobs = s.jobs ∧
        t.dram = s.dram ∧ ∀ i, i ≠ ridx p 0x14 → tabGet regReset t.regs i = tabGet regReset s.regs i)) ∧
    (∀ (v : BitVec 32) (s : State), pageAsleep s pgCur = false → capHub s = none →
      ∃ t, exec (.registerWrite (BitVec.ofNat 24 (4096 * pgCur + 0x40)) v) s = .next t ∧ t.regs = s.regs ∧
        ∃ w, tabGet (fun _ => none) t.shadow (ridx pgCur 0x40) = some w ∧ bitsOf w.toNat 0 5 = bitsOf v.toNat 0 5) ∧
    (∀ s : State, pageAsleep s pgMod = false → ∃ t, exec .alertClear s = .next t ∧ rget t pgMod 0x48 = 0 ∧ t.engs = s.engs ∧
      t.dram = s.dram ∧ ∀ i, i ≠ ridx pgMod 0x48 → tabGet regReset t.regs i = tabGet regReset s.regs i) ∧
    (∀ (p : BitVec 12) (s : State) (k : PageKind) (a b : Nat), pageOf p.toNat = some (k, a, b) → k ≠ .seq → pageAsleep s p.toNat = false →
      resetIdle s p.toNat = true → ∃ t, exec (.blockReset p) s = .next t ∧ t.engs = s.engs ∧ t.jobs = s.jobs ∧ t.dram = s.dram ∧
        rget t p.toNat 8 = rget s p.toNat 8 ∧
        (∀ x ∈ t.shadow, x.1 / 1024 = p.toNat → x.1 % 1024 = 2) ∧
        ∀ off, off < 4096 → off % 4 = 0 → off ≠ 8 → ∀ f ∈ fieldsAt p.toNat off, f.acc ≠ .ro → fget t p.toNat off f.lo f.w = f.rst)

/-- A sweep on a running module with an engine in service and a test unit starts, and is refused with ERR_INFO code 0x01 while a
job slot is in use. A test unit that ends leaves the list of running ones and, where it was known, counts as passed exactly if
every expected line agrees. A boot-store write that ends fills the slot, or empties it where it did not complete. A new training
folio starts a write of the TRAIN slot. An attestation request on an idle unit whose page is enabled is noted; a report built is
written byte for byte to its address and BUSY ends with its length shown. (10_curator_and_night_desk.md R251;
16_startup_and_identity.md R415; 16_startup_and_identity.md R417; 16_startup_and_identity.md R428; 16_startup_and_identity.md
R431) -/
def Obligations.TestsAndStores : Prop :=
  (∀ s : State, running s = true → enabled s pgMod = true →
      (anyJob s = false → (∃ e, e < 80 ∧ dieUp s (e / 5) = true) → allUnits s ≠ [] → ∃ t, exec .testctlSweep s = .next t ∧
        t.sec.sweep = true ∧ t.sec.swept = [] ∧ fget t pgMod 0xB4 1 1 = 1 ∧ fget t pgMod 0xB4 16 16 = 0) ∧
      (anyJob s = true → ∃ t, exec .testctlSweep s = .next t ∧ t.sec = s.sec ∧
        (rget s pgMod 0x1C = 0 → fget t pgMod 0x1C 0 8 = 1))) ∧
    (∀ (d : BitVec 4) (e : BitVec 3) (outs : List Line) (s : State) (r : TestRun), (Instr.testUnitComplete d e outs).wf = true →
      s.sec.runs.find? (fun r => decide (r.die = d.toNat) && decide (r.peng = e.toNat)) = some r →
      ∃ t, exec (.testUnitComplete d e outs) s = .next t ∧
        t.sec.runs = s.sec.runs.filter (fun q => !(decide (q.die = d.toNat) && decide (q.peng = e.toNat))) ∧
        ∀ u f, unitAt s r.folio r.unit = some u → s.sec.folios[r.folio]? = some f → ∃ g, t.sec.folios[r.folio]? = some g ∧
          ((∀ (i : Nat) (x : Nat × Nat × Line), u.expect[i]? = some x → outs[i]? = some (x.2.2 : Line)) → g.passed = f.passed + 1 ∧ g.failed = f.failed) ∧
          ((∃ (i : Nat) (x : Nat × Nat × Line), u.expect[i]? = some x ∧ outs[i]? ≠ some x.2.2) → g.passed = f.passed ∧ g.failed = f.failed + 1)) ∧
    (∀ (ok : Bool) (s : State) (slot : Nat) (bs : List Byte), s.sec.writing = some (slot, bs) → s.sec.doorbells = [] → slot ≠ 0 →
      ∃ t, exec (.bootStoreWrite ok) s = .next t ∧ t.sec.writing = none ∧ storeGet t slot = (if ok then bs else []) ∧
        fget t pgSec 0xC4 8 1 = 0) ∧
    (∀ s : State, running s = true → s.sec.trainedFull ≠ 0 → s.sec.writing = none → ∃ t bs, exec .trainingFolioWrite s = .next t ∧
      t.sec.writing = some (3, bs) ∧ t.sec.trainedFull = 0 ∧ fget t pgSec 0xC4 8 1 = 1) ∧
    (∀ s : State, pageAsleep s pgSec = false → enabled s pgSec = true → attBusy s = false → ∃ t, exec .attestationRequest s = .next t ∧ t.sec.attReq = true ∧
      t.regs = s.regs ∧ t.dram = s.dram) ∧
    (∀ (s : State) (bs : List Byte), s.sec.attBytes = some bs → stacksOpen s = true → ∃ t, exec .attestationReport s = .next t ∧
      t.sec.attBytes = none ∧ fget t pgSec 0xB4 0 16 = bs.length % 65536 ∧
      (rangeOk (rget64 s pgSec 0x88).toNat bs.length = true →
        ∀ i b, bs[i]? = some b → stkByte t ((rget64 s pgSec 0x88).toNat + i) = b))

/-- On a module that is not Off: enabling a disabled port, and retraining an enabled one, start training (state 1); disabling
leaves state 0. The end of training leaves state 2 with the partner's number, or state 4 with the first failing code. On a port
that is UP: a block that does not decode with none awaited is counted as a retry and is not accepted; one that decodes and is
the next in sequence is counted as accepted; a port that is still UP then sends a block of its own, which it counts; a lane is
announced for the spare where that is free, to switch 64 blocks after the next one, and a second lane takes the port down; a
port that goes down shows state 3 and counts it. (13_abfold_fabric.md R341; 13_abfold_fabric.md R344; 13_abfold_fabric.md R357;
13_abfold_fabric.md R358; 13_abfold_fabric.md R359) -/
def Obligations.AbfoldPorts : Prop :=
  ∀ (p : BitVec 3) (s : State), p.toNat < 6 →
    (s.pwr.off = false →
      (enabled s (pgAbf p.toNat) = true → fget s (pgAbf p.toNat) 0x40 0 1 = 0 → ∃ t, exec (.abfoldPortEnable p) s = .next t ∧
        fget t (pgAbf p.toNat) 0x40 0 1 = 1 ∧ fget t (pgAbf p.toNat) 0x44 0 3 = 1) ∧
      (∃ t, exec (.abfoldPortDisable p) s = .next t ∧ fget t (pgAbf p.toNat) 0x40 0 1 = 0 ∧ fget t (pgAbf p.toNat) 0x44 0 3 = 0) ∧
      (fget s (pgAbf p.toNat) 0x40 0 1 = 1 → ∃ t, exec (.abfoldRetrain p) s = .next t ∧ fget t (pgAbf p.toNat) 0x44 0 3 = 1)) ∧
    (∀ ln lk pm pd ps la, fget s (pgAbf p.toNat) 0x44 0 3 = 1 →
      (trainCode s p.toNat ln.toNat lk pm.toNat pd.toNat ps.toNat la.toNat = 0 →
        ∃ t, exec (.abfoldTrainingEnd p ln lk pm pd ps la) s = .next t ∧ fget t (pgAbf p.toNat) 0x44 0 3 = 2 ∧
          fget t (pgAbf p.toNat) 0x44 11 5 = pm.toNat) ∧
      (trainCode s p.toNat ln.toNat lk pm.toNat pd.toNat ps.toNat la.toNat ≠ 0 →
        ∃ t, exec (.abfoldTrainingEnd p ln lk pm pd ps la) s = .next t ∧ fget t (pgAbf p.toNat) 0x44 0 3 = 4 ∧
          fget t (pgAbf p.toNat) 0x44 16 8 = trainCode s p.toNat ln.toNat lk pm.toNat pd.toNat ps.toNat la.toNat)) ∧
    (portUp s p.toNat = true →
      (∀ ls, blockUnits (laneDecode ls) = none → (abf s p.toNat).nak = false → ∃ t, exec (.abfoldBlock p ls) s = .next t ∧
        (abf t p.toNat).retries = (abf s p.toNat).retries + 1 ∧
        rget64 t (pgAbf p.toNat) 0x78 = rget64 s (pgAbf p.toNat) 0x78 ∧
        (portUp t p.toNat = true → rget64 t (pgAbf p.toNat) 0x80 = rget64 s (pgAbf p.toNat) 0x80 + 1 ∧
          ∃ out rest, t.sent = .abfBlock p.toNat out :: rest)) ∧
      (∀ ls us, blockUnits (laneDecode ls) = some us →
        BitVec.ofNat 32 (lineNat (us.headD 0) 0 4) = (abf s p.toNat).rxSeq + 1 → ∃ t, exec (.abfoldBlock p ls) s = .next t ∧
        rget64 t (pgAbf p.toNat) 0x78 = rget64 s (pgAbf p.toNat) 0x78 + 1 ∧
        (portUp t p.toNat = true → rget64 t (pgAbf p.toNat) 0x80 = rget64 s (pgAbf p.toNat) 0x80 + 1 ∧
          ∃ out rest, t.sent = .abfBlock p.toNat out :: rest)) ∧
      (∀ l : BitVec 4, l.toNat < 8 →
        ((abf s p.toNat).swLane = none → fget s (pgAbf p.toNat) 0x44 3 4 = 15 → (abf s p.toNat).spareBad = false →
          ∃ t, exec (.abfoldLaneReplace p l) s = .next t ∧ t.regs = s.regs ∧
            (abf t p.toNat).swLane = some (l.toNat, ((abf s p.toNat).txSeq.toNat + 65) % 2 ^ 32)) ∧
        ((abf s p.toNat).swLane = none → fget s (pgAbf p.toNat) 0x44 3 4 ≠ 15 → l.toNat ≠ fget s (pgAbf p.toNat) 0x44 3 4 →
          ∃ t, exec (.abfoldLaneReplace p l) s = .next t ∧ fget t (pgAbf p.toNat) 0x44 0 3 = 3) ∧
        (∀ x b, (abf s p.toNat).swLane = some (x, b) → x ≠ 15 → l.toNat ≠ x →
          ∃ t, exec (.abfoldLaneReplace p l) s = .next t ∧ fget t (pgAbf p.toNat) 0x44 0 3 = 3)) ∧
      ∃ t, exec (.abfoldPortDown p) s = .next t ∧ fget t (pgAbf p.toNat) 0x44 0 3 = 3 ∧
        fget t (pgAbf p.toNat) 0x48 16 16 = min (fget s (pgAbf p.toNat) 0x48 16 16 + 1) 65535)

/-- A WR at a populated Stacks range of this module writes its lines there and no other byte (of a late one, outside the Errata
ring), with the FAILED mark where it arrives later than its DEADLINE; one for another module goes on unchanged where a port
leads there. An RDREQ whose source has lines answers an RDRESP with them at the return shelfmark. A one-line RDRESP in time for
a waiting transfer with more lines to come, write port 1 being free by then, counts that line as landed; a late one ends the
transfer, every target line FAILED. The values of a QADD packet that meets its CRECV at the elements its packet number gives
count there, and its last packet ends the CRECV; without a CRECV it raises SCHED_FAULT 0x07. A packet bound for an engine whose
clock is stopped waits. (13_abfold_fabric.md R345; 13_abfold_fabric.md R353; 13_abfold_fabric.md R354;
03_quire_and_accumulation.md R78; 07_engine_schedules.md R193) -/
def Obligations.FabricPackets : Prop :=
  ∀ (k : Packet) (cyc : Nat) (s : State),
    (∀ off late, shelfMod k.target = modNum s → placeOf (k.target.toNat % 2 ^ 43) = .stacks off →
      ∃ t, exec (.wr k cyc late) s = .next t ∧
        (arrivesLate k cyc late s = false → ∀ i v, (packetLines k)[i]? = some v →
          stkRead t (off + 64 * i) = (v.1, v.2 &&& ~~~mkPending)) ∧
        (arrivesLate k cyc late s = true → ∀ i v, (packetLines k)[i]? = some v →
          stkRead t (off + 64 * i) = (v.1, (v.2 ||| mkFailed) &&& ~~~mkPending)) ∧
        ∀ a, (a < off ∨ off + 64 * k.lines.length ≤ a) → (arrivesLate k cyc late s = true → ¬ inErrataRing s a) → stkByte t a = stkByte s a) ∧
    (shelfMod k.target ≠ modNum s → (egress s (shelfMod k.target)).isSome = true →
      ∃ t, exec (.wr k cyc false) s = .next t ∧ t.sent = .packet k :: s.sent ∧ t.dram = s.dram ∧ t.engs = s.engs) ∧
    (∀ late, shelfMod k.target = modNum s →
      moveSource s k.job.toNat (k.nlm1.toNat + 1) (placeOf (k.target.toNat % 2 ^ 43)) ≠ [] →
      (egress s (shelfMod k.retShelf)).isSome = true →
      ∃ t q, exec (.rdreq k cyc late) s = .next t ∧ t.sent = .packet q :: s.sent ∧ q.op = 3 ∧ q.target = k.retShelf ∧
        q.lines = (moveSource s k.job.toNat (k.nlm1.toNat + 1) (placeOf (k.target.toNat % 2 ^ 43))).map (·.1) ∧
        t.dram = s.dram ∧ t.engs = s.engs) ∧
    (∀ l line x, shelfMod k.target = modNum s → placeOf (k.target.toNat % 2 ^ 43) = .carrel l line → absent s l = false → frozen s l = false →
      s.xfers.find? (fun x => x.remote && decide (x.slot = k.job.toNat) && decide (x.eng = storeKey s l) &&
        decide (x.target + x.landed + x.buf.length = line)) = some x →
      s.xfers.find? (fun y => decide (y.id = x.id)) = some x → x.xp = none → x.kind = 0 → x.landed + 1 < x.n →
      (∀ d late, k.lines = [d] → arrivesLate k cyc late s = false → cyc ≤ x.due → landCycle (eng s x.eng) cyc ≤ x.due →
        (eng s x.eng).openH = [] → (eng s x.eng).arr.reads = [] →
        ∃ t, exec (.rdresp k cyc late) s = .next t ∧
        (∃ y ∈ t.xfers, y.id = x.id ∧ y.landed = x.landed + 1) ∧ (cRead t x.eng (x.target + x.landed)).1 = d) ∧
      (∀ late, x.onTime = true → arrivesLate k cyc late s = true → ∃ t, exec (.rdresp k cyc late) s = .next t ∧ (∀ y ∈ t.xfers, y.id ≠ x.id) ∧
        ∀ i, i < x.n → (cRead t x.eng (x.target + i)).2 &&& mkFailed = mkFailed)) ∧
    (∀ l off late, shelfMod k.target = modNum s → placeOf (k.target.toNat % 2 ^ 43) = .bank l off → absent s l = false →
      frozen s l = false →
      (∀ r i, recvOf s (storeKey s l) true k.smod.toNat k.ch.toNat k.workTick = some r →
        (∀ a ∈ (eng s (storeKey s l)).recvs, a.id = r.id → a = r) →
        i = k.pidx.toNat * (if packetFmt k = .q32 then 16 else 24) * (packetFmt k).perLine →
        recvIndex (packetFmt k) r (.bank l off) = some i → i + (packetVals k).length ≤ r.n →
        (k.last = false → r.got + (packetVals k).length < r.n → ∃ t, exec (.qaddPacket k cyc late) s = .next t ∧
          ∃ r' ∈ (eng t (storeKey s l)).recvs, r'.id = r.id ∧ r'.got = r.got + (packetVals k).length) ∧
        (k.last = true → packetVals k ≠ [] → ∃ t, exec (.qaddPacket k cyc late) s = .next t ∧
          ∀ r' ∈ (eng t (storeKey s l)).recvs, r'.id ≠ r.id)) ∧
      (recvOf s (storeKey s l) true k.smod.toNat k.ch.toNat k.workTick = none → ∃ t, exec (.qaddPacket k cyc late) s = .next t ∧
        (eng t (storeKey s l)).arr = (eng s (storeKey s l)).arr ∧
        fget t (pgEng (storeKey s l) 0) 0x68 0 32 = min (fget s (pgEng (storeKey s l) 0) 0x68 0 32 + 1) (2 ^ 32 - 1))) ∧
    (packetHeld k s = true → ∀ late, exec (.wr k cyc late) s = .next s ∧ exec (.rdresp k cyc late) s = .next s ∧
      exec (.qaddPacket k cyc late) s = .next s)

/-- With the link UP, no completion waiting and a credit that no message under way will take: REG_RD of registers of a page that
answers completes with status 0 and their values in ascending order, and changes no register (but for the port counter last
shown, on an Accession page); of a page asleep with status 2 and zeros. REG_WR of EVENT_MASK writes it and completes with no
write discarded. BLK_WR of 1 to 64 lines at a populated offset, the Stacks being open, writes exactly those lines without marks
and completes with status 0; BLK_RD answers unpoisoned lines as stored with status 0. (14_vilri_control_port.md R374;
14_vilri_control_port.md R375; 14_vilri_control_port.md R376; 14_vilri_control_port.md R377) -/
def Obligations.VilriRegisters : Prop :=
  ∀ (tag : BitVec 16) (addr : BitVec 64) (s : State), s.pwr.off = false → vilriUp s = true → s.vil.cplQ = [] →
    (∀ n : BitVec 16, regRangeOk addr.toNat n.toNat = true → 1 ≤ credit s 0 →
      (pageAsleep s (addr.toNat / 4096) = false → ∃ t, exec (.regRd tag addr n) s = .next t ∧
        ((∀ q, q < 4 → addr.toNat / 4096 ≠ pgAcc q) → t.regs = s.regs) ∧
        (∀ i, (∀ q, q < 4 → i ≠ ridx (pgAcc q) 0x78 ∧ i ≠ ridx (pgAcc q) 0x7C) → tabGet regReset t.regs i = tabGet regReset s.regs i) ∧
        t.sent = .completion 1 tag 0 [] (regBytes (readRegs false n.toNat addr.toNat s).1) :: s.sent) ∧
      (pageAsleep s (addr.toNat / 4096) = true → ∃ t, exec (.regRd tag addr n) s = .next t ∧ t.regs = s.regs ∧
        t.sent = .completion 1 tag 2 [] (List.replicate (4 * n.toNat) 0) :: s.sent)) ∧
    (∀ (v : BitVec 32) (p : Nat), addr.toNat = 4096 * p + 0x14 → pageOf p ≠ none → pageAsleep s p = false → 1 ≤ credit s 0 →
      ∃ t, exec (.regWr tag addr 1 [v]) s = .next t ∧ rget t p 0x14 = v ∧ t.sent = .completion 2 tag 0 [0, 0] [] :: s.sent ∧
        ∀ i, i ≠ ridx p 0x14 → tabGet regReset t.regs i = tabGet regReset s.regs i) ∧
    (∀ ls : List Line, 1 ≤ ls.length → ls.length ≤ 64 → recovery s = false → blkRangeOk addr.toNat (64 * ls.length) = true →
      stacksOpen s = true → 1 ≤ credit s 0 → ∃ t, exec (.blkWr tag addr ls) s = .next t ∧
        t.sent = .completion 3 tag 0 [] [] :: s.sent ∧
        (∀ i l, ls[i]? = some l → stkRead t (addr.toNat + 64 * i) = (l, 0)) ∧
        ∀ a, (a < addr.toNat ∨ addr.toNat + 64 * ls.length ≤ a) → stkByte t a = stkByte s a) ∧
    (∀ n : BitVec 16, 0 < n.toNat → n.toNat ≤ 4096 → n.toNat % 64 = 0 → blkRangeOk addr.toNat n.toNat = true → stacksOpen s = true →
      1 ≤ credit s 0 → (∀ i, i < n.toNat / 64 → (stkRead s (addr.toNat + 64 * i)).2 &&& mkPoison = 0) →
      ∃ t, exec (.blkRd tag addr n) s = .next t ∧ t.dram = s.dram ∧ t.regs = s.regs ∧
        t.sent = .completion 4 tag 0 [0]
          ((List.range (n.toNat / 64)).flatMap fun i => bytesOfLine (stkRead s (addr.toNat + 64 * i)).1) :: s.sent)

/-- On a module that is not Off: with the Security page enabled FOLIO waits behind a boot-store write that is under way, and
with none waiting or under way a folio that fails its checks leaves the failing code in SEC.FOLIO; in Standby it is held for the
wake; with the page not enabled it starts nothing. PING completes with the tick number and the power state. Every doorbell in
Standby without a wake under way starts the wake with source 3; WAKE outside Standby changes only the completion's own state.
(14_vilri_control_port.md R378; 14_vilri_control_port.md R379; 10_curator_and_night_desk.md R275; 16_startup_and_identity.md
R428) -/
def Obligations.Doorbells : Prop :=
  ∀ (tag : BitVec 16) (s : State), s.pwr.off = false →
    (∀ v : BitVec 64,
      (enabled s pgSec = true → pstate s ≠ 4 → s.sec.writing.isSome = true → ∃ t, exec (.doorbellFolio tag v) s = .next t ∧
        t.sec.doorbells = s.sec.doorbells ++ [v] ∧ t.sec.writing = s.sec.writing ∧ t.regs = s.regs) ∧
      (∀ bs c, enabled s pgSec = true → pstate s ≠ 4 → s.sec.writing = none → s.sec.doorbells = [] → recovery s = false → folioAt s v.toNat = some bs →
        folioCheck s.sec bs = c → c ≠ 0 → c < 256 → ∃ t, exec (.doorbellFolio tag v) s = .next t ∧ fget t pgSec 0xB8 0 8 = c ∧
        fget t pgSec 0xB8 31 1 = 1 ∧ t.sec.doorbells = [] ∧ t.sec.store = s.sec.store) ∧
      (enabled s pgSec = false → pstate s ≠ 4 → ∃ t, exec (.doorbellFolio tag v) s = .next t ∧ t.sec = s.sec ∧ t.regs = s.regs ∧
        t.pwr = s.pwr) ∧
      (enabled s pgSec = true → pstate s = 4 → ∃ t, exec (.doorbellFolio tag v) s = .next t ∧ t.pwr.folioHeld = s.pwr.folioHeld ++ [v] ∧ t.sec = s.sec)) ∧
    (pstate s = 4 → s.pwr.waking = false →
      (∀ v, ∃ t, exec (.doorbellFolio tag v) s = .next t ∧ t.pwr.waking = true ∧ t.pwr.sources = [3]) ∧
      (∃ t, exec (.doorbellWake tag) s = .next t ∧ t.pwr.waking = true ∧ t.pwr.sources = [3] ∧ s.refTick ≤ t.pwr.wokeAt ∧
        (0 < period s → t.pwr.wokeAt < s.refTick + period s)) ∧
      (∃ t, exec (.doorbellPing tag) s = .next t ∧ t.pwr.waking = true ∧ t.pwr.sources = [3])) ∧
    (pstate s ≠ 4 → ∃ t, exec (.doorbellWake tag) s = .next t ∧ t.pwr = s.pwr ∧ t.regs = s.regs ∧ t.sec = s.sec) ∧
    (vilriUp s = true → s.vil.cplQ = [] → 1 ≤ credit s 0 → ∃ t, exec (.doorbellPing tag) s = .next t ∧
      .completion 5 tag 0 [s.tick.toNat, pstate s] [] ∈ t.sent ∧ t.tick = s.tick ∧ t.regs = s.regs)

/-- With the link UP and a credit of the channel that no message under way will take: the oldest waiting EVENT leaves and is no
longer waiting; the oldest ready verdict record leaves with its Colophon and item lines; and where the next Errata record to log
is held, a LOG with it and the held records that follow it leaves and LOGNEXT moves past them. With the link not UP an EVENT
stays, and every ready verdict record is discarded. (14_vilri_control_port.md R372; 14_vilri_control_port.md R380;
14_vilri_control_port.md R381; 14_vilri_control_port.md R383; 14_vilri_control_port.md R385) -/
def Obligations.VilriMessages : Prop :=
  ∀ s : State,
    (∀ e rest, s.evq = e :: rest → (vilriUp s = true → 1 ≤ credit s 2 → ∃ t, exec .event s = .next t ∧ t.evq = rest ∧
        t.sent = .event e :: s.sent ∧ t.regs = s.regs) ∧
      (vilriUp s = false → exec .event s = .next s)) ∧
    (∀ r rest, s.ready = r :: rest → vilriUp s = true → 1 ≤ credit s 1 → ∃ t, exec .verdict s = .next t ∧
      t.ready = rest ∧ t.sent = .verdict r.frame r.slot r.stream (recordLines s r) :: s.sent ∧ t.jobs = s.jobs) ∧
    (vilriUp s = false → ∃ t, exec .verdict s = .next t ∧ t.ready = [] ∧ t.sent = s.sent ∧ t.jobs = s.jobs) ∧
    (∀ l, vilriUp s = true → fget s pgVilri 0x80 0 32 < fget s pgErr 0x4C 0 32 → errRecord s (fget s pgVilri 0x80 0 32) = some l →
      1 ≤ credit s 3 → ∃ t ls, exec .log s = .next t ∧
        t.sent = .log (BitVec.ofNat 32 (fget s pgVilri 0x80 0 32)) (l :: ls) :: s.sent ∧ ls.length < 64 ∧
        fget t pgVilri 0x80 0 32 = fget s pgVilri 0x80 0 32 + ls.length + 1 ∧ t.dram = s.dram ∧ t.errs = s.errs)

/-- With no request owed since a loss, and with the link UP (and, where the link may be lost, no request waiting): a block that
is not intact is counted as a replay; an intact next block without control requests or messages is acknowledged by the block the
module then sends, and changes no engine or job; a failed transmission lane with a free spare is replaced and the link stays UP,
a failed reception lane is announced to be left out 64 blocks ahead, and a second one of a direction takes the link down; a lost
link shows state 0, counts it, sets the alert's cause and drops the ready records. Retraining through an enabled page, and the
restart 100 ms after a refusal or a loss, show state 1; training ends UP with the round-trip time, or refused with the first
failing code. (14_vilri_control_port.md R365; 14_vilri_control_port.md R367; 14_vilri_control_port.md R368;
14_vilri_control_port.md R369; 14_vilri_control_port.md R370; 14_vilri_control_port.md R385) -/
def Obligations.VilriLink : Prop :=
  ∀ s : State, s.pwr.off = false → s.vil.owed = [] →
    (vilriUp s = true →
      (∀ ls, s.vil.waiting = [] → vilFlits ((List.range 4).map fun i => vilLane (ls.getD i [])) = none → ∃ t, exec (.vilriBlock ls) s = .next t ∧
        fget t pgVilri 0x58 16 16 = min (fget s pgVilri 0x58 16 16 + 1) 65535) ∧
      (∀ ls fs c, vilFlits ((List.range 4).map fun i => vilLane (ls.getD i [])) = some fs → c = (fs.getD 16 0).toNat →
        bitsOf c 64 3 = 0 → bitsOf c 72 3 = 4 → (∀ i, i < 16 → 2 ≤ bitsOf c (160 + 4 * i) 4) → s.vil.nak = false →
        s.vil.swLane = none → s.vil.exclAt = none → BitVec.ofNat 32 (bitsOf c 0 32) = s.vil.rxSeq + 1 →
        ∃ t us ctl rest, exec (.vilriBlock ls) s = .next t ∧ t.sent = .vilriBlock (vilLanes (us ++ [ctl])) :: rest ∧
          bitsOf ctl.toNat 32 32 = (s.vil.rxSeq + 1).toNat ∧ t.vil.rxSeq = s.vil.rxSeq + 1 ∧ t.engs = s.engs ∧ t.jobs = s.jobs) ∧
      (∀ l : BitVec 3, l.toNat < 4 →
        (fget s pgVilri 0x44 2 3 = 4 → s.vil.badTx = false → ∃ t, exec (.vilriLaneReplace true l) s = .next t ∧
          fget t pgVilri 0x44 2 3 = l.toNat ∧ vilriUp t = true) ∧
        (s.vil.swLane = none → fget s pgVilri 0x44 5 3 = 4 → s.vil.badRx = false → ∃ t, exec (.vilriLaneReplace false l) s = .next t ∧
          t.vil.swLane = some (l.toNat, (s.vil.rxSeq.toNat + 64) % 2 ^ 16) ∧ t.regs = s.regs) ∧
        (s.vil.waiting = [] →
          (fget s pgVilri 0x44 2 3 ≠ 4 → l.toNat ≠ fget s pgVilri 0x44 2 3 →
            ∃ t, exec (.vilriLaneReplace true l) s = .next t ∧ fget t pgVilri 0x44 0 2 = 0) ∧
          (s.vil.swLane = none → fget s pgVilri 0x44 5 3 ≠ 4 → l.toNat ≠ fget s pgVilri 0x44 5 3 →
            ∃ t, exec (.vilriLaneReplace false l) s = .next t ∧ fget t pgVilri 0x44 0 2 = 0) ∧
          (∀ x b, s.vil.swLane = some (x, b) → x ≠ 4 → l.toNat ≠ x →
            ∃ t, exec (.vilriLaneReplace false l) s = .next t ∧ fget t pgVilri 0x44 0 2 = 0))) ∧
      (s.vil.waiting = [] → ∃ t, exec .vilriLinkDown s = .next t ∧ fget t pgVilri 0x44 0 2 = 0 ∧ t.ready = [] ∧ fget t pgMod 0x48 9 1 = 1 ∧
        fget t pgVilri 0x5C 0 16 = min (fget s pgVilri 0x5C 0 16 + 1) 65535)) ∧
    (s.vil.waiting = [] → enabled s pgVilri = true → ∃ t, exec .vilriRetrain s = .next t ∧ fget t pgVilri 0x44 0 2 = 1) ∧
    (fget s pgVilri 0x44 0 2 = 0 ∨ fget s pgVilri 0x44 0 2 = 3 → ∃ t, exec .vilriTrainingRestart s = .next t ∧
      fget t pgVilri 0x44 0 2 = 1) ∧
    (∀ (n : BitVec 3) (sk rtt : BitVec 16) (a0 a1 a2 a3 : BitVec 16), fget s pgVilri 0x44 0 2 = 1 →
      (4 ≤ n.toNat → sk.toNat ≤ 32 → 130 ≤ a0.toNat → 520 ≤ a1.toNat → 64 ≤ a2.toNat → 130 ≤ a3.toNat →
        ∃ t, exec (.vilriLinkUp n sk rtt [a0, a1, a2, a3]) s = .next t ∧ vilriUp t = true ∧ fget t pgVilri 0x90 0 16 = rtt.toNat) ∧
      (n.toNat < 4 → ∃ t, exec (.vilriLinkUp n sk rtt [a0, a1, a2, a3]) s = .next t ∧ fget t pgVilri 0x44 0 2 = 3 ∧
        fget t pgVilri 0x44 12 4 = 1) ∧
      (4 ≤ n.toNat → 32 < sk.toNat → ∃ t, exec (.vilriLinkUp n sk rtt [a0, a1, a2, a3]) s = .next t ∧
        fget t pgVilri 0x44 0 2 = 3 ∧ fget t pgVilri 0x44 12 4 = 2) ∧
      (4 ≤ n.toNat → sk.toNat ≤ 32 → a0.toNat < 130 ∨ a1.toNat < 520 ∨ a2.toNat < 64 ∨ a3.toNat < 130 →
        ∃ t, exec (.vilriLinkUp n sk rtt [a0, a1, a2, a3]) s = .next t ∧ fget t pgVilri 0x44 0 2 = 3 ∧
        fget t pgVilri 0x44 12 4 = 3))

/-- Where the sideband answers: READ of an aligned register of a page that answers returns status 0 and its value; WRITE of
ERR_INFO of such a page clears it and is remembered as status 0, one with a bad PEC as status 8 and one of a register the
sideband may not write as status 7, each without effect; WSTAT returns the remembered status; SUMMARY returns 32 bytes and a
PEC, the first byte MOD.STATE's. With the input in range TRST_N and IDCODE leave IDCODE in the JTAG register and IDCODE shifts
out the identification, BYPASS and SAMPLE/PRELOAD are taken; EXTEST and CLAMP are taken only in Off or Fault-hold.
(17_module_physical.md R447; 17_module_physical.md R448; 17_module_physical.md R449; 17_module_physical.md R450;
17_module_physical.md R451) -/
def Obligations.SidebandAndTap : Prop :=
  ∀ s : State,
    (sbOn s = true →
      (∀ a : BitVec 24, a.toNat % 4 = 0 → pageAsleep s (a.toNat / 4096) = false → ∃ t pec, exec (.read a true) s = .next t ∧
        t.sent = .sideband ([0] ++ leBytes 4 (regRead true a.toNat s).1.toNat ++ [pec]) :: s.sent ∧
        ((∀ q, q < 4 → a.toNat / 4096 ≠ pgAcc q) → t.regs = s.regs)) ∧
      (∀ (a : BitVec 24) (v : BitVec 32),
        (∃ t, exec (.write a v false) s = .next t ∧ t.pwr.wstat = 8 ∧ t.regs = s.regs) ∧
        (a.toNat % 4 = 0 → sbWritable a.toNat = false → ∃ t, exec (.write a v true) s = .next t ∧ t.pwr.wstat = 7 ∧ t.regs = s.regs) ∧
        (∀ p, a.toNat = 4096 * p + 0x1C → pageOf p ≠ none → pageAsleep s p = false → ∃ t, exec (.write a v true) s = .next t ∧
          t.pwr.wstat = 0 ∧ rget t p 0x1C = 0 ∧ ∀ i, i ≠ ridx p 0x1C → tabGet regReset t.regs i = tabGet regReset s.regs i)) ∧
      (∃ t pec, exec .wstat s = .next t ∧ t.sent = .sideband [s.pwr.wstat, pec] :: s.sent ∧ t.regs = s.regs) ∧
      (∀ vin iin ok, ∃ t b bs, exec (.summary vin iin ok) s = .next t ∧ t.sent = .sideband (b :: bs) :: s.sent ∧ bs.length = 32 ∧
        b.toNat = fget s pgMod 0x40 0 8 ∧ t.regs = s.regs)) ∧
    (s.pwr.inputOk = true →
      (∃ t, exec .tapReset s = .next t ∧ t.pwr.tap = 0 ∧ t.regs = s.regs) ∧
      (∃ t, exec .idcode s = .next t ∧ t.pwr.tap = 0 ∧ t.sent = .idcode Config.jtagIdcode :: s.sent ∧ t.regs = s.regs) ∧
      (∃ t, exec .bypass s = .next t ∧ t.pwr.tap = 1 ∧ t.regs = s.regs) ∧
      (∃ t, exec .samplePreload s = .next t ∧ t.pwr.tap = 2 ∧ t.regs = s.regs)) ∧
    (s.pwr.inputOk = true → s.pwr.off = true ∨ pstate s = 5 →
      (∃ t, exec .extest s = .next t ∧ t.pwr.tap = 3 ∧ t.regs = s.regs) ∧
      (∃ t, exec .clamp s = .next t ∧ t.pwr.tap = 4 ∧ t.regs = s.regs)) ∧
    (s.pwr.off = false → pstate s ≠ 5 → exec .extest s = .next s ∧ exec .clamp s = .next s)
end

