-- ==== Sys2Proof/Laws/Tab.lean ====
section
/-! SUPPORT. Sparse tables: a read after a write, and the canonical form that every write keeps. -/

namespace Sys2Proof.Machine

theorem tabGet_tabInsert {α : Type} (d : Nat → α) (k : Nat) (v : α) (m : Tab α) (h : ∀ p ∈ m, p.1 ≠ k) (k' : Nat) :
    tabGet d (tabInsert k v m) k' = if k' = k then v else tabGet d m k' := by
  induction m with
  | nil => simp [tabInsert, tabGet, eq_comm]
  | cons p t ih =>
    have ht : ∀ p ∈ t, p.1 ≠ k := fun q hq => h q (List.mem_cons_of_mem _ hq)
    have hp : p.1 ≠ k := h p (List.mem_cons_self)
    obtain ⟨a, b⟩ := p
    simp only [tabInsert]
    split
    · simp only [tabGet]
      by_cases hk : k' = k
      · simp [hk]
      · simp [hk, Ne.symm hk]
    · simp only [tabGet, ih ht]
      by_cases ha : a = k'
      · subst ha
        simp [hp]
      · simp [ha]

theorem tabGet_filter {α : Type} (d : Nat → α) (k : Nat) (m : Tab α) (k' : Nat) :
    tabGet d (m.filter fun p => decide (p.1 ≠ k)) k' = if k' = k then d k else tabGet d m k' := by
  induction m with
  | nil => by_cases h : k' = k <;> simp [tabGet, h]
  | cons p t ih =>
    obtain ⟨a, b⟩ := p
    by_cases ha : a = k
    · subst ha
      rw [List.filter_cons_of_neg (by simp), ih]
      by_cases hk : k' = a
      · simp [hk]
      · simp [tabGet, hk, Ne.symm hk]
    · rw [List.filter_cons_of_pos (by simp [ha])]
      simp only [tabGet, ih]
      by_cases hk : a = k'
      · subst hk
        simp [ha]
      · simp [hk]

/-- Reading a table after a write: the value written at its key, the former value at every other key. -/
theorem tabGet_tabSet {α : Type} [DecidableEq α] (d : Nat → α) (m : Tab α) (k : Nat) (v : α) (k' : Nat) :
    tabGet d (tabSet d m k v) k' = if k' = k then v else tabGet d m k' := by
  unfold tabSet
  split
  · rename_i h
    rw [tabGet_filter, ← h]
  · rw [tabGet_tabInsert _ _ _ _ (by simp), tabGet_filter]
    split <;> rfl

@[simp] theorem tabGet_tabSet_self {α : Type} [DecidableEq α] (d : Nat → α) (m : Tab α) (k : Nat) (v : α) :
    tabGet d (tabSet d m k v) k = v := by simp [tabGet_tabSet]

theorem tabGet_tabSet_ne {α : Type} [DecidableEq α] (d : Nat → α) (m : Tab α) (k : Nat) (v : α) {k' : Nat} (h : k' ≠ k) :
    tabGet d (tabSet d m k v) k' = tabGet d m k' := by simp [tabGet_tabSet, h]

/-- Canonical form, key by key: the first key is below every later one, and its value is not the default. -/
theorem tabWf_cons {α : Type} [DecidableEq α] (d : Nat → α) (k : Nat) (v : α) (m : Tab α) :
    tabWf d ((k, v) :: m) = true ↔ v ≠ d k ∧ (∀ p ∈ m, k < p.1) ∧ tabWf d m = true := by
  induction m generalizing k v with
  | nil => simp [tabWf]
  | cons p t ih =>
    obtain ⟨a, b⟩ := p
    simp only [tabWf, Bool.and_eq_true, decide_eq_true_eq]
    constructor
    · rintro ⟨⟨h1, h2⟩, h3⟩
      refine ⟨h2, ?_, h3⟩
      intro q hq
      rcases List.mem_cons.1 hq with rfl | hq
      · exact h1
      · exact Nat.lt_trans h1 (((ih a b).1 h3).2.1 q hq)
    · rintro ⟨h1, h2, h3⟩
      exact ⟨⟨h2 (a, b) List.mem_cons_self, h1⟩, h3⟩

theorem tabWf_filter {α : Type} [DecidableEq α] (d : Nat → α) (q : Nat × α → Bool) (m : Tab α) (h : tabWf d m = true) :
    tabWf d (m.filter q) = true := by
  induction m with
  | nil => simpa using h
  | cons p t ih =>
    obtain ⟨a, b⟩ := p
    obtain ⟨h1, h2, h3⟩ := (tabWf_cons d a b t).1 h
    by_cases hq : q (a, b) = true
    · rw [List.filter_cons_of_pos hq]
      exact (tabWf_cons d a b _).2 ⟨h1, fun p hp => h2 p (List.mem_of_mem_filter hp), ih h3⟩
    · rw [List.filter_cons_of_neg hq]
      exact ih h3

theorem mem_tabInsert {α : Type} (k : Nat) (v : α) (m : Tab α) (p : Nat × α) :
    p ∈ tabInsert k v m ↔ p = (k, v) ∨ p ∈ m := by
  induction m with
  | nil => simp [tabInsert]
  | cons q t ih =>
    obtain ⟨a, b⟩ := q
    simp only [tabInsert]
    split
    · simp
    · simp only [List.mem_cons, ih]
      tauto

theorem tabWf_tabInsert {α : Type} [DecidableEq α] (d : Nat → α) (k : Nat) (v : α) (m : Tab α) (hv : v ≠ d k)
    (hk : ∀ p ∈ m, p.1 ≠ k) (h : tabWf d m = true) : tabWf d (tabInsert k v m) = true := by
  induction m with
  | nil => simpa [tabInsert, tabWf] using hv
  | cons p t ih =>
    obtain ⟨a, b⟩ := p
    obtain ⟨h1, h2, h3⟩ := (tabWf_cons d a b t).1 h
    simp only [tabInsert]
    split
    · rename_i hlt
      refine (tabWf_cons d k v _).2 ⟨hv, ?_, h⟩
      intro q hq
      rcases List.mem_cons.1 hq with rfl | hq
      · exact hlt
      · exact Nat.lt_trans hlt (h2 q hq)
    · rename_i hge
      have hne : a ≠ k := hk (a, b) List.mem_cons_self
      refine (tabWf_cons d a b _).2 ⟨h1, ?_, ih (fun q hq => hk q (List.mem_cons_of_mem _ hq)) h3⟩
      intro q hq
      rcases (mem_tabInsert k v t q).1 hq with rfl | hq
      · exact Nat.lt_of_le_of_ne (Nat.le_of_not_lt hge) hne
      · exact h2 q hq

/-- A write keeps the canonical form. -/
theorem tabWf_tabSet {α : Type} [DecidableEq α] (d : Nat → α) (m : Tab α) (k : Nat) (v : α) (h : tabWf d m = true) :
    tabWf d (tabSet d m k v) = true := by
  unfold tabSet
  split
  · exact tabWf_filter d _ m h
  · rename_i hv
    exact tabWf_tabInsert d k v _ hv (by simp) (tabWf_filter d _ m h)

end Sys2Proof.Machine
end

