-- ==== Sys2Proof/Laws/State.lean ====
section
/-! SUPPORT. What each update of the state changes: one lemma per field and update, true by unfolding. -/

namespace Sys2Proof.Machine

@[simp] theorem rset_pending (p off : Nat) (v : Word) (s : State) : (rset p off v s).pending = s.pending := rfl
@[simp] theorem rset_shadow (p off : Nat) (v : Word) (s : State) : (rset p off v s).shadow = s.shadow := rfl
@[simp] theorem rset_captured (p off : Nat) (v : Word) (s : State) : (rset p off v s).captured = s.captured := rfl
@[simp] theorem rset_hiLatch (p off : Nat) (v : Word) (s : State) : (rset p off v s).hiLatch = s.hiLatch := rfl
@[simp] theorem rset_hiLatchSb (p off : Nat) (v : Word) (s : State) : (rset p off v s).hiLatchSb = s.hiLatchSb := rfl
@[simp] theorem rset_stagedLo (p off : Nat) (v : Word) (s : State) : (rset p off v s).stagedLo = s.stagedLo := rfl
@[simp] theorem rset_tick (p off : Nat) (v : Word) (s : State) : (rset p off v s).tick = s.tick := rfl
@[simp] theorem rset_refTick (p off : Nat) (v : Word) (s : State) : (rset p off v s).refTick = s.refTick := rfl
@[simp] theorem rset_ftimeAt (p off : Nat) (v : Word) (s : State) : (rset p off v s).ftimeAt = s.ftimeAt := rfl
@[simp] theorem rset_phaseK (p off : Nat) (v : Word) (s : State) : (rset p off v s).phaseK = s.phaseK := rfl
@[simp] theorem rset_dram (p off : Nat) (v : Word) (s : State) : (rset p off v s).dram = s.dram := rfl
@[simp] theorem rset_smark (p off : Nat) (v : Word) (s : State) : (rset p off v s).smark = s.smark := rfl
@[simp] theorem rset_engs (p off : Nat) (v : Word) (s : State) : (rset p off v s).engs = s.engs := rfl
@[simp] theorem rset_store (p off : Nat) (v : Word) (s : State) : (rset p off v s).store = s.store := rfl
@[simp] theorem rset_jobs (p off : Nat) (v : Word) (s : State) : (rset p off v s).jobs = s.jobs := rfl
@[simp] theorem rset_zones (p off : Nat) (v : Word) (s : State) : (rset p off v s).zones = s.zones := rfl
@[simp] theorem rset_cat (p off : Nat) (v : Word) (s : State) : (rset p off v s).cat = s.cat := rfl
@[simp] theorem rset_aperture (p off : Nat) (v : Word) (s : State) : (rset p off v s).aperture = s.aperture := rfl
@[simp] theorem rset_statQ (p off : Nat) (v : Word) (s : State) : (rset p off v s).statQ = s.statQ := rfl
@[simp] theorem rset_xfers (p off : Nat) (v : Word) (s : State) : (rset p off v s).xfers = s.xfers := rfl
@[simp] theorem rset_nextXfer (p off : Nat) (v : Word) (s : State) : (rset p off v s).nextXfer = s.nextXfer := rfl
@[simp] theorem rset_chains (p off : Nat) (v : Word) (s : State) : (rset p off v s).chains = s.chains := rfl
@[simp] theorem rset_ready (p off : Nat) (v : Word) (s : State) : (rset p off v s).ready = s.ready := rfl
@[simp] theorem rset_accs (p off : Nat) (v : Word) (s : State) : (rset p off v s).accs = s.accs := rfl
@[simp] theorem rset_hubs (p off : Nat) (v : Word) (s : State) : (rset p off v s).hubs = s.hubs := rfl
@[simp] theorem rset_abfs (p off : Nat) (v : Word) (s : State) : (rset p off v s).abfs = s.abfs := rfl
@[simp] theorem rset_vil (p off : Nat) (v : Word) (s : State) : (rset p off v s).vil = s.vil := rfl
@[simp] theorem rset_sec (p off : Nat) (v : Word) (s : State) : (rset p off v s).sec = s.sec := rfl
@[simp] theorem rset_nd (p off : Nat) (v : Word) (s : State) : (rset p off v s).nd = s.nd := rfl
@[simp] theorem rset_cur (p off : Nat) (v : Word) (s : State) : (rset p off v s).cur = s.cur := rfl
@[simp] theorem rset_pwr (p off : Nat) (v : Word) (s : State) : (rset p off v s).pwr = s.pwr := rfl
@[simp] theorem rset_errs (p off : Nat) (v : Word) (s : State) : (rset p off v s).errs = s.errs := rfl
@[simp] theorem rset_evq (p off : Nat) (v : Word) (s : State) : (rset p off v s).evq = s.evq := rfl
@[simp] theorem rset_sent (p off : Nat) (v : Word) (s : State) : (rset p off v s).sent = s.sent := rfl
@[simp] theorem rset_env (p off : Nat) (v : Word) (s : State) : (rset p off v s).env = s.env := rfl
@[simp] theorem rset_free (p off : Nat) (v : Word) (s : State) : (rset p off v s).free = s.free := rfl

@[simp] theorem engMod_pending (k : Nat) (f : Eng → Eng) (s : State) : (engMod k f s).pending = s.pending := rfl
@[simp] theorem engMod_regs (k : Nat) (f : Eng → Eng) (s : State) : (engMod k f s).regs = s.regs := rfl
@[simp] theorem engMod_shadow (k : Nat) (f : Eng → Eng) (s : State) : (engMod k f s).shadow = s.shadow := rfl
@[simp] theorem engMod_captured (k : Nat) (f : Eng → Eng) (s : State) : (engMod k f s).captured = s.captured := rfl
@[simp] theorem engMod_hiLatch (k : Nat) (f : Eng → Eng) (s : State) : (engMod k f s).hiLatch = s.hiLatch := rfl
@[simp] theorem engMod_hiLatchSb (k : Nat) (f : Eng → Eng) (s : State) : (engMod k f s).hiLatchSb = s.hiLatchSb := rfl
@[simp] theorem engMod_stagedLo (k : Nat) (f : Eng → Eng) (s : State) : (engMod k f s).stagedLo = s.stagedLo := rfl
@[simp] theorem engMod_tick (k : Nat) (f : Eng → Eng) (s : State) : (engMod k f s).tick = s.tick := rfl
@[simp] theorem engMod_refTick (k : Nat) (f : Eng → Eng) (s : State) : (engMod k f s).refTick = s.refTick := rfl
@[simp] theorem engMod_ftimeAt (k : Nat) (f : Eng → Eng) (s : State) : (engMod k f s).ftimeAt = s.ftimeAt := rfl
@[simp] theorem engMod_phaseK (k : Nat) (f : Eng → Eng) (s : State) : (engMod k f s).phaseK = s.phaseK := rfl
@[simp] theorem engMod_dram (k : Nat) (f : Eng → Eng) (s : State) : (engMod k f s).dram = s.dram := rfl
@[simp] theorem engMod_smark (k : Nat) (f : Eng → Eng) (s : State) : (engMod k f s).smark = s.smark := rfl
@[simp] theorem engMod_store (k : Nat) (f : Eng → Eng) (s : State) : (engMod k f s).store = s.store := rfl
@[simp] theorem engMod_jobs (k : Nat) (f : Eng → Eng) (s : State) : (engMod k f s).jobs = s.jobs := rfl
@[simp] theorem engMod_zones (k : Nat) (f : Eng → Eng) (s : State) : (engMod k f s).zones = s.zones := rfl
@[simp] theorem engMod_cat (k : Nat) (f : Eng → Eng) (s : State) : (engMod k f s).cat = s.cat := rfl
@[simp] theorem engMod_aperture (k : Nat) (f : Eng → Eng) (s : State) : (engMod k f s).aperture = s.aperture := rfl
@[simp] theorem engMod_statQ (k : Nat) (f : Eng → Eng) (s : State) : (engMod k f s).statQ = s.statQ := rfl
@[simp] theorem engMod_xfers (k : Nat) (f : Eng → Eng) (s : State) : (engMod k f s).xfers = s.xfers := rfl
@[simp] theorem engMod_nextXfer (k : Nat) (f : Eng → Eng) (s : State) : (engMod k f s).nextXfer = s.nextXfer := rfl
@[simp] theorem engMod_chains (k : Nat) (f : Eng → Eng) (s : State) : (engMod k f s).chains = s.chains := rfl
@[simp] theorem engMod_ready (k : Nat) (f : Eng → Eng) (s : State) : (engMod k f s).ready = s.ready := rfl
@[simp] theorem engMod_accs (k : Nat) (f : Eng → Eng) (s : State) : (engMod k f s).accs = s.accs := rfl
@[simp] theorem engMod_hubs (k : Nat) (f : Eng → Eng) (s : State) : (engMod k f s).hubs = s.hubs := rfl
@[simp] theorem engMod_abfs (k : Nat) (f : Eng → Eng) (s : State) : (engMod k f s).abfs = s.abfs := rfl
@[simp] theorem engMod_vil (k : Nat) (f : Eng → Eng) (s : State) : (engMod k f s).vil = s.vil := rfl
@[simp] theorem engMod_sec (k : Nat) (f : Eng → Eng) (s : State) : (engMod k f s).sec = s.sec := rfl
@[simp] theorem engMod_nd (k : Nat) (f : Eng → Eng) (s : State) : (engMod k f s).nd = s.nd := rfl
@[simp] theorem engMod_cur (k : Nat) (f : Eng → Eng) (s : State) : (engMod k f s).cur = s.cur := rfl
@[simp] theorem engMod_pwr (k : Nat) (f : Eng → Eng) (s : State) : (engMod k f s).pwr = s.pwr := rfl
@[simp] theorem engMod_errs (k : Nat) (f : Eng → Eng) (s : State) : (engMod k f s).errs = s.errs := rfl
@[simp] theorem engMod_evq (k : Nat) (f : Eng → Eng) (s : State) : (engMod k f s).evq = s.evq := rfl
@[simp] theorem engMod_sent (k : Nat) (f : Eng → Eng) (s : State) : (engMod k f s).sent = s.sent := rfl
@[simp] theorem engMod_env (k : Nat) (f : Eng → Eng) (s : State) : (engMod k f s).env = s.env := rfl
@[simp] theorem engMod_free (k : Nat) (f : Eng → Eng) (s : State) : (engMod k f s).free = s.free := rfl

@[simp] theorem jobMod_pending (j : Nat) (f : Job → Job) (s : State) : (jobMod j f s).pending = s.pending := rfl
@[simp] theorem jobMod_regs (j : Nat) (f : Job → Job) (s : State) : (jobMod j f s).regs = s.regs := rfl
@[simp] theorem jobMod_shadow (j : Nat) (f : Job → Job) (s : State) : (jobMod j f s).shadow = s.shadow := rfl
@[simp] theorem jobMod_captured (j : Nat) (f : Job → Job) (s : State) : (jobMod j f s).captured = s.captured := rfl
@[simp] theorem jobMod_hiLatch (j : Nat) (f : Job → Job) (s : State) : (jobMod j f s).hiLatch = s.hiLatch := rfl
@[simp] theorem jobMod_hiLatchSb (j : Nat) (f : Job → Job) (s : State) : (jobMod j f s).hiLatchSb = s.hiLatchSb := rfl
@[simp] theorem jobMod_stagedLo (j : Nat) (f : Job → Job) (s : State) : (jobMod j f s).stagedLo = s.stagedLo := rfl
@[simp] theorem jobMod_tick (j : Nat) (f : Job → Job) (s : State) : (jobMod j f s).tick = s.tick := rfl
@[simp] theorem jobMod_refTick (j : Nat) (f : Job → Job) (s : State) : (jobMod j f s).refTick = s.refTick := rfl
@[simp] theorem jobMod_ftimeAt (j : Nat) (f : Job → Job) (s : State) : (jobMod j f s).ftimeAt = s.ftimeAt := rfl
@[simp] theorem jobMod_phaseK (j : Nat) (f : Job → Job) (s : State) : (jobMod j f s).phaseK = s.phaseK := rfl
@[simp] theorem jobMod_dram (j : Nat) (f : Job → Job) (s : State) : (jobMod j f s).dram = s.dram := rfl
@[simp] theorem jobMod_smark (j : Nat) (f : Job → Job) (s : State) : (jobMod j f s).smark = s.smark := rfl
@[simp] theorem jobMod_engs (j : Nat) (f : Job → Job) (s : State) : (jobMod j f s).engs = s.engs := rfl
@[simp] theorem jobMod_store (j : Nat) (f : Job → Job) (s : State) : (jobMod j f s).store = s.store := rfl
@[simp] theorem jobMod_zones (j : Nat) (f : Job → Job) (s : State) : (jobMod j f s).zones = s.zones := rfl
@[simp] theorem jobMod_cat (j : Nat) (f : Job → Job) (s : State) : (jobMod j f s).cat = s.cat := rfl
@[simp] theorem jobMod_aperture (j : Nat) (f : Job → Job) (s : State) : (jobMod j f s).aperture = s.aperture := rfl
@[simp] theorem jobMod_statQ (j : Nat) (f : Job → Job) (s : State) : (jobMod j f s).statQ = s.statQ := rfl
@[simp] theorem jobMod_xfers (j : Nat) (f : Job → Job) (s : State) : (jobMod j f s).xfers = s.xfers := rfl
@[simp] theorem jobMod_nextXfer (j : Nat) (f : Job → Job) (s : State) : (jobMod j f s).nextXfer = s.nextXfer := rfl
@[simp] theorem jobMod_chains (j : Nat) (f : Job → Job) (s : State) : (jobMod j f s).chains = s.chains := rfl
@[simp] theorem jobMod_ready (j : Nat) (f : Job → Job) (s : State) : (jobMod j f s).ready = s.ready := rfl
@[simp] theorem jobMod_accs (j : Nat) (f : Job → Job) (s : State) : (jobMod j f s).accs = s.accs := rfl
@[simp] theorem jobMod_hubs (j : Nat) (f : Job → Job) (s : State) : (jobMod j f s).hubs = s.hubs := rfl
@[simp] theorem jobMod_abfs (j : Nat) (f : Job → Job) (s : State) : (jobMod j f s).abfs = s.abfs := rfl
@[simp] theorem jobMod_vil (j : Nat) (f : Job → Job) (s : State) : (jobMod j f s).vil = s.vil := rfl
@[simp] theorem jobMod_sec (j : Nat) (f : Job → Job) (s : State) : (jobMod j f s).sec = s.sec := rfl
@[simp] theorem jobMod_nd (j : Nat) (f : Job → Job) (s : State) : (jobMod j f s).nd = s.nd := rfl
@[simp] theorem jobMod_cur (j : Nat) (f : Job → Job) (s : State) : (jobMod j f s).cur = s.cur := rfl
@[simp] theorem jobMod_pwr (j : Nat) (f : Job → Job) (s : State) : (jobMod j f s).pwr = s.pwr := rfl
@[simp] theorem jobMod_errs (j : Nat) (f : Job → Job) (s : State) : (jobMod j f s).errs = s.errs := rfl
@[simp] theorem jobMod_evq (j : Nat) (f : Job → Job) (s : State) : (jobMod j f s).evq = s.evq := rfl
@[simp] theorem jobMod_sent (j : Nat) (f : Job → Job) (s : State) : (jobMod j f s).sent = s.sent := rfl
@[simp] theorem jobMod_env (j : Nat) (f : Job → Job) (s : State) : (jobMod j f s).env = s.env := rfl
@[simp] theorem jobMod_free (j : Nat) (f : Job → Job) (s : State) : (jobMod j f s).free = s.free := rfl

@[simp] theorem zoneMod_pending (z : Nat) (f : Zone → Zone) (s : State) : (zoneMod z f s).pending = s.pending := rfl
@[simp] theorem zoneMod_regs (z : Nat) (f : Zone → Zone) (s : State) : (zoneMod z f s).regs = s.regs := rfl
@[simp] theorem zoneMod_shadow (z : Nat) (f : Zone → Zone) (s : State) : (zoneMod z f s).shadow = s.shadow := rfl
@[simp] theorem zoneMod_captured (z : Nat) (f : Zone → Zone) (s : State) : (zoneMod z f s).captured = s.captured := rfl
@[simp] theorem zoneMod_hiLatch (z : Nat) (f : Zone → Zone) (s : State) : (zoneMod z f s).hiLatch = s.hiLatch := rfl
@[simp] theorem zoneMod_hiLatchSb (z : Nat) (f : Zone → Zone) (s : State) : (zoneMod z f s).hiLatchSb = s.hiLatchSb := rfl
@[simp] theorem zoneMod_stagedLo (z : Nat) (f : Zone → Zone) (s : State) : (zoneMod z f s).stagedLo = s.stagedLo := rfl
@[simp] theorem zoneMod_tick (z : Nat) (f : Zone → Zone) (s : State) : (zoneMod z f s).tick = s.tick := rfl
@[simp] theorem zoneMod_refTick (z : Nat) (f : Zone → Zone) (s : State) : (zoneMod z f s).refTick = s.refTick := rfl
@[simp] theorem zoneMod_ftimeAt (z : Nat) (f : Zone → Zone) (s : State) : (zoneMod z f s).ftimeAt = s.ftimeAt := rfl
@[simp] theorem zoneMod_phaseK (z : Nat) (f : Zone → Zone) (s : State) : (zoneMod z f s).phaseK = s.phaseK := rfl
@[simp] theorem zoneMod_dram (z : Nat) (f : Zone → Zone) (s : State) : (zoneMod z f s).dram = s.dram := rfl
@[simp] theorem zoneMod_smark (z : Nat) (f : Zone → Zone) (s : State) : (zoneMod z f s).smark = s.smark := rfl
@[simp] theorem zoneMod_engs (z : Nat) (f : Zone → Zone) (s : State) : (zoneMod z f s).engs = s.engs := rfl
@[simp] theorem zoneMod_store (z : Nat) (f : Zone → Zone) (s : State) : (zoneMod z f s).store = s.store := rfl
@[simp] theorem zoneMod_jobs (z : Nat) (f : Zone → Zone) (s : State) : (zoneMod z f s).jobs = s.jobs := rfl
@[simp] theorem zoneMod_cat (z : Nat) (f : Zone → Zone) (s : State) : (zoneMod z f s).cat = s.cat := rfl
@[simp] theorem zoneMod_aperture (z : Nat) (f : Zone → Zone) (s : State) : (zoneMod z f s).aperture = s.aperture := rfl
@[simp] theorem zoneMod_statQ (z : Nat) (f : Zone → Zone) (s : State) : (zoneMod z f s).statQ = s.statQ := rfl
@[simp] theorem zoneMod_xfers (z : Nat) (f : Zone → Zone) (s : State) : (zoneMod z f s).xfers = s.xfers := rfl
@[simp] theorem zoneMod_nextXfer (z : Nat) (f : Zone → Zone) (s : State) : (zoneMod z f s).nextXfer = s.nextXfer := rfl
@[simp] theorem zoneMod_chains (z : Nat) (f : Zone → Zone) (s : State) : (zoneMod z f s).chains = s.chains := rfl
@[simp] theorem zoneMod_ready (z : Nat) (f : Zone → Zone) (s : State) : (zoneMod z f s).ready = s.ready := rfl
@[simp] theorem zoneMod_accs (z : Nat) (f : Zone → Zone) (s : State) : (zoneMod z f s).accs = s.accs := rfl
@[simp] theorem zoneMod_hubs (z : Nat) (f : Zone → Zone) (s : State) : (zoneMod z f s).hubs = s.hubs := rfl
@[simp] theorem zoneMod_abfs (z : Nat) (f : Zone → Zone) (s : State) : (zoneMod z f s).abfs = s.abfs := rfl
@[simp] theorem zoneMod_vil (z : Nat) (f : Zone → Zone) (s : State) : (zoneMod z f s).vil = s.vil := rfl
@[simp] theorem zoneMod_sec (z : Nat) (f : Zone → Zone) (s : State) : (zoneMod z f s).sec = s.sec := rfl
@[simp] theorem zoneMod_nd (z : Nat) (f : Zone → Zone) (s : State) : (zoneMod z f s).nd = s.nd := rfl
@[simp] theorem zoneMod_cur (z : Nat) (f : Zone → Zone) (s : State) : (zoneMod z f s).cur = s.cur := rfl
@[simp] theorem zoneMod_pwr (z : Nat) (f : Zone → Zone) (s : State) : (zoneMod z f s).pwr = s.pwr := rfl
@[simp] theorem zoneMod_errs (z : Nat) (f : Zone → Zone) (s : State) : (zoneMod z f s).errs = s.errs := rfl
@[simp] theorem zoneMod_evq (z : Nat) (f : Zone → Zone) (s : State) : (zoneMod z f s).evq = s.evq := rfl
@[simp] theorem zoneMod_sent (z : Nat) (f : Zone → Zone) (s : State) : (zoneMod z f s).sent = s.sent := rfl
@[simp] theorem zoneMod_env (z : Nat) (f : Zone → Zone) (s : State) : (zoneMod z f s).env = s.env := rfl
@[simp] theorem zoneMod_free (z : Nat) (f : Zone → Zone) (s : State) : (zoneMod z f s).free = s.free := rfl

@[simp] theorem catMod_pending (t : Nat) (f : CatE → CatE) (s : State) : (catMod t f s).pending = s.pending := rfl
@[simp] theorem catMod_regs (t : Nat) (f : CatE → CatE) (s : State) : (catMod t f s).regs = s.regs := rfl
@[simp] theorem catMod_shadow (t : Nat) (f : CatE → CatE) (s : State) : (catMod t f s).shadow = s.shadow := rfl
@[simp] theorem catMod_captured (t : Nat) (f : CatE → CatE) (s : State) : (catMod t f s).captured = s.captured := rfl
@[simp] theorem catMod_hiLatch (t : Nat) (f : CatE → CatE) (s : State) : (catMod t f s).hiLatch = s.hiLatch := rfl
@[simp] theorem catMod_hiLatchSb (t : Nat) (f : CatE → CatE) (s : State) : (catMod t f s).hiLatchSb = s.hiLatchSb := rfl
@[simp] theorem catMod_stagedLo (t : Nat) (f : CatE → CatE) (s : State) : (catMod t f s).stagedLo = s.stagedLo := rfl
@[simp] theorem catMod_tick (t : Nat) (f : CatE → CatE) (s : State) : (catMod t f s).tick = s.tick := rfl
@[simp] theorem catMod_refTick (t : Nat) (f : CatE → CatE) (s : State) : (catMod t f s).refTick = s.refTick := rfl
@[simp] theorem catMod_ftimeAt (t : Nat) (f : CatE → CatE) (s : State) : (catMod t f s).ftimeAt = s.ftimeAt := rfl
@[simp] theorem catMod_phaseK (t : Nat) (f : CatE → CatE) (s : State) : (catMod t f s).phaseK = s.phaseK := rfl
@[simp] theorem catMod_dram (t : Nat) (f : CatE → CatE) (s : State) : (catMod t f s).dram = s.dram := rfl
@[simp] theorem catMod_smark (t : Nat) (f : CatE → CatE) (s : State) : (catMod t f s).smark = s.smark := rfl
@[simp] theorem catMod_engs (t : Nat) (f : CatE → CatE) (s : State) : (catMod t f s).engs = s.engs := rfl
@[simp] theorem catMod_store (t : Nat) (f : CatE → CatE) (s : State) : (catMod t f s).store = s.store := rfl
@[simp] theorem catMod_jobs (t : Nat) (f : CatE → CatE) (s : State) : (catMod t f s).jobs = s.jobs := rfl
@[simp] theorem catMod_zones (t : Nat) (f : CatE → CatE) (s : State) : (catMod t f s).zones = s.zones := rfl
@[simp] theorem catMod_aperture (t : Nat) (f : CatE → CatE) (s : State) : (catMod t f s).aperture = s.aperture := rfl
@[simp] theorem catMod_statQ (t : Nat) (f : CatE → CatE) (s : State) : (catMod t f s).statQ = s.statQ := rfl
@[simp] theorem catMod_xfers (t : Nat) (f : CatE → CatE) (s : State) : (catMod t f s).xfers = s.xfers := rfl
@[simp] theorem catMod_nextXfer (t : Nat) (f : CatE → CatE) (s : State) : (catMod t f s).nextXfer = s.nextXfer := rfl
@[simp] theorem catMod_chains (t : Nat) (f : CatE → CatE) (s : State) : (catMod t f s).chains = s.chains := rfl
@[simp] theorem catMod_ready (t : Nat) (f : CatE → CatE) (s : State) : (catMod t f s).ready = s.ready := rfl
@[simp] theorem catMod_accs (t : Nat) (f : CatE → CatE) (s : State) : (catMod t f s).accs = s.accs := rfl
@[simp] theorem catMod_hubs (t : Nat) (f : CatE → CatE) (s : State) : (catMod t f s).hubs = s.hubs := rfl
@[simp] theorem catMod_abfs (t : Nat) (f : CatE → CatE) (s : State) : (catMod t f s).abfs = s.abfs := rfl
@[simp] theorem catMod_vil (t : Nat) (f : CatE → CatE) (s : State) : (catMod t f s).vil = s.vil := rfl
@[simp] theorem catMod_sec (t : Nat) (f : CatE → CatE) (s : State) : (catMod t f s).sec = s.sec := rfl
@[simp] theorem catMod_nd (t : Nat) (f : CatE → CatE) (s : State) : (catMod t f s).nd = s.nd := rfl
@[simp] theorem catMod_cur (t : Nat) (f : CatE → CatE) (s : State) : (catMod t f s).cur = s.cur := rfl
@[simp] theorem catMod_pwr (t : Nat) (f : CatE → CatE) (s : State) : (catMod t f s).pwr = s.pwr := rfl
@[simp] theorem catMod_errs (t : Nat) (f : CatE → CatE) (s : State) : (catMod t f s).errs = s.errs := rfl
@[simp] theorem catMod_evq (t : Nat) (f : CatE → CatE) (s : State) : (catMod t f s).evq = s.evq := rfl
@[simp] theorem catMod_sent (t : Nat) (f : CatE → CatE) (s : State) : (catMod t f s).sent = s.sent := rfl
@[simp] theorem catMod_env (t : Nat) (f : CatE → CatE) (s : State) : (catMod t f s).env = s.env := rfl
@[simp] theorem catMod_free (t : Nat) (f : CatE → CatE) (s : State) : (catMod t f s).free = s.free := rfl

@[simp] theorem accMod_pending (q : Nat) (f : AccPort → AccPort) (s : State) : (accMod q f s).pending = s.pending := rfl
@[simp] theorem accMod_regs (q : Nat) (f : AccPort → AccPort) (s : State) : (accMod q f s).regs = s.regs := rfl
@[simp] theorem accMod_shadow (q : Nat) (f : AccPort → AccPort) (s : State) : (accMod q f s).shadow = s.shadow := rfl
@[simp] theorem accMod_captured (q : Nat) (f : AccPort → AccPort) (s : State) : (accMod q f s).captured = s.captured := rfl
@[simp] theorem accMod_hiLatch (q : Nat) (f : AccPort → AccPort) (s : State) : (accMod q f s).hiLatch = s.hiLatch := rfl
@[simp] theorem accMod_hiLatchSb (q : Nat) (f : AccPort → AccPort) (s : State) : (accMod q f s).hiLatchSb = s.hiLatchSb := rfl
@[simp] theorem accMod_stagedLo (q : Nat) (f : AccPort → AccPort) (s : State) : (accMod q f s).stagedLo = s.stagedLo := rfl
@[simp] theorem accMod_tick (q : Nat) (f : AccPort → AccPort) (s : State) : (accMod q f s).tick = s.tick := rfl
@[simp] theorem accMod_refTick (q : Nat) (f : AccPort → AccPort) (s : State) : (accMod q f s).refTick = s.refTick := rfl
@[simp] theorem accMod_ftimeAt (q : Nat) (f : AccPort → AccPort) (s : State) : (accMod q f s).ftimeAt = s.ftimeAt := rfl
@[simp] theorem accMod_phaseK (q : Nat) (f : AccPort → AccPort) (s : State) : (accMod q f s).phaseK = s.phaseK := rfl
@[simp] theorem accMod_dram (q : Nat) (f : AccPort → AccPort) (s : State) : (accMod q f s).dram = s.dram := rfl
@[simp] theorem accMod_smark (q : Nat) (f : AccPort → AccPort) (s : State) : (accMod q f s).smark = s.smark := rfl
@[simp] theorem accMod_engs (q : Nat) (f : AccPort → AccPort) (s : State) : (accMod q f s).engs = s.engs := rfl
@[simp] theorem accMod_store (q : Nat) (f : AccPort → AccPort) (s : State) : (accMod q f s).store = s.store := rfl
@[simp] theorem accMod_jobs (q : Nat) (f : AccPort → AccPort) (s : State) : (accMod q f s).jobs = s.jobs := rfl
@[simp] theorem accMod_zones (q : Nat) (f : AccPort → AccPort) (s : State) : (accMod q f s).zones = s.zones := rfl
@[simp] theorem accMod_cat (q : Nat) (f : AccPort → AccPort) (s : State) : (accMod q f s).cat = s.cat := rfl
@[simp] theorem accMod_aperture (q : Nat) (f : AccPort → AccPort) (s : State) : (accMod q f s).aperture = s.aperture := rfl
@[simp] theorem accMod_statQ (q : Nat) (f : AccPort → AccPort) (s : State) : (accMod q f s).statQ = s.statQ := rfl
@[simp] theorem accMod_xfers (q : Nat) (f : AccPort → AccPort) (s : State) : (accMod q f s).xfers = s.xfers := rfl
@[simp] theorem accMod_nextXfer (q : Nat) (f : AccPort → AccPort) (s : State) : (accMod q f s).nextXfer = s.nextXfer := rfl
@[simp] theorem accMod_chains (q : Nat) (f : AccPort → AccPort) (s : State) : (accMod q f s).chains = s.chains := rfl
@[simp] theorem accMod_ready (q : Nat) (f : AccPort → AccPort) (s : State) : (accMod q f s).ready = s.ready := rfl
@[simp] theorem accMod_hubs (q : Nat) (f : AccPort → AccPort) (s : State) : (accMod q f s).hubs = s.hubs := rfl
@[simp] theorem accMod_abfs (q : Nat) (f : AccPort → AccPort) (s : State) : (accMod q f s).abfs = s.abfs := rfl
@[simp] theorem accMod_vil (q : Nat) (f : AccPort → AccPort) (s : State) : (accMod q f s).vil = s.vil := rfl
@[simp] theorem accMod_sec (q : Nat) (f : AccPort → AccPort) (s : State) : (accMod q f s).sec = s.sec := rfl
@[simp] theorem accMod_nd (q : Nat) (f : AccPort → AccPort) (s : State) : (accMod q f s).nd = s.nd := rfl
@[simp] theorem accMod_cur (q : Nat) (f : AccPort → AccPort) (s : State) : (accMod q f s).cur = s.cur := rfl
@[simp] theorem accMod_pwr (q : Nat) (f : AccPort → AccPort) (s : State) : (accMod q f s).pwr = s.pwr := rfl
@[simp] theorem accMod_errs (q : Nat) (f : AccPort → AccPort) (s : State) : (accMod q f s).errs = s.errs := rfl
@[simp] theorem accMod_evq (q : Nat) (f : AccPort → AccPort) (s : State) : (accMod q f s).evq = s.evq := rfl
@[simp] theorem accMod_sent (q : Nat) (f : AccPort → AccPort) (s : State) : (accMod q f s).sent = s.sent := rfl
@[simp] theorem accMod_env (q : Nat) (f : AccPort → AccPort) (s : State) : (accMod q f s).env = s.env := rfl
@[simp] theorem accMod_free (q : Nat) (f : AccPort → AccPort) (s : State) : (accMod q f s).free = s.free := rfl

@[simp] theorem hubMod_pending (h : Nat) (f : HubSt → HubSt) (s : State) : (hubMod h f s).pending = s.pending := rfl
@[simp] theorem hubMod_regs (h : Nat) (f : HubSt → HubSt) (s : State) : (hubMod h f s).regs = s.regs := rfl
@[simp] theorem hubMod_shadow (h : Nat) (f : HubSt → HubSt) (s : State) : (hubMod h f s).shadow = s.shadow := rfl
@[simp] theorem hubMod_captured (h : Nat) (f : HubSt → HubSt) (s : State) : (hubMod h f s).captured = s.captured := rfl
@[simp] theorem hubMod_hiLatch (h : Nat) (f : HubSt → HubSt) (s : State) : (hubMod h f s).hiLatch = s.hiLatch := rfl
@[simp] theorem hubMod_hiLatchSb (h : Nat) (f : HubSt → HubSt) (s : State) : (hubMod h f s).hiLatchSb = s.hiLatchSb := rfl
@[simp] theorem hubMod_stagedLo (h : Nat) (f : HubSt → HubSt) (s : State) : (hubMod h f s).stagedLo = s.stagedLo := rfl
@[simp] theorem hubMod_tick (h : Nat) (f : HubSt → HubSt) (s : State) : (hubMod h f s).tick = s.tick := rfl
@[simp] theorem hubMod_refTick (h : Nat) (f : HubSt → HubSt) (s : State) : (hubMod h f s).refTick = s.refTick := rfl
@[simp] theorem hubMod_ftimeAt (h : Nat) (f : HubSt → HubSt) (s : State) : (hubMod h f s).ftimeAt = s.ftimeAt := rfl
@[simp] theorem hubMod_phaseK (h : Nat) (f : HubSt → HubSt) (s : State) : (hubMod h f s).phaseK = s.phaseK := rfl
@[simp] theorem hubMod_dram (h : Nat) (f : HubSt → HubSt) (s : State) : (hubMod h f s).dram = s.dram := rfl
@[simp] theorem hubMod_smark (h : Nat) (f : HubSt → HubSt) (s : State) : (hubMod h f s).smark = s.smark := rfl
@[simp] theorem hubMod_engs (h : Nat) (f : HubSt → HubSt) (s : State) : (hubMod h f s).engs = s.engs := rfl
@[simp] theorem hubMod_store (h : Nat) (f : HubSt → HubSt) (s : State) : (hubMod h f s).store = s.store := rfl
@[simp] theorem hubMod_jobs (h : Nat) (f : HubSt → HubSt) (s : State) : (hubMod h f s).jobs = s.jobs := rfl
@[simp] theorem hubMod_zones (h : Nat) (f : HubSt → HubSt) (s : State) : (hubMod h f s).zones = s.zones := rfl
@[simp] theorem hubMod_cat (h : Nat) (f : HubSt → HubSt) (s : State) : (hubMod h f s).cat = s.cat := rfl
@[simp] theorem hubMod_aperture (h : Nat) (f : HubSt → HubSt) (s : State) : (hubMod h f s).aperture = s.aperture := rfl
@[simp] theorem hubMod_statQ (h : Nat) (f : HubSt → HubSt) (s : State) : (hubMod h f s).statQ = s.statQ := rfl
@[simp] theorem hubMod_xfers (h : Nat) (f : HubSt → HubSt) (s : State) : (hubMod h f s).xfers = s.xfers := rfl
@[simp] theorem hubMod_nextXfer (h : Nat) (f : HubSt → HubSt) (s : State) : (hubMod h f s).nextXfer = s.nextXfer := rfl
@[simp] theorem hubMod_chains (h : Nat) (f : HubSt → HubSt) (s : State) : (hubMod h f s).chains = s.chains := rfl
@[simp] theorem hubMod_ready (h : Nat) (f : HubSt → HubSt) (s : State) : (hubMod h f s).ready = s.ready := rfl
@[simp] theorem hubMod_accs (h : Nat) (f : HubSt → HubSt) (s : State) : (hubMod h f s).accs = s.accs := rfl
@[simp] theorem hubMod_abfs (h : Nat) (f : HubSt → HubSt) (s : State) : (hubMod h f s).abfs = s.abfs := rfl
@[simp] theorem hubMod_vil (h : Nat) (f : HubSt → HubSt) (s : State) : (hubMod h f s).vil = s.vil := rfl
@[simp] theorem hubMod_sec (h : Nat) (f : HubSt → HubSt) (s : State) : (hubMod h f s).sec = s.sec := rfl
@[simp] theorem hubMod_nd (h : Nat) (f : HubSt → HubSt) (s : State) : (hubMod h f s).nd = s.nd := rfl
@[simp] theorem hubMod_cur (h : Nat) (f : HubSt → HubSt) (s : State) : (hubMod h f s).cur = s.cur := rfl
@[simp] theorem hubMod_pwr (h : Nat) (f : HubSt → HubSt) (s : State) : (hubMod h f s).pwr = s.pwr := rfl
@[simp] theorem hubMod_errs (h : Nat) (f : HubSt → HubSt) (s : State) : (hubMod h f s).errs = s.errs := rfl
@[simp] theorem hubMod_evq (h : Nat) (f : HubSt → HubSt) (s : State) : (hubMod h f s).evq = s.evq := rfl
@[simp] theorem hubMod_sent (h : Nat) (f : HubSt → HubSt) (s : State) : (hubMod h f s).sent = s.sent := rfl
@[simp] theorem hubMod_env (h : Nat) (f : HubSt → HubSt) (s : State) : (hubMod h f s).env = s.env := rfl
@[simp] theorem hubMod_free (h : Nat) (f : HubSt → HubSt) (s : State) : (hubMod h f s).free = s.free := rfl

@[simp] theorem abfMod_pending (p : Nat) (f : AbfSt → AbfSt) (s : State) : (abfMod p f s).pending = s.pending := rfl
@[simp] theorem abfMod_regs (p : Nat) (f : AbfSt → AbfSt) (s : State) : (abfMod p f s).regs = s.regs := rfl
@[simp] theorem abfMod_shadow (p : Nat) (f : AbfSt → AbfSt) (s : State) : (abfMod p f s).shadow = s.shadow := rfl
@[simp] theorem abfMod_captured (p : Nat) (f : AbfSt → AbfSt) (s : State) : (abfMod p f s).captured = s.captured := rfl
@[simp] theorem abfMod_hiLatch (p : Nat) (f : AbfSt → AbfSt) (s : State) : (abfMod p f s).hiLatch = s.hiLatch := rfl
@[simp] theorem abfMod_hiLatchSb (p : Nat) (f : AbfSt → AbfSt) (s : State) : (abfMod p f s).hiLatchSb = s.hiLatchSb := rfl
@[simp] theorem abfMod_stagedLo (p : Nat) (f : AbfSt → AbfSt) (s : State) : (abfMod p f s).stagedLo = s.stagedLo := rfl
@[simp] theorem abfMod_tick (p : Nat) (f : AbfSt → AbfSt) (s : State) : (abfMod p f s).tick = s.tick := rfl
@[simp] theorem abfMod_refTick (p : Nat) (f : AbfSt → AbfSt) (s : State) : (abfMod p f s).refTick = s.refTick := rfl
@[simp] theorem abfMod_ftimeAt (p : Nat) (f : AbfSt → AbfSt) (s : State) : (abfMod p f s).ftimeAt = s.ftimeAt := rfl
@[simp] theorem abfMod_phaseK (p : Nat) (f : AbfSt → AbfSt) (s : State) : (abfMod p f s).phaseK = s.phaseK := rfl
@[simp] theorem abfMod_dram (p : Nat) (f : AbfSt → AbfSt) (s : State) : (abfMod p f s).dram = s.dram := rfl
@[simp] theorem abfMod_smark (p : Nat) (f : AbfSt → AbfSt) (s : State) : (abfMod p f s).smark = s.smark := rfl
@[simp] theorem abfMod_engs (p : Nat) (f : AbfSt → AbfSt) (s : State) : (abfMod p f s).engs = s.engs := rfl
@[simp] theorem abfMod_store (p : Nat) (f : AbfSt → AbfSt) (s : State) : (abfMod p f s).store = s.store := rfl
@[simp] theorem abfMod_jobs (p : Nat) (f : AbfSt → AbfSt) (s : State) : (abfMod p f s).jobs = s.jobs := rfl
@[simp] theorem abfMod_zones (p : Nat) (f : AbfSt → AbfSt) (s : State) : (abfMod p f s).zones = s.zones := rfl
@[simp] theorem abfMod_cat (p : Nat) (f : AbfSt → AbfSt) (s : State) : (abfMod p f s).cat = s.cat := rfl
@[simp] theorem abfMod_aperture (p : Nat) (f : AbfSt → AbfSt) (s : State) : (abfMod p f s).aperture = s.aperture := rfl
@[simp] theorem abfMod_statQ (p : Nat) (f : AbfSt → AbfSt) (s : State) : (abfMod p f s).statQ = s.statQ := rfl
@[simp] theorem abfMod_xfers (p : Nat) (f : AbfSt → AbfSt) (s : State) : (abfMod p f s).xfers = s.xfers := rfl
@[simp] theorem abfMod_nextXfer (p : Nat) (f : AbfSt → AbfSt) (s : State) : (abfMod p f s).nextXfer = s.nextXfer := rfl
@[simp] theorem abfMod_chains (p : Nat) (f : AbfSt → AbfSt) (s : State) : (abfMod p f s).chains = s.chains := rfl
@[simp] theorem abfMod_ready (p : Nat) (f : AbfSt → AbfSt) (s : State) : (abfMod p f s).ready = s.ready := rfl
@[simp] theorem abfMod_accs (p : Nat) (f : AbfSt → AbfSt) (s : State) : (abfMod p f s).accs = s.accs := rfl
@[simp] theorem abfMod_hubs (p : Nat) (f : AbfSt → AbfSt) (s : State) : (abfMod p f s).hubs = s.hubs := rfl
@[simp] theorem abfMod_vil (p : Nat) (f : AbfSt → AbfSt) (s : State) : (abfMod p f s).vil = s.vil := rfl
@[simp] theorem abfMod_sec (p : Nat) (f : AbfSt → AbfSt) (s : State) : (abfMod p f s).sec = s.sec := rfl
@[simp] theorem abfMod_nd (p : Nat) (f : AbfSt → AbfSt) (s : State) : (abfMod p f s).nd = s.nd := rfl
@[simp] theorem abfMod_cur (p : Nat) (f : AbfSt → AbfSt) (s : State) : (abfMod p f s).cur = s.cur := rfl
@[simp] theorem abfMod_pwr (p : Nat) (f : AbfSt → AbfSt) (s : State) : (abfMod p f s).pwr = s.pwr := rfl
@[simp] theorem abfMod_errs (p : Nat) (f : AbfSt → AbfSt) (s : State) : (abfMod p f s).errs = s.errs := rfl
@[simp] theorem abfMod_evq (p : Nat) (f : AbfSt → AbfSt) (s : State) : (abfMod p f s).evq = s.evq := rfl
@[simp] theorem abfMod_sent (p : Nat) (f : AbfSt → AbfSt) (s : State) : (abfMod p f s).sent = s.sent := rfl
@[simp] theorem abfMod_env (p : Nat) (f : AbfSt → AbfSt) (s : State) : (abfMod p f s).env = s.env := rfl
@[simp] theorem abfMod_free (p : Nat) (f : AbfSt → AbfSt) (s : State) : (abfMod p f s).free = s.free := rfl

@[simp] theorem secMod_pending (f : SecSt → SecSt) (s : State) : (secMod f s).pending = s.pending := rfl
@[simp] theorem secMod_regs (f : SecSt → SecSt) (s : State) : (secMod f s).regs = s.regs := rfl
@[simp] theorem secMod_shadow (f : SecSt → SecSt) (s : State) : (secMod f s).shadow = s.shadow := rfl
@[simp] theorem secMod_captured (f : SecSt → SecSt) (s : State) : (secMod f s).captured = s.captured := rfl
@[simp] theorem secMod_hiLatch (f : SecSt → SecSt) (s : State) : (secMod f s).hiLatch = s.hiLatch := rfl
@[simp] theorem secMod_hiLatchSb (f : SecSt → SecSt) (s : State) : (secMod f s).hiLatchSb = s.hiLatchSb := rfl
@[simp] theorem secMod_stagedLo (f : SecSt → SecSt) (s : State) : (secMod f s).stagedLo = s.stagedLo := rfl
@[simp] theorem secMod_tick (f : SecSt → SecSt) (s : State) : (secMod f s).tick = s.tick := rfl
@[simp] theorem secMod_refTick (f : SecSt → SecSt) (s : State) : (secMod f s).refTick = s.refTick := rfl
@[simp] theorem secMod_ftimeAt (f : SecSt → SecSt) (s : State) : (secMod f s).ftimeAt = s.ftimeAt := rfl
@[simp] theorem secMod_phaseK (f : SecSt → SecSt) (s : State) : (secMod f s).phaseK = s.phaseK := rfl
@[simp] theorem secMod_dram (f : SecSt → SecSt) (s : State) : (secMod f s).dram = s.dram := rfl
@[simp] theorem secMod_smark (f : SecSt → SecSt) (s : State) : (secMod f s).smark = s.smark := rfl
@[simp] theorem secMod_engs (f : SecSt → SecSt) (s : State) : (secMod f s).engs = s.engs := rfl
@[simp] theorem secMod_store (f : SecSt → SecSt) (s : State) : (secMod f s).store = s.store := rfl
@[simp] theorem secMod_jobs (f : SecSt → SecSt) (s : State) : (secMod f s).jobs = s.jobs := rfl
@[simp] theorem secMod_zones (f : SecSt → SecSt) (s : State) : (secMod f s).zones = s.zones := rfl
@[simp] theorem secMod_cat (f : SecSt → SecSt) (s : State) : (secMod f s).cat = s.cat := rfl
@[simp] theorem secMod_aperture (f : SecSt → SecSt) (s : State) : (secMod f s).aperture = s.aperture := rfl
@[simp] theorem secMod_statQ (f : SecSt → SecSt) (s : State) : (secMod f s).statQ = s.statQ := rfl
@[simp] theorem secMod_xfers (f : SecSt → SecSt) (s : State) : (secMod f s).xfers = s.xfers := rfl
@[simp] theorem secMod_nextXfer (f : SecSt → SecSt) (s : State) : (secMod f s).nextXfer = s.nextXfer := rfl
@[simp] theorem secMod_chains (f : SecSt → SecSt) (s : State) : (secMod f s).chains = s.chains := rfl
@[simp] theorem secMod_ready (f : SecSt → SecSt) (s : State) : (secMod f s).ready = s.ready := rfl
@[simp] theorem secMod_accs (f : SecSt → SecSt) (s : State) : (secMod f s).accs = s.accs := rfl
@[simp] theorem secMod_hubs (f : SecSt → SecSt) (s : State) : (secMod f s).hubs = s.hubs := rfl
@[simp] theorem secMod_abfs (f : SecSt → SecSt) (s : State) : (secMod f s).abfs = s.abfs := rfl
@[simp] theorem secMod_vil (f : SecSt → SecSt) (s : State) : (secMod f s).vil = s.vil := rfl
@[simp] theorem secMod_nd (f : SecSt → SecSt) (s : State) : (secMod f s).nd = s.nd := rfl
@[simp] theorem secMod_cur (f : SecSt → SecSt) (s : State) : (secMod f s).cur = s.cur := rfl
@[simp] theorem secMod_pwr (f : SecSt → SecSt) (s : State) : (secMod f s).pwr = s.pwr := rfl
@[simp] theorem secMod_errs (f : SecSt → SecSt) (s : State) : (secMod f s).errs = s.errs := rfl
@[simp] theorem secMod_evq (f : SecSt → SecSt) (s : State) : (secMod f s).evq = s.evq := rfl
@[simp] theorem secMod_sent (f : SecSt → SecSt) (s : State) : (secMod f s).sent = s.sent := rfl
@[simp] theorem secMod_env (f : SecSt → SecSt) (s : State) : (secMod f s).env = s.env := rfl
@[simp] theorem secMod_free (f : SecSt → SecSt) (s : State) : (secMod f s).free = s.free := rfl

@[simp] theorem pwrMod_pending (f : PwrSt → PwrSt) (s : State) : (pwrMod f s).pending = s.pending := rfl
@[simp] theorem pwrMod_regs (f : PwrSt → PwrSt) (s : State) : (pwrMod f s).regs = s.regs := rfl
@[simp] theorem pwrMod_shadow (f : PwrSt → PwrSt) (s : State) : (pwrMod f s).shadow = s.shadow := rfl
@[simp] theorem pwrMod_captured (f : PwrSt → PwrSt) (s : State) : (pwrMod f s).captured = s.captured := rfl
@[simp] theorem pwrMod_hiLatch (f : PwrSt → PwrSt) (s : State) : (pwrMod f s).hiLatch = s.hiLatch := rfl
@[simp] theorem pwrMod_hiLatchSb (f : PwrSt → PwrSt) (s : State) : (pwrMod f s).hiLatchSb = s.hiLatchSb := rfl
@[simp] theorem pwrMod_stagedLo (f : PwrSt → PwrSt) (s : State) : (pwrMod f s).stagedLo = s.stagedLo := rfl
@[simp] theorem pwrMod_tick (f : PwrSt → PwrSt) (s : State) : (pwrMod f s).tick = s.tick := rfl
@[simp] theorem pwrMod_refTick (f : PwrSt → PwrSt) (s : State) : (pwrMod f s).refTick = s.refTick := rfl
@[simp] theorem pwrMod_ftimeAt (f : PwrSt → PwrSt) (s : State) : (pwrMod f s).ftimeAt = s.ftimeAt := rfl
@[simp] theorem pwrMod_phaseK (f : PwrSt → PwrSt) (s : State) : (pwrMod f s).phaseK = s.phaseK := rfl
@[simp] theorem pwrMod_dram (f : PwrSt → PwrSt) (s : State) : (pwrMod f s).dram = s.dram := rfl
@[simp] theorem pwrMod_smark (f : PwrSt → PwrSt) (s : State) : (pwrMod f s).smark = s.smark := rfl
@[simp] theorem pwrMod_engs (f : PwrSt → PwrSt) (s : State) : (pwrMod f s).engs = s.engs := rfl
@[simp] theorem pwrMod_store (f : PwrSt → PwrSt) (s : State) : (pwrMod f s).store = s.store := rfl
@[simp] theorem pwrMod_jobs (f : PwrSt → PwrSt) (s : State) : (pwrMod f s).jobs = s.jobs := rfl
@[simp] theorem pwrMod_zones (f : PwrSt → PwrSt) (s : State) : (pwrMod f s).zones = s.zones := rfl
@[simp] theorem pwrMod_cat (f : PwrSt → PwrSt) (s : State) : (pwrMod f s).cat = s.cat := rfl
@[simp] theorem pwrMod_aperture (f : PwrSt → PwrSt) (s : State) : (pwrMod f s).aperture = s.aperture := rfl
@[simp] theorem pwrMod_statQ (f : PwrSt → PwrSt) (s : State) : (pwrMod f s).statQ = s.statQ := rfl
@[simp] theorem pwrMod_xfers (f : PwrSt → PwrSt) (s : State) : (pwrMod f s).xfers = s.xfers := rfl
@[simp] theorem pwrMod_nextXfer (f : PwrSt → PwrSt) (s : State) : (pwrMod f s).nextXfer = s.nextXfer := rfl
@[simp] theorem pwrMod_chains (f : PwrSt → PwrSt) (s : State) : (pwrMod f s).chains = s.chains := rfl
@[simp] theorem pwrMod_ready (f : PwrSt → PwrSt) (s : State) : (pwrMod f s).ready = s.ready := rfl
@[simp] theorem pwrMod_accs (f : PwrSt → PwrSt) (s : State) : (pwrMod f s).accs = s.accs := rfl
@[simp] theorem pwrMod_hubs (f : PwrSt → PwrSt) (s : State) : (pwrMod f s).hubs = s.hubs := rfl
@[simp] theorem pwrMod_abfs (f : PwrSt → PwrSt) (s : State) : (pwrMod f s).abfs = s.abfs := rfl
@[simp] theorem pwrMod_vil (f : PwrSt → PwrSt) (s : State) : (pwrMod f s).vil = s.vil := rfl
@[simp] theorem pwrMod_sec (f : PwrSt → PwrSt) (s : State) : (pwrMod f s).sec = s.sec := rfl
@[simp] theorem pwrMod_nd (f : PwrSt → PwrSt) (s : State) : (pwrMod f s).nd = s.nd := rfl
@[simp] theorem pwrMod_cur (f : PwrSt → PwrSt) (s : State) : (pwrMod f s).cur = s.cur := rfl
@[simp] theorem pwrMod_errs (f : PwrSt → PwrSt) (s : State) : (pwrMod f s).errs = s.errs := rfl
@[simp] theorem pwrMod_evq (f : PwrSt → PwrSt) (s : State) : (pwrMod f s).evq = s.evq := rfl
@[simp] theorem pwrMod_sent (f : PwrSt → PwrSt) (s : State) : (pwrMod f s).sent = s.sent := rfl
@[simp] theorem pwrMod_env (f : PwrSt → PwrSt) (s : State) : (pwrMod f s).env = s.env := rfl
@[simp] theorem pwrMod_free (f : PwrSt → PwrSt) (s : State) : (pwrMod f s).free = s.free := rfl

@[simp] theorem vilMod_pending (f : VilriSt → VilriSt) (s : State) : (vilMod f s).pending = s.pending := rfl
@[simp] theorem vilMod_regs (f : VilriSt → VilriSt) (s : State) : (vilMod f s).regs = s.regs := rfl
@[simp] theorem vilMod_shadow (f : VilriSt → VilriSt) (s : State) : (vilMod f s).shadow = s.shadow := rfl
@[simp] theorem vilMod_captured (f : VilriSt → VilriSt) (s : State) : (vilMod f s).captured = s.captured := rfl
@[simp] theorem vilMod_hiLatch (f : VilriSt → VilriSt) (s : State) : (vilMod f s).hiLatch = s.hiLatch := rfl
@[simp] theorem vilMod_hiLatchSb (f : VilriSt → VilriSt) (s : State) : (vilMod f s).hiLatchSb = s.hiLatchSb := rfl
@[simp] theorem vilMod_stagedLo (f : VilriSt → VilriSt) (s : State) : (vilMod f s).stagedLo = s.stagedLo := rfl
@[simp] theorem vilMod_tick (f : VilriSt → VilriSt) (s : State) : (vilMod f s).tick = s.tick := rfl
@[simp] theorem vilMod_refTick (f : VilriSt → VilriSt) (s : State) : (vilMod f s).refTick = s.refTick := rfl
@[simp] theorem vilMod_ftimeAt (f : VilriSt → VilriSt) (s : State) : (vilMod f s).ftimeAt = s.ftimeAt := rfl
@[simp] theorem vilMod_phaseK (f : VilriSt → VilriSt) (s : State) : (vilMod f s).phaseK = s.phaseK := rfl
@[simp] theorem vilMod_dram (f : VilriSt → VilriSt) (s : State) : (vilMod f s).dram = s.dram := rfl
@[simp] theorem vilMod_smark (f : VilriSt → VilriSt) (s : State) : (vilMod f s).smark = s.smark := rfl
@[simp] theorem vilMod_engs (f : VilriSt → VilriSt) (s : State) : (vilMod f s).engs = s.engs := rfl
@[simp] theorem vilMod_store (f : VilriSt → VilriSt) (s : State) : (vilMod f s).store = s.store := rfl
@[simp] theorem vilMod_jobs (f : VilriSt → VilriSt) (s : State) : (vilMod f s).jobs = s.jobs := rfl
@[simp] theorem vilMod_zones (f : VilriSt → VilriSt) (s : State) : (vilMod f s).zones = s.zones := rfl
@[simp] theorem vilMod_cat (f : VilriSt → VilriSt) (s : State) : (vilMod f s).cat = s.cat := rfl
@[simp] theorem vilMod_aperture (f : VilriSt → VilriSt) (s : State) : (vilMod f s).aperture = s.aperture := rfl
@[simp] theorem vilMod_statQ (f : VilriSt → VilriSt) (s : State) : (vilMod f s).statQ = s.statQ := rfl
@[simp] theorem vilMod_xfers (f : VilriSt → VilriSt) (s : State) : (vilMod f s).xfers = s.xfers := rfl
@[simp] theorem vilMod_nextXfer (f : VilriSt → VilriSt) (s : State) : (vilMod f s).nextXfer = s.nextXfer := rfl
@[simp] theorem vilMod_chains (f : VilriSt → VilriSt) (s : State) : (vilMod f s).chains = s.chains := rfl
@[simp] theorem vilMod_ready (f : VilriSt → VilriSt) (s : State) : (vilMod f s).ready = s.ready := rfl
@[simp] theorem vilMod_accs (f : VilriSt → VilriSt) (s : State) : (vilMod f s).accs = s.accs := rfl
@[simp] theorem vilMod_hubs (f : VilriSt → VilriSt) (s : State) : (vilMod f s).hubs = s.hubs := rfl
@[simp] theorem vilMod_abfs (f : VilriSt → VilriSt) (s : State) : (vilMod f s).abfs = s.abfs := rfl
@[simp] theorem vilMod_sec (f : VilriSt → VilriSt) (s : State) : (vilMod f s).sec = s.sec := rfl
@[simp] theorem vilMod_nd (f : VilriSt → VilriSt) (s : State) : (vilMod f s).nd = s.nd := rfl
@[simp] theorem vilMod_cur (f : VilriSt → VilriSt) (s : State) : (vilMod f s).cur = s.cur := rfl
@[simp] theorem vilMod_pwr (f : VilriSt → VilriSt) (s : State) : (vilMod f s).pwr = s.pwr := rfl
@[simp] theorem vilMod_errs (f : VilriSt → VilriSt) (s : State) : (vilMod f s).errs = s.errs := rfl
@[simp] theorem vilMod_evq (f : VilriSt → VilriSt) (s : State) : (vilMod f s).evq = s.evq := rfl
@[simp] theorem vilMod_sent (f : VilriSt → VilriSt) (s : State) : (vilMod f s).sent = s.sent := rfl
@[simp] theorem vilMod_env (f : VilriSt → VilriSt) (s : State) : (vilMod f s).env = s.env := rfl
@[simp] theorem vilMod_free (f : VilriSt → VilriSt) (s : State) : (vilMod f s).free = s.free := rfl

@[simp] theorem emit_pending (o : Out) (s : State) : (emit o s).pending = s.pending := rfl
@[simp] theorem emit_regs (o : Out) (s : State) : (emit o s).regs = s.regs := rfl
@[simp] theorem emit_shadow (o : Out) (s : State) : (emit o s).shadow = s.shadow := rfl
@[simp] theorem emit_captured (o : Out) (s : State) : (emit o s).captured = s.captured := rfl
@[simp] theorem emit_hiLatch (o : Out) (s : State) : (emit o s).hiLatch = s.hiLatch := rfl
@[simp] theorem emit_hiLatchSb (o : Out) (s : State) : (emit o s).hiLatchSb = s.hiLatchSb := rfl
@[simp] theorem emit_stagedLo (o : Out) (s : State) : (emit o s).stagedLo = s.stagedLo := rfl
@[simp] theorem emit_tick (o : Out) (s : State) : (emit o s).tick = s.tick := rfl
@[simp] theorem emit_refTick (o : Out) (s : State) : (emit o s).refTick = s.refTick := rfl
@[simp] theorem emit_ftimeAt (o : Out) (s : State) : (emit o s).ftimeAt = s.ftimeAt := rfl
@[simp] theorem emit_phaseK (o : Out) (s : State) : (emit o s).phaseK = s.phaseK := rfl
@[simp] theorem emit_dram (o : Out) (s : State) : (emit o s).dram = s.dram := rfl
@[simp] theorem emit_smark (o : Out) (s : State) : (emit o s).smark = s.smark := rfl
@[simp] theorem emit_engs (o : Out) (s : State) : (emit o s).engs = s.engs := rfl
@[simp] theorem emit_store (o : Out) (s : State) : (emit o s).store = s.store := rfl
@[simp] theorem emit_jobs (o : Out) (s : State) : (emit o s).jobs = s.jobs := rfl
@[simp] theorem emit_zones (o : Out) (s : State) : (emit o s).zones = s.zones := rfl
@[simp] theorem emit_cat (o : Out) (s : State) : (emit o s).cat = s.cat := rfl
@[simp] theorem emit_aperture (o : Out) (s : State) : (emit o s).aperture = s.aperture := rfl
@[simp] theorem emit_statQ (o : Out) (s : State) : (emit o s).statQ = s.statQ := rfl
@[simp] theorem emit_xfers (o : Out) (s : State) : (emit o s).xfers = s.xfers := rfl
@[simp] theorem emit_nextXfer (o : Out) (s : State) : (emit o s).nextXfer = s.nextXfer := rfl
@[simp] theorem emit_chains (o : Out) (s : State) : (emit o s).chains = s.chains := rfl
@[simp] theorem emit_ready (o : Out) (s : State) : (emit o s).ready = s.ready := rfl
@[simp] theorem emit_accs (o : Out) (s : State) : (emit o s).accs = s.accs := rfl
@[simp] theorem emit_hubs (o : Out) (s : State) : (emit o s).hubs = s.hubs := rfl
@[simp] theorem emit_abfs (o : Out) (s : State) : (emit o s).abfs = s.abfs := rfl
@[simp] theorem emit_vil (o : Out) (s : State) : (emit o s).vil = s.vil := rfl
@[simp] theorem emit_sec (o : Out) (s : State) : (emit o s).sec = s.sec := rfl
@[simp] theorem emit_nd (o : Out) (s : State) : (emit o s).nd = s.nd := rfl
@[simp] theorem emit_cur (o : Out) (s : State) : (emit o s).cur = s.cur := rfl
@[simp] theorem emit_pwr (o : Out) (s : State) : (emit o s).pwr = s.pwr := rfl
@[simp] theorem emit_errs (o : Out) (s : State) : (emit o s).errs = s.errs := rfl
@[simp] theorem emit_evq (o : Out) (s : State) : (emit o s).evq = s.evq := rfl
@[simp] theorem emit_env (o : Out) (s : State) : (emit o s).env = s.env := rfl
@[simp] theorem emit_free (o : Out) (s : State) : (emit o s).free = s.free := rfl

@[simp] theorem stkWrite_pending (a : Nat) (l : Line) (m : Mark) (s : State) : (stkWrite a l m s).pending = s.pending := rfl
@[simp] theorem stkWrite_regs (a : Nat) (l : Line) (m : Mark) (s : State) : (stkWrite a l m s).regs = s.regs := rfl
@[simp] theorem stkWrite_shadow (a : Nat) (l : Line) (m : Mark) (s : State) : (stkWrite a l m s).shadow = s.shadow := rfl
@[simp] theorem stkWrite_captured (a : Nat) (l : Line) (m : Mark) (s : State) : (stkWrite a l m s).captured = s.captured := rfl
@[simp] theorem stkWrite_hiLatch (a : Nat) (l : Line) (m : Mark) (s : State) : (stkWrite a l m s).hiLatch = s.hiLatch := rfl
@[simp] theorem stkWrite_hiLatchSb (a : Nat) (l : Line) (m : Mark) (s : State) : (stkWrite a l m s).hiLatchSb = s.hiLatchSb := rfl
@[simp] theorem stkWrite_stagedLo (a : Nat) (l : Line) (m : Mark) (s : State) : (stkWrite a l m s).stagedLo = s.stagedLo := rfl
@[simp] theorem stkWrite_tick (a : Nat) (l : Line) (m : Mark) (s : State) : (stkWrite a l m s).tick = s.tick := rfl
@[simp] theorem stkWrite_refTick (a : Nat) (l : Line) (m : Mark) (s : State) : (stkWrite a l m s).refTick = s.refTick := rfl
@[simp] theorem stkWrite_ftimeAt (a : Nat) (l : Line) (m : Mark) (s : State) : (stkWrite a l m s).ftimeAt = s.ftimeAt := rfl
@[simp] theorem stkWrite_phaseK (a : Nat) (l : Line) (m : Mark) (s : State) : (stkWrite a l m s).phaseK = s.phaseK := rfl
@[simp] theorem stkWrite_engs (a : Nat) (l : Line) (m : Mark) (s : State) : (stkWrite a l m s).engs = s.engs := rfl
@[simp] theorem stkWrite_store (a : Nat) (l : Line) (m : Mark) (s : State) : (stkWrite a l m s).store = s.store := rfl
@[simp] theorem stkWrite_jobs (a : Nat) (l : Line) (m : Mark) (s : State) : (stkWrite a l m s).jobs = s.jobs := rfl
@[simp] theorem stkWrite_zones (a : Nat) (l : Line) (m : Mark) (s : State) : (stkWrite a l m s).zones = s.zones := rfl
@[simp] theorem stkWrite_cat (a : Nat) (l : Line) (m : Mark) (s : State) : (stkWrite a l m s).cat = s.cat := rfl
@[simp] theorem stkWrite_aperture (a : Nat) (l : Line) (m : Mark) (s : State) : (stkWrite a l m s).aperture = s.aperture := rfl
@[simp] theorem stkWrite_statQ (a : Nat) (l : Line) (m : Mark) (s : State) : (stkWrite a l m s).statQ = s.statQ := rfl
@[simp] theorem stkWrite_xfers (a : Nat) (l : Line) (m : Mark) (s : State) : (stkWrite a l m s).xfers = s.xfers := rfl
@[simp] theorem stkWrite_nextXfer (a : Nat) (l : Line) (m : Mark) (s : State) : (stkWrite a l m s).nextXfer = s.nextXfer := rfl
@[simp] theorem stkWrite_chains (a : Nat) (l : Line) (m : Mark) (s : State) : (stkWrite a l m s).chains = s.chains := rfl
@[simp] theorem stkWrite_ready (a : Nat) (l : Line) (m : Mark) (s : State) : (stkWrite a l m s).ready = s.ready := rfl
@[simp] theorem stkWrite_accs (a : Nat) (l : Line) (m : Mark) (s : State) : (stkWrite a l m s).accs = s.accs := rfl
@[simp] theorem stkWrite_hubs (a : Nat) (l : Line) (m : Mark) (s : State) : (stkWrite a l m s).hubs = s.hubs := rfl
@[simp] theorem stkWrite_abfs (a : Nat) (l : Line) (m : Mark) (s : State) : (stkWrite a l m s).abfs = s.abfs := rfl
@[simp] theorem stkWrite_vil (a : Nat) (l : Line) (m : Mark) (s : State) : (stkWrite a l m s).vil = s.vil := rfl
@[simp] theorem stkWrite_sec (a : Nat) (l : Line) (m : Mark) (s : State) : (stkWrite a l m s).sec = s.sec := rfl
@[simp] theorem stkWrite_nd (a : Nat) (l : Line) (m : Mark) (s : State) : (stkWrite a l m s).nd = s.nd := rfl
@[simp] theorem stkWrite_cur (a : Nat) (l : Line) (m : Mark) (s : State) : (stkWrite a l m s).cur = s.cur := rfl
@[simp] theorem stkWrite_pwr (a : Nat) (l : Line) (m : Mark) (s : State) : (stkWrite a l m s).pwr = s.pwr := rfl
@[simp] theorem stkWrite_errs (a : Nat) (l : Line) (m : Mark) (s : State) : (stkWrite a l m s).errs = s.errs := rfl
@[simp] theorem stkWrite_evq (a : Nat) (l : Line) (m : Mark) (s : State) : (stkWrite a l m s).evq = s.evq := rfl
@[simp] theorem stkWrite_sent (a : Nat) (l : Line) (m : Mark) (s : State) : (stkWrite a l m s).sent = s.sent := rfl
@[simp] theorem stkWrite_env (a : Nat) (l : Line) (m : Mark) (s : State) : (stkWrite a l m s).env = s.env := rfl
@[simp] theorem stkWrite_free (a : Nat) (l : Line) (m : Mark) (s : State) : (stkWrite a l m s).free = s.free := rfl

@[simp] theorem stkPut_pending (a : Nat) (bs : List Byte) (s : State) : (stkPut a bs s).pending = s.pending := rfl
@[simp] theorem stkPut_regs (a : Nat) (bs : List Byte) (s : State) : (stkPut a bs s).regs = s.regs := rfl
@[simp] theorem stkPut_shadow (a : Nat) (bs : List Byte) (s : State) : (stkPut a bs s).shadow = s.shadow := rfl
@[simp] theorem stkPut_captured (a : Nat) (bs : List Byte) (s : State) : (stkPut a bs s).captured = s.captured := rfl
@[simp] theorem stkPut_hiLatch (a : Nat) (bs : List Byte) (s : State) : (stkPut a bs s).hiLatch = s.hiLatch := rfl
@[simp] theorem stkPut_hiLatchSb (a : Nat) (bs : List Byte) (s : State) : (stkPut a bs s).hiLatchSb = s.hiLatchSb := rfl
@[simp] theorem stkPut_stagedLo (a : Nat) (bs : List Byte) (s : State) : (stkPut a bs s).stagedLo = s.stagedLo := rfl
@[simp] theorem stkPut_tick (a : Nat) (bs : List Byte) (s : State) : (stkPut a bs s).tick = s.tick := rfl
@[simp] theorem stkPut_refTick (a : Nat) (bs : List Byte) (s : State) : (stkPut a bs s).refTick = s.refTick := rfl
@[simp] theorem stkPut_ftimeAt (a : Nat) (bs : List Byte) (s : State) : (stkPut a bs s).ftimeAt = s.ftimeAt := rfl
@[simp] theorem stkPut_phaseK (a : Nat) (bs : List Byte) (s : State) : (stkPut a bs s).phaseK = s.phaseK := rfl
@[simp] theorem stkPut_engs (a : Nat) (bs : List Byte) (s : State) : (stkPut a bs s).engs = s.engs := rfl
@[simp] theorem stkPut_store (a : Nat) (bs : List Byte) (s : State) : (stkPut a bs s).store = s.store := rfl
@[simp] theorem stkPut_jobs (a : Nat) (bs : List Byte) (s : State) : (stkPut a bs s).jobs = s.jobs := rfl
@[simp] theorem stkPut_zones (a : Nat) (bs : List Byte) (s : State) : (stkPut a bs s).zones = s.zones := rfl
@[simp] theorem stkPut_cat (a : Nat) (bs : List Byte) (s : State) : (stkPut a bs s).cat = s.cat := rfl
@[simp] theorem stkPut_aperture (a : Nat) (bs : List Byte) (s : State) : (stkPut a bs s).aperture = s.aperture := rfl
@[simp] theorem stkPut_statQ (a : Nat) (bs : List Byte) (s : State) : (stkPut a bs s).statQ = s.statQ := rfl
@[simp] theorem stkPut_xfers (a : Nat) (bs : List Byte) (s : State) : (stkPut a bs s).xfers = s.xfers := rfl
@[simp] theorem stkPut_nextXfer (a : Nat) (bs : List Byte) (s : State) : (stkPut a bs s).nextXfer = s.nextXfer := rfl
@[simp] theorem stkPut_chains (a : Nat) (bs : List Byte) (s : State) : (stkPut a bs s).chains = s.chains := rfl
@[simp] theorem stkPut_ready (a : Nat) (bs : List Byte) (s : State) : (stkPut a bs s).ready = s.ready := rfl
@[simp] theorem stkPut_accs (a : Nat) (bs : List Byte) (s : State) : (stkPut a bs s).accs = s.accs := rfl
@[simp] theorem stkPut_hubs (a : Nat) (bs : List Byte) (s : State) : (stkPut a bs s).hubs = s.hubs := rfl
@[simp] theorem stkPut_abfs (a : Nat) (bs : List Byte) (s : State) : (stkPut a bs s).abfs = s.abfs := rfl
@[simp] theorem stkPut_vil (a : Nat) (bs : List Byte) (s : State) : (stkPut a bs s).vil = s.vil := rfl
@[simp] theorem stkPut_sec (a : Nat) (bs : List Byte) (s : State) : (stkPut a bs s).sec = s.sec := rfl
@[simp] theorem stkPut_nd (a : Nat) (bs : List Byte) (s : State) : (stkPut a bs s).nd = s.nd := rfl
@[simp] theorem stkPut_cur (a : Nat) (bs : List Byte) (s : State) : (stkPut a bs s).cur = s.cur := rfl
@[simp] theorem stkPut_pwr (a : Nat) (bs : List Byte) (s : State) : (stkPut a bs s).pwr = s.pwr := rfl
@[simp] theorem stkPut_errs (a : Nat) (bs : List Byte) (s : State) : (stkPut a bs s).errs = s.errs := rfl
@[simp] theorem stkPut_evq (a : Nat) (bs : List Byte) (s : State) : (stkPut a bs s).evq = s.evq := rfl
@[simp] theorem stkPut_sent (a : Nat) (bs : List Byte) (s : State) : (stkPut a bs s).sent = s.sent := rfl
@[simp] theorem stkPut_env (a : Nat) (bs : List Byte) (s : State) : (stkPut a bs s).env = s.env := rfl
@[simp] theorem stkPut_free (a : Nat) (bs : List Byte) (s : State) : (stkPut a bs s).free = s.free := rfl

theorem eng_engMod (k : Nat) (f : Eng → Eng) (s : State) (k' : Nat) :
    eng (engMod k f s) k' = if k' = k then f (eng s k) else eng s k' := by
  simp [eng, engMod, tabMod, tabGet_tabSet]

theorem job_jobMod (k : Nat) (f : Job → Job) (s : State) (k' : Nat) :
    job (jobMod k f s) k' = if k' = k then f (job s k) else job s k' := by
  simp [job, jobMod, tabMod, tabGet_tabSet]

theorem zone_zoneMod (k : Nat) (f : Zone → Zone) (s : State) (k' : Nat) :
    zone (zoneMod k f s) k' = if k' = k then f (zone s k) else zone s k' := by
  simp [zone, zoneMod, tabMod, tabGet_tabSet]

theorem catE_catMod (k : Nat) (f : CatE → CatE) (s : State) (k' : Nat) :
    catE (catMod k f s) k' = if k' = k then f (catE s k) else catE s k' := by
  simp [catE, catMod, tabMod, tabGet_tabSet]

theorem acc_accMod (k : Nat) (f : AccPort → AccPort) (s : State) (k' : Nat) :
    acc (accMod k f s) k' = if k' = k then f (acc s k) else acc s k' := by
  simp [acc, accMod, tabMod, tabGet_tabSet]

theorem hub_hubMod (k : Nat) (f : HubSt → HubSt) (s : State) (k' : Nat) :
    hub (hubMod k f s) k' = if k' = k then f (hub s k) else hub s k' := by
  simp [hub, hubMod, tabMod, tabGet_tabSet]

theorem abf_abfMod (k : Nat) (f : AbfSt → AbfSt) (s : State) (k' : Nat) :
    abf (abfMod k f s) k' = if k' = k then f (abf s k) else abf s k' := by
  simp [abf, abfMod, tabMod, tabGet_tabSet]

@[simp] theorem secMod_sec (f : SecSt → SecSt) (s : State) : (secMod f s).sec = f s.sec := rfl
@[simp] theorem pwrMod_pwr (f : PwrSt → PwrSt) (s : State) : (pwrMod f s).pwr = f s.pwr := rfl
@[simp] theorem vilMod_vil (f : VilriSt → VilriSt) (s : State) : (vilMod f s).vil = f s.vil := rfl
@[simp] theorem emit_sent (o : Out) (s : State) : (emit o s).sent = o :: s.sent := rfl

/-- A register after a write of a register. -/
theorem rget_rset (p off : Nat) (v : Word) (s : State) (p' off' : Nat) :
    rget (rset p off v s) p' off' = if ridx p' off' = ridx p off then v else rget s p' off' := by
  simp [rget, rset, tabGet_tabSet]

@[simp] theorem rget_rset_self (p off : Nat) (v : Word) (s : State) : rget (rset p off v s) p off = v := by
  simp [rget_rset]

/-- A byte of a table of bytes after a byte string is written. -/
theorem tabGet_writeBytesAt (m : Tab Byte) (a : Nat) (bs : List Byte) (x : Nat) :
    tabGet (fun _ => 0) (writeBytesAt m a bs) x = if h : a ≤ x ∧ x < a + bs.length then bs[x - a] else tabGet (fun _ => 0) m x := by
  induction bs generalizing m a with
  | nil =>
    simp [writeBytesAt]
  | cons b t ih =>
    rw [writeBytesAt, ih]
    by_cases h1 : a + 1 ≤ x ∧ x < a + 1 + t.length
    · have h2 : a ≤ x ∧ x < a + (b :: t).length := by simp only [List.length_cons]; omega
      rw [dif_pos h1, dif_pos h2]
      obtain ⟨n, hn⟩ : ∃ n, x - a = n + 1 := ⟨x - a - 1, by omega⟩
      have hm : x - (a + 1) = n := by omega
      simp only [hn, hm, List.getElem_cons_succ]
    · rw [dif_neg h1, tabGet_tabSet]
      by_cases h3 : x = a
      · subst h3
        simp
      · have h4 : ¬ (a ≤ x ∧ x < a + (b :: t).length) := by simp only [List.length_cons]; omega
        rw [if_neg h3, dif_neg h4]

/-- Writing a byte string keeps the canonical form. -/
theorem tabWf_writeBytesAt (m : Tab Byte) (a : Nat) (bs : List Byte) (h : tabWf (fun _ => (0 : Byte)) m = true) :
    tabWf (fun _ => (0 : Byte)) (writeBytesAt m a bs) = true := by
  induction bs generalizing m a with
  | nil => exact h
  | cons b t ih => exact ih _ _ (tabWf_tabSet _ _ _ _ h)

end Sys2Proof.Machine
end

