-- ==== Sys2Proof/Laws/Ops.lean ====
section
/-! SUPPORT. What the shared operations can do: registers, events, alerts and Errata records change the registers, the logs and the
ring in the Stacks and nothing else, and keep the Stacks' canonical form; what issuing an instruction gives. -/

namespace Sys2Proof.Machine

/-- Only the registers, the Stacks and their marks, the power and link records, the Errata buffer and the event queue may differ, and
the Stacks keep their canonical form. -/
structure LogOnly (s t : State) : Prop where
  pending : t.pending = s.pending
  shadow : t.shadow = s.shadow
  captured : t.captured = s.captured
  hiLatch : t.hiLatch = s.hiLatch
  hiLatchSb : t.hiLatchSb = s.hiLatchSb
  stagedLo : t.stagedLo = s.stagedLo
  tick : t.tick = s.tick
  refTick : t.refTick = s.refTick
  ftimeAt : t.ftimeAt = s.ftimeAt
  phaseK : t.phaseK = s.phaseK
  engs : t.engs = s.engs
  store : t.store = s.store
  jobs : t.jobs = s.jobs
  zones : t.zones = s.zones
  cat : t.cat = s.cat
  aperture : t.aperture = s.aperture
  statQ : t.statQ = s.statQ
  xfers : t.xfers = s.xfers
  nextXfer : t.nextXfer = s.nextXfer
  chains : t.chains = s.chains
  ready : t.ready = s.ready
  accs : t.accs = s.accs
  hubs : t.hubs = s.hubs
  abfs : t.abfs = s.abfs
  sec : t.sec = s.sec
  nd : t.nd = s.nd
  cur : t.cur = s.cur
  sent : t.sent = s.sent
  env : t.env = s.env
  free : t.free = s.free
  wf : Memory.wf s → Memory.wf t
  regsWf : tabWf regReset s.regs = true → tabWf regReset t.regs = true

theorem LogOnly.refl (s : State) : LogOnly s s := by
  constructor <;> first | rfl | exact id

theorem LogOnly.trans {s t u : State} (h : LogOnly s t) (k : LogOnly t u) : LogOnly s u where
  pending := k.pending.trans h.pending
  shadow := k.shadow.trans h.shadow
  captured := k.captured.trans h.captured
  hiLatch := k.hiLatch.trans h.hiLatch
  hiLatchSb := k.hiLatchSb.trans h.hiLatchSb
  stagedLo := k.stagedLo.trans h.stagedLo
  tick := k.tick.trans h.tick
  refTick := k.refTick.trans h.refTick
  ftimeAt := k.ftimeAt.trans h.ftimeAt
  phaseK := k.phaseK.trans h.phaseK
  engs := k.engs.trans h.engs
  store := k.store.trans h.store
  jobs := k.jobs.trans h.jobs
  zones := k.zones.trans h.zones
  cat := k.cat.trans h.cat
  aperture := k.aperture.trans h.aperture
  statQ := k.statQ.trans h.statQ
  xfers := k.xfers.trans h.xfers
  nextXfer := k.nextXfer.trans h.nextXfer
  chains := k.chains.trans h.chains
  ready := k.ready.trans h.ready
  accs := k.accs.trans h.accs
  hubs := k.hubs.trans h.hubs
  abfs := k.abfs.trans h.abfs
  sec := k.sec.trans h.sec
  nd := k.nd.trans h.nd
  cur := k.cur.trans h.cur
  sent := k.sent.trans h.sent
  env := k.env.trans h.env
  free := k.free.trans h.free
  wf := fun w => k.wf (h.wf w)
  regsWf := fun w => k.regsWf (h.regsWf w)

/-- The Stacks keep their canonical form under a write of a line. -/
theorem stkWrite_wf (a : Nat) (l : Line) (m : Mark) (s : State) (h : Memory.wf s) : Memory.wf (stkWrite a l m s) :=
  tabWf_writeBytesAt _ _ _ h

/-- The Stacks keep their canonical form under a write of bytes. -/
theorem stkPut_wf (a : Nat) (bs : List Byte) (s : State) (h : Memory.wf s) : Memory.wf (stkPut a bs s) :=
  tabWf_writeBytesAt _ _ _ h

theorem reset_wf : Memory.wf State.reset := by decide

/-- The registers keep their canonical form under a write of one. -/
theorem rset_regsWf (p off : Nat) (v : Word) (s : State) (h : tabWf regReset s.regs = true) :
    tabWf regReset (rset p off v s).regs = true :=
  tabWf_tabSet _ _ _ _ h

theorem rset_logOnly (p off : Nat) (v : Word) (s : State) : LogOnly s (rset p off v s) := by
  constructor <;> first | rfl | exact id | exact rset_regsWf p off v s

theorem fset_logOnly (p off lo w x : Nat) (s : State) : LogOnly s (fset p off lo w x s) := rset_logOnly _ _ _ _

theorem finc_logOnly (p off lo w n : Nat) (s : State) : LogOnly s (finc p off lo w n s) := rset_logOnly _ _ _ _

theorem rset64_logOnly (p off : Nat) (v : BitVec 64) (s : State) : LogOnly s (rset64 p off v s) :=
  (rset_logOnly _ _ _ _).trans (rset_logOnly _ _ _ _)

theorem stkWrite_logOnly (a : Nat) (l : Line) (m : Mark) (s : State) : LogOnly s (stkWrite a l m s) := by
  constructor <;> first | rfl | exact stkWrite_wf a l m s | exact id

theorem evq_logOnly (s : State) (q : List EventMsg) : LogOnly s { s with evq := q } := by
  constructor <;> first | rfl | exact id

theorem vil_logOnly (s : State) (v : VilriSt) : LogOnly s { s with vil := v } := by
  constructor <;> first | rfl | exact id

theorem pwr_logOnly (s : State) (v : PwrSt) : LogOnly s { s with pwr := v } := by
  constructor <;> first | rfl | exact id

theorem errs_logOnly (s : State) (v : List ErrRec) : LogOnly s { s with errs := v } := by
  constructor <;> first | rfl | exact id

/-- Queueing an EVENT. -/
theorem queueEvent_logOnly (code page : Nat) (bits : Word) (detail : List Nat) (s : State) :
    LogOnly s (queueEvent code page bits detail s) := by
  unfold queueEvent
  have h := rset64_logOnly pgVilri 0x88 (rget64 s pgVilri 0x88 + 1) s
  dsimp only
  split
  · exact h.trans (evq_logOnly _ _)
  · exact h.trans ((vil_logOnly _ _).trans (finc_logOnly _ _ _ _ _ _))

theorem sendEvent_logOnly (code : Nat) (detail : List Nat) (s : State) : LogOnly s (sendEvent code detail s) :=
  queueEvent_logOnly _ _ _ _ _

/-- Raising a page's event. -/
theorem raise_logOnly (p bit : Nat) (s : State) : LogOnly s (raise p bit s) := by
  unfold raise
  dsimp only
  split
  · exact LogOnly.refl s
  · have h := rset_logOnly p 0x10 (rget s p 0x10 ||| BitVec.ofNat 32 (2 ^ bit)) s
    split
    · exact h
    · exact h.trans (queueEvent_logOnly _ _ _ _ _)

theorem errInfo_logOnly (p code off src detail : Nat) (s : State) : LogOnly s (errInfo p code off src detail s) := by
  unfold errInfo
  dsimp only
  refine LogOnly.trans ?_ (raise_logOnly p 31 _)
  split
  · exact rset_logOnly _ _ _ _
  · exact LogOnly.refl s

theorem alertCause_logOnly (bit : Nat) (s : State) : LogOnly s (alertCause bit s) := rset_logOnly _ _ _ _

theorem whenS_logOnly (c : Bool) (f : State → State) (h : ∀ s, LogOnly s (f s)) (s : State) : LogOnly s (whenS c f s) := by
  unfold whenS
  split
  · exact h s
  · exact LogOnly.refl s

theorem foldS_logOnly {α : Type} (f : α → State → State) (h : ∀ a s, LogOnly s (f a s)) (l : List α) (s : State) :
    LogOnly s (foldS l f s) := by
  induction l generalizing s with
  | nil => exact LogOnly.refl s
  | cons a t ih => exact (h a s).trans (ih (f a s))

/-- One record goes into the ring in the Stacks. -/
theorem ringWrite_logOnly (r : ErrRec) (s : State) : LogOnly s (ringWrite r s) := by
  unfold ringWrite
  dsimp only
  have h := stkWrite_logOnly ((rget64 s pgErr 0x40).toNat + 64 * fget s pgErr 0x50 0 16) (errLine r) 0 s
  refine LogOnly.trans ?_ (fset_logOnly _ _ _ _ _ _)
  refine LogOnly.trans ?_ (pwr_logOnly _ _)
  split
  · exact h.trans ((finc_logOnly _ _ _ _ _ _).trans (raise_logOnly _ _ _))
  · exact h

theorem ringFlush_logOnly (s : State) : LogOnly s (ringFlush s) := by
  unfold ringFlush
  split
  · exact foldS_logOnly _ ringWrite_logOnly _ _
  · exact LogOnly.refl s

/-- Writing an Errata record. -/
theorem errata_logOnly (x : Er) (s : State) : LogOnly s (errata x s) := by
  unfold errata
  extract_lets n r full oldest _ s1 s2 s3 s4 s5 s6
  have h1 : LogOnly s s1 := by
    show LogOnly s (if _ then _ else _)
    split
    · exact LogOnly.trans (pwr_logOnly s _) (LogOnly.trans (finc_logOnly _ _ _ _ _ _) (raise_logOnly _ _ _))
    · exact LogOnly.refl s
  have h2 : LogOnly s1 s2 := errs_logOnly s1 _
  have h3 : LogOnly s2 s3 := fset_logOnly _ _ _ _ _ _
  have h4 : LogOnly s3 s4 := fset_logOnly _ _ _ _ _ _
  have h5 : LogOnly s4 s5 := finc_logOnly _ _ _ _ _ _
  have h6 : LogOnly s5 s6 := whenS_logOnly _ _ (raise_logOnly _ _) _
  exact h1.trans (h2.trans (h3.trans (h4.trans (h5.trans (h6.trans (ringFlush_logOnly s6))))))

theorem errZone_logOnly (ty sev z : Nat) (detail : List Nat) (s : State) : LogOnly s (errZone ty sev z detail s) := errata_logOnly _ _

theorem capacity_logOnly (kind sev : Nat) (x : Er) (s : State) : LogOnly s (capacity kind sev x s) :=
  (errata_logOnly _ _).trans ((raise_logOnly _ _ _).trans ((sendEvent_logOnly _ _ _).trans (alertCause_logOnly _ _)))

theorem substitution_logOnly (x : Er) (kind logical old new : Nat) (s : State) :
    LogOnly s (substitution x kind logical old new s) := errata_logOnly _ _

theorem countFlags_logOnly (k : Nat) (f : Flags) (s : State) : LogOnly s (countFlags k f s) :=
  foldS_logOnly _ (fun _ s => whenS_logOnly _ _ (fun t => finc_logOnly _ _ _ _ _ t) s) _ _

/-- Where a segment issues, what the instruction finds: its storage engine, segment, program counter and cycle. -/
theorem issue_some {u : EUnit} {rel : Nat} {h : IssueHdr} {s : State} {c : Ctx} (hc : issue u rel h s = some c) :
    live s h.leng.toNat h.seg = true ∧ enabled s (pgEng (execKey s h.leng.toNat) u.page) = true ∧
      ((eng s (storeKey s h.leng.toNat)).seg h.seg).goesOn h.delay.toNat rel = true ∧ c.k = storeKey s h.leng.toNat ∧ c.leng = h.leng.toNat ∧ c.g = h.seg ∧
      c.pc = ((eng s (storeKey s h.leng.toNat)).seg h.seg).pc ∧ c.loops = ((eng s (storeKey s h.leng.toNat)).seg h.seg).loops ∧
      c.cyc = max (((eng s (storeKey s h.leng.toNat)).seg h.seg).last + h.delay.toNat) rel := by
  unfold issue at hc
  simp only at hc
  split at hc
  · rename_i hl
    rw [Bool.and_eq_true, Bool.and_eq_true] at hl
    cases hc
    exact ⟨hl.1.1, hl.1.2, hl.2, rfl, rfl, rfl, rfl, rfl, rfl⟩
  · cases hc

/-- A command that a loaded image can hold takes its effect; any other stops. -/
theorem gate_true (t : State) : gate true t = .next t := rfl

theorem gate_false (t : State) : gate false t = .fault .noSuchCommand := rfl

theorem gate_next {ok : Bool} {t u : State} (h : gate ok t = .next u) : ok = true ∧ u = t := by
  cases ok
  · exact absurd h (by simp [gate])
  · exact ⟨rfl, by injection h with h; exact h.symm⟩

end Sys2Proof.Machine
end

