-- ==== Sys2Proof/Laws/Engine.lean ====
section
/-! SUPPORT. What the operations of an engine can do: the engines, the jobs' records, the registers and the logs change, nothing else,
and the Stacks keep their canonical form. -/

namespace Sys2Proof.Machine

/-- Only the engines, the jobs, the registers, the logs, the Stacks (through the Errata ring) and the free-value counter may differ, and
the Stacks keep their canonical form. -/
structure EngOnly (s t : State) : Prop where
  pending : t.pending = s.pending
  shadow : t.shadow = s.shadow
  captured : t.captured = s.captured
  hiLatch : t.hiLatch = s.hiLatch
  hiLatchSb : t.hiLatchSb = s.hiLatchSb
  stagedLo : t.stagedLo = s.stagedLo
  tick : t.tick = s.tick
  refTick : t.refTick = s.refTick
  ftimeAt : t.ftimeAt = s.ftimeAt
  phaseK : t.phaseK = s.phaseK
  store : t.store = s.store
  zones : t.zones = s.zones
  cat : t.cat = s.cat
  aperture : t.aperture = s.aperture
  statQ : t.statQ = s.statQ
  xfers : t.xfers = s.xfers
  nextXfer : t.nextXfer = s.nextXfer
  chains : t.chains = s.chains
  ready : t.ready = s.ready
  accs : t.accs = s.accs
  hubs : t.hubs = s.hubs
  abfs : t.abfs = s.abfs
  sec : t.sec = s.sec
  nd : t.nd = s.nd
  cur : t.cur = s.cur
  sent : t.sent = s.sent
  env : t.env = s.env
  wf : Memory.wf s → Memory.wf t

theorem EngOnly.refl (s : State) : EngOnly s s := by
  constructor <;> first | rfl | exact id

theorem EngOnly.trans {s t u : State} (h : EngOnly s t) (k : EngOnly t u) : EngOnly s u where
  pending := k.pending.trans h.pending
  shadow := k.shadow.trans h.shadow
  captured := k.captured.trans h.captured
  hiLatch := k.hiLatch.trans h.hiLatch
  hiLatchSb := k.hiLatchSb.trans h.hiLatchSb
  stagedLo := k.stagedLo.trans h.stagedLo
  tick := k.tick.trans h.tick
  refTick := k.refTick.trans h.refTick
  ftimeAt := k.ftimeAt.trans h.ftimeAt
  phaseK := k.phaseK.trans h.phaseK
  store := k.store.trans h.store
  zones := k.zones.trans h.zones
  cat := k.cat.trans h.cat
  aperture := k.aperture.trans h.aperture
  statQ := k.statQ.trans h.statQ
  xfers := k.xfers.trans h.xfers
  nextXfer := k.nextXfer.trans h.nextXfer
  chains := k.chains.trans h.chains
  ready := k.ready.trans h.ready
  accs := k.accs.trans h.accs
  hubs := k.hubs.trans h.hubs
  abfs := k.abfs.trans h.abfs
  sec := k.sec.trans h.sec
  nd := k.nd.trans h.nd
  cur := k.cur.trans h.cur
  sent := k.sent.trans h.sent
  env := k.env.trans h.env
  wf := fun w => k.wf (h.wf w)

theorem LogOnly.engOnly {s t : State} (h : LogOnly s t) : EngOnly s t where
  pending := h.pending
  shadow := h.shadow
  captured := h.captured
  hiLatch := h.hiLatch
  hiLatchSb := h.hiLatchSb
  stagedLo := h.stagedLo
  tick := h.tick
  refTick := h.refTick
  ftimeAt := h.ftimeAt
  phaseK := h.phaseK
  store := h.store
  zones := h.zones
  cat := h.cat
  aperture := h.aperture
  statQ := h.statQ
  xfers := h.xfers
  nextXfer := h.nextXfer
  chains := h.chains
  ready := h.ready
  accs := h.accs
  hubs := h.hubs
  abfs := h.abfs
  sec := h.sec
  nd := h.nd
  cur := h.cur
  sent := h.sent
  env := h.env
  wf := h.wf

theorem engMod_engOnly (k : Nat) (f : Eng → Eng) (s : State) : EngOnly s (engMod k f s) := by
  constructor <;> first | rfl | exact id

theorem jobMod_engOnly (j : Nat) (f : Job → Job) (s : State) : EngOnly s (jobMod j f s) := by
  constructor <;> first | rfl | exact id

theorem takeFree_engOnly (s : State) : EngOnly s (takeFree s).2 := by
  constructor <;> first | rfl | exact id

theorem segMod_engOnly (k : Nat) (g : Seg) (f : SegSt → SegSt) (s : State) : EngOnly s (segMod k g f s) := engMod_engOnly _ _ _

theorem arrMod_engOnly (k : Nat) (f : ArraySt → ArraySt) (s : State) : EngOnly s (arrMod k f s) := engMod_engOnly _ _ _

theorem vecMod_engOnly (k : Nat) (f : VecSt → VecSt) (s : State) : EngOnly s (vecMod k f s) := engMod_engOnly _ _ _

theorem cPut_engOnly (k line : Nat) (l : Line) (m : Mark) (s : State) : EngOnly s (cPut k line l m s) := engMod_engOnly _ _ _

theorem cMark_engOnly (k line : Nat) (m : Mark) (s : State) : EngOnly s (cMark k line m s) := engMod_engOnly _ _ _

theorem whenS_engOnly (c : Bool) (f : State → State) (h : ∀ s, EngOnly s (f s)) (s : State) : EngOnly s (whenS c f s) := by
  unfold whenS
  split
  · exact h s
  · exact EngOnly.refl s

theorem foldS_engOnly {α : Type} (f : α → State → State) (h : ∀ a s, EngOnly s (f a s)) (l : List α) (s : State) :
    EngOnly s (foldS l f s) := by
  induction l generalizing s with
  | nil => exact EngOnly.refl s
  | cons a t ih => exact (h a s).trans (ih (f a s))

theorem cMarks_engOnly (k line n : Nat) (m : Mark) (s : State) : EngOnly s (cMarks k line n m s) :=
  foldS_engOnly _ (fun _ _ => cMark_engOnly _ _ _ _) _ _

/-- Raising a SCHED_FAULT. -/
theorem schedFault_engOnly (k : Nat) (g : Seg) (pc cause cyc : Nat) (arrival : Bool) (s : State) :
    EngOnly s (schedFault k g pc cause cyc arrival s) := by
  unfold schedFault
  dsimp only
  refine EngOnly.trans ?_ (raise_logOnly _ _ _).engOnly
  refine EngOnly.trans ?_ (segMod_engOnly _ _ _ _)
  refine EngOnly.trans ?_ (finc_logOnly _ _ _ _ _ _).engOnly
  split
  · exact ((rset_logOnly _ _ _ _).trans (rset_logOnly _ _ _ _)).engOnly
  · exact EngOnly.refl s

/-- An Errata record of an engine. -/
theorem errEng_engOnly (ty sev leng : Nat) (g : Seg) (block : Nat) (detail : List Nat) (s : State) :
    EngOnly s (errEng ty sev leng g block detail s) := by
  unfold errEng
  dsimp only
  refine EngOnly.trans ?_ (errata_logOnly _ _).engOnly
  split
  · split
    · exact jobMod_engOnly _ _ _
    · exact EngOnly.refl s
  · exact EngOnly.refl s

/-- A job that consumes poison is marked, nothing else. -/
theorem consume_engOnly (leng : Nat) (g : Seg) (pc : Nat) (o : Nat × Option Nat) (m : Mark) (s : State) :
    EngOnly s (consume leng g pc o m s) := by
  unfold consume
  split
  · exact EngOnly.refl s
  · split
    · exact EngOnly.refl s
    · split
      · exact EngOnly.refl s
      · exact jobMod_engOnly _ _ _

/-- A window turns a write away. -/
theorem turnAway_engOnly (k line : Nat) (g : Seg) (pc cyc : Nat) (arrival : Bool) (s : State) :
    EngOnly s (turnAway k line g pc cyc arrival s) :=
  (engMod_engOnly _ _ _).trans (schedFault_engOnly _ _ _ _ _ _ _)

/-- A write under way that a window opening meets. -/
theorem undoWrite_engOnly (k cyc : Nat) (g : Seg) (o : OldLine) (s : State) : EngOnly s (undoWrite k cyc g o s) := by
  unfold undoWrite
  dsimp only
  split
  · exact ((cPut_engOnly _ _ _ _ _).trans (engMod_engOnly _ _ _)).trans (turnAway_engOnly _ _ _ _ _ _ _)
  · exact ((cPut_engOnly _ _ _ _ _).trans (engMod_engOnly _ _ _)).trans (engMod_engOnly _ _ _)

/-- Hold windows open. -/
theorem openHolds_engOnly (k : Nat) (g : Seg) (pc : Nat) (ls : List Loop) (cyc : Nat) (s : State) :
    EngOnly s (openHolds k g pc ls cyc s) :=
  (engMod_engOnly _ _ _).trans (foldS_engOnly _ (fun o s => undoWrite_engOnly _ _ _ o s) _ _)

/-- The kept writes of a cycle that has come are turned away. -/
theorem pendTo_engOnly (k t : Nat) (s : State) : EngOnly s (pendTo k t s) :=
  (engMod_engOnly _ _ _).trans (foldS_engOnly _ (fun _ s => turnAway_engOnly _ _ _ _ _ _ s) _ _)

/-- Hold windows end. -/
theorem endHolds_engOnly (k t : Nat) (hit : HoldOpen → Bool) (s : State) : EngOnly s (endHolds k t hit s) := by
  unfold endHolds
  exact ((pendTo_engOnly _ _ _).trans (engMod_engOnly _ _ _)).trans
    ((foldS_engOnly _ (fun _ _ => cMark_engOnly _ _ _ _) _ _).trans (foldS_engOnly _ (fun _ _ => cPut_engOnly _ _ _ _ _) _ _))

/-- A write of a Carrel line: into the line, or turned away by an open hold window. -/
theorem cWrite_engOnly (k line : Nat) (l : Line) (m : Mark) (pc cyc : Nat) (arrival : Bool) (s : State) :
    EngOnly s (cWrite k line l m pc cyc arrival s) := by
  unfold cWrite
  split
  · exact (engMod_engOnly _ _ _).trans (cPut_engOnly _ _ _ _ _)
  · exact turnAway_engOnly _ _ _ _ _ _ _

theorem numTrap_engOnly (k leng : Nat) (g : Seg) (s : State) : EngOnly s (numTrap k leng g s) := by
  unfold numTrap
  dsimp only
  exact ((finc_logOnly _ _ _ _ _ _).engOnly.trans (raise_logOnly _ _ _).engOnly).trans (errEng_engOnly _ _ _ _ _ _ _)

/-- A transfer that is late. -/
theorem moveLate_engOnly (leng : Nat) (g : Seg) (pc due cyc : Nat) (s : State) : EngOnly s (moveLate leng g pc due cyc s) :=
  (errata_logOnly _ _).engOnly

/-- What a segment wrote takes a mark. -/
theorem markSeg_engOnly (k : Nat) (g : Seg) (since : Nat) (m : Mark) (s : State) : EngOnly s (markSeg k g since m s) := by
  unfold markSeg
  dsimp only
  exact (((foldS_engOnly _ (fun _ _ => cMark_engOnly _ _ _ _) _ s).trans (arrMod_engOnly _ _ _)).trans
    (arrMod_engOnly _ _ _)).trans (vecMod_engOnly _ _ _)

theorem frameMod_engOnly (j : Nat) (w : BitVec 64) (f : FrameSt → FrameSt) (s : State) : EngOnly s (frameMod j w f s) :=
  jobMod_engOnly _ _ _

/-- A sequencer fault. -/
theorem seqFault_engOnly (leng : Nat) (g : Seg) (monitor : Nat) (cyc : Option Nat) (s : State) :
    EngOnly s (seqFault leng g monitor cyc s) := by
  unfold seqFault
  dsimp only
  refine EngOnly.trans ?_ (engMod_engOnly _ _ _)
  refine EngOnly.trans ?_ (whenS_engOnly _ _ (fun s => foldS_engOnly _ (fun _ _ => jobMod_engOnly _ _ _) _ s) _)
  refine EngOnly.trans ?_ (whenS_engOnly _ _ (fun s => (markSeg_engOnly _ _ _ _ s).trans (segMod_engOnly _ _ _ _)) _)
  have h1 := takeFree_engOnly s
  generalize (takeFree s).2 = s1 at h1 ⊢
  generalize (takeFree s).1 = fr
  generalize (0x80000000#32 ||| BitVec.ofNat 32 monitor) = w
  have h2 := (h1.trans (rset_logOnly (pgEng (storeKey s leng) 0) 0x78 w s1).engOnly).trans
    (raise_logOnly (pgEng (storeKey s leng) 0) 1 _).engOnly
  generalize raise (pgEng (storeKey s leng) 0) 1 _ = s2 at h2 ⊢
  generalize (if monitor = 1 then 3 else 2) = v
  split
  · exact (h2.trans (errEng_engOnly _ _ _ _ _ _ _)).trans (frameMod_engOnly _ _ _ _)
  · exact h2.trans (errEng_engOnly _ _ _ _ _ _ _)

/-- A bit error's consequence. -/
theorem upset_engOnly (k leng : Nat) (g : Seg) (pc cyc : Nat) (u : Upset) (s : State) : EngOnly s (upset k leng g pc cyc u s) := by
  unfold upset
  split
  · exact (finc_logOnly _ _ _ _ _ _).engOnly.trans (engMod_engOnly _ _ _)
  · exact (((((takeFree_engOnly s).trans (finc_logOnly _ _ _ _ _ _).engOnly).trans (rset_logOnly _ _ _ _).engOnly).trans
      (cPut_engOnly _ _ _ _ _)).trans (errata_logOnly _ _).engOnly)
  · exact (finc_logOnly _ _ _ _ _ _).engOnly.trans (vecMod_engOnly _ _ _)
  · exact (finc_logOnly _ _ _ _ _ _).engOnly.trans (vecMod_engOnly _ _ _)
  · exact EngOnly.refl s
  · exact ((finc_logOnly _ _ _ _ _ _).engOnly.trans (raise_logOnly _ _ _).engOnly).trans (engMod_engOnly _ _ _)
  · exact (fset_logOnly _ _ _ _ _ _).engOnly.trans (seqFault_engOnly _ _ _ _ _)
  · exact seqFault_engOnly _ _ _ _ _

/-- Issuing an instruction changes its engine only. -/
theorem issue_engOnly {u : EUnit} {rel : Nat} {h : IssueHdr} {s : State} {c : Ctx} (hc : issue u rel h s = some c) :
    EngOnly s c.s := by
  unfold issue at hc
  simp only at hc
  split at hc
  · cases hc
    exact (((engMod_engOnly _ _ _).trans (segMod_engOnly _ _ _ _)).trans (openHolds_engOnly _ _ _ _ _ _)).trans
      (foldS_engOnly _ (fun u s => upset_engOnly _ _ _ _ _ u s) _ _)
  · cases hc

/-- An instruction either does not issue, and nothing changes, or runs. -/
theorem issued_cases (u : EUnit) (rel : Nat) (h : IssueHdr) (s : State) (f : Ctx → State) :
    issued u rel h s f = s ∨ ∃ c, issue u rel h s = some c ∧ issued u rel h s f = f c := by
  unfold issued
  split
  · exact .inl rfl
  · rename_i c hc
    exact .inr ⟨c, hc, rfl⟩

/-- An instruction whose body changes only what an engine may, does so as a whole. -/
theorem issued_engOnly (u : EUnit) (rel : Nat) (h : IssueHdr) (s : State) (f : Ctx → State) (hf : ∀ c, EngOnly c.s (f c)) :
    EngOnly s (issued u rel h s f) := by
  rcases issued_cases u rel h s f with hs | ⟨c, hc, hs⟩
  · rw [hs]
    exact EngOnly.refl s
  · rw [hs]
    exact (issue_engOnly hc).trans (hf c)

end Sys2Proof.Machine
end

