-- ==== Sys2Proof/Machine/Accuracy.lean ====
section
/-! DEFINITION. What the spec promises of the tables and programs it does not print (spec/06_vector_and_functions.md R156, R157, R163,
R170; spec/11_accession_ports.md R299, R303): the error bounds and the monotonicity of the model's primitives and base programs, and the
response of an Accession port's filters and oscillator, as propositions. Sfu.lean holds the results to
the true functions so that they meet the bounds whatever the tables hold; a statement that needs one takes it as a premise. -/

namespace Sys2Proof.Machine

open scoped Real

/-- The real number a value stands for; 0 where it is none. -/
noncomputable def FVal.real : FVal → ℝ
  | .num s m e => (if s then -1 else 1) * m * (2 : ℝ) ^ e
  | _ => 0

/-- One unit in the last place of an IEEE format at a real number. -/
noncomputable def ulpIeee (f : Fmt) (r : ℝ) : ℝ :=
  (2 : ℝ) ^ (max ⌊Real.logb 2 |r|⌋ (1 - ieeeBias (ieeeShape f).1) - (ieeeShape f).2)

/-- The value of the posit whose word, read as a signed number, is `i` (R37). -/
noncomputable def positReal (f : Fmt) (i : ℤ) : ℝ := (decodeWordOf f (i % 2 ^ f.width).toNat).1.real

/-- Two neighbouring posits that bracket a real number. -/
def brackets (f : Fmt) (r : ℝ) (i : ℤ) : Prop :=
  -2 ^ (f.width - 1) < i ∧ i + 1 < 2 ^ (f.width - 1) ∧ positReal f i ≤ r ∧ r ≤ positReal f (i + 1)

/-- `v` lies within `n` posit ulps of `r`: the gap of the posits around `r`, the larger one where `r` is a posit (R156). Beyond the
posits' range nothing is said. -/
def withinPosit (f : Fmt) (n r v : ℝ) : Prop :=
  (∃ i, brackets f r i) → ∃ i, brackets f r i ∧ |v - r| ≤ n * (positReal f (i + 1) - positReal f i)

/-- `v` lies within the bound of an output format: `n` ulps of it; for p32 `n` ulps of fp32 inside [2⁻²⁰, 2²⁰) and 1 of p32 outside (R156). -/
def withinUlps (out : Fmt) (n r v : ℝ) : Prop :=
  if out = .p32 then
    if (2 : ℝ) ^ (-20 : ℤ) ≤ |r| ∧ |r| < (2 : ℝ) ^ (20 : ℤ) then |v - r| ≤ n * ulpIeee .fp32 r else withinPosit .p32 1 r v
  else if out.isPosit then withinPosit out n r v
  else |v - r| ≤ n * ulpIeee out r

/-- The function of a primitive (Table 6-5). -/
noncomputable def primReal : ℕ → ℝ → ℝ
  | 0, x => (2 : ℝ) ^ x
  | 1, x => Real.logb 2 x
  | 2, x => x⁻¹
  | 3, x => (Real.sqrt x)⁻¹
  | 4, x => Real.sin (2 * π * x)
  | _, x => Real.cos (2 * π * x)

/-- The arguments of a primitive that Table 6-7 gives no result of its own. -/
def primDomain : ℕ → ℝ → Prop
  | 1, x => 0 < x
  | 2, x => x ≠ 0
  | 3, x => 0 < x
  | _, _ => True

/-- An output format of a special function (Table 6-6). -/
def sfuOut (f : Fmt) : Prop := f ∈ [Fmt.p8, .p16, .p32, .fp32, .bf16, .fp16]

/-- The bound of Table 6-6 in ulps. -/
def primBound (f : Fmt) : ℝ := if f = .p32 ∨ f = .fp32 then 2 else 1

/-- An argument of a special function: the number in some word of a format. -/
def isArg (x : FVal) : Prop := x.finite = true ∧ ∃ f w, sfuOut f ∧ w < 2 ^ f.width ∧ x = (decodeWordOf f w).1

/-- A primitive's rounded result. -/
def primRes (code : ℕ) (out : Fmt) (il : Bool) (x : FVal) : FVal := (roundVal out (primVal code out il x).1).1

/-- R156: every primitive meets Table 6-6; R170: the IL-3610's tables meet its fp32 bound. -/
def PrimsAccurate : Prop :=
  ∀ code out il x, code < 6 → sfuOut out → (il = true → out = .fp32) → isArg x → primDomain code x.real →
    (primRes code out il x).finite = true → withinUlps out (primBound out) (primReal code x.real) (primRes code out il x).real

/-- R157: exp2 and log2 never fall, rcp on each sign and rsqrt never rise, in every output format. -/
def PrimsMonotone : Prop :=
  ∀ code out x y, code < 4 → sfuOut out → isArg x → isArg y → primDomain code x.real → primDomain code y.real →
    (code = 2 → x.neg = y.neg) → x.real ≤ y.real →
      (primRes code out false x).finite = true → (primRes code out false y).finite = true →
        if code < 2 then (primRes code out false x).real ≤ (primRes code out false y).real
        else (primRes code out false y).real ≤ (primRes code out false x).real

/-- The function of a base program (Table 6-11); the constant of gelu's tanh form is the usual one. -/
noncomputable def progReal : ℕ → ℝ → ℝ → ℝ
  | 0, x, _ => Real.exp x
  | 1, x, _ => Real.log x
  | 2, x, _ => 1 / (1 + Real.exp (-x))
  | 3, x, _ => Real.tanh x
  | 4, x, _ => x / (1 + Real.exp (-x))
  | 5, x, _ => x / 2 * (1 + Real.tanh (Real.sqrt (2 / π) * (x + 0.044715 * x ^ 3)))
  | 6, x, _ => 2 / Real.sqrt π * ∫ t in (0 : ℝ)..x, Real.exp (-t ^ 2)
  | 7, x, _ => Real.log (1 + Real.exp x)
  | _, y, x => Complex.arg ⟨x, y⟩

/-- The base programs whose MONO is not None (Table 6-11): non-decreasing. -/
def progMono : List ℕ := [0, 1, 2, 3, 6, 7]

/-- EB16 and EB32 of a base program (Table 6-11). -/
def progBounds (pid : ℕ) : ℝ × ℝ :=
  ([(1, 3), (1, 3), (1, 3), (2, 4), (2, 4), (2, 6), (2, 6), (2, 4), (2, 6)] : List (ℝ × ℝ)).getD pid (0, 0)

/-- A base program's result at an output format. -/
def progRes (p : Prog) (out : Fmt) (x y : FVal) : FVal := (roundVal out (runProg p false x y).1).1

/-- R163: every base program meets its EB16 at p16 and its EB32 at p32 and fp32. -/
def ProgsAccurate : Prop :=
  ∀ pid p x y, baseProg pid = some p → isArg x → isArg y → (pid = 1 → 0 < x.real) →
    ((progRes p .p16 x y).finite = true →
      withinUlps .p16 (progBounds pid).1 (progReal pid x.real y.real) (progRes p .p16 x y).real) ∧
    ∀ out, out = .p32 ∨ out = .fp32 → (progRes p out x y).finite = true →
      withinUlps out (progBounds pid).2 (progReal pid x.real y.real) (progRes p out x y).real

/-- R163: a program that claims MONO never falls over the p16 range. -/
def ProgsMonotone : Prop :=
  ∀ pid p x y, baseProg pid = some p → pid ∈ progMono → x ∈ Set.range (fun w => (decodeWordOf .p16 w).1) →
    y ∈ Set.range (fun w => (decodeWordOf .p16 w).1) → x.finite = true → y.finite = true → (pid = 1 → 0 < x.real) → x.real ≤ y.real →
      (progRes p .p16 x .zero).finite = true → (progRes p .p16 y .zero).finite = true →
        (progRes p .p16 x .zero).real ≤ (progRes p .p16 y .zero).real

/-- R166: the softmax quotient of any f in [0, 1) lies within 2⁻²⁴ of its value, two of which make 2⁻²³. -/
def SmxAccurate : Prop :=
  ∀ m e, e ≤ 0 → m < 2 ^ (-e).toNat → |(smxTerm m e : ℝ) / 2 ^ 25 - (2 : ℝ) ^ ((m : ℝ) * (2 : ℝ) ^ e)| ≤ 2 ^ (-24 : ℤ)

/-- The response of halfband stage `k` at frequency `f`, in cycles per input sample. -/
noncomputable def halfband (k : ℕ) (f : ℝ) : ℝ :=
  ‖∑ i ∈ Finset.range 55, ((Config.feTap k (min i (54 - i)) : ℝ) / 2 ^ Config.feTapBits : ℂ) * Complex.exp (-2 * π * Complex.I * f * i)‖

/-- R299: every halfband stage passes up to 0.40 of its output rate within ±0.001 dB and attenuates by at least 100 dB from 0.60 of it. -/
def HalfbandsMeet : Prop :=
  ∀ k f, 1 ≤ k → k ≤ 12 →
    (|f| ≤ 0.2 → |20 * Real.logb 10 (halfband k f)| ≤ 0.001) ∧ (0.3 ≤ |f| → |f| ≤ 0.5 → halfband k f ≤ 10 ^ (-5 : ℤ))

/-- Line `k` of the spectrum of the oscillator over one turn of its phase words. -/
noncomputable def oscLine (k : ℕ) : ℝ :=
  ‖∑ p ∈ Finset.range (2 ^ 20), (((feOsc (BitVec.ofNat 20 p)).1 : ℂ) - Complex.I * ((feOsc (BitVec.ofNat 20 p)).2 : ℂ)) *
    Complex.exp (2 * π * Complex.I * k * p / 2 ^ 20)‖

/-- R303: no other line of the oscillator comes within 110 dB of its own. -/
def MixerClean : Prop := ∀ k, k < 2 ^ 20 → k ≠ 1 → oscLine k ≤ oscLine 1 * (10 : ℝ) ^ (-(110 / 20 : ℝ))

end Sys2Proof.Machine
end

