-- ==== Sys2Proof/Tests/Slice0.lean ====
section
/-! SUPPORT. Tests of one step or one word, and for each statement with hypotheses a witness that meets them. The expected
values come from the spec's tables and rules. -/

namespace Sys2Proof.Tests

open Sys2Proof Sys2Proof.Machine

set_option Elab.async false

/-! ### Ill-formed commands are refused (one for each check of WellFormed) -/

/-- An issue header of engine 0's RT segment, and of its BG segment. -/
def wH : IssueHdr := { leng := 0, seg := .rt, delay := 1 }
def wB : IssueHdr := { leng := 0, seg := .bg, delay := 1 }

def wLds : LdsOp := { adv := false, fmt := 0, fast := false, ksplit := 0, tbase := 0 }
def wPass : PassOp :=
  { adv := false, fmt := 0, fast := false, ksplit := 0, dsth := false, src := false, mm1 := 0, boff := 0, in0 := 0, in1 := 0,
    in2 := 0, in3 := 0 }
def wDrain : DrainOp :=
  { adv := false, half := false, base := 0, nm1 := 0, aslot := 0, dst := 200, dfmt := 0, tag := 127, res := false, mul := false,
    rbase := 0, rfmt := 0, rslot := 0, gbase := 0, gfmt := 0, gslot := 0 }
/-- An addition of the p32 lane registers 0 and 1 into register 2. -/
def wVop : VOp :=
  { adv := false, func := 0, wfmt := 2, nm1 := 0, mlq := 0, ak := true, a := 0, afmt := 2, bk := true, b := 1, bfmt := 2, c := 0,
    dk := true, d := 2, dfmt := 2 }
def wFop : FOp :=
  { adv := false, ctl := 0, rot := 0, nm1 := 0, lq := 0, ak := true, a := 0, afmt := 2, bk := true, b := 1, bfmt := 2, c := 1,
    dk := true, d := 2, dfmt := 2 }
def wCvt : XOp :=
  { adv := false, nm1 := 0, ak := true, a := 0, afmt := 2, sen := false, slot := 0, tag := 0, dk := true, d := 2, dfmt := 1 }
def wRec : RecOp := { sg := 0, tag := 0, lid := 0, bix := 0 }
def wScl : SclOp := { adv := false, slot := 0, fidx := 0, r1 := wRec, r2 := wRec, r3 := wRec }
def wStat : StatOp := { adv := false, sfmt := 0, dfmt := 0, base := 0, nlines := 1 }
def wMov : MovOp :=
  { adv := false, dir := false, xpose := false, xfmt := 0, localLine := 0, remote := 0, len := 1, dl := 9000, tag := 0, ten := false }
def wCrecv : CrecvOp :=
  { half := false, base := 0, nm1 := 0, sk := false, src := 1, ch := 2, dl := 9000, tgt := false, line := 0 }

/-- Reserved values of the operand fields (check 0x05). -/
theorem test_refused_values :
    ([.lds wH { wLds with ksplit := 3 }, .pass wH { wPass with in1 := 1 }, .bal wH 0, .vop wH { wVop with func := 11 },
      .vop wH { wVop with a := 16 }, .vred wH { wVop with func := 5 }, .cvt wH { wCvt with d := 16 },
      .sfn wH { wFop with ctl := 6 }, .gact wH { wFop with lq := 1 }, .smx wH { wFop with ctl := 1 },
      .nrm wH { wFop with ctl := 48 }, .qclr wH { wVop with func := 1 }, .stat wH { wStat with nlines := 0 },
      .mov wH { wMov with len := 0 }, .crecv wH { wCrecv with sk := true, src := 32 }, .chk wH 1] : List Instr).all (fun i => !i.wf) = true := by
  decide +kernel

/-- Reserved or forbidden formats (0x06), storage of the other segment (0x08), mixed formats (0x09), two positive records (0x0A),
a YIELD in an RT segment (0x0E). -/
theorem test_refused_forms :
    ([.lds wH { wLds with fmt := 3 }, .drain wH { wDrain with dfmt := 4 }, .qclr wH { wVop with wfmt := 2 },
      .stat wH { wStat with dfmt := 8 }, .mov wH { wMov with xpose := true, xfmt := 1 },
      .drain wB wDrain, .vop wB wVop, .cvt wH { wCvt with sen := true, slot := 16 }, .qrnd wH { wVop with mlq := 2 },
      .mov wH { wMov with ten := true, tag := 128 },
      .vop wH { wVop with wfmt := 8, dfmt := 2 }, .cvt wH { wCvt with dfmt := 4 },
      .scl wH { wScl with r1 := { wRec with sg := 1 }, r2 := { wRec with sg := 1 } }, .yield wH false] : List Instr).all (fun i => !i.wf) = true := by
  decide +kernel

/-! ### Words written out from Tables 7-4 to 7-11, bit by bit -/

/-- A word with the opcode in [127:122], the DELAY in [121:106] and operand fields as (lowest bit, value). -/
def wordOf (op delay : Nat) (l : List (Nat × Nat)) : BitVec 128 :=
  BitVec.ofNat 128 (op * 2 ^ 122 + delay * 2 ^ 106 + (l.map fun p => p.2 * 2 ^ p.1).sum)

/-- Control: WTICK after 5 cycles; a LOOP of 3 turns with stride 1 in slot 0; a YIELD with STEP. -/
theorem test_words_control :
    decodeWord (wordOf 0x32 5 []) = some (5, .wtick) ∧
    decodeWord (wordOf 0x30 0 [(86, 2), (69, 1)]) = some (0, .loop { cntm1 := 2, d0 := 1, d1 := 0, d2 := 0, d3 := 0 }) ∧
    decodeWord (wordOf 0x33 0 [(104, 1)]) = some (0, .yield true) := by decide +kernel

/-- Array: LDS of a p16 tile (code 1) with KSPLIT 2 at line 0x1234; PASS of 6 vectors into half 1; DRAIN to line 200 in bf16 with
tag 9; BAL of 2,048 cycles. -/
theorem test_words_array :
    decodeWord (wordOf 0x01 0 [(101, 1), (98, 1), (81, 0x1234)]) = some (0, .lds { wLds with fmt := 1, ksplit := 1, tbase := 0x1234 }) ∧
    decodeWord (wordOf 0x02 7 [(97, 1), (88, 5), (80, 3), (63, 100)]) =
      some (7, .pass { wPass with dsth := true, mm1 := 5, boff := 3, in0 := 100 }) ∧
    decodeWord (wordOf 0x03 0 [(66, 200), (62, 6), (54, 9)]) = some (0, .drain { wDrain with dfmt := 6, tag := 9 }) ∧
    decodeWord (wordOf 0x05 0 [(85, 2048)]) = some (0, .bal 2048) := by decide +kernel

/-- Vector: VOP ADD in p32 of lane registers 0 and 1 into 2; CVT of lane register 0 into p16 lane register 2; NRM finish in RMS
mode. -/
theorem test_words_vector :
    decodeWord (wordOf 0x08 0 [(96, 2), (81, 1), (60, 2), (59, 1), (42, 1), (38, 2), (33, 1), (16, 2), (12, 2)]) = some (0, .vop wVop) ∧
    decodeWord (wordOf 0x0A 0 [(81, 1), (60, 2), (33, 1), (16, 2), (12, 1)]) = some (0, .cvt wCvt) ∧
    decodeWord (wordOf 0x0E 0 [(103, 1), (102, 1), (81, 1), (60, 2), (59, 1), (42, 1), (38, 2), (34, 1), (33, 1), (16, 2), (12, 2)]) =
      some (0, .nrm { wFop with ctl := 24 }) := by decide +kernel

/-- Scale, move, chain and check: SCL into slot 3 with a first record of sign +1, tag 4, LID 5, index 6; MOV of 2 lines from line
64 of the Stacks with DL 9000; CSEND to engine 1 on channel 2; CHK. -/
theorem test_words_units :
    decodeWord (wordOf 0x18 0 [(100, 3), (90, 1), (82, 4), (70, 5), (62, 6)]) =
      some (0, .scl { wScl with slot := 3, r1 := { sg := 1, tag := 4, lid := 5, bix := 6 } }) ∧
    decodeWord (wordOf 0x20 0 [(40, 64), (28, 2), (12, 9000)]) = some (0, .mov { wMov with remote := 64, len := 2 }) ∧
    decodeWord (wordOf 0x24 0 [(82, 1), (78, 2)]) = some (0, .csend { half := false, base := 0, nm1 := 0, dle := 1, ch := 2 }) ∧
    decodeWord (wordOf 0x28 0 []) = some (0, .chk 0) := by decide +kernel

/-- A set reserved bit and an opcode outside Table 7-4 spell no instruction. -/
theorem test_words_reserved : decodeWord (wordOf 0x01 0 [(0, 1)]) = none ∧ decodeWord (wordOf 0x06 0 []) = none := by decide +kernel

/-- A word of every opcode decodes to its instruction: the decoder reads what Table 7-4's layouts say. -/
theorem test_words_all :
    ([.nop, .lds wLds, .pass wPass, .drain wDrain, .drainr wDrain, .bal 9, .vop wVop, .vred wVop, .cvt wCvt, .sfn wFop, .gact wFop,
      .smx wFop, .nrm wFop, .qclr wVop, .qmac wVop, .qacc wVop, .qrnd wVop, .scl wScl, .stat wStat, .mov wMov,
      .csend { half := true, base := 3, nm1 := 2, dle := 9, ch := 5 }, .crecv wCrecv,
      .qadd { half := true, base := 3, nm1 := 2, shelf := 77, ch := 5 }, .chk 0,
      .loop { cntm1 := 3, d0 := 1, d1 := 2, d2 := 3, d3 := 4 }, .endl, .wtick, .yield true, .halt] : List EOp).all
      (fun o => decide (decodeWord (encodeWord 11 o) = some (11, o))) = true := by decide +kernel

/-! ### Witnesses: states and operands that meet the hypotheses of the statements -/

/-- Engine 0 with both segments running, lane registers 0 and 1 holding p32 values and lane quires 0 and 1 tagged q32. -/
def wEng : Eng :=
  { rt := { st := 1 }, bg := { st := 1 },
    vec := { vr := (List.range 128).map fun i => (i, { tag := some .p32, bits := 0x40000000 }),
             lq := (List.range 128).map fun i => (i, { tag := some .q32 }) } }

/-- A module in Ready with an RT job in slot 0 and a BG job in slot 1, both on logical engine 0. -/
def wS : State :=
  { State.reset with
    regs := [(ridx pgMod 0x40, 2)], engs := [(0, wEng)],
    jobs := [(0, { st := 2, bound := true, engMask := 1 }), (1, { st := 2, bound := true, engMask := 1, bg := true })] }

/-- A command of a unit that the module does not have changes nothing (R388). -/
theorem test_absent_units :
    ([.engineReset 0 5, .testUnitComplete 0 5 [], .retire 0 26, .nightDeskBlock [] 0, .vilriLaneReplace true 5,
      .abfoldPortEnable 6, .abfoldLaneReplace 0 9] : List Instr).all (fun i => match exec i wS with
        | .next t => decide (t = wS)
        | _ => false) = true := by
  decide +kernel

/-- `wS` with the RT segment inside a loop. -/
def wLoop (idx : Nat) : State :=
  segMod 0 .rt (fun x => { x with loops := [{ body := 3, count := 4, idx := idx, d0 := 0, d1 := 0, d2 := 0, d3 := 0 }] }) wS

theorem wit_PositWidening : (8, 16) ∈ [(8, 16), (8, 32), (16, 32)] ∧ 0x80 < 2 ^ 8 ∧ decodePosit 8 0x80 = FVal.nan ∧
    decodePosit 8 0x40 = FVal.num false 8 (-3) := by decide +kernel

theorem wit_LoopWords : issues wS wH 0 = true ∧ issues (wLoop 2) wH 0 = true ∧ issues (wLoop 3) wH 0 = true ∧
    (segOf (wLoop 2) wH.leng wH.seg).loops.map (fun l => (l.idx + 1, l.count)) = [(3, 4)] ∧
    (segOf (wLoop 3) wH.leng wH.seg).loops.map (fun l => (l.idx + 1, l.count)) = [(4, 4)] ∧ issues wS wH 5 = true ∧
    lastIn (eng wS (storeKey wS 0)) .check ≠ some (declared wS wH) ∧ (segOf wS wH.leng wH.seg).chk = none := by decide +kernel

/-- No write waits for a window, and the segment's next word opens none. -/
theorem wit_holdsQuiet : holdsQuiet wS wH ∧ holdsQuiet wS wB ∧ holdsQuiet (segMod 0 .rt (fun x => { x with chk := some 7 }) wS) wH := by
  unfold holdsQuiet
  decide +kernel

/-- A CHK that already waits. -/
theorem wit_LoopWords_chk :
    issues (segMod 0 .rt (fun x => { x with chk := some 7 }) wS) wH 5 = true ∧
    (segOf (segMod 0 .rt (fun x => { x with chk := some 7 }) wS) wH.leng wH.seg).chk.isSome = true := by decide +kernel

theorem wit_SegmentEnds : issues wS wH 0 = true ∧ issues wS wB 0 = true ∧ wB.seg = .bg ∧ (segOf wS wB.leng .bg).stepped = false ∧
    yieldSuspends wS wB true = false ∧ ownerOf wS wH.leng.toNat wH.seg = some 0 := by decide +kernel

/-- A YIELD past the yield line suspends. -/
theorem wit_SegmentEnds_suspends : yieldSuspends (segMod 0 .bg (fun x => { x with last := 2 ^ 30 }) wS) wB false = true := by
  decide +kernel

theorem wit_SequencerMonitors : running wS = true ∧ absent wS 0 = false ∧ (segOf wS 0 .bg).quiet < 64 ∧
    64 ≤ (segOf (segMod 0 .bg (fun x => { x with quiet := 64 }) wS) 0 .bg).quiet := by decide +kernel

theorem wit_RefusedWords : Instr.wf (.yield wH true) = false := by decide +kernel

/-- A tile of p8 words in engine 0's array. -/
def wTile : State := arrMod 0 (fun a => { a with tile := { valid := true, fmt := .p8, words := [(0, 0x40)] } }) wS

/-- An LDS that issues without a fault; one whose tile leaves the Carrel faults. -/
theorem wit_StationaryLoad :
    (Instr.lds wH wLds).wf = true ∧ (eng wS (storeKey wS 0)).arr.lastPass = none ∧
    ((issue .array 0 wH wS).any fun c => decide (ldsBad (settle c.k c.cyc (revealChk c c.s)) c wLds = 0)) = true ∧
    ((issue .array 0 wH wS).any fun c =>
      decide (ldsBad (settle c.k c.cyc (revealChk c c.s)) c { wLds with tbase := 98303 } ≠ 0)) = true := by decide +kernel

/-- The clauses of TileFormats: the LDS above, and a PASS of another format, fast bit or KSPLIT than the tile's. -/
theorem wit_TileFormats :
    ((issue .array 0 wH wTile).any fun c =>
      let u := (eng wTile c.k).arr.tile
      decide (fmtD 1 ≠ u.fmt) && !([Fmt.p8, .int4].contains (fmtD 1)) && decide ((true : Bool) ≠ u.fast) &&
        decide (2 ^ 1 ≠ u.ksplit)) = true ∧
    (Instr.pass wH { wPass with fmt := 1 }).wf = true ∧ (Instr.pass wH { wPass with fast := true }).wf = true ∧
    (Instr.pass wH { wPass with ksplit := 1 }).wf = true ∧ (segOf wTile wH.leng wH.seg).stopAt = none ∧ fmtMatch .p8 .int4 = true ∧ fmtMatch .int8 .p16 = true := by decide +kernel

/-- A PASS of one vector that issues without a fault, one without a tile, and one of a segment that stops. -/
theorem wit_PassAccumulates :
    (Instr.pass wH wPass).wf = true ∧ (segOf wTile wH.leng wH.seg).stopAt = none ∧
    (segOf (segMod 0 .rt (fun x => { x with stopAt := some 0 }) wTile) wH.leng wH.seg).stopAt.isSome = true ∧
    ((issue .array 0 wH wTile).any fun c => decide (passBad (settle c.k c.cyc c.s) c wPass = 0)) = true ∧
    ((issue .array 0 wH wS).any fun c => decide (passBad (settle c.k c.cyc c.s) c wPass ≠ 0)) = true := by decide +kernel

/-- A pass in flight of one vector, with and without a checksum-row slot. -/
def wFlight (chk : Bool) : Flight :=
  { seg := .rt, pc := 0, op := wPass, cyc := 10, commit := 26, idx := 0, nprob := 1, region := 64, beats := 1, chk := chk,
    selected := chk, iter := [], workTick := 0 }

/-- `wTile` with that pass in flight. -/
def wFly (chk : Bool) : State := arrMod 0 (fun a => { a with flights := [wFlight chk] }) wTile

theorem wit_BallastAndCommit :
    (Instr.bal wH 2048).wf = true ∧ issues wS wH 1 = true ∧ lastIn (eng wS (storeKey wS 0)) .array ≠ some (declared wS wH) ∧
    (eng (wFly true) (storeKey (wFly true) 0)).arr.flights = [wFlight true] ∧
    (eng (wFly false) (storeKey (wFly false) 0)).arr.flights = [wFlight false] ∧ (∀ j, j < 4 → (job (wFly true) j).ending = false) ∧
    (wFlight true).stale (eng (wFly true) 0) = false ∧ (wFlight false).stale (eng (wFly false) 0) = false ∧ (wFlight true).chk = true ∧ (wFlight false).chk = false ∧
    (eng wS (storeKey wS 0)).arr.gap = none ∧
    0 < (eng (arrMod 0 (fun a => { a with actLvl := 63 }) wS) 0).arr.actLvl := by decide +kernel

/-- `wS` with pair slot 0 valid. -/
def wSlot : State := engMod 0 (fun e => { e with slots := [(0, { valid := true, pair := { m := 1, s := 0 } })] }) wS

/-- The same with an output record. -/
def wSlotOut : State :=
  engMod 0 (fun e => { e with slots := [(0, { valid := true, pair := { m := 1, s := 0 }, out := some { lid := 5, tid := 5, seq := 0, adj := 0, src := 1 } })] }) wS

/-- A DRAIN into line 200 with its pair slot valid, with it invalid, and out of the half's capacity; the slot with a record. -/
theorem wit_DrainWrites :
    (Instr.drain wH wDrain).wf = true ∧ (eng wSlot (storeKey wSlot 0)).arr.flights = [] ∧
    ([wSlot, wSlotOut].all fun s => (issue .array 0 wH s).any fun c =>
      let s1 := settle c.k c.cyc (revealChk c c.s)
      let s2 := busyTo c.k c.g (drainDone c.cyc 1 (drainRate wDrain) false) (arrayClaims c.k c.cyc (drainClaims c wDrain (drainRate wDrain)) s1)
      decide (drainBad s1 c wDrain = 0) && decide (drainSlots s2 c wDrain = none) && decide ((eng s2 c.k).openH = []) &&
        decide ((slotGet s2 c.k wDrain.aslot.toNat).out.isSome = decide (s = wSlotOut))) = true ∧
    ((issue .array 0 wH wS).any fun c =>
      let s1 := settle c.k c.cyc (revealChk c c.s)
      decide (drainBad s1 c wDrain = 0) && decide (drainSlots s1 c wDrain ≠ none)) = true ∧
    ((issue .array 0 wH wS).any fun c =>
      decide (drainBad (settle c.k c.cyc (revealChk c c.s)) c { wDrain with base := 255, nm1 := 255 } ≠ 0)) = true := by decide +kernel

/-- The DRAIN that a DRAINR repeats. -/
def wDrained : State :=
  arrMod 0 (fun a => { a with drain := some { seg := .rt, pc := 0, op := wDrain, issue := 0, done := 0, rate := 1, stats := {}, out := none,
                                              failed := false, recomputed := false } }) wSlot

theorem wit_DrainrMatches :
    (Instr.drainr wH wDrain).wf = true ∧ (eng wDrained (storeKey wDrained 0)).arr.flights = [] ∧
    ((issue .array 0 wH wDrained).any fun c =>
      let s1 := settle c.k c.cyc (revealChk c c.s)
      decide (drainBad s1 c wDrain = 0) &&
        ((eng s1 c.k).arr.drain.any fun d => decide (d.op = wDrain) && decide (d.seg = c.g) && decide (d.done < c.cyc))) = true ∧
    ((issue .array 0 wH wSlot).any fun c =>
      let s1 := settle c.k c.cyc (revealChk c c.s)
      decide (drainBad s1 c wDrain = 0) && decide ((eng s1 c.k).arr.drain = none)) = true := by decide +kernel

/-- An addition and a compare of lane registers. -/
theorem wit_VectorValues :
    ([wVop, { wVop with func := 16 }].all fun o =>
      (Instr.vop wH o).wf && ((issue .vector 0 wH wS).any fun c => decide ((vopShape o).fault (vopBad o) c = 0))) = true := by
  decide +kernel

/-- A state with a program of two arguments and one step in slot 8. -/
def wProg (s : State) : State := { s with sec := { s.sec with programs := [(8, [8, 1, 2])] } }

/-- `wS` with that program, and open row states that hold one element, for SMX's output and NRM's finish. -/
def wRows : State :=
  wProg (vecMod 0 (fun v => { v with sk := (List.range 64).map fun i => (i, { empty := false, n := 1 }) }) wS)

/-- NRM's apply phase, mu and r in registers 0 and 1. -/
def wApply : FOp := { wFop with ctl := 32, bk := false, b := 60, c := 0 }

/-- The values of every vector instruction that has a destination: into a lane register, and into a stream. -/
theorem wit_VectorOutputs :
    ([.vop wVop, .vop { wVop with dk := false, d := 100, ak := false, a := 50 }, .vred wVop, .vred { wVop with dk := false, d := 100 },
      .cvt wCvt, .cvt { wCvt with dk := false, d := 100 }, .sfn wFop, .sfn { wFop with ctl := 40, dk := false, d := 100 }, .gact wFop,
      .gact { wFop with dk := false, d := 100 }, .smx { wFop with ctl := 32 }, .smx { wFop with ctl := 32, dk := false, d := 100 },
      .nrm wApply, .nrm { wApply with dk := false, d := 100 }, .qrnd wVop,
      .qrnd { wVop with dk := false, d := 100 }] : List EOp).all (fun o => vecLoads wRows wH o &&
      ((issue .vector 0 wH wRows).any fun c => (vecShape wRows wH o).any fun x => decide (x.fault (vecBad wRows wH o) c = 0) &&
        ((otherClaims c.k c.cyc (x.claims c) c.s).any fun s1 =>
          (vecOuts wRows wH (x.start c s1) c o).isSome && decide ((eng (x.start c s1) c.k).openH = [])))) = true := by
  decide +kernel

/-- CVT without a slot, with a valid one of a warm and of a cold history tensor, and with an invalid one; SFN of one and of two
arguments; GACT and VRED. -/
theorem wit_FunctionValues :
    (Instr.cvt wH wCvt).wf = true ∧ (Instr.cvt wH { wCvt with sen := true }).wf = true ∧ (Instr.sfn wH wFop).wf = true ∧
    (Instr.sfn wH { wFop with ctl := 40 }).wf = true ∧ (Instr.gact wH wFop).wf = true ∧ (Instr.vred wH wVop).wf = true ∧
    compatOf wS 0 .rt = false ∧ (sfuSteps wS 0 false).isSome = true ∧ ninTwo wS 0 false = false ∧
    (sfuSteps (wProg wS) 40 false).isSome = true ∧ ninTwo (wProg wS) 40 false = true ∧
    sfnArgB .rt wFop false wS = true ∧ sfnArgB .rt { wFop with ctl := 40 } false (wProg wS) = true ∧
    sfnArgB .rt { wFop with ctl := 40, bk := false, bfmt := 5 } false (wProg wS) = false ∧
    (slotGet wS 0 0).valid = false ∧ (slotGet wSlotOut 0 0).valid = true ∧ coldTid wSlotOut 5 = false ∧
    coldTid (catMod 5 (fun e => { e with mode := 1, coldLeft := 2 }) wSlotOut) 5 = true ∧
    ([wProg wS, wProg wSlotOut].all fun s => (issue .vector 0 wH s).any fun c =>
      decide ((cvtShape wCvt).fault (cvtBad { wCvt with sen := true }) c = 0) && decide ((cvtShape wCvt).fault (cvtBad wCvt) c = 0) &&
      decide ((vredShape wVop).fault (vredBad wVop) c = 0) &&
      decide ((sfnShape wFop false wS).fault (fBad wFop false false) c = 0) &&
      decide ((sfnShape { wFop with ctl := 40 } false (wProg wS)).fault (fBad { wFop with ctl := 40 } false true) c = 0) &&
      decide ((gactShape wFop false wS).fault (fBad wFop false true) c = 0)) = true := by
  decide +kernel

/-- A lane-quire instruction on quire 0. -/
def wQ : VOp := { wVop with bk := true, b := 1 }

theorem wit_LaneQuires :
    (Instr.qclr wH { wQ with wfmt := 9 }).wf = true ∧ (Instr.qmac wH wQ).wf = true ∧ (Instr.qacc wH wQ).wf = true ∧
    (Instr.qrnd wH wQ).wf = true ∧
    ((issue .vector 0 wH wS).any fun c =>
      decide ((qclrShape wQ).fault (fun _ _ => 0) c = 0) && decide ((qmacShape wQ).fault (qmacBad wQ) c = 0) &&
      decide ((qaccShape wQ).fault (qaccBad wQ) c = 0) && decide ((qrndShape wQ).fault (qrndBad wQ) c = 0)) = true := by decide +kernel

/-- The accumulate phases, SMX's output phase on posit rows and on an fp32 row, and NRM's finish and apply phases. -/
theorem wit_RowPhases :
    ([0, 32].all fun i => (Instr.smx wH { wFop with ctl := i }).wf) = true ∧
    ([wFop, { wFop with ctl := 16 }, wApply].all fun o => (Instr.nrm wH o).wf) = true ∧ compatOf wS 0 .rt = false ∧
    (rowGet wRows 0 (skOf .rt) 5).ieee = false ∧
    (rowGet (vecMod 0 (fun v => { v with sk := v.sk.map fun p => (p.1, { p.2 with ieee := true }) }) wRows) 0 (skOf .rt) 5).ieee = true ∧
    ((issue .vector 0 wH wRows).any fun c =>
      ((List.range 64).all fun l => !(srcFmt c.s c.k true wFop.a wFop.afmt l).isIeee) &&
      ([0, 32].all fun i => decide ((smxShape { wFop with ctl := i }).fault (smxBad { wFop with ctl := i }) c = 0)) &&
      ([(wFop, 0), ({ wFop with ctl := 16 }, 1), (wApply, 2)].all fun p => decide ((nrmShape p.1 p.2).fault (nrmBad p.1 p.2) c = 0)) &&
      (otherClaims c.k c.cyc ((nrmShape wApply 2).claims c) c.s).isSome) = true := by decide +kernel

/-- Each vector instruction has a shape, so VectorFrame says something of it; every other word has none. -/
theorem wit_Frames :
    ([.vop wVop, .vred wVop, .cvt wCvt, .sfn wFop, .gact wFop, .smx wFop, .nrm wFop, .qclr wVop, .qmac wVop, .qacc wVop,
      .qrnd wVop] : List EOp).all (fun o => (vecShape wS wH o).isSome) = true ∧
    ([.nop, .lds wLds, .pass wPass, .drain wDrain, .bal 1, .scl wScl, .stat wStat, .mov wMov, .crecv wCrecv, .chk 0, .wtick, .halt] :
      List EOp).all (fun o => (vecShape wS wH o).isNone) = true ∧ wH.upsets = [] ∧ (eng wTile 0).vec.runs = [] ∧
    (eng wTile 0).tileStale = false ∧ (eng wTile 0).arr.tile.valid = true := by decide +kernel

theorem wit_formed : formed (eng (wFly false) 0) := by
  unfold formed
  decide +kernel

theorem wit_StepRunsFront : ({ wS with pending := [.nop wH, .halt wH] } : State).pending = [.nop wH, .halt wH] ∧ wS.pending = [] := by
  decide +kernel

theorem wit_Decoded : decodeWord (wordOf 0x32 5 []) = some (5, .wtick) := by decide +kernel

/-- `wS` with a tensor of a job's table in block form, its Carrel record and a tag entry. -/
def wRecOk : State := jobMod 0 (fun j => { j with tensors := [{ lid := 5, src := 0, norcmp := false, fmt := 0, bpt := 8, w := 16, lag := 1, dirtab := 0 }] }) wS

/-- An SCL without records; one whose record has no valid tag entry does not compare. -/
theorem wit_PairSlot :
    (Instr.scl wH wScl).wf = true ∧ (Instr.scl wH { wScl with r1 := { sg := 1, tag := 4, lid := 5, bix := 6 } }).wf = true ∧
    ((issue .scale 0 wH wRecOk).any fun c => !c.dup &&
      ([wScl, { wScl with r1 := { sg := 1, tag := 4, lid := 5, bix := 6 } }].all fun o =>
        let j := (ownerOf c.s c.leng c.g).getD 0
        let rs := ([o.r1, o.r2, o.r3].zipIdx.map fun (r, i) => (r, advance o.adv i c.loops r.bix.toNat))
        (rs.all fun x => bixOk c.s j x.1 x.2) && !((rs.map fun x => recRead c.s c j x.1 x.2).any (·.early)))) = true ∧
    ((issue .scale 0 wH wRecOk).any fun c =>
      ((recRead c.s c 0 { sg := 1, tag := 4, lid := 5, bix := 6 } 6).cmp.isSome) && ((recRead c.s c 0 wRec 0).cmp.isNone)) = true := by
  decide +kernel

/-- A record write of tag entry 4 with and without statistics. -/
def wWr (st : Bool) : RecWr :=
  { seg := .rt, due := 10, line := 300, tag := 4, record := { tid := 5 }, mark := 0, stats := st, isDrain := true }

theorem wit_ScaleRecords :
    (Instr.stat wH wStat).wf = true ∧ (issue .scale 0 wH wS).isSome = true ∧
    (segOf (segMod 0 .rt (fun x => { x with present := { pending := true } }) wS) 0 .rt).present.pending = true ∧
    (segOf wS 0 .rt).present.pending = false ∧
    ([true, false].all fun b =>
      let s := engMod 0 (fun e => { e with recWrs := [wWr b] }) wS
      decide ((eng s (storeKey s 0)).nextRec = some (wWr b)) && decide ((eng s (storeKey s 0)).openH = []) &&
        decide ((eng s (storeKey s 0)).vec.runs = []) && decide (blockFailed s (storeKey s 0) (wWr b) = !b) &&
        (heldAt (eng s (storeKey s 0)) (wWr b).line (wWr b).due).isNone) = true ∧ (wWr true).tag ≠ 127 ∧
    (wWr true).tag ≠ 255 := by decide +kernel

/-- A record whose line an open window holds. -/
theorem wit_ScaleRecords_held :
    (heldAt (engMod 0 (fun e => { e with openH := [{ seg := .bg, closePc := 9, iter := [], line := 300, nlines := 1, blocked := [] }] }) wS |> fun s =>
      eng s (storeKey s 0)) 300 10).isSome = true := by decide +kernel

/-- A transfer of good statistics of an entry in use. -/
def wStatX (ok : Bool) : StatX := { slot := 0, tid := 5, adj := 3, stats := { nelem := 64 }, ok := ok }

/-- `wS` with Catalogue entry 5 in use and that transfer waiting. -/
def wCat (ok : Bool) : State := { catMod 5 (fun e => { e with mode := 1 }) wS with statQ := [wStatX ok] }

theorem wit_CatalogueInputs :
    (wCat true).statQ.find? (fun x => decide (x.slot = 0)) = some (wStatX true) ∧ (catE (wCat true) 5).mode ≠ 0 ∧
    (wStatX true).ok = true ∧ (wStatX false).ok = false ∧
    (wCat false).statQ.find? (fun x => decide (x.slot = 0)) = some (wStatX false) := by decide +kernel

/-- A MOV of one line from the Stacks and one to them, on an engine of job 0. -/
theorem wit_MovesStart :
    (Instr.mov wH wMov).wf = true ∧ (Instr.mov wH { wMov with dir := true }).wf = true ∧
    ((issue .move 0 wH wS).any fun c => !c.dup &&
      inFoot c.s c.leng c.g (advance false 0 c.loops 0) 1 && decide (ownerOf c.s c.leng c.g = some 0) &&
      decide (bitsOf (((advance false 1 c.loops 0) * 64 % 2 ^ 48).toNat) 43 5 = modNum wS) && decide (placeOf 0 = .stacks 0)) = true ∧
    (segOf wS 0 .rt).sendLog.length < 256 := by decide +kernel

theorem wit_ChainWords :
    (Instr.crecv wH wCrecv).wf = true ∧ absent wS 1 = false ∧ (segOf wS 0 .rt).sendLog.length < 256 ∧
    ((issue .chain 0 wH (arrMod 0 (fun a => { a with half0 := { tag := some .q8 } }) wS)).any fun c => !c.dup && decide (ownerOf c.s c.leng c.g = some 0) &&
      decide (chainSrcBad (settle c.k c.cyc c.s) c false 0 1 = 0) && inFoot c.s c.leng c.g 0 64) = true := by decide +kernel

/-- A chain transfer of two values from engine 1 on channel 2, and a CRECV of three that has none yet. -/
def wChain : ChainX :=
  { src := 1, dst := 0, ch := 2, job := 0, terms := 4, sent := 0,
    vals := [{ fmt := .q32, val := .quire (.int 1), mark := 0 }, { fmt := .q32, val := .quire (.int 2), mark := 0 }] }
def wRecv (sk : Bool) : Recv :=
  { pc := 0, sk := sk, src := 1, ch := 2, half := false, base := 0, n := 300, issue := 0, due := 9000, tgt := false, line := 0, got := 0,
    seg := .rt, id := 0, late := false }
def wChainS : State := { wS with chains := [wChain] }
def wRecvS (sk : Bool) : State := engMod 0 (fun e => { e with recvs := [wRecv sk] }) wChainS

theorem wit_ChainArrives :
    wChainS.chains = [wChain] ∧ wChain.vals[wChain.sent]? = some { fmt := .q32, val := .quire (.int 1), mark := 0 } ∧
    recvOf wChainS (storeKey wChainS 0) false 1 2 wChain.wt = none ∧
    recvOf (wRecvS false) (storeKey (wRecvS false) 0) false 1 2 wChain.wt = some (wRecv false) ∧
    (wRecv false).got + 1 < (wRecv false).n ∧ wChain.sent + 1 < wChain.vals.length ∧ frozen wChainS 0 = false ∧
    frozen (zoneMod 0 (fun z => { z with frozenAt := some 0 }) wChainS) 0 = true := by decide +kernel

/-- A q16 value that comes in time to a half of that format. -/
theorem wit_ChainArrives_value :
    (let s := arrMod 0 (fun a => { a with half0 := { tag := some .q16 } }) (wRecvS false)
     (wRecv false).tgt = false ∧ (wRecv false).late = false ∧ 100 ≤ (wRecv false).due ∧ wChain.sent < (wRecv false).n ∧
     (eng s (storeKey s 0)).arr.flights = [] ∧ ((eng s (storeKey s 0)).arr.half (wRecv false).half).tag = some .q16 ∧
     tagQuire .q16 = .q16 ∧ (wRecv false).base + wChain.sent / 64 < tagCap .q16 ∧
     ((eng s (storeKey s 0)).arr.half (wRecv false).half).terms + wChain.terms ≤ 2 ^ 31 - 1) := by decide +kernel

/-- A transfer of two lines, into the Stacks (kind 1) or into engine 0's Carrel (kind 0). -/
def wX (kind n : Nat) (remote : Bool) : Xfer :=
  { id := 7, kind := kind, slot := 0, bg := false, eng := 0, leng := 0, pc := 0, target := 640, lines := [(5, 0), (6, 0)], n := n,
    landed := 0, due := 9000, tag := 0, ten := false, hub := false, wt := 0, remote := remote }

theorem wit_MoverLines :
    ([wX 1 2 false].find? (fun x => decide (x.id = 7))) = some (wX 1 2 false) ∧ (wX 1 2 false).onTime = true ∧
    (wX 1 2 false).lines[(wX 1 2 false).landed]? = some (5, 0) ∧ (wX 1 1 false).landed + 1 = (wX 1 1 false).n ∧
    (wX 1 2 false).landed + 1 ≠ (wX 1 2 false).n ∧ (wX 0 2 false).landed < (wX 0 2 false).n ∧ (wX 0 2 false).held wS = false ∧
    landCycle (eng wS (wX 0 2 false).eng) 100 ≤ (wX 0 2 false).due ∧ frozen wS (wX 0 2 false).leng = false ∧ (eng wS (wX 0 2 false).eng).openH = [] ∧
    (eng wS (wX 0 2 false).eng).arr.reads = [] := by decide +kernel

/-- A hub mover entry toward engine 0. -/
def wMoveE : HubMove :=
  { kind := 0, dest := 0, len := 1, dline := 100, tag := 0, ten := false, src := 0, start := 0, arrive := 9000 }

theorem wit_MoverLines_hub :
    moversRun State.reset = false ∧ moversRun wS = true ∧
    (job (jobMod 0 (fun j => { j with hubMoves := [wMoveE] }) wS) 0).hubMoves[0]? = some wMoveE ∧ absent wS wMoveE.dest = false ∧
    enabled wS (pgMover 0 0) = true ∧ (job wS 0).bound = true ∧ (job wS 0).st = 2 := by decide +kernel

/-- A stationary parity error in vector 0, and a checksum error in column 3 of a pass without comparisons. -/
def wSite (c : PassCause) : FaultSite := { m := 0, p := 0, cause := c, row := 0, col := 0, errs := [{ col := 3, err := 1, exp := 0 }] }
/-- A fault of pass `n` in flight, with the faults of its replay. -/
def wFind (n : Nat) (c : PassCause) (l : List FaultSite) : FaultFinding := { leng := 0, pass := n, site := wSite c, replay := l, third := false }

theorem wit_FaultFindings :
    (eng (wFly false) (storeKey (wFly false) 0)).arr.flights[(0 : Nat)]? = some (wFlight false) ∧
    (eng (wFly false) (storeKey (wFly false) 0)).arr.flights[(1 : Nat)]? = none ∧ suspended (wFly false) 0 = false ∧
    siteFound (wSite .statParity) (wFlight false) false = true ∧ (wFind 0 .statParity []).replay = [] ∧
    siteFound (wSite .checksum) (wFlight false) false = false ∧
    endsReplay (wSite .statParity) (wFlight false) false [wSite .statParity] = some (wSite .statParity) ∧
    siteErr (wSite .checksum) 5 = .zero ∧ siteErr (wSite .checksum) 3 ≠ .zero := by decide +kernel

/-- A row check due, selected or not, of a column 0 whose sums are 1. -/
def wRow (sel : Bool) : RowChk :=
  { seg := .rt, pc := 0, idx := 0, due := 90, selected := sel, workTick := 0, half := false, rows := { h := [FVal.ofInt 1 0], g := [FVal.ofInt 1 0] } }
def wMsg (t : BitVec 64) : RetractMsg :=
  { job := 0, bg := false, all := true, omod := 0, oleng := 0, col := 0, workTick := t, tid := 0, bix := 0, passIdx := 0, target := 0, count := 0 }

/-- The outputs of work tick 9, the one before the present one. -/
def wPast : PastWork :=
  { wt := 9, since := 0, upto := 5, wrote := [(300, 2)], halves := [], sendLog := [], sendOvf := false, retAll := false, retSent := [] }

theorem wit_RowChecksAndRetraction_past :
    (let s := segMod 0 .rt (fun x => { x with past := some wPast }) wS
     ownerOf s 0 .rt = some (wMsg 9).job.toNat ∧ workTick s 0 .rt ≠ (wMsg 9).workTick ∧
     ((segOf s 0 .rt).past.toList ++ (segOf s 0 .rt).older).find? (fun p => decide (p.wt = (wMsg 9).workTick)) = some wPast ∧
     wPast.retAll = false ∧ (300, 2) ∈ wPast.wrote ∧ 300 ∉ (segOf s 0 .rt).wrote.map (·.1) ∧
     300 ∉ (segOf s 0 .bg).wrote.map (·.1) ∧ endedSince (eng s (storeKey s 0)) wPast.upto = []) ∧
    (segOf wS 0 .rt).past.toList ++ (segOf wS 0 .rt).older = [] := by decide +kernel

/-- A work tick older than the one before, still kept. -/
theorem wit_RowChecksAndRetraction_older :
    (let s := segMod 0 .rt (fun x => { x with past := some { wPast with wt := 10, since := 6, upto := 9, wrote := [(301, 7)] }, older := [wPast] }) wS
     ((segOf s 0 .rt).past.toList ++ (segOf s 0 .rt).older).find? (fun p => decide (p.wt = (wMsg 9).workTick)) = some wPast ∧
     ((endedSince (eng s (storeKey s 0)) wPast.upto).all fun q => !(q.wrote.map (·.1)).contains 300) = true) := by decide +kernel

theorem wit_RowChecksAndRetraction :
    (eng (engMod 0 (fun e => { e with rowChks := [wRow true] }) wS) (storeKey wS 0)).rowChks = [wRow true] ∧ (wRow true).selected = true ∧
    rowDisagree (wRow true).rows [{ col := 0, err := 1, exp := 0 }] = [0] ∧ rowDisagree (wRow true).rows [] = [] ∧
    (wRow true).workTick = workTick wS 0 (wRow true).seg ∧ (wRow false).selected = false ∧ ownerOf wS 0 .rt = some (wMsg 0).job.toNat ∧ workTick wS 0 .rt = (wMsg 0).workTick ∧
    (segOf wS 0 .rt).retAll = false ∧ (segOf (segMod 0 .rt (fun x => { x with retAll := true }) wS) 0 .rt).retAll = true ∧
    ((job (jobMod 0 (fun j => { j with frames := [{ frame := 9 }] }) wS) (wMsg 9).job.toNat).frames.any fun x => decide (x.frame = (wMsg 9).workTick)) = true ∧ workTick wS 0 .rt ≠ (wMsg 9).workTick := by decide +kernel

/-- A follower module, and a generator armed on a running port. -/
def wFollow : State := fset pgTick 0x44 4 2 2 { wS with jobs := [] }
def wArmed : State := fset pgTick 0x44 0 1 1 (fset (pgAcc 0) 0x100 0 2 2 { wS with jobs := [] })

theorem wit_Ticks :
    ticking wS = true ∧ ticking ({ wS with pwr := { wS.pwr with refclk := false } } : State) = false ∧
    fget wS pgTick 0x44 0 1 = 0 ∧ fget wArmed pgTick 0x44 0 1 = 1 ∧ fget wArmed pgTick 0x44 6 1 = 0 ∧ tickPortRuns wArmed = true ∧
    wArmed.pwr.sofsPassed ≠ some (rget64 wArmed pgTick 0x48) ∧ wFollow.pwr.tickSeen = false ∧ wS.pwr.tickInAt = none ∧
    ({ wFollow with pwr := { wFollow.pwr with tickInAt := some 7 } } : State).pwr.tickInAt = some 7 ∧
    fget wFollow pgTick 0x6C 16 8 < 4 ∧ 4 ≤ fget (fset pgTick 0x6C 16 8 4 wFollow) pgTick 0x6C 16 8 ∧
    ticking wArmed = true ∧ rget64 wArmed pgTick 0x48 ≤ 5 ∧ anyJob wArmed = false ∧
    ticking wFollow = true ∧ fget wFollow pgTick 0x44 4 2 = 2 ∧ anyJob wFollow = false ∧ fget wS pgTick 0x44 4 2 ≠ 2 ∧
    running wS = true ∧ (job wS 0).occupied = true := by decide +kernel

/-- A write of CURATOR.THERM and one of CHECK.CTL that wait, the second for a late engine. -/
def wShadow : State := engMod 0 (fun e => { e with lagged := true })
  { wS with shadow := [(ridx pgCur 0x44, some 0x00640E5F)], captured := [(ridx (pgEng 0 5) 0x40, some 3)] }

theorem wit_TickClassCommits :
    ticking wShadow = true ∧ tabWf (fun _ => none) wShadow.shadow = true ∧ tabWf (fun _ => none) wShadow.captured = true ∧
    tabGet (fun _ => none) wShadow.shadow (ridx pgCur 0x44) = some 0x00640E5F ∧ storeKey wShadow 0 = 0 ∧ running wShadow = true ∧
    absent wShadow 0 = false ∧ (eng wShadow 0).lagged = true ∧
    tabGet (fun _ => none) wShadow.captured (ridx (pgEng 0 5) 0x40) = some 3 := by decide +kernel

theorem wit_StepKeepsTableForms :
    (match step { wS with pending := [.nop wH] } with | .next _ => true | _ => false) = true ∧ Memory.wf wS ∧
    tabWf regReset wS.regs = true ∧ tabWf (fun _ => none) wS.shadow = true ∧ tabWf (fun _ => none) wS.captured = true := by decide +kernel

/-- An engine whose cycle 0 was to follow the tick; a frame that began five ticks ago. -/
def wLag : State := engMod 0 (fun e => { e with lagged := true }) wS
def wLate : State := jobMod 0 (fun j => { j with frames := [{ frame := 0 }] }) { wS with tick := 5 }

theorem wit_FrameStartsAndEnds :
    (eng wS (storeKey wS 0)).lagged = false ∧ running wLag = true ∧ absent wLag 0 = false ∧ (eng wLag (storeKey wLag 0)).lagged = true ∧
    rtStarts wLag 0 = true ∧ ownerOf wLate 0 .rt = some 0 ∧ running wLate = true ∧ (segOf wLate 0 .rt).st = 1 ∧
    beganAt wLate 0 (rtFrame wLate 0) + 1 ≤ wLate.tick ∧ beganAt wLate 0 (rtFrame wLate 0) + 2 ≤ wLate.tick := by decide +kernel

/-- A module in Standby. -/
def wSleep : State := setPstate 4 { wS with jobs := [] }

/-- A zone held by the envelope guard, by a local condition. -/
def wHeld (c : Nat) : State := zoneMod 1 (fun z => { z with frozenAt := some 0, causes := [c] }) wS

theorem wit_FreezeStops :
    running wS = true ∧ running State.reset = false ∧ fget wS pgCur 0x78 8 1 = 0 ∧ (zone wS 1).causes = [] ∧
    running (fset pgCur 0x78 8 1 1 (wHeld 3)) = true ∧ fget (fset pgCur 0x78 8 1 1 (wHeld 3)) pgCur 0x78 8 1 = 1 ∧ (zone (wHeld 3) 1).causes = [3] ∧
    (zone (wHeld 1) 1).causes = [1] ∧ (zone (wHeld 2) 1).causes = [2] ∧ running (wHeld 1) = true ∧
    (zone (zoneMod 2 (fun z => { z with frozenAt := some 0, causes := [17] }) (wHeld 1)) 2).causes = [16 + 1] ∧
    fget wS (pgZone 1) 0x44 0 12 < 4095 ∧ 0 ≤ fget wS (pgZone 1) 0x44 0 12 ∧ fget wS pgCur 0x44 16 8 ≤ 255 ∧ 0 < fget wS pgCur 0x44 16 8 ∧
    10 * 0 < 9 * fget (fset (pgZone 1) 0x44 0 12 1000 (wHeld 1)) (pgZone 1) 0x44 0 12 ∧
    fget wS (pgZone 1) 0x44 0 12 < fget wS (pgZone 1) 0x44 0 12 + 1 ∧ 7600 < (7601 : BitVec 16).toNat ∧ ¬ 7600 < (7600 : BitVec 16).toNat ∧
    (7000 : BitVec 16).toNat ≤ 7000 ∧ 7000 < (7001 : BitVec 16).toNat ∧ pstate (fset pgCur 0x78 8 1 1 wSleep) = 4 ∧
    running (fset pgCur 0x78 8 1 1 wSleep) = false ∧ fget (fset pgCur 0x78 8 1 1 wSleep) pgCur 0x78 8 1 = 1 ∧
    fget wSleep pgCur 0x78 8 1 = 0 ∧ pstate State.reset ≠ 4 ∧
    9 * fget wS (pgZone 1) 0x44 0 12 ≤ 10 * 4095 ∧ 20 + 3 ≤ fget (wHeld 2) pgCur 0x44 16 8 ∧
    fget (wHeld 2) pgCur 0x44 16 8 < 255 + 3 := by decide +kernel

theorem wit_HardwareFaults :
    wS.pwr.off = false ∧ pstate wS ≠ 1 ∧ pstate wS ≠ 5 ∧ pstate State.reset = 1 ∧ fget wS (pgDie 3 0) 0x0C 2 1 = 0 := by decide +kernel

/-- Job slots in the states the requests name, at a pass boundary and not, and a segment that stops there. -/
theorem wit_JobRequests :
    atBoundary wS (job wS 0) = true ∧ atBoundary (wFly true) (job (wFly true) 0) = false ∧
    (segOf (segMod 0 .rt (fun x => { x with stopAt := some 1 }) wS) wH.leng wH.seg).stopAt = some 1 ∧ declared wS wH = 1 ∧
    (match exec (.nop wH) (segMod 0 .rt (fun x => { x with stopAt := some 1 }) wS) with | .next _ => true | _ => false) = true ∧
    (job wS 0).st = 2 ∧ (job wS 0).loadWait = false ∧ (job (jobMod 0 (fun j => { j with st := 4 }) wS) 0).st = 4 ∧ enabled wS pgMod = true ∧
    (job wS 2).st = 0 := by decide +kernel

theorem wit_JobLoads_busy_and_empty :
    running wS = true ∧ enabled wS pgMod = true ∧ (job wS 0).st ≠ 0 ∧ (job wS 2).st = 0 ∧
    (imageAt wS (rget64 wS pgMod (0x60 + 16 * 2)).toNat).isNone = true := by decide +kernel

/-- A paused job whose image fits at SAVEADDR. -/
theorem wit_SaveAndEngineReset :
    (job (jobMod 0 (fun j => { j with st := 4 }) wS) 0).saved = false ∧ (rget64 wS pgMod 0x68).toNat % 64 = 0 ∧
    rangeOk (rget64 wS pgMod 0x68).toNat (saveImage (jobMod 0 (fun j => { j with st := 4, engMask := 0 }) wS) 0).length = true ∧
    (eng wS (resetKey wS 0)).cutReset = false ∧ running wS = true ∧
    ((job wS 0).engs.any fun l => decide (storeKey wS l = resetKey wS 0)) = true ∧ atBoundary wS (job wS 0) = true ∧
    atBoundary (wFly true) (job (wFly true) 0) = false := by decide +kernel

/-- A module that wakes. -/
def wWake : State := { wSleep with pwr := { wSleep.pwr with waking := true, stage := 10 } }

theorem wit_StandbyAndWake :
    running wS = true ∧ wS.pwr.refclk = true ∧ running wWake = false ∧ wWake.pwr.waking = true ∧
    running ({ wS with pwr := { wS.pwr with entry := true } } : State) = true ∧ wS.pwr.entry = false ∧ pstate wSleep = 4 ∧
    wSleep.pwr.waking = false ∧ wSleep.nd.coolOn.getD 1 false = false ∧ wSleep.pwr.refclk = true ∧ wWake.pwr.stage < 60 ∧
    wWake.refTick ≤ wWake.pwr.wokeAt ∧ 0 < period wSleep ∧ wWake.pwr.sources.head? ≠ some 5 ∧
    ({ wWake with pwr := { wWake.pwr with sources := [5] } } : State).pwr.sources.head? = some 5 := by decide +kernel

theorem wit_Resets :
    wS.pwr.off = false ∧ wS.pwr.heldAtA = false ∧ ¬ (pstate wS = 5 ∧ fget wS pgMod 0x40 4 4 = 4) ∧
    ({ wS with pwr := { wS.pwr with stacksUp := true } } : State).pwr.stacksUp = true := by decide +kernel

/-- A module that is Off, with its input in range or not. -/
def wOff (ok : Bool) : State := { wS with pwr := { wS.pwr with off := true, inputOk := ok } }

theorem wit_BootAndOff : (wOff true).pwr.off = true ∧ (wOff true).pwr.inputOk = true ∧ (wOff false).pwr.inputOk = false ∧
    (wOff false).pwr.pwrEn = true ∧ ({ State.reset with pwr := { State.reset.pwr with heldAtA := true } } : State).pwr.heldAtA = true ∧
    pstate State.reset = 1 := by decide +kernel

/-- The bytes of a BG image of one HALT on logical engine 1 (Tables 7-12 to 7-14), with a digest. -/
def wImgBytes (dig : Nat) : List Byte :=
  leBytes 4 0x494E5244 ++ leBytes 2 1 ++ leBytes 2 1 ++ leBytes 8 336 ++ leBytes 8 2 ++ leBytes 2 1 ++ leBytes 2 0xFF ++ leBytes 4 0 ++
    leBytes 16 0 ++ leBytes 2 0 ++ leBytes 2 1 ++ leBytes 4 256 ++ leBytes 8 0 ++ leBytes 64 dig ++ leBytes 128 0 ++
    leBytes 4 0x00010001 ++ leBytes 4 1 ++ leBytes 8 320 ++ leBytes 8 16 ++ leBytes 8 0 ++ leBytes 32 0 ++ leBytes 16 (0x34 * 2 ^ 122)

/-- Bytes placed in memory from an offset on; zeros are not listed. -/
def wPlace (base : Nat) (bs : List Byte) : Tab Byte :=
  bs.zipIdx.filterMap fun p => if p.1 = 0 then none else some (base + p.2, p.1)

/-- SHA-512 of the image with a zero digest. -/
def wDig : Nat :=
  5177299733926452072961229439108180691897972806344311016993342818986629532872603651097176197640521914074419600870844722812789998438383380072451007183185877

/-- The save image of a paused BG job of that image, its module set 0 and nothing else saved, with the SHA-512 of its bytes. -/
def wSaved : List Byte :=
  leBytes 4 0x534E5244 ++ leBytes 2 1 ++ leBytes 1 1 ++ leBytes 1 2 ++ leBytes 8 384 ++ leBytes 8 2 ++ leBytes 8 0 ++ leBytes 4 1 ++ leBytes 4 256 ++
    [221, 222, 164, 2, 43, 108, 111, 231] ++ leBytes 16 0 ++ leBytes 64 wDig ++
    leBytes 64 11183898556910650777103990796595468888700526438055045873910232030472681853513522500190037366979808261936917539471878595605752126113420519422317994014074989 ++
    leBytes 64 0 ++ leBytes 2 0x0101 ++ leBytes 1 1 ++ leBytes 5 0 ++ leBytes 8 320 ++ leBytes 8 3 ++ leBytes 40 0 ++ [1, 0, 0] ++ leBytes 61 0

/-- `wS` with the image at offset 0 and the save image at offset 4096, which slot 2's SAVEADDR names. -/
def wLoad : State := rset64 pgMod 0x88 4096 { wS with dram := wPlace 0 (wImgBytes wDig) ++ wPlace 4096 wSaved }

theorem wit_JobLoads_image :
    running wLoad = true ∧ enabled wLoad pgMod = true ∧ (job wLoad 2).st = 0 ∧
    ((imageAt wLoad (rget64 wLoad pgMod (0x60 + 16 * 2)).toNat).any fun m =>
      !testsOn wLoad m.engMask && (loadCheck (jobMod 2 (fun _ => {}) wLoad) 2 m).isNone) = true := by decide +kernel

/-- The same image with another digest fails check 0x02. -/
theorem wit_JobLoads_refused :
    ((imageAt { wLoad with dram := wPlace 0 (wImgBytes 0) } (rget64 wLoad pgMod (0x60 + 16 * 2)).toNat).any fun m =>
      decide (loadCheck (jobMod 2 (fun _ => {}) wLoad) 2 m = some (2, 0, 0))) = true := by decide +kernel

theorem wit_JobLoads_resume :
    savedAt wLoad (rget64 wLoad pgMod (0x68 + 16 * 2)).toNat = wSaved ∧ sameMods wLoad wSaved (leBytes 64 wDig) 2 = true ∧
    resumeCheck wLoad wSaved (leBytes 64 wDig) true = 0 ∧
    resumeCheck wLoad (savedAt wLoad 0) (leBytes 64 wDig) (sameMods wLoad (savedAt wLoad 0) (leBytes 64 wDig) 2) ≠ 0 := by decide +kernel

/-- A module in Ready without jobs. -/
def wIdle : State := { wS with jobs := [] }

/-- The Night Desk enabled; a coolant condition at its 15th sample and at none. -/
theorem wit_NightDeskWatch :
    ndRuns (fset pgNd 0x40 0 1 1 wS) = true ∧ ndRuns wS = false ∧
    (List.replicate 256 ((0 : BitVec 16), (0 : BitVec 16))).length = 256 ∧ wS.pwr.off = false ∧ wS.nd.cool.length = 3 ∧
    wS.nd.coolOn.length = 3 ∧ wS.nd.cool.getD 0 0 < 15 ∧ [15, 0, 0].getD 0 0 = 15 := by decide +kernel

/-- Port 0 set up so that the start checks pass: L = 8, M = 2, N' = 16, S = 2, F = 1, 16 Gbit/s, HOP 4,096, one row of 32 columns. -/
def wAcc : State :=
  rset (pgAcc 0) 0x44 (BitVec.ofNat 32 (7 + 2 ^ 5 + 14 * 2 ^ 8 + 2 * 2 ^ 13 + 2 ^ 17))
    (rset (pgAcc 0) 0x48 (BitVec.ofNat 32 (1600 * 2 ^ 16)) (rset (pgAcc 0) 0x98 4096 (rset (pgAcc 0) 0x9C 256 wIdle)))
/-- Port 0 with LSTAT.STATE `st`. -/
def wPort (st : Nat) : State := fset (pgAcc 0) 0x100 0 2 st wAcc

theorem wit_AccessionStart :
    running wAcc = true ∧ enabled wAcc (pgAcc 0) = true ∧ accState wAcc 0 = 0 ∧ accCheck (fset (pgAcc 0) 0x40 0 1 1 wAcc) 0 = 0 ∧
    accCheck (fset (pgAcc 0) 0x40 0 1 1 wIdle) 0 ≠ 0 ∧ accState (wPort 1) 0 = 1 ∧ (moversRun (wPort 1) || ndWatches (wPort 1) 0) = true ∧ edgeUsable (wPort 1) 0 = true ∧
    fget (fset (pgAcc 0) 0x40 2 1 1 wAcc) (pgAcc 0) 0x40 2 1 = 1 ∧
    enabled (fset (pgAcc 0) 0x40 2 1 1 wAcc) (pgAcc 0) = true := by decide +kernel

theorem wit_AccessionErrors :
    accState (wPort 2) 0 = 2 ∧ fget (wPort 2) (pgAcc 0) 0x40 2 1 = 0 ∧ accState wAcc 0 ≠ 2 ∧
    (let t := fset (pgAcc 0) 0x40 1 1 1 (wPort 3)
     accState t 0 = 3 ∧ moversRun t = true ∧ fget t (pgAcc 0) 0x40 1 1 = 1 ∧ edgeUsable t 0 = true) := by decide +kernel

/-- The RT job of stream 0. -/
def wStream (st : Nat) : State := { wPort st with jobs := [(0, { st := 2, bound := true, engMask := 1, stream := 0 })] }

theorem wit_WindowsAndTiles :
    accState (wStream 2) 0 = 2 ∧ rget64 (wStream 2) (pgAcc 0) 0x78 ≤ 5 ∧
    (3 : BitVec 64) < rget64 (rset64 (pgAcc 0) 0x78 4 (wStream 2)) (pgAcc 0) 0x78 ∧ accState (wStream 3) 0 = 3 ∧ (acc (wStream 2) 0).slept = false ∧
    (acc (accMod 0 (fun a => { a with slept := true }) (wStream 2)) 0).slept = true ∧ streamJob (wStream 2) 0 = some 0 ∧ accState (wStream 1) 0 ≠ 2 := by
  decide +kernel

/-- Port 0 in RUN with its raw ring of 64 lines running. -/
def wRing (stop : Option (BitVec 64)) : State :=
  accMod 0 (fun a => { a with rawOn := true, stopAt := stop })
    (fset (pgAcc 0) 0xC0 0 1 1 (fset (pgAcc 0) 0xC0 2 1 1 (rset64 (pgAcc 0) 0xA8 64 (wPort 2))))

/-- The same with the decimated ring of 64 lines running too. -/
def wRing2 : State :=
  accMod 0 (fun a => { a with decOn := true }) (fset (pgAcc 0) 0xC0 1 1 1 (rset64 (pgAcc 0) 0xB0 64 (rset64 (pgAcc 0) 0xB8 64 (wRing none))))

/-- A write of 16 instants, or of 16 decimated samples, into line 0 of a ring that has none yet. -/
theorem wit_CaptureRings :
    moversRun wRing2 = true ∧ (acc wRing2 0).rawOn = true ∧ (acc wRing2 0).decOn = true ∧ accState wRing2 0 = 2 ∧ (acc wRing2 0).slept = false ∧
    (acc wRing2 0).stopAt = none ∧
    ([false, true].all fun d => decide (ringSpan wRing2 0 d 0 ((accRing wRing2 0 d).2 / 64 / ringLines wRing2 0 d) 16 = some (0, 1)) &&
      decide (0 < (accRing wRing2 0 d).2 / 64 / ringLines wRing2 0 d)) = true ∧
    (ringData wRing2 0 false 0 (List.replicate 32 5) 16).length = (1 - 0) * ringUnit wRing2 0 false ∧
    (ringPack (accNp wRing2 0) (ringData wRing2 0 false 0 (List.replicate 32 5) 16)).length = 1 := by decide +kernel

theorem wit_CaptureRings_control :
    fget (wRing none) (pgAcc 0) 0xC0 2 1 = 1 ∧ (acc (wRing none) 0).stopAt = none ∧ (acc (wRing (some 40)) 0).stopAt = some 40 ∧
    (let u := ringGroup (wRing none) 0 false (rget64 (wRing none) (pgAcc 0) 0xD8)
     5 < ringCount (wRing none) 0 false (u + 1) ∧ ringCount (wRing none) 0 false (u + 1) ≤ 40) ∧ ringEn (wRing none) 0 false = true ∧
    enabled (wRing none) (pgAcc 0) = true ∧ accState (wRing none) 0 = 2 ∧ (acc (accMod 0 (fun a => { a with rawOn := false }) (wRing none)) 0).rawOn = false := by decide +kernel

theorem wit_StacksUpkeep :
    running wS = true ∧ populated 6400 = true ∧ 6400 / 2 ^ 38 = 0 ∧ groupOf (lineOf 6400) = 0 ∧ populated (6400 / 64 * 64) = true ∧
    (stkRead wS 6400).2 &&& mkPoison = 0 ∧ wS.pwr.off = false ∧ fget wS (pgMc 0 3) 0x40 0 2 ≠ 3 ∧ fget wS (pgMc 0 25) 0x40 0 2 = 1 ∧
    fget (fset (pgMc 0 25) 0x40 0 2 0 wS) (pgMc 0 25) 0x40 0 2 ≠ 1 ∧ fget (fset (pgMc 0 3) 0x40 0 2 3 wS) (pgMc 0 3) 0x40 0 2 = 3 ∧
    (hub wS 0).copying = none ∧ enabled wS (pgMc 0 3) = true ∧
    (hub (hubMod 0 (fun h => { h with copying := some 3 }) wS) 0).copying.isSome = true := by decide +kernel

/-- EVENT_MASK of the MOD page, a page that sleeps in Standby, and an idle page that is not a SEQ page. -/
theorem wit_RegisterCommands :
    (BitVec.ofNat 24 (4096 * pgMod + 0x14)).toNat = 4096 * pgMod + 0x14 ∧ pageOf pgMod ≠ none ∧ pageAsleep wS pgMod = false ∧
    pageAsleep wSleep (pgEng 0 0) = true ∧ (BitVec.ofNat 24 (4096 * pgEng 0 0 + 0x14)).toNat = 4096 * pgEng 0 0 + 0x14 ∧
    pageAsleep wS pgCur = false ∧ capHub wS = none ∧ (pageOf (pgEng 7 1)).any (fun x => decide (x.1 ≠ .seq)) = true ∧
    pageAsleep wS (pgEng 7 1) = false ∧ resetIdle wS (pgEng 7 1) = true ∧ (fieldsAt (pgEng 7 1) 0x40).length ≠ 0 := by decide +kernel

/-- Bytes of a sparse table. -/
def wBytes (n : Nat) (t : Tab Byte) : List Byte := (List.range n).map fun i => tabGet (fun _ => 0) t i

/-- A test folio of one unit whose expected output is one line of zeros. -/
def wFolio : Folio :=
  { bytes := wBytes 224 [(12, 1), (40, 64), (68, 128), (72, 96), (144, 24), (148, 1)], pushed := true }
/-- `wIdle` with the folio, and a unit of it that runs on engine 0 of die 0. -/
def wTest : State :=
  { wIdle with sec := { wIdle.sec with folios := [wFolio], runs := [{ die := 0, peng := 0, folio := 0, unit := 0 }] } }

theorem wit_TestsAndStores :
    running wTest = true ∧ enabled wTest pgMod = true ∧ anyJob wTest = false ∧ 0 < 80 ∧ dieUp wTest (0 / 5) = true ∧ allUnits wTest ≠ [] ∧
    anyJob wS = true ∧ rget wS pgMod 0x1C = 0 ∧ (Instr.testUnitComplete 0 0 [0]).wf = true ∧
    wTest.sec.runs.find? (fun r => decide (r.die = 0) && decide (r.peng = 0)) = some { die := 0, peng := 0, folio := 0, unit := 0 } ∧
    ((unitAt wTest 0 0).any fun u => decide (u.expect.map (fun x => x.2.2) = [(0 : Line)]) && decide (u.expect.map (fun x => x.2.2) ≠ [(1 : Line)])) = true ∧
    ({ wS.sec with writing := some (1, [1]) } : SecSt).writing = some (1, [1]) ∧ wS.sec.doorbells = [] ∧
    ({ wS.sec with trainedFull := 1 } : SecSt).trainedFull ≠ 0 ∧ wS.sec.writing = none ∧ pageAsleep wS pgSec = false ∧ enabled wS pgSec = true ∧ attBusy wS = false ∧
    ({ wS.sec with attBytes := some [1] } : SecSt).attBytes = some [1] ∧ stacksOpen wS = true ∧
    rangeOk (rget64 wS pgSec 0x88).toNat 1 = true := by decide +kernel

/-- Port F0 in a link state, DIMS 1 so that its partner is module 1. -/
def wAbf (st : Nat) : State := fset (pgAbf 0) 0x100 5 3 1 (fset (pgAbf 0) 0x44 0 3 st wIdle)
/-- The lanes of an intact link block whose control unit has sequence number 0 and no other content. -/
def wLanes : List (List Byte) :=
  List.replicate 7 (List.replicate 224 0) ++
    [wBytes 224 [(4, 254), (5, 67), (6, 47), (7, 66), (208, 13), (209, 153), (210, 105), (211, 28), (212, 118), (213, 7), (214, 209),
      (215, 137), (216, 128), (217, 218), (218, 253), (219, 223), (220, 96), (221, 82), (222, 78), (223, 28)]]

theorem wit_AbfoldPorts :
    wIdle.pwr.off = false ∧ enabled wIdle (pgAbf 0) = true ∧ fget wIdle (pgAbf 0) 0x40 0 1 = 0 ∧
    fget (fset (pgAbf 0) 0x40 0 1 1 wIdle) (pgAbf 0) 0x40 0 1 = 1 ∧ fget (wAbf 1) (pgAbf 0) 0x44 0 3 = 1 ∧
    trainCode (wAbf 1) 0 8 true 1 0 (fget (wAbf 1) (pgAbf 0) 0x108 0 20) 200 = 0 ∧ trainCode (wAbf 1) 0 7 true 1 0 0 200 ≠ 0 ∧
    portUp (wAbf 2) 0 = true ∧ blockUnits (laneDecode []) = none ∧ (abf (wAbf 2) 0).nak = false ∧ fget (wAbf 2) (pgAbf 0) 0x44 3 4 = 15 ∧
    (abf (wAbf 2) 0).spareBad = false ∧ (abf (wAbf 2) 0).swLane = none ∧
    (abf (abfMod 0 (fun x => { x with swLane := some (3, 70) }) (wAbf 2)) 0).swLane = some (3, 70) ∧ fget (fset (pgAbf 0) 0x44 3 4 2 (wAbf 2)) (pgAbf 0) 0x44 3 4 ≠ 15 := by decide +kernel

set_option maxRecDepth 100000 in
/-- An intact link block, next in sequence on a port that has accepted none. -/
theorem wit_AbfoldPorts_block :
    ((blockUnits (laneDecode wLanes)).any fun us =>
      decide (BitVec.ofNat 32 (lineNat (us.headD 0) 0 4) = (abf (wAbf 2) 0).rxSeq + 1)) = true := by decide +kernel

/-- A packet of one line toward a shelfmark. -/
def wPkt (op : BitVec 4) (target ret : BitVec 48) : Packet :=
  { op := op, job := 0, bg := false, last := true, rtry := false, smod := 1, sleng := 0, ch := 2, qfmt := 11, nlm1 := 0, pidx := 0,
    target := target, workTick := 0, deadline := 0, poison := 0, marks := [0], retShelf := ret, terms := 4, special := [], lines := [5] }
/-- A remote transfer of two lines into engine 0's Carrel, and a CRECV of the module's neighbour. -/
def wFab : State := { engMod 0 (fun e => { e with recvs := [wRecv true] }) (wAbf 2) with xfers := [wX 0 2 true] }

theorem wit_FabricPackets :
    shelfMod (wPkt 1 0 0).target = modNum wFab ∧ placeOf 0 = .stacks 0 ∧ shelfMod (wPkt 1 (BitVec.ofNat 48 (2 ^ 43)) 0).target ≠ modNum wFab ∧
    (egress wFab (shelfMod (BitVec.ofNat 48 (2 ^ 43)))).isSome = true ∧ moveSource wFab 0 1 (placeOf 0) ≠ [] ∧
    placeOf (2 ^ 42 + 640 * 64) = .carrel 0 640 ∧ absent wFab 0 = false ∧
    (wFab.xfers.find? (fun x => x.remote && decide (x.slot = 0) && decide (x.eng = storeKey wFab 0) &&
      decide (x.target + x.landed + x.buf.length = 640))) = some (wX 0 2 true) ∧
    (wX 0 2 true).xp = none ∧ (wX 0 2 true).landed + 1 < (wX 0 2 true).n ∧ (wX 0 2 true).onTime = true ∧ (eng wFab 0).openH = [] ∧
    landCycle (eng wFab (wX 0 2 true).eng) 5 ≤ (wX 0 2 true).due ∧ (eng wFab (wX 0 2 true).eng).arr.reads = [] ∧
    placeOf (2 ^ 42 + 0x40 * 2 ^ 32) = .bank 0 0 ∧ recvOf wFab 0 true 1 2 0 = some (wRecv true) ∧ recvOf wFab 0 true 1 3 0 = none ∧
    arrivesLate (wPkt 1 0 0) 0 false wFab = false ∧ arrivesLate (wPkt 1 0 0) 5 false wFab = true ∧
    arrivesLate (wPkt 3 (BitVec.ofNat 48 (2 ^ 42 + 640 * 64)) 0) 0 false wFab = false ∧
    arrivesLate (wPkt 3 (BitVec.ofNat 48 (2 ^ 42 + 640 * 64)) 0) 0 true wFab = true ∧
    frozen wFab 0 = false ∧
    recvIndex (packetFmt (wPkt 4 0 0)) (wRecv true) (.bank 0 0) =
      some ((wPkt 4 0 0).pidx.toNat * (if packetFmt (wPkt 4 0 0) = .q32 then 16 else 24) * (packetFmt (wPkt 4 0 0)).perLine) ∧
    (wRecv true).got + (packetVals (wPkt 4 0 0)).length < (wRecv true).n ∧ (wPkt 4 0 0).last = true ∧ packetVals (wPkt 4 0 0) ≠ [] ∧
    packetHeld (wPkt 4 (BitVec.ofNat 48 (2 ^ 42 + 0x40 * 2 ^ 32)) 0) (zoneMod 0 (fun z => { z with frozenAt := some 0 }) wFab) = true := by decide +kernel

/-- Vilri UP with 1,000 credits on every channel. -/
def wVil : State :=
  foldS [0, 1, 2, 3] (fun c => fset pgVilri (0x48 + 4 * c) 0 16 1000) (fset pgVilri 0x44 0 2 2 wIdle)

theorem wit_VilriRegisters :
    wVil.pwr.off = false ∧ vilriUp wVil = true ∧ wVil.vil.cplQ = [] ∧ regRangeOk (4096 * pgMod + 0x40) 1 = true ∧
    1 ≤ credit wVil 0 ∧ pageAsleep wVil (4096 * pgMod / 4096) = false ∧
    pageAsleep (setPstate 4 wVil) ((4096 * pgEng 0 0 + 0x40) / 4096) = true ∧ regRangeOk (4096 * pgEng 0 0 + 0x40) 1 = true ∧
    vilriUp (setPstate 4 wVil) = true ∧ recovery wVil = false ∧ blkRangeOk 4096 64 = true ∧ stacksOpen wVil = true ∧
    (stkRead wVil 4096).2 &&& mkPoison = 0 := by decide +kernel

theorem wit_Doorbells :
    wVil.pwr.off = false ∧ pstate wVil ≠ 4 ∧ ({ wVil with sec := { wVil.sec with writing := some (1, []) } } : State).sec.writing.isSome = true ∧
    enabled wVil pgSec = true ∧ enabled (fset pgSec 0x08 0 1 0 wVil) pgSec = false ∧ enabled wSleep pgSec = true ∧ wVil.sec.writing = none ∧ wVil.sec.doorbells = [] ∧ recovery wVil = false ∧ pstate wSleep = 4 ∧ wSleep.pwr.waking = false ∧
    vilriUp wVil = true ∧ wVil.vil.cplQ = [] ∧ 1 ≤ credit wVil 0 := by decide +kernel

/-- A folio of zeros fails check 0x01. -/
theorem wit_Doorbells_folio : ((folioAt wVil 0).any fun bs => decide (folioCheck wVil.sec bs = 1)) = true := by decide +kernel

/-- A verdict record of one item, an event and an Errata record that wait. -/
def wRecV : VRec :=
  { slot := 0, frame := 4, tickNo := 6, lines := [{ line := 0, mark := 0 }], marks := 0, tevt := 0, resumed := false, trig := false,
    colchk := 0, rowchk := 0, mismatch := 0, ratio := 3, cold := false, active := 64, zsteps := 0, stream := 0, digest := [], seedId := 0,
    gencompat := false }
def wEvt : EventMsg := { seq := 0, code := 1, page := 0, bits := 1, tick := 5, detail := [] }
def wErr : ErrRec :=
  { tick := 5, seq := 0, ty := 0x0303, sev := 2, level := 4, data := false, zq := 0, die := 0, peng := 0, block := 0, leng := 0, job := 0,
    wt := 0, detail := [] }
def wMsgs : State := { fset pgErr 0x4C 0 32 1 wVil with evq := [wEvt], ready := [wRecV], errs := [wErr] }

theorem wit_VilriMessages :
    wMsgs.evq = [wEvt] ∧ vilriUp wMsgs = true ∧ 1 ≤ credit wMsgs 2 ∧ wMsgs.ready = [wRecV] ∧ 1 ≤ credit wMsgs 1 ∧
    vilriUp wIdle = false ∧ fget wMsgs pgVilri 0x80 0 32 < fget wMsgs pgErr 0x4C 0 32 ∧ 1 ≤ credit wMsgs 3 ∧
    (errRecord wMsgs (fget wMsgs pgVilri 0x80 0 32)).isSome = true := by decide +kernel

/-- The lanes of an intact Vilri block without messages, its sequence number 0 and excluded lane 4. -/
def wVilLanes : List (List Byte) :=
  [wBytes 272 [(261, 34), (262, 34), (263, 246), (264, 227), (265, 33), (266, 226), (267, 226), (268, 75), (269, 62), (270, 104), (271, 41)],
   wBytes 272 [(258, 4), (261, 34), (262, 34), (263, 86), (264, 142), (265, 15), (266, 254), (267, 110), (268, 141), (269, 83), (270, 219),
     (271, 70)],
   wBytes 272 [(261, 34), (262, 34), (263, 177), (264, 227), (265, 235), (266, 226), (267, 97), (268, 75), (269, 32), (270, 104), (271, 57)],
   wBytes 272 [(261, 34), (262, 34), (263, 202), (264, 227), (265, 104), (266, 226), (267, 94), (268, 75), (269, 76), (270, 104), (271, 146)]]

theorem wit_VilriLink :
    wVil.pwr.off = false ∧ enabled wVil pgVilri = true ∧ vilriUp wVil = true ∧ vilFlits ((List.range 4).map fun i => vilLane (([] : List (List Byte)).getD i [])) = none ∧
    wVil.vil.owed = [] ∧ wVil.vil.waiting = [] ∧ wVil.vil.swLane = none ∧ wVil.vil.exclAt = none ∧
    (vilMod (fun v => { v with swLane := some (2, 70) }) wVil).vil.swLane = some (2, 70) ∧ fget (fset pgVilri 0x44 2 3 1 wVil) pgVilri 0x44 2 3 ≠ 4 ∧ fget wVil pgVilri 0x44 2 3 = 4 ∧ fget wVil pgVilri 0x44 5 3 = 4 ∧ wVil.vil.badTx = false ∧ wVil.vil.badRx = false ∧
    fget (fset pgVilri 0x44 5 3 1 wVil) pgVilri 0x44 5 3 ≠ 4 ∧ fget wIdle pgVilri 0x44 0 2 = 0 ∧
    fget (fset pgVilri 0x44 0 2 1 wIdle) pgVilri 0x44 0 2 = 1 ∧ fget (fset pgVilri 0x44 0 2 3 wIdle) pgVilri 0x44 0 2 = 3 := by
  decide +kernel

set_option maxRecDepth 100000 in
/-- An intact Vilri block, next in sequence on a link that has accepted none. -/
theorem wit_VilriLink_block :
    ((vilFlits ((List.range 4).map fun i => vilLane (wVilLanes.getD i []))).any fun fs =>
      let c := (fs.getD 16 0).toNat
      decide (bitsOf c 64 3 = 0) && decide (bitsOf c 72 3 = 4) && ((List.range 16).all fun i => decide (2 ≤ bitsOf c (160 + 4 * i) 4)) &&
        decide (BitVec.ofNat 32 (bitsOf c 0 32) = wVil.vil.rxSeq + 1)) = true := by decide +kernel

theorem wit_SidebandAndTap :
    sbOn wIdle = true ∧ (BitVec.ofNat 24 (4096 * pgMod + 0x1C)).toNat = 4096 * pgMod + 0x1C ∧ pageAsleep wIdle pgMod = false ∧
    sbWritable (4096 * pgMod + 0xA0) = false ∧ wIdle.pwr.inputOk = true ∧ pstate (setPstate 5 wIdle) = 5 ∧ wIdle.pwr.off = false ∧
    pstate wIdle ≠ 5 := by decide +kernel

/-! ### Worked examples of the spec -/

/-- Example 2-1: the p16 word 0x5A3C is 10.234375, that is 20,960 x 2^-11, and 0xA5C4 its negation. -/
theorem test_example_2_1 :
    (match decodePosit 16 0x5A3C, decodePosit 16 0xA5C4 with
      | .num false m e, .num true m' e' => decide (m * 2 ^ (e + 20).toNat = 20960 * 2 ^ 9) && decide (m = m') && decide (e = e')
      | _, _ => false) = true := by decide +kernel

/-- Table 2-3: rounding into p8. -/
theorem test_table_2_3 :
    [(17, -4), (19, -4), (1, 21), (1, 22), (3, 21)].map (fun (x : Nat × Int) => (roundPosit 8 (.num false x.1 x.2)).1) =
      [0x40, 0x42, 0x7E, 0x7E, 0x7F] := by decide +kernel

/-- Example 2-4: bf16 0x4AFF is p16 0x7EC0, which is +infinity in fp16 and 0x4B000000 in fp32. -/
theorem test_example_2_4 :
    (roundTo .p16 (readVal .bf16 0x4AFF).1).1 = 0x7EC0 ∧ (roundTo .fp16 (readVal .p16 0x7EC0).1).1 = 0x7C00 ∧
    (roundTo .fp32 (readVal .p16 0x7EC0).1).1 = 0x4B000000 := by decide +kernel

/-- Example 5-1: ρ0 = 0x3E99999A with X = 3 gives M = 5,033,165 and S = 21. -/
theorem test_example_5_1 : pairOf 0x3E99999A 3 = some { m := BitVec.ofNat 32 5033165, s := 21 } := by decide +kernel

/-- 1 + 1 = 2 in p32: every lane of register 2 holds 0x48000000 after the step, and the program counter moves on. -/
theorem test_vop_add :
    (match exec (.vop wH wVop) wS with
      | .next t => decide ((laneGet t 0 2 63).bits = 0x48000000) && decide ((laneGet t 0 2 63).tag = some .p32) &&
          decide ((segOf t 0 .rt).pc = 1) && decide (laneGet t 0 0 63 = laneGet wS 0 0 63)
      | _ => false) = true := by decide +kernel

/-- A line written by BLK_WR stands in the Stacks, and the next line is as before. -/
theorem test_blk_wr :
    (match exec (.blkWr 7 4096 [BitVec.ofNat 512 0x1234]) wVil with
      | .next t => decide ((stkRead t 4096).1 = BitVec.ofNat 512 0x1234) && decide ((stkRead t 4160).1 = 0) && decide (t.sent.length = 1)
      | _ => false) = true := by decide +kernel
end Sys2Proof.Tests
end

