-- ==== Sys2Proof/Proofs/Registers.lean ====
section
/-! PROOF. What a register field reads after a write of it, and which pages the shared operations leave as they were. -/

namespace Sys2Proof.Machine

/-! ### Fields -/

/-- The bits of a word as wide as a register are those of the number it was cut from. -/
theorem bitsOf_mod_word (n lo w : Nat) (h : lo + w ≤ 32) : bitsOf (n % 2 ^ 32) lo w = bitsOf n lo w := by
  have hsplit : 2 ^ 32 = 2 ^ lo * 2 ^ (32 - lo) := by rw [← pow_add]; congr 1; omega
  unfold bitsOf
  rw [hsplit, Nat.mod_mul_right_div_self, Nat.mod_mod_of_dvd _ (pow_dvd_pow 2 (by omega))]

theorem bitsOf_putBits (v lo w x : Nat) (hx : x < 2 ^ w) : bitsOf (putBits v lo w x) lo w = x := by
  have hlo : v = v / 2 ^ lo * 2 ^ lo + v % 2 ^ lo := (Nat.div_add_mod' _ _).symm
  have hw : v / 2 ^ lo = v / 2 ^ lo / 2 ^ w * 2 ^ w + v / 2 ^ lo % 2 ^ w := (Nat.div_add_mod' _ _).symm
  have hput : putBits v lo w x = v % 2 ^ lo + (v / 2 ^ lo / 2 ^ w * 2 ^ w + x) * 2 ^ lo := by
    unfold putBits bitsOf
    rw [Nat.mod_eq_of_lt hx, add_mul]
    have := congrArg (· * 2 ^ lo) hw
    simp only [add_mul] at this
    omega
  unfold bitsOf
  rw [hput, Nat.add_mul_div_right _ _ (by positivity), Nat.div_eq_of_lt (Nat.mod_lt _ (by positivity)), zero_add,
    Nat.mul_add_mod_self_right, Nat.mod_eq_of_lt hx]

/-- A field reads what was put in it. -/
theorem fget_fset_self (p off lo w x : Nat) (s : State) (h : lo + w ≤ 32) (hx : x < 2 ^ w) :
    fget (fset p off lo w x s) p off lo w = x := by
  rw [fget, fset, rget_rset_self, BitVec.toNat_ofNat, bitsOf_mod_word _ _ _ h, bitsOf_putBits _ _ _ _ hx]

/-! ### Pages left alone -/

/-- Registers of different pages are different. -/
theorem ridx_ne {p q off off' : Nat} (hpq : p ≠ q) (ho : off < 4096) (ho' : off' < 4096) : ridx p off ≠ ridx q off' := by
  unfold ridx
  omega

theorem pageKept_refl (q : Nat) (s : State) : pageKept q s s := fun _ _ => rfl

theorem pageKept.trans {q : Nat} {s t u : State} (h : pageKept q s t) (k : pageKept q t u) : pageKept q s u :=
  fun off ho => (k off ho).trans (h off ho)

/-- An update that leaves the registers alone leaves every page alone. -/
theorem pageKept_of_regs {q : Nat} {s t : State} (h : t.regs = s.regs) : pageKept q s t := fun off _ => by simp [rget, h]

theorem zoneMod_pageKept (q z : Nat) (f : Zone → Zone) (s : State) : pageKept q s (zoneMod z f s) := pageKept_of_regs rfl

theorem jobMod_pageKept (q j : Nat) (f : Job → Job) (s : State) : pageKept q s (jobMod j f s) := pageKept_of_regs rfl

theorem evq_pageKept (q : Nat) (s : State) (v : List EventMsg) : pageKept q s { s with evq := v } := pageKept_of_regs rfl

theorem vil_pageKept (q : Nat) (s : State) (v : VilriSt) : pageKept q s { s with vil := v } := pageKept_of_regs rfl

theorem pwr_pageKept (q : Nat) (s : State) (v : PwrSt) : pageKept q s { s with pwr := v } := pageKept_of_regs rfl

theorem errs_pageKept (q : Nat) (s : State) (v : List ErrRec) : pageKept q s { s with errs := v } := pageKept_of_regs rfl

theorem pageKept.fget_eq {q : Nat} {s t : State} (h : pageKept q s t) {off : Nat} (ho : off < 4096) (lo w : Nat) :
    fget t q off lo w = fget s q off lo w := by
  simp [fget, h off ho]

theorem whenS_pageKept {q : Nat} {c : Bool} {f : State → State} (h : ∀ s, pageKept q s (f s)) (s : State) :
    pageKept q s (whenS c f s) := by
  cases c
  · exact pageKept_refl q s
  · exact h s

theorem foldS_pageKept_of_mem {α : Type} {q : Nat} {f : α → State → State} {l : List α} (h : ∀ a ∈ l, ∀ s, pageKept q s (f a s))
    (s : State) : pageKept q s (foldS l f s) := by
  induction l generalizing s with
  | nil => exact pageKept_refl q s
  | cons a t ih =>
    exact (h a List.mem_cons_self s).trans (ih (fun b hb => h b (List.mem_cons_of_mem a hb)) (f a s))

theorem foldS_pageKept {α : Type} {q : Nat} {f : α → State → State} (h : ∀ a s, pageKept q s (f a s)) (l : List α) (s : State) :
    pageKept q s (foldS l f s) := foldS_pageKept_of_mem (fun a _ => h a) s

section
variable {q p off : Nat} (hpage : q ≠ p) (hoff : off < 4096)
include hpage hoff

theorem rset_pageKept (v : Word) (s : State) : pageKept q s (rset p off v s) := fun off' ho' => by
  rw [rget_rset, if_neg (ridx_ne hpage ho' hoff)]

theorem fset_pageKept (lo w x : Nat) (s : State) : pageKept q s (fset p off lo w x s) := rset_pageKept hpage hoff _ s

theorem finc_pageKept (lo w n : Nat) (s : State) : pageKept q s (finc p off lo w n s) := fset_pageKept hpage hoff _ _ _ s

end

theorem rset64_pageKept {q p off : Nat} (hpage : q ≠ p) (hoff : off + 4 < 4096) (v : BitVec 64) (s : State) :
    pageKept q s (rset64 p off v s) :=
  (rset_pageKept hpage (by omega) _ _).trans (rset_pageKept hpage hoff _ _)

/-- Queueing an EVENT counts on the VILRI page only. -/
theorem queueEvent_pageKept {q : Nat} (hvil : q ≠ pgVilri) (code page : Nat) (bits : Word) (detail : List Nat) (s : State) :
    pageKept q s (queueEvent code page bits detail s) := by
  have hseq := rset64_pageKept hvil (off := 0x88) (by decide) (rget64 s pgVilri 0x88 + 1) s
  unfold queueEvent
  dsimp only
  split
  · exact hseq.trans (evq_pageKept _ _ _)
  · exact hseq.trans ((vil_pageKept _ _ _).trans (finc_pageKept hvil (by decide) _ _ _ _))

/-- Raising a page's event changes its event register and the VILRI page only. -/
theorem rget_raise_of_ne {q off p : Nat} (hvil : q ≠ pgVilri) (ho : off < 4096) (hne : ridx q off ≠ ridx p 0x10) (bit : Nat) (s : State) :
    rget (raise p bit s) q off = rget s q off := by
  have hput (v : Word) : rget (rset p 0x10 v s) q off = rget s q off := by rw [rget_rset, if_neg hne]
  unfold raise
  dsimp only
  split
  · rfl
  · split
    · exact hput _
    · rw [queueEvent_pageKept hvil _ _ _ _ _ off ho, hput]

theorem raise_pageKept {q p : Nat} (hvil : q ≠ pgVilri) (hpage : q ≠ p) (bit : Nat) (s : State) : pageKept q s (raise p bit s) :=
  fun _ ho => rget_raise_of_ne hvil ho (ridx_ne hpage ho (by decide)) bit s

section
variable {q : Nat} (hvil : q ≠ pgVilri) (herr : q ≠ pgErr)
include hvil herr

theorem ringWrite_pageKept (r : ErrRec) (s : State) : pageKept q s (ringWrite r s) := by
  unfold ringWrite
  refine pageKept.trans ?_ (fset_pageKept herr (by decide) _ _ _ _)
  refine pageKept.trans ?_ (pwr_pageKept _ _ _)
  have hline := pageKept_of_regs (q := q) (stkWrite_regs ((rget64 s pgErr 0x40).toNat + 64 * fget s pgErr 0x50 0 16) (errLine r) 0 s)
  split
  · exact hline.trans ((finc_pageKept herr (by decide) _ _ _ _).trans (raise_pageKept hvil herr _ _))
  · exact hline

theorem ringFlush_pageKept (s : State) : pageKept q s (ringFlush s) := by
  unfold ringFlush
  split
  · exact foldS_pageKept (ringWrite_pageKept hvil herr) _ _
  · exact pageKept_refl q s

/-- An Errata record changes the ERRATA and VILRI pages only. -/
theorem errata_pageKept (x : Er) (s : State) : pageKept q s (errata x s) := by
  unfold errata
  extract_lets n r full oldest _ s1 s2 s3 s4 s5 s6
  have hlost : pageKept q s s1 := by
    show pageKept q s (if _ then _ else _)
    split
    · exact (pwr_pageKept _ _ _).trans ((finc_pageKept herr (by decide) _ _ _ _).trans (raise_pageKept hvil herr _ _))
    · exact pageKept_refl q s
  have hbuf : pageKept q s1 s2 := errs_pageKept _ _ _
  have hseq : pageKept q s2 s3 := fset_pageKept herr (by decide) _ _ _ _
  have hsev : pageKept q s3 s4 := fset_pageKept herr (by decide) _ _ _ _
  have hcount : pageKept q s4 s5 := finc_pageKept herr (by decide) _ _ _ _
  have hevent : pageKept q s5 s6 := whenS_pageKept (raise_pageKept hvil herr _) _
  exact hlost.trans (hbuf.trans (hseq.trans (hsev.trans (hcount.trans (hevent.trans (ringFlush_pageKept hvil herr s6))))))

end

end Sys2Proof.Machine
end

