-- ==== Sys2Proof/Proofs/Zones.lean ====
section
/-! PROOF. What stopping, restarting and the end of causes do to a zone (R19, R267, R269), which zones they leave alone, and which pages. -/

namespace Sys2Proof.Machine

/-! ### Zones left alone -/

theorem zone_of_zones {s t : State} (h : t.zones = s.zones) (y : Nat) : zone t y = zone s y := by simp [zone, h]

/-- The update for a zone leaves the others alone. -/
def OwnZone (f : Nat → State → State) : Prop := ∀ z s y, y ≠ z → zone (f z s) y = zone s y

theorem OwnZone.foldS_of_notMem {f : Nat → State → State} (hf : OwnZone f) {l : List Nat} {y : Nat} (hy : y ∉ l) (s : State) :
    zone (foldS l f s) y = zone s y := by
  induction l generalizing s with
  | nil => rfl
  | cons z t ih =>
    obtain ⟨hz, ht⟩ := not_or.1 (mt List.mem_cons.2 hy)
    exact (ih ht (f z s)).trans (hf z s y hz)

/-- A zone that stands once in the list meets its own update in a state where its record is still as it was. -/
theorem OwnZone.foldS_of_mem {f : Nat → State → State} (hf : OwnZone f) {l : List Nat} (hl : l.Nodup) {y : Nat} (hy : y ∈ l) (s : State) :
    ∃ u, zone u y = zone s y ∧ zone (foldS l f s) y = zone (f y u) y := by
  induction l generalizing s with
  | nil => cases hy
  | cons z t ih =>
    obtain ⟨hz, ht⟩ := List.nodup_cons.1 hl
    rcases eq_or_ne y z with rfl | hne
    · exact ⟨s, rfl, hf.foldS_of_notMem hz (f y s)⟩
    · obtain ⟨u, hu, hend⟩ := ih ht ((List.mem_cons.1 hy).resolve_left hne) (f z s)
      exact ⟨u, hu.trans (hf z s y hne), hend⟩

theorem zoneMod_ownZone (g : Nat → Zone → Zone) : OwnZone fun z => zoneMod z (g z) := fun z s y hy => by
  simp [zone_zoneMod, hy]

/-! ### Stopping a zone -/

/-- A zone's record after a stop at `since` for cause `tag`. -/
def Zone.stopped (tag since : Nat) (x : Zone) : Zone :=
  if x.frozenAt.isSome then if x.causes.contains tag then x else { x with causes := x.causes ++ [tag] }
  else { x with frozenAt := some since, causes := [tag], frzTag := tag }

theorem Zone.stopped_frozen (tag since : Nat) (x : Zone) : (x.stopped tag since).frozenAt.isSome = true := by
  unfold Zone.stopped
  split
  · rename_i h
    split <;> exact h
  · rfl

theorem Zone.mem_stopped_causes (tag since : Nat) (x : Zone) : tag ∈ (x.stopped tag since).causes := by
  unfold Zone.stopped
  split
  · split
    · rename_i h
      simpa using h
    · simp
  · simp

theorem Zone.stopped_causes_of_nil (tag since : Nat) {x : Zone} (h : x.causes = []) : (x.stopped tag since).causes = [tag] := by
  unfold Zone.stopped
  split <;> simp [h]

/-- Two changes that give the zone the same record are the same. -/
theorem zoneMod_congr {z : Nat} {f g : Zone → Zone} {s : State} (h : f (zone s z) = g (zone s z)) : zoneMod z f s = zoneMod z g s :=
  congrArg (fun x => { s with zones := tabSet (fun _ => {}) s.zones z x }) h

/-- A stop changes its zone's record, and beside it no zone. -/
theorem stopZone_zones (z tag time : Nat) (s : State) :
    (stopZone z tag time s).zones = (zoneMod z (Zone.stopped tag (max time s.refTick)) s).zones := by
  rcases hf : (zone s z).frozenAt.isSome with _ | _
  · have hrec : zoneMod z (Zone.stopped tag (max time s.refTick)) s =
        zoneMod z (fun x => { x with frozenAt := some (max time s.refTick), causes := [tag], frzTag := tag }) s :=
      zoneMod_congr (by simp [Zone.stopped, hf])
    unfold stopZone
    rw [hf, hrec]
    refine EngOnly.zones (EngOnly.trans (LogOnly.engOnly ?_) (foldS_engOnly _ (fun _ _ => jobMod_engOnly _ _ _) _ _))
    exact (finc_logOnly _ _ _ _ _ _).trans ((fset_logOnly _ _ _ _ _ _).trans ((raise_logOnly _ _ _).trans
      (whenS_logOnly _ _ (raise_logOnly _ _) _)))
  · have hrec : zoneMod z (Zone.stopped tag (max time s.refTick)) s =
        zoneMod z (fun x => if x.causes.contains tag then x else { x with causes := x.causes ++ [tag] }) s :=
      zoneMod_congr (by simp [Zone.stopped, hf])
    unfold stopZone
    simp only [hf, hrec]
    rfl

theorem zone_stopZone_self (z tag time : Nat) (s : State) :
    zone (stopZone z tag time s) z = (zone s z).stopped tag (max time s.refTick) := by
  rw [zone_of_zones (stopZone_zones z tag time s), zone_zoneMod, if_pos rfl]

theorem stopZone_ownZone (tag : Nat → Nat) (time : Nat) : OwnZone fun z => stopZone z (tag z) time := fun z s y hy => by
  rw [zone_of_zones (stopZone_zones z (tag z) time s), zone_zoneMod, if_neg hy]

/-- Each zone of a list that is stopped in turn has its clocks stopped, and holds the condition. -/
theorem zone_foldS_stopZone (tag : Nat → Nat) (time : Nat) {l : List Nat} (hl : l.Nodup) {y : Nat} (hy : y ∈ l) (s : State) :
    ∃ since, zone (foldS l (fun z => stopZone z (tag z) time) s) y = (zone s y).stopped (tag y) since := by
  obtain ⟨u, hu, hend⟩ := (stopZone_ownZone tag time).foldS_of_mem hl hy s
  exact ⟨_, by rw [hend, zone_stopZone_self, hu]⟩

theorem stopZone_pageKept {q : Nat} (hvil : q ≠ pgVilri) {z : Nat} (hz : q ≠ pgZone z) (tag time : Nat) (s : State) :
    pageKept q s (stopZone z tag time s) := by
  unfold stopZone
  dsimp only
  by_cases hf : (zone s z).frozenAt.isSome = true
  · rw [if_pos hf]
    exact zoneMod_pageKept _ _ _ _
  · rw [if_neg hf]
    refine pageKept.trans ?_ (foldS_pageKept (fun _ _ => jobMod_pageKept _ _ _ _) _ _)
    exact (zoneMod_pageKept _ _ _ _).trans ((finc_pageKept hz (by decide) _ _ _ _).trans
      ((fset_pageKept hz (by decide) _ _ _ _).trans ((raise_pageKept hvil hz _ _).trans
        (whenS_pageKept (raise_pageKept hvil hz _) _))))

/-! ### A zone's freeze and the zones it links -/

theorem linkZones_nodup (s : State) (zs : List Nat) : (linkZones s zs).Nodup := List.nodup_range.filter _

/-- A zone's freeze stops the zone and gives it the cause. -/
theorem zone_freezeZone_self (z tag time : Nat) (s : State) :
    (zone (freezeZone z tag time s) z).frozenAt.isSome = true ∧ tag ∈ (zone (freezeZone z tag time s) z).causes := by
  have hz : z ∉ (linkZones s [z]).filter fun y => decide (y ≠ z) := by simp
  unfold freezeZone
  dsimp only
  rw [(stopZone_ownZone (fun _ => 16 + z) time).foldS_of_notMem hz, zone_zoneMod, if_pos rfl, zone_stopZone_self]
  exact ⟨Zone.stopped_frozen _ _ _, Zone.mem_stopped_causes _ _ _⟩

/-- A zone's freeze stops every other zone linked to it, with the freeze itself as the cause. -/
theorem zone_freezeZone_linked (z tag time : Nat) (s : State) {y : Nat} (hy : y ∈ linkZones s [z]) (hne : y ≠ z) :
    (zone (freezeZone z tag time s) y).frozenAt.isSome = true ∧ 16 + z ∈ (zone (freezeZone z tag time s) y).causes := by
  have hmem : y ∈ (linkZones s [z]).filter fun y => decide (y ≠ z) := List.mem_filter.2 ⟨hy, decide_eq_true hne⟩
  unfold freezeZone
  dsimp only
  obtain ⟨since, hend⟩ := zone_foldS_stopZone (fun _ => 16 + z) time ((linkZones_nodup s [z]).filter _) hmem
    (zoneMod z (fun x => { x with froze := true }) (stopZone z tag time s))
  rw [hend]
  exact ⟨Zone.stopped_frozen _ _ _, Zone.mem_stopped_causes _ _ _⟩

/-! ### Restarting a zone -/

/-- A restart finds a zone that holds a cause or is not stopped, and changes nothing, or one that holds none, and starts its clocks. -/
theorem restartZone_cases (z time : Nat) (s : State) :
    (restartZone z time s = s ∧ ((zone s z).causes.isEmpty = false ∨ (zone s z).frozenAt = none)) ∨
      ∃ gone, (zone s z).causes.isEmpty = true ∧
        (restartZone z time s).zones = (zoneMod z (fun x => { x with frozenAt := none, lost := x.lost + gone }) s).zones := by
  rcases hf : (zone s z).frozenAt with _ | f
  · exact .inl ⟨by simp only [restartZone, hf], .inr rfl⟩
  · rcases hc : (zone s z).causes.isEmpty with _ | _
    · exact .inl ⟨by simp only [restartZone, hf, hc]; rfl, .inl rfl⟩
    · refine .inr ⟨max time f - max f s.refTick, rfl, ?_⟩
      simp only [restartZone, hf, hc, if_true]
      exact (LogOnly.trans (rset_logOnly _ _ _ _) ((foldS_logOnly _ (fun _ _ => rset64_logOnly _ _ _ _) _ _).trans
        (errZone_logOnly _ _ _ _ _))).zones

theorem restartZone_ownZone (time : Nat) : OwnZone fun z => restartZone z time := fun z s y hy => by
  rcases restartZone_cases z time s with ⟨hs, -⟩ | ⟨gone, -, hzones⟩
  · exact congrArg (zone · y) hs
  · rw [zone_of_zones hzones, zone_zoneMod, if_neg hy]

theorem causes_restartZone (z time : Nat) (s : State) : (zone (restartZone z time s) z).causes = (zone s z).causes := by
  rcases restartZone_cases z time s with ⟨hs, -⟩ | ⟨gone, -, hzones⟩
  · rw [hs]
  · rw [zone_of_zones hzones, zone_zoneMod, if_pos rfl]

theorem frozenAt_restartZone (z time : Nat) (s : State) :
    (zone (restartZone z time s) z).frozenAt = if (zone s z).causes.isEmpty then none else (zone s z).frozenAt := by
  rcases restartZone_cases z time s with ⟨hs, hheld | hclear⟩ | ⟨gone, hfree, hzones⟩
  · simp [hs, hheld]
  · simp [hs, hclear]
  · rw [zone_of_zones hzones, zone_zoneMod, if_pos rfl, hfree, if_pos rfl]

/-- A restart writes the zone's page, its engines' PERF pages and the logs. -/
theorem restartZone_pageKept {q : Nat} (hvil : q ≠ pgVilri) (herr : q ≠ pgErr) (heng : ∀ k, q ≠ pgEng k 8) {z : Nat} (hz : q ≠ pgZone z)
    (time : Nat) (s : State) : pageKept q s (restartZone z time s) := by
  unfold restartZone
  dsimp only
  split
  · split
    · refine pageKept.trans ?_ (errata_pageKept hvil herr _ _)
      refine pageKept.trans ?_ (foldS_pageKept (fun _ _ => rset64_pageKept (heng _) (by decide) _ _) _ _)
      exact pageKept.trans (pageKept_of_regs rfl) (rset_pageKept hz (by decide) _ _)
    · exact pageKept_refl q s
  · exact pageKept_refl q s

/-! ### The end of causes -/

/-- A zone keeps the causes that do not end, and restarts when none is left. -/
theorem zone_dropCauses (gone : Nat → Nat → Bool) (time : Nat) (s : State) {z : Nat} (hz : z < 4) :
    (zone (dropCauses gone time s) z).causes = (zone s z).causes.filter (fun c => !gone z c) ∧
    (zone (dropCauses gone time s) z).frozenAt =
      if ((zone s z).causes.filter fun c => !gone z c).isEmpty then none else (zone s z).frozenAt := by
  have hmem : z ∈ List.range 4 := List.mem_range.2 hz
  have hdrop := zoneMod_ownZone fun z x => { x with causes := x.causes.filter fun c => !gone z c }
  obtain ⟨u, hu, hkept⟩ := hdrop.foldS_of_mem List.nodup_range hmem s
  rw [zone_zoneMod, if_pos rfl, hu] at hkept
  obtain ⟨v, hv, hend⟩ := (restartZone_ownZone time).foldS_of_mem List.nodup_range hmem
    (foldS (List.range 4) (fun z => zoneMod z fun x => { x with causes := x.causes.filter fun c => !gone z c }) s)
  unfold dropCauses
  rw [hend, causes_restartZone, frozenAt_restartZone, hv, hkept]
  exact ⟨rfl, rfl⟩

/-- A zone of which every cause ends restarts. -/
theorem zone_dropCauses_all {gone : Nat → Nat → Bool} (time : Nat) {s : State} {z : Nat} (hz : z < 4)
    (hgone : ∀ c ∈ (zone s z).causes, gone z c = true) :
    (zone (dropCauses gone time s) z).frozenAt = none ∧ (zone (dropCauses gone time s) z).causes = [] := by
  have hnone : (zone s z).causes.filter (fun c => !gone z c) = [] := by simpa using hgone
  obtain ⟨hcauses, hfrozen⟩ := zone_dropCauses gone time s hz
  rw [hnone] at hcauses hfrozen
  exact ⟨hfrozen, hcauses⟩

/-- A zone that holds a cause and of which none ends stays as it was. -/
theorem zone_dropCauses_none {gone : Nat → Nat → Bool} (time : Nat) {s : State} {z : Nat} (hz : z < 4) (hheld : (zone s z).causes ≠ [])
    (hkept : ∀ c ∈ (zone s z).causes, gone z c = false) :
    (zone (dropCauses gone time s) z).causes = (zone s z).causes ∧
      (zone (dropCauses gone time s) z).frozenAt = (zone s z).frozenAt := by
  have hall : (zone s z).causes.filter (fun c => !gone z c) = (zone s z).causes := by
    simpa using hkept
  obtain ⟨hcauses, hfrozen⟩ := zone_dropCauses gone time s hz
  rw [hall] at hcauses hfrozen
  exact ⟨hcauses, by simpa [hheld] using hfrozen⟩

theorem dropCauses_pageKept {q : Nat} (hvil : q ≠ pgVilri) (herr : q ≠ pgErr) (heng : ∀ k, q ≠ pgEng k 8) (hz : ∀ z < 4, q ≠ pgZone z)
    (gone : Nat → Nat → Bool) (time : Nat) (s : State) : pageKept q s (dropCauses gone time s) := by
  unfold dropCauses
  refine pageKept.trans ?_
    (foldS_pageKept_of_mem (fun z hmem => restartZone_pageKept hvil herr heng (hz z (List.mem_range.1 hmem)) time) _)
  exact foldS_pageKept (fun _ _ => zoneMod_pageKept _ _ _ _) _ _

end Sys2Proof.Machine
end

