-- ==== Sys2Proof/Proofs/Freezes.lean ====
section
/-! PROOF. THROTTLE_FREEZE, ENVELOPE_GUARD and FREEZE_RELEASE (R18, R19, R267, R269). -/

namespace Sys2Proof.Machine

theorem pgCur_ne_pgZone {z : Nat} (hz : z < 4) : pgCur ≠ pgZone z := by
  unfold pgCur pgZone
  omega

theorem pgCur_ne_pgEng (k q : Nat) : pgCur ≠ pgEng k q := by
  unfold pgCur pgEng
  omega

/-! ### THROTTLE_FREEZE -/

theorem exec_throttleFreeze (z : BitVec 2) (c : FreezeCause) (time : Nat) (s : State) :
    exec (.throttleFreeze z c time) s = .next (doThrottleFreeze z.toNat c time s) := rfl

theorem doThrottleFreeze_of_freezes {z : Nat} {c : FreezeCause} (time : Nat) {s : State} (hrun : running s = true)
    (hfrz : freezes s z c = true) : doThrottleFreeze z c time s = freezeZone z (causeCode c) time s := by
  simp [doThrottleFreeze, hrun, hfrz]

theorem doThrottleFreeze_of_not {z : Nat} {c : FreezeCause} (time : Nat) {s : State} (h : running s = false ∨ freezes s z c = false) :
    doThrottleFreeze z c time s = s := by
  rcases h with h | h <;> simp [doThrottleFreeze, h]

/-- R269: the readings at which a condition freezes a zone; a cause without a reading always does. -/
theorem freezes_iff (s : State) (z : Nat) (c : FreezeCause) :
    freezes s z c = true ↔ (∀ r, c = .current r → fget s (pgZone z) 0x44 0 12 < r.toNat) ∧
      (∀ r, c = .temperature r → fget s pgCur 0x44 16 8 ≤ r.toNat) := by
  cases c <;> simp [freezes]

theorem freezes_eq_false_iff (s : State) (z : Nat) (c : FreezeCause) :
    freezes s z c = false ↔ (∃ r, c = .current r ∧ r.toNat ≤ fget s (pgZone z) 0x44 0 12) ∨
      (∃ r, c = .temperature r ∧ r.toNat < fget s pgCur 0x44 16 8) := by
  cases c <;> simp [freezes]

/-- A freeze stops the zone, for the condition's cause, and every zone linked to it, for the zone's (R18, R19). -/
theorem throttleFreeze_stops {z : Nat} {c : FreezeCause} (time : Nat) {s : State} (hrun : running s = true)
    (hfrz : freezes s z c = true) :
    (zone (doThrottleFreeze z c time s) z).frozenAt.isSome = true ∧ causeCode c ∈ (zone (doThrottleFreeze z c time s) z).causes ∧
      ∀ y ∈ linkZones s [z], (zone (doThrottleFreeze z c time s) y).frozenAt.isSome = true ∧
        (y ≠ z → 16 + z ∈ (zone (doThrottleFreeze z c time s) y).causes) := by
  rw [doThrottleFreeze_of_freezes time hrun hfrz]
  obtain ⟨hfrozen, hcause⟩ := zone_freezeZone_self z (causeCode c) time s
  refine ⟨hfrozen, hcause, fun y hy => ?_⟩
  rcases eq_or_ne y z with rfl | hne
  · exact ⟨hfrozen, absurd rfl⟩
  · obtain ⟨hstop, hlink⟩ := zone_freezeZone_linked z (causeCode c) time s hy hne
    exact ⟨hstop, fun _ => hlink⟩

/-! ### ENVELOPE_GUARD -/

theorem exec_envelopeGuard (p : BitVec 16) (time : Nat) (s : State) :
    exec (.envelopeGuard p time) s = .next (doEnvelopeGuard p.toNat time s) := rfl

/-- The module with the guard's flag up, its event raised and its step due at the next tick, before the zones stop (R267). -/
def guardRaised (s : State) : State :=
  raise pgCur 5 (fset pgCur 0x78 8 1 1 (curMod (fun c => { c with guardDue := true }) s))

theorem doEnvelopeGuard_above {p : Nat} (time : Nat) {s : State} (hrun : running s = true) (hoff : fget s pgCur 0x78 8 1 = 0)
    (hp : 7600 < p) : doEnvelopeGuard p time s = foldS (List.range 4) (fun z => stopZone z 3 time) (guardRaised s) := by
  simp [doEnvelopeGuard, hrun, hoff, hp, guardRaised]

theorem doEnvelopeGuard_falls {p : Nat} (time : Nat) {s : State} (hmode : running s = true ∨ pstate s = 4)
    (hon : fget s pgCur 0x78 8 1 = 1) (hp : p ≤ 7000) :
    doEnvelopeGuard p time s = dropCauses (fun _ c => decide (c = 3)) time (fset pgCur 0x78 8 1 0 s) := by
  rcases hmode with h | h <;> simp [doEnvelopeGuard, h, hon, hp]

/-- The guard neither rises nor falls: the module is in no state for it, or the reading is not past the flag's threshold. -/
theorem doEnvelopeGuard_idle {p : Nat} (time : Nat) {s : State} (hrise : running s = true → fget s pgCur 0x78 8 1 ≠ 1 → p ≤ 7600)
    (hfall : running s = true ∨ pstate s = 4 → fget s pgCur 0x78 8 1 = 1 → 7000 < p) : doEnvelopeGuard p time s = s := by
  unfold doEnvelopeGuard
  dsimp only
  split_ifs with hmode habove hbelow
  · rfl
  · simp only [Bool.and_eq_true, Bool.not_eq_true', decide_eq_false_iff_not, decide_eq_true_eq] at habove
    obtain ⟨⟨hoff, hp⟩, hrun⟩ := habove
    exact absurd hp (Nat.not_lt.2 (hrise hrun hoff))
  · simp only [Bool.and_eq_true, decide_eq_true_eq] at hbelow
    obtain ⟨hon, hp⟩ := hbelow
    exact absurd hp (Nat.not_le.2 (hfall (by simpa [Decidable.or_iff_not_imp_left] using hmode) hon))
  · rfl

theorem fget_guardRaised (s : State) : fget (guardRaised s) pgCur 0x78 8 1 = 1 := by
  unfold guardRaised fget
  rw [rget_raise_of_ne (by decide) (by decide) (by decide)]
  exact fget_fset_self pgCur 0x78 8 1 1 _ (by decide) (by decide)

theorem zone_guardRaised (s : State) (z : Nat) : zone (guardRaised s) z = zone s z :=
  zone_of_zones ((fset_logOnly _ _ _ _ _ _).trans (raise_logOnly _ _ _)).zones z

/-- Above 760 W the flag stands and every zone is stopped and holds the guard as a cause. -/
theorem envelopeGuard_rises {p : Nat} (time : Nat) {s : State} (hrun : running s = true) (hoff : fget s pgCur 0x78 8 1 = 0)
    (hp : 7600 < p) :
    fget (doEnvelopeGuard p time s) pgCur 0x78 8 1 = 1 ∧ ∀ z, z < 4 → (zone (doEnvelopeGuard p time s) z).frozenAt.isSome = true ∧
      ((zone s z).causes = [] → (zone (doEnvelopeGuard p time s) z).causes = [3]) ∧
      (zone (doEnvelopeGuard p time s) z).causes.contains 3 = true := by
  rw [doEnvelopeGuard_above time hrun hoff hp]
  constructor
  · have hkept : pageKept pgCur (guardRaised s) (foldS (List.range 4) (fun z => stopZone z 3 time) (guardRaised s)) :=
      foldS_pageKept_of_mem (fun z hmem => stopZone_pageKept (by decide) (pgCur_ne_pgZone (List.mem_range.1 hmem)) 3 time) _
    rw [hkept.fget_eq (by decide), fget_guardRaised]
  · intro z hz
    obtain ⟨since, hstop⟩ := zone_foldS_stopZone (fun _ => 3) time List.nodup_range (List.mem_range.2 hz) (guardRaised s)
    rw [hstop, zone_guardRaised]
    exact ⟨Zone.stopped_frozen _ _ _, Zone.stopped_causes_of_nil _ _, by simpa using Zone.mem_stopped_causes 3 since (zone s z)⟩

/-- At 700 W or below the flag falls, and every zone that the guard alone held restarts. -/
theorem envelopeGuard_falls {p : Nat} (time : Nat) {s : State} (hmode : running s = true ∨ pstate s = 4)
    (hon : fget s pgCur 0x78 8 1 = 1) (hp : p ≤ 7000) :
    fget (doEnvelopeGuard p time s) pgCur 0x78 8 1 = 0 ∧
      ∀ z, z < 4 → (zone s z).causes = [3] → (zone (doEnvelopeGuard p time s) z).frozenAt = none := by
  rw [doEnvelopeGuard_falls time hmode hon hp]
  constructor
  · rw [(dropCauses_pageKept (by decide) (by decide) (fun k => pgCur_ne_pgEng k 8) (fun z hz => pgCur_ne_pgZone hz) _ _ _).fget_eq
      (by decide), fget_fset_self _ _ _ _ _ _ (by decide) (by decide)]
  · intro z hz hc
    have hzone : zone (fset pgCur 0x78 8 1 0 s) z = zone s z := zone_of_zones (fset_logOnly _ _ _ _ _ _).zones z
    refine (zone_dropCauses_all time hz ?_).1
    rw [hzone, hc]
    simp

/-! ### FREEZE_RELEASE -/

theorem exec_freezeRelease (r : ZoneReading) (time : Nat) (s : State) :
    exec (.freezeRelease r time) s = .next (doFreezeRelease r.zone.toNat r.current.toNat r.temp.toNat time s) := rfl

theorem doFreezeRelease_of_not_running {z cur temp : Nat} (time : Nat) {s : State} (hrun : running s = false) :
    doFreezeRelease z cur temp time s = s := by
  simp [doFreezeRelease, hrun]

/-- The causes that end at zone `z`'s readings, where one condition of its own holds it. -/
theorem doFreezeRelease_of_single {z cur temp c : Nat} (time : Nat) {s : State} (hrun : running s = true) (hc : (zone s z).causes = [c])
    (hlocal : c = 1 ∨ c = 2) :
    doFreezeRelease z cur temp time s = dropCauses (fun y d => (decide (y = z) && thaws s z cur temp d) ||
      (thaws s z cur temp c && decide (d = 16 + z))) time s := by
  rcases hlocal with rfl | rfl <;> rcases ht : thaws s z cur temp _ with _ | _ <;> simp [doFreezeRelease, hrun, hc, ht]

/-- R269: a zone that one condition of its own holds restarts when its readings let that go, and so does a zone that its freeze alone
holds. -/
theorem freezeRelease_thaws {z cur temp c : Nat} (time : Nat) {s : State} (hrun : running s = true) (hz : z < 4)
    (hc : (zone s z).causes = [c]) (hlocal : c = 1 ∨ c = 2) (hthaw : thaws s z cur temp c = true) {y : Nat} (hy : y < 4)
    (hheld : y = z ∨ (zone s y).causes = [16 + z]) :
    (zone (doFreezeRelease z cur temp time s) y).frozenAt = none ∧ (zone (doFreezeRelease z cur temp time s) y).causes = [] := by
  rw [doFreezeRelease_of_single time hrun hc hlocal]
  refine zone_dropCauses_all time hy fun d hd => ?_
  rcases hheld with rfl | hlink
  · rw [hc, List.mem_singleton] at hd
    simp [hd, hthaw]
  · rw [hlink, List.mem_singleton] at hd
    simp [hd, hthaw]

/-- R269: at readings that do not let the condition go, the zone it holds stays as it was. -/
theorem freezeRelease_holds {z cur temp c : Nat} (time : Nat) {s : State} (hrun : running s = true) (hz : z < 4)
    (hc : (zone s z).causes = [c]) (hlocal : c = 1 ∨ c = 2) (hthaw : thaws s z cur temp c = false) :
    (zone (doFreezeRelease z cur temp time s) z).causes = (zone s z).causes ∧
      (zone (doFreezeRelease z cur temp time s) z).frozenAt = (zone s z).frozenAt := by
  rw [doFreezeRelease_of_single time hrun hc hlocal]
  refine zone_dropCauses_none time hz (by simp [hc]) fun d hd => ?_
  rw [hc, List.mem_singleton] at hd
  simp [hd, hthaw]

/-! ### The obligation -/

/-- Settles O37: each command by the case that the module's state and the readings select. -/
theorem freezeStops : Obligations.FreezeStops := by
  unfold Obligations.FreezeStops
  refine ⟨fun z c time s => ⟨fun hrun hcur htemp => ?_, fun hidle => ?_⟩,
    fun p time s hrun => ⟨fun hoff hp => ?_, fun hon hp => ?_, fun hoff hp => ?_, fun hon hp => ?_⟩,
    fun p r time s hrun => ⟨?_, fun hstate => ?_, fun hstate => ⟨fun hidle => ?_, fun hon hp => ?_⟩⟩,
    fun z cur temp time s hrun => ⟨fun hthaw => ?_, fun hhold => ?_⟩⟩
  · exact ⟨_, exec_throttleFreeze z c time s, throttleFreeze_stops time hrun ((freezes_iff s z.toNat c).2 ⟨hcur, htemp⟩)⟩
  · rw [exec_throttleFreeze, doThrottleFreeze_of_not time (hidle.imp_right (freezes_eq_false_iff s z.toNat c).2)]
  · exact ⟨_, exec_envelopeGuard p time s, envelopeGuard_rises time hrun hoff hp⟩
  · exact ⟨_, exec_envelopeGuard p time s, envelopeGuard_falls time (.inl hrun) hon hp⟩
  · rw [exec_envelopeGuard, doEnvelopeGuard_idle time (fun _ _ => hp) (fun _ hon => by omega)]
  · rw [exec_envelopeGuard, doEnvelopeGuard_idle time (fun _ hoff => absurd hon hoff) (fun _ _ => hp)]
  · rw [exec_freezeRelease, doFreezeRelease_of_not_running time hrun]
  · rw [exec_envelopeGuard, doEnvelopeGuard_idle time (by simp [hrun]) (by simp [hrun, hstate])]
  · rw [exec_envelopeGuard, doEnvelopeGuard_idle time (by simp [hrun]) (fun _ hon => hidle.resolve_left (by omega))]
  · exact ⟨_, exec_envelopeGuard p time s, (envelopeGuard_falls time (.inr hstate) hon hp).1⟩
  · have hz : z.toNat < 4 := z.isLt
    obtain ⟨c, hc, hlocal, ht⟩ : ∃ c, (zone s z.toNat).causes = [c] ∧ (c = 1 ∨ c = 2) ∧ thaws s z.toNat cur.toNat temp.toNat c = true := by
      rcases hthaw with ⟨hc, hcur⟩ | ⟨hc, htemp⟩
      · exact ⟨1, hc, .inl rfl, by simp [thaws, hcur]⟩
      · exact ⟨2, hc, .inr rfl, by simp [thaws, htemp]⟩
    obtain ⟨hfrozen, hcauses⟩ := freezeRelease_thaws time hrun hz hc hlocal ht hz (.inl rfl)
    exact ⟨_, exec_freezeRelease _ time s, hfrozen, hcauses,
      fun y hy hlink => freezeRelease_thaws time hrun hz hc hlocal ht hy (.inr hlink)⟩
  · have hz : z.toNat < 4 := z.isLt
    obtain ⟨c, hc, hlocal, ht⟩ : ∃ c, (zone s z.toNat).causes = [c] ∧ (c = 1 ∨ c = 2) ∧ thaws s z.toNat cur.toNat temp.toNat c = false := by
      rcases hhold with ⟨hc, hcur⟩ | ⟨hc, htemp⟩
      · exact ⟨1, hc, .inl rfl, by simp [thaws, hcur]⟩
      · exact ⟨2, hc, .inr rfl, by simp [thaws, htemp]⟩
    exact ⟨_, exec_freezeRelease _ time s, freezeRelease_holds time hrun hz hc hlocal ht⟩

end Sys2Proof.Machine
end

