-- ==== Sys2Proof/Proofs/PositFields.lean ====
section
/-! PROOF. The fields of a posit word (R35), and what they are in the word with more zero bits behind it. -/

namespace Sys2Proof.Machine

/-! ### The regime run -/

theorem regimeRun_le (b : Nat) (r : Bool) (i : Nat) : regimeRun b r i ≤ i := by
  induction i with
  | zero => exact le_rfl
  | succ i ih =>
    unfold regimeRun
    split <;> omega

/-- The bits of the run, read as a number. -/
theorem regimeRun_value (b : Nat) (r : Bool) (i : Nat) :
    b % 2 ^ i / 2 ^ (i - regimeRun b r i) = if r then 2 ^ regimeRun b r i - 1 else 0 := by
  induction i with
  | zero => simp [regimeRun, Nat.mod_one]
  | succ i ih =>
    unfold regimeRun
    split
    case isTrue hbit =>
      have hle := regimeRun_le b r i
      have hpow : 2 ^ i = 2 ^ regimeRun b r i * 2 ^ (i - regimeRun b r i) := by rw [← pow_add]; congr 1; omega
      have hsplit : b % 2 ^ (i + 1) = b % 2 ^ i + 2 ^ regimeRun b r i * r.toNat * 2 ^ (i - regimeRun b r i) := by
        rw [Nat.mod_pow_succ, ← Nat.toNat_testBit, hbit, mul_right_comm, ← hpow]
      rw [Nat.add_sub_add_right, hsplit, Nat.add_mul_div_right _ _ (by positivity), ih]
      cases r with
      | false => simp
      | true =>
        have hpos : 0 < 2 ^ regimeRun b true i := by positivity
        simp only [if_true, Bool.toNat_true, pow_succ]
        omega
    case isFalse => simp [Nat.div_eq_of_lt (Nat.mod_lt b (show 0 < 2 ^ (i + 1) by positivity))]

/-- The bit behind a run that ends within the word. -/
theorem testBit_regimeRun (b : Nat) (r : Bool) (i : Nat) (h : regimeRun b r i < i) :
    b.testBit (i - regimeRun b r i - 1) = !r := by
  induction i with
  | zero => omega
  | succ i ih =>
    unfold regimeRun at h ⊢
    split
    case isTrue hbit =>
      rw [if_pos hbit] at h
      simpa using ih (by omega)
    case isFalse hbit => simpa using Bool.eq_not.2 hbit

/-- Zero bits behind a word do not lengthen its run, but for a word that is zeros alone. -/
theorem regimeRun_widen {b d i : Nat} {r : Bool} (hd : 0 < d) (h : r = true ∨ regimeRun b r i < i) :
    regimeRun (b * 2 ^ d) r (i + d) = regimeRun b r i := by
  induction i with
  | zero =>
    obtain rfl := h.resolve_right (by simp)
    obtain ⟨c, rfl⟩ := Nat.exists_eq_succ_of_ne_zero hd.ne'
    simp [regimeRun, Nat.testBit_mul_two_pow]
  | succ i ih =>
    have hbit : (b * 2 ^ d).testBit (i + d) = b.testBit i := by simp [Nat.testBit_mul_two_pow]
    rw [Nat.succ_add_eq_add_succ, Nat.add_succ]
    unfold regimeRun at h ⊢
    rw [hbit]
    split
    case isTrue hr =>
      rw [if_pos hr] at h
      rw [ih (h.imp_right (by omega))]
    case isFalse => rfl

/-! ### The fields of a word

`b` is the `N` bits behind the sign of a word of `N + 1` bits. -/

/-- The length of the regime run. -/
def positRun (N b : Nat) : Nat := regimeRun b (b.testBit (N - 1)) N

/-- The regime value. -/
def positRegime (N b : Nat) : Int := if b.testBit (N - 1) then (positRun N b : Int) - 1 else -(positRun N b : Int)

/-- The two exponent bits. -/
def positExp (N b : Nat) : Nat := 2 * nextBit b (N - positRun N b - 1) + nextBit b (N - positRun N b - 1 - 1)

/-- The number of fraction bits. -/
def positFracBits (N b : Nat) : Nat := N - positRun N b - 1 - 2

/-- The fraction. -/
def positFrac (N b : Nat) : Nat := b % 2 ^ positFracBits N b

/-- The bits behind the sign of the magnitude of a word `w`. -/
def positAbs (N w : Nat) : Nat := (if 2 ^ N < w then 2 ^ (N + 1) - w else w) % 2 ^ N

/-- R35, by the fields. -/
theorem decodePosit_eq (N w : Nat) : decodePosit (N + 1) w =
    if w = 0 then .num false 0 0
    else if w = 2 ^ N then .nan
    else .num (decide (2 ^ N < w)) (2 ^ positFracBits N (positAbs N w) + positFrac N (positAbs N w))
      (4 * positRegime N (positAbs N w) + positExp N (positAbs N w) - positFracBits N (positAbs N w)) := by
  simp only [decodePosit, decide_eq_true_eq]
  rfl

/-- The regime value's bits with the bit that ends the run, and how many they are (R39 step 4). -/
def regimeBits (k : Int) : Nat × Nat := if 0 ≤ k then (2 ^ (k.toNat + 2) - 2, k.toNat + 2) else (1, (-k).toNat + 1)

section
variable {N b : Nat}

theorem nextBit_lt_two (x i : Nat) : nextBit x i < 2 := by
  unfold nextBit
  split <;> omega

theorem positExp_lt_four (N b : Nat) : positExp N b < 4 := by
  have h1 := nextBit_lt_two b (N - positRun N b - 1)
  have h2 := nextBit_lt_two b (N - positRun N b - 1 - 1)
  unfold positExp
  omega

theorem positRun_le (N b : Nat) : positRun N b ≤ N := regimeRun_le _ _ _

theorem positRun_pos (hN : 0 < N) : 0 < positRun N b := by
  obtain ⟨M, rfl⟩ := Nat.exists_eq_succ_of_ne_zero hN.ne'
  simp [positRun, regimeRun]

theorem positFrac_lt (N b : Nat) : positFrac N b < 2 ^ positFracBits N b := Nat.mod_lt _ (by positivity)

/-- The bits of a word's run, read as a number. -/
theorem div_positRun (hlt : b < 2 ^ N) :
    b / 2 ^ (N - positRun N b) = if b.testBit (N - 1) then 2 ^ positRun N b - 1 else 0 := by
  have hvalue := regimeRun_value b (b.testBit (N - 1)) N
  rw [Nat.mod_eq_of_lt hlt] at hvalue
  exact hvalue

/-- A run of zeros ends within a word that is not zero. -/
theorem positRun_ends (hb : 0 < b) (hlt : b < 2 ^ N) : b.testBit (N - 1) = true ∨ positRun N b < N := by
  by_contra! hfull
  obtain ⟨hbit, hrun⟩ := hfull
  rw [ne_eq, Bool.not_eq_true] at hbit
  have hzero := div_positRun hlt
  rw [le_antisymm (positRun_le N b) hrun, hbit, Nat.sub_self, pow_zero, Nat.div_one] at hzero
  exact hb.ne' hzero

/-- The string's regime is a word's run with the bit that ends it. -/
theorem regimeBits_positRegime (hN : 0 < N) : regimeBits (positRegime N b) =
    (if b.testBit (N - 1) then 2 ^ (positRun N b + 1) - 2 else 1, positRun N b + 1) := by
  have hpos := positRun_pos (b := b) hN
  rcases hbit : b.testBit (N - 1) with _ | _
  · have hk : positRegime N b = -(positRun N b : Int) := by simp [positRegime, hbit]
    have hlen : (-positRegime N b).toNat = positRun N b := by omega
    simp [regimeBits, show ¬ 0 ≤ positRegime N b by omega, hlen]
  · have hk : positRegime N b = (positRun N b : Int) - 1 := by simp [positRegime, hbit]
    have hlen : (positRegime N b).toNat + 2 = positRun N b + 1 := by omega
    simp [regimeBits, show 0 ≤ positRegime N b by omega, hlen]

/-- The leading bits of a word whose run ends within it. -/
theorem div_two_pow_eq_regimeBits (hN : 0 < N) (hlt : b < 2 ^ N) (hrun : positRun N b < N) :
    b / 2 ^ (N - positRun N b - 1) = (regimeBits (positRegime N b)).1 := by
  have hvalue := div_positRun hlt
  have hend : b.testBit (N - positRun N b - 1) = !b.testBit (N - 1) := testBit_regimeRun _ _ _ hrun
  obtain ⟨j, hj⟩ : ∃ j, N - positRun N b = j + 1 := Nat.exists_eq_succ_of_ne_zero (by omega)
  rw [hj, Nat.add_sub_cancel] at hend ⊢
  have hlow : b / 2 ^ j % 2 = (!b.testBit (N - 1)).toNat := by rw [← Nat.toNat_testBit, hend]
  rw [hj, pow_succ, ← Nat.div_div_eq_div_mul] at hvalue
  rw [regimeBits_positRegime hN]
  rcases hbit : b.testBit (N - 1) with _ | _
  · simp only [hbit, Bool.false_eq_true, if_false, Bool.not_false, Bool.toNat_true] at hvalue hlow ⊢
    omega
  · have htwo : 0 < 2 ^ positRun N b := by positivity
    simp only [hbit, if_true, Bool.not_true, Bool.toNat_false, pow_succ] at hvalue hlow ⊢
    omega

/-- A word that has room for both exponent bits is its fields, one behind the other. -/
theorem word_eq_fields (hN : 0 < N) (hlt : b < 2 ^ N) (hrun : positRun N b + 3 ≤ N) :
    b = ((regimeBits (positRegime N b)).1 * 4 + positExp N b) * 2 ^ positFracBits N b + positFrac N b := by
  obtain ⟨f, hf⟩ : ∃ f, N - positRun N b - 1 = f + 2 := ⟨N - positRun N b - 3, by omega⟩
  have hfb : positFracBits N b = f := by rw [positFracBits, hf, Nat.add_sub_cancel]
  have hlead := div_two_pow_eq_regimeBits hN hlt (by omega)
  have hexp : positExp N b = 2 * (b / 2 ^ f / 2 % 2) + b / 2 ^ f % 2 := by
    simp [positExp, hf, nextBit, pow_succ, Nat.div_div_eq_div_mul]
  rw [hf, pow_add, ← Nat.div_div_eq_div_mul] at hlead
  have hq : b / 2 ^ f = (regimeBits (positRegime N b)).1 * 4 + positExp N b := by omega
  rw [positFrac, hfb, ← hq, Nat.div_add_mod']

/-! ### The fields of a word with more zero bits behind it -/

theorem nextBit_mul_two_pow (x d i : Nat) : nextBit (x * 2 ^ d) i = nextBit x (i - d) := by
  unfold nextBit
  rcases Nat.lt_or_ge d i with hlt | hge
  · obtain ⟨c, rfl⟩ : ∃ c, i = d + c + 1 := ⟨i - d - 1, by omega⟩
    have hc : d + c + 1 - d = c + 1 := by omega
    simp [hc, pow_add, mul_comm x, Nat.mul_div_mul_left]
  · obtain rfl | hi := Nat.eq_zero_or_pos i
    · simp
    · have hpow : 2 ^ d = 2 ^ (d - i) * 2 * 2 ^ (i - 1) := by rw [← pow_succ, ← pow_add]; congr 1; omega
      rw [if_neg hi.ne', if_pos (by omega), hpow, ← mul_assoc, Nat.mul_div_cancel _ (by positivity), ← mul_assoc,
        Nat.mul_mod_left]

theorem mul_two_pow_mod (x d i : Nat) : x * 2 ^ d % 2 ^ i = x % 2 ^ (i - d) * 2 ^ (i - (i - d)) := by
  rcases Nat.le_total d i with hle | hge
  · obtain ⟨c, rfl⟩ := Nat.exists_eq_add_of_le hle
    rw [Nat.add_sub_cancel_left, Nat.add_sub_cancel, pow_add, mul_comm (2 ^ d), Nat.mul_mod_mul_right]
  · rw [Nat.sub_eq_zero_of_le hge, pow_zero, Nat.mod_one, zero_mul]
    exact Nat.mod_eq_zero_of_dvd ((pow_dvd_pow 2 hge).trans (Nat.dvd_mul_left _ _))

variable {d : Nat} (hN : 0 < N) (hd : 0 < d) (hb : 0 < b) (hlt : b < 2 ^ N)
include hN

theorem testBit_widen : (b * 2 ^ d).testBit (N + d - 1) = b.testBit (N - 1) := by
  have hsub : N + d - 1 - d = N - 1 := by omega
  have hle : d ≤ N + d - 1 := by omega
  simp [Nat.testBit_mul_two_pow, hsub, hle]

include hd hb hlt

theorem positRun_widen : positRun (N + d) (b * 2 ^ d) = positRun N b := by
  unfold positRun
  rw [testBit_widen hN]
  exact regimeRun_widen hd (positRun_ends hb hlt)

theorem positRegime_widen : positRegime (N + d) (b * 2 ^ d) = positRegime N b := by
  simp only [positRegime, testBit_widen hN, positRun_widen hN hd hb hlt]

theorem positExp_widen : positExp (N + d) (b * 2 ^ d) = positExp N b := by
  have hfirst : N + d - positRun N b - 1 - d = N - positRun N b - 1 := by omega
  have hsecond : N + d - positRun N b - 1 - 1 - d = N - positRun N b - 1 - 1 := by omega
  simp only [positExp, positRun_widen hN hd hb hlt, nextBit_mul_two_pow, hfirst, hsecond]

theorem positFracBits_widen : positFracBits N b = positFracBits (N + d) (b * 2 ^ d) - d := by
  simp only [positFracBits, positRun_widen hN hd hb hlt]
  omega

/-- The fraction gains zero bits, as many as there are fraction bits more. -/
theorem positFrac_widen : positFrac (N + d) (b * 2 ^ d) =
    positFrac N b * 2 ^ (positFracBits (N + d) (b * 2 ^ d) - positFracBits N b) := by
  simp only [positFrac, positFracBits_widen hN hd hb hlt, mul_two_pow_mod]

theorem positFracBits_le_widen : positFracBits N b ≤ positFracBits (N + d) (b * 2 ^ d) := by
  rw [positFracBits_widen hN hd hb hlt]
  exact Nat.sub_le _ _

/-- The significand gains as many zero bits as the fraction. -/
theorem significand_widen : 2 ^ positFracBits (N + d) (b * 2 ^ d) + positFrac (N + d) (b * 2 ^ d) =
    (2 ^ positFracBits N b + positFrac N b) * 2 ^ (positFracBits (N + d) (b * 2 ^ d) - positFracBits N b) := by
  rw [positFrac_widen hN hd hb hlt, add_mul, ← pow_add, Nat.add_sub_cancel' (positFracBits_le_widen hN hd hb hlt)]

end

end Sys2Proof.Machine
end

