-- ==== Sys2Proof/Proofs/PositWidening.lean ====
section
/-! PROOF. The value of a posit word rounds to the word with zero bits behind it, which stands for that value too (R38, R39). -/

namespace Sys2Proof.Machine

/-! ### Rounding the fields -/

theorem log2_two_pow_add {f x : Nat} (hx : x < 2 ^ f) : Nat.log2 (2 ^ f + x) = f := by
  rw [Nat.log2_eq_iff (by omega), pow_succ]
  omega

theorem scaleOf_fields {f x : Nat} (hx : x < 2 ^ f) (sc : Int) : scaleOf (2 ^ f + x) (sc - f) = sc := by
  rw [scaleOf, log2_two_pow_add hx]
  omega

/-- Where the bit string is no longer than the word, it stands in the word with zero bits behind it (R39 step 4). -/
theorem positBits_fields {n f x e j : Nat} {k : Int} (hx : x < 2 ^ f) (he : e < 4)
    (hlen : (regimeBits k).2 + 2 + f + j = n - 1) :
    positBits n (2 ^ f + x) (4 * k + e - f) = (((regimeBits k).1 * 4 + e) * 2 ^ f + x) * 2 ^ j := by
  have hk : (4 * k + (e : Int)) / 4 = k := by omega
  have heb : ((4 * k + (e : Int)) % 4).toNat = e := by omega
  have hj : n - 1 - ((regimeBits k).2 + 2 + f) = j := by omega
  simp only [positBits, scaleOf_fields hx, hk, heb, log2_two_pow_add hx, Nat.add_sub_cancel_left]
  change (if (regimeBits k).2 + 2 + f ≤ n - 1 then
    (((regimeBits k).1 * 4 + e) * 2 ^ f + x) * 2 ^ (n - 1 - ((regimeBits k).2 + 2 + f)) else _) = _
  rw [if_pos (by omega), hj]

/-- The string of a word's fields fills a word at least three bits wider: the word's own bits, then zeros. -/
theorem positBits_widen {N d b : Nat} (hN : 0 < N) (hd : 3 ≤ d) (hb : 0 < b) (hlt : b < 2 ^ N) :
    positBits (N + d + 1) (2 ^ positFracBits N b + positFrac N b) (4 * positRegime N b + positExp N b - positFracBits N b) =
      b * 2 ^ d := by
  have hd0 : 0 < d := by omega
  have hrun := positRun_widen hN hd0 hb hlt
  have hle := positRun_le N b
  have hwide : b * 2 ^ d < 2 ^ (N + d) := by
    rw [pow_add]
    exact Nat.mul_lt_mul_of_pos_right hlt (by positivity)
  have hfields := word_eq_fields (by omega) hwide (by omega)
  have hbits := positFracBits_le_widen hN hd0 hb hlt
  have hwideBits : positFracBits (N + d) (b * 2 ^ d) = N + d - positRun N b - 1 - 2 := by rw [positFracBits, hrun]
  rw [positRegime_widen hN hd0 hb hlt, positExp_widen hN hd0 hb hlt, positFrac_widen hN hd0 hb hlt] at hfields
  rw [positBits_fields (positFrac_lt N b) (positExp_lt_four N b)
    (j := positFracBits (N + d) (b * 2 ^ d) - positFracBits N b)
    (by rw [regimeBits_positRegime hN]; omega), add_mul, mul_assoc, ← pow_add, Nat.add_sub_cancel' (by omega)]
  exact hfields.symm

theorem roundPositNum_widen {N d b : Nat} (neg : Bool) (hN : 0 < N) (hd : 3 ≤ d) (hb : 0 < b) (hlt : b < 2 ^ N) :
    (roundPositNum (N + d + 1) neg (2 ^ positFracBits N b + positFrac N b)
      (4 * positRegime N b + positExp N b - positFracBits N b)).1 = positSign (N + d + 1) neg (b * 2 ^ d) := by
  have hmag : 2 ^ positFracBits N b + positFrac N b ≠ 0 := by positivity
  have he := positExp_lt_four N b
  have hle := positRun_le N b
  have hpos := positRun_pos (b := b) hN
  have hk : -(N : Int) ≤ positRegime N b ∧ positRegime N b < N := by
    unfold positRegime
    split <;> omega
  simp only [roundPositNum, scaleOf_fields (positFrac_lt N b), if_neg hmag]
  rw [if_neg (by omega), if_neg (by omega), positBits_widen hN hd hb hlt]

/-! ### Widening a word (R38) -/

section
variable {N w : Nat} (hw : w < 2 ^ (N + 1)) (h0 : w ≠ 0) (hnar : w ≠ 2 ^ N)
include hw h0 hnar

/-- The magnitude of a word that is neither zero nor NaR fits behind the sign. -/
theorem positAbs_bounds : 0 < positAbs N w ∧ positAbs N w < 2 ^ N ∧ positAbs N w = if 2 ^ N < w then 2 ^ (N + 1) - w else w := by
  have hlt : (if 2 ^ N < w then 2 ^ (N + 1) - w else w) < 2 ^ N := by rw [pow_succ]; split <;> omega
  rw [positAbs, Nat.mod_eq_of_lt hlt]
  refine ⟨?_, hlt, rfl⟩
  split <;> omega

theorem positAbs_widen (d : Nat) : positAbs (N + d) (w * 2 ^ d) = positAbs N w * 2 ^ d := by
  obtain ⟨-, hlt, heq⟩ := positAbs_bounds hw h0 hnar
  have hpos : 0 < 2 ^ d := by positivity
  have hwide : positAbs N w * 2 ^ d < 2 ^ (N + d) := by
    rw [pow_add]
    exact Nat.mul_lt_mul_of_pos_right hlt hpos
  rw [← Nat.mod_eq_of_lt hwide, heq, positAbs, show N + d + 1 = N + 1 + d by omega, pow_add 2 N, pow_add 2 (N + 1)]
  simp only [Nat.mul_lt_mul_right hpos, ite_mul, Nat.sub_mul]

/-- The magnitude with its sign is the word. -/
theorem positSign_positAbs (d : Nat) :
    positSign (N + d + 1) (decide (2 ^ N < w)) (positAbs N w * 2 ^ d) = w * 2 ^ d := by
  obtain ⟨-, -, heq⟩ := positAbs_bounds hw h0 hnar
  have hpow : 2 ^ (N + d + 1) = 2 ^ (N + 1) * 2 ^ d := by rw [← pow_add]; congr 1; omega
  rw [positSign, heq, hpow]
  by_cases hneg : 2 ^ N < w
  · have hsub : 2 ^ (N + 1) - (2 ^ (N + 1) - w) = w := by omega
    simp only [hneg, decide_true, if_true, ← Nat.sub_mul, hsub]
    exact Nat.mod_eq_of_lt (Nat.mul_lt_mul_of_pos_right hw (by positivity))
  · simp [hneg]

end

/-- The wider word of a NaR word is the wider NaR. -/
theorem narWord_widen (N d : Nat) : narWord (N + d + 1) = narWord (N + 1) * 2 ^ d := pow_add 2 N d

theorem decodePosit_zero (n : Nat) : decodePosit n 0 = .num false 0 0 := by simp [decodePosit]

theorem decodePosit_narWord (n : Nat) : decodePosit n (narWord n) = .nan := by simp [decodePosit, narWord]

/-- R38: the value rounds to the word with zero bits behind it. -/
theorem roundPosit_decodePosit_widen {N d w : Nat} (hN : 0 < N) (hd : 3 ≤ d) (hw : w < 2 ^ (N + 1)) :
    (roundPosit (N + d + 1) (decodePosit (N + 1) w)).1 = w * 2 ^ d := by
  by_cases h0 : w = 0
  · subst h0
    simp [decodePosit_zero, roundPosit, roundPositNum]
  by_cases hnar : w = narWord (N + 1)
  · subst hnar
    rw [decodePosit_narWord, roundPosit, narWord_widen]
  · obtain ⟨hpos, hlt, -⟩ := positAbs_bounds hw h0 hnar
    rw [decodePosit_eq, if_neg h0, if_neg (c := w = 2 ^ N) hnar, roundPosit, roundPositNum_widen _ hN hd hpos hlt,
      positSign_positAbs hw h0 hnar]

/-- R38: the word with zero bits behind it stands for the same number, written with as many more fraction bits as the word has. -/
theorem decodePosit_widen_num {N d w : Nat} (hN : 0 < N) (hd : 0 < d) (hw : w < 2 ^ (N + 1)) {neg : Bool} {mag : Nat} {e : Int}
    (hnum : decodePosit (N + 1) w = .num neg mag e) :
    ∃ k : Nat, decodePosit (N + d + 1) (w * 2 ^ d) = .num neg (mag * 2 ^ k) (e - k) := by
  by_cases h0 : w = 0
  · subst h0
    rw [decodePosit_zero] at hnum
    cases hnum
    exact ⟨0, by simp [decodePosit_zero]⟩
  by_cases hnar : w = 2 ^ N
  · subst hnar
    cases (decodePosit_narWord (N + 1)).symm.trans hnum
  · obtain ⟨hpos, hlt, -⟩ := positAbs_bounds hw h0 hnar
    have hd0 : 0 < 2 ^ d := by positivity
    have hle := positFracBits_le_widen hN hd hpos hlt
    rw [decodePosit_eq, if_neg h0, if_neg hnar] at hnum
    cases hnum
    refine ⟨positFracBits (N + d) (positAbs N w * 2 ^ d) - positFracBits N (positAbs N w), ?_⟩
    rw [decodePosit_eq, positAbs_widen hw h0 hnar, positRegime_widen hN hd hpos hlt, positExp_widen hN hd hpos hlt,
      significand_widen hN hd hpos hlt, pow_add 2 N, if_neg (by positivity), if_neg (by simpa [hd0.ne'] using hnar)]
    simp only [Nat.mul_lt_mul_right hd0, FVal.num.injEq, true_and]
    omega

/-- R38: the word of NaR with zero bits behind it is NaR. -/
theorem decodePosit_widen_nan {N d w : Nat} (hnan : decodePosit (N + 1) w = .nan) : decodePosit (N + d + 1) (w * 2 ^ d) = .nan := by
  have hw : w = narWord (N + 1) := by
    by_contra hnar
    rw [decodePosit_eq, if_neg (c := w = 2 ^ N) hnar] at hnan
    split at hnan <;> cases hnan
  rw [hw, ← narWord_widen, decodePosit_narWord]

/-- Settles O1: each pair of formats is a width and the zero bits added to it. -/
theorem positWidening : Obligations.PositWidening := by
  intro n m w hpair hw
  obtain ⟨N, d, rfl, rfl, hN, hd⟩ : ∃ N d, n = N + 1 ∧ m = N + d + 1 ∧ 0 < N ∧ 3 ≤ d := by
    simp only [List.mem_cons, Prod.mk.injEq, List.not_mem_nil, or_false] at hpair
    rcases hpair with ⟨rfl, rfl⟩ | ⟨rfl, rfl⟩ | ⟨rfl, rfl⟩
    · exact ⟨7, 8, by decide⟩
    · exact ⟨7, 24, by decide⟩
    · exact ⟨15, 16, by decide⟩
  rw [show N + d + 1 - (N + 1) = d by omega]
  exact ⟨roundPosit_decodePosit_widen hN hd hw, decodePosit_widen_nan, fun _ _ _ => decodePosit_widen_num hN (by omega) hw⟩

end Sys2Proof.Machine
end

