-- ==== Sys2Proof/Proofs/StorageCodes.lean ====
section
/-! PROOF. The integers of the storage codes (R44). -/

namespace Sys2Proof.Machine

/-- A storage code of `n + 1` bits is the two's-complement integer of its bits, but for the NaR code. -/
theorem decodeStore_eq {n v : Nat} (hv : v < 2 ^ (n + 1)) :
    decodeStore (n + 1) v =
      if v = narWord (n + 1) then .nan else FVal.ofInt (if v < 2 ^ n then (v : Int) else (v : Int) - 2 ^ (n + 1)) 0 := by
  have hcast : ((2 ^ (n + 1) : Nat) : Int) = 2 ^ (n + 1) := by push_cast; rfl
  unfold decodeStore narWord
  simp only [Nat.add_sub_cancel]
  rcases lt_trichotomy v (2 ^ n) with hlt | rfl | hgt
  · simp [hlt, hlt.ne, hlt.not_gt, FVal.ofInt]
  · simp
  · rw [if_neg hgt.ne', if_pos hgt, if_neg hgt.ne', if_neg hgt.not_gt, FVal.ofInt, ← hcast]
    congr 1
    · exact (decide_eq_true (by omega)).symm
    · omega

/-- Settles O2: int4 and int8 are the storage codes of 4 and 8 bits. -/
theorem integerCodes : Obligations.IntegerCodes :=
  ⟨fun _ hw => decodeStore_eq (n := 3) hw, fun _ hw => decodeStore_eq (n := 7) hw⟩

end Sys2Proof.Machine
end

