-- ==== Sys2Proof/Proofs/EngineCore.lean ====
section
/-! PROOF. What the shared operations of an engine leave of its program counters, pass indices, waiting CRECVs and pair slots. -/

namespace Sys2Proof.Machine

-- One proof at a time, as in the tests: proofs that wait for one another would each hold a stack.
set_option Elab.async false

/-! ### What a change keeps -/

/-- The engines' places and the chain transfers are kept, and of every engine what `π` reads. -/
structure Keeps {α : Type} (π : Eng → α) (s t : State) : Prop where
  store : t.store = s.store
  chains : t.chains = s.chains
  engs : ∀ k, π (eng t k) = π (eng s k)

/-- The counters of a segment that its instructions move: its program counter and its pass index. -/
def SegSt.counters (x : SegSt) : SegSt := { pc := x.pc, passIdx := x.passIdx }

/-- An engine without its segments' records but for the counters. -/
def Eng.bare (e : Eng) : Eng := { e with rt := e.rt.counters, bg := e.bg.counters }

/-- The counters of an engine's segments, its waiting CRECVs and its pair slots. -/
def Eng.core (e : Eng) : Eng := { rt := e.rt.counters, bg := e.bg.counters, recvs := e.recvs, slots := e.slots }

section
variable {α β : Type} {π : Eng → α} {ρ : Eng → β} {s t u : State}

theorem Keeps.refl (π : Eng → α) (s : State) : Keeps π s s := ⟨rfl, rfl, fun _ => rfl⟩

theorem Keeps.trans (h : Keeps π s t) (k : Keeps π t u) : Keeps π s u :=
  ⟨k.store.trans h.store, k.chains.trans h.chains, fun x => (k.engs x).trans (h.engs x)⟩

/-- What `π` reads settles what `ρ` reads. -/
theorem Keeps.mono (h : Keeps π s t) (hρ : ∀ e e', π e = π e' → ρ e = ρ e') : Keeps ρ s t :=
  ⟨h.store, h.chains, fun k => hρ _ _ (h.engs k)⟩

theorem Keeps.core (h : Keeps Eng.bare s t) : Keeps Eng.core s t := h.mono fun e e' he => (congrArg Eng.core he : e.bare.core = e'.bare.core)

theorem Keeps.storeKey (h : Keeps π s t) (l : Nat) : storeKey t l = storeKey s l := by
  unfold Machine.storeKey
  rw [h.store]

theorem eng_of_engs (h : t.engs = s.engs) (k : Nat) : eng t k = eng s k := by unfold eng; rw [h]

/-- An update that leaves the engines alone. -/
theorem keeps_of_engs (hstore : t.store = s.store) (hchains : t.chains = s.chains) (hengs : t.engs = s.engs) : Keeps π s t :=
  ⟨hstore, hchains, fun k => congrArg π (eng_of_engs hengs k)⟩

theorem LogOnly.keeps (h : LogOnly s t) : Keeps π s t := keeps_of_engs h.store h.chains h.engs

theorem engMod_keeps (k : Nat) (f : Eng → Eng) (s : State) (hf : ∀ e, π (f e) = π e := by intro; rfl) : Keeps π s (engMod k f s) :=
  ⟨rfl, rfl, fun k' => by
    rw [eng_engMod]
    split
    · next hk => rw [hk]; exact hf _
    · rfl⟩

theorem jobMod_keeps (j : Nat) (f : Job → Job) (s : State) : Keeps π s (jobMod j f s) := keeps_of_engs rfl rfl rfl

theorem takeFree_keeps (s : State) : Keeps π s (takeFree s).2 := keeps_of_engs rfl rfl rfl

theorem whenS_keeps {c : Bool} {f : State → State} (h : ∀ s, Keeps π s (f s)) (s : State) : Keeps π s (whenS c f s) := by
  cases c
  · exact Keeps.refl π s
  · exact h s

theorem foldS_keeps {β : Type} {f : β → State → State} (h : ∀ a s, Keeps π s (f a s)) (l : List β) (s : State) :
    Keeps π s (foldS l f s) := by
  induction l generalizing s with
  | nil => exact Keeps.refl π s
  | cons a t ih => exact (h a s).trans (ih (f a s))

end

theorem segMod_books (k : Nat) (g : Seg) (f : SegSt → SegSt) (s : State) (hf : ∀ x, (f x).counters = x.counters := by intro; rfl) :
    Keeps Eng.bare s (segMod k g f s) := by
  refine engMod_keeps k _ s fun e => ?_
  cases g <;> simp [Eng.segMod, Eng.bare, hf]

/-! ### Records: the registers, the logs, the jobs' and the segments' -/

theorem errEng_keeps {π : Eng → Eng} (ty sev l : Nat) (g : Seg) (block : Nat) (detail : List Nat) (s : State) :
    Keeps π s (errEng ty sev l g block detail s) := by
  unfold errEng
  refine Keeps.trans ?_ (errata_logOnly _ _).keeps
  split
  · split
    · exact jobMod_keeps _ _ _
    · exact Keeps.refl π s
  · exact Keeps.refl π s

theorem schedFault_books (k : Nat) (g : Seg) (pc cause cyc : Nat) (arrival : Bool) (s : State) :
    Keeps Eng.bare s (schedFault k g pc cause cyc arrival s) := by
  unfold schedFault
  refine Keeps.trans ?_ (raise_logOnly _ _ _).keeps
  refine Keeps.trans ?_ (segMod_books _ _ _ _)
  refine Keeps.trans ?_ (finc_logOnly _ _ _ _ _ _).keeps
  split
  · exact ((rset_logOnly _ _ _ _).trans (rset_logOnly _ _ _ _)).keeps
  · exact Keeps.refl _ s

theorem consume_keeps {π : Eng → Eng} (l : Nat) (g : Seg) (pc : Nat) (o : Nat × Option Nat) (m : Mark) (s : State) :
    Keeps π s (consume l g pc o m s) := by
  unfold consume
  split
  · exact Keeps.refl π s
  · split
    · exact Keeps.refl π s
    · split
      · exact Keeps.refl π s
      · exact jobMod_keeps _ _ _

theorem frameMod_keeps {π : Eng → Eng} (j : Nat) (fr : BitVec 64) (f : FrameSt → FrameSt) (s : State) :
    Keeps π s (frameMod j fr f s) := jobMod_keeps _ _ _

theorem uneat_keeps {π : Eng → Eng} (k : Nat) (g : Seg) (pc : Nat) (s : State) : Keeps π s (uneat k g pc s) := by
  unfold uneat
  cases (lengOf s k).bind fun l => ownerOf s l g with
  | none => exact Keeps.refl π s
  | some j => exact jobMod_keeps _ _ _

theorem numTrap_keeps {π : Eng → Eng} (k l : Nat) (g : Seg) (s : State) : Keeps π s (numTrap k l g s) :=
  ((finc_logOnly _ _ _ _ _ _).trans (raise_logOnly _ _ _)).keeps.trans (errEng_keeps _ _ _ _ _ _ _)

theorem statFail_keeps {π : Eng → Eng} (l : Nat) (g : Seg) (out : Option OutRec) (s : State) : Keeps π s (statFail l g out s) := by
  unfold statFail
  split
  · exact keeps_of_engs rfl rfl rfl
  · exact Keeps.refl π s

theorem uncountFlags_logOnly (k : Nat) (f : Flags) (s : State) : LogOnly s (uncountFlags k f s) :=
  foldS_logOnly _ (fun _ s => whenS_logOnly _ _ (fun t => fset_logOnly _ _ _ _ _ t) s) _ _

theorem passRecord_logOnly (k : Nat) (g : Seg) (pc cause m n kk : Nat) (idx : BitVec 20) (wt : BitVec 64) (s : State) :
    LogOnly s (passRecord k g pc cause m n kk idx wt s) := by
  unfold passRecord
  dsimp only
  split
  · exact LogOnly.refl s
  · exact (rset_logOnly _ _ _ _).trans ((rset_logOnly _ _ _ _).trans ((rset_logOnly _ _ _ _).trans
      ((rset64_logOnly _ _ _ _).trans (raise_logOnly _ _ _))))

theorem vecRecord_logOnly (k : Nat) (g : Seg) (pc cause j l st : Nat) (wt : BitVec 64) (s : State) :
    LogOnly s (vecRecord k g pc cause j l st wt s) := by
  unfold vecRecord
  dsimp only
  split
  · exact LogOnly.refl s
  · exact (rset_logOnly _ _ _ _).trans ((rset_logOnly _ _ _ _).trans ((rset64_logOnly _ _ _ _).trans (raise_logOnly _ _ _)))

theorem passEvent_logOnly (c : Ctx) (pol : Nat) (idx : BitVec 20) (els : List PassElem) (s : State) :
    LogOnly s (passEvent c pol idx els s) := by
  unfold passEvent
  split
  · split
    · exact LogOnly.refl s
    · exact passRecord_logOnly _ _ _ _ _ _ _ _ _ _
  · exact LogOnly.refl s

theorem unfillRec_logOnly (k : Nat) (f : Flight) (s : State) : LogOnly s (unfillRec k f s) := by
  unfold unfillRec
  split
  · exact foldS_logOnly _ (fun _ _ => rset_logOnly _ _ _ _) _ _
  · exact LogOnly.refl s

theorem untrap_logOnly (k : Nat) (s : State) : LogOnly s (untrap k s) := fset_logOnly _ _ _ _ _ _

theorem busyTo_books (k : Nat) (g : Seg) (t : Nat) (s : State) : Keeps Eng.bare s (busyTo k g t s) := segMod_books _ _ _ _

/-! ### Hold windows (R197) -/

theorem turnAway_core (k line : Nat) (g : Seg) (pc cyc : Nat) (arrival : Bool) (s : State) :
    Keeps Eng.core s (turnAway k line g pc cyc arrival s) :=
  (engMod_keeps _ _ _).trans (schedFault_books _ _ _ _ _ _ _).core

theorem cPut_core (k line : Nat) (l : Line) (m : Mark) (s : State) : Keeps Eng.core s (cPut k line l m s) := engMod_keeps _ _ _

theorem cMark_core (k line : Nat) (m : Mark) (s : State) : Keeps Eng.core s (cMark k line m s) := engMod_keeps _ _ _

theorem cMarks_core (k line n : Nat) (m : Mark) (s : State) : Keeps Eng.core s (cMarks k line n m s) :=
  foldS_keeps (fun _ _ => cMark_core _ _ _ _) _ _

theorem pendWrite_core (k : Nat) (w : LineW) (s : State) : Keeps Eng.core s (pendWrite k w s) := engMod_keeps _ _ _

theorem undoWrite_core (k cyc : Nat) (g : Seg) (o : OldLine) (s : State) : Keeps Eng.core s (undoWrite k cyc g o s) := by
  unfold undoWrite
  dsimp only
  split
  · exact ((cPut_core _ _ _ _ _).trans (engMod_keeps _ _ _)).trans (turnAway_core _ _ _ _ _ _ _)
  · exact ((cPut_core _ _ _ _ _).trans (engMod_keeps _ _ _)).trans (pendWrite_core _ _ _)

theorem openHolds_core (k : Nat) (g : Seg) (pc : Nat) (ls : List Loop) (cyc : Nat) (s : State) :
    Keeps Eng.core s (openHolds k g pc ls cyc s) :=
  (engMod_keeps _ _ _).trans (foldS_keeps (fun _ _ => undoWrite_core _ _ _ _ _) _ _)

theorem pendTo_core (k t : Nat) (s : State) : Keeps Eng.core s (pendTo k t s) :=
  (engMod_keeps _ _ _).trans (foldS_keeps (fun _ _ => turnAway_core _ _ _ _ _ _ _) _ _)

theorem endHolds_core (k t : Nat) (hit : HoldOpen → Bool) (s : State) : Keeps Eng.core s (endHolds k t hit s) := by
  unfold endHolds
  exact ((pendTo_core _ _ _).trans (engMod_keeps _ _ _)).trans
    ((foldS_keeps (fun _ _ => cMark_core _ _ _ _) _ _).trans (foldS_keeps (fun _ _ => cPut_core _ _ _ _ _) _ _))

/-! ### Issue and its bit errors (R171, Table 9-1) -/

theorem markSeg_core (k : Nat) (g : Seg) (since : Nat) (m : Mark) (s : State) : Keeps Eng.core s (markSeg k g since m s) := by
  unfold markSeg
  dsimp only
  exact (foldS_keeps (fun _ _ => cMark_core _ _ _ _) _ s).trans ((engMod_keeps _ _ _).trans ((engMod_keeps _ _ _).trans (engMod_keeps _ _ _)))

theorem seqFault_core (l : Nat) (g : Seg) (monitor : Nat) (cyc : Option Nat) (s : State) :
    Keeps Eng.core s (seqFault l g monitor cyc s) := by
  unfold seqFault
  dsimp only
  refine Keeps.trans ?_ (engMod_keeps _ _ _)
  refine Keeps.trans ?_ (whenS_keeps (foldS_keeps (fun _ _ => jobMod_keeps _ _ _) _) _)
  refine Keeps.trans ?_ (whenS_keeps (fun s => (markSeg_core _ _ _ _ s).trans (segMod_books _ _ _ _).core) _)
  have hrec := (takeFree_keeps (π := Eng.core) s).trans ((rset_logOnly (pgEng (storeKey s l) 0) 0x78
    (0x80000000#32 ||| BitVec.ofNat 32 monitor) (takeFree s).2).trans (raise_logOnly (pgEng (storeKey s l) 0) 1 _)).keeps
  split
  · exact (hrec.trans (errEng_keeps _ _ _ _ _ _ _)).trans (frameMod_keeps _ _ _ _)
  · exact hrec.trans (errEng_keeps _ _ _ _ _ _ _)

theorem upset_core (k l : Nat) (g : Seg) (pc cyc : Nat) (u : Upset) (s : State) : Keeps Eng.core s (upset k l g pc cyc u s) := by
  unfold upset
  split
  · exact (finc_logOnly _ _ _ _ _ _).keeps.trans (engMod_keeps _ _ _)
  · exact (takeFree_keeps s).trans (((finc_logOnly _ _ _ _ _ _).trans (rset_logOnly _ _ _ _)).keeps.trans
      ((cPut_core _ _ _ _ _).trans (errata_logOnly _ _).keeps))
  · exact (finc_logOnly _ _ _ _ _ _).keeps.trans (engMod_keeps _ _ _)
  · exact (finc_logOnly _ _ _ _ _ _).keeps.trans (engMod_keeps _ _ _)
  · exact Keeps.refl _ s
  · exact ((finc_logOnly _ _ _ _ _ _).trans (raise_logOnly _ _ _)).keeps.trans (engMod_keeps _ _ _)
  · exact (fset_logOnly _ _ _ _ _ _).keeps.trans (seqFault_core _ _ _ _ _)
  · exact seqFault_core _ _ _ _ _

/-- What the sequencer writes down of an instruction that issues (R171, R247). -/
def SegSt.issued (g : Seg) (pc cyc : Nat) (x : SegSt) : SegSt :=
  { x with pc := pc + 1, last := cyc, sig := if g = .rt then sigAdd pc x.sig else x.sig }

/-- The windows that open and the bit errors that strike as an instruction issues come after what the sequencer writes down of it. -/
theorem issue_keeps {u : EUnit} {rel : Nat} {h : IssueHdr} {s : State} {c : Ctx} (hc : issue u rel h s = some c) :
    Keeps Eng.core (segMod c.k h.seg (SegSt.issued h.seg c.pc c.cyc)
      (engMod c.k (fun e => { e with units := (u, c.cyc) :: e.units.filter fun p => decide (p.1 ≠ u) }) s)) c.s := by
  unfold issue at hc
  simp only at hc
  split at hc
  · cases hc
    exact (openHolds_core _ _ _ _ _ _).trans (foldS_keeps (fun u s => upset_core _ _ _ _ _ u s) _ _)
  · cases hc

/-- The counters of the segments after an instruction has issued: its own program counter has moved past its word (R171). -/
theorem issue_counters {u : EUnit} {rel : Nat} {h : IssueHdr} {s : State} {c : Ctx} (hc : issue u rel h s = some c) :
    ((eng c.s c.k).seg h.seg).counters = { ((eng s c.k).seg h.seg).counters with pc := ((eng s c.k).seg h.seg).pc + 1 } := by
  obtain ⟨-, -, -, hk, -, -, hpc, -⟩ := issue_some hc
  have hcore := (issue_keeps hc).engs c.k
  simp only [segMod, eng_engMod, if_true] at hcore
  rw [← hk] at hpc
  cases hg : h.seg
  · have := congrArg Eng.rt hcore
    simp only [hg] at hpc this
    simpa [Eng.core, Eng.segMod, SegSt.issued, SegSt.counters, Eng.seg, hpc] using this
  · have := congrArg Eng.bg hcore
    simp only [hg] at hpc this
    simpa [Eng.core, Eng.segMod, SegSt.issued, SegSt.counters, Eng.seg, hpc] using this

/-! ### Passes in flight: formed again, committed (R94) -/

theorem closeHolds_core (k : Nat) (g : Seg) (pc : Nat) (it : List Nat) (t : Nat) (s : State) :
    Keeps Eng.core s (closeHolds k g pc it t s) := endHolds_core _ _ _ _

theorem commitFlight_core (k : Nat) (f : Flight) (s : State) : Keeps Eng.core s (commitFlight k f s) :=
  (closeHolds_core _ _ _ _ _ _).trans (whenS_keeps (fun _ => engMod_keeps _ _ _) _)

theorem reform_core (k : Nat) (f : Flight) (s : State) : Keeps Eng.core s (reform k f s).2 := by
  unfold reform
  split
  · exact Keeps.refl _ s
  · extract_lets o kk c t els pol fls trap new later kept s1 s2 cols rows m unc q s3 s4 rec s5 s6 eaten s7 s8 note
    have hform : Keeps Eng.core s s2 := (engMod_keeps _ _ _).trans (whenS_keeps (fun _ => engMod_keeps _ _ _) _)
    have hcount : LogOnly s2 s5 := (fset_logOnly _ _ _ _ _ _).trans ((finc_logOnly _ _ _ _ _ _).trans
      ((uncountFlags_logOnly _ _ _).trans ((countFlags_logOnly _ _ _).trans ((unfillRec_logOnly _ _ _).trans (passEvent_logOnly _ _ _ _ _)))))
    have htrap : Keeps Eng.core s5 s6 :=
      (whenS_keeps (numTrap_keeps _ _ _) _).trans (whenS_keeps (fun _ => (untrap_logOnly _ _).keeps) _)
    have hpoison : Keeps Eng.core s6 s8 := (whenS_keeps (uneat_keeps _ _ _) _).trans (consume_keeps _ _ _ _ _ _)
    exact hform.trans (hcount.keeps.trans (htrap.trans hpoison))

theorem reformAt_core (k i : Nat) (s : State) : Keeps Eng.core s (reformAt k i s) := by
  unfold reformAt
  split
  · exact Keeps.refl _ s
  · split
    · exact Keeps.refl _ s
    · exact (reform_core _ _ _).trans (engMod_keeps _ _ _)

theorem commitOldest_core (k : Nat) (s : State) : Keeps Eng.core s (commitOldest k s) := by
  unfold commitOldest
  dsimp only
  split
  · exact reformAt_core _ _ _
  · exact (reformAt_core _ _ _).trans ((commitFlight_core _ _ _).trans (engMod_keeps _ _ _))

theorem commitTo_core (k t n : Nat) (s : State) : Keeps Eng.core s (commitTo k t n s) := by
  induction n generalizing s with
  | zero => exact Keeps.refl _ s
  | succ n ih =>
    unfold commitTo
    split
    · exact Keeps.refl _ s
    · split
      · exact (commitOldest_core _ _).trans (ih _)
      · exact Keeps.refl _ s

theorem freshTile_core (k : Nat) (s : State) : Keeps Eng.core s (freshTile k s) := by
  unfold freshTile
  split
  · exact engMod_keeps _ _ _
  · exact Keeps.refl _ s

theorem settle_core (k t : Nat) (s : State) : Keeps Eng.core s (settle k t s) :=
  (commitTo_core _ _ _ _).trans (freshTile_core _ _)

theorem revealChk_books (c : Ctx) (s : State) : Keeps Eng.bare s (revealChk c s) := by
  unfold revealChk
  split
  · exact Keeps.refl _ s
  · exact (schedFault_books _ _ _ _ _ _ _).trans (segMod_books _ _ _ _)

/-! ### Ports taken and lost (R88, R149) -/

theorem tagSet_core (k n : Nat) (t : TagE) (s : State) : Keeps Eng.core s (tagSet k n t s) := by
  unfold tagSet
  split
  · exact Keeps.refl _ s
  · exact engMod_keeps _ _ _

theorem tagClear_core (k n : Nat) (s : State) : Keeps Eng.core s (tagClear k n s) := tagSet_core _ _ _ _

theorem failBlock_core (k : Nat) (w : RecWr) (s : State) : Keeps Eng.core s (failBlock k w s) := by
  unfold failBlock
  have hmark := (engMod_keeps (π := Eng.core) k (fun e => { e with recWrs := e.recWrs.erase w }) s).trans
    ((cMark_core k w.line mkFailed _).trans (tagClear_core k w.tag _))
  dsimp only
  split
  · exact hmark.trans (statFail_keeps _ _ _ _)
  · exact hmark

theorem vecLose_core (k cyc : Nat) (p : VecRun) (s : State) : Keeps Eng.core s (vecLose k cyc p s) := by
  unfold vecLose
  extract_lets v later aft s1 s2 s3 s4 s5 s6 s7
  have hlines : Keeps Eng.core s s2 := (schedFault_books _ _ _ _ _ _ _).core.trans
    (foldS_keeps (fun _ _ => whenS_keeps (fun _ => cPut_core _ _ _ _ _) _) _ _)
  have hblocks : Keeps Eng.core s2 s3 := foldS_keeps (fun _ _ => failBlock_core _ _ _) _ _
  have hcounts : LogOnly s3 s6 := (uncountFlags_logOnly _ _ _).trans ((foldS_logOnly _ (fun _ _ => rset_logOnly _ _ _ _) _ _).trans
    (whenS_logOnly _ _ (fun _ => fset_logOnly _ _ _ _ _ _) _))
  exact hlines.trans (hblocks.trans (hcounts.keeps.trans ((whenS_keeps (uneat_keeps _ _ _) _).trans (engMod_keeps _ _ _))))

theorem loseClaim_core (k cyc : Nat) (x : Claim) (s : State) : Keeps Eng.core s (loseClaim k cyc x s) := by
  unfold loseClaim
  split
  · split
    · exact vecLose_core _ _ _ _
    · exact Keeps.refl _ s
  · exact ((schedFault_books _ _ _ _ _ _ _).trans (segMod_books _ _ _ _)).core
  · exact (schedFault_books _ _ _ _ _ _ _).core.trans (engMod_keeps _ _ _)
  · exact Keeps.refl _ s

theorem arrayClaims_core (k cyc : Nat) (cs : List Claim) (s : State) : Keeps Eng.core s (arrayClaims k cyc cs s) :=
  (engMod_keeps _ _ _).trans (foldS_keeps (fun _ _ => loseClaim_core _ _ _ _) _ _)

end Sys2Proof.Machine
end

