-- ==== Sys2Proof/Proofs/ChainArrival.lean ====
section
/-! PROOF. CHAIN_ARRIVAL (R76, R79, R193): the transfer, the waiting CRECV and the element that one value changes. -/

namespace Sys2Proof.Machine

-- One proof at a time, as in the tests: proofs that wait for one another would each hold a stack.
set_option Elab.async false

/-! ### Running drains and banks (R102) -/

/-- The core of an engine with its bank halves. -/
def Eng.coreBank (e : Eng) : Eng := { e.core with arr := { half0 := e.arr.half0, half1 := e.arr.half1 } }

theorem Keeps.bank {s t : State} (h : Keeps Eng.bare s t) : Keeps Eng.coreBank s t :=
  h.mono fun e e' he => (congrArg Eng.coreBank he : e.bare.coreBank = e'.bare.coreBank)

theorem Keeps.arr {s t : State} (h : Keeps Eng.bare s t) (k : Nat) : (eng t k).arr = (eng s k).arr :=
  (congrArg (fun e : Eng => e.arr) (h.engs k) : (eng t k).bare.arr = (eng s k).bare.arr)

theorem Keeps.coreOfBank {s t : State} (h : Keeps Eng.coreBank s t) : Keeps Eng.core s t :=
  h.mono fun e e' he => (congrArg Eng.core he : e.coreBank.core = e'.coreBank.core)

theorem Keeps.half {s t : State} (h : Keeps Eng.coreBank s t) (k : Nat) (b : Bool) : (eng t k).arr.half b = (eng s k).arr.half b := by
  cases b
  · exact (congrArg (fun e : Eng => e.arr.half0) (h.engs k) : (eng t k).coreBank.arr.half0 = (eng s k).coreBank.arr.half0)
  · exact (congrArg (fun e : Eng => e.arr.half1) (h.engs k) : (eng t k).coreBank.arr.half1 = (eng s k).coreBank.arr.half1)

theorem redrain_bank (k i : Nat) (s : State) : Keeps Eng.coreBank s (redrain k i s) := by
  unfold redrain
  split
  · exact Keeps.refl _ s
  · split
    · exact Keeps.refl _ s
    · extract_lets o dst c els t traps was fl ls s1 s2 s3 eaten s4 trig d' s5
      have hlines : Keeps Eng.coreBank s s1 := by
        refine foldS_keeps (fun x s => ?_) _ _
        dsimp only
        split
        · exact Keeps.refl _ s
        · exact engMod_keeps _ _ _
      have hcount : LogOnly s1 s2 := (uncountFlags_logOnly _ _ _).trans (countFlags_logOnly _ _ _)
      have htrap : Keeps Eng.coreBank s2 s3 :=
        (whenS_keeps (numTrap_keeps _ _ _) _).trans (whenS_keeps (fun _ => (untrap_logOnly _ _).keeps) _)
      have hrec : Keeps Eng.coreBank s4 s5 := engMod_keeps _ _ _
      exact hlines.trans (hcount.keeps.trans (htrap.trans ((consume_keeps _ _ _ _ _ _).trans (hrec.trans (engMod_keeps _ _ _)))))

theorem redrainElem_bank (k : Nat) (h : Bool) (key cyc : Nat) (e : Elem) (widen : Half → Half) (s : State) :
    Keeps Eng.coreBank s (redrainElem k h key cyc e widen s) :=
  (engMod_keeps _ _ _).trans (foldS_keeps (redrain_bank _) _ _)

theorem cWrite_core (k line : Nat) (l : Line) (m : Mark) (pc cyc : Nat) (arrival : Bool) (s : State) :
    Keeps Eng.core s (cWrite k line l m pc cyc arrival s) := by
  unfold cWrite
  split
  · exact (engMod_keeps _ _ _).trans (cPut_core _ _ _ _ _)
  · exact turnAway_core _ _ _ _ _ _ _

theorem landLine_core (k line : Nat) (l : Line) (m : Mark) (cyc : Nat) (s : State) : Keeps Eng.core s (landLine k line l m cyc s) :=
  (cWrite_core _ _ _ _ _ _ _ _).trans (foldS_keeps (fun _ _ => (redrain_bank _ _ _).coreOfBank) _ _)

/-! ### The waiting CRECVs -/

/-- The numbers of an engine's waiting CRECVs. -/
def Eng.recvIds (e : Eng) : List Nat := e.recvs.map (·.id)

theorem Keeps.recvIds {s t : State} (h : Keeps Eng.core s t) : Keeps Eng.recvIds s t :=
  h.mono fun e e' he => (congrArg Eng.recvIds he : e.core.recvIds = e'.core.recvIds)

theorem failRecv_core (k : Nat) (r : Recv) (s : State) : Keeps Eng.core s (failRecv k r s) := by
  unfold failRecv
  split
  · exact cMarks_core _ _ _ _ _
  · exact engMod_keeps _ _ _

theorem recvLate_recvIds (l k : Nat) (r : Recv) (actual : Nat) (s : State) : Keeps Eng.recvIds s (recvLate l k r actual s) := by
  unfold recvLate
  split
  · exact Keeps.refl _ s
  · refine ((errata_logOnly _ _).keeps.trans (failRecv_core _ _ _).recvIds).trans (engMod_keeps _ _ _ fun e => ?_)
    simp only [Eng.recvIds, List.map_map]
    refine List.map_congr_left fun x _ => ?_
    dsimp only [Function.comp]
    split <;> rfl

/-- A changed CRECV is put back in its place, unless it has all its values. -/
theorem mem_recvPut {k : Nat} {r : Recv} {s : State} (hid : r.id ∈ (eng s k).recvIds) (hgot : r.got < r.n) :
    r ∈ (eng (recvPut k r s) k).recvs := by
  obtain ⟨x, hx, hxid⟩ := List.mem_map.1 hid
  rw [recvPut, eng_engMod, if_pos rfl]
  exact List.mem_filter.2 ⟨List.mem_map.2 ⟨x, hx, if_pos hxid⟩, decide_eq_true hgot⟩

theorem arr_recvPut (k : Nat) (r : Recv) (s : State) (k' : Nat) : (eng (recvPut k r s) k').arr = (eng s k').arr :=
  (engMod_keeps (π := Eng.arr) _ _ _).engs k'

theorem mem_of_recvOf {s : State} {k : Nat} {sk : Bool} {src ch : Nat} {wt : BitVec 64} {r : Recv}
    (h : recvOf s k sk src ch wt = some r) : r ∈ (eng s k).recvs := by
  refine List.mem_of_mem_filter (p := fun r => decide (r.sk = sk) && decide (r.src = src) && decide (r.ch = ch)) ?_
  unfold recvOf at h
  extract_lets l at h
  cases hwt : l.find? fun r => decide (r.wt = wt) with
  | some y =>
    rw [hwt] at h
    cases h
    exact List.mem_of_find?_eq_some hwt
  | none =>
    rw [hwt] at h
    cases htime : l.find? fun r => !r.late with
    | some y =>
      rw [htime] at h
      cases h
      exact List.mem_of_find?_eq_some htime
    | none =>
      rw [htime] at h
      exact List.mem_of_head? h

/-! ### One value lands -/

/-- The values a CRECV has once a value has landed: a transfer that ends leaves it none to wait for. -/
def Recv.gotNext (r : Recv) (last : Bool) : Nat := if last then r.n else r.got + 1

/-- A value that lands leaves its CRECV with one value more, or with all where the transfer ends; before that, the core of no engine has
changed but for a CRECV that is late from now on. -/
theorem chainLand_eq_recvPut (l k : Nat) (r : Recv) (i : Nat) (v : ChainV) (terms : Nat) (last : Bool) (cyc : Nat) (s : State) :
    ∃ w late, chainLand l k r i v terms last cyc s = recvPut k { r with got := r.gotNext last, late := late } w ∧
      Keeps Eng.recvIds s w := by
  unfold chainLand
  extract_lets got done refuse sLate m cyc' sPort b s1 a hf busy gen hf' vec outside t key old s2 jb base widen
  have hrefuse (cause : Nat) (s : State) : Keeps Eng.recvIds s (refuse cause s) :=
    ((schedFault_books _ _ _ _ _ _ _).core.trans (failRecv_core _ _ _)).recvIds
  have hsettle : Keeps Eng.core s s1 := settle_core _ _ _
  have hport : Keeps Eng.core s sPort := engMod_keeps _ _ _
  split
  · exact ⟨_, true, rfl, recvLate_recvIds _ _ _ _ _⟩
  split
  · exact ⟨_, r.late, rfl, hrefuse _ _⟩
  split
  · exact ⟨_, r.late, rfl, (hport.trans ((consume_keeps _ _ _ _ _ _).trans ((takeFree_keeps _).trans
      ((landLine_core _ _ _ _ _ _).trans (segMod_books _ _ _ _).core)))).recvIds⟩
  split
  · exact ⟨_, r.late, rfl, hsettle.recvIds.trans (hrefuse _ _)⟩
  split
  · exact ⟨_, r.late, rfl, hsettle.recvIds.trans (hrefuse _ _)⟩
  split
  next e fl was _ =>
  extract_lets trap e' s3 s4 s5 s6
  have hfed : Keeps Eng.core s s2 := hsettle.trans (consume_keeps _ _ _ _ _ _)
  have hcount : LogOnly s2 s3 := (uncountFlags_logOnly _ _ _).trans (countFlags_logOnly _ _ _)
  have htrap : Keeps Eng.core s3 s4 :=
    (whenS_keeps (numTrap_keeps _ _ _) _).trans (whenS_keeps (fun _ => (untrap_logOnly _ _).keeps) _)
  have hput : Keeps Eng.core s4 s5 := engMod_keeps _ _ _
  have hdrains : Keeps Eng.core s5 s6 := (redrainElem_bank _ _ _ _ _ _ _).coreOfBank
  exact ⟨_, r.late, rfl, (hfed.trans (hcount.keeps.trans (htrap.trans (hput.trans (hdrains.trans
    (segMod_books _ _ _ _).core))))).recvIds⟩

/-- A half of a quire format takes chain adds as it stands (R99). -/
theorem Half.widen_of_quire {x : Half} {t : Tag} (htag : x.tag = some t) (ht : t = .q8 ∨ t = .q16) : x.widen = x := by
  unfold Half.widen
  rcases ht with rfl | rfl <;> rw [htag]

/-- With no pass in flight, what the array holds in a cycle is what it holds, but for a tile still being loaded. -/
theorem settle_half {k : Nat} (t : Nat) {s : State} (hidle : (eng s k).arr.flights = []) (b : Bool) :
    (eng (settle k t s) k).arr.half b = (eng s k).arr.half b ∧ (eng (settle k t s) k).arr.flights = [] := by
  have hcommit : commitTo k t (eng s k).arr.flights.length s = s := by rw [hidle]; rfl
  unfold settle freshTile
  rw [hcommit]
  split
  · rw [arrMod, eng_engMod, if_pos rfl]
    exact ⟨by cases b <;> rfl, hidle⟩
  · exact ⟨rfl, hidle⟩

theorem half_arrMod_self (k : Nat) (h : Bool) (f : Half → Half) (s : State) :
    (eng (arrMod k (fun a => a.halfMod h f) s) k).arr.half h = f ((eng s k).arr.half h) := by
  rw [arrMod, eng_engMod, if_pos rfl]
  cases h <;> rfl

/-- R76: a value that comes in time to an idle half of a quire format, within its vectors and its term count, is added exactly. -/
theorem chainLand_adds (l k : Nat) {r : Recv} {i : Nat} {v : ChainV} {terms : Nat} (last : Bool) {cyc : Nat} {s : State} {tg : Tag}
    (hbank : r.tgt = false) (hon : r.late = false) (hdue : cyc ≤ r.due) (hi : i < r.n) (hidle : (eng s k).arr.flights = [])
    (htag : ((eng s k).arr.half r.half).tag = some tg) (hquire : tg = .q8 ∨ tg = .q16) (hfmt : v.fmt = tagQuire tg)
    (hcap : r.base + i / 64 < tagCap tg) (hterms : ((eng s k).arr.half r.half).terms + terms ≤ 2 ^ 31 - 1) :
    (((eng (chainLand l k r i v terms last cyc s) k).arr.half r.half).elem (r.base + i / 64) (i % 64)).val =
      (chainAdd tg (((eng s k).arr.half r.half).elem (r.base + i / 64) (i % 64)).val v).1 := by
  obtain ⟨hsame, hnone⟩ := settle_half cyc hidle r.half
  unfold chainLand
  extract_lets got done refuse sLate m cyc' sPort b s1 a hf busy gen hf' vec outside t key old s2 jb base widen
  have hhf : hf = (eng s k).arr.half r.half := hsame
  have hhf' : hf' = hf := by
    show (if _ then _ else _) = hf
    rw [Half.widen_of_quire (hhf ▸ htag) hquire, ite_self]
  have ht : t = tg := by
    show hf'.tag.getD _ = tg
    rw [hhf', hhf, htag]
    rfl
  have hbusy : busy = false := by
    show List.any (eng s1 k).arr.flights _ = false
    rw [hnone]
    rfl
  have htag' : hf'.tag = some tg := by rw [hhf', hhf, htag]
  have hin : outside = false := by
    simp only [outside, htag', decide_eq_false_iff_not, not_le]
    exact hcap
  have hfits : chainFits v.fmt hf'.tag = true := by
    rw [htag', hfmt]
    rcases hquire with rfl | rfl <;> rfl
  have hcount : hf'.terms + terms ≤ 2 ^ 31 - 1 := by rw [hhf', hhf]; exact hterms
  have hexact : t ≠ .ieee := by
    rw [ht]
    rcases hquire with rfl | rfl <;> decide
  rw [if_neg (by simp [hon, hdue]), if_neg (by omega), if_neg (by simp [hbank]), if_neg (by simp [hbusy]),
    if_neg (by simp [hfits, hin]; omega), if_neg hexact]
  rcases hadd : chainAdd t old.val v with ⟨x, fl⟩
  dsimp -zeta only
  extract_lets trap e' s3 s4 s5 s6
  have hput : (eng s5 k).arr.half r.half = _ := half_arrMod_self k r.half _ s4
  have hdrains : Keeps Eng.coreBank s5 s6 := redrainElem_bank _ _ _ _ _ _ _
  have hlast (s7 : State) (hbook : Keeps Eng.bare s6 s7) : (eng (done s7) k).arr.half r.half = (eng s5 k).arr.half r.half := by
    rw [arr_recvPut, hbook.bank.half, hdrains.half]
  have hold : old = ((eng s k).arr.half r.half).elem (r.base + i / 64) (i % 64) := by
    show Half.elem hf' _ _ = _
    rw [hhf', hhf]
  refine (congrArg (fun x : Half => (x.elem (r.base + i / 64) (i % 64)).val) ((hlast _ (segMod_books _ _ _ _)).trans hput)).trans ?_
  show (tabGet (fun _ => ({} : Elem)) (tabSet (fun _ => {}) hf'.elems key e') key).val = _
  rw [tabGet_tabSet_self, ← hold, ← ht, hadd]

/-! ### The arrival -/

/-- A SCHED_FAULT is counted on the engine's SEQ page (R188, R398). -/
theorem fget_schedFault_count (k : Nat) (g : Seg) (pc cause cyc : Nat) (arrival : Bool) (s : State) :
    fget (schedFault k g pc cause cyc arrival s) (pgEng k 0) 0x68 0 32 = min (fget s (pgEng k 0) 0x68 0 32 + 1) (2 ^ 32 - 1) := by
  have hvil : pgEng k 0 ≠ pgVilri := by
    unfold pgEng pgVilri
    omega
  have hidx {off : Nat} (hne : 0x68 / 4 ≠ off / 4) : ridx (pgEng k 0) 0x68 ≠ ridx (pgEng k 0) off := by
    unfold ridx
    omega
  have hfirst (s : State) : fget (if fget s (pgEng k 0) 0x60 31 1 = 0 then
      rset (pgEng k 0) 0x64 (BitVec.ofNat 32 (cyc - (eng s k).cyc0))
        (rset (pgEng k 0) 0x60 (BitVec.ofNat 32 (pc % 2 ^ 16 + cause * 2 ^ 16 + (if g = .bg then 1 else 0) * 2 ^ 24 +
          b2n arrival * 2 ^ 25 + 2 ^ 31)) s) else s) (pgEng k 0) 0x68 0 32 = fget s (pgEng k 0) 0x68 0 32 := by
    split
    · rw [fget, rget_rset, if_neg (hidx (by decide)), rget_rset, if_neg (hidx (by decide))]
      rfl
    · rfl
  unfold schedFault
  extract_lets p gb s1 s2 s3
  rw [fget, rget_raise_of_ne hvil (by decide) (hidx (by decide))]
  change fget s2 p 0x68 0 32 = _
  rw [show s2 = fset p 0x68 0 32 (min (fget s1 p 0x68 0 32 + 1) (2 ^ 32 - 1)) s1 from rfl, fget_fset_self _ _ _ _ _ _ (by decide) (by omega),
    show fget s1 p 0x68 0 32 = _ from hfirst s]

/-- The state once the next value of the oldest transfer has left it; the last one ends it. -/
def State.sendHead (x : ChainX) (rest : List ChainX) (s : State) : State :=
  { s with chains := if x.vals.length ≤ x.sent + 1 then rest else { x with sent := x.sent + 1 } :: rest }

/-- The next value of the oldest transfer leaves it; an engine without a CRECV for it faults. -/
theorem doChainArrival_head {l src ch cyc : Nat} {s : State} {x : ChainX} {rest : List ChainX} {v : ChainV} (hrun : frozen s l = false)
    (hhead : s.chains = x :: rest) (hsrc : x.src = src) (hdst : x.dst = l) (hch : x.ch = ch) (hv : x.vals[x.sent]? = some v) :
    doChainArrival l src ch cyc s =
      match recvOf s (storeKey s l) false src ch x.wt with
      | none => schedFault (storeKey s l) (job s x.job).seg 0 0x07 cyc true (s.sendHead x rest)
      | some r => chainLand l (storeKey s l) r x.sent v x.terms (decide (x.vals.length ≤ x.sent + 1)) cyc (s.sendHead x rest) := by
  have hfirst : s.chains.findIdx? (fun x => decide (x.src = src) && decide (x.dst = l) && decide (x.ch = ch)) = some 0 := by
    simp [hhead, List.findIdx?_cons, hsrc, hdst, hch]
  unfold doChainArrival
  rw [hrun, hfirst, if_neg Bool.false_ne_true]
  simp only [hhead, List.getElem?_cons_zero, hv, dropAt, List.take_zero, List.nil_append, zero_add, List.drop_succ_cons, List.drop_zero,
    List.set_cons_zero, decide_eq_true_eq, State.sendHead]
  rfl

/-- Settles O29: a value that lands ends in putting its CRECV back (`chainLand_eq_recvPut`), and its exact add is the one write of
its element that the running drains do not touch. -/
theorem chainArrives : Obligations.ChainArrives := by
  intro l src ch cyc s x rest v
  refine ⟨fun hstop => ?_, fun hrun hhead hsrc hdst hch hv => ⟨doChainArrival l.toNat src.toNat ch.toNat cyc s, rfl, ?_⟩⟩
  · show Host.Outcome.next (doChainArrival l.toNat src.toNat ch.toNat cyc s) = _
    rw [doChainArrival, if_pos hstop]
  rw [doChainArrival_head hrun hhead hsrc hdst hch hv]
  cases hrecv : recvOf s (storeKey s l.toNat) false src.toNat ch.toNat x.wt with
  | none =>
    dsimp only
    have hbooks := schedFault_books (storeKey s l.toNat) (job s x.job).seg 0 0x07 cyc true (s.sendHead x rest)
    refine ⟨hbooks.chains, fun _ => ⟨hbooks.arr (storeKey s l.toNat), fget_schedFault_count _ _ _ _ _ _ _⟩, fun r hr => nomatch hr⟩
  | some r =>
    dsimp only
    obtain ⟨w, late, hland, hkeeps⟩ := chainLand_eq_recvPut l.toNat (storeKey s l.toNat) r x.sent v x.terms
      (decide (x.vals.length ≤ x.sent + 1)) cyc (s.sendHead x rest)
    refine ⟨?_, fun hnone => absurd hnone (Option.some_ne_none r), fun r' hr' => ?_⟩
    · show (chainLand _ _ _ _ _ _ _ _ _).chains = _
      rw [hland]
      exact hkeeps.chains
    cases hr'
    refine ⟨fun hmore hlast => ⟨{ r with got := r.gotNext false, late := late }, ?_, rfl, rfl⟩,
      fun tg htgt hon hdue hi hidle htag hquire hfmt hcap hterms =>
        chainLand_adds _ _ _ htgt hon hdue hi hidle htag hquire hfmt hcap hterms⟩
    rw [decide_eq_false (not_le.2 hlast)] at hland ⊢
    show _ ∈ (eng (chainLand _ _ _ _ _ _ _ _ _) _).recvs
    rw [hland]
    refine mem_recvPut ?_ hmore
    rw [show (_ : List Nat) = _ from hkeeps.engs (storeKey s l.toNat)]
    exact List.mem_map.2 ⟨r, mem_of_recvOf hrecv, rfl⟩

end Sys2Proof.Machine
end

