-- ==== Sys2Proof/Proofs/PassForms.lean ====
section
/-! PROOF. PASS (R57-R61, R87-R94, R175): the half it forms, its flight, and the counters of its segment. -/

namespace Sys2Proof.Machine

-- One proof at a time, as in the tests: proofs that wait for one another would each hold a stack.
set_option Elab.async false

/-! ### The elements of a pass -/

/-- Entries put into a table one after another, at keys that differ, are all there. -/
theorem tabGet_foldl_tabSet {α β : Type} [DecidableEq α] (d : Nat → α) (key : β → Nat) (val : β → α) (l : List β) (t : Tab α)
    (hkeys : (l.map key).Nodup) {e : β} (he : e ∈ l) :
    tabGet d (l.foldl (fun t e => tabSet d t (key e) (val e)) t) (key e) = val e := by
  have hkept (l : List β) (t : Tab α) (k : Nat) (hk : k ∉ l.map key) :
      tabGet d (l.foldl (fun t e => tabSet d t (key e) (val e)) t) k = tabGet d t k := by
    induction l generalizing t with
    | nil => rfl
    | cons x l ih =>
      rw [List.map_cons, List.mem_cons, not_or] at hk
      rw [List.foldl_cons, ih _ hk.2, tabGet_tabSet_ne _ _ _ _ hk.1]
  induction l generalizing t with
  | nil => nomatch he
  | cons x l ih =>
    rw [List.map_cons, List.nodup_cons] at hkeys
    rw [List.foldl_cons]
    rcases List.mem_cons.1 he with rfl | he
    · rw [hkept _ _ _ hkeys.1, tabGet_tabSet_self]
    · exact ih _ hkeys.2 he

section
variable (tl : Tile) (s : State) (c : Ctx) (o : PassOp) (idx : BitVec 20) (bases : List Nat)

/-- A pass writes the columns of its vectors, problem by problem (R90). -/
theorem passElemsOf_keys : (passElemsOf tl s c o idx bases).map (·.key) =
    (List.range (2 ^ o.ksplit.toNat)).flatMap fun p => (List.range (o.mm1.toNat + 1)).flatMap fun m => (List.range 64).map fun n =>
      64 * (p * (tagCap (passTag (fmtD o.fmt) o.fast) / 2 ^ o.ksplit.toNat) + o.boff.toNat + m) + n := by
  have hcols (l : List (List Nat)) (v : Nat) : (l.zipIdx.map fun x => 64 * v + x.2) = (List.range l.length).map fun n => 64 * v + n := by
    rw [List.range_eq_range', ← List.zipIdx_map_snd 0 l, List.map_map]
    rfl
  unfold passElemsOf
  simp only [List.map_flatMap, List.map_map, Function.comp_def, hcols, List.length_map, List.length_range]

/-- Where its vectors stay inside their region, a pass writes no element twice. -/
theorem passElemsOf_keys_nodup
    (hregion : o.boff.toNat + (o.mm1.toNat + 1) ≤ tagCap (passTag (fmtD o.fmt) o.fast) / 2 ^ o.ksplit.toNat) :
    ((passElemsOf tl s c o idx bases).map (·.key)).Nodup := by
  rw [passElemsOf_keys]
  generalize tagCap (passTag (fmtD o.fmt) o.fast) / 2 ^ o.ksplit.toNat = region at hregion
  refine List.nodup_flatMap.2 ⟨fun p _ => List.nodup_flatMap.2 ⟨fun m _ => ?_, ?_⟩, ?_⟩
  · exact List.nodup_range.map fun n n' (hn : _ + n = _ + n') => Nat.add_left_cancel hn
  · refine List.nodup_range.imp fun {m m'} hm => List.disjoint_left.2 fun x hx hx' => ?_
    simp only [List.mem_map, List.mem_range] at hx hx'
    obtain ⟨n, hn, rfl⟩ := hx
    obtain ⟨n', hn', heq⟩ := hx'
    omega
  · refine List.nodup_range.imp fun {p p'} hp => List.disjoint_left.2 fun x hx hx' => hp ?_
    simp only [List.mem_flatMap, List.mem_map, List.mem_range] at hx hx'
    obtain ⟨m, hm, n, hn, rfl⟩ := hx
    obtain ⟨m', hm', n', hn', heq⟩ := hx'
    have hvec : p' * region + (o.boff.toNat + m') = p * region + (o.boff.toNat + m) := by omega
    have hrow (q i : Nat) (hi : i < region) : (q * region + i) / region = q := by
      rw [Nat.mul_comm, Nat.mul_add_div (by omega), Nat.div_eq_of_lt hi, Nat.add_zero]
    rw [← hrow p (o.boff.toNat + m) (by omega), ← hvec, hrow p' _ (by omega)]

theorem valid_of_mem_passElemsOf {e : PassElem} (he : e ∈ passElemsOf tl s c o idx bases) : e.el.valid = true := by
  unfold passElemsOf at he
  simp only [List.mem_flatMap, List.mem_map] at he
  obtain ⟨p, -, m, -, x, -, rfl⟩ := he
  rfl

end

/-! ### What a pass is formed of -/

/-- What a pass reads of the engines: the tile, the halves, the Carrel lines, and which engine executes. -/
def Eng.passInputs (e : Eng) : Eng :=
  { takeover := e.takeover, carrel := e.carrel, cmark := e.cmark, olds := e.olds,
    arr := { tile := e.arr.tile, half0 := e.arr.half0, half1 := e.arr.half1 } }

/-- Two states of which a PASS forms the same elements: its inputs, the jobs, and the registers that say which engines are present. -/
structure SamePassInputs (s t : State) : Prop where
  engs : Keeps Eng.passInputs s t
  jobs : t.jobs = s.jobs
  present : ∀ q off, q ≠ pgVilri → off = 0x08 ∨ off = 0x0C ∨ off = 0x40 → rget t q off = rget s q off

theorem SamePassInputs.refl (s : State) : SamePassInputs s s := ⟨Keeps.refl _ s, rfl, fun _ _ _ _ => rfl⟩

section
variable {s t u : State}

theorem SamePassInputs.trans (h : SamePassInputs s t) (k : SamePassInputs t u) : SamePassInputs s u :=
  ⟨h.engs.trans k.engs, k.jobs.trans h.jobs, fun q off hq ho => (k.present q off hq ho).trans (h.present q off hq ho)⟩

theorem SamePassInputs.arr_tile (h : SamePassInputs s t) (k : Nat) : (eng t k).arr.tile = (eng s k).arr.tile :=
  (congrArg (fun e : Eng => e.arr.tile) (h.engs.engs k) : (eng t k).passInputs.arr.tile = (eng s k).passInputs.arr.tile)

theorem SamePassInputs.half (h : SamePassInputs s t) (k : Nat) (b : Bool) : (eng t k).arr.half b = (eng s k).arr.half b :=
  (congrArg (fun e : Eng => e.arr.half b) (h.engs.engs k) : (eng t k).passInputs.arr.half b = (eng s k).passInputs.arr.half b)

theorem SamePassInputs.inputVec (h : SamePassInputs s t) (k : Nat) (f : Fmt) (line kk m cyc : Nat) :
    inputVec t k f line kk m cyc = inputVec s k f line kk m cyc := by
  have holds : (eng t k).olds = (eng s k).olds := (congrArg Eng.olds (h.engs.engs k) : (eng t k).passInputs.olds = (eng s k).passInputs.olds)
  have hcarrel : (eng t k).carrel = (eng s k).carrel :=
    (congrArg Eng.carrel (h.engs.engs k) : (eng t k).passInputs.carrel = (eng s k).passInputs.carrel)
  have hcmark : (eng t k).cmark = (eng s k).cmark :=
    (congrArg Eng.cmark (h.engs.engs k) : (eng t k).passInputs.cmark = (eng s k).passInputs.cmark)
  simp only [Machine.inputVec, cReadAt, cRead, holds, hcarrel, hcmark]

theorem SamePassInputs.job (h : SamePassInputs s t) (j : Nat) : job t j = job s j := by
  unfold Machine.job
  rw [h.jobs]

theorem SamePassInputs.ownerOf (h : SamePassInputs s t) (l : Nat) (g : Seg) : ownerOf t l g = ownerOf s l g := by
  simp only [Machine.ownerOf, h.job]

theorem SamePassInputs.absent (h : SamePassInputs s t) (l : Nat) : absent t l = absent s l := by
  have hdie (d q : Nat) : pgDie d q ≠ pgVilri := by
    unfold pgDie pgVilri
    omega
  have heng (x : Nat) : pgEng x 0 ≠ pgVilri := by
    unfold pgEng pgVilri
    omega
  have htake (k : Nat) : (eng t k).takeover = (eng s k).takeover :=
    (congrArg Eng.takeover (h.engs.engs k) : (eng t k).passInputs.takeover = (eng s k).passInputs.takeover)
  have hslot : slotPhys t l = slotPhys s l := by simp only [slotPhys, fget, h.present _ 0x40 (hdie _ _) (by simp)]
  have hexec : execKey t l = execKey s l := by rw [execKey, h.engs.storeKey, htake, hslot, execKey]
  rw [Machine.absent, hslot, hexec, fget, fget, h.present _ 0x0C (hdie _ _) (by simp), h.present _ 0x08 (heng _) (by simp)]
  rfl

theorem SamePassInputs.passElems (h : SamePassInputs s t) (c : Ctx) (o : PassOp) (idx : BitVec 20) (bases : List Nat) :
    passElems t c o idx bases = passElems s c o idx bases := by
  simp only [Machine.passElems, passElemsOf, activeCount, h.arr_tile, h.half, h.inputVec, h.job, h.ownerOf, h.absent]

theorem SamePassInputs.of_logOnly (h : LogOnly s t)
    (hregs : ∀ q off, q ≠ pgVilri → off = 0x08 ∨ off = 0x0C ∨ off = 0x40 → rget t q off = rget s q off) : SamePassInputs s t :=
  ⟨h.keeps, h.jobs, hregs⟩

end

theorem engMod_samePassInputs (k : Nat) (f : Eng → Eng) (s : State) (hf : ∀ e, (f e).passInputs = e.passInputs := by intro; rfl) :
    SamePassInputs s (engMod k f s) := ⟨engMod_keeps k f s hf, rfl, fun _ _ _ _ => rfl⟩

theorem segMod_samePassInputs (k : Nat) (g : Seg) (f : SegSt → SegSt) (s : State) : SamePassInputs s (segMod k g f s) :=
  engMod_samePassInputs k _ s fun e => by cases g <;> rfl

theorem whenS_samePassInputs {b : Bool} {f : State → State} (h : ∀ s, SamePassInputs s (f s)) (s : State) :
    SamePassInputs s (whenS b f s) := by
  cases b
  · exact SamePassInputs.refl s
  · exact h s

/-- No register that says which engines are present lies where events and faults are counted. -/
theorem rget_rset_of_presence {q off p off' : Nat} (hoff : off = 0x08 ∨ off = 0x0C ∨ off = 0x40)
    (hne : off' / 4 ≠ 2 ∧ off' / 4 ≠ 3 ∧ off' / 4 ≠ 16 ∧ off' < 4096) (v : Word) (s : State) :
    rget (rset p off' v s) q off = rget s q off := by
  rw [rget_rset, if_neg]
  unfold ridx
  omega

theorem raise_samePassInputs (p bit : Nat) (s : State) : SamePassInputs s (raise p bit s) :=
  .of_logOnly (raise_logOnly _ _ _) fun q off hq ho => rget_raise_of_ne hq (by omega) (by unfold ridx; omega) _ _

theorem rset_samePassInputs {p off' : Nat} (hne : off' / 4 ≠ 2 ∧ off' / 4 ≠ 3 ∧ off' / 4 ≠ 16 ∧ off' < 4096) (v : Word) (s : State) :
    SamePassInputs s (rset p off' v s) :=
  .of_logOnly (rset_logOnly _ _ _ _) fun _ _ _ ho => rget_rset_of_presence ho hne _ _

theorem rampEvent_samePassInputs (l : Nat) (s : State) : SamePassInputs s (rampEvent l s) :=
  (rset_samePassInputs (by decide) _ s).trans (raise_samePassInputs _ _ _)

theorem schedFault_samePassInputs (k : Nat) (g : Seg) (pc cause cyc : Nat) (arrival : Bool) (s : State) :
    SamePassInputs s (schedFault k g pc cause cyc arrival s) := by
  unfold schedFault
  refine SamePassInputs.trans ?_ (raise_samePassInputs _ _ _)
  refine SamePassInputs.trans ?_ (segMod_samePassInputs _ _ _ _)
  refine SamePassInputs.trans ?_ (rset_samePassInputs (by decide) _ _)
  split
  · exact (rset_samePassInputs (by decide) _ _).trans (rset_samePassInputs (by decide) _ _)
  · exact SamePassInputs.refl _

/-! ### A PASS issues (R94, R175) -/

/-- An engine without its segments' records but for the counters, its ports' claims and its vector unit. -/
def Eng.unclaimed (e : Eng) : Eng := { e.bare with claims := [], vec := {} }

theorem Keeps.unclaimed {s t : State} (h : Keeps Eng.bare s t) : Keeps Eng.unclaimed s t :=
  h.mono fun e e' he => (congrArg (fun e : Eng => { e with claims := [], vec := {} }) he : e.unclaimed = e'.unclaimed)

theorem Keeps.coreOfUnclaimed {s t : State} (h : Keeps Eng.unclaimed s t) : Keeps Eng.core s t :=
  h.mono fun e e' he => (congrArg Eng.core he : e.unclaimed.core = e'.unclaimed.core)

theorem Keeps.arrOfUnclaimed {s t : State} (h : Keeps Eng.unclaimed s t) (k : Nat) : (eng t k).arr = (eng s k).arr :=
  (congrArg Eng.arr (h.engs k) : (eng t k).unclaimed.arr = (eng s k).unclaimed.arr)

theorem otherClaims_some {k cyc : Nat} {cs : List Claim} {s t : State} (h : otherClaims k cyc cs s = some t) :
    Keeps Eng.unclaimed s t ∧ SamePassInputs s t := by
  unfold otherClaims at h
  extract_lets e at h
  split at h
  · cases h
  · cases h
    exact ⟨engMod_keeps _ _ _, engMod_samePassInputs _ _ _⟩

theorem gapEvent_logOnly (k l cyc : Nat) (s : State) : LogOnly s (gapEvent k l cyc s) :=
  whenS_logOnly _ _ (fun s => (finc_logOnly _ _ _ _ _ s).trans (raise_logOnly _ _ _)) s

theorem rampEvent_logOnly (l : Nat) (s : State) : LogOnly s (rampEvent l s) := (finc_logOnly _ _ _ _ _ s).trans (raise_logOnly _ _ _)

/-- A gap that ends leaves the tile and the halves. -/
theorem endGap_inputs (u cyc : Nat) (a : ArraySt) :
    (a.endGap u cyc).tile = a.tile ∧ (a.endGap u cyc).half0 = a.half0 ∧ (a.endGap u cyc).half1 = a.half1 := by
  unfold ArraySt.endGap
  split
  · exact ⟨rfl, rfl, rfl⟩
  · split
    · exact ⟨rfl, rfl, rfl⟩
    · split <;> exact ⟨rfl, rfl, rfl⟩

theorem endGap_samePassInputs (k u cyc : Nat) (s : State) : SamePassInputs s (arrMod k (ArraySt.endGap u cyc) s) := by
  refine engMod_samePassInputs k _ s fun e => ?_
  obtain ⟨htile, hhalf0, hhalf1⟩ := endGap_inputs u cyc e.arr
  simp only [Eng.passInputs, htile, hhalf0, hhalf1]

/-- The half that a pass writes: its path's tag, its terms, and its elements over those that were there. -/
def Half.passed (tag : Tag) (terms : Nat) (extra : Mark) (els : List PassElem) (hf : Half) : Half :=
  { tag := some tag, valid := true, terms := terms,
    elems := els.foldl (fun t e => tabSet (fun _ => {}) t e.key { e.el with mark := e.el.mark ||| extra })
      (if hf.tag = some tag then hf.elems else []) }

/-- A PASS that faults leaves no element of its half valid, nor the half (R98). -/
theorem valid_halfMod_invalid (k : Nat) (h : Bool) (s : State) :
    ((eng (arrMod k (fun a => a.halfMod h Half.invalid) s) k).arr.half h).valid = false := by
  rw [half_arrMod_self]
  rfl

theorem arr_arrMod_self (k : Nat) (f : ArraySt → ArraySt) (s : State) : (eng (arrMod k f s) k).arr = f (eng s k).arr := by
  rw [arrMod, eng_engMod, if_pos rfl]

/-- The checks of a PASS look at the array and at the jobs' footprints. -/
theorem passBad_congr {s t : State} {c : Ctx} (harr : (eng t c.k).arr = (eng s c.k).arr) (hjobs : t.jobs = s.jobs) (o : PassOp) :
    passBad t c o = passBad s c o := by
  have hjob : job t = job s := by
    funext j
    rw [job, hjobs, job]
  have hfoot : inFoot t = inFoot s := by
    funext l g a n
    unfold inFoot ownerOf
    rw [hjob]
  unfold passBad passTerms
  rw [harr, hfoot]

/-- What a PASS that goes on leaves: its segment's counters, and in its half what it forms, or nothing valid where it faults. -/
theorem doPass_forms {h : IssueHdr} {o : PassOp} {s : State} {c : Ctx} (hc : issue .array 0 h s = some c)
    (hgo : ((eng s (storeKey s h.leng.toNat)).seg h.seg).stopAt = none) :
    Keeps Eng.core (segMod c.k c.g (fun x => { x with passIdx := x.passIdx + 1 }) (settle c.k c.cyc c.s)) (doPass h o s) ∧
    (passBad (settle c.k c.cyc c.s) c o ≠ 0 → ((eng (doPass h o s) c.k).arr.half o.dsth).valid = false) ∧
    (passBad (settle c.k c.cyc c.s) c o = 0 →
      (∃ extra hf, (eng (doPass h o s) c.k).arr.half o.dsth =
        Half.passed (passTag (fmtD o.fmt) o.fast) (passTerms (settle c.k c.cyc c.s) c o) extra
          (passElems (settle c.k c.cyc c.s) c o ((eng (settle c.k c.cyc c.s) c.k).seg c.g).passIdx ((passBases c o).map (·.toNat))) hf) ∧
      ∃ f, (eng (doPass h o s) c.k).arr.flights.getLast? = some f ∧ f.op = o ∧ f.cyc = c.cyc ∧
        f.commit = c.cyc + beats (fmtD o.fmt) * (o.mm1.toNat + 1) + 15) := by
  unfold doPass
  rw [if_neg (by simp [hgo]), issued, hc]
  dsimp -zeta only
  extract_lets s0 sg idx x chk ratio sel s1 f bt m ks kk tag region bases terms ramp held sel' s2 bad a s3 s4 els pol fls trap extra
    s5 cols rows eaten unc note s6 s7 put s8 q covered s9 s10 s11 s12 s13
  have hcount : Keeps Eng.core (segMod c.k c.g (fun x => { x with passIdx := x.passIdx + 1 }) s0) s1 := by
    refine ⟨rfl, rfl, fun k => ?_⟩
    simp only [s1, segMod, eng_engMod]
    split
    · simp only [idx, sg]
      cases c.g <;> rfl
    · rfl
  have harr1 : (eng s1 c.k).arr = (eng s0 c.k).arr := by
    simp only [s1, segMod, eng_engMod, if_true]
    cases c.g <;> rfl
  have hslot : Keeps Eng.unclaimed s1 s2 ∧ SamePassInputs s1 s2 := by
    simp only [s2]
    cases hheld : held with
    | none => exact ⟨Keeps.refl _ s1, SamePassInputs.refl s1⟩
    | some p =>
      obtain ⟨q, r⟩ := p
      cases r with
      | none =>
        exact ⟨(schedFault_books _ _ _ _ _ _ _).unclaimed.trans (engMod_keeps _ _ _),
          (schedFault_samePassInputs _ _ _ _ _ _ _).trans (engMod_samePassInputs _ _ _)⟩
      | some t =>
        obtain ⟨q', -, hq⟩ := Option.map_eq_some_iff.1 hheld
        obtain ⟨hkeeps, hsame⟩ := otherClaims_some (Prod.mk.inj hq).2
        exact ⟨hkeeps.trans (engMod_keeps _ _ _), hsame.trans (engMod_samePassInputs _ _ _)⟩
  have hramp : LogOnly s2 s3 := (gapEvent_logOnly _ _ _ _).trans (whenS_logOnly _ _ (rampEvent_logOnly _) _)
  have hstart : Keeps Eng.core (segMod c.k c.g (fun x => { x with passIdx := x.passIdx + 1 }) s0) s4 :=
    hcount.trans (hslot.1.coreOfUnclaimed.trans (hramp.keeps.trans (engMod_keeps _ _ _)))
  have hsame : SamePassInputs s0 s4 :=
    (segMod_samePassInputs _ _ _ _).trans (hslot.2.trans ((whenS_samePassInputs (rampEvent_samePassInputs _) _).trans
      ((whenS_samePassInputs (rampEvent_samePassInputs _) _).trans (endGap_samePassInputs _ _ _ _))))
  have hbad : bad = passBad s0 c o := by
    refine passBad_congr ((hslot.1.arrOfUnclaimed c.k).trans harr1) (hslot.2.jobs) o
  have hterms : terms = passTerms s0 c o := by
    simp only [terms, passTerms, harr1]
  have hels : els = passElems s0 c o idx ((passBases c o).map (·.toNat)) := hsame.passElems _ _ _ _
  rw [← hbad, ← hterms, ← hels]
  have hform : Keeps Eng.core s4 s6 := (engMod_keeps _ _ _).trans (engMod_keeps _ _ _)
  have hbooks : Keeps Eng.bare s6 s13 := by
    have hcover : Keeps Eng.bare s9 s10 := by
      simp only [s10]
      split
      · exact frameMod_keeps _ _ _ _
      · exact Keeps.refl _ s9
    have hcol : LogOnly s8 s9 := (whenS_logOnly _ _ (fun s => finc_logOnly _ _ _ _ _ s) _).trans (finc_logOnly _ _ _ _ _ _)
    have hevents : LogOnly s10 s12 := (countFlags_logOnly _ _ _).trans (passEvent_logOnly _ _ _ _ _)
    exact (busyTo_books _ _ _ _).trans ((segMod_books _ _ _ _).trans (hcol.keeps.trans (hcover.trans (hevents.keeps.trans
      (whenS_keeps (numTrap_keeps _ _ _) _)))))
  refine ⟨?_, fun hne => ?_, fun heq => ?_⟩
  · split
    · exact hstart.trans ((schedFault_books _ _ _ _ _ _ _).core.trans (engMod_keeps _ _ _))
    · exact hstart.trans (hform.trans (hbooks.core.trans (consume_keeps _ _ _ _ _ _)))
  · rw [if_pos hne]
    exact valid_halfMod_invalid _ _ _
  · rw [if_neg (by simp [heq])]
    have hlast := (hbooks.trans (consume_keeps c.leng c.g c.pc (passOrigin s13 c o a.tile (bases.map (·.toNat))) eaten s13)).arr c.k
    rw [hlast]
    have hhalf : (eng s5 c.k).arr.half o.dsth = _ := half_arrMod_self _ _ _ _
    have hflight : (eng s6 c.k).arr = _ := arr_arrMod_self _ _ _
    rw [hflight]
    generalize (eng s5 c.k).arr = formed at hhalf
    exact ⟨⟨extra, _, Eq.trans (by cases o.dsth <;> rfl) hhalf⟩, _, List.getLast?_concat, rfl, rfl, rfl⟩

/-! ### The segment's counters -/

theorem Keeps.segOf {s t : State} (h : Keeps Eng.core s t) (l : BitVec 6) (g : Seg) :
    (segOf t l g).pc = (segOf s l g).pc ∧ (segOf t l g).passIdx = (segOf s l g).passIdx := by
  have hcount : (Machine.segOf t l g).counters = (Machine.segOf s l g).counters := by
    unfold Machine.segOf
    rw [h.storeKey]
    cases g
    · exact (congrArg Eng.rt (h.engs _) : (eng t _).core.rt = (eng s _).core.rt)
    · exact (congrArg Eng.bg (h.engs _) : (eng t _).core.bg = (eng s _).core.bg)
  exact ⟨(congrArg SegSt.pc hcount : (Machine.segOf t l g).counters.pc = (Machine.segOf s l g).counters.pc),
    (congrArg SegSt.passIdx hcount : (Machine.segOf t l g).counters.passIdx = (Machine.segOf s l g).counters.passIdx)⟩

/-- After an instruction has issued its segment's program counter has moved past its word (R171). -/
theorem issue_segOf {u : EUnit} {rel : Nat} {h : IssueHdr} {s : State} {c : Ctx} (hc : issue u rel h s = some c) :
    (segOf c.s h.leng h.seg).pc = (segOf s h.leng h.seg).pc + 1 ∧
      (segOf c.s h.leng h.seg).passIdx = (segOf s h.leng h.seg).passIdx := by
  obtain ⟨-, -, -, hk, -⟩ := issue_some hc
  have hcount := issue_counters hc
  have hstore : storeKey c.s h.leng.toNat = storeKey s h.leng.toNat := (issue_keeps hc).storeKey _
  unfold segOf
  rw [hstore, ← hk]
  exact ⟨(congrArg SegSt.pc hcount : ((eng c.s c.k).seg h.seg).counters.pc = _),
    (congrArg SegSt.passIdx hcount : ((eng c.s c.k).seg h.seg).counters.passIdx = _)⟩

theorem pcMoved_of_keeps {u : EUnit} {rel : Nat} {h : IssueHdr} {s t : State} {c : Ctx} (hc : issue u rel h s = some c)
    (hkeeps : Keeps Eng.core c.s t) : pcMoved s t h :=
  (hkeeps.segOf h.leng h.seg).1.trans (issue_segOf hc).1

/-- The storage engine of an instruction that has issued is its segment's. -/
theorem issue_storeKey {u : EUnit} {rel : Nat} {h : IssueHdr} {s t : State} {c : Ctx} (hc : issue u rel h s = some c)
    (hkeeps : Keeps Eng.core c.s t) : storeKey t h.leng.toNat = c.k := by
  obtain ⟨-, -, -, hk, -⟩ := issue_some hc
  exact (hkeeps.storeKey _).trans (((issue_keeps hc).storeKey _).trans hk.symm)

/-- A pass is the next of its segment (R94). -/
theorem segOf_nextPass {l : BitVec 6} {g : Seg} {k : Nat} {s : State} (hk : storeKey s l.toNat = k) :
    (segOf (segMod k g (fun x => { x with passIdx := x.passIdx + 1 }) s) l g).pc = (segOf s l g).pc ∧
      (segOf (segMod k g (fun x => { x with passIdx := x.passIdx + 1 }) s) l g).passIdx = (segOf s l g).passIdx + 1 := by
  have hkey : storeKey (segMod k g (fun x => { x with passIdx := x.passIdx + 1 }) s) l.toNat = k := hk
  unfold segOf
  rw [hkey, segMod, eng_engMod, if_pos rfl, hk]
  cases g <;> exact ⟨rfl, rfl⟩

/-- A PASS that does not fault keeps its vectors in their region (R90). -/
theorem region_of_passBad {s : State} {c : Ctx} {o : PassOp} (hbad : passBad s c o = 0) :
    o.boff.toNat + (o.mm1.toNat + 1) ≤ tagCap (passTag (fmtD o.fmt) o.fast) / 2 ^ o.ksplit.toNat := by
  unfold passBad at hbad
  extract_lets a f bt m ks kk tag region early feeding at hbad
  split at hbad
  · cases hbad
  split at hbad
  · cases hbad
  next hok =>
    simp only [Bool.or_eq_true, decide_eq_true_eq, not_or, not_lt] at hok
    exact hok.1.2

/-- Settles O14: what a PASS is formed of is as it was when the passes before it had settled (`doPass_forms`), and its vectors stay in
their regions, so that it writes no element twice (`passElemsOf_keys_nodup`). -/
theorem passAccumulates : Obligations.PassAccumulates := by
  intro h o s hwf
  have hexec : exec (.pass h o) s = .next (doPass h o s) := by
    show gate (Instr.pass h o).wf (doPass h o s) = _
    rw [hwf, gate_true]
  rw [hexec]
  refine ⟨fun hstop => ?_, fun c hc hgo => ⟨doPass h o s, rfl, ?_⟩⟩
  · unfold doPass
    exact congrArg _ (if_pos hstop)
  obtain ⟨-, -, -, -, -, hg, -⟩ := issue_some hc
  obtain ⟨hkeeps, hfault, hform⟩ := doPass_forms hc hgo
  have hsettle := settle_core c.k c.cyc c.s
  have hkey := issue_storeKey hc hsettle
  obtain ⟨hissuePc, hissueIdx⟩ := issue_segOf hc
  obtain ⟨hsetPc, hsetIdx⟩ := hsettle.segOf h.leng h.seg
  obtain ⟨hnextPc, hnextIdx⟩ := segOf_nextPass (g := h.seg) hkey
  have hidx := hsetIdx.trans hissueIdx
  rw [hg] at hkeeps hform
  obtain ⟨hpc, hpassIdx⟩ := hkeeps.segOf h.leng h.seg
  refine ⟨hpc.trans (hnextPc.trans (hsetPc.trans hissuePc)), hpassIdx.trans (hnextIdx.trans (congrArg (· + 1) hidx)), hfault,
    fun hbad => ?_⟩
  obtain ⟨⟨extra, old, hhalf⟩, hflight⟩ := hform hbad
  have hseg : ((eng (settle c.k c.cyc c.s) c.k).seg h.seg).passIdx = (segOf s h.leng h.seg).passIdx := by
    rw [← hidx, segOf, hkey]
  rw [hseg] at hhalf
  refine ⟨congrArg Half.tag hhalf, congrArg Half.valid hhalf, congrArg Half.terms hhalf, hflight, fun e he => ?_⟩
  have hel : tabGet (fun _ => ({} : Elem)) ((eng (doPass h o s) c.k).arr.half o.dsth).elems e.key =
      { e.el with mark := e.el.mark ||| extra } := by
    rw [hhalf]
    exact tabGet_foldl_tabSet _ PassElem.key (fun e => { e.el with mark := e.el.mark ||| extra }) _ _
      (passElemsOf_keys_nodup _ _ _ _ _ _ (region_of_passBad hbad)) he
  rw [hel]
  exact ⟨rfl, valid_of_mem_passElemsOf _ _ _ _ _ _ he⟩

end Sys2Proof.Machine
end

