-- ==== Sys2Proof/Proofs/DrainedLines.lean ====
section
/-! PROOF. DRAIN (R74, R101, R120, R129): the lines it writes, the record that waits, and the drain its segment remembers. -/

namespace Sys2Proof.Machine

-- One proof at a time, as in the tests: proofs that wait for one another would each hold a stack.
set_option Elab.async false

/-! ### A line written and read back (R7, R34) -/

theorem length_bytesOfLine (l : Line) : (bytesOfLine l).length = 64 := by simp [bytesOfLine]

/-- Bytes `k` to `k + n - 1` of a number, put together again. -/
theorem foldr_bytes (v k n : Nat) :
    ((List.range' k n).map fun j => v / 2 ^ (8 * j) % 2 ^ 8).foldr (fun w acc => acc * 2 ^ 8 + w % 2 ^ 8) 0 = v / 2 ^ (8 * k) % 2 ^ (8 * n) := by
  induction n generalizing k with
  | zero => simp [Nat.mod_one]
  | succ n ih =>
    have hsplit : v / 2 ^ (8 * k) % 2 ^ (8 * (n + 1)) =
        v / 2 ^ (8 * k) % 2 ^ 8 + 2 ^ 8 * (v / 2 ^ (8 * k) / 2 ^ 8 % 2 ^ (8 * n)) := by
      rw [Nat.mul_succ, Nat.add_comm, Nat.pow_add, Nat.mod_mul]
    have hnext : v / 2 ^ (8 * (k + 1)) = v / 2 ^ (8 * k) / 2 ^ 8 := by
      rw [Nat.mul_succ, Nat.pow_add, Nat.div_div_eq_div_mul]
    rw [List.range'_succ, List.map_cons, List.foldr_cons, ih, hsplit, hnext, Nat.mod_mod]
    omega

theorem lineOfBytes_bytesOfLine (l : Line) : lineOfBytes (bytesOfLine l) = l := by
  have hbytes : (bytesOfLine l).map (·.toNat) = (List.range' 0 64).map fun j => l.toNat / 2 ^ (8 * j) % 2 ^ 8 := by
    rw [bytesOfLine, List.map_map, List.range_eq_range']
    refine List.map_congr_left fun j _ => ?_
    show (BitVec.ofNat 8 (lineElem .p8 l j)).toNat = _
    rw [BitVec.toNat_ofNat]
    exact Nat.mod_mod _ _
  have hwhole {w n : Nat} (hw : w = n) (x : BitVec w) : x.toNat % 2 ^ n = x.toNat := by
    rw [← hw]
    exact Nat.mod_eq_of_lt x.isLt
  rw [lineOfBytes, packLine, List.foldl_reverse, hbytes]
  show BitVec.ofNat 512 (((List.range' 0 64).map fun j => l.toNat / 2 ^ (8 * j) % 2 ^ 8).foldr (fun w acc => acc * 2 ^ 8 + w % 2 ^ 8) 0) = l
  rw [foldr_bytes, Nat.mul_zero, Nat.pow_zero, Nat.div_one, hwhole (by decide) l, BitVec.ofNat_toNat, BitVec.setWidth_eq]

/-- A line of a memory after a line is written. -/
theorem readLineAt_writeLineAt (m : Tab Byte) (a : Nat) (l : Line) (a' : Nat) :
    readLineAt (writeLineAt m (64 * a) l) (64 * a') = if a' = a then l else readLineAt m (64 * a') := by
  unfold readLineAt writeLineAt
  simp only [tabGet_writeBytesAt, length_bytesOfLine]
  split
  case isTrue h =>
    subst h
    conv_rhs => rw [← lineOfBytes_bytesOfLine l]
    refine congrArg lineOfBytes (List.ext_getElem (by simp [length_bytesOfLine]) fun i hi _ => ?_)
    rw [List.length_map, List.length_range] at hi
    rw [List.getElem_map, List.getElem_range, dif_pos (by omega)]
    simp
  case isFalse h =>
    refine congrArg lineOfBytes (List.map_congr_left fun i hi => dif_neg ?_)
    rw [List.mem_range] at hi
    omega

theorem cRead_cPut (k line : Nat) (l : Line) (m : Mark) (s : State) (line' : Nat) :
    (cRead (cPut k line l m s) k line').1 = if line' = line then l else (cRead s k line').1 := by
  unfold cRead cPut
  rw [eng_engMod, if_pos rfl]
  exact readLineAt_writeLineAt _ _ _ _

theorem cRead_congr {s t : State} {k : Nat} (h : (eng t k).carrel = (eng s k).carrel) (line : Nat) :
    (cRead t k line).1 = (cRead s k line).1 := congrArg (fun m => readLineAt m (64 * line)) h

/-! ### Consecutive lines where no window is open (R197) -/

/-- Lines put one after another from line `line` on. -/
def putLines (k line : Nat) (m : Mark) (ls : List ((Line × Mark) × Nat)) (s : State) : State :=
  foldS ls (fun x => cPut k (line + x.2) x.1.1 (x.1.2 ||| m)) s

theorem putLines_keeps {α : Type} {π : Eng → α} (k line : Nat) (m : Mark) (ls : List ((Line × Mark) × Nat)) (s : State)
    (hπ : ∀ e carrel cmark, π { e with carrel := carrel, cmark := cmark } = π e := by intros; rfl) : Keeps π s (putLines k line m ls s) :=
  foldS_keeps (fun _ _ => engMod_keeps _ _ _ fun e => hπ e _ _) _ _

/-- Lines below those that are put stay as they are. -/
theorem cRead_putLines_below (k line : Nat) (m : Mark) (ls : List (Line × Mark)) (j : Nat) (s : State) {a : Nat} (ha : a < line + j) :
    (cRead (putLines k line m (ls.zipIdx j) s) k a).1 = (cRead s k a).1 := by
  induction ls generalizing j s with
  | nil => rfl
  | cons x ls ih => exact (ih (j + 1) _ (by omega)).trans ((cRead_cPut _ _ _ _ _ _).trans (if_neg (by simp only; omega)))

theorem cRead_putLines (k line : Nat) (m : Mark) (ls : List (Line × Mark)) (j : Nat) (s : State) {i : Nat} {l : Line × Mark}
    (hi : ls[i]? = some l) : (cRead (putLines k line m (ls.zipIdx j) s) k (line + (j + i))).1 = l.1 := by
  induction ls generalizing j s i with
  | nil => nomatch hi
  | cons x ls ih =>
    cases i with
    | zero =>
      cases hi
      exact (cRead_putLines_below k line m ls (j + 1) _ (by omega)).trans ((cRead_cPut _ _ _ _ _ _).trans (if_pos rfl))
    | succ i =>
      rw [show j + (i + 1) = j + 1 + i by omega]
      exact ih (j + 1) _ hi

theorem writeLine_of_noWindow {c : Ctx} {s : State} (hopen : (eng s c.k).openH = []) (line : Nat) (l : Line) (m : Mark) (t : Nat) :
    c.writeLine line l m t s = cPut c.k line l m s := by
  unfold Ctx.writeLine heldAt
  rw [hopen]
  rfl

/-- With no window open every write of consecutive lines is made. -/
theorem foldS_writeLine_of_noWindow {c : Ctx} (line : Nat) (m : Mark) (wc : Nat → Nat) (ls : List ((Line × Mark) × Nat)) {s : State}
    (hopen : (eng s c.k).openH = []) :
    foldS ls (fun x => c.writeLine (line + x.2) x.1.1 (x.1.2 ||| m) (wc x.2)) s = putLines c.k line m ls s := by
  induction ls generalizing s with
  | nil => rfl
  | cons x ls ih =>
    have hnext : (eng (cPut c.k (line + x.2) x.1.1 (x.1.2 ||| m) s) c.k).openH = [] :=
      ((engMod_keeps (π := Eng.openH) _ _ _).engs c.k).trans hopen
    show foldS ls _ (c.writeLine _ _ _ _ s) = putLines c.k line m ls (cPut _ _ _ _ s)
    rw [writeLine_of_noWindow hopen, ih hnext]

theorem keepOld_keeps {α : Type} {π : Eng → α} (c : Ctx) (line n : Nat) (wc : Nat → Nat) (s : State)
    (hπ : ∀ e olds, π { e with olds := olds } = π e := by intros; rfl) : Keeps π s (keepOld c line n wc s) :=
  engMod_keeps _ _ _ fun e => hπ e _

theorem noteLines_books (c : Ctx) (line n : Nat) (wc : Nat → Nat) (s : State) : Keeps Eng.bare s (noteLines c line n wc s) :=
  segMod_books _ _ _ _

theorem writeLines_core (c : Ctx) (line : Nat) (ls : List (Line × Mark)) (wc : Nat → Nat) (s : State) :
    Keeps Eng.core s (c.writeLines line ls wc s) := by
  have hline (x : (Line × Mark) × Nat) (m : Mark) (s : State) :
      Keeps Eng.core s (c.writeLine (line + x.2) x.1.1 (x.1.2 ||| m) (wc x.2) s) := by
    unfold Ctx.writeLine
    split
    · exact cPut_core _ _ _ _ _
    · split
      · exact pendWrite_core _ _ _
      · exact turnAway_core _ _ _ _ _ _ _
  exact (keepOld_keeps _ _ _ _ _).trans ((foldS_keeps (fun x s => hline x _ s) _ _).trans (noteLines_books _ _ _ _ _).core)

/-! ### What the cases of a DRAIN leave -/

/-- The core of an engine with its Carrel's data and its waiting records. -/
def Eng.coreLines (e : Eng) : Eng := { e.core with carrel := e.carrel, recWrs := e.recWrs }

theorem Keeps.coreLines {s t : State} (h : Keeps Eng.bare s t) : Keeps Eng.coreLines s t :=
  h.mono fun e e' he => (congrArg Eng.coreLines he : e.bare.coreLines = e'.bare.coreLines)

theorem Keeps.coreOfLines {s t : State} (h : Keeps Eng.coreLines s t) : Keeps Eng.core s t :=
  h.mono fun e e' he => (congrArg Eng.core he : e.coreLines.core = e'.coreLines.core)

theorem Keeps.carrel {s t : State} (h : Keeps Eng.coreLines s t) (k : Nat) : (eng t k).carrel = (eng s k).carrel :=
  (congrArg Eng.carrel (h.engs k) : (eng t k).coreLines.carrel = (eng s k).coreLines.carrel)

theorem Keeps.recWrs {s t : State} (h : Keeps Eng.coreLines s t) (k : Nat) : (eng t k).recWrs = (eng s k).recWrs :=
  (congrArg Eng.recWrs (h.engs k) : (eng t k).coreLines.recWrs = (eng s k).coreLines.recWrs)

theorem Keeps.slotGet {s t : State} (h : Keeps Eng.core s t) (k n : Nat) : slotGet t k n = slotGet s k n :=
  congrArg (fun m => tabGet (fun _ => ({} : Slot)) m n) (congrArg Eng.slots (h.engs k) : (eng t k).core.slots = (eng s k).core.slots)

theorem tagClear_lines (k n : Nat) (s : State) : Keeps Eng.coreLines s (tagClear k n s) := by
  unfold tagClear tagSet
  split
  · exact Keeps.refl _ s
  · exact engMod_keeps _ _ _

theorem lastDrain_setDrain (g : Seg) (d : Option DrainSt) (a : ArraySt) : (a.setDrain g d).lastDrain g = d := by cases g <;> rfl

theorem lastDrain_startDrain (g : Seg) (d : DrainSt) (a : ArraySt) : (a.startDrain g d).lastDrain g = some d := by cases g <;> rfl

theorem drainFault_lines (c : Ctx) (o : DrainOp) (bad : Nat) (s : State) :
    Keeps Eng.coreLines s (drainFault c o true bad s) ∧ (eng (drainFault c o true bad s) c.k).arr.lastDrain c.g = none := by
  unfold drainFault
  rcases drainBases c o with ⟨db, rb, gb⟩
  dsimp -zeta only
  extract_lets n pa s1 s2 own sets
  have hmark : Keeps Eng.coreLines s s1 := foldS_keeps (fun _ _ => whenS_keeps (fun _ => engMod_keeps _ _ _) _) _ _
  have hstat : Keeps Eng.coreLines s1 s2 := statFail_keeps _ _ _ _
  have hfault : Keeps Eng.coreLines s2 (c.fault bad s2) := (schedFault_books _ _ _ _ _ _ _).coreLines
  exact ⟨hmark.trans (hstat.trans (hfault.trans ((whenS_keeps (tagClear_lines _ _) _).trans (engMod_keeps _ _ _)))),
    (congrArg (fun a : ArraySt => a.lastDrain c.g) (arr_arrMod_self _ _ _)).trans (lastDrain_setDrain _ _ _)⟩

theorem drainEvents_books (c : Ctx) (o : DrainOp) (els : List DrainEl) (s : State) : Keeps Eng.bare s (drainEvents c o els s) := by
  unfold drainEvents
  extract_lets fl pol s1 s2 s3
  have hrec : LogOnly s1 s2 := by
    simp only [s2]
    split
    · split
      · exact LogOnly.refl _
      · exact vecRecord_logOnly _ _ _ _ _ _ _ _ _
    · exact LogOnly.refl _
  exact ((countFlags_logOnly _ _ _).trans hrec).keeps.trans ((whenS_keeps (numTrap_keeps _ _ _) _).trans (consume_keeps _ _ _ _ _ _))

/-- The state in which a DRAIN that does not fault has taken its ports. -/
def Ctx.drainStart (c : Ctx) (o : DrainOp) : State :=
  busyTo c.k c.g (drainDone c.cyc (o.nm1.toNat + 1) (drainRate o) o.mul)
    (arrayClaims c.k c.cyc (drainClaims c o (drainRate o)) (settle c.k c.cyc (revealChk c c.s)))

/-- A DRAIN with valid slots has written `ls` and runs as `d`; its record, where it has one, is still to be queued. -/
def Ctx.drained (c : Ctx) (o : DrainOp) (d : DrainSt) (els : List DrainEl) (ls : List (Line × Mark)) : State :=
  arrMod c.k (ArraySt.startDrain c.g d)
    (drainEvents c o els (c.writeLines (drainBases c o).1.toNat ls (drainCyc c o) (takeFree (c.drainStart o)).2))

/-- The record write that waits after a DRAIN of a slot with an output record (R129). -/
structure DrainRecord (c : Ctx) (o : DrainOp) (out : OutRec) (w : RecWr) : Prop where
  line : w.line = (drainBases c o).1.toNat + (o.nm1.toNat + 1) * linesPerVec (fmtD o.dfmt)
  due : w.due = drainDone c.cyc (o.nm1.toNat + 1) (drainRate o) o.mul + 1
  tag : w.tag = o.tag.toNat
  seg : w.seg = c.g
  isDrain : w.isDrain = true
  tid : w.record.tid = out.tid
  seq : w.record.seq = out.seq

section
variable {h : IssueHdr} {o : DrainOp} {s : State} {c : Ctx}
  (hc : issue .array (((eng s (storeKey s h.leng.toNat)).arr.flights.filter fun f => decide (f.op.dsth = o.half)).foldl
    (fun t f => max t (f.commit + 1)) 0) h s = some c)
include hc

theorem doDrain_of_fault (hbad : drainBad (settle c.k c.cyc (revealChk c c.s)) c o ≠ 0) :
    doDrain h o s = drainFault c o true (drainBad (settle c.k c.cyc (revealChk c c.s)) c o) (settle c.k c.cyc (revealChk c c.s)) := by
  unfold doDrain
  rw [issued, hc]
  exact if_pos hbad

theorem doDrain_of_invalid {m : Mark} (hbad : drainBad (settle c.k c.cyc (revealChk c c.s)) c o = 0)
    (hslots : drainSlots (c.drainStart o) c o = some m) :
    ∃ d out line n, d.op = o ∧ d.issue = c.cyc ∧ doDrain h o s = arrMod c.k (ArraySt.startDrain c.g d)
      (tagClear c.k o.tag.toNat (cMarks c.k line n m (statFail c.leng c.g out (c.drainStart o)))) := by
  unfold doDrain
  rw [issued, hc]
  dsimp -zeta only
  extract_lets s1 bad n r done dst nl pa s2 st els s0 t traps failed extra ls s3 s4 trig run s5
  rw [if_neg (not_not.2 hbad), show drainSlots s2 c o = some m from hslots]
  exact ⟨_, _, _, _, rfl, rfl, rfl⟩

theorem doDrain_of_valid (hbad : drainBad (settle c.k c.cyc (revealChk c c.s)) c o = 0) (hslots : drainSlots (c.drainStart o) c o = none) :
    ∃ d els, ∃ ls : List (Line × Mark), d.op = o ∧ d.issue = c.cyc ∧
      (∀ (i : Nat) (l : Line × Mark), (elLines (fmtD o.dfmt) ((o.nm1.toNat + 1) * linesPerVec (fmtD o.dfmt))
          (drainEls (c.drainStart o) c o 0 (drainBases c o).2.1.toNat (drainBases c o).2.2.toNat))[i]? = some l →
        ∃ m, ls[i]? = some (l.1, m)) ∧
      ((slotGet (settle c.k c.cyc (revealChk c c.s)) c.k o.aslot.toNat).out = none → doDrain h o s = c.drained o d els ls) ∧
      ∀ out, (slotGet (settle c.k c.cyc (revealChk c c.s)) c.k o.aslot.toNat).out = some out → ∃ w f,
        doDrain h o s = busyTo c.k c.g w.due (engMod c.k (fun e => { e with recWrs := e.recWrs ++ [w] })
          (segMod c.k c.g f (c.drained o d els ls))) ∧ (∀ x, (f x).counters = x.counters) ∧ DrainRecord c o out w := by
  unfold doDrain
  rw [issued, hc]
  dsimp -zeta only
  extract_lets s1 bad n r done dst nl pa s2 st els s0 t traps failed extra ls s3 s4 trig run s5 s6 m
  rw [if_neg (not_not.2 hbad), show drainSlots s2 c o = none from hslots]
  refine ⟨{ s5 with run := some run }, els, ls, rfl, rfl, fun i l hl => ?_, fun hout => ?_, fun out hout => ?_⟩
  · have hmap := congrArg (Option.map fun l : Line × Mark => (l.1, l.2 ||| extra)) hl
    rw [← List.getElem?_map] at hmap
    exact ⟨l.2 ||| extra, hmap⟩
  · dsimp -zeta only
    rw [show pa.out = none from hout]
    rfl
  · dsimp -zeta only
    rw [show pa.out = some out from hout]
    exact ⟨_, _, rfl, fun _ => rfl, rfl, rfl, rfl, rfl, rfl, rfl, rfl⟩

end

/-! ### The drain that is under way -/

section
variable (c : Ctx) (o : DrainOp) (d : DrainSt) (els : List DrainEl) (ls : List (Line × Mark))

theorem drainStart_core : Keeps Eng.core (settle c.k c.cyc (revealChk c c.s)) (c.drainStart o) :=
  (arrayClaims_core _ _ _ _).trans (busyTo_books _ _ _ _).core

theorem drained_core : Keeps Eng.core (c.drainStart o) (c.drained o d els ls) :=
  (takeFree_keeps _).trans ((writeLines_core _ _ _ _ _).trans ((drainEvents_books _ _ _ _).core.trans (engMod_keeps _ _ _)))

theorem lastDrain_drained : (eng (c.drained o d els ls) c.k).arr.lastDrain c.g = some d :=
  (congrArg (fun a : ArraySt => a.lastDrain c.g) (arr_arrMod_self _ _ _)).trans (lastDrain_startDrain _ _ _)

/-- Where no window is open every line of a drain is written, and no record. -/
theorem drained_of_noWindow (hopen : (eng (c.drainStart o) c.k).openH = []) :
    (eng (c.drained o d els ls) c.k).recWrs = (eng (c.drainStart o) c.k).recWrs ∧
      ∀ i l, ls[i]? = some l → (cRead (c.drained o d els ls) c.k ((drainBases c o).1.toNat + i)).1 = l.1 := by
  have hkeep : Keeps Eng.recWrs (c.drainStart o)
      (keepOld c (drainBases c o).1.toNat ls.length (drainCyc c o) (takeFree (c.drainStart o)).2) :=
    (takeFree_keeps _).trans (keepOld_keeps _ _ _ _ _)
  have hopen' : (eng (keepOld c (drainBases c o).1.toNat ls.length (drainCyc c o) (takeFree (c.drainStart o)).2) c.k).openH = [] :=
    (((takeFree_keeps (c.drainStart o)).trans (keepOld_keeps (π := Eng.openH) _ _ _ _ _)).engs c.k).trans hopen
  have hafter (s : State) : Keeps Eng.coreLines s (arrMod c.k (ArraySt.startDrain c.g d)
      (drainEvents c o els (noteLines c (drainBases c o).1.toNat ls.length (drainCyc c o) s))) :=
    (noteLines_books _ _ _ _ _).coreLines.trans ((drainEvents_books _ _ _ _).coreLines.trans (engMod_keeps _ _ _))
  unfold Ctx.drained Ctx.writeLines
  dsimp only
  rw [foldS_writeLine_of_noWindow _ _ _ _ hopen']
  refine ⟨((hafter _).recWrs c.k).trans (((putLines_keeps (π := Eng.recWrs) _ _ _ _ _).engs c.k).trans (hkeep.engs c.k)), fun i l hl => ?_⟩
  have hput := cRead_putLines c.k (drainBases c o).1.toNat (segMark (takeFree (c.drainStart o)).2 c.k c.g) ls 0
    (keepOld c (drainBases c o).1.toNat ls.length (drainCyc c o) (takeFree (c.drainStart o)).2) hl
  rw [Nat.zero_add] at hput
  exact (cRead_congr ((hafter _).carrel c.k) _).trans hput

end

/-- A record that is queued is the last of those that wait; the array and the Carrel stay. -/
theorem queueRecord (k : Nat) (g : Seg) (w : RecWr) (f : SegSt → SegSt) (hf : ∀ x, (f x).counters = x.counters) (s : State) :
    Keeps Eng.core s (busyTo k g w.due (engMod k (fun e => { e with recWrs := e.recWrs ++ [w] }) (segMod k g f s))) ∧
      (eng (busyTo k g w.due (engMod k (fun e => { e with recWrs := e.recWrs ++ [w] }) (segMod k g f s))) k).arr = (eng s k).arr ∧
      (eng (busyTo k g w.due (engMod k (fun e => { e with recWrs := e.recWrs ++ [w] }) (segMod k g f s))) k).carrel = (eng s k).carrel ∧
      (eng (busyTo k g w.due (engMod k (fun e => { e with recWrs := e.recWrs ++ [w] }) (segMod k g f s))) k).recWrs =
        (eng s k).recWrs ++ [w] := by
  have hseg := segMod_books k g f s hf
  have hbusy := busyTo_books k g w.due (engMod k (fun e => { e with recWrs := e.recWrs ++ [w] }) (segMod k g f s))
  have hrec : eng (engMod k (fun e => { e with recWrs := e.recWrs ++ [w] }) (segMod k g f s)) k =
      { eng (segMod k g f s) k with recWrs := (eng (segMod k g f s) k).recWrs ++ [w] } := by
    rw [eng_engMod, if_pos rfl]
  refine ⟨hseg.core.trans ((engMod_keeps _ _ _).trans hbusy.core), ?_, ?_, ?_⟩
  · rw [hbusy.arr, hrec, ← hseg.arr]
  · rw [hbusy.coreLines.carrel, hrec, ← hseg.coreLines.carrel]
  · rw [hbusy.coreLines.recWrs, hrec, ← hseg.coreLines.recWrs]

/-! ### DRAIN -/

/-- Settles O17: each case of a DRAIN is the drain of its lines, its marks or its fault (`doDrain_of_fault`, `doDrain_of_invalid`,
`doDrain_of_valid`); with no window open its lines are put one after another (`drained_of_noWindow`), and then its record is queued
(`queueRecord`). -/
theorem drainWrites : Obligations.DrainWrites := by
  rintro h o s c s1 s2 hwf hc rfl rfl
  refine ⟨doDrain h o s, ?_, ?_⟩
  · show gate (Instr.drain h o).wf (doDrain h o s) = _
    rw [hwf, gate_true]
  obtain ⟨-, -, -, -, -, hg, -⟩ := issue_some hc
  have hset : Keeps Eng.core c.s (settle c.k c.cyc (revealChk c c.s)) := (revealChk_books _ _).core.trans (settle_core _ _ _)
  have hstart := hset.trans (drainStart_core c o)
  have hslot := (drainStart_core c o).slotGet c.k o.aslot.toNat
  by_cases hbad : drainBad (settle c.k c.cyc (revealChk c c.s)) c o = 0
  case neg =>
    rw [doDrain_of_fault hc hbad]
    obtain ⟨hlines, hlast⟩ := drainFault_lines c o (drainBad (settle c.k c.cyc (revealChk c c.s)) c o) (settle c.k c.cyc (revealChk c c.s))
    exact ⟨pcMoved_of_keeps hc (hset.trans hlines.coreOfLines), fun _ => ⟨hlast, hlines.carrel c.k⟩, fun h => absurd h hbad⟩
  cases hslots : drainSlots (c.drainStart o) c o with
  | some m =>
    have hinvalid : drainSlots (c.drainStart o) c o ≠ none := by simp [hslots]
    obtain ⟨d, out, line, n, hop, hissue, hdrain⟩ := doDrain_of_invalid hc hbad hslots
    have hlines : Keeps Eng.coreLines (c.drainStart o) (doDrain h o s) := by
      rw [hdrain]
      exact (statFail_keeps _ _ _ _).trans ((foldS_keeps (fun _ _ => engMod_keeps _ _ _) _ _).trans ((tagClear_lines _ _ _).trans
        (engMod_keeps _ _ _)))
    have hlast : (eng (doDrain h o s) c.k).arr.lastDrain c.g = some d := by
      rw [hdrain]
      exact (congrArg (fun a : ArraySt => a.lastDrain c.g) (arr_arrMod_self _ _ _)).trans (lastDrain_startDrain _ _ _)
    exact ⟨pcMoved_of_keeps hc (hstart.trans hlines.coreOfLines), fun h => absurd hbad h, fun _ => ⟨⟨d, hlast, hop, hissue⟩,
      fun _ => hlines.carrel c.k, fun hvalid => absurd hvalid hinvalid, fun hvalid => absurd hvalid hinvalid⟩⟩
  | none =>
    obtain ⟨d, els, ls, hop, hissue, hls, hnone, hsome⟩ := doDrain_of_valid hc hbad hslots
    have hlast := lastDrain_drained c o d els ls
    have hqueue : Keeps Eng.core (c.drained o d els ls) (doDrain h o s) ∧
        (eng (doDrain h o s) c.k).arr = (eng (c.drained o d els ls) c.k).arr ∧
        (eng (doDrain h o s) c.k).carrel = (eng (c.drained o d els ls) c.k).carrel := by
      cases hout : (slotGet (settle c.k c.cyc (revealChk c c.s)) c.k o.aslot.toNat).out with
      | none =>
        rw [hnone hout]
        exact ⟨Keeps.refl _ _, rfl, rfl⟩
      | some out =>
        obtain ⟨w, f, hdrain, hf, -⟩ := hsome out hout
        rw [hdrain]
        obtain ⟨hcore, harr, hcarrel, -⟩ := queueRecord c.k c.g w f hf (c.drained o d els ls)
        exact ⟨hcore, harr, hcarrel⟩
    obtain ⟨hcore, harr, hcarrel⟩ := hqueue
    refine ⟨pcMoved_of_keeps hc (hstart.trans ((drained_core c o d els ls).trans hcore)), fun h => absurd hbad h,
      fun _ => ⟨⟨d, by rw [harr]; exact hlast, hop, hissue⟩, fun h => absurd hslots h, fun _ hopen i l hl => ?_, fun _ hopen => ?_⟩⟩
    · obtain ⟨m, hm⟩ := hls i l hl
      exact (cRead_congr hcarrel _).trans ((drained_of_noWindow c o d els ls hopen).2 i (l.1, m) hm)
    · have hrecs := (drained_of_noWindow c o d els ls hopen).1
      refine ⟨fun hout => ?_, fun out hout => ?_⟩
      · rw [hnone ((congrArg Slot.out hslot).symm.trans hout)]
        exact hrecs
      · obtain ⟨w, f, hdrain, hf, hw⟩ := hsome out ((congrArg Slot.out hslot).symm.trans hout)
        obtain ⟨-, -, -, hqueued⟩ := queueRecord c.k c.g w f hf (c.drained o d els ls)
        refine ⟨w, ?_, hw.line, hw.due, hw.tag, hw.seg.trans hg, hw.isDrain, hw.tid, hw.seq⟩
        rw [hdrain, hqueued, hrecs]
        rfl

end Sys2Proof.Machine
end

