-- ==== Sys2Proof/Proofs/ExactSum.lean ====
section
/-! PROOF. The exact path sums its products in any order to the same quire (R59, R60). -/

namespace Sys2Proof.Machine

/-- The quire a sum starts from: its source element's, or zero (R58). -/
def quireStart : Option BankVal → QVal
  | some (.quire v) => v
  | _ => .int 0

/-- The product of a pair of operand words, as a quire takes it. -/
def quireProduct (q xf wf : Fmt) (p : Nat × Nat) : QVal := ((readVal xf p.1).1.mul (readVal wf p.2).1).1.toQ q

/-- R41: what a quire has taken does not say in which order it came; quire NaR stays. -/
theorem QVal.add_right_comm (a b c : QVal) : (a.add b).add c = (a.add c).add b := by
  cases a with
  | nar => rfl
  | int x =>
    cases b with
    | nar => cases c <;> rfl
    | int y =>
      cases c with
      | nar => rfl
      | int z => exact congrArg QVal.int (Int.add_right_comm x y z)

/-- The value of the exact path is the fold of its products into the quire. -/
theorem sumExact_val (q xf wf : Fmt) (src : Option BankVal) (ps : List (Nat × Nat)) :
    (sumExact q xf wf src (ps.map (·.1)) (ps.map (·.2))).val =
      .quire (ps.foldl (fun a p => a.add (quireProduct q xf wf p)) (quireStart src)) := by
  have hzip : (ps.map (·.1)).zip (ps.map (·.2)) = ps := by
    rw [List.zip_map', List.map_id']
  unfold sumExact
  simp only [hzip, List.foldl_map]
  rfl

/-- Settles O15: the products enter the quire by integer addition, which does not see their order. -/
theorem exactSumOrderFree : Obligations.ExactSumOrderFree := by
  intro q xf wf src ps qs hperm
  rw [sumExact_val, sumExact_val]
  exact congrArg BankVal.quire (hperm.foldl_eq' (fun x _ y _ a => QVal.add_right_comm a _ _) _)

end Sys2Proof.Machine
end

