-- ==== Sys2Proof/Proofs/EngineFrameFails.lean ====
section
/-! PROOF. A WTICK that finds a wrong signature marks what the other segment has left in the lane registers (R245, R246). -/

namespace Sys2Proof.Machine

/-- Logical engine 0 with a job in either segment: the RT segment stands at a WTICK, the BG segment has written lane 0 of its lane
register 8 in its present step. The expected signature on its SEQ page is not that of the word it has issued (R247). -/
def bgWroteLane : State :=
  { State.reset with
    regs := [(ridx pgMod 0x40, 2)]
    engs := [(0, { rt := { st := 1 }, bg := { st := 2 }, vec := { vr := [(64 * 8, { tag := some .p32, ready := 1 })] } })]
    jobs := [(0, { st := 2, bound := true, engMask := 1 }), (1, { st := 2, bound := true, engMask := 1, bg := true })] }

/-- The WTICK's header: it issues in the cycle after the segment's start, and no bit error strikes. -/
def wtickHdr : IssueHdr := { leng := 0, seg := .rt, delay := 1 }

/-- The signature does not match, so everything the BG segment has written in its step is FAILED (R245, R247). -/
theorem doWtick_marks_bg_lane :
    (laneGet (doWtick wtickHdr bgWroteLane) 0 8 0).mark = mkFailed ∧ (laneGet bgWroteLane 0 8 0).mark = 0 := by
  decide +kernel

/-- Refutes O51: a WTICK with a wrong signature is a sequencer fault, which marks the BG segment's lane register FAILED, though no bit
error strikes and the instruction is neither DRAIN nor DRAINR. -/
theorem not_engineFrame : ¬ Obligations.EngineFrame := by
  unfold Obligations.EngineFrame
  intro hframe
  obtain ⟨-, -, -, -, -, -, -, hstorage, -⟩ := hframe wtickHdr .wtick bgWroteLane (doWtick wtickHdr bgWroteLane) 0 (by decide) rfl rfl
  obtain ⟨hlanes, -⟩ := hstorage rfl (.inl fun d => ⟨nofun, nofun⟩)
  obtain ⟨hafter, hbefore⟩ := doWtick_marks_bg_lane
  rw [hlanes 8 0, hbefore] at hafter
  exact absurd hafter (by decide)

end Sys2Proof.Machine
end

