-- ==== Sys2Proof/Proofs/ChainWordsFails.lean ====
section
/-! PROOF. A pass in flight whose note names a register beyond its engine's NUMEV page takes a receiving engine out of service as it is
formed again. -/

namespace Sys2Proof.Machine

/-- The distance, in bytes, from engine 0's NUMEV page to the HCTL register of the SEQ page of die 1's first engine. -/
def strayOffset : Nat := 4096 * (pgEng 5 0 - pgEng 0 7) + 0x08

/-- A pass that is to be formed again and whose note gives, as a word of the pass record before it, a word of that HCTL register. -/
def strayFlight : Flight :=
  { seg := .rt, pc := 0, cyc := 0, commit := 0, idx := 0, nprob := 1, region := 256, beats := 1, chk := false, selected := false, iter := [],
    workTick := 0, redo := true, note := { job := some 0, first := [(strayOffset, 0)] },
    op := { adv := false, fmt := 0, fast := false, ksplit := 0, dsth := true, src := false, mm1 := 0, boff := 0, in0 := 0, in1 := 0,
            in2 := 0, in3 := 0 } }

/-- Logical engine 0, running an RT job, with a tagged half to send from and that pass in flight to the other half. -/
def strayPass : State :=
  { State.reset with
    regs := [(ridx pgMod 0x40, 2)]
    engs := [(0, { rt := { st := 1, last := 9 }, arr := { half0 := { tag := some .q8 }, flights := [strayFlight] } })]
    jobs := [(0, { st := 2, bound := true, engMask := 1 })] }

/-- The header of the chain send: it issues after the pass's commit. -/
def chainHdr : IssueHdr := { leng := 0, seg := .rt, delay := 1 }

/-- One vector to logical engine 4, the first of die 1. -/
def chainToDie1 : CsendOp := { half := false, base := 0, nm1 := 0, dle := 4, ch := 0 }

set_option maxRecDepth 4000 in
/-- The premises of the statement hold there. -/
theorem strayPass_meets :
    absent strayPass 4 = false ∧ ((issue .chain 0 chainHdr strayPass).any fun c => decide (ownerOf c.s c.leng c.g = some 0) &&
      decide (chainSrcBad (settle c.k c.cyc c.s) c false 0 1 = 0)) = true := by
  decide +kernel

set_option maxRecDepth 4000 in
/-- The receiving engine counts as absent once the pass has been formed again, so nothing is sent (R193). -/
theorem doCsend_strayPass_chains : (doCsend chainHdr chainToDie1 strayPass).chains = [] := by decide +kernel

/-- Refutes O28: `Obligations.ChainWords` asks of the receiving engine that it is present before the CSEND issues. The pass in flight is
formed again in between, and takes back the pass record by its note; no PASS leaves a note with such a register, but the statement
takes every state. -/
theorem not_chainWords : ¬ Obligations.ChainWords := by
  unfold Obligations.ChainWords
  intro hwords
  obtain ⟨hpresent, hissue⟩ := strayPass_meets
  obtain ⟨c, hc, hmeets⟩ := (Option.any_eq_true _ _).1 hissue
  simp only [Bool.and_eq_true, decide_eq_true_eq] at hmeets
  obtain ⟨howner, hsrc⟩ := hmeets
  obtain ⟨hcsend, -⟩ := hwords chainHdr strayPass c 0 hc howner
  obtain ⟨t, ht, -, ⟨x, hsent, -⟩, -⟩ := hcsend chainToDie1 hsrc hpresent
  have hrun : exec (.csend chainHdr chainToDie1) strayPass = .next (doCsend chainHdr chainToDie1 strayPass) := rfl
  rw [hrun] at ht
  injection ht with ht
  rw [← ht, doCsend_strayPass_chains] at hsent
  simp at hsent

end Sys2Proof.Machine
end

