-- ==== Sys2Proof/Proofs/CounterRegisters.lean ====
section
/-! PROOF. Which registers of an engine's page the shared records, events and counters leave as they were. -/

namespace Sys2Proof.Machine

/-- A register of a die's or an engine's page, other than the page's event register. -/
structure PlainReg (q off : Nat) : Prop where
  page : 0x400 ≤ q
  inPage : off < 4096
  notEvents : off / 4 ≠ 4

/-- A register is kept. -/
def regKept (q off : Nat) (s t : State) : Prop := rget t q off = rget s q off

section
variable {q off : Nat} {s t u : State}

theorem regKept_refl (q off : Nat) (s : State) : regKept q off s s := rfl

theorem regKept.trans (h : regKept q off s t) (k : regKept q off t u) : regKept q off s u := Eq.trans k h

theorem regKept_of_regs (h : t.regs = s.regs) : regKept q off s t := by simp [regKept, rget, h]

theorem regKept.fget_eq (h : regKept q off s t) (lo w : Nat) : fget t q off lo w = fget s q off lo w := by
  rw [fget, fget, h]

theorem whenS_regKept {c : Bool} {f : State → State} (h : ∀ s, regKept q off s (f s)) (s : State) : regKept q off s (whenS c f s) := by
  cases c
  · exact regKept_refl q off s
  · exact h s

theorem foldS_regKept {α : Type} {f : α → State → State} (h : ∀ a s, regKept q off s (f a s)) (l : List α) (s : State) :
    regKept q off s (foldS l f s) := by
  induction l generalizing s with
  | nil => exact regKept_refl q off s
  | cons a t ih => exact (h a s).trans (ih (f a s))

theorem rset_regKept {p off' : Nat} (hne : ridx q off ≠ ridx p off') (v : Word) (s : State) : regKept q off s (rset p off' v s) := by
  rw [regKept, rget_rset, if_neg hne]

theorem fset_regKept {p off' : Nat} (hne : ridx q off ≠ ridx p off') (lo w x : Nat) (s : State) :
    regKept q off s (fset p off' lo w x s) := rset_regKept hne _ s

theorem finc_regKept {p off' : Nat} (hne : ridx q off ≠ ridx p off') (lo w n : Nat) (s : State) :
    regKept q off s (finc p off' lo w n s) := rset_regKept hne _ s

/-- A counter counts up to its greatest value (R398). -/
theorem fget_finc_self {p off lo w : Nat} (hw : lo + w ≤ 32) (n : Nat) (s : State) :
    fget (finc p off lo w n s) p off lo w = min (fget s p off lo w + n) (2 ^ w - 1) := by
  have hpos := Nat.two_pow_pos w
  exact fget_fset_self _ _ _ _ _ _ hw (by omega)

theorem fget_lt (s : State) (p off lo w : Nat) : fget s p off lo w < 2 ^ w := Nat.mod_lt _ (Nat.two_pow_pos w)

end

section
variable {q off : Nat} (hreg : PlainReg q off)
include hreg

theorem PlainReg.ne_low {p : Nat} (hp : p < 0x400) : q ≠ p := by
  have := hreg.page
  omega

theorem raise_regKept (p bit : Nat) (s : State) : regKept q off s (raise p bit s) := by
  refine rget_raise_of_ne (hreg.ne_low (by decide)) hreg.inPage ?_ bit s
  have hlt := hreg.inPage
  have hne := hreg.notEvents
  unfold ridx
  omega

theorem errata_regKept (x : Er) (s : State) : regKept q off s (errata x s) :=
  errata_pageKept (hreg.ne_low (by decide)) (hreg.ne_low (by decide)) x s off hreg.inPage

theorem sendEvent_regKept (code : Nat) (detail : List Nat) (s : State) : regKept q off s (sendEvent code detail s) :=
  queueEvent_pageKept (hreg.ne_low (by decide)) _ _ _ _ s off hreg.inPage

theorem errEng_regKept (ty sev l : Nat) (g : Seg) (block : Nat) (detail : List Nat) (s : State) :
    regKept q off s (errEng ty sev l g block detail s) := by
  unfold errEng
  refine regKept.trans ?_ (errata_regKept hreg _ _)
  split
  · split
    · exact regKept_of_regs rfl
    · exact regKept_refl _ _ _
  · exact regKept_refl _ _ _

end

theorem consume_regs (l : Nat) (g : Seg) (pc : Nat) (o : Nat × Option Nat) (m : Mark) (s : State) : (consume l g pc o m s).regs = s.regs := by
  unfold consume
  split
  · rfl
  · split
    · rfl
    · split <;> rfl

theorem uneat_regs (k : Nat) (g : Seg) (pc : Nat) (s : State) : (uneat k g pc s).regs = s.regs := by
  unfold uneat
  cases (lengOf s k).bind fun l => ownerOf s l g <;> rfl

end Sys2Proof.Machine
end

