-- ==== Sys2Proof/Proofs/TileLoads.lean ====
section
/-! PROOF. LDS (R86, R92, R95, R96, R110): the tile it loads, and what the spare rows and columns that take their places leave alone. -/

namespace Sys2Proof.Machine

-- One proof at a time, as in the tests: proofs that wait for one another would each hold a stack.
set_option Elab.async false

/-! ### Spare rows and columns (R110, R233, R236) -/

/-- An engine without what is written down of its faults and of the spares that are to take their places. -/
def Eng.sansRepair (e : Eng) : Eng :=
  { e with faultDue := false, statCells := [], unlocAt := [], arr := { e.arr with colReq := [], rowReq := [], heldOut := [] } }

theorem engineFaultAt_keeps (x : Nat) (s : State) : Keeps Eng.sansRepair s (engineFaultAt x s) := by
  unfold engineFaultAt
  split
  · exact engMod_keeps _ _ _
  · exact (fset_logOnly _ _ _ _ _ _).keeps

theorem bindCol_logOnly (x old n new : Nat) (s : State) : LogOnly s (bindCol x old n new s) := by
  unfold bindCol
  extract_lets p s1 s2 s3 s4
  have hfree : LogOnly s s1 := by
    simp only [s1]
    split
    · exact fset_logOnly _ _ _ _ _ _
    · split
      · exact fset_logOnly _ _ _ _ _ _
      · exact LogOnly.refl s
  have hbind : LogOnly s1 s3 := (whenS_logOnly _ _ (fset_logOnly _ _ _ _ _) _).trans (whenS_logOnly _ _ (fset_logOnly _ _ _ _ _) _)
  have hrec : LogOnly s3 s4 := (raise_logOnly _ _ _).trans (substitution_logOnly _ _ _ _ _ _)
  exact hfree.trans (hbind.trans (hrec.trans (whenS_logOnly _ _ (capacity_logOnly _ _ _) _)))

theorem bindRow_logOnly (x old n new : Nat) (s : State) : LogOnly s (bindRow x old n new s) := by
  unfold bindRow
  extract_lets p s1 s2 s3
  have hfree : LogOnly s s1 := by
    simp only [s1]
    split
    · exact fset_logOnly _ _ _ _ _ _
    · exact LogOnly.refl s
  have hbind : LogOnly s1 s3 := (fset_logOnly _ _ _ _ _ _).trans ((raise_logOnly _ _ _).trans (substitution_logOnly _ _ _ _ _ _))
  exact hfree.trans (hbind.trans (whenS_logOnly _ _ (capacity_logOnly _ _ _) _))

/-- The spares that take their places at an LDS change the repair's own records only. -/
theorem ldsSubst_keeps (x : Nat) (s : State) : Keeps Eng.sansRepair s (ldsSubst x s) := by
  unfold ldsSubst
  extract_lets reqs s1 s2 s3 q old
  have hcols : Keeps Eng.sansRepair s s1 := by
    refine foldS_keeps (fun c s => ?_) _ _
    split
    · exact (bindCol_logOnly _ _ _ _ _).keeps
    · exact Keeps.refl _ s
  have hrows : Keeps Eng.sansRepair s1 s2 := by
    refine foldS_keeps (fun r s => ?_) _ _
    split
    · exact (bindRow_logOnly _ _ _ _ _).keeps
    · exact Keeps.refl _ s
  have hstart : Keeps Eng.sansRepair s s3 := hcols.trans (hrows.trans (engMod_keeps _ _ _))
  split
  · split
    · exact hstart.trans ((bindCol_logOnly _ _ _ _ _).keeps.trans ((engMod_keeps _ _ _).trans (fset_logOnly _ _ _ _ _ _).keeps))
    · exact hstart.trans ((fset_logOnly _ _ _ _ _ _).keeps.trans (engineFaultAt_keeps _ _))
  · exact hstart

/-! ### What an LDS reads -/

/-- What the Carrel of an engine holds, and held before the writes under way. -/
def Eng.lines (e : Eng) : Eng := { carrel := e.carrel, cmark := e.cmark, olds := e.olds }

theorem Keeps.cReadAt {s t : State} (h : Keeps Eng.lines s t) (k line cyc : Nat) : cReadAt t k line cyc = cReadAt s k line cyc := by
  have holds : (eng t k).olds = (eng s k).olds := (congrArg Eng.olds (h.engs k) : (eng t k).lines.olds = (eng s k).lines.olds)
  have hcarrel : (eng t k).carrel = (eng s k).carrel := (congrArg Eng.carrel (h.engs k) : (eng t k).lines.carrel = (eng s k).lines.carrel)
  have hcmark : (eng t k).cmark = (eng s k).cmark := (congrArg Eng.cmark (h.engs k) : (eng t k).lines.cmark = (eng s k).lines.cmark)
  simp only [Machine.cReadAt, cRead, holds, hcarrel, hcmark]

/-- The core of an engine with its Carrel. -/
def Eng.coreCarrel (e : Eng) : Eng := { e.core with carrel := e.carrel, cmark := e.cmark, olds := e.olds }

theorem Keeps.coreOfCarrel {s t : State} (h : Keeps Eng.coreCarrel s t) : Keeps Eng.core s t :=
  h.mono fun e e' he => (congrArg Eng.core he : e.coreCarrel.core = e'.coreCarrel.core)

theorem Keeps.linesOfCarrel {s t : State} (h : Keeps Eng.coreCarrel s t) : Keeps Eng.lines s t :=
  h.mono fun e e' he => (congrArg Eng.lines he : e.coreCarrel.lines = e'.coreCarrel.lines)

theorem Keeps.coreCarrel {s t : State} (h : Keeps Eng.sansRepair s t) : Keeps Eng.coreCarrel s t :=
  h.mono fun e e' he => (congrArg Eng.coreCarrel he : e.sansRepair.coreCarrel = e'.sansRepair.coreCarrel)

/-! ### The tile -/

/-- The tile of an LDS whose lines read as `ls` (R86, R95). -/
def loadedTile (o : LdsOp) (base : Nat) (ls : List (Line × Mark)) : Tile :=
  let ws := tileWords (fmtD o.fmt) (tileRows o.fast) (ls.map (·.1))
  { valid := true, fmt := fmtD o.fmt, fast := o.fast, ksplit := 2 ^ o.ksplit.toNat, words := ws,
    mark := ls.foldl (fun x l => x ||| l.2) 0, base := base, sums := tileSums (fmtD o.fmt) (tileRows o.fast) ws,
    wmax := tileMax (fmtD o.fmt) (tileRows o.fast) (2 ^ o.ksplit.toNat) ws }

/-- The lines of an LDS in the cycles of their reads (R95). -/
def ldsReads (o : LdsOp) (c : Ctx) (s : State) : List (Line × Mark) :=
  (List.range (linesOf (fmtD o.fmt) (tileRows o.fast * 64))).map fun i =>
    cReadAt s c.k ((advance o.adv 0 c.loops o.tbase.toNat).toNat + i) (c.cyc + 1 + i * 64 / linesOf (fmtD o.fmt) (tileRows o.fast * 64))

theorem ldsReads_congr {s t : State} (h : Keeps Eng.lines s t) (o : LdsOp) (c : Ctx) : ldsReads o c t = ldsReads o c s := by
  unfold ldsReads
  simp only [h.cReadAt]

/-- The cycle until which an LDS is held: the last pass has taken its weights (R97). -/
def ldsHeldTo (s : State) (h : IssueHdr) : Nat :=
  match (eng s (storeKey s h.leng.toNat)).arr.lastPass with
  | some (_, fe) => fe + 3
  | none => 0

/-- What an LDS leaves: its segment's program counter, and the tile of its lines, or none where it faults. -/
theorem doLds_loads {h : IssueHdr} {o : LdsOp} {s : State} {c : Ctx} (hc : issue .array (ldsHeldTo s h) h s = some c) :
    Keeps Eng.core c.s (doLds h o s) ∧
    (ldsBad (settle c.k c.cyc (revealChk c c.s)) c o ≠ 0 → (eng (doLds h o s) c.k).arr.tile.valid = false) ∧
    (ldsBad (settle c.k c.cyc (revealChk c c.s)) c o = 0 →
      (eng (doLds h o s) c.k).arr.tile =
        loadedTile o (advance o.adv 0 c.loops o.tbase.toNat).toNat (ldsReads o c (settle c.k c.cyc (revealChk c c.s))) ∧
      (eng (doLds h o s) c.k).arr.lds = some c.cyc) := by
  unfold doLds
  extract_lets k0 rel f rows n
  rw [issued, show issue .array rel h s = some c from hc]
  dsimp -zeta only
  extract_lets s0 base bad low s1 s2 s3 s4 ls m ws s5
  have hsettle : Keeps Eng.core c.s s0 := (revealChk_books _ _).core.trans (settle_core _ _ _)
  have hgap : Keeps Eng.coreCarrel s0 s2 := (gapEvent_logOnly _ _ _ _).keeps.trans (engMod_keeps _ _ _)
  have hsubst : Keeps Eng.coreCarrel s2 s4 :=
    (whenS_logOnly _ _ (rampEvent_logOnly _) _).keeps.trans (ldsSubst_keeps _ _).coreCarrel
  have hread : ls = ldsReads o c s0 := ldsReads_congr (hgap.trans hsubst).linesOfCarrel o c
  refine ⟨?_, fun hne => ?_, fun heq => ?_⟩
  · split
    · exact hsettle.trans (hgap.coreOfCarrel.trans ((schedFault_books _ _ _ _ _ _ _).core.trans (engMod_keeps _ _ _)))
    · exact hsettle.trans ((hgap.trans hsubst).coreOfCarrel.trans ((engMod_keeps _ _ _).trans
        ((consume_keeps _ _ _ _ _ _).trans (busyTo_books _ _ _ _).core)))
  · rw [if_pos hne, arr_arrMod_self]
  · rw [if_neg (not_not.2 heq), ← hread]
    have hbooks : Keeps Eng.bare s5
        (busyTo c.k c.g (c.cyc + 64) (consume c.leng c.g c.pc (poisonFrom s5 c.leng c.k [(0, base.toNat, n)] (0, none)) m s5)) :=
      (consume_keeps _ _ _ _ _ _).trans (busyTo_books _ _ _ _)
    have harr : (eng s5 c.k).arr = _ := arr_arrMod_self _ _ _
    rw [hbooks.arr, harr]
    exact ⟨rfl, rfl⟩

theorem exec_lds {h : IssueHdr} {o : LdsOp} (hwf : (Instr.lds h o).wf = true) (s : State) : exec (.lds h o) s = .next (doLds h o s) := by
  show gate (Instr.lds h o).wf (doLds h o s) = _
  rw [hwf, gate_true]

/-- Settles O13: an LDS loads the tile of its lines as its predecessors have left them (`doLds_loads`). -/
theorem stationaryLoad : Obligations.StationaryLoad := by
  intro h o s c hwf hc
  obtain ⟨hcore, hfault, hload⟩ := doLds_loads (o := o) hc
  refine ⟨doLds h o s, exec_lds hwf s, pcMoved_of_keeps hc hcore, hfault, fun hbad => ?_⟩
  obtain ⟨htile, hlds⟩ := hload hbad
  rw [htile]
  refine ⟨rfl, rfl, rfl, rfl, hlds, rfl, ?_, rfl⟩
  simp only [loadedTile, ldsReads, List.map_map, Function.comp_def]

/-! ### ARRAY.MODE (R92) -/

/-- The codes of the array's formats are read back from the format (Table 2-1). -/
theorem fmtCode_fmtD : ∀ code : BitVec 4, fmtIn code codesArr = true → fmtCode (some (fmtD code)) = code.toNat := by decide

/-- ARRAY.MODE shows the format, the fast bit and the KSPLIT of the loaded tile. -/
theorem arrayView_mode {t : State} {k : Nat} {code : BitVec 4} {split : BitVec 2} (hcode : fmtIn code codesArr = true)
    (hsplit : split.toNat < 3) (hfmt : (eng t k).arr.tile.fmt = fmtD code) (hks : (eng t k).arr.tile.ksplit = 2 ^ split.toNat) (n : Nat) :
    ∃ v, arrayView t k n 0x40 = some v ∧ bitsOf v 0 4 = code.toNat ∧ bitsOf v 4 1 = b2n (eng t k).arr.tile.fast ∧
      bitsOf v 5 2 = split.toNat := by
  refine ⟨_, rfl, ?_⟩
  rw [hfmt, hks, fmtCode_fmtD code hcode]
  have hlow := code.isLt
  have hshow : (if 2 ^ split.toNat = 4 then 2 else 2 ^ split.toNat - 1) = split.toNat := by
    generalize split.toNat = x at hsplit
    interval_cases x <;> rfl
  have hbit (b : Bool) : b2n b < 2 := by cases b <;> decide
  have hfast := hbit (eng t k).arr.tile.fast
  have hvalid := hbit (eng t k).arr.tile.valid
  rw [hshow]
  unfold bitsOf
  refine ⟨?_, ?_, ?_⟩ <;> omega

theorem lds_fields {h : IssueHdr} {o : LdsOp} (hwf : (Instr.lds h o).wf = true) : fmtIn o.fmt codesArr = true ∧ o.ksplit.toNat < 3 := by
  have hok : (EOp.lds o).ok h.seg = true := hwf
  simp only [EOp.ok, EOp.ok05, EOp.ok06, Bool.and_eq_true, decide_eq_true_eq] at hok
  obtain ⟨⟨⟨⟨⟨hsplit, hfmt⟩, -⟩, -⟩, -⟩, -⟩ := hok
  exact ⟨hfmt, hsplit⟩

end Sys2Proof.Machine
end

