-- ==== Sys2Proof/Proofs/IdleArray.lean ====
section
/-! PROOF. BAL, PASS_COMMIT and IDLE_RAMP_DOWN (R94, R103, R229, R457). -/

namespace Sys2Proof.Machine

-- One proof at a time, as in the tests: proofs that wait for one another would each hold a stack.
set_option Elab.async false

/-! ### BAL (R103) -/

/-- A segment that issues does so, in the cycle its word declares where nothing holds it. -/
theorem issue_of_issues {s : State} {h : IssueHdr} (u : EUnit) (hissues : issues s h u.page = true) :
    ∃ c, issue u 0 h s = some c ∧ c.cyc = declared s h ∧ c.k = storeKey s h.leng.toNat ∧
      (lastIn (eng s (storeKey s h.leng.toNat)) u ≠ some (declared s h) → c.dup = false) := by
  unfold issues at hissues
  simp only [Bool.and_eq_true, decide_eq_true_eq] at hissues
  obtain ⟨⟨hlive, hen⟩, hstop⟩ := hissues
  refine ⟨_, if_pos ?_, Nat.max_zero _, rfl, fun hfirst => decide_eq_false (by rw [Nat.max_zero]; exact hfirst)⟩
  rw [hlive, hen, SegSt.goesOn, show ((eng s (storeKey s h.leng.toNat)).seg h.seg).stopAt = none from hstop]
  rfl

/-- A BAL alone in its cycle opens its gap after what the array has settled. -/
theorem doBal_gap {h : IssueHdr} {s : State} {c : Ctx} (g : BitVec 20) (hc : issue .array 0 h s = some c) (hdup : c.dup = false) :
    Keeps Eng.core c.s (doBal h g s) ∧ ∃ a0, (eng (doBal h g s) c.k).arr.gap = some (c.cyc, g.toNat, a0) := by
  unfold doBal
  rw [issued, hc]
  dsimp -zeta only
  extract_lets s0 u a0 a1 s1
  rw [if_neg (by simp [hdup])]
  refine ⟨?_, a0, by rw [arr_arrMod_self]⟩
  exact (revealChk_books _ _).core.trans ((settle_core _ _ _).trans ((gapEvent_logOnly _ _ _ _).keeps.trans
    ((whenS_logOnly _ _ (rampEvent_logOnly _) _).keeps.trans (engMod_keeps _ _ _))))

/-! ### PASS_COMMIT (R94, R229) -/

/-- A pass in flight that has nothing to read again stays as it was formed. -/
theorem reformAt_of_fresh {k i : Nat} {s : State} (hfresh : ∀ f, (eng s k).arr.flights[i]? = some f → f.stale (eng s k) = false) :
    reformAt k i s = s := by
  unfold reformAt
  split
  · rfl
  · next f hf => exact if_pos (hfresh f hf)

/-- The array of an engine and its row checks. -/
def Eng.arrChecks (e : Eng) : Eng := { arr := e.arr, rowChks := e.rowChks }

theorem schedFault_arrChecks (k : Nat) (g : Seg) (pc cause cyc : Nat) (arrival : Bool) (s : State) :
    Keeps Eng.arrChecks s (schedFault k g pc cause cyc arrival s) :=
  (schedFault_books k g pc cause cyc arrival s).mono fun e e' he => (congrArg Eng.arrChecks he : e.bare.arrChecks = e'.bare.arrChecks)

theorem pendTo_arrChecks (k t : Nat) (s : State) : Keeps Eng.arrChecks s (pendTo k t s) :=
  (engMod_keeps _ _ _).trans (foldS_keeps (fun _ _ => (engMod_keeps _ _ _).trans (schedFault_arrChecks _ _ _ _ _ _ _)) _ _)

/-- The windows that end at a commit leave the array and the row checks. -/
theorem closeHolds_arrChecks (k : Nat) (g : Seg) (pc : Nat) (it : List Nat) (t : Nat) (s : State) :
    Keeps Eng.arrChecks s (closeHolds k g pc it t s) := by
  unfold closeHolds endHolds
  exact ((pendTo_arrChecks _ _ _).trans (engMod_keeps _ _ _)).trans
    ((foldS_keeps (fun _ _ => engMod_keeps _ _ _) _ _).trans (foldS_keeps (fun _ _ => engMod_keeps _ _ _) _ _))

theorem foldS_jobs {α : Type} {f : α → State → State} (hf : ∀ a s, (f a s).jobs = s.jobs) (l : List α) (s : State) :
    (foldS l f s).jobs = s.jobs := by
  induction l generalizing s with
  | nil => rfl
  | cons a l ih => exact (ih _).trans (hf a s)

theorem turnAway_jobs (k line : Nat) (g : Seg) (pc cyc : Nat) (arrival : Bool) (s : State) :
    (turnAway k line g pc cyc arrival s).jobs = s.jobs := (schedFault_samePassInputs _ _ _ _ _ _ _).jobs

/-- The windows that end at a commit leave the jobs. -/
theorem closeHolds_jobs (k : Nat) (g : Seg) (pc : Nat) (it : List Nat) (t : Nat) (s : State) : (closeHolds k g pc it t s).jobs = s.jobs := by
  have hpend : (pendTo k t s).jobs = s.jobs := by
    unfold pendTo
    rw [foldS_jobs fun _ _ => turnAway_jobs _ _ _ _ _ _ _]
    rfl
  unfold closeHolds endHolds
  extract_lets s1 l s2
  rw [foldS_jobs (f := fun w : LineW => cPut k w.line w.data w.mark) fun _ _ => rfl, foldS_jobs (f := fun a => cMark k a mkFailed) fun _ _ => rfl]
  exact hpend

/-- The row check that a checked pass waits for from its commit on (R229). -/
def Flight.rowChk (f : Flight) : RowChk :=
  { seg := f.seg, pc := f.pc, idx := f.idx, due := f.commit + 80, selected := f.selected, workTick := f.workTick, half := f.op.dsth,
    rows := f.rows }

theorem commitFlight_leaves (k : Nat) (f : Flight) (s : State) :
    (commitFlight k f s).jobs = s.jobs ∧ (eng (commitFlight k f s) k).arr = (eng s k).arr ∧
      (eng (commitFlight k f s) k).rowChks = (eng s k).rowChks ++ (if f.chk then [f.rowChk] else []) := by
  have hends := (closeHolds_arrChecks k f.seg f.pc f.iter f.commit s).engs k
  have harr : (eng (closeHolds k f.seg f.pc f.iter f.commit s) k).arr = (eng s k).arr :=
    (congrArg Eng.arr hends : (eng _ k).arrChecks.arr = (eng s k).arrChecks.arr)
  have hchks : (eng (closeHolds k f.seg f.pc f.iter f.commit s) k).rowChks = (eng s k).rowChks :=
    (congrArg Eng.rowChks hends : (eng _ k).arrChecks.rowChks = (eng s k).arrChecks.rowChks)
  have hjobs := closeHolds_jobs k f.seg f.pc f.iter f.commit s
  unfold commitFlight
  generalize closeHolds k f.seg f.pc f.iter f.commit s = s1 at harr hchks hjobs
  cases hchk : f.chk with
  | false => exact ⟨hjobs, harr, hchks.trans (by simp)⟩
  | true =>
    refine ⟨hjobs, ?_, ?_⟩
    · rw [whenS, if_pos rfl, eng_engMod, if_pos rfl]
      exact harr
    · rw [whenS, if_pos rfl, eng_engMod, if_pos rfl]
      exact congrArg (· ++ [f.rowChk]) hchks

/-- Where no slot waits for its pass boundary none is freed (R27). -/
theorem endStops_of_noneEnding {s : State} (hnone : ∀ j, j < 4 → (job s j).ending = false) : endStops s = s := by
  have hfold (l : List Nat) (hl : ∀ j ∈ l, j < 4) :
      foldS l (fun j s => if (job s j).ending && atBoundary s (job s j) then resetSlot j s else s) s = s := by
    induction l with
    | nil => rfl
    | cons j l ih =>
      have hstay : (if (job s j).ending && atBoundary s (job s j) then resetSlot j s else s) = s := by
        rw [hnone j (hl j List.mem_cons_self)]
        rfl
      show foldS l _ (if (job s j).ending && atBoundary s (job s j) then resetSlot j s else s) = s
      rw [hstay]
      exact ih fun i hi => hl i (List.mem_cons_of_mem j hi)
  exact hfold _ fun j hj => List.mem_range.1 hj

/-- A pass in flight that has nothing to read again commits as it was formed. -/
theorem doPassCommit_of_fresh {l : Nat} {s : State} {f : Flight} {rest : List Flight}
    (hflights : (eng s (storeKey s l)).arr.flights = f :: rest) (hfresh : f.stale (eng s (storeKey s l)) = false) :
    doPassCommit l s = arrMod (storeKey s l) (fun a => { a with flights := a.flights.drop 1 }) (commitFlight (storeKey s l) f s) := by
  unfold doPassCommit commitOldest
  rw [reformAt_of_fresh fun g hg => by
    rw [hflights] at hg
    cases hg
    exact hfresh]
  dsimp only
  rw [hflights]

/-! ### IDLE_RAMP_DOWN (R457) -/

/-- The array once the gap is over and 64 more idle cycles have passed, its level `i.2` from cycle `i.1` on. -/
def ArraySt.idleFor64 (i : Nat × Nat) (a : ArraySt) : ArraySt :=
  if i.2 = 0 then { a with gap := none, actEnd := i.1, actLvl := i.2 } else { a with gap := none, actEnd := i.1 + 64, actLvl := i.2 - 1 }

theorem idleFor64_fields (i : Nat × Nat) (a : ArraySt) :
    (a.idleFor64 i).gap = none ∧ (a.idleFor64 i).actLvl = i.2 - 1 ∧ (a.idleFor64 i).actEnd = if i.2 = 0 then i.1 else i.1 + 64 := by
  unfold ArraySt.idleFor64
  split
  · next h => exact ⟨rfl, by simp [h], rfl⟩
  · exact ⟨rfl, rfl, rfl⟩

theorem arr_doIdleRampDown (l : Nat) (s : State) :
    (eng (doIdleRampDown l s) (storeKey s l)).arr =
      (eng s (storeKey s l)).arr.idleFor64 (idleFrom (rampU (stepOf s (zoneOf l))) (eng s (storeKey s l)).arr) := by
  unfold doIdleRampDown
  extract_lets k u s1
  have harr : (eng s1 k).arr = (eng s k).arr := congrArg Eng.arr (eng_of_engs (gapEvent_logOnly _ _ _ _).engs k)
  rw [arr_arrMod_self, harr]
  rfl

/-! ### The obligation -/

/-- Settles O16: a BAL opens its gap (`doBal_gap`), the oldest pass commits as it was formed (`doPassCommit_of_fresh`,
`commitFlight_leaves`), and the idle ramp goes one step down (`arr_doIdleRampDown`). -/
theorem arrayIdle : Obligations.ArrayIdle := by
  refine ⟨fun h g s hwf hissues hfirst => ?_, fun l s f rest hflights hending hfresh => ?_, fun l s => ?_⟩
  · obtain ⟨c, hc, hcyc, hk, hdup⟩ := issue_of_issues .array hissues
    obtain ⟨hcore, hgap⟩ := doBal_gap g hc (hdup hfirst)
    refine ⟨doBal h g s, ?_, pcMoved_of_keeps hc hcore, ?_⟩
    · show gate (Instr.bal h g).wf (doBal h g s) = _
      rw [hwf, gate_true]
    · rwa [← hcyc, ← hk]
  · have hcommit := doPassCommit_of_fresh hflights hfresh
    obtain ⟨hjobs, harr, hchks⟩ := commitFlight_leaves (storeKey s l.toNat) f s
    have hstop : endStops (doPassCommit l.toNat s) = doPassCommit l.toNat s := by
      refine endStops_of_noneEnding fun j hj => ?_
      rw [hcommit, job, arrMod, engMod_jobs, hjobs]
      exact hending j hj
    refine ⟨doPassCommit l.toNat s, congrArg _ hstop, ?_, ?_⟩
    · rw [hcommit, arr_arrMod_self, harr, hflights]
      rfl
    · have hrows : (eng (doPassCommit l.toNat s) (storeKey s l.toNat)).rowChks =
          (eng s (storeKey s l.toNat)).rowChks ++ (if f.chk then [f.rowChk] else []) := by
        rw [hcommit, ← hchks]
        exact (engMod_keeps (π := Eng.rowChks) _ _ _).engs _
      rw [hrows]
      exact ⟨fun hchk => ⟨f.rowChk, by rw [if_pos hchk], rfl, rfl, rfl, rfl⟩, fun hchk => by simp [hchk]⟩
  · have harr := arr_doIdleRampDown l.toNat s
    generalize eng s (storeKey s l.toNat) = e at harr
    obtain ⟨hgap, hlvl, hend⟩ := idleFor64_fields (idleFrom (rampU (stepOf s (zoneOf l.toNat))) e.arr) e.arr
    refine ⟨doIdleRampDown l.toNat s, rfl, ?_⟩
    rw [harr, hgap, hlvl, hend]
    refine ⟨rfl, fun hnone => ?_, fun e v hidle => ?_⟩
    · simp only [idleFrom, hnone]
      exact ⟨trivial, fun hpos => if_neg (by omega)⟩
    · rw [hidle]
      exact ⟨rfl, rfl⟩

end Sys2Proof.Machine
end

