-- ==== Sys2Proof/Proofs/FaultBooks.lean ====
section
/-! PROOF. The SCHED_FAULTs counted while an instruction issues and the array settles (R175), and the kind of the loaded tile (R92). -/

namespace Sys2Proof.Machine

-- One proof at a time, as in the tests: proofs that wait for one another would each hold a stack.
set_option Elab.async false

/-! ### The books -/

/-- The counts of an engine's faults by segment, and the kind of the loaded tile. -/
def Eng.faultCounts (e : Eng) : Eng :=
  { rt := { sfCount := e.rt.sfCount }, bg := { sfCount := e.bg.sfCount },
    arr := { tile := { fmt := e.arr.tile.fmt, fast := e.arr.tile.fast, ksplit := e.arr.tile.ksplit } } }

/-- What an engine's faults are booked by: the counts, the waiting CHKs and the open windows. -/
def Eng.faultBook (e : Eng) : Eng :=
  { e.faultCounts with rt := { sfCount := e.rt.sfCount, chk := e.rt.chk }, bg := { sfCount := e.bg.sfCount, chk := e.bg.chk }, openH := e.openH }

/-- The format, the fast bit and the KSPLIT of the loaded tile. -/
def Eng.tileKind (e : Eng) : Fmt × Bool × Nat := (e.arr.tile.fmt, e.arr.tile.fast, e.arr.tile.ksplit)

/-- No SCHED_FAULT is booked: every engine's books are kept, and so is the count on the SEQ page of engine `k`. -/
structure NoFault (k : Nat) (s t : State) : Prop where
  books : Keeps Eng.faultBook s t
  page : regKept (pgEng k 0) 0x68 s t

/-- The counts of a segment and of its engine's SEQ page only grow, and the tile stays of its kind. -/
structure Grows (k : Nat) (g : Seg) (s t : State) : Prop where
  kind : Keeps Eng.tileKind s t
  seg : ((eng s k).seg g).sfCount ≤ ((eng t k).seg g).sfCount
  page : fget s (pgEng k 0) 0x68 0 32 ≤ fget t (pgEng k 0) 0x68 0 32

/-- No write waits for the end of a window that is open (R197). -/
def noPend (k : Nat) (s : State) : Prop := ∀ w ∈ (eng s k).openH, w.pend = []

/-- The counts and the waiting CHK are as they were. -/
structure SameFaults (k : Nat) (g : Seg) (s t : State) : Prop where
  seg : ((eng t k).seg g).sfCount = ((eng s k).seg g).sfCount
  chk : ((eng t k).seg g).chk = ((eng s k).seg g).chk
  page : fget t (pgEng k 0) 0x68 0 32 = fget s (pgEng k 0) 0x68 0 32

/-- The counts grow, and only by writes that waited for a window's end. -/
structure Tally (k : Nat) (g : Seg) (s t : State) : Prop where
  grows : Grows k g s t
  quiet : noPend k s → noPend k t ∧ SameFaults k g s t

theorem sfCount_faultCounts (e : Eng) (g : Seg) : (e.faultCounts.seg g).sfCount = (e.seg g).sfCount := by cases g <;> rfl

theorem sfCount_faultBook (e : Eng) (g : Seg) : (e.faultBook.seg g).sfCount = (e.seg g).sfCount := by cases g <;> rfl

theorem chk_faultBook (e : Eng) (g : Seg) : (e.faultBook.seg g).chk = (e.seg g).chk := by cases g <;> rfl

section
variable {k : Nat} {g : Seg} {s t u : State}

theorem NoFault.refl (k : Nat) (s : State) : NoFault k s s := ⟨Keeps.refl _ s, regKept_refl _ _ s⟩

theorem NoFault.trans (h : NoFault k s t) (l : NoFault k t u) : NoFault k s u := ⟨h.books.trans l.books, h.page.trans l.page⟩

theorem Grows.refl (k : Nat) (g : Seg) (s : State) : Grows k g s s := ⟨Keeps.refl _ s, le_refl _, le_refl _⟩

theorem Grows.trans (h : Grows k g s t) (l : Grows k g t u) : Grows k g s u :=
  ⟨h.kind.trans l.kind, h.seg.trans l.seg, h.page.trans l.page⟩

theorem SameFaults.trans (h : SameFaults k g s t) (l : SameFaults k g t u) : SameFaults k g s u :=
  ⟨l.seg.trans h.seg, l.chk.trans h.chk, l.page.trans h.page⟩

theorem Tally.refl (k : Nat) (g : Seg) (s : State) : Tally k g s s := ⟨Grows.refl k g s, fun h => ⟨h, rfl, rfl, rfl⟩⟩

theorem Tally.trans (h : Tally k g s t) (l : Tally k g t u) : Tally k g s u := by
  refine ⟨h.grows.trans l.grows, fun hs => ?_⟩
  obtain ⟨ht, hsame⟩ := h.quiet hs
  obtain ⟨hu, hsame'⟩ := l.quiet ht
  exact ⟨hu, hsame.trans hsame'⟩

theorem Keeps.tileKind (h : Keeps Eng.faultBook s t) : Keeps Eng.tileKind s t :=
  h.mono fun e e' he => (congrArg Eng.tileKind he : e.faultBook.tileKind = e'.faultBook.tileKind)

theorem NoFault.sameFaults (h : NoFault k s t) (g : Seg) : SameFaults k g s t := by
  have hbook := h.books.engs k
  refine ⟨?_, ?_, h.page.fget_eq _ _⟩
  · rw [← sfCount_faultBook, hbook, sfCount_faultBook]
  · rw [← chk_faultBook, hbook, chk_faultBook]

theorem NoFault.tally (h : NoFault k s t) (g : Seg) : Tally k g s t := by
  have hsame := h.sameFaults g
  refine ⟨⟨h.books.tileKind, hsame.seg.ge, hsame.page.ge⟩, fun hs => ⟨?_, hsame⟩⟩
  have hopen : (eng t k).openH = (eng s k).openH :=
    (congrArg Eng.openH (h.books.engs k) : (eng t k).faultBook.openH = (eng s k).faultBook.openH)
  unfold noPend
  rwa [hopen]

theorem NoFault.of_logOnly (h : LogOnly s t) (hpage : regKept (pgEng k 0) 0x68 s t) : NoFault k s t := ⟨h.keeps, hpage⟩

theorem whenS_noFault {b : Bool} {f : State → State} (h : ∀ s, NoFault k s (f s)) (s : State) : NoFault k s (whenS b f s) :=
  ⟨whenS_keeps (fun s => (h s).books) s, whenS_regKept (fun s => (h s).page) s⟩

theorem foldS_noFault {α : Type} {f : α → State → State} (h : ∀ a s, NoFault k s (f a s)) (l : List α) (s : State) :
    NoFault k s (foldS l f s) :=
  ⟨foldS_keeps (fun a s => (h a s).books) l s, foldS_regKept (fun a s => (h a s).page) l s⟩

theorem foldS_grows {α : Type} {f : α → State → State} (h : ∀ a s, Grows k g s (f a s)) (l : List α) (s : State) :
    Grows k g s (foldS l f s) := by
  induction l generalizing s with
  | nil => exact Grows.refl k g s
  | cons a l ih => exact (h a s).trans (ih (f a s))

theorem engMod_noFault (k k' : Nat) (f : Eng → Eng) (s : State) (hf : ∀ e, (f e).faultBook = e.faultBook := by intro; rfl) :
    NoFault k s (engMod k' f s) := ⟨engMod_keeps k' f s hf, regKept_of_regs rfl⟩

theorem jobMod_noFault (k j : Nat) (f : Job → Job) (s : State) : NoFault k s (jobMod j f s) := ⟨jobMod_keeps _ _ _, regKept_of_regs rfl⟩

theorem takeFree_noFault (k : Nat) (s : State) : NoFault k s (takeFree s).2 := ⟨takeFree_keeps s, regKept_of_regs rfl⟩

/-- A change of a segment that keeps its count and its CHK. -/
theorem segMod_noFault (k k' : Nat) (g : Seg) (f : SegSt → SegSt) (s : State)
    (hf : ∀ x, (f x).sfCount = x.sfCount ∧ (f x).chk = x.chk := by intro; exact ⟨rfl, rfl⟩) : NoFault k s (segMod k' g f s) := by
  refine engMod_noFault k k' _ s fun e => ?_
  cases g <;> simp [Eng.segMod, Eng.faultBook, Eng.faultCounts, hf]

end

/-! ### Registers and records -/

/-- The SEQ page's count of SCHED_FAULTs. -/
theorem faultCount_plain (k : Nat) : PlainReg (pgEng k 0) 0x68 := ⟨by unfold pgEng; omega, by decide, by decide⟩

section
variable (k : Nat)

/-- No register of the pages from NUMEV on is the SEQ page's count. -/
theorem faultCount_ne_numev (off : Nat) : ridx (pgEng k 0) 0x68 ≠ ridx (pgEng k 7) off := by
  unfold ridx pgEng
  omega

theorem raise_noFault (p bit : Nat) (s : State) : NoFault k s (raise p bit s) :=
  .of_logOnly (raise_logOnly _ _ _) (raise_regKept (faultCount_plain k) _ _ _)

theorem errata_noFault (x : Er) (s : State) : NoFault k s (errata x s) :=
  .of_logOnly (errata_logOnly _ _) (errata_regKept (faultCount_plain k) _ _)

theorem errEng_noFault (ty sev l : Nat) (g : Seg) (block : Nat) (detail : List Nat) (s : State) :
    NoFault k s (errEng ty sev l g block detail s) :=
  ⟨errEng_keeps _ _ _ _ _ _ _, errEng_regKept (faultCount_plain k) _ _ _ _ _ _ _⟩

theorem consume_noFault (l : Nat) (g : Seg) (pc : Nat) (o : Nat × Option Nat) (m : Mark) (s : State) : NoFault k s (consume l g pc o m s) :=
  ⟨consume_keeps _ _ _ _ _ _, regKept_of_regs (consume_regs _ _ _ _ _ _)⟩

theorem uneat_noFault (k' : Nat) (g : Seg) (pc : Nat) (s : State) : NoFault k s (uneat k' g pc s) :=
  ⟨uneat_keeps _ _ _ _, regKept_of_regs (uneat_regs _ _ _ _)⟩

theorem frameMod_noFault (j : Nat) (w : BitVec 64) (f : FrameSt → FrameSt) (s : State) : NoFault k s (frameMod j w f s) := jobMod_noFault _ _ _ _

variable {k} in
theorem rset_noFault {p off : Nat} (hne : ridx (pgEng k 0) 0x68 ≠ ridx p off) (v : Word) (s : State) : NoFault k s (rset p off v s) :=
  .of_logOnly (rset_logOnly _ _ _ _) (rset_regKept hne _ _)

/-- A register of another page of engines. -/
theorem rset_noFault_page {x q : Nat} (hq : 0 < q ∧ q < 16) {off : Nat} (hoff : off < 4096) (v : Word) (s : State) :
    NoFault k s (rset (pgEng x q) off v s) := by
  refine rset_noFault ?_ v s
  unfold ridx pgEng
  omega

theorem countFlags_noFault (f : Flags) (s : State) : NoFault k s (countFlags k f s) :=
  foldS_noFault (fun _ s => whenS_noFault (fun s => rset_noFault (faultCount_ne_numev k _) _ s) s) _ _

theorem uncountFlags_noFault (f : Flags) (s : State) : NoFault k s (uncountFlags k f s) :=
  foldS_noFault (fun _ s => whenS_noFault (fun s => rset_noFault (faultCount_ne_numev k _) _ s) s) _ _

theorem numTrap_noFault (l : Nat) (g : Seg) (s : State) : NoFault k s (numTrap k l g s) :=
  (rset_noFault (faultCount_ne_numev k _) _ s).trans ((raise_noFault k _ _ _).trans (errEng_noFault k _ _ _ _ _ _ _))

theorem passEvent_noFault {c : Ctx} (hk : c.k = k) (pol : Nat) (idx : BitVec 20) (els : List PassElem) (s : State) :
    NoFault k s (passEvent c pol idx els s) := by
  subst hk
  have hset (off : Nat) (v : Word) (s : State) : NoFault c.k s (rset (pgEng c.k 7) off v s) := rset_noFault (faultCount_ne_numev c.k _) v s
  unfold passEvent
  split
  · split
    · exact NoFault.refl _ s
    · unfold passRecord
      dsimp only
      split
      · exact NoFault.refl _ s
      · exact (hset _ _ _).trans ((hset _ _ _).trans ((hset _ _ _).trans ((hset _ _ _).trans ((hset _ _ _).trans (raise_noFault _ _ _ _)))))
  · exact NoFault.refl _ s

theorem unfillRec_noFault (f : Flight) (s : State) : NoFault k s (unfillRec k f s) := by
  unfold unfillRec
  split
  · exact foldS_noFault (fun _ s => rset_noFault (faultCount_ne_numev k _) _ s) _ _
  · exact NoFault.refl k s

/-! ### Bit errors and marks -/

theorem markSeg_noFault (k' : Nat) (g : Seg) (since : Nat) (m : Mark) (s : State) : NoFault k s (markSeg k' g since m s) := by
  unfold markSeg
  dsimp only
  exact (foldS_noFault (fun _ _ => engMod_noFault _ _ _ _) _ s).trans ((engMod_noFault _ _ _ _).trans
    ((engMod_noFault _ _ _ _).trans (engMod_noFault _ _ _ _)))

theorem seqFault_noFault (l : Nat) (g : Seg) (monitor : Nat) (cyc : Option Nat) (s : State) : NoFault k s (seqFault l g monitor cyc s) := by
  have hmonitor : ridx (pgEng k 0) 0x68 ≠ ridx (pgEng (storeKey s l) 0) 0x78 := by
    unfold ridx pgEng
    omega
  unfold seqFault
  dsimp only
  refine NoFault.trans ?_ (engMod_noFault _ _ _ _)
  refine NoFault.trans ?_ (whenS_noFault (foldS_noFault (fun _ _ => jobMod_noFault _ _ _ _) _) _)
  refine NoFault.trans ?_ (whenS_noFault (fun s => (markSeg_noFault _ _ _ _ _ s).trans (segMod_noFault _ _ _ _ _)) _)
  have hrec := (takeFree_noFault k s).trans ((rset_noFault hmonitor (0x80000000#32 ||| BitVec.ofNat 32 monitor) (takeFree s).2).trans
    (raise_noFault k (pgEng (storeKey s l) 0) 1 _))
  split
  · exact (hrec.trans (errEng_noFault _ _ _ _ _ _ _ _)).trans (frameMod_noFault _ _ _ _ _)
  · exact hrec.trans (errEng_noFault _ _ _ _ _ _ _ _)

theorem upset_noFault (k' l : Nat) (g : Seg) (pc cyc : Nat) (u : Upset) (s : State) : NoFault k s (upset k' l g pc cyc u s) := by
  have hcode (v : Word) (s : State) : NoFault k s (rset (pgEng k' 0) 0x74 v s) := by
    refine rset_noFault ?_ v s
    unfold ridx pgEng
    omega
  have hpage (q off : Nat) (hq : 0 < q ∧ q < 16) (hoff : off < 4096) (v : Word) (s : State) := rset_noFault_page k (x := k') hq hoff v s
  unfold upset
  split
  · exact (hpage 4 0x40 (by decide) (by decide) _ _).trans (engMod_noFault _ _ _ _)
  · exact (takeFree_noFault k s).trans ((hpage 4 0x44 (by decide) (by decide) _ _).trans ((hpage 4 0x48 (by decide) (by decide) _ _).trans
      ((engMod_noFault _ _ _ _).trans (errata_noFault _ _ _))))
  · exact (hpage 2 0x40 (by decide) (by decide) _ _).trans (engMod_noFault _ _ _ _)
  · exact (hpage 2 0x40 (by decide) (by decide) _ _).trans (engMod_noFault _ _ _ _)
  · exact NoFault.refl k s
  · exact (hcode _ _).trans ((raise_noFault _ _ _ _).trans (engMod_noFault _ _ _ _))
  · exact (hcode _ _).trans (seqFault_noFault _ _ _ _ _ _)
  · exact seqFault_noFault _ _ _ _ _ _

end

end Sys2Proof.Machine
end

