-- ==== Sys2Proof/Proofs/TileFormats.lean ====
section
/-! PROOF. A PASS of another format than the loaded tile's (R92): the SCHED_FAULT it raises, and those counted beside it (R175). -/

namespace Sys2Proof.Machine

-- One proof at a time, as in the tests: proofs that wait for one another would each hold a stack.
set_option Elab.async false

section
variable (k : Nat) (g : Seg)

/-! ### SCHED_FAULT (R175) -/

/-- A SCHED_FAULT is one more of its segment, and one more on the SEQ page. -/
theorem schedFault_counts (g' : Seg) (pc cause cyc : Nat) (arrival : Bool) (s : State) :
    ((eng (schedFault k g' pc cause cyc arrival s) k).seg g).sfCount = ((eng s k).seg g).sfCount + (if g' = g then 1 else 0) ∧
      fget (schedFault k g' pc cause cyc arrival s) (pgEng k 0) 0x68 0 32 = min (fget s (pgEng k 0) 0x68 0 32 + 1) (2 ^ 32 - 1) := by
  have hne (off : Nat) (hoff : off / 4 ≠ 26 ∧ off < 4096) (v : Word) (s : State) : NoFault k s (rset (pgEng k 0) off v s) := by
    refine rset_noFault ?_ v s
    unfold ridx
    omega
  unfold schedFault
  extract_lets p gb s1 s2 s3
  have hfirst : NoFault k s s1 := by
    simp only [s1]
    split
    · exact (hne 0x60 (by decide) _ _).trans (hne 0x64 (by decide) _ _)
    · exact NoFault.refl k s
  have hraise := (raise_noFault k p 0 s3).sameFaults g
  refine ⟨hraise.seg.trans ?_, hraise.page.trans ?_⟩
  · have heng : eng s2 k = eng s1 k := rfl
    simp only [s3, segMod]
    rw [eng_engMod, if_pos rfl, heng, ← (hfirst.sameFaults g).seg]
    cases g' <;> cases g <;> rfl
  · have hpage : fget s3 p 0x68 0 32 = fget s2 p 0x68 0 32 := rfl
    rw [hpage, ← hfirst.page.fget_eq]
    exact fget_finc_self (by decide) 1 s1

theorem schedFault_kind (k' : Nat) (g' : Seg) (pc cause cyc : Nat) (arrival : Bool) (s : State) :
    Keeps Eng.tileKind s (schedFault k' g' pc cause cyc arrival s) :=
  (schedFault_books _ _ _ _ _ _ _).mono fun e e' he => (congrArg Eng.tileKind he : e.bare.tileKind = e'.bare.tileKind)

theorem schedFault_grows (g' : Seg) (pc cause cyc : Nat) (arrival : Bool) (s : State) :
    Grows k g s (schedFault k g' pc cause cyc arrival s) := by
  obtain ⟨hseg, hpage⟩ := schedFault_counts k g g' pc cause cyc arrival s
  have hlt := fget_lt s (pgEng k 0) 0x68 0 32
  exact ⟨schedFault_kind _ _ _ _ _ _ _, by omega, by omega⟩

/-! ### Hold windows (R197) -/

theorem engMod_grows (f : Eng → Eng) (s : State) (hf : ∀ e, (f e).faultCounts = e.faultCounts := by intro; rfl) :
    Grows k g s (engMod k f s) := by
  refine ⟨engMod_keeps _ _ _ fun e => (congrArg Eng.tileKind (hf e) : (f e).faultCounts.tileKind = e.faultCounts.tileKind), le_of_eq ?_,
    le_refl _⟩
  rw [eng_engMod, if_pos rfl, ← sfCount_faultCounts (f _), hf, sfCount_faultCounts]

/-- A change of the open windows that leaves no write waiting where none waited. -/
theorem engMod_tally (f : Eng → Eng) (s : State) (hpend : noPend k s → ∀ w ∈ (f (eng s k)).openH, w.pend = [])
    (hf : ∀ e, { f e with openH := e.openH }.faultBook = e.faultBook := by intro; rfl) : Tally k g s (engMod k f s) := by
  have hcounts (e : Eng) : (f e).faultCounts = e.faultCounts :=
    (congrArg Eng.faultCounts (hf e) : { f e with openH := e.openH }.faultBook.faultCounts = e.faultBook.faultCounts)
  have hgrows := engMod_grows k g f s hcounts
  refine ⟨hgrows, fun hs => ⟨?_, ?_, ?_, rfl⟩⟩
  · unfold noPend
    rw [eng_engMod, if_pos rfl]
    exact hpend hs
  · rw [eng_engMod, if_pos rfl, ← sfCount_faultCounts, hcounts, sfCount_faultCounts]
  · rw [eng_engMod, if_pos rfl, ← chk_faultBook (eng s k), ← hf, chk_faultBook]
    cases g <;> rfl

theorem turnAway_grows (line : Nat) (g' : Seg) (pc cyc : Nat) (arrival : Bool) (s : State) :
    Grows k g s (turnAway k line g' pc cyc arrival s) := (engMod_grows k g _ s).trans (schedFault_grows k g _ _ _ _ _ _)

theorem undoWrite_grows (cyc : Nat) (g' : Seg) (o : OldLine) (s : State) : Grows k g s (undoWrite k cyc g' o s) := by
  unfold undoWrite
  have hback : Grows k g s (engMod k (fun e => { e with olds := e.olds.erase o }) (cPut k o.line o.was o.mark s)) :=
    (engMod_grows k g _ s).trans (engMod_grows k g _ _)
  dsimp only
  split
  · exact hback.trans (turnAway_grows k g _ _ _ _ _ _)
  · exact hback.trans (engMod_grows k g _ _)

theorem openHolds_grows (g' : Seg) (pc : Nat) (ls : List Loop) (cyc : Nat) (s : State) : Grows k g s (openHolds k g' pc ls cyc s) :=
  (engMod_grows k g _ s).trans (foldS_grows (fun o s => undoWrite_grows k g cyc g' o s) _ _)

/-- Windows that meet no write under way open without a fault, and no write waits for them. -/
theorem openHolds_tally {g' : Seg} {pc : Nat} {ls : List Loop} {cyc : Nat} {s : State} (hmet : metWrites (eng s k) g' pc ls cyc = []) :
    Tally k g s (openHolds k g' pc ls cyc s) := by
  unfold openHolds
  rw [hmet]
  refine engMod_tally k g _ s fun hs w hw => ?_
  rcases List.mem_append.1 hw with hw | hw
  · exact hs w hw
  · obtain ⟨d, -, rfl⟩ := List.mem_map.1 hw
    rfl

/-- Writes that wait are turned away where their cycle has come: none where none waits. -/
theorem pendTo_tally (t : Nat) (s : State) : Tally k g s (pendTo k t s) := by
  unfold pendTo
  have hpend := engMod_tally k g (fun e => { e with openH := e.openH.map fun h => { h with pend := h.pend.filter fun w => decide (t < w.cyc) } }) s
    fun hs w hw => by
      obtain ⟨w', hw', rfl⟩ := List.mem_map.1 hw
      exact List.filter_eq_nil_iff.2 fun x hx => by rw [hs w' hw'] at hx; cases hx
  refine ⟨hpend.grows.trans (foldS_grows (fun x s => turnAway_grows k g _ _ _ _ _ s) _ _), fun hs => ?_⟩
  have hnone : (((eng s k).openH).flatMap fun h => (h.pend.filter fun w => decide (w.cyc ≤ t)).map fun w => (h.seg, w)) = [] :=
    List.flatMap_eq_nil_iff.2 fun w hw => by rw [hs w hw]; rfl
  rw [hnone]
  exact hpend.quiet hs

theorem endHolds_tally (t : Nat) (hit : HoldOpen → Bool) (s : State) : Tally k g s (endHolds k t hit s) := by
  unfold endHolds
  extract_lets s1 l s2
  have hend : Tally k g s1 s2 := engMod_tally k g _ s1 fun hs w hw => hs w (List.mem_of_mem_filter hw)
  have hlines : NoFault k s2 (foldS (l.flatMap (·.pend)) (fun w => cPut k w.line w.data w.mark)
      (foldS (l.flatMap (·.blocked)) (fun a => cMark k a mkFailed) s2)) :=
    (foldS_noFault (fun _ _ => engMod_noFault k k _ _) _ _).trans (foldS_noFault (fun _ _ => engMod_noFault k k _ _) _ _)
  exact (pendTo_tally k g t s).trans (hend.trans (hlines.tally g))

/-! ### Passes in flight (R94) -/

theorem halfMod_tile (h : Bool) (f : Half → Half) (a : ArraySt) : (a.halfMod h f).tile = a.tile := by cases h <;> rfl

theorem halfMod_noFault (k' : Nat) (h : Bool) (f : Half → Half) (s : State) : NoFault k s (arrMod k' (fun a => a.halfMod h f) s) :=
  engMod_noFault k k' _ s fun e => by simp only [Eng.faultBook, Eng.faultCounts, halfMod_tile]

theorem reform_noFault (f : Flight) (s : State) : NoFault k s (reform k f s).2 := by
  unfold reform
  split
  · exact NoFault.refl k s
  · extract_lets o kk c t els pol fls trap new later kept s1 s2 cols rows m unc q s3 s4 rec s5 s6 eaten s7 s8 note
    have hform : NoFault k s s2 := (halfMod_noFault k k o.dsth _ s).trans (whenS_noFault (fun _ => engMod_noFault k k _ _) _)
    have hcover : NoFault k s2 s3 := (rset_noFault_page k (x := execKey s2 f.leng) (q := 5) (by decide) (by decide) _ _).trans
      (rset_noFault_page k (by decide) (by decide) _ _)
    have hcount : NoFault k s3 s5 := (uncountFlags_noFault k _ _).trans ((countFlags_noFault k _ _).trans
      ((unfillRec_noFault k _ _).trans (passEvent_noFault k rfl _ _ _ _)))
    have htrap : NoFault k s5 s6 := (whenS_noFault (numTrap_noFault k _ _) _).trans
      (whenS_noFault (fun _ => rset_noFault (faultCount_ne_numev k _) _ _) _)
    have hpoison : NoFault k s6 s8 := (whenS_noFault (uneat_noFault k _ _ _) _).trans (consume_noFault k _ _ _ _ _ _)
    exact hform.trans (hcover.trans (hcount.trans (htrap.trans hpoison)))

theorem reformAt_noFault (i : Nat) (s : State) : NoFault k s (reformAt k i s) := by
  unfold reformAt
  split
  · exact NoFault.refl k s
  · split
    · exact NoFault.refl k s
    · exact (reform_noFault k _ _).trans (engMod_noFault k k _ _)

theorem commitFlight_tally (f : Flight) (s : State) : Tally k g s (commitFlight k f s) :=
  (endHolds_tally k g _ _ s).trans ((whenS_noFault (fun _ => engMod_noFault k k _ _) _).tally g)

theorem commitOldest_tally (s : State) : Tally k g s (commitOldest k s) := by
  unfold commitOldest
  have hreform := (reformAt_noFault k 0 s).tally g
  dsimp only
  split
  · exact hreform
  · exact hreform.trans ((commitFlight_tally k g _ _).trans ((engMod_noFault k k _ _).tally g))

theorem commitTo_tally (t n : Nat) (s : State) : Tally k g s (commitTo k t n s) := by
  induction n generalizing s with
  | zero => exact Tally.refl k g s
  | succ n ih =>
    unfold commitTo
    split
    · exact Tally.refl k g s
    · split
      · exact (commitOldest_tally k g s).trans (ih _)
      · exact Tally.refl k g s

theorem freshTile_noFault (s : State) : NoFault k s (freshTile k s) := by
  unfold freshTile
  split
  · exact engMod_noFault k k _ _
  · exact NoFault.refl k s

theorem settle_tally (t : Nat) (s : State) : Tally k g s (settle k t s) :=
  (commitTo_tally k g t _ s).trans ((freshTile_noFault k _).tally g)

end

/-! ### Issue (R171) -/

section
variable {u : EUnit} {rel : Nat} {h : IssueHdr} {s : State} {c : Ctx}

/-- An instruction issues as its windows open, after what the sequencer writes down and before the bit errors it meets. -/
theorem issue_state (hc : issue u rel h s = some c) :
    c.s = foldS h.upsets (upset c.k h.leng.toNat h.seg c.pc c.cyc) (openHolds c.k h.seg c.pc c.loops c.cyc
      (segMod c.k h.seg (SegSt.issued h.seg c.pc c.cyc)
        (engMod c.k (fun e => { e with units := (u, c.cyc) :: e.units.filter fun p => decide (p.1 ≠ u) }) s))) := by
  unfold issue at hc
  simp only at hc
  split at hc
  · cases hc
    rfl
  · cases hc

/-- What the sequencer writes down of an instruction is no fault. -/
theorem issued_noFault (k : Nat) (u : EUnit) (g : Seg) (pc cyc : Nat) (s : State) :
    NoFault k s (segMod k g (SegSt.issued g pc cyc) (engMod k (fun e => { e with units := (u, cyc) :: e.units.filter fun p => decide (p.1 ≠ u) }) s)) :=
  (engMod_noFault k k _ s).trans (segMod_noFault k k g _ _)

theorem upsets_noFault (k l : Nat) (g : Seg) (pc cyc : Nat) (us : List Upset) (s : State) : NoFault k s (foldS us (upset k l g pc cyc) s) :=
  foldS_noFault (fun x s => upset_noFault k k l g pc cyc x s) us s

theorem issue_grows (hc : issue u rel h s = some c) (g : Seg) : Grows c.k g s c.s := by
  rw [issue_state hc]
  exact ((issued_noFault _ _ _ _ _ _).tally g).grows.trans ((openHolds_grows _ g _ _ _ _ _).trans
    ((upsets_noFault _ _ _ _ _ _ _).tally g).grows)

/-- Where no write waits for a window and the opening ones meet none, an instruction issues without a SCHED_FAULT. -/
theorem issue_quiet (hc : issue u 0 h s = some c) (hquiet : holdsQuiet s h) (g : Seg) : noPend c.k c.s ∧ SameFaults c.k g s c.s := by
  obtain ⟨hpend, hmet⟩ := hquiet
  obtain ⟨-, -, -, hk, -, -, hpc, hloops, hcyc⟩ := issue_some hc
  rw [Nat.max_zero] at hcyc
  rw [← hk] at hpend
  have hopen : metWrites (eng (segMod c.k h.seg (SegSt.issued h.seg c.pc c.cyc)
      (engMod c.k (fun e => { e with units := (u, c.cyc) :: e.units.filter fun p => decide (p.1 ≠ u) }) s)) c.k) h.seg c.pc c.loops c.cyc = [] := by
    rw [segMod, eng_engMod, if_pos rfl, eng_engMod, if_pos rfl, hpc, hloops, hcyc, ← hmet, hk]
    cases h.seg <;> rfl
  rw [issue_state hc]
  exact ((((issued_noFault _ _ _ _ _ _).tally g).trans (openHolds_tally _ g hopen)).trans
    ((upsets_noFault _ _ _ _ _ _ _).tally g)).quiet hpend

end

/-! ### A PASS that faults (R92, R175) -/

theorem rampEvent_noFault (k l : Nat) (s : State) : NoFault k s (rampEvent l s) :=
  (rset_noFault_page k (by decide) (by decide) _ _).trans (raise_noFault k _ _ _)

theorem endGap_noFault (k u cyc : Nat) (s : State) : NoFault k s (arrMod k (ArraySt.endGap u cyc) s) :=
  engMod_noFault k k _ s fun e => by simp only [Eng.faultBook, Eng.faultCounts, (endGap_inputs u cyc e.arr).1]

theorem otherClaims_noFault {k cyc : Nat} {cs : List Claim} {s t : State} (h : otherClaims k cyc cs s = some t) : NoFault k s t := by
  unfold otherClaims at h
  extract_lets e at h
  split at h
  · cases h
  · cases h
    exact engMod_noFault k k _ _

/-- A PASS that faults does so after its check slot has taken its ports; with no CHK before it that is its one SCHED_FAULT. -/
theorem doPass_faults {h : IssueHdr} {o : PassOp} {s : State} {c : Ctx} (hc : issue .array 0 h s = some c)
    (hgo : ((eng s (storeKey s h.leng.toNat)).seg h.seg).stopAt = none) (hbad : passBad (settle c.k c.cyc c.s) c o ≠ 0) :
    ∃ s4, Grows c.k c.g (settle c.k c.cyc c.s) s4 ∧
      (((eng (settle c.k c.cyc c.s) c.k).seg c.g).chk = none →
        ((eng s4 c.k).seg c.g).sfCount = ((eng (settle c.k c.cyc c.s) c.k).seg c.g).sfCount ∧
          fget s4 (pgEng c.k 0) 0x68 0 32 = fget (settle c.k c.cyc c.s) (pgEng c.k 0) 0x68 0 32) ∧
      doPass h o s = arrMod c.k (fun a => a.halfMod o.dsth Half.invalid) (c.fault (passBad (settle c.k c.cyc c.s) c o) s4) := by
  unfold doPass
  rw [if_neg (by simp [hgo]), issued, hc]
  dsimp -zeta only
  extract_lets s0 sg idx x chk ratio sel s1 f bt m ks kk tag region bases terms ramp held sel' s2 bad a s3 s4
  have hcount : Grows c.k c.g s0 s1 ∧ ((eng s1 c.k).seg c.g).sfCount = ((eng s0 c.k).seg c.g).sfCount := by
    have hseg : ((eng s1 c.k).seg c.g).sfCount = ((eng s0 c.k).seg c.g).sfCount := by
      simp only [s1, segMod, eng_engMod, if_true]
      cases c.g <;> rfl
    refine ⟨⟨engMod_keeps _ _ _ fun e => by cases c.g <;> rfl, hseg.ge, le_refl _⟩, hseg⟩
  have harr1 : (eng s1 c.k).arr = (eng s0 c.k).arr := by
    simp only [s1, segMod, eng_engMod, if_true]
    cases c.g <;> rfl
  have hslot : Grows c.k c.g s1 s2 ∧ (eng s2 c.k).arr = (eng s1 c.k).arr ∧ s2.jobs = s1.jobs ∧ (chk = none → s2 = s1) := by
    simp only [s2]
    cases hheld : held with
    | none => exact ⟨Grows.refl _ _ s1, rfl, rfl, fun _ => rfl⟩
    | some p =>
      obtain ⟨q, r⟩ := p
      obtain ⟨q', hchk, hq⟩ := Option.map_eq_some_iff.1 hheld
      have hsome : chk = none → False := fun hnone => by rw [hnone] at hchk; cases hchk
      cases r with
      | none =>
        refine ⟨(schedFault_grows _ _ _ _ _ _ _ _).trans (engMod_grows _ _ _ _), ?_, (schedFault_samePassInputs _ _ _ _ _ _ _).jobs, fun h => (hsome h).elim⟩
        exact ((schedFault_books _ _ _ _ _ _ _).unclaimed.trans (engMod_keeps _ _ _)).arrOfUnclaimed c.k
      | some t =>
        obtain ⟨hkeeps, hsame⟩ := otherClaims_some (Prod.mk.inj hq).2
        exact ⟨((otherClaims_noFault (Prod.mk.inj hq).2).tally c.g).grows.trans (engMod_grows _ _ _ _),
          (hkeeps.trans (engMod_keeps _ _ _)).arrOfUnclaimed c.k, hsame.jobs, fun h => (hsome h).elim⟩
  obtain ⟨hgrows, harr2, hjobs2, hsame2⟩ := hslot
  have hramp : NoFault c.k s2 s4 := (whenS_noFault (rampEvent_noFault _ _) _).trans
    ((whenS_noFault (rampEvent_noFault _ _) _).trans (endGap_noFault _ _ _ _))
  have heq : bad = passBad s0 c o := passBad_congr (harr2.trans harr1) hjobs2 o
  rw [heq, if_pos hbad]
  refine ⟨s4, hcount.1.trans (hgrows.trans (hramp.tally _).grows), fun hnone => ?_, rfl⟩
  have hall := hramp.sameFaults c.g
  rw [hsame2 hnone] at hall
  exact ⟨hall.seg.trans hcount.2, hall.page⟩

/-- A PASS that faults counts its SCHED_FAULT after those counted on the way to it: none where no CHK waits and no write for a window. -/
theorem doPass_counts {h : IssueHdr} {o : PassOp} {s : State} {c : Ctx} (hc : issue .array 0 h s = some c)
    (hgo : ((eng s (storeKey s h.leng.toNat)).seg h.seg).stopAt = none) (hbad : passBad (settle c.k c.cyc c.s) c o ≠ 0) :
    ((eng s c.k).seg c.g).sfCount < ((eng (doPass h o s) c.k).seg c.g).sfCount ∧
      min (fget s (pgEng c.k 0) 0x68 0 32 + 1) (2 ^ 32 - 1) ≤ fget (doPass h o s) (pgEng c.k 0) 0x68 0 32 ∧
      (((eng s c.k).seg c.g).chk = none → holdsQuiet s h →
        ((eng (doPass h o s) c.k).seg c.g).sfCount = ((eng s c.k).seg c.g).sfCount + 1 ∧
          fget (doPass h o s) (pgEng c.k 0) 0x68 0 32 = min (fget s (pgEng c.k 0) 0x68 0 32 + 1) (2 ^ 32 - 1)) := by
  obtain ⟨s4, hgrows, hone, hpass⟩ := doPass_faults (o := o) hc hgo hbad
  obtain ⟨hseg, hpage⟩ := schedFault_counts c.k c.g c.g c.pc (passBad (settle c.k c.cyc c.s) c o) c.cyc false s4
  rw [if_pos rfl] at hseg
  have hinvalid : SameFaults c.k c.g (c.fault (passBad (settle c.k c.cyc c.s) c o) s4) (doPass h o s) := by
    rw [hpass]
    exact (halfMod_noFault c.k c.k o.dsth Half.invalid _).sameFaults c.g
  have hset := settle_tally c.k c.g c.cyc c.s
  have hway : Grows c.k c.g s s4 := (issue_grows hc c.g).trans (hset.grows.trans hgrows)
  have hwaySeg := hway.seg
  have hwayPage := hway.page
  have hcount : ((eng (doPass h o s) c.k).seg c.g).sfCount = ((eng s4 c.k).seg c.g).sfCount + 1 := hinvalid.seg.trans hseg
  have hpages : fget (doPass h o s) (pgEng c.k 0) 0x68 0 32 = min (fget s4 (pgEng c.k 0) 0x68 0 32 + 1) (2 ^ 32 - 1) :=
    hinvalid.page.trans hpage
  refine ⟨by omega, by omega, fun hchk hquiet => ?_⟩
  obtain ⟨hpend, hissue⟩ := issue_quiet hc hquiet c.g
  have hsame := hissue.trans (hset.quiet hpend).2
  obtain ⟨hsegSame, hpageSame⟩ := hone (hsame.chk.trans hchk)
  rw [hcount, hpages, hsegSame, hpageSame, hsame.seg, hsame.page]
  exact ⟨rfl, rfl⟩

theorem storeKey_segMod (k : Nat) (g : Seg) (f : SegSt → SegSt) (s : State) (l : Nat) : storeKey (segMod k g f s) l = storeKey s l := rfl

/-! ### The obligation -/

/-- A PASS of another format, fast bit or KSPLIT than the loaded tile's faults (R92). -/
theorem passBad_of_otherTile {s : State} {c : Ctx} {o : PassOp}
    (hother : fmtMatch (fmtD o.fmt) (eng s c.k).arr.tile.fmt = false ∨ o.fast ≠ (eng s c.k).arr.tile.fast ∨
      2 ^ o.ksplit.toNat ≠ (eng s c.k).arr.tile.ksplit) : passBad s c o ≠ 0 := by
  unfold passBad
  extract_lets a f bt m ks kk tag region early feeding
  split
  · decide
  · rw [if_pos]
    · decide
    · rcases hother with hfmt | hfast | hks
      · simp [f, a, hfmt]
      · simp [a, hfast]
      · simp [ks, a, hks]

/-- Formats of which neither is the other's storage pair do not match (R45, R92). -/
theorem fmtMatch_eq_false {f u : Fmt} (hne : f ≠ u) (h8 : ¬ (f ∈ [.p8, .int4] ∧ u ∈ [.p8, .int4]))
    (h16 : ¬ (f ∈ [.p16, .int8] ∧ u ∈ [.p16, .int8])) : fmtMatch f u = false := by
  simp only [List.mem_cons, List.not_mem_nil, or_false] at h8 h16
  simp only [fmtMatch, Bool.or_eq_false_iff, Bool.and_eq_false_iff, decide_eq_false_iff_not]
  tauto

theorem fmtMatch_of_pair {f u : Fmt} (h : (f ∈ [.p8, .int4] ∧ u ∈ [.p8, .int4]) ∨ (f ∈ [.p16, .int8] ∧ u ∈ [.p16, .int8])) :
    fmtMatch f u = true := by
  simp only [List.mem_cons, List.not_mem_nil, or_false] at h
  simp only [fmtMatch, Bool.or_eq_true, Bool.and_eq_true, decide_eq_true_eq]
  tauto

/-- Settles O3: an LDS's tile is of its kind (`doLds_loads`) and ARRAY.MODE shows it (`arrayView_mode`); a PASS of another kind faults
(`passBad_of_otherTile`), which is counted after those on the way to it (`doPass_counts`). -/
theorem tileFormats : Obligations.TileFormats := by
  refine ⟨fun h o s c hwf hc hbad => ?_, fun h o s c u hwf hc hgo hu hother => ?_, fun f u => fmtMatch_of_pair⟩
  · obtain ⟨-, -, hload⟩ := doLds_loads (o := o) hc
    obtain ⟨htile, -⟩ := hload hbad
    obtain ⟨hcode, hsplit⟩ := lds_fields hwf
    have hfmt := congrArg Tile.fmt htile
    have hfast := congrArg Tile.fast htile
    have hks := congrArg Tile.ksplit htile
    refine ⟨doLds h o s, exec_lds hwf s, hfmt, hfast, hks, fun n => ?_⟩
    obtain ⟨v, hv, hshow⟩ := arrayView_mode hcode hsplit hfmt hks n
    rw [hfast] at hshow
    exact ⟨v, hv, hshow⟩
  · obtain ⟨-, -, -, hk, -, hg, -⟩ := issue_some hc
    have hexec : exec (.pass h o) s = .next (doPass h o s) := by
      show gate (Instr.pass h o).wf (doPass h o s) = _
      rw [hwf, gate_true]
    have hset := settle_tally c.k c.g c.cyc c.s
    have hkind := hset.grows.kind.engs c.k
    simp only [Eng.tileKind, Prod.mk.injEq, ← hu] at hkind
    obtain ⟨hfmt, hfast, hks⟩ := hkind
    have hbad : passBad (settle c.k c.cyc c.s) c o ≠ 0 := by
      refine passBad_of_otherTile ?_
      rw [hfmt, hfast, hks]
      exact hother.imp_left fun ⟨hne, h8, h16⟩ => fmtMatch_eq_false hne h8 h16
    obtain ⟨hkeeps, hinvalid, -⟩ := doPass_forms (o := o) hc hgo
    obtain ⟨hmore, hpage, hone⟩ := doPass_counts (o := o) hc hgo hbad
    have hstart : segOf s h.leng h.seg = (eng s c.k).seg c.g := by rw [hk, hg, segOf]
    have hend : segOf (doPass h o s) h.leng h.seg = (eng (doPass h o s) c.k).seg c.g := by
      have hkey : storeKey (doPass h o s) h.leng.toNat = c.k :=
        (hkeeps.storeKey _).trans ((storeKey_segMod _ _ _ _ _).trans (issue_storeKey hc (settle_core c.k c.cyc c.s)))
      rw [segOf, hkey, hg]
    refine ⟨doPass h o s, hexec, ?_, hpage, ?_, hinvalid hbad⟩
    · rwa [hstart, hend]
    · rwa [hstart, hend]

end Sys2Proof.Machine
end

