-- ==== Sys2Proof/Proofs/FaultRepair.lean ====
section
/-! PROOF. PASS_FAULT while the array is repaired (R110, R232, R233, R248): what the spares, the records and the report of a fault leave
alone, and the pass fault that the report counts. -/

namespace Sys2Proof.Machine

-- One proof at a time, as in the tests: proofs that wait for one another would each hold a stack.
set_option Elab.async false

/-! ### Registers that repair leaves alone -/

/-- A register that the spares and their requests do not write: none of the ARRAY page's below its count of pass faults, none of a CHECK
page, not a die's map of failed engines, and no event register. -/
structure RepairReg (q off : Nat) : Prop where
  plain : PlainReg q off
  array : ∀ x off', off' < 0x78 → ridx q off ≠ ridx (pgEng x 1) off'
  check : ∀ x off', off' < 4096 → ridx q off ≠ ridx (pgEng x 5) off'
  die : ∀ c, ridx q off ≠ ridx (pgDie c 1) 0x44

/-- The ARRAY page's count of pass faults. -/
theorem passFaults_repairReg (x : Nat) : RepairReg (pgEng x 1) 0x78 where
  plain := ⟨by unfold pgEng; omega, by decide, by decide⟩
  array _ _ _ := by unfold ridx pgEng; omega
  check _ _ _ := by unfold ridx pgEng; omega
  die _ := by unfold ridx pgEng pgDie; omega

/-- The die's map of its slots to physical engines. -/
theorem engMap_repairReg (c : Nat) : RepairReg (pgDie c 1) 0x40 where
  plain := ⟨by unfold pgDie; omega, by decide, by decide⟩
  array _ _ _ := by unfold ridx pgEng pgDie; omega
  check _ _ _ := by unfold ridx pgEng pgDie; omega
  die _ := by unfold ridx pgDie; omega

theorem engMod_regKept (q off k : Nat) (f : Eng → Eng) (s : State) : regKept q off s (engMod k f s) := regKept_of_regs rfl

theorem frameMod_regKept (q off j : Nat) (fr : BitVec 64) (f : FrameSt → FrameSt) (s : State) : regKept q off s (frameMod j fr f s) :=
  regKept_of_regs rfl

section
variable {q off : Nat} (hreg : RepairReg q off)
include hreg

theorem engineFaultAt_regKept (x : Nat) (s : State) : regKept q off s (engineFaultAt x s) := by
  unfold engineFaultAt
  split
  · exact regKept_of_regs rfl
  · exact fset_regKept (hreg.die _) _ _ _ s

theorem capacity_regKept (kind sev : Nat) (x : Er) (s : State) : regKept q off s (capacity kind sev x s) := by
  have hmod : ridx q off ≠ ridx pgMod 0x48 := by
    have hpage := hreg.plain.page
    unfold ridx pgMod
    omega
  exact (errata_regKept hreg.plain _ s).trans ((raise_regKept hreg.plain _ _ _).trans ((sendEvent_regKept hreg.plain _ _ _).trans
    (rset_regKept hmod _ _)))

theorem bindCol_regKept (x old n new : Nat) (s : State) : regKept q off s (bindCol x old n new s) := by
  unfold bindCol
  extract_lets p s1 s2 s3 s4
  have hset (lo w v : Nat) (s : State) : regKept q off s (fset p 0x54 lo w v s) := fset_regKept (hreg.array x 0x54 (by decide)) lo w v s
  have hfree : regKept q off s s1 := by
    simp only [s1]
    split
    · exact hset _ _ _ s
    · split
      · exact hset _ _ _ s
      · exact regKept_refl _ _ s
  have hbind : regKept q off s1 s3 := (whenS_regKept (hset _ _ _) _).trans (whenS_regKept (hset _ _ _) _)
  have hrec : regKept q off s3 s4 := (raise_regKept hreg.plain _ _ _).trans (errata_regKept hreg.plain _ _)
  exact hfree.trans (hbind.trans (hrec.trans (whenS_regKept (capacity_regKept hreg _ _ _) _)))

theorem bindRow_regKept (x old n new : Nat) (s : State) : regKept q off s (bindRow x old n new s) := by
  unfold bindRow
  extract_lets p s1 s2 s3
  have hset (lo w v : Nat) (s : State) : regKept q off s (fset p 0x50 lo w v s) := fset_regKept (hreg.array x 0x50 (by decide)) lo w v s
  have hfree : regKept q off s s1 := by
    simp only [s1]
    split
    · exact hset _ _ _ s
    · exact regKept_refl _ _ s
  have hbind : regKept q off s1 s3 := (hset _ _ _ _).trans ((raise_regKept hreg.plain _ _ _).trans (errata_regKept hreg.plain _ _))
  exact hfree.trans (hbind.trans (whenS_regKept (capacity_regKept hreg _ _ _) _))

theorem ldsSubst_regKept (x : Nat) (s : State) : regKept q off s (ldsSubst x s) := by
  unfold ldsSubst
  extract_lets reqs s1 s2 s3 q' old
  have hcheck (lo w v : Nat) (s : State) : regKept q off s (fset q' 0x54 lo w v s) := fset_regKept (hreg.check x 0x54 (by decide)) lo w v s
  have hcols : regKept q off s s1 := by
    refine foldS_regKept (fun c s => ?_) _ _
    split
    · exact bindCol_regKept hreg _ _ _ _ s
    · exact regKept_refl _ _ s
  have hrows : regKept q off s1 s2 := by
    refine foldS_regKept (fun r s => ?_) _ _
    split
    · exact bindRow_regKept hreg _ _ _ _ s
    · exact regKept_refl _ _ s
  have hstart : regKept q off s s3 := hcols.trans (hrows.trans (engMod_regKept _ _ _ _ _))
  split
  · split
    · exact hstart.trans ((bindCol_regKept hreg _ _ _ _ _).trans ((engMod_regKept _ _ _ _ _).trans (hcheck _ _ _ _)))
    · exact hstart.trans ((hcheck _ _ _ _).trans (engineFaultAt_regKept hreg _ _))
  · exact hstart

/-- Asking for a spare column (R233). -/
theorem requestColAt_regKept (x : Nat) {c : Nat} (hc : c < 128) (s : State) : regKept q off s (requestColAt x c s) := by
  unfold requestColAt
  extract_lets p s1
  have hmark : regKept q off s s1 := fset_regKept (hreg.array x (0x64 + 4 * (c / 32)) (by omega)) _ _ _ s
  split
  · exact hmark
  · split
    · exact hmark.trans (engineFaultAt_regKept hreg _ _)
    · exact hmark.trans (engMod_regKept _ _ _ _ _)

theorem statCell_regKept (l : Nat) (p : Flight) (f : FaultSite) (s : State) : regKept q off s (statCell l p f s) := by
  unfold statCell
  split
  · exact regKept_refl _ _ s
  · extract_lets k t cells again s1
    have hcell : regKept q off s s1 := engMod_regKept _ _ _ _ _
    exact hcell.trans (whenS_regKept (fun s => requestColAt_regKept hreg _ f.col.isLt s) _)

/-- A fault that no column locates (R237). -/
theorem unlocated_regKept (l : Nat) (g : Seg) (sev : Nat) (s : State) : regKept q off s (unlocated l g sev s) := by
  unfold unlocated
  extract_lets k t near n s1 s2 s3
  have hcell : regKept q off s s1 := engMod_regKept _ _ _ _ _
  have hcount : regKept q off s1 s2 := fset_regKept (hreg.check _ 0x54 (by decide)) _ _ _ _
  have hrec : regKept q off s2 s3 := errEng_regKept hreg.plain _ _ _ _ _ _ _
  have hfault (s : State) : regKept q off s (engineFault l s) := engMod_regKept _ _ _ _ _
  exact hcell.trans (hcount.trans (hrec.trans (whenS_regKept hfault _)))

end

/-! ### What repair leaves of the engines -/

theorem requestColAt_keeps (x c : Nat) (s : State) : Keeps Eng.sansRepair s (requestColAt x c s) := by
  unfold requestColAt
  extract_lets p s1
  have hmark : Keeps Eng.sansRepair s s1 := (fset_logOnly _ _ _ _ _ _).keeps
  split
  · exact hmark
  · split
    · exact hmark.trans (engineFaultAt_keeps _ _)
    · exact hmark.trans (engMod_keeps _ _ _)

theorem statCell_keeps (l : Nat) (p : Flight) (f : FaultSite) (s : State) : Keeps Eng.sansRepair s (statCell l p f s) := by
  unfold statCell
  split
  · exact Keeps.refl _ s
  · extract_lets k t cells again s1
    have hcell : Keeps Eng.sansRepair s s1 := engMod_keeps _ _ _
    exact hcell.trans (whenS_keeps (fun s => requestColAt_keeps _ _ s) _)

theorem unlocated_keeps (l : Nat) (g : Seg) (sev : Nat) (s : State) : Keeps Eng.sansRepair s (unlocated l g sev s) := by
  unfold unlocated
  extract_lets k t near n s1 s2 s3
  have hcell : Keeps Eng.sansRepair s s1 := engMod_keeps _ _ _
  have hrec : Keeps id s1 s3 := (fset_logOnly _ _ _ _ _ _).keeps.trans (errEng_keeps _ _ _ _ _ _ _)
  exact hcell.trans ((hrec.mono fun _ _ he => congrArg Eng.sansRepair he).trans (whenS_keeps (fun s => engMod_keeps _ _ s) _))

/-- The dates of a pass in flight: its operation, its issue and its commit. -/
def Flight.dates (f : Flight) : PassOp × Nat × Nat := (f.op, f.cyc, f.commit)

/-- The dates of an engine's passes in flight, and how late it runs by its replays. -/
def Eng.schedule (e : Eng) : List (PassOp × Nat × Nat) × Nat := (e.arr.flights.map Flight.dates, e.dShift)

theorem Keeps.schedule {s t : State} (h : Keeps Eng.sansRepair s t) : Keeps Eng.schedule s t :=
  h.mono fun e e' he => (congrArg Eng.schedule he : e.sansRepair.schedule = e'.sansRepair.schedule)

/-- The engine that executes a logical engine's work stays while it is bound where it was and no takeover begins. -/
theorem execKey_congr {s t : State} (h : Keeps Eng.sansRepair s t) {l : Nat} (hmap : regKept (pgDie (l / 4) 1) 0x40 s t) :
    execKey t l = execKey s l := by
  have htake (k : Nat) : (eng t k).takeover = (eng s k).takeover :=
    (congrArg Eng.takeover (h.engs k) : (eng t k).sansRepair.takeover = (eng s k).sansRepair.takeover)
  have hslot : slotPhys t l = slotPhys s l := hmap.fget_eq _ _
  rw [execKey, h.storeKey, htake, hslot, execKey]

/-- Before a fault is reported: the passes keep their dates, the engine that executes is the same, and its pass faults are as many. -/
structure BeforeReport (l : Nat) (s t : State) : Prop where
  dates : Keeps Eng.schedule s t
  exec : execKey t l = execKey s l
  count : regKept (pgEng (execKey s l) 1) 0x78 s t

section
variable {l : Nat} {s t u : State}

theorem BeforeReport.refl (l : Nat) (s : State) : BeforeReport l s s := ⟨Keeps.refl _ s, rfl, regKept_refl _ _ s⟩

theorem BeforeReport.trans (h : BeforeReport l s t) (k : BeforeReport l t u) : BeforeReport l s u := by
  refine ⟨h.dates.trans k.dates, k.exec.trans h.exec, h.count.trans ?_⟩
  have hcount := k.count
  rwa [h.exec] at hcount

theorem BeforeReport.of_repair (h : Keeps Eng.sansRepair s t) (hregs : ∀ q off, RepairReg q off → regKept q off s t) : BeforeReport l s t :=
  ⟨h.schedule, execKey_congr h (hregs _ _ (engMap_repairReg _)), hregs _ _ (passFaults_repairReg _)⟩

theorem whenS_beforeReport {b : Bool} {f : State → State} (h : ∀ s, BeforeReport l s (f s)) (s : State) : BeforeReport l s (whenS b f s) := by
  cases b
  · exact BeforeReport.refl l s
  · exact h s

theorem statCell_beforeReport (l' : Nat) (p : Flight) (f : FaultSite) (s : State) : BeforeReport l s (statCell l' p f s) :=
  .of_repair (statCell_keeps _ _ _ _) fun _ _ hreg => statCell_regKept hreg _ _ _ _

theorem ldsSubst_beforeReport (x : Nat) (s : State) : BeforeReport l s (ldsSubst x s) :=
  .of_repair (ldsSubst_keeps _ _) fun _ _ hreg => ldsSubst_regKept hreg _ _

/-- Passes that are changed but for their dates. -/
theorem mapFlights_schedule (k : Nat) (f : Flight → Flight) (hf : ∀ g, (f g).dates = g.dates) (s : State) :
    Keeps Eng.schedule s (arrMod k (fun a => { a with flights := a.flights.map f }) s) := by
  refine engMod_keeps _ _ _ fun e => ?_
  simp only [Eng.schedule, List.map_map, Function.comp_def, hf]

theorem dates_ite (b : Prop) [Decidable b] (g g' : Flight) (h : g'.dates = g.dates) : (if b then g' else g).dates = g.dates := by
  split
  · exact h
  · rfl

theorem reloadTile_schedule (k e : Nat) (p : Flight) (s : State) : Keeps Eng.schedule s (reloadTile k e p s) :=
  mapFlights_schedule k (fun f => if p.cyc ≤ f.cyc ∧ f.tileAt = p.tileAt then { f with tileAt := e, redo := true } else f)
    (fun _ => dates_ite _ _ _ rfl) s

theorem reloadTile_beforeReport (k e : Nat) (p : Flight) (s : State) : BeforeReport l s (reloadTile k e p s) := by
  have htake : Keeps Eng.takeover s (reloadTile k e p s) := engMod_keeps _ _ _
  refine ⟨reloadTile_schedule k e p s, ?_, regKept_of_regs rfl⟩
  rw [execKey, htake.storeKey, htake.engs]
  rfl

end

/-! ### The report of a pass fault (R232, R255) -/

theorem faultReport_keeps (l : Nat) (f : FaultSite) (p : Flight) (d outcome sev : Nat) (s : State) :
    Keeps id s (faultReport l f p d outcome sev s) := by
  unfold faultReport
  extract_lets x k pa s1 pp s2 s3 cell s4
  have hcount : LogOnly s s2 := ((finc_logOnly _ _ _ _ _ _).trans ((rset_logOnly _ _ _ _).trans (raise_logOnly _ _ _))).trans
    ((finc_logOnly _ _ _ _ _ _).trans (rset_logOnly _ _ _ _))
  have hcause : LogOnly s2 s3 := by
    simp only [s3]
    cases f.cause <;> exact (finc_logOnly _ _ _ _ _ _).trans (raise_logOnly _ _ _)
  have hrec : Keeps id s s4 := (hcount.trans hcause).keeps.trans (errEng_keeps _ _ _ _ _ _ _)
  split
  · exact hrec.trans (frameMod_keeps _ _ _ _)
  · exact hrec

/-- The engine's ARRAY page counts a pass fault once. -/
theorem faultReport_count (l : Nat) (f : FaultSite) (p : Flight) (d outcome sev : Nat) (s : State) :
    fget (faultReport l f p d outcome sev s) (pgEng (execKey s l) 1) 0x78 0 16 =
      min (fget s (pgEng (execKey s l) 1) 0x78 0 16 + 1) 65535 := by
  have hreg := passFaults_repairReg (execKey s l)
  have hset (q off : Nat) (hne : ¬ (q = 1 ∧ off / 4 = 30) ∧ q < 16 ∧ off < 4096) (x : Nat) (v : Word) (s' : State) :
      regKept (pgEng (execKey s l) 1) 0x78 s' (rset (pgEng x q) off v s') := by
    refine rset_regKept ?_ v s'
    unfold ridx pgEng
    omega
  unfold faultReport
  extract_lets x k pa s1 pp s2 s3 cell s4
  have hraise (p bit : Nat) (s' : State) : regKept pa 0x78 s' (raise p bit s') := raise_regKept hreg.plain p bit s'
  have hpages : regKept pa 0x78 (finc pa 0x78 0 16 1 s) s2 := ((hset 1 0x7C (by decide) _ _ _).trans (hraise _ _ _)).trans
    ((hset 8 0x40 (by decide) _ _ _).trans (hset 8 0x44 (by decide) _ _ _))
  have hcause : regKept pa 0x78 s2 s3 := by
    simp only [s3]
    cases f.cause with
    | checksum => exact (hset 5 0x50 (by decide) _ _ _).trans (hraise _ _ _)
    | statParity => exact (hset 1 0x80 (by decide) _ _ _).trans (hraise _ _ _)
    | bankParity => exact (hset 1 0x80 (by decide) _ _ _).trans (hraise _ _ _)
  have hrec : regKept pa 0x78 s3 s4 := errEng_regKept hreg.plain _ _ _ _ _ _ _
  refine (((hpages.trans hcause).trans (hrec.trans ?_)).fget_eq _ _).trans (fget_finc_self (by decide) 1 s)
  split
  · exact frameMod_regKept _ _ _ _ _ _
  · exact regKept_refl _ _ s4

end Sys2Proof.Machine
end

