-- ==== Sys2Proof/Proofs/PassFaults.lean ====
section
/-! PROOF. PASS_FAULT (R108, R232, R255): nothing found, a replay, or a second fault. -/

namespace Sys2Proof.Machine

-- One proof at a time, as in the tests: proofs that wait for one another would each hold a stack.
set_option Elab.async false

/-! ### Passes that have nothing to read again (R94, R95) -/

/-- Where every pass in flight is formed of what its lines held, none is formed again. -/
theorem reformAll_of_formed {k : Nat} {s : State} (hformed : formed (eng s k)) : reformAll k s = s := by
  have hfold (l : List Nat) : foldS l (reformAt k) s = s := by
    induction l with
    | nil => rfl
    | cons i l ih =>
      have hstay : reformAt k i s = s := reformAt_of_fresh fun f hf => hformed.2 f (List.mem_of_getElem? hf)
      show foldS l (reformAt k) (reformAt k i s) = s
      rw [hstay, ih]
  exact hfold _

/-! ### An error that no check finds (R255) -/

/-- A change of a table's entries that leaves the one at a key leaves what the table holds there. -/
theorem tabGet_map_of_kept {α : Type} (d : Nat → α) (F : Nat × α → Nat × α) (m : Tab α) (key : Nat) (hkey : ∀ x, (F x).1 = x.1)
    (hkept : ∀ x, x.1 = key → F x = x) : tabGet d (m.map F) key = tabGet d m key := by
  induction m with
  | nil => rfl
  | cons x m ih =>
    have hx := hkey x
    simp only [List.map_cons, tabGet]
    rw [hx, ih]
    split
    · next h => rw [hkept x h]
    · rfl

theorem halfMod_half_ne {b h : Bool} (hne : b ≠ h) (f : Half → Half) (a : ArraySt) : (a.halfMod h f).half b = a.half b := by
  cases b <;> cases h
  · exact absurd rfl hne
  · rfl
  · rfl
  · exact absurd rfl hne

theorem halfMod_half_self (h : Bool) (f : Half → Half) (a : ArraySt) : (a.halfMod h f).half h = f (a.half h) := by cases h <;> rfl

theorem redoFrom_schedule (k : Nat) (h : Bool) (s : State) : Keeps Eng.schedule s (redoFrom k h s) :=
  mapFlights_schedule k (fun f => if f.op.src ∧ f.op.dsth ≠ h then { f with redo := true } else f) (fun _ => dates_ite _ _ _ rfl) s

/-- The passes keep their dates where only a half is changed. -/
theorem halfMod_schedule (k : Nat) (h : Bool) (f : Half → Half) (s : State) : Keeps Eng.schedule s (arrMod k (fun a => a.halfMod h f) s) :=
  engMod_keeps _ _ _ fun e => by cases h <;> rfl

theorem silentErr_schedule (k : Nat) (p : Flight) (f : FaultSite) (s : State) : Keeps Eng.schedule s (silentErr k p f s) := by
  unfold silentErr
  extract_lets v wrong cols s'
  have hwrong : Keeps Eng.schedule s s' := halfMod_schedule _ _ _ _
  have hfree : Keeps Eng.schedule s' { s' with free := s'.free + 64 } := keeps_of_engs rfl rfl rfl
  exact hwrong.trans (hfree.trans (redoFrom_schedule _ _ _))

theorem mem_colsOf {f : Nat → Bool} {n : Nat} : n ∈ colsOf f ↔ n < 64 ∧ f n = true := by
  rw [colsOf, List.mem_filter, List.mem_range]

/-- Only the faulty vector's elements of the columns with an error change (R255). -/
theorem silentErr_elem (k : Nat) (p : Flight) (f : FaultSite) (s : State) {b : Bool} {v n : Nat} (hn : n < 64)
    (hother : siteErr f n = .zero ∨ b ≠ p.op.dsth ∨ v ≠ f.p.toNat * p.region + p.op.boff.toNat + f.m.toNat) :
    ((eng (silentErr k p f s) k).arr.half b).elem v n = ((eng s k).arr.half b).elem v n := by
  have hredo (h : Bool) (s : State) : (eng (redoFrom k h s) k).arr.half b = (eng s k).arr.half b := by
    rw [redoFrom, arr_arrMod_self]
    rfl
  unfold silentErr
  extract_lets v' wrong cols s'
  rw [hredo]
  show ((eng s' k).arr.half b).elem v n = _
  simp only [s']
  rw [arr_arrMod_self]
  by_cases hb : b = p.op.dsth
  case neg => rw [halfMod_half_ne hb]
  subst hb
  rw [halfMod_half_self]
  refine tabGet_map_of_kept _ _ _ _ (fun x => ?_) fun x hx => if_neg ?_
  · split <;> rfl
  · rintro ⟨hv, hcol⟩
    have hvec : x.1 / 64 = v := by omega
    have hlane : x.1 % 64 = n := by omega
    rw [hlane, List.contains_iff_mem, mem_colsOf, decide_eq_true_eq] at hcol
    rcases hother with hzero | hhalf | hne
    · exact hcol.2 hzero
    · exact hhalf rfl
    · exact hne (hvec ▸ hv)

/-! ### Marks (R108, R232) -/

/-- Every element of the vectors carries REPLAYED. -/
def replayedAt (vs : List Nat) (h : Half) : Prop :=
  ∀ x ∈ h.elems, vs.contains (x.1 / 64) = true → x.2.mark &&& mkReplayed = mkReplayed

/-- The bank vectors of a pass. -/
def Flight.vectors (f : Flight) : List Nat := (covers f.region f.nprob f.op.boff.toNat (f.op.mm1.toNat + 1)).map (·.1)

theorem or_replayed (m : Mark) : (m ||| mkReplayed) &&& mkReplayed = mkReplayed := by
  revert m
  decide

/-- A pass whose elements are marked REPLAYED. -/
theorem markPass_marks (k : Nat) (f : Flight) (s : State) : replayedAt f.vectors ((eng (markPass k f mkReplayed s) k).arr.half f.op.dsth) := by
  unfold markPass
  rw [arr_arrMod_self, halfMod_half_self]
  intro x hx hv
  obtain ⟨y, -, rfl⟩ := List.mem_map.1 hx
  dsimp only at hv ⊢
  split at hv
  · next h => rw [if_pos h]; exact or_replayed _
  · next h => exact absurd hv h

/-- Marking another pass takes no mark away. -/
theorem markPass_keeps_marks (k : Nat) (f : Flight) (s : State) {vs : List Nat} {b : Bool} (h : replayedAt vs ((eng s k).arr.half b)) :
    replayedAt vs ((eng (markPass k f mkReplayed s) k).arr.half b) := by
  unfold markPass
  rw [arr_arrMod_self]
  by_cases hb : b = f.op.dsth
  case neg => rwa [halfMod_half_ne hb]
  subst hb
  rw [halfMod_half_self]
  intro x hx hv
  obtain ⟨y, hy, rfl⟩ := List.mem_map.1 hx
  dsimp only at hv ⊢
  split
  · exact or_replayed _
  · next hne => rw [if_neg hne] at hv; exact h y hy hv

theorem inheritMarks_keeps_marks (k : Nat) (b' : Bool) (fs : List Flight) (s : State) {vs : List Nat} {b : Bool}
    (h : replayedAt vs ((eng s k).arr.half b)) : replayedAt vs ((eng (inheritMarks k mkReplayed b' fs s) k).arr.half b) := by
  induction fs generalizing b' s with
  | nil => exact h
  | cons f fs ih =>
    unfold inheritMarks
    split
    · exact ih _ _ (ih _ _ (markPass_keeps_marks k f s h))
    · exact ih _ _ h

/-! ### After the report -/

/-- No pass is added to an engine's passes in flight, and the pass faults that an ARRAY page counts are as many. -/
structure AfterReport (k x : Nat) (s t : State) : Prop where
  fewer : (eng t k).arr.flights.length ≤ (eng s k).arr.flights.length
  count : regKept (pgEng x 1) 0x78 s t

section
variable {k x : Nat} {s t u : State}

theorem AfterReport.refl (k x : Nat) (s : State) : AfterReport k x s s := ⟨le_refl _, regKept_refl _ _ s⟩

theorem AfterReport.trans (h : AfterReport k x s t) (l : AfterReport k x t u) : AfterReport k x s u :=
  ⟨l.fewer.trans h.fewer, h.count.trans l.count⟩

theorem Keeps.flightCount (h : Keeps Eng.schedule s t) (k : Nat) : (eng t k).arr.flights.length = (eng s k).arr.flights.length := by
  have hlen := congrArg (fun y : List (PassOp × Nat × Nat) × Nat => y.1.length) (h.engs k)
  simpa only [Eng.schedule, List.length_map] using hlen

theorem AfterReport.of_schedule (h : Keeps Eng.schedule s t) (hcount : regKept (pgEng x 1) 0x78 s t) : AfterReport k x s t :=
  ⟨(h.flightCount k).le, hcount⟩

theorem AfterReport.of_id (h : Keeps id s t) (hcount : regKept (pgEng x 1) 0x78 s t) : AfterReport k x s t :=
  .of_schedule (h.mono fun _ _ he => congrArg Eng.schedule he) hcount

theorem AfterReport.of_logOnly (h : LogOnly s t) (hcount : regKept (pgEng x 1) 0x78 s t) : AfterReport k x s t := .of_id h.keeps hcount

theorem whenS_afterReport {b : Bool} {f : State → State} (h : ∀ s, AfterReport k x s (f s)) (s : State) : AfterReport k x s (whenS b f s) := by
  cases b
  · exact AfterReport.refl k x s
  · exact h s

/-- A fault that is reported is counted once, and adds no pass to those in flight. -/
theorem AfterReport.reported {l d outcome sev : Nat} {f : FaultSite} {p : Flight} (hbefore : BeforeReport l s u)
    (h : AfterReport k (execKey s l) (faultReport l f p d outcome sev u) t) :
    fget t (pgEng (execKey s l) 1) 0x78 0 16 = min (fget s (pgEng (execKey s l) 1) 0x78 0 16 + 1) 65535 ∧
      (eng t k).arr.flights.length ≤ (eng s k).arr.flights.length := by
  have hcount := faultReport_count l f p d outcome sev u
  have hreport : Keeps Eng.schedule u (faultReport l f p d outcome sev u) :=
    (faultReport_keeps _ _ _ _ _ _ _).mono fun _ _ he => congrArg Eng.schedule he
  rw [hbefore.exec, hbefore.count.fget_eq] at hcount
  exact ⟨(h.count.fget_eq _ _).trans hcount, h.fewer.trans ((hbefore.dates.trans hreport).flightCount k).le⟩

end

section
variable (k x : Nat)

theorem arrMod_afterReport (k' : Nat) (f : ArraySt → ArraySt) (s : State) (hf : ∀ a, (f a).flights.length ≤ a.flights.length) :
    AfterReport k x s (arrMod k' f s) := by
  refine ⟨?_, regKept_of_regs rfl⟩
  rw [arrMod, eng_engMod]
  split
  · next h => rw [h]; exact hf _
  · exact le_refl _

theorem halfMod_afterReport (k' : Nat) (h : Bool) (f : Half → Half) (s : State) : AfterReport k x s (arrMod k' (fun a => a.halfMod h f) s) :=
  .of_schedule (halfMod_schedule _ _ _ _) (regKept_of_regs rfl)

theorem discardRun_afterReport (k' : Nat) (p : Flight) (later : List Flight) (s : State) : AfterReport k x s (discardRun k' p later s) :=
  (halfMod_afterReport k x _ _ _ s).trans (whenS_afterReport (fun s => halfMod_afterReport k x _ _ _ s) _)

theorem inheritMarks_afterReport (k' : Nat) (m : Mark) (h : Bool) (fs : List Flight) (s : State) :
    AfterReport k x s (inheritMarks k' m h fs s) := by
  induction fs generalizing h s with
  | nil => exact AfterReport.refl k x s
  | cons f fs ih =>
    unfold inheritMarks
    split
    · exact (halfMod_afterReport k x _ _ _ s).trans ((ih _ _).trans (ih _ _))
    · exact ih _ _

theorem shiftEngine_afterReport (k' from' d : Nat) (s : State) : AfterReport k x s (shiftEngine k' from' d s) := by
  refine ⟨?_, regKept_of_regs rfl⟩
  rw [shiftEngine, eng_engMod]
  split
  · next h => rw [h, List.length_map]
  · exact le_refl _

theorem redoFrom_afterReport (k' : Nat) (h : Bool) (s : State) : AfterReport k x s (redoFrom k' h s) :=
  .of_schedule (redoFrom_schedule _ _ _) (regKept_of_regs rfl)

theorem rereadTile_afterReport (k' : Nat) (s : State) : AfterReport k x s (rereadTile k' s) :=
  arrMod_afterReport k x _ _ _ fun a => by split <;> exact le_refl _

theorem errEng_afterReport (ty sev l : Nat) (g : Seg) (block : Nat) (detail : List Nat) (s : State) :
    AfterReport k x s (errEng ty sev l g block detail s) :=
  .of_id (errEng_keeps _ _ _ _ _ _ _) (errEng_regKept (passFaults_repairReg x).plain _ _ _ _ _ _ _)

theorem unlocated_afterReport (l : Nat) (g : Seg) (sev : Nat) (s : State) : AfterReport k x s (unlocated l g sev s) :=
  .of_schedule (unlocated_keeps _ _ _ _).schedule (unlocated_regKept (passFaults_repairReg x) _ _ _ _)

theorem reloadTile_afterReport (k' c : Nat) (p : Flight) (s : State) : AfterReport k x s (reloadTile k' c p s) :=
  .of_schedule (reloadTile_schedule _ _ _ _) (regKept_of_regs rfl)

theorem ldsSubst_afterReport (x' : Nat) (s : State) : AfterReport k x s (ldsSubst x' s) :=
  .of_schedule (ldsSubst_keeps _ _).schedule (ldsSubst_regKept (passFaults_repairReg x) _ _)

end

end Sys2Proof.Machine
end

