-- ==== Sys2Proof/Proofs/SecondFaults.lean ====
section
/-! PROOF. PASS_FAULT whose replay ends in a second fault (R232, R234, R235): what it leaves of the passes in flight and counts. -/

namespace Sys2Proof.Machine

-- One proof at a time, as in the tests: proofs that wait for one another would each hold a stack.
set_option Elab.async false

/-! ### What follows the report of a second fault -/

/-- A pass leaves the passes in flight. -/
def dropFlight (k : Nat) (p : Flight) (s : State) : State :=
  arrMod k (fun a => { a with flights := a.flights.filter fun y => !decide (y = p) }) s

/-- A pass and the later ones that its half goes to are left without a result. -/
def killPass (k : Nat) (p : Flight) (later : List Flight) (s : State) : State :=
  inheritMarks k mkFailed p.op.dsth later
    (if later.any fun g => decide (g.op.dsth = p.op.dsth) then discard k p.op.dsth later s
      else arrMod k (fun a => a.halfMod p.op.dsth Half.invalid) s)

section
variable (k x : Nat)

theorem dropFlight_afterReport (k' : Nat) (p : Flight) (s : State) : AfterReport k x s (dropFlight k' p s) :=
  arrMod_afterReport k x _ _ _ fun _ => List.length_filter_le _ _

theorem killPass_afterReport (k' : Nat) (p : Flight) (later : List Flight) (s : State) : AfterReport k x s (killPass k' p later s) := by
  unfold killPass
  refine AfterReport.trans ?_ (inheritMarks_afterReport k x _ _ _ _ _)
  split
  · exact halfMod_afterReport k x _ _ _ s
  · exact halfMod_afterReport k x _ _ _ s

theorem errata_afterReport (r : Er) (s : State) : AfterReport k x s (errata r s) :=
  .of_logOnly (errata_logOnly _ _) (errata_regKept (passFaults_repairReg x).plain _ _)

theorem consume_afterReport (l : Nat) (g : Seg) (pc : Nat) (o : Nat × Option Nat) (m : Mark) (s : State) :
    AfterReport k x s (consume l g pc o m s) :=
  .of_id (consume_keeps _ _ _ _ _ _) (regKept_of_regs (consume_regs _ _ _ _ _ _))

/-- The takeover by the die's spare engine begins (R235). -/
theorem takeover_afterReport (k' c : Nat) (s : State) :
    AfterReport k x s (engMod k' (fun e => { e with takeover := true }) (finc (pgEng k' 8) 0x48 0 32 1 (fset (pgDie c 1) 0x48 0 5 16 s))) := by
  have hdie : ridx (pgEng x 1) 0x78 ≠ ridx (pgDie c 1) 0x48 := by unfold ridx pgEng pgDie; omega
  have hpage : ridx (pgEng x 1) 0x78 ≠ ridx (pgEng k' 8) 0x48 := by unfold ridx pgEng; omega
  have hregs : AfterReport k x s (finc (pgEng k' 8) 0x48 0 32 1 (fset (pgDie c 1) 0x48 0 5 16 s)) :=
    .of_logOnly ((fset_logOnly _ _ _ _ _ _).trans (finc_logOnly _ _ _ _ _ _)) ((fset_regKept hdie _ _ _ _).trans (finc_regKept hpage _ _ _ _))
  exact hregs.trans (.of_schedule (engMod_keeps _ _ _) (regKept_of_regs rfl))

end

/-! ### A second fault (R232) -/

/-- After its report a second fault adds no pass to those in flight and counts none, whether it ends in poison, a takeover or FAILED. -/
theorem secondFault_afterReport (k x l : Nat) (f f2 : FaultSite) (p : Flight) (later : List Flight) (t2 : Nat) (third : Bool) (s : State) :
    ∃ d outcome sev, AfterReport k x (faultReport l f p d outcome sev s) (secondFault l f f2 p later t2 third s) := by
  unfold secondFault
  extract_lets k' drop kill dTake d2 elem key poison s1 old s2 s3 struck s4 s5 s6 per u1 u2 u3 u4 u5 v1
  have hkill (s : State) : AfterReport k x s (kill s) := killPass_afterReport k x k' p later s
  have hdrop (s : State) : AfterReport k x s (drop s) := dropFlight_afterReport k x k' p s
  split
  · -- one element struck twice: poison
    refine ⟨d2, 2, 2, ?_⟩
    have hsource : AfterReport k x s1 s2 := halfMod_afterReport k x _ _ _ _
    have hdest : AfterReport k x s3 s4 := halfMod_afterReport k x _ _ _ _
    have hredo : AfterReport k x s4 s5 := (hdrop s4).trans ((redoFrom_afterReport k x _ _ _).trans (redoFrom_afterReport k x _ _ _))
    have hrec : AfterReport k x s5 s6 := errata_afterReport k x _ _
    exact hsource.trans ((hkill s2).trans (hdest.trans (hredo.trans (hrec.trans
      ((shiftEngine_afterReport k x _ _ _ _).trans (consume_afterReport k x _ _ _ _ _ _))))))
  · split
    · -- takeover by the spare engine
      refine ⟨dTake, 2, if third then 2 else 1, ?_⟩
      have hbegin : AfterReport k x u1 u4 := (errEng_afterReport k x _ _ _ _ _ _ _).trans (takeover_afterReport k x _ _ _)
      have hmarks : AfterReport k x u4 u5 := by
        simp only [u5]
        split
        · exact hkill u4
        · exact (discardRun_afterReport k x _ _ _ _).trans ((halfMod_afterReport k x _ _ _ _).trans (inheritMarks_afterReport k x _ _ _ _ _))
      exact hbegin.trans (hmarks.trans ((reloadTile_afterReport k x _ _ _ _).trans
        ((shiftEngine_afterReport k x _ _ _ _).trans (rereadTile_afterReport k x _ _))))
    · -- the pass is FAILED
      refine ⟨d2, 2, 2, ?_⟩
      exact (hkill _).trans ((unlocated_afterReport k x _ _ _ _).trans ((hdrop _).trans (shiftEngine_afterReport k x _ _ _ _)))

end Sys2Proof.Machine
end

