-- ==== Sys2Proof/Proofs/FaultFindings.lean ====
section
/-! PROOF. PASS_FAULT (R108, R232, R255): a replay that runs without a fault, and the three findings put together. -/

namespace Sys2Proof.Machine

-- One proof at a time, as in the tests: proofs that wait for one another would each hold a stack.
set_option Elab.async false

/-! ### What follows the marks of a replay -/

theorem pathSuspect_keeps (l : Nat) (g : Seg) (s : State) : Keeps id s (pathSuspect l g s) :=
  ((fset_logOnly _ _ _ _ _ _).trans (raise_logOnly _ _ _)).keeps.trans (errEng_keeps _ _ _ _ _ _ _)

theorem pathSuspect_regKept {q off : Nat} (hreg : RepairReg q off) (l : Nat) (g : Seg) (s : State) : regKept q off s (pathSuspect l g s) :=
  ((fset_regKept (hreg.check _ 0x54 (by decide)) _ _ _ s).trans (raise_regKept hreg.plain _ _ _)).trans (errEng_regKept hreg.plain _ _ _ _ _ _ _)

theorem physCol_lt (s : State) (x : Nat) {n : Nat} (hn : n ≤ 64) : physCol s x n < 128 := by
  have hspare := fget_lt s (pgEng x 1) 0x54 16 7
  unfold physCol
  extract_lets p
  split
  · exact hspare
  · split
    · decide
    · split <;> omega

theorem headD_colsOf_lt (f : Nat → Bool) : (colsOf f).headD 0 < 64 := by
  cases h : colsOf f with
  | nil => decide
  | cons n l => exact (mem_colsOf.1 (h ▸ List.mem_cons_self : n ∈ colsOf f)).1

/-! ### A replay whose result is used (R232) -/

/-- A replay reported, its discarded elements and its marks made. -/
def replayMarked (l : Nat) (f : FaultSite) (p : Flight) (later : List Flight) (d outcome : Nat) (s : State) : State :=
  inheritMarks (storeKey s l) mkReplayed p.op.dsth later
    (markPass (storeKey s l) p mkReplayed (discardRun (storeKey s l) p later (faultReport l f p d outcome 1 s)))

/-- Once marked, the passes reissue later, and the fault's place is written down. -/
theorem replayUsed_keeps (l : Nat) (f : FaultSite) (outs : List FVal) (p : Flight) (later : List Flight) (d : Nat) (suspect : Bool)
    (s : State) : ∃ outcome, Keeps Eng.sansRepair (shiftEngine (storeKey s l) p.cyc d (replayMarked l f p later d outcome s))
      (replayUsed l f outs p later d suspect s) ∧
    ∀ q off, RepairReg q off → regKept q off (shiftEngine (storeKey s l) p.cyc d (replayMarked l f p later d outcome s))
      (replayUsed l f outs p later d suspect s) := by
  refine ⟨if suspect then 1 else 0, ?_⟩
  unfold replayUsed
  extract_lets k x s1 s2 s3 s4 o cols c
  have hs4 : shiftEngine (storeKey s l) p.cyc d (replayMarked l f p later d (if suspect then 1 else 0) s) = s4 := rfl
  rw [hs4]
  have hid {t : State} (h : Keeps id s4 t) : Keeps Eng.sansRepair s4 t := h.mono fun _ _ he => congrArg Eng.sansRepair he
  split
  · split
    · exact ⟨hid (pathSuspect_keeps _ _ _), fun _ _ hreg => pathSuspect_regKept hreg _ _ _⟩
    · split
      · have hc : physCol s4 x c < 128 := physCol_lt s4 x (Nat.le_of_lt (headD_colsOf_lt _))
        exact ⟨(requestColAt_keeps _ _ _).trans (errEng_keeps _ _ _ _ _ _ _),
          fun _ _ hreg => (requestColAt_regKept hreg _ hc _).trans (errEng_regKept hreg.plain _ _ _ _ _ _ _)⟩
      · exact ⟨unlocated_keeps _ _ _ _, fun _ _ hreg => unlocated_regKept hreg _ _ _ _⟩
  · exact ⟨Keeps.refl _ _, fun _ _ _ => regKept_refl _ _ _⟩

/-- The dates of a pass where the engine's passes from `from'` on reissue `d` cycles later. -/
def shiftDates (from' d : Nat) (g : PassOp × Nat × Nat) : PassOp × Nat × Nat :=
  if from' ≤ g.2.1 then (g.1, g.2.1 + d, g.2.2 + d) else g

theorem shiftEngine_schedule (k from' d : Nat) (s : State) : (eng (shiftEngine k from' d s) k).schedule =
    ((eng s k).schedule.1.map (shiftDates from' d), (eng s k).schedule.2 + d) := by
  rw [shiftEngine, eng_engMod, if_pos rfl]
  simp only [Eng.schedule, List.map_map, Prod.mk.injEq, and_true]
  refine List.map_congr_left fun g _ => ?_
  by_cases hfrom : from' ≤ g.cyc
  · rw [Function.comp_apply, if_pos hfrom]
    exact (if_pos hfrom).symm
  · rw [Function.comp_apply, if_neg hfrom]
    exact (if_neg hfrom).symm

theorem shiftEngine_half (k from' d : Nat) (b : Bool) (s : State) :
    (eng (shiftEngine k from' d s) k).arr.half b = (eng s k).arr.half b := by
  rw [shiftEngine, eng_engMod, if_pos rfl]
  cases b <;> rfl

theorem inheritMarks_schedule (k : Nat) (m : Mark) (h : Bool) (fs : List Flight) (s : State) :
    Keeps Eng.schedule s (inheritMarks k m h fs s) := by
  induction fs generalizing h s with
  | nil => exact Keeps.refl _ s
  | cons f fs ih =>
    unfold inheritMarks
    split
    · exact (halfMod_schedule _ _ _ _).trans ((ih _ _).trans (ih _ _))
    · exact ih _ _

theorem discardRun_schedule (k : Nat) (p : Flight) (later : List Flight) (s : State) : Keeps Eng.schedule s (discardRun k p later s) :=
  (halfMod_schedule _ _ _ _).trans (whenS_keeps (halfMod_schedule _ _ _) _)

theorem replayMarked_schedule (l : Nat) (f : FaultSite) (p : Flight) (later : List Flight) (d outcome : Nat) (s : State) :
    Keeps Eng.schedule s (replayMarked l f p later d outcome s) :=
  ((faultReport_keeps _ _ _ _ _ _ _).mono fun _ _ he => congrArg Eng.schedule he).trans
    ((discardRun_schedule _ _ _ _).trans ((halfMod_schedule _ _ _ _).trans (inheritMarks_schedule _ _ _ _ _)))

theorem replayMarked_count (l x : Nat) (f : FaultSite) (p : Flight) (later : List Flight) (d outcome : Nat) (s : State) :
    regKept (pgEng x 1) 0x78 (faultReport l f p d outcome 1 s) (replayMarked l f p later d outcome s) :=
  ((discardRun_afterReport 0 x _ _ _ _).trans ((halfMod_afterReport 0 x _ _ _ _).trans (inheritMarks_afterReport 0 x _ _ _ _ _))).count

/-- Repair leaves the halves of the arrays as they were. -/
theorem Keeps.halfOfRepair {s t : State} (h : Keeps Eng.sansRepair s t) (k : Nat) (b : Bool) :
    (eng t k).arr.half b = (eng s k).arr.half b :=
  (congrArg (fun e : Eng => e.arr.half b) (h.engs k) : (eng t k).sansRepair.arr.half b = (eng s k).sansRepair.arr.half b)

/-- What a replay that runs without a fault leaves (R232): the passes from the faulty one on reissue later, the fault is counted, and
the pass's elements are REPLAYED. -/
structure Replayed (l : Nat) (p : Flight) (d : Nat) (s t : State) : Prop where
  schedule : (eng t (storeKey s l)).schedule =
    ((eng s (storeKey s l)).schedule.1.map (shiftDates p.cyc d), (eng s (storeKey s l)).schedule.2 + d)
  count : fget t (pgEng (execKey s l) 1) 0x78 0 16 = min (fget s (pgEng (execKey s l) 1) 0x78 0 16 + 1) 65535
  marks : replayedAt p.vectors ((eng t (storeKey s l)).arr.half p.op.dsth)

theorem replayUsed_replayed (l : Nat) (f : FaultSite) (outs : List FVal) (p : Flight) (later : List Flight) (d : Nat) (suspect : Bool)
    (s : State) : Replayed l p d s (replayUsed l f outs p later d suspect s) := by
  obtain ⟨outcome, hkeeps, hregs⟩ := replayUsed_keeps l f outs p later d suspect s
  refine ⟨?_, ?_, ?_⟩
  · rw [hkeeps.schedule.engs, shiftEngine_schedule, (replayMarked_schedule _ _ _ _ _ _ s).engs]
  · have hcount := (replayMarked_count l (execKey s l) f p later d outcome s).trans (hregs _ _ (passFaults_repairReg (execKey s l)))
    rw [hcount.fget_eq, faultReport_count]
  · rw [hkeeps.halfOfRepair, shiftEngine_half]
    exact inheritMarks_keeps_marks _ _ _ _ (markPass_marks _ _ _)

theorem rereadTile_schedule (k : Nat) (s : State) : Keeps Eng.schedule s (rereadTile k s) :=
  engMod_keeps _ _ _ fun e => by
    dsimp only
    split <;> rfl

theorem rereadTile_half (k : Nat) (b : Bool) (s : State) : (eng (rereadTile k s) k).arr.half b = (eng s k).arr.half b := by
  rw [rereadTile, arr_arrMod_self]
  split <;> rfl

/-- A replay from a state before the report, after which the LDS that it reissues is read again. -/
theorem Replayed.of_before {l d : Nat} {p : Flight} {s u t : State} (h : Replayed l p d u t) (hbefore : BeforeReport l s u) :
    Replayed l p d s t := by
  have hstore := hbefore.dates.storeKey l
  have hsched := h.schedule
  have hmarks := h.marks
  have hcount := h.count
  rw [hstore] at hsched hmarks
  rw [hbefore.exec, hbefore.count.fget_eq] at hcount
  rw [hbefore.dates.engs] at hsched
  exact ⟨hsched, hcount, hmarks⟩

/-- The LDS that a replay reissues, if there is one, reads its lines again (R108). -/
def rereadLds (l k : Nat) (b : Bool) (s : State) : State := whenS b (fun s => rereadTile k (ldsSubst (execKey s l) s)) s

theorem rereadLds_afterReport (k x l k' : Nat) (b : Bool) (s : State) : AfterReport k x s (rereadLds l k' b s) :=
  whenS_afterReport (fun s => (ldsSubst_afterReport k x _ s).trans (rereadTile_afterReport k x _ _)) s

theorem rereadLds_schedule (l k : Nat) (b : Bool) (s : State) : Keeps Eng.schedule s (rereadLds l k b s) :=
  whenS_keeps (fun s => (ldsSubst_keeps _ s).schedule.trans (rereadTile_schedule _ _)) s

theorem rereadLds_half (l k : Nat) (b h : Bool) (s : State) : (eng (rereadLds l k b s) k).arr.half h = (eng s k).arr.half h := by
  cases b
  · rfl
  · exact (rereadTile_half _ _ _).trans ((ldsSubst_keeps _ s).halfOfRepair _ _)

theorem Replayed.reread {l d : Nat} {p : Flight} {s t : State} (h : Replayed l p d s t) (b : Bool) :
    Replayed l p d s (rereadLds l (storeKey s l) b t) where
  schedule := by rw [(rereadLds_schedule _ _ _ _).engs, h.schedule]
  count := by rw [(rereadLds_afterReport 0 _ _ _ _ _).count.fget_eq, h.count]
  marks := by
    rw [rereadLds_half]
    exact h.marks

/-! ### PASS_FAULT -/

/-- A later LDS of the engine had begun when the pass's fault was found. -/
def reloads (e : Eng) (f : FaultSite) (p : Flight) : Bool :=
  (e.arr.lds.filter fun a => decide (p.cyc < a)).any fun a => decide (a + 1 ≤ siteCyc f p p.cyc)

/-- How much later the engine's passes reissue, from the faulty one on. -/
def replayDelay (e : Eng) (f : FaultSite) (p : Flight) : Nat :=
  (if reloads e f p then siteCyc f p p.cyc + 62 else siteCyc f p p.cyc + 1) - p.cyc

/-- What is done before a pass's fault is reported: the cell's count and the reload of the tile. -/
def faultPrep (l : Nat) (f : FaultSite) (p : Flight) (s : State) : State :=
  let reload := reloads (eng s (storeKey s l)) f p
  let s1 := statCell l p f s
  whenS reload (reloadTile (storeKey s l) (siteCyc f p p.cyc + 1) p) (whenS reload (ldsSubst (execKey s1 l)) s1)

theorem faultPrep_beforeReport (l : Nat) (f : FaultSite) (p : Flight) (s : State) : BeforeReport l s (faultPrep l f p s) :=
  (statCell_beforeReport _ _ _ _).trans ((whenS_beforeReport (fun _ => ldsSubst_beforeReport _ _) _).trans
    (whenS_beforeReport (fun _ => reloadTile_beforeReport _ _ _ _) _))

theorem whenS_of_fixed {g : State → State} {s : State} (b : Bool) (h : g s = s) : whenS b g s = s := by
  cases b
  · rfl
  · exact h

section
variable {f : FaultFinding} {s : State} {p : Flight}

theorem doPassFault_none (hp : (eng s (storeKey s f.leng.toNat)).arr.flights[f.pass]? = none) : doPassFault f s = s := by
  have hlen : ¬ f.pass < (eng s (storeKey s f.leng.toNat)).arr.flights.length := Nat.not_lt.2 (List.getElem?_eq_none_iff.1 hp)
  unfold doPassFault
  extract_lets l k s1
  have hs1 : s1 = s := by simp only [s1, k, l, hlen, decide_false, whenS, Bool.false_eq_true, if_false]
  clear_value s1
  subst hs1
  rw [hp]

variable (hformed : formed (eng s (storeKey s f.leng.toNat))) (hp : (eng s (storeKey s f.leng.toNat)).arr.flights[f.pass]? = some p)
include hformed hp

/-- An error that no check finds is put into the elements. -/
theorem doPassFault_silent (hfound : siteFound f.site p (suspended s f.leng.toNat) = false) :
    doPassFault f s = silentErr (storeKey s f.leng.toNat) p f.site s := by
  unfold doPassFault
  extract_lets l k s1
  have hs1 : s1 = s := whenS_of_fixed _ (reformAll_of_formed hformed)
  clear_value s1
  subst hs1
  rw [hp]
  dsimp only
  rw [hfound]
  rfl

/-- A fault that a check finds: its replay ends in a second fault, or runs without one. -/
theorem doPassFault_found (hfound : siteFound f.site p (suspended s f.leng.toNat) = true) :
    ∃ p' later outs b, p'.dates = p.dates ∧ p'.vectors = p.vectors ∧
      (∀ x, endsReplay f.site p (suspended s f.leng.toNat) f.replay = some x → ∃ t2,
        doPassFault f s = rereadLds f.leng.toNat (storeKey s f.leng.toNat) b
          (secondFault f.leng.toNat f.site x p' later t2 f.third (statCell f.leng.toNat p' x (faultPrep f.leng.toNat f.site p s)))) ∧
      (f.replay = [] → doPassFault f s = rereadLds f.leng.toNat (storeKey s f.leng.toNat) b
        (replayUsed f.leng.toNat f.site outs p' later (replayDelay (eng s (storeKey s f.leng.toNat)) f.site p) false
          (faultPrep f.leng.toNat f.site p s))) := by
  unfold doPassFault
  extract_lets l k s1 susp later
  have hs1 : s1 = s := whenS_of_fixed _ (reformAll_of_formed hformed)
  clear_value s1
  subst hs1
  rw [hp]
  dsimp -zeta only
  extract_lets t next reload d u1 u2 u3 p' suspect u4
  rw [show siteFound f.site p susp = true from hfound, if_neg (by decide)]
  have hprep : u3 = faultPrep f.leng.toNat f.site p s1 := rfl
  have hdelay : d = replayDelay (eng s1 (storeKey s1 f.leng.toNat)) f.site p := rfl
  refine ⟨p', later, replayOuts f p' susp, next.isSome, rfl, rfl, fun x hsecond => ⟨siteCyc x p' (p.cyc + d), ?_⟩, fun hreplay => ?_⟩
  · have hends : endsReplay f.site p' susp f.replay = some x := hsecond
    have hrun : u4 = secondFault l f.site x p' later (siteCyc x p' (p.cyc + d)) f.third (statCell l p' x u3) := by
      simp only [u4, hends]
      rfl
    rw [hrun, hprep]
    rfl
  · have hrun : u4 = replayUsed l f.site (replayOuts f p' susp) p' later d false u3 := by
      simp only [u4, suspect, hreplay, endsReplay, List.filter_nil, List.foldl_nil, List.any_nil, Bool.and_false, foldS]
    rw [hrun, hprep, hdelay]
    rfl

end

/-- A replay goes by the pass's operation, dates and vectors. -/
theorem Replayed.congr {l d : Nat} {p p' : Flight} {s t : State} (h : Replayed l p' d s t) (hdates : p'.dates = p.dates)
    (hvectors : p'.vectors = p.vectors) : Replayed l p d s t := by
  have hop : p'.op = p.op := congrArg Prod.fst hdates
  have hcyc : p'.cyc = p.cyc := congrArg (fun y : PassOp × Nat × Nat => y.2.1) hdates
  obtain ⟨hsched, hcount, hmarks⟩ := h
  rw [hcyc] at hsched
  rw [hvectors, hop] at hmarks
  exact ⟨hsched, hcount, hmarks⟩

section
variable {f : FaultFinding} {s : State} {p : Flight} (hformed : formed (eng s (storeKey s f.leng.toNat)))
  (hp : (eng s (storeKey s f.leng.toNat)).arr.flights[f.pass]? = some p) (hfound : siteFound f.site p (suspended s f.leng.toNat) = true)
include hformed hp hfound

theorem passFault_replayed (hreplay : f.replay = []) :
    Replayed f.leng.toNat p (replayDelay (eng s (storeKey s f.leng.toNat)) f.site p) s (doPassFault f s) := by
  obtain ⟨p', later, outs, b, hdates, hvectors, -, hrun⟩ := doPassFault_found hformed hp hfound
  have hprep := faultPrep_beforeReport f.leng.toNat f.site p s
  have hused := (replayUsed_replayed f.leng.toNat f.site outs p' later (replayDelay (eng s (storeKey s f.leng.toNat)) f.site p) false
    (faultPrep f.leng.toNat f.site p s)).of_before hprep
  rw [hrun hreplay]
  exact (hused.reread b).congr hdates hvectors

/-- A second fault is counted once more on the page, and adds no pass to those in flight. -/
theorem passFault_secondFault {x : FaultSite} (hsecond : endsReplay f.site p (suspended s f.leng.toNat) f.replay = some x) :
    fget (doPassFault f s) (pgEng (execKey s f.leng.toNat) 1) 0x78 0 16 =
        min (fget s (pgEng (execKey s f.leng.toNat) 1) 0x78 0 16 + 1) 65535 ∧
      (eng (doPassFault f s) (storeKey s f.leng.toNat)).arr.flights.length ≤ (eng s (storeKey s f.leng.toNat)).arr.flights.length := by
  obtain ⟨p', later, -, b, -, -, hruns, -⟩ := doPassFault_found hformed hp hfound
  obtain ⟨t2, hrun⟩ := hruns x hsecond
  have hbefore := (faultPrep_beforeReport f.leng.toNat f.site p s).trans (statCell_beforeReport f.leng.toNat p' x _)
  obtain ⟨d, outcome, sev, hafter⟩ := secondFault_afterReport (storeKey s f.leng.toNat) (execKey s f.leng.toNat) f.leng.toNat f.site x p' later t2
    f.third (statCell f.leng.toNat p' x (faultPrep f.leng.toNat f.site p s))
  rw [hrun]
  exact (hafter.trans (rereadLds_afterReport _ _ _ _ _ _)).reported hbefore

end

theorem map_shiftDates (c d : Nat) (l : List Flight) : (l.map Flight.dates).map (shiftDates c d) =
    l.map fun g => if c ≤ g.cyc then (g.op, g.cyc + d, g.commit + d) else (g.op, g.cyc, g.commit) := by
  rw [List.map_map]
  rfl

theorem Keeps.flightDates {s t : State} (h : Keeps Eng.schedule s t) (k : Nat) :
    (eng t k).arr.flights.map (fun g => (g.op, g.cyc, g.commit)) = (eng s k).arr.flights.map (fun g => (g.op, g.cyc, g.commit)) :=
  congrArg Prod.fst (h.engs k)

/-- Settles O31: the dates, the marks and the count of the ARRAY page, each followed through the steps of the fault's handling. -/
theorem faultFindings : Obligations.FaultFindings := by
  unfold Obligations.FaultFindings
  rintro f s _ rfl
  refine ⟨fun hp => congrArg Host.Outcome.next (doPassFault_none hp), fun hformed p hp => ⟨fun hsilent => ?_, ?_, fun x hfound hsecond => ?_⟩⟩
  · refine ⟨doPassFault f s, rfl, ?_⟩
    rw [doPassFault_silent hformed hp hsilent]
    exact ⟨rfl, (silentErr_schedule _ p f.site s).flightDates _, fun b v n hn hother => silentErr_elem _ p f.site s hn hother⟩
  · rintro c d hfound rfl hd hreplay
    obtain rfl : d = replayDelay (eng s (storeKey s f.leng.toNat)) f.site p := hd
    obtain ⟨hsched, hcount, hmarks⟩ := passFault_replayed hformed hp hfound hreplay
    have hdates := (congrArg Prod.fst hsched).trans (map_shiftDates _ _ _)
    exact ⟨doPassFault f s, rfl, hdates, congrArg Prod.snd hsched, hcount, hmarks⟩
  · exact ⟨doPassFault f s, rfl, passFault_secondFault hformed hp hfound hsecond⟩

end Sys2Proof.Machine
end

