-- ==== Sys2Proof/Proofs/CatalogueInputs.lean ====
section
/-! PROOF. The Catalogue's inputs (R132, R135, R136, R137, R412): statistics transfers, the loss of an entry, and the aperture. -/

namespace Sys2Proof.Machine

-- One proof at a time, as in the tests: proofs that wait for one another would each hold a stack.
set_option Elab.async false

theorem catE_of_cat {s t : State} (h : t.cat = s.cat) (tid : Nat) : catE t tid = catE s tid := by
  unfold catE
  rw [h]

@[simp] theorem catE_catMod_self (tid : Nat) (f : CatE → CatE) (s : State) : catE (catMod tid f s) tid = f (catE s tid) := by
  rw [catE_catMod, if_pos rfl]

/-! ### STATISTICS_TRANSFER -/

section
variable {slot : Nat} {s : State} {x : StatX} (hfirst : s.statQ.find? (fun x => decide (x.slot = slot)) = some x)
include hfirst

/-- A transfer of an entry that is not in use leaves the queue and changes nothing else. -/
theorem doStatisticsTransfer_of_unused (late : Bool) (hunused : (catE s x.tid).mode = 0) :
    doStatisticsTransfer slot late s = { s with statQ := s.statQ.erase x } := by
  unfold doStatisticsTransfer
  rw [hfirst]
  exact if_pos hunused

theorem doStatisticsTransfer_of_good (hused : (catE s x.tid).mode ≠ 0) (hok : x.ok = true) :
    doStatisticsTransfer slot false s =
      catMod x.tid (fun e => { e with stats := e.stats.merge (realStats x.adj x.stats) }) { s with statQ := s.statQ.erase x } := by
  unfold doStatisticsTransfer
  rw [hfirst]
  exact (if_neg hused).trans (if_neg (by simp [hok]))

/-- A late transfer is reported to the Errata log, and one without statistics is not; either only marks the entry's open step. -/
theorem doStatisticsTransfer_of_partial {late : Bool} (hused : (catE s x.tid).mode ≠ 0) (hbad : late = true ∨ x.ok = false) :
    ∃ u, u.statQ = s.statQ.erase x ∧ u.cat = s.cat ∧
      doStatisticsTransfer slot late s = catMod x.tid (fun e => { e with openPart := true }) u := by
  unfold doStatisticsTransfer
  rw [hfirst]
  dsimp -zeta only
  extract_lets s1 s2
  have hreport : s2.statQ = s1.statQ ∧ s2.cat = s1.cat := by
    simp only [s2]
    cases late with
    | false => exact ⟨rfl, rfl⟩
    | true =>
      simp only [whenS, if_true]
      split
      · exact ⟨(errata_logOnly _ _).statQ, (errata_logOnly _ _).cat⟩
      · exact ⟨rfl, rfl⟩
  refine ⟨s2, hreport.1, hreport.2, ?_⟩
  exact (if_neg hused).trans (if_pos (by simpa using hbad))

theorem doStatisticsTransfer_statQ (late : Bool) : (doStatisticsTransfer slot late s).statQ = s.statQ.erase x := by
  by_cases hused : (catE s x.tid).mode = 0
  · rw [doStatisticsTransfer_of_unused hfirst late hused]
  by_cases hbad : late = true ∨ x.ok = false
  · obtain ⟨u, hqueue, -, hdo⟩ := doStatisticsTransfer_of_partial hfirst hused hbad
    rw [hdo, catMod_statQ, hqueue]
  · simp only [not_or, Bool.not_eq_true, Bool.not_eq_false] at hbad
    obtain ⟨rfl, hok⟩ := hbad
    rw [doStatisticsTransfer_of_good hfirst hused hok, catMod_statQ]

end

/-! ### CATALOGUE_ENTRY_LOST -/

theorem cat_doCatalogueEntryLost {tid : Nat} {s : State} (hused : (catE s tid).mode ≠ 0) :
    (doCatalogueEntryLost tid s).cat = (catMod tid loseEntry s).cat := by
  unfold doCatalogueEntryLost
  rw [if_neg hused]
  exact (errata_logOnly _ _).cat

/-- Settles O26: a transfer by whether its statistics count (`doStatisticsTransfer_of_good`, `doStatisticsTransfer_of_partial`); a lost
entry and the aperture by what their one write leaves. -/
theorem catalogueInputs : Obligations.CatalogueInputs := by
  refine ⟨fun slot late s x hfirst => ?_, fun tid s hused => ?_, fun tid s => ⟨_, rfl, rfl, rfl⟩⟩
  · refine ⟨doStatisticsTransfer slot.toNat late s, rfl, doStatisticsTransfer_statQ hfirst late, fun hused hlate hok => ?_,
      fun hused hbad => ?_⟩
    · rw [hlate, doStatisticsTransfer_of_good hfirst hused hok, catE_catMod_self]
      rfl
    · obtain ⟨u, -, hcat, hdo⟩ := doStatisticsTransfer_of_partial hfirst hused hbad
      rw [hdo, catE_catMod_self, catE_of_cat hcat]
      exact ⟨rfl, rfl⟩
  · have hentry (u : Nat) := (catE_of_cat (cat_doCatalogueEntryLost hused) u).trans (catE_catMod tid.toNat loseEntry s u)
    have hlost := (hentry tid.toNat).trans (if_pos rfl)
    exact ⟨doCatalogueEntryLost tid.toNat s, rfl, congrArg CatE.coldLeft hlost, congrArg CatE.ring hlost, congrArg CatE.adj hlost,
      fun u hne => (hentry u).trans (if_neg hne)⟩

end Sys2Proof.Machine
end

