-- ==== Sys2Proof/Proofs/DrainRepeats.lean ====
section
/-! PROOF. DRAINR (R125, R126, R188): the repetition of its segment's last DRAIN, and the fault of one that finds none. -/

namespace Sys2Proof.Machine

-- One proof at a time, as in the tests: proofs that wait for one another would each hold a stack.
set_option Elab.async false

/-! ### A block that fails (R118, R135) -/

/-- The core of an engine with its Carrel's data. -/
def Eng.coreData (e : Eng) : Eng := { e.core with carrel := e.carrel }

theorem Keeps.coreOfData {s t : State} (h : Keeps Eng.coreData s t) : Keeps Eng.core s t :=
  h.mono fun e e' he => (congrArg Eng.core he : e.coreData.core = e'.coreData.core)

theorem Keeps.carrelOfData {s t : State} (h : Keeps Eng.coreData s t) (k : Nat) : (eng t k).carrel = (eng s k).carrel :=
  (congrArg Eng.carrel (h.engs k) : (eng t k).coreData.carrel = (eng s k).coreData.carrel)

theorem Keeps.coreData {s t : State} (h : Keeps Eng.coreLines s t) : Keeps Eng.coreData s t :=
  h.mono fun e e' he => (congrArg Eng.coreData he : e.coreLines.coreData = e'.coreLines.coreData)

theorem tagClear_noFault (k k' n : Nat) (s : State) : NoFault k s (tagClear k' n s) := by
  unfold tagClear tagSet
  split
  · exact NoFault.refl k s
  · exact engMod_noFault k k' _ s

theorem statFail_noFault (k l : Nat) (g : Seg) (out : Option OutRec) (s : State) : NoFault k s (statFail l g out s) := by
  refine ⟨statFail_keeps l g out s, regKept_of_regs ?_⟩
  unfold statFail
  split <;> rfl

/-- A block that fails loses no data, and no SCHED_FAULT is booked for it. -/
theorem failBlock_leaves (k k' : Nat) (w : RecWr) (s : State) :
    Keeps Eng.coreData s (failBlock k' w s) ∧ NoFault k s (failBlock k' w s) := by
  unfold failBlock
  extract_lets s1 s2
  have hmark : Keeps Eng.coreData s s2 ∧ NoFault k s s2 :=
    ⟨(engMod_keeps _ _ _).trans ((engMod_keeps _ _ _).trans (tagClear_lines _ _ _).coreData),
      (engMod_noFault k k' _ s).trans ((engMod_noFault k k' _ _).trans (tagClear_noFault k k' _ _))⟩
  split
  · exact ⟨hmark.1.trans (statFail_keeps _ _ _ _), hmark.2.trans (statFail_noFault _ _ _ _ _)⟩
  · exact hmark

theorem failDrain_leaves (k k' : Nat) (g : Seg) (s : State) :
    Keeps Eng.coreData s (failDrain k' g s) ∧ NoFault k s (failDrain k' g s) := by
  unfold failDrain
  split
  · split
    · exact failBlock_leaves k k' _ s
    · exact ⟨Keeps.refl _ s, NoFault.refl k s⟩
  · exact ⟨Keeps.refl _ s, NoFault.refl k s⟩

theorem setDrain_noFault (k k' : Nat) (g : Seg) (d : Option DrainSt) (s : State) : NoFault k s (arrMod k' (ArraySt.setDrain g d) s) :=
  engMod_noFault k k' _ s fun e => by cases g <;> rfl

/-- A DRAINR that faults keeps the data of its lines, leaves its segment no last DRAIN, and books one SCHED_FAULT. -/
theorem drainFault_repeat (c : Ctx) (o : DrainOp) (bad : Nat) (s : State) :
    Keeps Eng.coreData s (drainFault c o false bad s) ∧ (eng (drainFault c o false bad s) c.k).arr.lastDrain c.g = none ∧
      ((eng (drainFault c o false bad s) c.k).seg c.g).sfCount = ((eng s c.k).seg c.g).sfCount + 1 := by
  unfold drainFault
  rcases drainBases c o with ⟨db, rb, gb⟩
  dsimp -zeta only
  extract_lets n pa s1 s2 own sets
  have hmark : Keeps Eng.coreData s s1 ∧ NoFault c.k s s1 :=
    ⟨foldS_keeps (fun _ _ => whenS_keeps (fun _ => engMod_keeps _ _ _) _) _ _,
      foldS_noFault (fun _ _ => whenS_noFault (fun _ => engMod_noFault _ _ _ _) _) _ _⟩
  have hfail : Keeps Eng.coreData s1 s2 ∧ NoFault c.k s1 s2 := failDrain_leaves c.k c.k c.g s1
  have hdrop : NoFault c.k (c.fault bad s2) (arrMod c.k (ArraySt.setDrain c.g none) (whenS sets (tagClear c.k o.tag.toNat) (c.fault bad s2))) :=
    (whenS_noFault (tagClear_noFault _ _ _) _).trans (setDrain_noFault _ _ _ _ _)
  obtain ⟨hcount, -⟩ := schedFault_counts c.k c.g c.g c.pc bad c.cyc false s2
  refine ⟨?_, (congrArg (fun a : ArraySt => a.lastDrain c.g) (arr_arrMod_self _ _ _)).trans (lastDrain_setDrain _ _ _), ?_⟩
  · exact hmark.1.trans (hfail.1.trans ((schedFault_books _ _ _ _ _ _ _).coreLines.coreData.trans
      ((whenS_keeps (fun s => (tagClear_lines _ _ s).coreData) _).trans (engMod_keeps _ _ _))))
  · rw [(hdrop.sameFaults c.g).seg]
    refine hcount.trans ?_
    rw [if_pos rfl, ((hmark.2.trans hfail.2).sameFaults c.g).seg]

/-! ### A DRAIN repeated (R125, R126) -/

/-- The segment of `c` remembers a drain of `o`, issued by `c`, as recomputed; its engine's core is kept. -/
structure Repeats (c : Ctx) (o : DrainOp) (s t : State) : Prop where
  core : Keeps Eng.core s t
  last : ∃ d, (eng t c.k).arr.lastDrain c.g = some d ∧ d.op = o ∧ d.recomputed = true ∧ d.issue = c.cyc

section
variable {c : Ctx} {o : DrainOp} {s t u : State}

theorem Repeats.after (hbefore : Keeps Eng.core s t) (h : Repeats c o t u) : Repeats c o s u := ⟨hbefore.trans h.core, h.last⟩

theorem Repeats.before (h : Repeats c o s t) (hcore : Keeps Eng.core t u) (harr : (eng u c.k).arr = (eng t c.k).arr) : Repeats c o s u := by
  obtain ⟨d, hlast, hd⟩ := h.last
  exact ⟨h.core.trans hcore, d, by rw [harr, hlast], hd⟩

theorem startDrain_repeats {d : DrainSt} (hop : d.op = o) (hagain : d.recomputed = true) (hissue : d.issue = c.cyc) (s : State) :
    Repeats c o s (arrMod c.k (ArraySt.startDrain c.g d) s) :=
  ⟨engMod_keeps _ _ _, d, (congrArg (fun a : ArraySt => a.lastDrain c.g) (arr_arrMod_self _ _ _)).trans (lastDrain_startDrain _ _ _),
    hop, hagain, hissue⟩

theorem drainRecMod_leaves (k : Nat) (d : DrainSt) (f : RecWr → RecWr) (s : State) :
    Keeps Eng.core s (drainRecMod k d f s) ∧ Keeps Eng.arr s (drainRecMod k d f s) := ⟨engMod_keeps _ _ _, engMod_keeps _ _ _⟩

theorem recompute_repeats {d : DrainSt} (hop : d.op = o) (out : OutRec) (cold : Bool) (done : Nat) (s : State) :
    Repeats c o s (recompute c o d out cold done s) := by
  unfold recompute
  rcases drainBases c o with ⟨db, rb, gb⟩
  dsimp -zeta only
  extract_lets dst nl δ els t p clip traps extra ls run s1 s2 s3 s4 m
  have hwrites : Keeps Eng.core s s1 := (writeLines_core _ _ _ _ _).trans (drainEvents_books _ _ _ _).core
  have hstart : Repeats c o s1 s2 := startDrain_repeats (by exact hop) rfl rfl s1
  have hcount : LogOnly s2 s4 := ((finc_logOnly _ _ _ _ _ _).trans (raise_logOnly _ _ _)).trans
    (whenS_logOnly _ _ (fun _ => (finc_logOnly _ _ _ _ _ _).trans (raise_logOnly _ _ _)) _)
  have hrec (f : RecWr → RecWr) := drainRecMod_leaves c.k d f s4
  exact ((hstart.before hcount.keeps ((hcount.keeps (π := Eng.arr)).engs c.k)).before (hrec _).1 ((hrec _).2.engs c.k)).after hwrites

end

/-! ### DRAINR -/

section
variable {h : IssueHdr} {o : DrainOp} {s : State} {c : Ctx}
  (hc : issue .array (((eng s (storeKey s h.leng.toNat)).arr.flights.filter fun f => decide (f.op.dsth = o.half)).foldl
    (fun t f => max t (f.commit + 1)) 0) h s = some c)
  (hbad : drainBad (settle c.k c.cyc (revealChk c c.s)) c o = 0)
include hc hbad

theorem doDrainr_of_other (hother : ∀ d, (eng (settle c.k c.cyc (revealChk c c.s)) c.k).arr.lastDrain c.g = some d →
      ¬ (d.op = o ∧ d.done < c.cyc)) :
    doDrainr h o s = drainFault c o false 0x06 (settle c.k c.cyc (revealChk c c.s)) := by
  unfold doDrainr
  rw [issued, hc]
  dsimp -zeta only
  extract_lets s1 bad last ok
  have hnone : ok = false := by
    simp only [ok]
    cases hlast : last with
    | none => rfl
    | some d => simpa using hother d hlast
  rw [if_neg (not_not.2 hbad), if_pos (by rw [hnone]; rfl)]

theorem doDrainr_of_same {d : DrainSt} (hlast : (eng (settle c.k c.cyc (revealChk c c.s)) c.k).arr.lastDrain c.g = some d)
    (hop : d.op = o) (hdone : d.done < c.cyc) : Repeats c o (settle c.k c.cyc (revealChk c c.s)) (doDrainr h o s) := by
  unfold doDrainr
  rw [issued, hc]
  dsimp -zeta only
  extract_lets s1 bad last ok r done nl s2 mark s3
  have hlast' : last = some d := hlast
  have hok : ok = true := by simp [ok, hlast', hop, hdone]
  rw [if_neg (not_not.2 hbad), if_neg (by rw [hok]; decide), hlast']
  dsimp -zeta only
  extract_lets again
  have hports : Keeps Eng.core s1 s2 := (arrayClaims_core _ _ _ _).trans (busyTo_books _ _ _ _).core
  have hmark (m : Mark) : Keeps Eng.core s2 (mark m s2) :=
    (failDrain_leaves c.k c.k c.g s2).1.coreOfData.trans ((cMarks_core _ _ _ _ _).trans (tagClear_core _ _ _))
  have hagain (u : State) : Repeats c o u (again u) := startDrain_repeats (by exact hop) rfl rfl u
  refine Repeats.after hports ?_
  cases hslots : drainSlots s2 c o with
  | some m => exact (hagain _).after (hmark m)
  | none =>
    dsimp -zeta only
    split
    · exact (hagain _).after (hmark mkFailed)
    · cases hout : d.out with
      | none => exact hagain s2
      | some out =>
        have hbusy : Keeps Eng.core s2 s3 := (busyTo_books _ _ _ _).core
        dsimp -zeta only
        extract_lets cold
        split
        · exact (recompute_repeats hop out _ _ s3).after hbusy
        · exact (hagain _).after (hbusy.trans (drainRecMod_leaves _ _ _ _).1)

end

/-- Settles O18: a DRAINR that finds its DRAIN repeats it in each of its cases (`doDrainr_of_same`); one that does not is the fault of
`drainFault_repeat`. -/
theorem drainrMatches : Obligations.DrainrMatches := by
  rintro h o s c s1 hwf hc rfl hbad
  refine ⟨doDrainr h o s, ?_, ?_⟩
  · show gate (Instr.drainr h o).wf (doDrainr h o s) = _
    rw [hwf, gate_true]
  obtain ⟨-, -, -, -, -, hg, -⟩ := issue_some hc
  have hset : Keeps Eng.core c.s (settle c.k c.cyc (revealChk c c.s)) := (revealChk_books _ _).core.trans (settle_core _ _ _)
  by_cases hsame : ∃ d, (eng (settle c.k c.cyc (revealChk c c.s)) c.k).arr.lastDrain c.g = some d ∧ d.op = o ∧ d.done < c.cyc
  · obtain ⟨d, hlast, hop, hdone⟩ := hsame
    have hrep := doDrainr_of_same hc hbad hlast hop hdone
    exact ⟨pcMoved_of_keeps hc (hset.trans hrep.core), fun _ _ _ _ => hrep.last, fun hother => absurd ⟨hop, hdone⟩ (hother d hlast)⟩
  · have hother : ∀ d, (eng (settle c.k c.cyc (revealChk c c.s)) c.k).arr.lastDrain c.g = some d → ¬ (d.op = o ∧ d.done < c.cyc) :=
      fun d hlast hd => hsame ⟨d, hlast, hd⟩
    rw [doDrainr_of_other hc hbad hother]
    obtain ⟨hdata, hnone, hcount⟩ := drainFault_repeat c o 0x06 (settle c.k c.cyc (revealChk c c.s))
    have hcore := hset.trans hdata.coreOfData
    refine ⟨pcMoved_of_keeps hc hcore, fun d hlast hop hdone => absurd ⟨d, hlast, hop, hdone⟩ hsame, fun _ =>
      ⟨hnone, hdata.carrelOfData c.k, ?_⟩⟩
    rw [segOf, issue_storeKey hc hcore, ← hg]
    exact hcount

end Sys2Proof.Machine
end

