-- ==== Sys2Proof/Proofs/PairSlots.lean ====
section
/-! PROOF. SCL (R114, R115, R119, R191): the pair slot that it sets or makes invalid, and its count of skews. -/

namespace Sys2Proof.Machine

-- One proof at a time, as in the tests: proofs that wait for one another would each hold a stack.
set_option Elab.async false

/-! ### Registers that no instruction's issue writes (R171, R197, Table 9-1) -/

/-- A register that neither the sequencer's records of an instruction that issues nor the bit errors it meets write: none of a SEQ, VEC or
Carrel page, and no event register. -/
structure IssueReg (q off : Nat) : Prop where
  plain : PlainReg q off
  page : ∀ x p off', p = 0 ∨ p = 2 ∨ p = 4 → off' < 4096 → ridx q off ≠ ridx (pgEng x p) off'

/-- The SCALE page's counts of SKEW and BADSCALE. -/
theorem scaleCounts_issueReg (x : Nat) : IssueReg (pgEng x 6) 0x44 where
  plain := ⟨by unfold pgEng; omega, by decide, by decide⟩
  page _ _ _ _ _ := by unfold ridx pgEng; omega

theorem jobMod_regKept (q off j : Nat) (f : Job → Job) (s : State) : regKept q off s (jobMod j f s) := regKept_of_regs rfl

theorem segMod_regKept (q off k : Nat) (g : Seg) (f : SegSt → SegSt) (s : State) : regKept q off s (segMod k g f s) := regKept_of_regs rfl

theorem takeFree_regKept (q off : Nat) (s : State) : regKept q off s (takeFree s).2 := regKept_of_regs rfl

theorem markSeg_regKept (q off k : Nat) (g : Seg) (since : Nat) (m : Mark) (s : State) : regKept q off s (markSeg k g since m s) := by
  unfold markSeg
  dsimp only
  exact (foldS_regKept (fun _ _ => engMod_regKept _ _ _ _ _) _ s).trans ((engMod_regKept _ _ _ _ _).trans
    ((engMod_regKept _ _ _ _ _).trans (engMod_regKept _ _ _ _ _)))

section
variable {q off : Nat} (hreg : IssueReg q off)
include hreg

theorem IssueReg.rset_regKept {p off' : Nat} (hp : p = 0 ∨ p = 2 ∨ p = 4) (hoff : off' < 4096) (x : Nat) (v : Word) (s : State) :
    regKept q off s (rset (pgEng x p) off' v s) := Machine.rset_regKept (hreg.page x p off' hp hoff) v s

theorem schedFault_regKept (k : Nat) (g : Seg) (pc cause cyc : Nat) (arrival : Bool) (s : State) :
    regKept q off s (schedFault k g pc cause cyc arrival s) := by
  unfold schedFault
  extract_lets p gb s1 s2 s3
  have hset {off' : Nat} (hoff : off' < 4096) (v : Word) (s : State) : regKept q off s (rset p off' v s) :=
    hreg.rset_regKept (.inl rfl) hoff k v s
  have hfirst : regKept q off s s1 := by
    simp only [s1]
    split
    · exact (hset (by decide) _ _).trans (hset (by decide) _ _)
    · exact regKept_refl _ _ s
  have hcount : regKept q off s1 s2 := hset (by decide) _ _
  have hseg : regKept q off s2 s3 := engMod_regKept _ _ _ _ _
  exact hfirst.trans (hcount.trans (hseg.trans (raise_regKept hreg.plain _ _ _)))

theorem turnAway_regKept (k line : Nat) (g : Seg) (pc cyc : Nat) (arrival : Bool) (s : State) :
    regKept q off s (turnAway k line g pc cyc arrival s) :=
  (engMod_regKept _ _ k _ s).trans (schedFault_regKept hreg _ _ _ _ _ _ _)

theorem openHolds_regKept (k : Nat) (g : Seg) (pc : Nat) (ls : List Loop) (cyc : Nat) (s : State) :
    regKept q off s (openHolds k g pc ls cyc s) := by
  refine (engMod_regKept _ _ k _ s).trans (foldS_regKept (fun o s => ?_) _ _)
  unfold undoWrite
  have hback : regKept q off s (engMod k (fun e => { e with olds := e.olds.erase o }) (cPut k o.line o.was o.mark s)) := regKept_of_regs rfl
  dsimp only
  split
  · exact hback.trans (turnAway_regKept hreg _ _ _ _ _ _ _)
  · exact hback.trans (engMod_regKept _ _ _ _ _)

theorem seqFault_regKept (l : Nat) (g : Seg) (monitor : Nat) (cyc : Option Nat) (s : State) :
    regKept q off s (seqFault l g monitor cyc s) := by
  unfold seqFault
  rcases hfree : takeFree s with ⟨fr, u⟩
  dsimp -zeta only
  extract_lets k at' p pc s1 s2 s3 s4 s5 s6
  have hu : regKept q off s u := by
    have hkept := takeFree_regKept q off s
    rwa [hfree] at hkept
  have hmonitor : regKept q off u s1 := hreg.rset_regKept (.inl rfl) (by decide) k _ u
  have hevent : regKept q off s1 s2 := raise_regKept hreg.plain p 1 s1
  have hrec : regKept q off s2 s3 := errEng_regKept hreg.plain 0x0301 _ l g 0x20 _ s2
  have hframe : regKept q off s3 s4 := by
    simp only [s4]
    split
    · exact frameMod_regKept _ _ _ _ _ s3
    · exact regKept_refl _ _ s3
  have hbg : regKept q off s4 s5 := whenS_regKept (fun s => (markSeg_regKept _ _ _ _ _ _ s).trans (segMod_regKept _ _ _ _ _ _)) s4
  have hjobs : regKept q off s5 s6 := whenS_regKept (foldS_regKept (fun _ _ => jobMod_regKept _ _ _ _ _) _) s5
  exact hu.trans (hmonitor.trans <| hevent.trans <| hrec.trans <| hframe.trans <| hbg.trans <| hjobs.trans (engMod_regKept _ _ _ _ s6))

theorem upset_regKept (k l : Nat) (g : Seg) (pc cyc : Nat) (u : Upset) (s : State) : regKept q off s (upset k l g pc cyc u s) := by
  have hset {p off' : Nat} (hp : p = 0 ∨ p = 2 ∨ p = 4) (hoff : off' < 4096) (v : Word) (s : State) :
      regKept q off s (rset (pgEng k p) off' v s) := hreg.rset_regKept hp hoff k v s
  unfold upset
  split
  · exact (hset (by decide) (by decide) _ s).trans (engMod_regKept _ _ _ _ _)
  · exact (takeFree_regKept q off s).trans ((hset (p := 4) (off' := 0x44) (by decide) (by decide) _ _).trans
      ((hset (p := 4) (off' := 0x48) (by decide) (by decide) _ _).trans ((engMod_regKept _ _ _ _ _).trans (errata_regKept hreg.plain _ _))))
  · exact (hset (by decide) (by decide) _ s).trans (engMod_regKept _ _ _ _ _)
  · exact (hset (by decide) (by decide) _ s).trans (engMod_regKept _ _ _ _ _)
  · exact regKept_refl _ _ s
  · exact (hset (p := 0) (off' := 0x74) (by decide) (by decide) _ s).trans ((raise_regKept hreg.plain _ _ _).trans (engMod_regKept _ _ _ _ _))
  · exact (hset (by decide) (by decide) _ s).trans (seqFault_regKept hreg _ _ _ _ _)
  · exact seqFault_regKept hreg _ _ _ _ s

theorem issue_regKept {u : EUnit} {rel : Nat} {h : IssueHdr} {s : State} {c : Ctx} (hc : issue u rel h s = some c) : regKept q off s c.s := by
  rw [issue_state hc]
  exact ((engMod_regKept _ _ _ _ s).trans (segMod_regKept _ _ _ _ _ _)).trans ((openHolds_regKept hreg _ _ _ _ _ _).trans
    (foldS_regKept (fun x s => upset_regKept hreg _ _ _ _ _ x s) _ _))

end

/-! ### Pair slots -/

@[simp] theorem slotGet_slotSet_self (k n : Nat) (v : Slot) (s : State) : slotGet (slotSet k n v s) k n = v := by
  rw [slotGet, slotSet, eng_engMod, if_pos rfl, tabGet_tabSet_self]

theorem segOf_slotSet (k n : Nat) (v : Slot) (s : State) (l : BitVec 6) (g : Seg) : segOf (slotSet k n v s) l g = segOf s l g :=
  (engMod_keeps (π := fun e => e.seg g) k _ s fun e => by cases g <;> rfl).engs _

theorem pcMoved_slotSet {s t : State} {h : IssueHdr} (hmoved : pcMoved s t h) (k n : Nat) (v : Slot) : pcMoved s (slotSet k n v t) h := by
  rw [pcMoved, segOf_slotSet, hmoved]

/-! ### The records that an SCL reads (R183, R191) -/

/-- The record operands of an SCL with their advanced block indices. -/
def sclOperands (o : SclOp) (c : Ctx) : List (RecOp × Int) :=
  [o.r1, o.r2, o.r3].zipIdx.map fun (r, i) => (r, advance o.adv i c.loops r.bix.toNat)

/-- What an SCL of slot `j` reads of its records. -/
def sclReads (o : SclOp) (c : Ctx) (j : Nat) : List RecOut := (sclOperands o c).map fun x => recRead c.s c j x.1 x.2

/-- The pair of an SCL whose records all compare (R115): of the factor its job names and the sum of the signed exponents. -/
def sclPair (o : SclOp) (c : Ctx) (j : Nat) : Option Pair :=
  pairOf ((tabGet (fun _ => []) (job c.s j).factors c.leng).getD o.fidx.toNat 0) ((sclReads o c j).foldl (fun t r => t + r.x) 0)

/-- The marks of the records that an SCL reads. -/
def sclMark (o : SclOp) (c : Ctx) (j : Nat) : Mark := (sclReads o c j).foldl (fun m r => m ||| r.mark) 0

theorem consume_factors (l : Nat) (g : Seg) (pc : Nat) (o : Nat × Option Nat) (m : Mark) (s : State) (j : Nat) :
    (job (consume l g pc o m s) j).factors = (job s j).factors := by
  unfold consume
  split
  · rfl
  · split
    · rfl
    · split
      · rfl
      · dsimp only
        rw [job_jobMod]
        split
        · next hj => rw [hj]
        · rfl

/-- An SCL of `c` has read its records: the engine's core and the registers are kept. -/
structure SclRead (c : Ctx) (u : State) : Prop where
  core : Keeps Eng.core c.s u
  regs : u.regs = c.s.regs

section
variable {h : IssueHdr} {o : SclOp} {s : State} {c : Ctx} {j : Nat} (hc : issue .scale 0 h s = some c) (hdup : c.dup = false)
  (hj : j = (ownerOf c.s c.leng c.g).getD 0) (hbix : ((sclOperands o c).all fun x => bixOk c.s j x.1 x.2) = true)
  (hearly : (sclReads o c j).any (·.early) = false)
include hc hdup hj hbix hearly

theorem doScl_of_skew (hskew : (sclReads o c j).all (fun r => r.cmp.isNone) = false) :
    ∃ u r cmp tid want got, SclRead c u ∧ doScl h o s = doSkew c o.slot.toNat (sclMark o c j) r cmp tid want got u := by
  subst hj
  unfold doScl
  rw [issued, hc]
  dsimp -zeta only
  extract_lets s0 slot j recs bixs fail rs m org s1 x w
  rw [if_neg (by rw [hdup]; decide), if_neg (by rw [show (bixs.all fun x => bixOk s0 j x.1 x.2) = true from hbix]; decide),
    if_neg (by rw [show rs.any (·.early) = false from hearly]; decide)]
  have hread : SclRead c s1 := ⟨(busyTo_books _ _ _ _).core.trans (consume_keeps _ _ _ _ _ _), consume_regs _ _ _ _ _ _⟩
  cases hfind : rs.find? (fun r => r.cmp.isSome) with
  | none =>
    refine absurd hskew ?_
    rw [Bool.not_eq_false, List.all_eq_true]
    intro r hr
    simpa using List.find?_eq_none.1 hfind r hr
  | some r =>
    obtain ⟨⟨cmp, tid, want, got⟩, hcmp⟩ := Option.isSome_iff_exists.1 (List.find?_some (p := fun r : RecOut => r.cmp.isSome) hfind)
    dsimp -zeta only
    rw [hcmp]
    exact ⟨s1, r, cmp, tid, want, got, hread, rfl⟩

theorem doScl_of_compared (hall : (sclReads o c j).all (fun r => r.cmp.isNone) = true) :
    ∃ u, SclRead c u ∧ (sclPair o c j = none → doScl h o s = doBadscale c o.slot.toNat (sclMark o c j) u) ∧
      ∀ p, sclPair o c j = some p → ∃ v : Slot, v.valid = true ∧ v.pair = p ∧ v.usable = c.cyc + 8 ∧
        doScl h o s = slotSet c.k o.slot.toNat v u := by
  subst hj
  unfold doScl
  rw [issued, hc]
  dsimp -zeta only
  extract_lets s0 slot j recs bixs fail rs m org s1 x w
  rw [if_neg (by rw [hdup]; decide), if_neg (by rw [show (bixs.all fun x => bixOk s0 j x.1 x.2) = true from hbix]; decide),
    if_neg (by rw [show rs.any (·.early) = false from hearly]; decide)]
  have hread : SclRead c s1 := ⟨(busyTo_books _ _ _ _).core.trans (consume_keeps _ _ _ _ _ _), consume_regs _ _ _ _ _ _⟩
  have hfind : rs.find? (fun r => r.cmp.isSome) = none := by
    rw [List.find?_eq_none]
    intro r hr
    simpa using List.all_eq_true.1 hall r hr
  have hpair : pairOf w x = sclPair o c j := by
    have hfactors : (job s1 j).factors = (job c.s j).factors := consume_factors _ _ _ _ _ _ _
    simp only [w, hfactors]
    rfl
  rw [hfind]
  dsimp -zeta only
  refine ⟨s1, hread, fun hnone => ?_, fun p hp => ?_⟩
  · rw [hpair, hnone]
    rfl
  · rw [hpair, hp]
    exact ⟨_, rfl, rfl, rfl, rfl⟩

end

/-! ### SKEW and BADSCALE (R115, R119) -/

theorem errInfo_regKept {q off : Nat} (hreg : PlainReg q off) {p : Nat} (hne : ridx q off ≠ ridx p 0x1C) (code off' src detail : Nat)
    (s : State) : regKept q off s (errInfo p code off' src detail s) := by
  unfold errInfo
  refine regKept.trans ?_ (raise_regKept hreg p 31 _)
  split
  · exact rset_regKept hne _ s
  · exact regKept_refl _ _ s

theorem lastSkew_logOnly (k tage slot cmp : Nat) (tid : BitVec 12) (want got : BitVec 32) (s : State) :
    LogOnly s (lastSkew k tage slot cmp tid want got s) :=
  (errInfo_logOnly _ _ _ _ _ s).trans ((rset_logOnly _ _ _ _).trans ((rset_logOnly _ _ _ _).trans (rset_logOnly _ _ _ _)))

theorem lastSkew_countKept (k tage slot cmp : Nat) (tid : BitVec 12) (want got : BitVec 32) (s : State) :
    regKept (pgEng k 6) 0x44 s (lastSkew k tage slot cmp tid want got s) := by
  have hne {off : Nat} (hoff : 0x44 / 4 ≠ off / 4) : ridx (pgEng k 6) 0x44 ≠ ridx (pgEng k 6) off := by
    unfold ridx
    omega
  exact (errInfo_regKept (scaleCounts_issueReg k).plain (hne (by decide)) _ _ _ _ s).trans ((rset_regKept (hne (by decide)) _ _).trans
    ((rset_regKept (hne (by decide)) _ _).trans (rset_regKept (hne (by decide)) _ _)))

/-- A SKEW is counted, and makes the slot invalid with its mark and the poison of the records read. -/
theorem doSkew_slot (c : Ctx) (slot : Nat) (m : Mark) (r : RecOut) (cmp : Nat) (tid : BitVec 12) (want got : BitVec 32) (s : State) :
    ∃ u, Keeps Eng.core s u ∧ fget u (pgEng c.k 6) 0x44 0 16 = min (fget s (pgEng c.k 6) 0x44 0 16 + 1) 65535 ∧
      doSkew c slot m r cmp tid want got s =
        slotSet c.k slot { valid := false, bad := false, mark := mkSkew ||| (m &&& mkPoison), usable := c.cyc + 8 } u := by
  unfold doSkew
  extract_lets p s1 s2
  have hreg := (scaleCounts_issueReg c.k).plain
  have hlog : LogOnly s s1 := (finc_logOnly _ _ _ _ _ _).trans ((raise_logOnly _ _ _).trans (lastSkew_logOnly _ _ _ _ _ _ _ _))
  have hcount : regKept (pgEng c.k 6) 0x44 (finc p 0x44 0 16 1 s) s2 := (raise_regKept hreg _ _ _).trans
    ((lastSkew_countKept _ _ _ _ _ _ _ _).trans (errEng_regKept hreg _ _ _ _ _ _ _))
  exact ⟨s2, hlog.keeps.trans (errEng_keeps _ _ _ _ _ _ _), (hcount.fget_eq 0 16).trans (fget_finc_self (by decide) 1 s), rfl⟩

theorem doBadscale_slot (c : Ctx) (slot : Nat) (m : Mark) (s : State) :
    ∃ u, Keeps Eng.core s u ∧ doBadscale c slot m s =
      slotSet c.k slot { valid := false, bad := true, mark := mkFailed ||| (m &&& mkPoison), usable := c.cyc + 8 } u := by
  unfold doBadscale
  extract_lets p s1 s2
  have hlog : LogOnly s s1 := (finc_logOnly _ _ _ _ _ _).trans ((raise_logOnly _ _ _).trans (lastSkew_logOnly _ _ _ _ _ _ _ _))
  exact ⟨s2, hlog.keeps.trans (errEng_keeps _ _ _ _ _ _ _), rfl⟩

/-- Settles O24: an SCL ends in one write of its slot: of the pair (`doScl_of_compared`), of a BADSCALE (`doBadscale_slot`) or of a SKEW
(`doScl_of_skew`, `doSkew_slot`). -/
theorem pairSlot : Obligations.PairSlot := by
  rintro h o s c j rs hwf hc hdup hj hbix rfl hearly
  refine ⟨doScl h o s, ?_, ?_⟩
  · show gate (Instr.scl h o).wf (doScl h o s) = _
    rw [hwf, gate_true]
  have hmoved {u : State} (hu : Keeps Eng.core c.s u) (v : Slot) : pcMoved s (slotSet c.k o.slot.toNat v u) h :=
    pcMoved_slotSet (pcMoved_of_keeps hc hu) _ _ _
  cases hall : (sclReads o c j).all (fun r => r.cmp.isNone) with
  | false =>
    obtain ⟨u, r, cmp, tid, want, got, hread, hscl⟩ := doScl_of_skew hc hdup hj hbix hearly hall
    obtain ⟨u', hcore, hcount, hskew⟩ := doSkew_slot c o.slot.toNat (sclMark o c j) r cmp tid want got u
    have hpage : regKept (pgEng c.k 6) 0x44 s u := (issue_regKept (scaleCounts_issueReg c.k) hc).trans (regKept_of_regs hread.regs)
    rw [hscl, hskew, slotGet_slotSet_self]
    refine ⟨hmoved (hread.core.trans hcore) _, rfl, fun hcmp => absurd (hall.symm.trans hcmp) Bool.false_ne_true,
      fun _ => ⟨rfl, rfl, ?_⟩⟩
    rw [← hpage.fget_eq]
    exact hcount
  | true =>
    obtain ⟨u, hread, hnone, hsome⟩ := doScl_of_compared hc hdup hj hbix hearly hall
    have hcompared {P : Prop} : (sclReads o c j).all (fun r => r.cmp.isNone) = false → P :=
      fun hcmp => absurd (hcmp.symm.trans hall) Bool.false_ne_true
    cases hpair : sclPair o c j with
    | none =>
      obtain ⟨u', hcore, hbad⟩ := doBadscale_slot c o.slot.toNat (sclMark o c j) u
      rw [hnone hpair, hbad, slotGet_slotSet_self]
      refine ⟨hmoved (hread.core.trans hcore) _, rfl, fun _ p hp => ?_, hcompared⟩
      obtain rfl : none = p := hpair.symm.trans hp
      exact ⟨rfl, fun q hq => nomatch hq⟩
    | some p =>
      obtain ⟨v, hvalid, hp, husable, hset⟩ := hsome p hpair
      rw [hset, slotGet_slotSet_self]
      refine ⟨hmoved hread.core v, husable, fun _ p' hp' => ?_, hcompared⟩
      obtain rfl : some p = p' := hpair.symm.trans hp'
      exact ⟨hvalid, fun q hq => hp.trans (Option.some.inj hq)⟩

end Sys2Proof.Machine
end

