-- ==== Sys2Proof/Proofs/ScaleRecords.lean ====
section
/-! PROOF. STAT, STAT_READY and SCALE_RECORD_WRITE (R118, R121, R124, R129, R135): the present record, and the record that is due. -/

namespace Sys2Proof.Machine

-- One proof at a time, as in the tests: proofs that wait for one another would each hold a stack.
set_option Elab.async false

/-! ### The present record (R124) -/

@[simp] theorem seg_segMod_self (k : Nat) (g : Seg) (f : SegSt → SegSt) (s : State) :
    (eng (segMod k g f s) k).seg g = f ((eng s k).seg g) := by
  rw [segMod, eng_engMod, if_pos rfl]
  cases g <;> rfl

/-- The segment of `c` waits for the statistics of the STAT that `c` issues; its engine's core is kept. -/
structure StatPending (c : Ctx) (o : StatOp) (s t : State) : Prop where
  core : Keeps Eng.core s t
  invalid : ((eng t c.k).seg c.g).present.valid = false
  pending : ((eng t c.k).seg c.g).present.pending = true
  ready : ((eng t c.k).seg c.g).present.ready = c.cyc + o.nlines.toNat + 12

/-- A present record that a STAT puts in its segment. -/
theorem putPresent_pending {c : Ctx} {o : StatOp} {s t : State} (hcore : Keeps Eng.core s t) {p : Present} (hvalid : p.valid = false)
    (hpending : p.pending = true) (hready : p.ready = c.cyc + o.nlines.toNat + 12) :
    StatPending c o s (segMod c.k c.g (fun x => { x with present := p }) t) :=
  ⟨hcore.trans (segMod_books _ _ _ _).core, by rwa [seg_segMod_self], by rwa [seg_segMod_self], by rwa [seg_segMod_self]⟩

/-- The unit is busy until the statistics are ready, and the poison of the lines is consumed. -/
theorem StatPending.busy {c : Ctx} {o : StatOp} {s t : State} (h : StatPending c o s t) (r pc : Nat) (x : Nat × Option Nat) (m : Mark) :
    StatPending c o s (busyTo c.k c.g r (consume c.leng c.g pc x m t)) := by
  have hconsume := consume_keeps (π := id) c.leng c.g pc x m t
  have hpresent : ((eng (busyTo c.k c.g r (consume c.leng c.g pc x m t)) c.k).seg c.g).present = ((eng t c.k).seg c.g).present := by
    rw [busyTo, seg_segMod_self, show eng (consume c.leng c.g pc x m t) c.k = eng t c.k from hconsume.engs c.k]
  exact ⟨h.core.trans ((consume_keeps _ _ _ _ _ _).trans (busyTo_books _ _ _ _).core), hpresent ▸ h.invalid, hpresent ▸ h.pending,
    hpresent ▸ h.ready⟩

theorem doStat_pending {h : IssueHdr} {o : StatOp} {s : State} {c : Ctx} (hc : issue .scale 0 h s = some c) :
    StatPending c o c.s (doStat h o s) := by
  unfold doStat
  rw [issued, hc]
  dsimp -zeta only
  extract_lets s0 n base cl rdy put
  have hput {t : State} (hcore : Keeps Eng.core s0 t) (bad : Bool) (adj : Int) (m : Mark) (x : Stats) :
      StatPending c o s0 (put bad adj m x t) := putPresent_pending hcore rfl rfl rfl
  have hfault (cause : Nat) : Keeps Eng.core s0 (c.fault cause s0) := (schedFault_books _ _ _ _ _ _ _).core
  split
  · exact hput (hfault _) _ _ _ _
  · split
    · exact hput (hfault _) _ _ _ _
    · cases hports : otherClaims c.k c.cyc [cl] s0 with
      | none => exact hput (hfault _) _ _ _ _
      | some t =>
        obtain ⟨hkeeps, -⟩ := otherClaims_some hports
        exact (hput hkeeps.coreOfUnclaimed _ _ _ _).busy _ _ _ _

theorem segOf_doStatReady (l : BitVec 6) (g : Seg) (s : State) :
    segOf (doStatReady l.toNat g s) l g = if (segOf s l g).present.pending then
      { segOf s l g with present := { (segOf s l g).present with pending := false, valid := !(segOf s l g).present.bad, ready := 0 } }
      else segOf s l g := by
  unfold doStatReady segOf
  dsimp only
  rw [storeKey_segMod, seg_segMod_self]

/-! ### The port of a record (R149) -/

theorem Keeps.ofId {α : Type} {π : Eng → α} {s t : State} (h : Keeps id s t) : Keeps π s t := h.mono fun _ _ he => congrArg π he

theorem Keeps.vec {s t : State} (h : Keeps Eng.bare s t) : Keeps Eng.vec s t :=
  h.mono fun e e' he => (congrArg Eng.vec he : e.bare.vec = e'.bare.vec)

theorem tagSet_vec (k n : Nat) (t : TagE) (s : State) : Keeps Eng.vec s (tagSet k n t s) := by
  unfold tagSet
  split
  · exact Keeps.refl _ s
  · exact engMod_keeps _ _ _

theorem failBlock_vec (k : Nat) (w : RecWr) (s : State) : Keeps Eng.vec s (failBlock k w s) := by
  unfold failBlock
  extract_lets s1 s2
  have hmark : Keeps Eng.vec s s2 := (engMod_keeps _ _ _).trans ((engMod_keeps _ _ _).trans (tagSet_vec _ _ _ _))
  split
  · exact hmark.trans (statFail_keeps _ _ _ _).ofId
  · exact hmark

theorem cWrite_vec (k line : Nat) (l : Line) (m : Mark) (pc cyc : Nat) (arrival : Bool) (s : State) :
    Keeps Eng.vec s (cWrite k line l m pc cyc arrival s) := by
  unfold cWrite
  split
  · exact (engMod_keeps _ _ _).trans (engMod_keeps _ _ _)
  · exact (engMod_keeps _ _ _).trans (schedFault_books _ _ _ _ _ _ _).vec

/-- An instruction that loses its port is under way no more, and every other one still is. -/
theorem runs_vecLose (k cyc : Nat) (p : VecRun) (s : State) :
    (eng (vecLose k cyc p s) k).vec.runs = (eng s k).vec.runs.filter fun r => decide (r ≠ p) := by
  unfold vecLose
  extract_lets v later aft s1 s2 s3 s4 s5 s6 s7
  have hlines : Keeps Eng.vec s s2 := (schedFault_books _ _ _ _ _ _ _).vec.trans
    (foldS_keeps (fun _ _ => whenS_keeps (fun _ => engMod_keeps _ _ _) _) _ _)
  have hblocks : Keeps Eng.vec s2 s3 := foldS_keeps (fun _ _ => failBlock_vec _ _ _) _ _
  have hcounts : LogOnly s3 s6 := (uncountFlags_logOnly _ _ _).trans ((foldS_logOnly _ (fun _ _ => rset_logOnly _ _ _ _) _ _).trans
    (whenS_logOnly _ _ (fun _ => fset_logOnly _ _ _ _ _ _) _))
  have hall : Keeps Eng.vec s s7 := hlines.trans (hblocks.trans (hcounts.keeps.trans (whenS_keeps (fun s => (uneat_keeps _ _ _ s).ofId) _)))
  rw [vecMod, eng_engMod, if_pos rfl, ← hall.engs k]

theorem mem_runs_foldS_vecLose {k cyc : Nat} {l : List VecRun} {s : State} {p : VecRun}
    (hp : p ∈ (eng (foldS l (vecLose k cyc) s) k).vec.runs) : p ∈ (eng s k).vec.runs ∧ p ∉ l := by
  induction l generalizing s with
  | nil => exact ⟨hp, List.not_mem_nil⟩
  | cons r l ih =>
    obtain ⟨hmem, hnot⟩ := ih hp
    rw [runs_vecLose, List.mem_filter, decide_eq_true_eq] at hmem
    exact ⟨hmem.1, fun hcons => (List.mem_cons.1 hcons).elim hmem.2 hnot⟩

/-! ### SCALE_RECORD_WRITE -/

/-- Where no write waits for a window's end, none is turned away. -/
theorem pendTo_of_noPend {k : Nat} {s : State} (hpend : noPend k s) (t : Nat) : Keeps id s (pendTo k t s) := by
  unfold pendTo
  have hnone : (((eng s k).openH).flatMap fun h => (h.pend.filter fun w => decide (w.cyc ≤ t)).map fun w => (h.seg, w)) = [] :=
    List.flatMap_eq_nil_iff.2 fun w hw => by rw [hpend w hw]; rfl
  rw [hnone]
  refine ⟨rfl, rfl, fun k' => ?_⟩
  have hsame : ((eng s k).openH.map fun h => { h with pend := h.pend.filter fun w => decide (t < w.cyc) }) = (eng s k).openH :=
    (List.map_congr_left fun w hw => by rw [hpend w hw, List.filter_nil, ← hpend w hw]).trans (List.map_id' _)
  show eng (engMod k _ s) k' = eng s k'
  rw [eng_engMod, hsame]
  split
  · next hk => rw [hk]
  · rfl

/-- The record write `w` has left its queue for write port 1, which the vector unit loses in its cycle (R149). -/
def takeRecPort (k : Nat) (w : RecWr) (s : State) : State :=
  let s := engMod k (fun e => { e with recWrs := e.recWrs.erase w }) (pendTo k w.due s)
  foldS ((eng s k).vec.runs.filter fun p => p.writes.any fun x => x.has w.due) (vecLose k w.due) s

/-- A hold window turns a record write away, or its block has failed. -/
def recLost (k : Nat) (w : RecWr) (s : State) : Bool := blockFailed s k w || (heldAt (eng s k) w.line w.due).isSome

/-- The statistics transfer of a record write (R129). -/
def recStat (leng k : Nat) (w : RecWr) (s : State) : StatX :=
  { slot := (ownerOf s leng w.seg).getD 0, tid := w.record.tid.toNat, adj := w.record.adj.toInt, stats := w.record.stats,
    ok := decide (w.mark &&& (mkFailed ||| mkPoison ||| mkSkew) = 0) && !recLost k w s }

/-- A record write on its port is made: its line is written and its tag entry set (R118). -/
def makeRecord (k : Nat) (w : RecWr) (s : State) : State :=
  let s := segMod k w.seg (fun x => { x with wrote := x.wrote ++ [(w.line, w.due)] }) s
  tagSet k w.tag { valid := true, tid := w.record.tid, seq := w.record.seq, line := BitVec.ofNat 17 w.line }
    (cWrite k w.line w.record.line (w.mark ||| segMark s k w.seg) w.pc w.due false s)

/-- What a record write on its port does to its line and its tag entry, where its block has failed, where it is lost otherwise, and where it
is made. -/
def endRecord (lost : Bool) (k : Nat) (w : RecWr) (s : State) : State :=
  if blockFailed s k w then tagClear k w.tag (cMark k w.line mkFailed s)
  else if lost then tagClear k w.tag (cWrite k w.line w.record.line w.mark w.pc w.due false s)
  else makeRecord k w s

/-- The record write that is due first takes its port, queues its statistics and ends. -/
theorem doScaleRecordWrite_eq {leng : Nat} {s : State} {w : RecWr} (hnext : (eng s (storeKey s leng)).nextRec = some w)
    (hpend : noPend (storeKey s leng) s) :
    doScaleRecordWrite leng s = endRecord (recLost (storeKey s leng) w (takeRecPort (storeKey s leng) w s)) (storeKey s leng) w
      (queueStat (recStat leng (storeKey s leng) w (takeRecPort (storeKey s leng) w s)) (takeRecPort (storeKey s leng) w s)) := by
  have hnext' : (eng (pendTo (storeKey s leng) w.due s) (storeKey s leng)).nextRec = some w := by
    rw [show eng (pendTo (storeKey s leng) w.due s) _ = eng s _ from (pendTo_of_noPend hpend w.due).engs _, hnext]
  unfold doScaleRecordWrite
  extract_lets k s1
  have hpendTo : s1 = pendTo k w.due s := by
    simp only [s1, k]
    rw [hnext]
  rw [hpendTo, hnext']
  rfl

theorem mem_runs_takeRecPort {k : Nat} {w : RecWr} {s : State} (hpend : noPend k s) {p : VecRun}
    (hp : p ∈ (eng (takeRecPort k w s) k).vec.runs) : p ∈ (eng s k).vec.runs ∧ (p.writes.any fun x => x.has w.due) = false := by
  unfold takeRecPort at hp
  dsimp only at hp
  obtain ⟨hmem, hnot⟩ := mem_runs_foldS_vecLose hp
  refine ⟨?_, Bool.not_eq_true _ ▸ fun hwrites => hnot (List.mem_filter.2 ⟨hmem, hwrites⟩)⟩
  rw [eng_engMod, if_pos rfl] at hmem
  rwa [show eng (pendTo k w.due s) k = eng s k from (pendTo_of_noPend hpend w.due).engs k] at hmem

/-- A record whose port no vector instruction holds only leaves its queue. -/
theorem takeRecPort_of_free {k : Nat} {w : RecWr} {s : State} (hpend : noPend k s)
    (hfree : ∀ p ∈ (eng s k).vec.runs, (p.writes.any fun x => x.has w.due) = false) :
    eng (takeRecPort k w s) k = { eng s k with recWrs := (eng s k).recWrs.erase w } ∧ (takeRecPort k w s).statQ = s.statQ := by
  have heng : eng (engMod k (fun e => { e with recWrs := e.recWrs.erase w }) (pendTo k w.due s)) k =
      { eng s k with recWrs := (eng s k).recWrs.erase w } := by
    rw [eng_engMod, if_pos rfl, show eng (pendTo k w.due s) k = eng s k from (pendTo_of_noPend hpend w.due).engs k]
  have hnone : (eng s k).vec.runs.filter (fun p => p.writes.any fun x => x.has w.due) = [] :=
    List.filter_eq_nil_iff.2 fun p hp => by rw [hfree p hp]; decide
  have hport : takeRecPort k w s = engMod k (fun e => { e with recWrs := e.recWrs.erase w }) (pendTo k w.due s) := by
    unfold takeRecPort
    dsimp only
    rw [heng, hnone]
    rfl
  rw [hport]
  exact ⟨heng, (pendTo_engOnly k w.due s).statQ⟩

/-- A tag entry that is set, other than 127 and 255 (R186). -/
theorem tags_tagSet (k : Nat) {n : Nat} (t : TagE) (s : State) (hrt : n ≠ 127) (hbg : n ≠ 255) :
    tabGet (fun _ => ({} : TagE)) (eng (tagSet k n t s) k).tags n = t := by
  rw [tagSet, if_neg (by simp [hrt, hbg]), eng_engMod, if_pos rfl, tabGet_tabSet_self]

section
variable (lost : Bool) (k : Nat) (w : RecWr) (s : State)

theorem endRecord_vec : Keeps Eng.vec s (endRecord lost k w s) := by
  unfold endRecord
  split
  · exact (engMod_keeps _ _ _).trans (tagSet_vec _ _ _ _)
  · split
    · exact (cWrite_vec _ _ _ _ _ _ _ _).trans (tagSet_vec _ _ _ _)
    · exact (segMod_books _ _ _ _).vec.trans ((cWrite_vec _ _ _ _ _ _ _ _).trans (tagSet_vec _ _ _ _))

theorem tagSet_statQ (n : Nat) (t : TagE) : (tagSet k n t s).statQ = s.statQ := by
  unfold tagSet
  split <;> rfl

theorem endRecord_statQ : (endRecord lost k w s).statQ = s.statQ := by
  unfold endRecord
  split
  · exact tagSet_statQ _ _ _ _
  · split
    · exact (tagSet_statQ _ _ _ _).trans (cWrite_engOnly _ _ _ _ _ _ _ _).statQ
    · exact (tagSet_statQ _ _ _ _).trans (cWrite_engOnly _ _ _ _ _ _ _ _).statQ

variable {k w s}

/-- A record of a failed block, or one that is turned away, leaves its tag entry invalid (R118, R175). -/
theorem endRecord_of_lost (hrt : w.tag ≠ 127) (hbg : w.tag ≠ 255) :
    (tabGet (fun _ => ({} : TagE)) (eng (endRecord true k w s) k).tags w.tag).valid = false := by
  by_cases hfailed : blockFailed s k w = true
  · rw [endRecord, if_pos hfailed, tagClear, tags_tagSet _ _ _ hrt hbg]
  · rw [endRecord, if_neg hfailed, if_pos rfl, tagClear, tags_tagSet _ _ _ hrt hbg]

theorem heldAt_segMod (g : Seg) (f : SegSt → SegSt) (line t : Nat) : heldAt (eng (segMod k g f s) k) line t = heldAt (eng s k) line t := by
  rw [segMod, eng_engMod, if_pos rfl]
  cases g <;> rfl

theorem tagSet_lines (n : Nat) (t : TagE) : Keeps Eng.coreLines s (tagSet k n t s) := by
  unfold tagSet
  split
  · exact Keeps.refl _ s
  · exact engMod_keeps _ _ _

/-- A record that nothing turns away is in its line, and its tag entry names it (R118). -/
theorem endRecord_of_made (hrt : w.tag ≠ 127) (hbg : w.tag ≠ 255) (hgood : blockFailed s k w = false)
    (hfree : heldAt (eng s k) w.line w.due = none) :
    (eng (endRecord false k w s) k).recWrs = (eng s k).recWrs ∧ (cRead (endRecord false k w s) k w.line).1 = w.record.line ∧
      tabGet (fun _ => ({} : TagE)) (eng (endRecord false k w s) k).tags w.tag =
        { valid := true, tid := w.record.tid, seq := w.record.seq, line := BitVec.ofNat 17 w.line } := by
  have hmade : endRecord false k w s = makeRecord k w s := by
    rw [endRecord, if_neg (by rw [hgood]; decide), if_neg Bool.false_ne_true]
  rw [hmade]
  unfold makeRecord
  extract_lets s1
  have hwrite (m : Mark) : cWrite k w.line w.record.line m w.pc w.due false s1 =
      cPut k w.line w.record.line m (noteOld k w.line w.pc w.due s1) := by
    rw [cWrite, show heldAt (eng s1 k) w.line w.due = none from (heldAt_segMod _ _ _ _).trans hfree]
  rw [hwrite]
  refine ⟨((tagSet_lines _ _).recWrs k).trans ?_, (cRead_congr ((tagSet_lines _ _).carrel k) _).trans ?_, tags_tagSet _ _ _ hrt hbg⟩
  · exact ((engMod_keeps (π := Eng.recWrs) _ _ _).trans (engMod_keeps _ _ _)).engs k |>.trans ((segMod_books _ _ _ _).coreLines.recWrs k)
  · rw [cRead_cPut, if_pos rfl]

end

/-- What turns a record write away or fails its block is read of the engine's segments, its open windows and the passes that end them. -/
theorem recTurns_congr {s t : State} {k : Nat} {w : RecWr} (hrt : (eng t k).rt = (eng s k).rt) (hbg : (eng t k).bg = (eng s k).bg)
    (hopen : (eng t k).openH = (eng s k).openH) (harr : (eng t k).arr = (eng s k).arr) :
    blockFailed t k w = blockFailed s k w ∧ heldAt (eng t k) w.line w.due = heldAt (eng s k) w.line w.due := by
  have hseg : (eng t k).seg w.seg = (eng s k).seg w.seg := by
    cases w.seg
    · exact hrt
    · exact hbg
  unfold blockFailed segMark heldAt Eng.holdEnd
  rw [hseg, hopen, harr]
  exact ⟨rfl, rfl⟩

theorem eng_queueStat (q : StatX) (s : State) (k : Nat) : eng (queueStat q s) k = eng s k := rfl

/-- Settles O25: a STAT puts a pending present record in each of its cases (`doStat_pending`), which STAT_READY ends; the record write that
is due takes its port (`takeRecPort`), queues its statistics and ends (`endRecord_of_made`, `endRecord_of_lost`). -/
theorem scaleRecords : Obligations.ScaleRecords := by
  refine ⟨⟨fun h o s c hwf hc => ?_, fun l g s => ⟨doStatReady l.toNat g s, rfl, fun hpending => ?_, fun hidle => ?_⟩⟩,
    fun l s w hnext hrt hbg hpend => ⟨doScaleRecordWrite l.toNat s, rfl, ?_⟩⟩
  · obtain ⟨-, -, -, -, -, hg, -⟩ := issue_some hc
    have hexec : exec (.stat h o) s = .next (doStat h o s) := by
      show gate (Instr.stat h o).wf (doStat h o s) = _
      rw [hwf, gate_true]
    have hstat := doStat_pending (o := o) hc
    rw [hexec]
    refine ⟨_, rfl, pcMoved_of_keeps hc hstat.core, ?_⟩
    rw [segOf, issue_storeKey hc hstat.core, ← hg]
    exact ⟨hstat.invalid, hstat.pending, hstat.ready⟩
  · rw [segOf_doStatReady, if_pos hpending]
    exact ⟨rfl, rfl, rfl⟩
  · rw [segOf_doStatReady, if_neg (by rw [hidle]; decide)]
  · rw [doScaleRecordWrite_eq hnext hpend]
    generalize storeKey s l.toNat = k at hnext hpend
    generalize hq : recStat l.toNat k w (takeRecPort k w s) = q
    refine ⟨fun p hp => ?_, fun hfree => ?_⟩
    · rw [(endRecord_vec _ k w (queueStat q (takeRecPort k w s))).engs k, eng_queueStat] at hp
      exact mem_runs_takeRecPort hpend hp
    · obtain ⟨heng, hstatQ⟩ := takeRecPort_of_free hpend hfree
      generalize takeRecPort k w s = u at heng hstatQ hq
      obtain ⟨hfailed, hheld⟩ := recTurns_congr (s := s) (t := u) (k := k) (w := w) (by rw [heng]) (by rw [heng]) (by rw [heng])
        (by rw [heng])
      have hfailed' : blockFailed (queueStat q u) k w = blockFailed s k w := hfailed
      refine ⟨⟨q, ?_, ?_⟩, fun hgood hnone => ?_, fun hlost => ?_⟩
      · rw [endRecord_statQ, queueStat, hstatQ]
      · subst hq
        refine ⟨rfl, rfl, ?_⟩
        simp only [recStat, recLost, hfailed, hheld, Bool.not_or, Option.not_isSome, Bool.and_assoc]
      · rw [show recLost k w u = false by rw [recLost, hfailed, hheld, hgood, hnone]; rfl]
        obtain ⟨hrecs, hread, htag⟩ := endRecord_of_made (s := queueStat q u) hrt hbg (hfailed'.trans hgood) (hheld.trans hnone)
        exact ⟨hrecs.trans (congrArg Eng.recWrs heng), hread, htag⟩
      · rw [show recLost k w u = true by rwa [recLost, hfailed, hheld, Bool.or_eq_true, ← Option.ne_none_iff_isSome]]
        exact endRecord_of_lost hrt hbg

end Sys2Proof.Machine
end

