-- ==== Sys2Proof/Proofs/EngineScopes.lean ====
section
/-! PROOF. Scopes: what the operations of an engine may change of the registers and the engines, and what they leave of the rest of the
machine and of the Stacks. -/

namespace Sys2Proof.Machine

-- One proof at a time, as in the tests: proofs that wait for one another would each hold a stack.
set_option Elab.async false

/-! ### What is confined to a scope -/

/-- The state without what the operations of an engine write: the engines, the jobs' records, the registers, the Stacks, the logs, the
waiting statistics and the counter of free values. -/
def State.rest (s : State) : State :=
  { s with engs := [], jobs := [], regs := [], dram := [], smark := [], vil := {}, pwr := {}, errs := [], evq := [], statQ := [], free := 0 }

theorem EngOnly.rest {s t : State} (h : EngOnly s t) : t.rest = s.rest := by
  unfold State.rest
  rw [h.pending, h.shadow, h.captured, h.hiLatch, h.hiLatchSb, h.stagedLo, h.tick, h.refTick, h.ftimeAt, h.phaseK, h.store, h.zones,
    h.cat, h.aperture, h.xfers, h.nextXfer, h.chains, h.ready, h.accs, h.hubs, h.abfs, h.sec, h.nd, h.cur, h.sent, h.env]

/-- A job without what the operations of an engine write into its record: its frames' marks, its fault and poison records, and that it is
to be reset. -/
def Job.loaded (b : Job) : Job := { b with frames := [], faults := 0, consumed := none, resetReq := false }

/-- What a change may touch: the waiting statistics, pages of registers (those of the Errata log and of the control port always, R253,
R380), and of each engine what `same` lets differ. -/
structure Scope where
  stats : Bool
  page : Nat → Prop
  same : Nat → Eng → Eng → Prop
  errata : page pgErr
  vilri : page pgVilri
  refl : ∀ k e, same k e e
  trans : ∀ {k e e' e''}, same k e e' → same k e' e'' → same k e e''

/-- The register does not say where the Errata ring lies (R253). -/
def OffRing (p off : Nat) : Prop := ∀ o, o = 0x40 ∨ o = 0x44 → ridx pgErr o ≠ ridx p off

/-- A change stays in a scope: it leaves the rest of the machine, every byte of the Stacks outside the Errata ring, the ring's place, the
pages that the scope does not name, what the engines must keep, and the jobs as they were loaded. -/
structure Within (S : Scope) (s t : State) : Prop where
  rest : t.rest = s.rest
  stats : S.stats = false → t.statQ = s.statQ
  ring : ∀ o, o = 0x40 ∨ o = 0x44 → rget t pgErr o = rget s pgErr o
  bytes : stacksKept s t
  pages : ∀ p, ¬ S.page p → pageKept p s t
  engs : ∀ k, S.same k (eng s k) (eng t k)
  jobs : ∀ j, (job t j).loaded = (job s j).loaded

section
variable {S : Scope} {s t u : State}

theorem Within.refl (S : Scope) (s : State) : Within S s s :=
  ⟨rfl, fun _ => rfl, fun _ _ => rfl, fun _ _ => rfl, fun p _ => pageKept_refl p s, fun _ => S.refl _ _, fun _ => rfl⟩

theorem inErrataRing_congr (h : ∀ o, o = 0x40 ∨ o = 0x44 → rget t pgErr o = rget s pgErr o) (a : Nat) :
    inErrataRing t a ↔ inErrataRing s a := by
  rw [inErrataRing, inErrataRing, rget64, rget64, h 0x40 (.inl rfl), h (0x40 + 4) (.inr rfl)]

theorem Within.trans (h : Within S s t) (k : Within S t u) : Within S s u where
  rest := k.rest.trans h.rest
  stats hS := (k.stats hS).trans (h.stats hS)
  ring o ho := (k.ring o ho).trans (h.ring o ho)
  bytes a ha := (k.bytes a (mt (inErrataRing_congr h.ring a).1 ha)).trans (h.bytes a ha)
  pages p hp := (h.pages p hp).trans (k.pages p hp)
  engs x := S.trans (h.engs x) (k.engs x)
  jobs j := (k.jobs j).trans (h.jobs j)

/-- A wider scope. -/
theorem Within.mono {S' : Scope} (h : Within S s t) (hstats : S'.stats = false → S.stats = false) (hpage : ∀ p, S.page p → S'.page p)
    (hsame : ∀ k e e', S.same k e e' → S'.same k e e') : Within S' s t :=
  ⟨h.rest, fun hS => h.stats (hstats hS), h.ring, h.bytes, fun p hp => h.pages p (mt (hpage p) hp), fun k => hsame _ _ _ (h.engs k), h.jobs⟩

theorem whenS_within {b : Bool} {f : State → State} (h : ∀ s, Within S s (f s)) (s : State) : Within S s (whenS b f s) := by
  cases b
  · exact Within.refl S s
  · exact h s

theorem foldS_within {α : Type} {f : α → State → State} {l : List α} (h : ∀ a ∈ l, ∀ s, Within S s (f a s)) (s : State) :
    Within S s (foldS l f s) := by
  induction l generalizing s with
  | nil => exact Within.refl S s
  | cons a l ih => exact (h a List.mem_cons_self s).trans (ih (fun b hb => h b (List.mem_cons_of_mem a hb)) (f a s))

/-- The owner of a segment is told by the jobs as they were loaded (R176). -/
theorem Within.ownerOf (h : Within S s t) (l : Nat) (g : Seg) : ownerOf t l g = ownerOf s l g := by
  unfold Machine.ownerOf
  refine congrArg (List.find? · _) (funext fun j => ?_)
  show ((job t j).loaded.occupied && (job t j).loaded.bound && (job t j).loaded.uses l && decide ((job t j).loaded.seg = g)) = _
  rw [h.jobs]
  rfl

theorem Within.compatOf (h : Within S s t) (l : Nat) (g : Seg) : compatOf t l g = compatOf s l g := by
  unfold Machine.compatOf
  rw [h.ownerOf]
  cases Machine.ownerOf s l g with
  | none => rfl
  | some j => exact (congrArg Job.gencompat (h.jobs j) : (job t j).loaded.gencompat = (job s j).loaded.gencompat)

/-! ### Registers and logs -/

theorem LogOnly.within (h : LogOnly s t) (hring : ∀ o, o = 0x40 ∨ o = 0x44 → rget t pgErr o = rget s pgErr o) (hbytes : stacksKept s t)
    (hpages : ∀ p, ¬ S.page p → pageKept p s t) : Within S s t :=
  ⟨h.engOnly.rest, fun _ => h.statQ, hring, hbytes, hpages, fun k => by rw [eng_of_engs h.engs]; exact S.refl _ _,
    fun j => by rw [job, h.jobs, job]⟩

/-- A change of the logs that leaves the registers and the Stacks alone. -/
theorem LogOnly.withinOfRegs (h : LogOnly s t) (hregs : t.regs = s.regs) (hdram : t.dram = s.dram) : Within S s t :=
  h.within (fun o _ => by rw [rget, hregs, rget]) (fun a _ => by rw [stkByte, hdram, stkByte]) fun _ _ => pageKept_of_regs hregs

theorem vil_within (x : VilriSt) (s : State) : Within S s { s with vil := x } := (vil_logOnly s x).withinOfRegs rfl rfl

theorem pwr_within (x : PwrSt) (s : State) : Within S s { s with pwr := x } := (pwr_logOnly s x).withinOfRegs rfl rfl

theorem evq_within (x : List EventMsg) (s : State) : Within S s { s with evq := x } := (evq_logOnly s x).withinOfRegs rfl rfl

/-- A register that a change in the scope may write. -/
structure Scope.Reg (S : Scope) (p off : Nat) : Prop where
  page : S.page p
  ring : OffRing p off
  off : off < 4096

theorem Scope.Reg.rset {p off : Nat} (h : S.Reg p off) (v : Word) (s : State) : Within S s (rset p off v s) :=
  (rset_logOnly p off v s).within (fun o ho => by rw [rget_rset, if_neg (h.ring o ho)]) (fun _ _ => rfl)
    fun q hq => rset_pageKept (fun heq : q = p => hq (heq ▸ h.page)) h.off v s

theorem Scope.Reg.fset {p off : Nat} (h : S.Reg p off) (lo w x : Nat) (s : State) : Within S s (fset p off lo w x s) := h.rset _ s

theorem Scope.Reg.finc {p off : Nat} (h : S.Reg p off) (lo w n : Nat) (s : State) : Within S s (finc p off lo w n s) := h.rset _ s

theorem offRing_of_ne {p : Nat} (off : Nat) (hp : pgErr < p) : OffRing p off := by
  intro o ho
  unfold pgErr at hp ⊢
  unfold ridx
  omega

theorem offRing_pgErr {off : Nat} (h : off / 4 ≠ 16 ∧ off / 4 ≠ 17) : OffRing pgErr off := by
  intro o ho
  unfold ridx
  omega

theorem Scope.errReg (S : Scope) (off : Nat) (h : (off / 4 ≠ 16 ∧ off / 4 ≠ 17) ∧ off < 4096 := by decide) : S.Reg pgErr off :=
  ⟨S.errata, offRing_pgErr h.1, h.2⟩

theorem Scope.vilReg (S : Scope) (off : Nat) (h : off < 4096 := by decide) : S.Reg pgVilri off := ⟨S.vilri, offRing_of_ne off (by decide), h⟩

theorem Scope.engReg {k q : Nat} (hpage : S.page (pgEng k q)) (off : Nat) (h : off < 4096 := by decide) : S.Reg (pgEng k q) off :=
  ⟨hpage, offRing_of_ne off (by unfold pgErr pgEng; omega), h⟩

theorem queueEvent_within (code page : Nat) (bits : Word) (detail : List Nat) (s : State) : Within S s (queueEvent code page bits detail s) := by
  have hseq (v : BitVec 64) (s : State) : Within S s (rset64 pgVilri 0x88 v s) := ((S.vilReg 0x88).rset _ _).trans ((S.vilReg 0x8C).rset _ _)
  unfold queueEvent
  extract_lets seq s1 m
  split
  · exact (hseq _ s).trans (evq_within _ _)
  · exact (hseq _ s).trans ((vil_within _ s1).trans ((S.vilReg 0x7C).finc _ _ _ _))

theorem raise_within {p : Nat} (h : S.Reg p 0x10) (bit : Nat) (s : State) : Within S s (raise p bit s) := by
  unfold raise
  extract_lets old s1
  split
  · exact Within.refl S s
  · split
    · exact h.rset _ s
    · exact (h.rset _ s).trans (queueEvent_within _ _ _ _ _)

/-- A line of the ring is written inside the ring (R253). -/
theorem stkWrite_within {i : Nat} (hi : i < 65536) (l : Line) (m : Mark) (s : State) :
    Within S s (stkWrite ((rget64 s pgErr 0x40).toNat + 64 * i) l m s) := by
  refine (stkWrite_logOnly _ l m s).within (fun _ _ => rfl) (fun a ha => ?_) fun _ _ => pageKept_of_regs rfl
  unfold inErrataRing at ha
  show tabGet _ (writeBytesAt _ _ _) a = tabGet _ _ a
  rw [tabGet_writeBytesAt, dif_neg]
  rw [length_bytesOfLine]
  omega

theorem ringWrite_within (r : ErrRec) (s : State) : Within S s (ringWrite r s) := by
  unfold ringWrite
  extract_lets i s1 s2
  have hline : Within S s s1 := stkWrite_within (Nat.mod_lt _ (by decide)) _ _ s
  have hfull : Within S s1 s2 := by
    simp only [s2]
    split
    · exact ((S.errReg 0x54).finc _ _ _ s1).trans (raise_within (S.errReg 0x10) _ _)
    · exact Within.refl S s1
  exact hline.trans (hfull.trans ((pwr_within _ s2).trans ((S.errReg 0x50).fset _ _ _ _)))

theorem errata_within (x : Er) (s : State) : Within S s (errata x s) := by
  unfold errata
  extract_lets n r full oldest _ s1 s2 s3 s4 s5 s6
  have hlost : Within S s s1 := by
    show Within S s (if _ then _ else _)
    split
    · exact (pwr_within _ s).trans (((S.errReg 0x58).finc _ _ _ _).trans (raise_within (S.errReg 0x10) _ _))
    · exact Within.refl S s
  have hbuf : Within S s1 s2 := (errs_logOnly s1 _).withinOfRegs rfl rfl
  have hcount : Within S s2 s5 := ((S.errReg 0x4C).rset _ s2).trans (((S.errReg 0x5C).fset _ _ _ s3).trans ((S.errReg 0x5C).finc _ _ _ s4))
  have hevent : Within S s5 s6 := whenS_within (raise_within (S.errReg 0x10) _) s5
  have hring : Within S s6 (ringFlush s6) := by
    unfold ringFlush
    split
    · exact foldS_within (fun r _ => ringWrite_within r) s6
    · exact Within.refl S s6
  exact hlost.trans (hbuf.trans (hcount.trans (hevent.trans hring)))

/-! ### Jobs and engines -/

theorem jobMod_within (j : Nat) (f : Job → Job) (s : State) (hf : ∀ b, (f b).loaded = b.loaded := by intro; rfl) : Within S s (jobMod j f s) := by
  refine ⟨(jobMod_engOnly j f s).rest, fun _ => rfl, fun _ _ => rfl, fun _ _ => rfl, fun p _ => jobMod_pageKept p j f s, fun _ => S.refl _ _,
    fun j' => ?_⟩
  rw [job_jobMod]
  split
  · next hj => rw [hj]; exact hf _
  · rfl

theorem takeFree_within (s : State) : Within S s (takeFree s).2 :=
  ⟨(takeFree_engOnly s).rest, fun _ => rfl, fun _ _ => rfl, fun _ _ => rfl, fun _ _ => pageKept_of_regs rfl, fun _ => S.refl _ _, fun _ => rfl⟩

theorem engMod_within {k : Nat} {f : Eng → Eng} {s : State} (h : S.same k (eng s k) (f (eng s k))) : Within S s (engMod k f s) := by
  refine ⟨(engMod_engOnly k f s).rest, fun _ => rfl, fun _ _ => rfl, fun _ _ => rfl, fun _ _ => pageKept_of_regs rfl, fun k' => ?_,
    fun _ => rfl⟩
  rw [eng_engMod]
  split
  · next hk => rw [hk]; exact h
  · exact S.refl _ _

theorem queueStat_within (hstats : S.stats = true) (x : StatX) (s : State) : Within S s (queueStat x s) :=
  ⟨rfl, fun h => absurd hstats (by rw [h]; decide), fun _ _ => rfl, fun _ _ => rfl, fun _ _ => pageKept_of_regs rfl, fun _ => S.refl _ _,
    fun _ => rfl⟩

theorem statFail_within (hstats : S.stats = true) (l : Nat) (g : Seg) (out : Option OutRec) (s : State) : Within S s (statFail l g out s) := by
  unfold statFail
  split
  · exact queueStat_within hstats _ s
  · exact Within.refl S s

theorem errEng_within (ty sev l : Nat) (g : Seg) (block : Nat) (detail : List Nat) (s : State) :
    Within S s (errEng ty sev l g block detail s) := by
  unfold errEng
  extract_lets k s1
  refine Within.trans ?_ (errata_within _ s1)
  simp only [s1]
  split
  · split
    · exact jobMod_within _ _ s
    · exact Within.refl S s
  · exact Within.refl S s

theorem consume_within (l : Nat) (g : Seg) (pc : Nat) (o : Nat × Option Nat) (m : Mark) (s : State) : Within S s (consume l g pc o m s) := by
  unfold consume
  split
  · exact Within.refl S s
  · split
    · exact Within.refl S s
    · split
      · exact Within.refl S s
      · exact jobMod_within _ _ s

end

end Sys2Proof.Machine
end

