-- ==== Sys2Proof/Proofs/InstructionScopes.lean ====
section
/-! PROOF. The operations that instructions are made of, each in a scope: faults, marks, windows, ports, numeric events, written lines;
the issue of an instruction and its bit errors. -/

namespace Sys2Proof.Machine

-- One proof at a time, as in the tests: proofs that wait for one another would each hold a stack.
set_option Elab.async false

/-! ### What an engine stores -/

/-- What an engine stores besides its marks: its counters, waiting CRECVs and pair slots, its place, its array, its lane storage and its
Carrel's data. -/
def Eng.storage (e : Eng) : Eng :=
  { e.core with
    takeover := e.takeover, arr := e.arr, vec := { vr := e.vec.vr, lq := e.vec.lq, masks := e.vec.masks, sk := e.vec.sk }, carrel := e.carrel }

/-- What an engine stores besides its marks and its segments' counters. -/
def Eng.stored (e : Eng) : Eng := { e.storage with rt := {}, bg := {} }

/-- In the scope an instruction of the engine may count on the SEQ and NUMEV pages and keep its own books. -/
structure Scope.Runs (S : Scope) (k : Nat) : Prop where
  seq : S.page (pgEng k 0)
  numev : S.page (pgEng k 7)
  books : ∀ e e', e'.storage = e.storage → S.same k e e'

theorem Scope.Runs.seqReg {S : Scope} {k : Nat} (hS : S.Runs k) (off : Nat) (h : off < 4096 := by decide) : S.Reg (pgEng k 0) off :=
  Scope.engReg hS.seq off h

theorem Scope.Runs.numevReg {S : Scope} {k : Nat} (hS : S.Runs k) (off : Nat) (h : off < 4096 := by decide) : S.Reg (pgEng k 7) off :=
  Scope.engReg hS.numev off h

/-- In the scope a Carrel line may be written. -/
def Scope.Line (S : Scope) (k a : Nat) : Prop :=
  ∀ (e : Eng) l cmark, S.same k e { e with carrel := writeLineAt e.carrel (64 * a) l, cmark := cmark }

section
variable {S : Scope} {k : Nat} (hS : S.Runs k)
include hS

theorem books_within (f : Eng → Eng) (s : State) (hf : ∀ e, (f e).storage = e.storage := by intro; rfl) : Within S s (engMod k f s) :=
  engMod_within (hS.books _ _ (hf _))

theorem segMod_within (g : Seg) (f : SegSt → SegSt) (s : State) (hf : ∀ x, (f x).counters = x.counters := by intro; rfl) :
    Within S s (segMod k g f s) :=
  books_within hS _ s fun e => by cases g <;> simp [Eng.storage, Eng.core, Eng.segMod, hf]

theorem schedFault_within (g : Seg) (pc cause cyc : Nat) (arrival : Bool) (s : State) : Within S s (schedFault k g pc cause cyc arrival s) := by
  unfold schedFault
  extract_lets p gb s1 s2 s3
  have hfirst : Within S s s1 := by
    simp only [s1]
    split
    · exact ((hS.seqReg 0x60).rset _ s).trans ((hS.seqReg 0x64).rset _ _)
    · exact Within.refl S s
  exact hfirst.trans (((hS.seqReg 0x68).finc _ _ _ s1).trans ((segMod_within hS _ _ _).trans (raise_within (hS.seqReg 0x10) _ _)))

theorem cMark_within (line : Nat) (m : Mark) (s : State) : Within S s (cMark k line m s) := books_within hS _ s

theorem cMarks_within (line n : Nat) (m : Mark) (s : State) : Within S s (cMarks k line n m s) :=
  foldS_within (fun a _ => cMark_within hS a m) s

theorem busyTo_within (g : Seg) (t : Nat) (s : State) : Within S s (busyTo k g t s) := segMod_within hS _ _ s

theorem turnAway_within (line : Nat) (g : Seg) (pc cyc : Nat) (arrival : Bool) (s : State) :
    Within S s (turnAway k line g pc cyc arrival s) :=
  (books_within hS _ s).trans (schedFault_within hS _ _ _ _ _ _)

theorem pendWrite_within (w : LineW) (s : State) : Within S s (pendWrite k w s) := books_within hS _ s

theorem tagClear_within (n : Nat) (s : State) : Within S s (tagClear k n s) := by
  unfold tagClear tagSet
  split
  · exact Within.refl S s
  · exact books_within hS _ s

theorem otherClaims_within {cyc : Nat} {cs : List Claim} {s t : State} (h : otherClaims k cyc cs s = some t) : Within S s t := by
  unfold otherClaims at h
  extract_lets e at h
  split at h
  · cases h
  · cases h
    exact books_within hS _ s

theorem countFlags_within (f : Flags) (s : State) : Within S s (countFlags k f s) := by
  unfold countFlags
  refine foldS_within (fun x hx s => whenS_within (fun s => (hS.numevReg _ ?_).finc _ _ _ s) s) s
  simp only [List.mem_cons, List.not_mem_nil, or_false] at hx
  rcases hx with rfl | rfl | rfl | rfl | rfl | rfl | rfl | rfl <;> simp

theorem vecRecord_within (g : Seg) (pc cause j l st : Nat) (wt : BitVec 64) (s : State) : Within S s (vecRecord k g pc cause j l st wt s) := by
  unfold vecRecord
  extract_lets p s1 s2
  split
  · exact Within.refl S s
  · exact ((hS.numevReg 0x58).rset _ s).trans (((hS.numevReg 0x5C).rset _ s1).trans ((((hS.numevReg 0x60).rset _ s2).trans ((hS.numevReg 0x64).rset _ _)).trans
      (raise_within (hS.numevReg 0x10) _ _)))

theorem numTrap_within (l : Nat) (g : Seg) (s : State) : Within S s (numTrap k l g s) := by
  unfold numTrap
  extract_lets p s1
  exact (((hS.numevReg 0x8C).finc _ _ _ s).trans (raise_within (hS.numevReg 0x10) _ _)).trans (errEng_within _ _ _ _ _ _ s1)

theorem runNote_within (f : VecRun → VecRun) (s : State) : Within S s (runNote k f s) := books_within hS _ s

/-! ### Written lines (R197) -/

omit hS in
theorem cPut_within {a : Nat} (hline : S.Line k a) (l : Line) (m : Mark) (s : State) : Within S s (cPut k a l m s) :=
  engMod_within (hline _ _ _)

theorem undoWrite_within {o : OldLine} (hline : S.Line k o.line) (cyc : Nat) (g : Seg) (s : State) :
    Within S s (undoWrite k cyc g o s) := by
  unfold undoWrite
  have hback : Within S s (engMod k (fun e => { e with olds := e.olds.erase o }) (cPut k o.line o.was o.mark s)) :=
    (cPut_within hline _ _ s).trans (books_within hS _ _)
  dsimp only
  split
  · exact hback.trans (turnAway_within hS _ _ _ _ _ _)
  · exact hback.trans (pendWrite_within hS _ _)

/-- The windows that open at a word may take back only lines that the scope lets be written. -/
theorem openHolds_within {g : Seg} {pc : Nat} {ls : List Loop} {cyc : Nat} {s : State}
    (hlines : ∀ o ∈ metWrites (eng s k) g pc ls cyc, S.Line k o.line) : Within S s (openHolds k g pc ls cyc s) :=
  (books_within hS _ s).trans (foldS_within (fun o ho => undoWrite_within hS (hlines o ho) cyc g) _)

end

section
variable {S : Scope} {c : Ctx} (hS : S.Runs c.k)
include hS

theorem markFoot_within (base : Int) (n : Nat) (m : Mark) (s : State) : Within S s (markFoot c base n m s) :=
  foldS_within (fun _ _ => whenS_within fun s => cMark_within hS _ m s) s

theorem fault_within (cause : Nat) (s : State) : Within S s (c.fault cause s) := schedFault_within hS _ _ _ _ _ s

theorem start_within (x : VShape) (s : State) : Within S s (x.start c s) := books_within hS _ s

theorem vecTell_within (x : VShape) (fl : Flags) (ev : Option (Nat × Nat × Nat × Nat)) (reads : Mark) (s : State) :
    Within S s (vecTell x c fl ev reads s) := by
  unfold vecTell
  extract_lets pol s1 s2 s3 t
  have hcount : Within S s s1 := (countFlags_within hS fl s).trans (runNote_within hS _ _)
  have hrec : Within S s1 s2 := by
    simp only [s2]
    split
    · split
      · exact Within.refl S s1
      · exact (vecRecord_within hS _ _ _ _ _ _ _ s1).trans (runNote_within hS _ _)
    · exact Within.refl S s1
  have htrap : Within S s2 s3 := whenS_within (fun s => (numTrap_within hS _ _ s).trans (runNote_within hS _ _)) s2
  exact hcount.trans (hrec.trans (htrap.trans ((consume_within _ _ _ _ _ s3).trans (whenS_within (runNote_within hS _) t))))

theorem vecEvents_within (x : VShape) (l : List VRes) (reads : Mark) (s : State) : Within S s (vecEvents x c l reads s) :=
  vecTell_within hS x _ _ reads s

theorem writeLine_within {a : Nat} (hline : S.Line c.k a) (l : Line) (m : Mark) (t : Nat) (s : State) : Within S s (c.writeLine a l m t s) := by
  unfold Ctx.writeLine
  split
  · exact cPut_within hline l m s
  · split
    · exact pendWrite_within hS _ s
    · exact turnAway_within hS _ _ _ _ _ s

theorem writeLines_within {line : Nat} {ls : List (Line × Mark)} (hlines : ∀ i, i < ls.length → S.Line c.k (line + i)) (wc : Nat → Nat)
    (s : State) : Within S s (c.writeLines line ls wc s) :=
  ((books_within hS _ s : Within S s (keepOld c line ls.length wc s)).trans
    (foldS_within (fun x hx => writeLine_within hS (hlines x.2 (List.snd_lt_of_mem_zipIdx hx)) _ _ _) _)).trans (segMod_within hS _ _ _)

end

/-! ### Bit errors (Table 9-1) -/

theorem Within.storeKey {S : Scope} {s t : State} (h : Within S s t) (l : Nat) : storeKey t l = storeKey s l := by
  have hstore : t.store = s.store := show t.rest.store = s.rest.store from congrArg State.store h.rest
  rw [Machine.storeKey, hstore, Machine.storeKey]

/-- In the scope everything of the engine may change but its place. -/
structure Scope.Free (S : Scope) (k : Nat) : Prop where
  pages : ∀ q, q < 16 → S.page (pgEng k q)
  same : ∀ e e', e'.takeover = e.takeover → S.same k e e'

section
variable {S : Scope} {k : Nat} (hS : S.Free k)
include hS

theorem Scope.Free.runs : S.Runs k where
  seq := hS.pages 0 (by decide)
  numev := hS.pages 7 (by decide)
  books e e' h := hS.same e e' (show e'.storage.takeover = e.storage.takeover from congrArg Eng.takeover h)

theorem Scope.Free.line (a : Nat) : S.Line k a := fun _ _ _ => hS.same _ _ rfl

theorem free_within (f : Eng → Eng) (s : State) (hf : ∀ e, (f e).takeover = e.takeover := by intro; rfl) : Within S s (engMod k f s) :=
  engMod_within (hS.same _ _ (hf _))

theorem freeReg (q off : Nat) (hq : q < 16 := by decide) (hoff : off < 4096 := by decide) : S.Reg (pgEng k q) off :=
  Scope.engReg (hS.pages q hq) off hoff

theorem markSeg_within (g : Seg) (since : Nat) (m : Mark) (s : State) : Within S s (markSeg k g since m s) := by
  unfold markSeg
  extract_lets sg lines hs s1 put s2 mine
  have hput (h : Bool) (s : State) : Within S s (put h s) := free_within hS _ s
  exact (foldS_within (fun _ _ => cMark_within hS.runs _ m) s).trans ((hput false s1).trans ((hput true _).trans (free_within hS _ s2)))

theorem seqFault_within {l : Nat} {s : State} (hk : storeKey s l = k) (g : Seg) (monitor : Nat) (cyc : Option Nat) :
    Within S s (seqFault l g monitor cyc s) := by
  unfold seqFault
  rcases hfree : takeFree s with ⟨fr, u⟩
  dsimp -zeta only
  extract_lets k' at' p pc s1 s2 s3 s4 s5 s6
  have hk' : k' = k := hk
  have hp : p = pgEng k 0 := by rw [← hk']
  have hu : Within S s u := by
    have h := takeFree_within (S := S) s
    rwa [hfree] at h
  have hmonitor : Within S u s1 := by
    simp only [s1, hp]
    exact (freeReg hS 0 0x78).rset _ u
  have hevent : Within S s1 s2 := by
    simp only [s2, hp]
    exact raise_within (freeReg hS 0 0x10) _ s1
  have hrec : Within S s2 s3 := errEng_within _ _ _ _ _ _ s2
  have hframe : Within S s3 s4 := by
    simp only [s4]
    split
    · exact jobMod_within _ _ s3
    · exact Within.refl S s3
  have hbg : Within S s4 s5 := by
    simp only [s5, hk']
    exact whenS_within (fun s => (markSeg_within hS _ _ _ s).trans (segMod_within hS.runs _ _ _)) s4
  have hjobs : Within S s5 s6 := whenS_within (foldS_within fun _ _ s => jobMod_within _ _ s fun b => by split <;> rfl) s5
  have hdue : Within S s6 (engMod k' (fun e => { e with faultDue := true }) s6) := by
    rw [hk']
    exact free_within hS _ s6
  exact hu.trans (hmonitor.trans (hevent.trans (hrec.trans (hframe.trans (hbg.trans (hjobs.trans hdue))))))

theorem upset_within {l : Nat} {s : State} (hk : storeKey s l = k) (g : Seg) (pc cyc : Nat) (u : Upset) : Within S s (upset k l g pc cyc u s) := by
  unfold upset
  split
  · exact ((freeReg hS 4 0x40).finc _ _ _ s).trans (free_within hS _ _)
  · exact (takeFree_within s).trans (((freeReg hS 4 0x44).finc _ _ _ _).trans (((freeReg hS 4 0x48).rset _ _).trans
      ((cPut_within (hS.line _) _ _ _).trans (errata_within _ _))))
  · exact ((freeReg hS 2 0x40).finc _ _ _ s).trans (free_within hS _ _)
  · exact ((freeReg hS 2 0x40).finc _ _ _ s).trans (free_within hS _ _)
  · exact Within.refl S s
  · exact ((freeReg hS 0 0x74).finc _ _ _ s).trans ((raise_within (freeReg hS 0 0x10) _ _).trans (free_within hS _ _))
  · have hset := (freeReg hS 0 0x74).fset 16 1 1 s
    exact hset.trans (seqFault_within hS ((hset.storeKey l).trans hk) _ _ _)
  · exact seqFault_within hS hk _ _ _

theorem upsets_within {l : Nat} {s : State} (hk : storeKey s l = k) (g : Seg) (pc cyc : Nat) (us : List Upset) :
    Within S s (foldS us (upset k l g pc cyc) s) := by
  induction us generalizing s with
  | nil => exact Within.refl S s
  | cons u us ih =>
    have hu := upset_within hS hk g pc cyc u
    exact hu.trans (ih ((hu.storeKey l).trans hk))

end

/-! ### The issue of an instruction (R171) -/

section
variable {S : Scope} {u : EUnit} {rel : Nat} {h : IssueHdr} {s : State} {c : Ctx}

/-- An instruction that issues moves its counters, opens the windows of its word and meets its bit errors. -/
theorem issue_within (hc : issue u rel h s = some c) (hS : S.Runs c.k)
    (hmoved : ∀ e e', e'.stored = e.stored → S.same c.k e e')
    (hlines : ∀ o ∈ metWrites (eng s c.k) h.seg c.pc c.loops c.cyc, S.Line c.k o.line) (hupsets : h.upsets = [] ∨ S.Free c.k) :
    Within S s c.s := by
  obtain ⟨-, -, -, hk, -, -, -⟩ := issue_some hc
  have hmoves : Within S s (segMod c.k h.seg (SegSt.issued h.seg c.pc c.cyc)
      (engMod c.k (fun e => { e with units := (u, c.cyc) :: e.units.filter fun p => decide (p.1 ≠ u) }) s)) :=
    (books_within hS _ s).trans (engMod_within (hmoved _ _ (by cases h.seg <;> rfl)))
  have hmet : metWrites (eng (segMod c.k h.seg (SegSt.issued h.seg c.pc c.cyc)
      (engMod c.k (fun e => { e with units := (u, c.cyc) :: e.units.filter fun p => decide (p.1 ≠ u) }) s)) c.k) h.seg c.pc c.loops c.cyc =
      metWrites (eng s c.k) h.seg c.pc c.loops c.cyc := by
    rw [segMod, eng_engMod, if_pos rfl, eng_engMod, if_pos rfl]
    cases h.seg <;> rfl
  rw [issue_state hc]
  refine hmoves.trans ((openHolds_within hS (by rw [hmet]; exact hlines)).trans ?_)
  rcases hupsets with hnone | hfree
  · rw [hnone]
    exact Within.refl S _
  · refine upsets_within hfree ?_ _ _ _ _
    exact ((openHolds_core _ _ _ _ _ _).storeKey _).trans hk.symm

end

end Sys2Proof.Machine
end

