-- ==== Sys2Proof/Proofs/VectorScopes.lean ====
section
/-! PROOF. What a vector instruction may change: of its engine's storage its destinations, and with a bit error more of that engine. -/

namespace Sys2Proof.Machine

-- One proof at a time, as in the tests: proofs that wait for one another would each hold a stack.
set_option Elab.async false

/-! ### Lanes of a table -/

section
variable {α β : Type} (d : Nat → α)

theorem tabGet_foldl_of_kept {f : Tab α → β → Tab α} {l : List β} {i : Nat} (h : ∀ t, ∀ a ∈ l, tabGet d (f t a) i = tabGet d t i) (t : Tab α) :
    tabGet d (l.foldl f t) i = tabGet d t i := by
  induction l generalizing t with
  | nil => rfl
  | cons a l ih =>
    exact (ih (fun t b hb => h t b (List.mem_cons_of_mem a hb)) (f t a)).trans (h t a List.mem_cons_self)

variable [DecidableEq α]

theorem tabGet_tabMod (m : Tab α) (k : Nat) (f : α → α) (i : Nat) : tabGet d (tabMod d m k f) i = if i = k then f (tabGet d m k) else tabGet d m i := by
  rw [tabMod, tabGet_tabSet]

/-- Lanes that differ, or registers that differ, stand apart. -/
theorem lane_ne {r r' l l' : Nat} (hl : l < 64) (hl' : l' < 64) (hr : r' ≠ r) : 64 * r' + l' ≠ 64 * r + l := by omega

/-- A register put lane by lane leaves the other registers. -/
theorem tabGet_putLanes_ne {F : β × Nat → α} {l : List β} {r r' i : Nat} (hlen : l.length ≤ 64) (hi : i < 64) (hr : r' ≠ r) (t : Tab α) :
    tabGet d (l.zipIdx.foldl (fun t e => tabSet d t (64 * r + e.2) (F e)) t) (64 * r' + i) = tabGet d t (64 * r' + i) :=
  tabGet_foldl_of_kept d (fun _ _ he => tabGet_tabSet_ne _ _ _ _ (lane_ne (by have := List.snd_lt_of_mem_zipIdx he; omega) hi hr)) t

/-- Lanes of a register changed one by one leave the other registers. -/
theorem tabGet_modLanes_ne {f : Nat → α → α} {n r r' i : Nat} (hn : n ≤ 64) (hi : i < 64) (hr : r' ≠ r) (t : Tab α) :
    tabGet d ((List.range n).foldl (fun t l => tabMod d t (64 * r + l) (f l)) t) (64 * r' + i) = tabGet d t (64 * r' + i) :=
  tabGet_foldl_of_kept d (fun t a ha => by
    rw [tabGet_tabMod, if_neg (lane_ne (by rw [List.mem_range] at ha; omega) hi hr)]) t

end

/-! ### The scope of a vector instruction -/

/-- What a vector instruction may change of its engine's storage: lane registers, lane quires, mask registers, the row states, and lines
of the Carrel. -/
structure Dests where
  regs : List Nat
  quires : List Nat
  masks : List Nat
  rows : Bool
  line : Nat → Prop

/-- Lane storage changes only where an instruction may write. -/
structure SparesLanes (D : Dests) (v v' : VecSt) : Prop where
  lane : ∀ r l, l < 64 → r ∉ D.regs → tabGet (fun _ => {}) v'.vr (64 * r + l) = tabGet (fun _ => {}) v.vr (64 * r + l) := by intros; rfl
  quire : ∀ q l, l < 64 → q ∉ D.quires → tabGet (fun _ => {}) v'.lq (64 * q + l) = tabGet (fun _ => {}) v.lq (64 * q + l) := by intros; rfl
  mask : ∀ q, q ∉ D.masks → tabGet (fun _ => {}) v'.masks q = tabGet (fun _ => {}) v.masks q := by intros; rfl
  row : D.rows = false → v'.sk = v.sk := by intros; rfl

/-- Of an engine nothing but the destinations and the books changes. -/
structure Spares (D : Dests) (e e' : Eng) : Prop where
  takeover : e'.takeover = e.takeover := by rfl
  arr : e'.arr = e.arr := by rfl
  slots : e'.slots = e.slots := by rfl
  lanes : SparesLanes D e.vec e'.vec := by exact {}
  data : ∀ a, ¬ D.line a → readLineAt e'.carrel (64 * a) = readLineAt e.carrel (64 * a) := by intros; rfl

theorem SparesLanes.trans {D : Dests} {u v w : VecSt} (h : SparesLanes D u v) (k : SparesLanes D v w) : SparesLanes D u w where
  lane r l hl hr := (k.lane r l hl hr).trans (h.lane r l hl hr)
  quire q l hl hq := (k.quire q l hl hq).trans (h.quire q l hl hq)
  mask q hq := (k.mask q hq).trans (h.mask q hq)
  row hr := (k.row hr).trans (h.row hr)

theorem Spares.trans {D : Dests} {e e' e'' : Eng} (h : Spares D e e') (k : Spares D e' e'') : Spares D e e'' where
  takeover := k.takeover.trans h.takeover
  arr := k.arr.trans h.arr
  slots := k.slots.trans h.slots
  lanes := h.lanes.trans k.lanes
  data a ha := (k.data a ha).trans (h.data a ha)

theorem Spares.of_stored {D : Dests} {e e' : Eng} (h : e'.stored = e.stored) : Spares D e e' where
  takeover := (congrArg Eng.takeover h : e'.stored.takeover = e.stored.takeover)
  arr := (congrArg Eng.arr h : e'.stored.arr = e.stored.arr)
  slots := (congrArg Eng.slots h : e'.stored.slots = e.stored.slots)
  lanes := by
    have hvr : e'.vec.vr = e.vec.vr := (congrArg (fun e => e.vec.vr) h : e'.stored.vec.vr = e.stored.vec.vr)
    have hlq : e'.vec.lq = e.vec.lq := (congrArg (fun e => e.vec.lq) h : e'.stored.vec.lq = e.stored.vec.lq)
    have hmasks : e'.vec.masks = e.vec.masks := (congrArg (fun e => e.vec.masks) h : e'.stored.vec.masks = e.stored.vec.masks)
    have hsk : e'.vec.sk = e.vec.sk := (congrArg (fun e => e.vec.sk) h : e'.stored.vec.sk = e.stored.vec.sk)
    exact ⟨fun _ _ _ _ => by rw [hvr], fun _ _ _ _ => by rw [hlq], fun _ _ => by rw [hmasks], fun _ => hsk⟩
  data a _ := congrArg (fun m => readLineAt m (64 * a)) (congrArg Eng.carrel h : e'.stored.carrel = e.stored.carrel)

/-- The scope of a vector instruction of engine `k` that meets no bit error; where `counted`, of what it does after its issue. -/
def vecScope (stats counted : Bool) (D : Dests) (k : Nat) : Scope where
  stats := stats
  page p := p = pgEng k 0 ∨ p = pgEng k 7 ∨ p = pgErr ∨ p = pgVilri
  same k' e e' := if k' = k then Spares D e e' ∧ (counted = true → e'.core = e.core) else e' = e
  errata := .inr (.inr (.inl rfl))
  vilri := .inr (.inr (.inr rfl))
  refl k' e := by
    split
    · exact ⟨{}, fun _ => rfl⟩
    · rfl
  trans {k' _ _ _} h₁ h₂ := by
    by_cases hk : k' = k
    · rw [if_pos hk] at h₁ h₂ ⊢
      exact ⟨h₁.1.trans h₂.1, fun h => (h₂.2 h).trans (h₁.2 h)⟩
    · rw [if_neg hk] at h₁ h₂ ⊢
      exact h₂.trans h₁

/-- The scope of an instruction of engine `k` that may meet a bit error, with engine `x` that runs it. -/
def upsetScope (stats : Bool) (k x : Nat) : Scope where
  stats := stats
  page p := (∃ q, q < 16 ∧ (p = pgEng k q ∨ p = pgEng x q)) ∨ p = pgErr ∨ p = pgVilri
  same k' e e' := e'.takeover = e.takeover ∧ (k' ≠ k → k' ≠ x → e' = e)
  errata := .inr (.inl rfl)
  vilri := .inr (.inr rfl)
  refl _ _ := ⟨rfl, fun _ _ => rfl⟩
  trans h₁ h₂ := ⟨h₂.1.trans h₁.1, fun hk hx => (h₂.2 hk hx).trans (h₁.2 hk hx)⟩

section
variable {stats counted : Bool} {D : Dests} {k x : Nat} {s t : State}

theorem vecScope_runs : (vecScope stats counted D k).Runs k where
  seq := .inl rfl
  numev := .inr (.inl rfl)
  books e e' h := by
    show ite _ _ _
    rw [if_pos rfl]
    exact ⟨.of_stored (congrArg Eng.stored h : e'.storage.stored = e.storage.stored), fun _ => (congrArg Eng.core h : e'.storage.core = e.storage.core)⟩

theorem vecScope_line {a : Nat} (ha : D.line a) : (vecScope stats counted D k).Line k a := fun e l _ => by
  show ite _ _ _
  rw [if_pos rfl]
  refine ⟨{ data := fun a' ha' => ?_ }, fun _ => rfl⟩
  rw [readLineAt_writeLineAt, if_neg fun hx : a' = a => ha' (hx ▸ ha)]

theorem lanes_within {f : VecSt → VecSt} (hf : SparesLanes D (eng s k).vec (f (eng s k).vec)) : Within (vecScope stats counted D k) s (vecMod k f s) :=
  engMod_within (by
    show ite _ _ _
    rw [if_pos rfl]
    exact ⟨{ lanes := hf }, fun _ => rfl⟩)

/-- What happens after the issue happens within the whole instruction. -/
theorem Within.uncounted {statsAll : Bool} (h : Within (vecScope stats true D k) s t) (hstats : statsAll = false → stats = false) :
    Within (vecScope statsAll false D k) s t :=
  h.mono hstats (fun _ hp => hp) fun k' e e' he => by
    change ite _ _ _ at he
    show ite _ _ _
    split
    · next hk =>
      rw [if_pos hk] at he
      exact ⟨he.1, nofun⟩
    · next hk => rwa [if_neg hk] at he

theorem Within.upsets (h : Within (vecScope stats counted D k) s t) : Within (upsetScope stats k x) s t := by
  refine h.mono id (fun p hp => ?_) fun k' e e' he => ?_
  · rcases hp with hp | hp | hp | hp
    · exact .inl ⟨0, by decide, .inl hp⟩
    · exact .inl ⟨7, by decide, .inl hp⟩
    · exact .inr (.inl hp)
    · exact .inr (.inr hp)
  · change ite _ _ _ at he
    by_cases hk : k' = k
    · rw [if_pos hk] at he
      exact ⟨he.1.takeover, fun h => absurd hk h⟩
    · rw [if_neg hk] at he
      exact ⟨by rw [he], fun _ _ => he⟩

theorem upsetScope_free : (upsetScope stats k x).Free k where
  pages q hq := .inl ⟨q, hq, .inl rfl⟩
  same _ _ h := ⟨h, fun hk => absurd rfl hk⟩

/-- The engine that runs an instruction stays the same (R23, R234): the slot map stands on a page of the die. -/
theorem Within.execKey (h : Within (upsetScope stats k x) s t) (l : Nat) : execKey t l = execKey s l := by
  have hmap : slotPhys t l = slotPhys s l := by
    unfold slotPhys fget
    rw [h.pages (pgDie (l / 4) 1) ?_ 0x40 (by decide)]
    rintro (⟨q, hq, hp⟩ | hp | hp) <;> simp only [pgDie, pgEng, pgErr, pgVilri] at hp <;> omega
  rw [Machine.execKey, h.storeKey, (h.engs (Machine.storeKey s l)).1, hmap, Machine.execKey]

end

/-! ### The unit's shared operations -/

section
variable {stats : Bool} {D : Dests} {c : Ctx} {x : VShape}

theorem failDest_within (hreg : ∀ r, x.reg = some r → r ∈ D.regs ∧ (x.red = true → x.n ≤ 64)) (s : State) :
    Within (vecScope stats true D c.k) s (x.failDest c s) := by
  unfold VShape.failDest
  rcases x.bases c with ⟨a, b, d⟩
  dsimp -zeta only
  extract_lets s1
  have hmark : Within (vecScope stats true D c.k) s s1 := by
    simp only [s1]
    split
    · exact markFoot_within vecScope_runs _ _ _ s
    · exact Within.refl _ s
  refine hmark.trans ?_
  split
  · next r hr =>
    obtain ⟨hmem, hn⟩ := hreg r hr
    refine lanes_within { lane := fun r' l hl hr' => tabGet_modLanes_ne _ ?_ hl (fun hx : r' = r => hr' (hx ▸ hmem)) _ }
    split
    · next hred => exact hn hred
    · exact Nat.le_refl 64
  · exact Within.refl _ s1

end

/-- A lane's value without its marks. -/
def LaneVal.value (y : LaneVal) : LaneVal := { y with mark := 0 }

/-- A row's state without its marks. -/
def RowSt.value (y : RowSt) : RowSt := { y with mark := 0 }

/-- Lane storage changes but for marks: of the lane registers and of the rows. -/
structure MarksOnly (v v' : VecSt) : Prop where
  lane : ∀ i, (tabGet (fun _ => {}) v'.vr i).value = (tabGet (fun _ => {}) v.vr i).value := by intros; rfl
  row : ∀ i, (tabGet (fun _ => {}) v'.sk i).value = (tabGet (fun _ => {}) v.sk i).value := by intros; rfl
  lq : v'.lq = v.lq := by rfl
  masks : v'.masks = v.masks := by rfl

theorem MarksOnly.trans {u v w : VecSt} (h : MarksOnly u v) (k : MarksOnly v w) : MarksOnly u w :=
  ⟨fun i => (k.lane i).trans (h.lane i), fun i => (k.row i).trans (h.row i), k.lq.trans h.lq, k.masks.trans h.masks⟩

theorem marksOnly_foldl {α : Type} {f : VecSt → α → VecSt} (h : ∀ v a, MarksOnly v (f v a)) (l : List α) (v : VecSt) : MarksOnly v (l.foldl f v) := by
  induction l generalizing v with
  | nil => exact {}
  | cons a l ih => exact (h v a).trans (ih (f v a))

/-- A mark that a lane takes leaves every lane's value. -/
theorem marksOnly_lane (v : VecSt) (i : Nat) (m : Mark) :
    MarksOnly v { v with vr := tabMod (fun _ => {}) v.vr i fun y => { y with mark := y.mark ||| m } } where
  lane j := by
    dsimp only
    rw [tabGet_tabMod]
    split
    · next hj => rw [hj]; rfl
    · rfl

theorem marksOnly_row (v : VecSt) (i : Nat) (m : Mark) :
    MarksOnly v { v with sk := tabMod (fun _ => {}) v.sk i fun y => { y with mark := y.mark ||| m } } where
  row j := by
    dsimp only
    rw [tabGet_tabMod]
    split
    · next hj => rw [hj]; rfl
    · rfl

/-- Marks that lanes take one after another. -/
theorem marksOnly_lanes {α : Type} (l : List α) (key : α → Nat) (m : Mark) (v : VecSt) :
    MarksOnly v { v with vr := l.foldl (fun t a => tabMod (fun _ => {}) t (key a) fun y => { y with mark := y.mark ||| m }) v.vr } := by
  induction l generalizing v with
  | nil => exact {}
  | cons a l ih => exact (marksOnly_lane v (key a) m).trans (ih { v with vr := tabMod _ v.vr (key a) _ })

/-- In the scope the lanes of the engine may take marks. -/
def Scope.Marks (S : Scope) (k : Nat) : Prop := ∀ (e : Eng) v, MarksOnly e.vec v → S.same k e { e with vec := v }

/-- In the scope the engine's SFU errors may be counted. -/
structure Scope.Sfu (S : Scope) (k : Nat) : Prop where
  page : S.page (pgEng k 3)
  errs : ∀ (e : Eng) l, S.same k e { e with sfuErrs := l }

section
variable {S : Scope} {c : Ctx} {x : VShape} (hS : S.Runs c.k) (hmarks : S.Marks c.k)
include hS hmarks

theorem sfuHit_within {s : State} (hsfu : S.Sfu (execKey s c.leng)) (j lane : Nat) : Within S s (x.sfuHit c j lane s) := by
  unfold VShape.sfuHit
  rcases x.bases c with ⟨a, b, d⟩
  dsimp -zeta only
  extract_lets u e s1 s2 put
  have hcount : Within S s s1 := by
    refine ((Scope.engReg hsfu.page (0x44 + 4 * u) ?_).finc _ _ _ s).trans (engMod_within (hsfu.errs _ _))
    have : u < 2 ^ 3 := Nat.mod_lt _ (by decide)
    omega
  have hlines : Within S s1 s2 := by
    simp only [s2]
    split
    · exact foldS_within (fun l _ => cMark_within hS l _) s1
    · exact Within.refl S s1
  have hput (v : VecSt) (i : Nat) : MarksOnly v (put v i) := by
    simp only [put]
    split
    · exact marksOnly_lanes _ (fun r => 64 * r + _) _ v
    · split
      · exact {}
      · exact marksOnly_row v _ _
  exact hcount.trans (hlines.trans (engMod_within (hmarks _ _ (marksOnly_foldl hput _ _))))

/-- SFU errors count, and mark what the lanes put out. -/
theorem sfuHits_within {h : IssueHdr} {s : State} (hsfu : ∀ t, Within S s t → S.Sfu (execKey t c.leng)) : Within S s (x.sfuHits h c s) := by
  unfold VShape.sfuHits
  induction h.upsets generalizing s with
  | nil => exact Within.refl S s
  | cons u us ih =>
    have hhit : Within S s (match u with
      | .sfu v l => whenS ((x.sfu || decide (0 < x.steps)) && decide (v.toNat < x.n)) (x.sfuHit c v.toNat l.toNat) s
      | _ => s) := by
      split
      · unfold whenS
        split
        · exact sfuHit_within hS hmarks (hsfu s (Within.refl S s)) _ _
        · exact Within.refl S s
      · exact Within.refl S s
    exact hhit.trans (ih fun t ht => hsfu t (hhit.trans ht))

end

/-- The scope of what changes no value: the counters, the lanes' values, the masks and the Carrel's data stay. -/
def markScope : Scope where
  stats := true
  page _ := True
  same _ e e' := e'.core = e.core ∧ MarksOnly e.vec e'.vec ∧ e'.carrel = e.carrel
  errata := trivial
  vilri := trivial
  refl _ _ := ⟨rfl, {}, rfl⟩
  trans h₁ h₂ := ⟨h₂.1.trans h₁.1, h₁.2.1.trans h₂.2.1, h₂.2.2.trans h₁.2.2⟩

theorem MarksOnly.of_storage {e e' : Eng} (h : e'.storage = e.storage) : MarksOnly e.vec e'.vec where
  lane i := congrArg (fun m => (tabGet (fun _ => {}) m i).value) (congrArg (fun e => e.vec.vr) h : e'.storage.vec.vr = e.storage.vec.vr)
  row i := congrArg (fun m => (tabGet (fun _ => {}) m i).value) (congrArg (fun e => e.vec.sk) h : e'.storage.vec.sk = e.storage.vec.sk)
  lq := (congrArg (fun e => e.vec.lq) h : e'.storage.vec.lq = e.storage.vec.lq)
  masks := (congrArg (fun e => e.vec.masks) h : e'.storage.vec.masks = e.storage.vec.masks)

theorem markScope_runs (k : Nat) : markScope.Runs k where
  seq := trivial
  numev := trivial
  books e e' h := ⟨(congrArg Eng.core h : e'.storage.core = e.storage.core), .of_storage h, (congrArg Eng.carrel h : e'.storage.carrel = e.storage.carrel)⟩

theorem markLanes_within {k : Nat} {f : VecSt → VecSt} {s : State} (h : MarksOnly (eng s k).vec (f (eng s k).vec)) :
    Within markScope s (vecMod k f s) := engMod_within ⟨rfl, h, rfl⟩

/-- SFU errors change no value. -/
theorem sfuHits_values (x : VShape) (h : IssueHdr) (c : Ctx) (s : State) : Within markScope s (x.sfuHits h c s) :=
  sfuHits_within (markScope_runs c.k) (fun _ _ hm => ⟨rfl, hm, rfl⟩) fun _ _ => ⟨trivial, fun _ _ => ⟨rfl, {}, rfl⟩⟩

/-- A change in a scope that keeps the counters. -/
theorem Within.keepsCore {S : Scope} {s t : State} (h : Within S s t) (hcore : ∀ k e e', S.same k e e' → e'.core = e.core) : Keeps Eng.core s t where
  store := (congrArg State.store h.rest : t.rest.store = s.rest.store)
  chains := (congrArg State.chains h.rest : t.rest.chains = s.rest.chains)
  engs k := hcore k _ _ (h.engs k)

/-! ### A vector instruction as a whole -/

section
variable {stats : Bool} {D : Dests} {h : IssueHdr} {x : VShape} {extra : State → Ctx → Nat} {fail body : Ctx → State → State} {s : State}

/-- The scopes in which an instruction stays: its destinations, or with a bit error its engine; its issue alone counts. -/
structure VecFrame (stats : Bool) (D : Dests) (h : IssueHdr) (s t : State) : Prop where
  quiet : h.upsets = [] → Within (vecScope stats false D (storeKey s h.leng.toNat)) s t
  upset : Within (upsetScope stats (storeKey s h.leng.toNat) (execKey s h.leng.toNat)) s t
  core : ∀ c, issue .vector 0 h s = some c → Keeps Eng.core c.s t

theorem VecFrame.trans {t u : State} (k : VecFrame stats D h s t) (hin : Within (vecScope stats true D (storeKey s h.leng.toNat)) t u) :
    VecFrame stats D h s u where
  quiet hu := (k.quiet hu).trans (hin.uncounted id)
  upset := k.upset.trans hin.upsets
  core c hc := (k.core c hc).trans (hin.keepsCore fun k' e e' he => by
    change ite _ _ _ at he
    split at he
    · exact he.2 rfl
    · rw [he])

/-- An instruction that issues opens the windows of its word and meets its bit errors. -/
theorem issue_frame {c : Ctx} (hc : issue .vector 0 h s = some c)
    (hmet : ∀ o ∈ metWrites (eng s c.k) h.seg c.pc c.loops c.cyc, D.line o.line) : VecFrame stats D h s c.s := by
  obtain ⟨-, -, -, hk, -⟩ := issue_some hc
  rw [hk] at hmet
  refine ⟨fun hu => ?_, ?_, fun c' hc' => ?_⟩
  · rw [← hk]
    refine issue_within hc vecScope_runs (fun e e' he => ?_) (fun o ho => ?_) (.inl hu)
    · show ite _ _ _
      rw [if_pos rfl]
      exact ⟨.of_stored he, nofun⟩
    · exact vecScope_line (hmet o (by rwa [hk] at ho))
  · rw [← hk]
    exact issue_within hc upsetScope_free.runs (fun e e' he => ⟨(congrArg Eng.takeover he : e'.stored.takeover = e.stored.takeover),
      fun hx => absurd rfl hx⟩) (fun o _ => upsetScope_free.line _) (.inr upsetScope_free)
  · cases hc.symm.trans hc'
    exact Keeps.refl _ _

/-- What a vector instruction can do: nothing, a SCHED_FAULT, or its effect with the SFU errors it meets. -/
theorem vecIssue_cases (h : IssueHdr) (x : VShape) (extra : State → Ctx → Nat) (fail body : Ctx → State → State) (s : State) :
    (issue .vector 0 h s = none ∧ vecIssue h x extra fail body s = s) ∨ ∃ c, issue .vector 0 h s = some c ∧
      ((∃ cause, vecIssue h x extra fail body s = fail c (x.failDest c (c.fault cause c.s))) ∨
        ∃ s1, otherClaims c.k c.cyc (x.claims c) c.s = some s1 ∧ vecIssue h x extra fail body s =
          x.sfuHits h c (busyTo c.k c.g (c.cyc + x.last + x.n * x.rate) (body c (x.start c s1)))) := by
  unfold vecIssue issued
  split
  · next hnone => exact .inl ⟨hnone, rfl⟩
  next c hc =>
  refine .inr ⟨c, hc, ?_⟩
  dsimp only
  split
  · exact .inl ⟨_, rfl⟩
  split
  · exact .inl ⟨_, rfl⟩
  next s1 hs1 => exact .inr ⟨s1, hs1, rfl⟩

/-- A vector instruction whose failure and whose effect stay in its scope stays in it. -/
theorem vecIssue_frame (hlines : ∀ c, issue .vector 0 h s = some c → ∀ o ∈ metWrites (eng s c.k) h.seg c.pc c.loops c.cyc, D.line o.line)
    (hreg : ∀ r, x.reg = some r → r ∈ D.regs ∧ (x.red = true → x.n ≤ 64))
    (hfail : ∀ c t, issue .vector 0 h s = some c → Within (vecScope stats true D c.k) t (fail c t))
    (hbody : ∀ c t, issue .vector 0 h s = some c → Within (vecScope stats true D c.k) t (body c t)) :
    VecFrame stats D h s (vecIssue h x extra fail body s) := by
  rcases vecIssue_cases h x extra fail body s with ⟨hnone, hsame⟩ | ⟨c, hc, hruns⟩
  · rw [hsame]
    exact ⟨fun _ => Within.refl _ s, Within.refl _ s, fun c hc => nomatch hnone.symm.trans hc⟩
  obtain ⟨-, -, -, hk, hl, -⟩ := issue_some hc
  have hissue : VecFrame stats D h s c.s := issue_frame hc (hlines c hc)
  rcases hruns with ⟨cause, hfault⟩ | ⟨s1, hs1, hdone⟩
  · rw [hfault]
    refine hissue.trans ?_
    rw [← hk]
    exact (fault_within vecScope_runs cause c.s).trans ((failDest_within hreg _).trans (hfail c _ hc))
  have hrun : VecFrame stats D h s (busyTo c.k c.g (c.cyc + x.last + x.n * x.rate) (body c (x.start c s1))) := by
    refine hissue.trans ?_
    rw [← hk]
    exact (otherClaims_within vecScope_runs hs1).trans ((start_within vecScope_runs x s1).trans ((hbody c _ hc).trans
      (busyTo_within vecScope_runs _ _ _)))
  rw [hdone]
  refine ⟨fun hu => ?_, ?_, fun c' hc' => (hrun.core c' hc').trans ((sfuHits_values x h c _).keepsCore fun _ _ _ he => he.1)⟩
  · unfold VShape.sfuHits
    rw [hu]
    exact hrun.quiet hu
  · refine hrun.upset.trans ?_
    rw [← hk]
    have hexec : execKey (busyTo c.k c.g (c.cyc + x.last + x.n * x.rate) (body c (x.start c s1))) c.leng = execKey s h.leng.toNat := by
      rw [hl]
      exact hrun.upset.execKey h.leng.toNat
    refine sfuHits_within upsetScope_free.runs (fun _ _ _ => ⟨rfl, fun hx => absurd rfl hx⟩) fun t ht => ?_
    rw [ht.execKey c.leng, hexec]
    exact ⟨.inl ⟨3, by decide, .inr rfl⟩, fun _ _ => ⟨rfl, fun _ hx => absurd rfl hx⟩⟩

end

/-! ### Destinations -/

section
variable {stats : Bool} {D : Dests} {c : Ctx} {x : VShape}

theorem width_mul_perLine (f : Fmt) : f.width * f.perLine = 512 := by cases f <;> rfl

/-- The lines that hold elements are no more than the elements take. -/
theorem length_packStream (s : State) (k line : Nat) (f : Fmt) (keep : Bool) (fuel i : Nat) (l : List (Nat × Mark)) :
    (packStream s k line f keep fuel i l).length ≤ linesOf f l.length := by
  induction fuel generalizing i l with
  | zero => exact Nat.zero_le _
  | succ fuel ih =>
    unfold packStream
    cases l with
    | nil => exact Nat.zero_le _
    | cons e l =>
      have hrest := ih (i + 1) ((e :: l).drop f.perLine)
      have hw := width_mul_perLine f
      rw [List.length_cons]
      refine Nat.le_trans (Nat.succ_le_succ hrest) ?_
      unfold linesOf
      rw [List.length_drop, Nat.sub_mul, Nat.mul_comm f.perLine, hw, List.length_cons, Nat.succ_mul]
      have hpos : 0 < f.width := by cases f <;> decide
      omega

theorem length_vecMap (n : Nat) (f : Nat → Nat → VRes) : (vecMap n f).length = 64 * n := by
  simp [vecMap, List.length_flatMap, Nat.mul_comm]

/-- Elements put into a destination: the lanes of its register or the lines of its stream. -/
theorem vecPut_within {f : Fmt} {l : List VRes} (hline : ∀ i, i < linesOf f l.length → x.reg = none → D.line ((x.bases c).2.2.toNat + i))
    (hreg : ∀ r, x.reg = some r → r ∈ D.regs) (s : State) : Within (vecScope stats true D c.k) s (vecPut x c f l s) := by
  unfold vecPut
  rcases hbases : x.bases c with ⟨a, b, d⟩
  rw [hbases] at hline
  dsimp -zeta only
  extract_lets extra vm marks els
  split
  · next r hr =>
    refine lanes_within { lane := fun r' i hi hr' => tabGet_putLanes_ne _ ?_ hi (fun hx : r' = r => hr' (hx ▸ hreg r hr)) _ }
    rw [List.length_take]
    exact Nat.min_le_left _ _
  · next hr =>
    refine writeLines_within vecScope_runs (fun i hi => vecScope_line (hline i ?_ hr)) _ s
    have hlen : els.length = l.length := by simp [els]
    rw [← hlen]
    exact Nat.lt_of_lt_of_le hi (length_packStream _ _ _ _ _ _ _ _)

theorem vecOut_within {f : Fmt} {l : List VRes} (hline : ∀ i, i < linesOf f l.length → x.reg = none → D.line ((x.bases c).2.2.toNat + i))
    (hreg : ∀ r, x.reg = some r → r ∈ D.regs) (s : State) : Within (vecScope stats true D c.k) s (vecOut x f l c s) :=
  (vecEvents_within vecScope_runs x l _ s).trans (vecPut_within hline hreg _)

theorem quirePut_within {q : Nat} (hq : q ∈ D.quires) {l : List LaneQ} (hl : l.length ≤ 64) (s : State) :
    Within (vecScope stats true D c.k) s (quirePut c.k q l s) :=
  lanes_within { quire := fun q' _ hi hq' => tabGet_putLanes_ne _ hl hi (fun hx : q' = q => hq' (hx ▸ hq)) _ }

theorem quireFail_within {q : Nat} (hq : q ∈ D.quires) (s : State) : Within (vecScope stats true D c.k) s (quireFail c.k q s) := by
  refine lanes_within { quire := fun q' i hi hq' => ?_ }
  dsimp only
  exact tabGet_modLanes_ne _ (Nat.le_refl 64) hi (fun hx : q' = q => hq' (hx ▸ hq)) _

theorem lanePut_within {r : Nat} (hr : r ∈ D.regs) {l : List LaneVal} (hl : l.length ≤ 64) (s : State) :
    Within (vecScope stats true D c.k) s (lanePut c.k r l s) :=
  lanes_within { lane := fun r' _ hi hr' => tabGet_putLanes_ne _ hl hi (fun hx : r' = r => hr' (hx ▸ hr)) _ }

theorem rowPut_within (hrows : D.rows = true) (q : Nat) (l : List RowSt) (s : State) : Within (vecScope stats true D c.k) s (rowPut c.k q l s) :=
  lanes_within { row := fun h => absurd hrows (by rw [h]; decide) }

theorem rowFail_within (hrows : D.rows = true) (q : Nat) (s : State) : Within (vecScope stats true D c.k) s (rowFail c.k q s) :=
  lanes_within { row := fun h => absurd hrows (by rw [h]; decide) }

theorem maskPut_within {q : Nat} (hq : q ∈ D.masks) (m : MaskR) (s : State) :
    Within (vecScope stats true D c.k) s (vecMod c.k (fun v => { v with masks := tabSet (fun _ => {}) v.masks q m }) s) :=
  lanes_within { mask := fun q' hq' => tabGet_tabSet_ne _ _ _ _ fun hx : q' = q => hq' (hx ▸ hq) }

theorem maskFail_within {q : Nat} (hq : q ∈ D.masks) (s : State) : Within (vecScope stats true D c.k) s (maskFail c.k q s) :=
  lanes_within
    { mask := fun q' hq' => tabGet_tabSet_ne _ _ _ _ fun hx : q' = q => hq' (hx ▸ hq) }

end

end Sys2Proof.Machine
end

