-- ==== Sys2Proof/Proofs/VectorFrames.lean ====
section
/-! PROOF. What the vector instructions leave unchanged (R142, R149, R152, R171). -/

namespace Sys2Proof.Machine

-- One proof at a time, as in the tests: proofs that wait for one another would each hold a stack.
set_option Elab.async false

/-- What a vector instruction does that an image can hold. -/
def doVec (h : IssueHdr) : EOp → State → State
  | .vop o => doVop h o
  | .vred o => doVred h o
  | .cvt o => doCvt h o
  | .sfn o => doSfn h o
  | .gact o => doGact h o
  | .smx o => doSmx h o
  | .nrm o => doNrm h o
  | .qclr o => doQclr h o
  | .qmac o => doQmac h o
  | .qacc o => doQacc h o
  | .qrnd o => doQrnd h o
  | _ => id

theorem exec_vec {s : State} {h : IssueHdr} {o : EOp} (hvec : (vecShape s h o).isSome = true) :
    exec (o.instr h) s = gate (vecLoads s h o) (doVec h o s) := by
  cases o with
  | vop o | vred o | cvt o | smx o | qclr o | qmac o | qacc o | qrnd o => exact congrArg (gate · _) (Bool.and_true _).symm
  | gact o | nrm o => rfl
  | sfn o => exact congrArg (gate · _) (Bool.and_assoc _ _ _)
  | _ => nomatch hvec

/-- A CVT with a pair slot, which may leave waiting statistics (R124). -/
def slotCvt : EOp → Bool
  | .cvt o => o.sen
  | _ => false

/-- SMX and NRM keep row states. -/
def keepsRows : EOp → Bool
  | .smx _ | .nrm _ => true
  | _ => false

/-- What a vector instruction may change of its engine's storage; where a window meets a write, any line may go back (R197). -/
def vecDests (s : State) (h : IssueHdr) (o : EOp) : Dests where
  regs := regDests o
  quires := quireDests h.seg o
  masks := maskDests o
  rows := keepsRows o
  line a := holdsQuiet s h → vecWritesLine s h o a

section
variable {s : State} {h : IssueHdr} {o : EOp} {x : VShape} {c : Ctx}

theorem line_of_met (hc : issue .vector 0 h s = some c) (w : OldLine) (hw : w ∈ metWrites (eng s c.k) h.seg c.pc c.loops c.cyc) :
    (vecDests s h o).line w.line := by
  intro hquiet
  obtain ⟨-, -, -, hk, -, -, hpc, hloops, hcyc⟩ := issue_some hc
  rw [Nat.max_zero] at hcyc
  rw [hk, hpc, hloops, hcyc] at hw
  have hnone := hquiet.2
  unfold segOf at hnone
  rw [hnone] at hw
  exact absurd hw List.not_mem_nil

theorem line_of_stream (hc : issue .vector 0 h s = some c) (hx : vecShape s h o = some x) {i : Nat} (hi : i < x.dLines) :
    (vecDests s h o).line ((x.bases c).2.2.toNat + i) := by
  intro _
  cases hd : x.d with
  | none =>
    unfold VShape.dLines at hi
    rw [hd] at hi
    exact absurd hi (Nat.not_lt_zero i)
  | some p =>
    obtain ⟨-, -, -, -, -, -, -, hloops, -⟩ := issue_some hc
    have hbase : (x.bases c).2.2 = advance x.adv 2 (segOf s h.leng h.seg).loops p.1.toNat := by
      unfold VShape.bases segOf
      rw [hd, hloops]
    exact ⟨x, p, hx, hd, by rw [← hbase]; omega, by rw [← hbase]; omega⟩

/-- The one destination of a shape holds elements of a format: a lane register that the instruction writes, or a stream. -/
structure VShape.Takes (x : VShape) (f : Fmt) (o : EOp) : Prop where
  reg : ∀ r, x.reg = some r → r ∈ regDests o
  stream : x.reg = none → ∃ a, x.d = some (a, f)
  alone : ∀ p, x.d = some p → x.reg = none ∧ p.2 = f

theorem vecOut_frame {stats : Bool} {f : Fmt} {l : List VRes} (hc : issue .vector 0 h s = some c) (hx : vecShape s h o = some x)
    (htakes : x.Takes f o) (hred : x.red = false) (hl : l.length = 64 * x.n) (t : State) :
    Within (vecScope stats true (vecDests s h o) c.k) t (vecOut x f l c t) := by
  refine vecOut_within (fun i hi hreg => line_of_stream hc hx ?_) htakes.reg t
  obtain ⟨a, ha⟩ := htakes.stream hreg
  unfold VShape.dLines
  rw [ha, hred, ← hl]
  exact hi

end

section
variable (h : IssueHdr) (s : State)

/-! ### Each instruction in its scope -/

theorem vop_takes {o : VOp} (hcmp : vopCmp.contains o.func.toNat = false) : (vopShape o).Takes (fmtD o.dfmt) (.vop o) := by
  constructor <;> simp only [vopShape, regDests, hcmp] <;> cases o.dk <;> simp

/-- A compare has no lane register for its results (R145). -/
theorem vop_reg_of_compare {o : VOp} (hcmp : vopCmp.contains o.func.toNat = true) : (vopShape o).reg = none := by
  simp only [vopShape, hcmp]
  rfl

theorem doVop_frame (o : VOp) : VecFrame false (vecDests s h (.vop o)) h s (doVop h o s) := by
  unfold doVop
  cases hcmp : vopCmp.contains o.func.toNat with
  | true =>
    have hmask : o.mlq.toNat ∈ (vecDests s h (.vop o)).masks := by
      show _ ∈ maskDests (.vop o)
      rw [maskDests, if_pos hcmp]
      exact List.mem_singleton_self _
    refine vecIssue_frame (fun c hc => line_of_met hc) (fun r hr => ?_) (fun c t _ => maskFail_within hmask t) fun c t hc => ?_
    · rw [vop_reg_of_compare hcmp] at hr
      nomatch hr
    · exact (vecEvents_within vecScope_runs _ _ _ t).trans (maskPut_within hmask _ _)
  | false =>
    exact vecIssue_frame (fun c hc => line_of_met hc) (fun r hr => ⟨(vop_takes hcmp).reg r hr, nofun⟩) (fun c t _ => Within.refl _ t)
      fun c t hc => vecOut_frame hc rfl (vop_takes hcmp) rfl (length_vecMap _ _) t

theorem vred_takes (o : VOp) : (vredShape o).Takes (fmtD o.dfmt) (.vred o) := by
  cases hdk : o.dk <;> constructor <;> simp [vredShape, regDests, hdk]

/-- A VRED into a lane register has at most 64 vectors (R185). -/
theorem vred_count {h : IssueHdr} {o : VOp} (hwf : (Instr.vred h o).wf = true) (hdk : o.dk = true) : (vredShape o).n ≤ 64 := by
  simp only [Instr.wf, EOp.ok, EOp.ok09, laneDst, hdk, Bool.and_eq_true, Bool.or_eq_true, decide_eq_true_eq] at hwf
  obtain ⟨⟨⟨-, ⟨⟨-, hdst⟩, -⟩⟩, -⟩, -⟩ := hwf
  rcases hdst with hdst | ⟨-, hn⟩
  · nomatch hdst
  · exact hn

theorem doVred_frame {o : VOp} (hwf : (Instr.vred h o).wf = true) : VecFrame false (vecDests s h (.vred o)) h s (doVred h o s) := by
  have hcount {r : Nat} (hr : (vredShape o).reg = some r) : (vredShape o).n ≤ 64 := by
    refine vred_count hwf ?_
    cases hdk : o.dk
    · simp [vredShape, hdk] at hr
    · rfl
  unfold doVred
  refine vecIssue_frame (fun c hc => line_of_met hc) (fun r hr => ⟨(vred_takes o).reg r hr, fun _ => hcount hr⟩) (fun c t _ => Within.refl _ t)
    fun c t hc => ?_
  extract_lets rs l extra u f els
  have hl : l.length = (vredShape o).n := by simp [l, rs, vredEls, vredShape]
  have hline {i : Nat} (hi : i < linesOf f l.length) (hreg : (vredShape o).reg = none) :
      (vecDests s h (.vred o)).line (((vredShape o).bases c).2.2.toNat + i) := by
    refine line_of_stream hc rfl ?_
    obtain ⟨a, ha⟩ := (vred_takes o).stream hreg
    unfold VShape.dLines
    rw [ha]
    rw [hl] at hi
    exact hi
  have htell : Within (vecScope false true (vecDests s h (.vred o)) c.k) t u := vecTell_within vecScope_runs _ _ _ _ t
  refine htell.trans ?_
  rcases hbases : (vredShape o).bases c with ⟨a, b, d⟩
  rw [hbases] at hline
  dsimp -zeta only
  split
  · next r hr =>
    refine lanes_within { lane := fun r' i hi hr' => ?_ }
    exact tabGet_putLanes_ne _ (hl.trans_le (hcount hr)) hi (fun hx : r' = r => hr' (hx ▸ (vred_takes o).reg r hr)) _
  · next hr =>
    refine writeLines_within vecScope_runs (fun i hi => vecScope_line (hline ?_ hr)) _ _
    have hlen : els.length = l.length := by simp [els]
    rw [← hlen]
    exact Nat.lt_of_lt_of_le hi (length_packStream _ _ _ _ _ _ _ _)

theorem cvt_takes (o : XOp) : (cvtShape o).Takes (fmtD o.dfmt) (.cvt o) := by
  cases hdk : o.dk <;> constructor <;> simp [cvtShape, regDests, hdk]

theorem doCvt_frame (o : XOp) : VecFrame o.sen (vecDests s h (.cvt o)) h s (doCvt h o s) := by
  have hreg {r : Nat} (hr : (cvtShape o).reg = some r) := (cvt_takes o).reg r hr
  unfold doCvt
  refine vecIssue_frame (fun c hc => line_of_met hc) (fun r hr => ⟨hreg hr, nofun⟩) (fun c t _ => ?_) fun c t hc => ?_
  · cases hsen : o.sen with
    | false => exact Within.refl _ t
    | true => exact (statFail_within rfl _ _ _ t).trans (tagClear_within vecScope_runs _ _)
  extract_lets sl m u
  rcases hbases : (cvtShape o).bases c with ⟨a, b, d⟩
  dsimp -zeta only
  split
  · refine (tagClear_within vecScope_runs _ t : Within _ t u).trans ?_
    split
    · next r hr =>
      refine lanes_within { lane := fun r' i hi hr' => ?_ }
      dsimp only
      exact tabGet_modLanes_ne _ (Nat.le_refl 64) hi (fun hx : r' = r => hr' (hx ▸ hreg hr)) _
    · exact cMarks_within vecScope_runs _ _ _ u
  · rcases cvtX t c o with ⟨ex, adj, pm⟩
    dsimp -zeta only
    extract_lets sm srcs u
    have hout : Within (vecScope o.sen true (vecDests s h (.cvt o)) c.k) t u :=
      vecOut_frame hc rfl (cvt_takes o) rfl (length_vecMap _ _) t
    refine hout.trans ?_
    split
    · exact Within.refl _ u
    split
    · exact (books_within vecScope_runs _ u).trans (busyTo_within vecScope_runs _ _ _)
    · exact tagClear_within vecScope_runs _ u

theorem sfn_takes (o : FOp) (cp : Bool) : (sfnShape o cp s).Takes (fmtD o.dfmt) (.sfn o) := by
  cases hdk : o.dk <;> constructor <;> simp [sfnShape, fShape, regDests, hdk]

theorem doSfn_frame (o : FOp) : VecFrame false (vecDests s h (.sfn o)) h s (doSfn h o s) := by
  unfold doSfn
  exact vecIssue_frame (fun c hc => line_of_met hc) (fun r hr => ⟨(sfn_takes s o _).reg r hr, nofun⟩) (fun c t _ => Within.refl _ t)
    fun c t hc => vecOut_frame hc rfl (sfn_takes s o _) rfl (length_vecMap _ _) t

theorem gact_takes (o : FOp) (cp : Bool) : (gactShape o cp s).Takes (fmtD o.dfmt) (.gact o) := by
  cases hdk : o.dk <;> constructor <;> simp [gactShape, fShape, regDests, hdk]

theorem doGact_frame (o : FOp) : VecFrame false (vecDests s h (.gact o)) h s (doGact h o s) := by
  unfold doGact
  exact vecIssue_frame (fun c hc => line_of_met hc) (fun r hr => ⟨(gact_takes s o _).reg r hr, nofun⟩) (fun c t _ => Within.refl _ t)
    fun c t hc => vecOut_frame hc rfl (gact_takes s o _) rfl (length_vecMap _ _) t

theorem qrnd_takes (o : VOp) : (qrndShape o).Takes (fmtD o.dfmt) (.qrnd o) := by
  cases hdk : o.dk <;> constructor <;> simp [qrndShape, regDests, hdk]

theorem doQrnd_frame (o : VOp) : VecFrame false (vecDests s h (.qrnd o)) h s (doQrnd h o s) := by
  unfold doQrnd
  exact vecIssue_frame (fun c hc => line_of_met hc) (fun r hr => ⟨(qrnd_takes o).reg r hr, nofun⟩) (fun c t _ => Within.refl _ t)
    fun c t hc => vecOut_frame hc rfl (qrnd_takes o) rfl (length_vecMap _ _) t

theorem doQclr_frame (o : VOp) : VecFrame false (vecDests s h (.qclr o)) h s (doQclr h o s) := by
  unfold doQclr
  have hq : o.mlq.toNat ∈ quireDests h.seg (.qclr o) := List.mem_singleton_self _
  exact vecIssue_frame (fun c hc => line_of_met hc) nofun (fun c t _ => quireFail_within hq t)
    fun c t hc => quirePut_within hq (by simp) t

theorem doQmac_frame (o : VOp) : VecFrame false (vecDests s h (.qmac o)) h s (doQmac h o s) := by
  unfold doQmac
  have hq : o.mlq.toNat ∈ quireDests h.seg (.qmac o) := List.mem_singleton_self _
  refine vecIssue_frame (fun c hc => line_of_met hc) nofun (fun c t _ => quireFail_within hq t) fun c t hc => ?_
  exact (quirePut_within hq (by simp [quireRun]) t).trans (vecEvents_within vecScope_runs _ _ _ _)

theorem doQacc_frame (o : VOp) : VecFrame false (vecDests s h (.qacc o)) h s (doQacc h o s) := by
  unfold doQacc
  have hq : o.mlq.toNat ∈ quireDests h.seg (.qacc o) := List.mem_singleton_self _
  refine vecIssue_frame (fun c hc => line_of_met hc) nofun (fun c t _ => quireFail_within hq t) fun c t hc => ?_
  exact (quirePut_within hq (by simp [quireRun]) t).trans (vecEvents_within vecScope_runs _ _ _ _)

theorem smx_takes {o : FOp} (hout : o.ctl.getLsbD 5 = true) : (smxShape o).Takes (fmtD o.dfmt) (.smx o) := by
  constructor <;> simp only [smxShape, fShape, regDests, hout] <;> cases o.dk <;> simp

/-- The accumulate phase has no register for its results (R165). -/
theorem smx_reg_of_accumulate {o : FOp} (hout : o.ctl.getLsbD 5 = false) : (smxShape o).reg = none := by
  simp only [smxShape, fShape, hout]
  rfl

theorem doSmx_frame (o : FOp) : VecFrame false (vecDests s h (.smx o)) h s (doSmx h o s) := by
  unfold doSmx
  cases hout : o.ctl.getLsbD 5 with
  | true =>
    exact vecIssue_frame (fun c hc => line_of_met hc) (fun r hr => ⟨(smx_takes hout).reg r hr, nofun⟩) (fun c t _ => Within.refl _ t)
      fun c t hc => (rowPut_within rfl _ _ t).trans (vecOut_frame hc rfl (smx_takes hout) rfl (length_vecMap _ _) _)
  | false =>
    have hq : o.lq.toNat ∈ (vecDests s h (.smx o)).quires := by
      show _ ∈ quireDests h.seg (.smx o)
      rw [quireDests, if_neg (by rw [hout]; decide)]
      exact List.mem_singleton_self _
    refine vecIssue_frame (fun c hc => line_of_met hc) (fun r hr => ?_)
      (fun c t _ => (quireFail_within hq t).trans (rowFail_within rfl _ _)) fun c t hc => ?_
    · rw [smx_reg_of_accumulate hout] at hr
      nomatch hr
    · exact (rowPut_within rfl _ _ t).trans ((quirePut_within hq (by simp) _).trans (vecEvents_within vecScope_runs _ _ _ _))

theorem nrm_takes (o : FOp) (hph : o.ctl.toNat / 16 = 2) : (nrmShape o 2).Takes (fmtD o.dfmt) (.nrm o) := by
  cases hdk : o.dk <;> constructor <;> simp [nrmShape, regDests, hph, hdk]

/-- NRM has three phases (R167). -/
theorem nrm_phase {h : IssueHdr} {o : FOp} (hwf : (Instr.nrm h o).wf = true) : o.ctl.toNat / 16 = 0 ∨ o.ctl.toNat / 16 = 1 ∨ o.ctl.toNat / 16 = 2 := by
  simp only [Instr.wf, EOp.ok, EOp.ok05, Bool.and_eq_true, decide_eq_true_eq] at hwf
  obtain ⟨⟨⟨⟨⟨⟨⟨⟨⟨⟨hph, -⟩, -⟩, -⟩, -⟩, -⟩, -⟩, -⟩, -⟩, -⟩, -⟩ := hwf
  omega

theorem nrmAcc_within {o : FOp} {c : Ctx} {D : Dests} (hrows : D.rows = true) (hq : lqOf c.g ∈ D.quires) (hq' : lqOf c.g + 1 ∈ D.quires) (x : VShape) (t : State) :
    Within (vecScope false true D c.k) t (nrmAcc c o x t) := by
  unfold nrmAcc
  exact (rowPut_within hrows _ _ t).trans ((quirePut_within hq (by simp) _).trans ((quirePut_within hq' (by simp) _).trans
    (vecEvents_within vecScope_runs _ _ _ _)))

theorem nrmFin_within {o : FOp} {c : Ctx} {D : Dests} (hrows : D.rows = true) (hr : o.c.toNat ∈ D.regs) (hr' : o.c.toNat + 1 ∈ D.regs) (x : VShape) (t : State) :
    Within (vecScope false true D c.k) t (nrmFin c o x t) := by
  unfold nrmFin
  extract_lets q sk rms rs l extra mk' p negs s1 s2 s3 s4
  have hnegs : Within (vecScope false true D c.k) t s1 :=
    whenS_within (fun u => ((vecScope_runs.numevReg 0x88).finc _ _ _ u).trans (raise_within (vecScope_runs.numevReg 0x10) _ _)) t
  exact hnegs.trans ((lanePut_within hr (by simp [rs]) _).trans ((lanePut_within hr' (by simp [rs]) _).trans
    ((rowPut_within hrows _ _ _).trans (vecEvents_within vecScope_runs _ _ _ _))))

theorem doNrm_frame {o : FOp} (hwf : (Instr.nrm h o).wf = true) : VecFrame false (vecDests s h (.nrm o)) h s (doNrm h o s) := by
  unfold doNrm
  rcases nrm_phase hwf with hph | hph | hph <;> rw [hph]
  · have hq : (vecDests s h (.nrm o)).quires = [lqOf h.seg, lqOf h.seg + 1] := if_pos hph
    have hmem : lqOf h.seg ∈ (vecDests s h (.nrm o)).quires ∧ lqOf h.seg + 1 ∈ (vecDests s h (.nrm o)).quires := by simp [hq]
    refine vecIssue_frame (fun c hc => line_of_met hc) nofun
      (fun c t _ => (quireFail_within hmem.2 t).trans ((quireFail_within hmem.1 _).trans (rowFail_within rfl _ _))) fun c t hc => ?_
    obtain ⟨-, -, -, -, -, hg, -⟩ := issue_some hc
    rw [← hg] at hmem
    exact nrmAcc_within rfl hmem.1 hmem.2 _ t
  · have hregs : (vecDests s h (.nrm o)).regs = [o.c.toNat, o.c.toNat + 1] := if_pos hph
    have hmem : o.c.toNat ∈ (vecDests s h (.nrm o)).regs ∧ o.c.toNat + 1 ∈ (vecDests s h (.nrm o)).regs := by simp [hregs]
    refine vecIssue_frame (fun c hc => line_of_met hc) nofun (fun c t _ => ?_) fun c t _ => nrmFin_within rfl hmem.1 hmem.2 _ t
    rw [if_neg (by decide), if_pos rfl]
    refine lanes_within { lane := fun r i hi hr => ?_ }
    dsimp only
    refine tabGet_foldl_of_kept _ (fun u l hl => ?_) _
    rw [List.mem_range] at hl
    rw [tabGet_tabMod, if_neg (lane_ne hl hi fun hx : r = o.c.toNat + 1 => hr (hx ▸ hmem.2)), tabGet_tabMod, if_neg (lane_ne hl hi fun hx : r = o.c.toNat => hr (hx ▸ hmem.1))]
  · exact vecIssue_frame (fun c hc => line_of_met hc) (fun r hr => ⟨(nrm_takes o hph).reg r hr, nofun⟩) (fun c t _ => Within.refl _ t)
      fun c t hc => vecOut_frame hc (by rw [vecShape, hph]) (nrm_takes o hph) rfl (length_vecMap _ _) t

theorem doVec_frame {o : EOp} (hvec : (vecShape s h o).isSome = true) (hload : vecLoads s h o = true) :
    VecFrame (slotCvt o) (vecDests s h o) h s (doVec h o s) := by
  have hwf : (o.instr h).wf = true := (Bool.and_eq_true_iff.1 hload).1
  cases o with
  | vop o => exact doVop_frame h s o
  | vred o => exact doVred_frame h s hwf
  | cvt o => exact doCvt_frame h s o
  | sfn o => exact doSfn_frame h s o
  | gact o => exact doGact_frame h s o
  | smx o => exact doSmx_frame h s o
  | nrm o => exact doNrm_frame h s hwf
  | qclr o => exact doQclr_frame h s o
  | qmac o => exact doQmac_frame h s o
  | qacc o => exact doQacc_frame h s o
  | qrnd o => exact doQrnd_frame h s o
  | _ => nomatch hvec

end

/-! ### The frame -/

theorem Within.machineKept {S : Scope} {s t : State} (h : Within S s t) : machineKept s t := by
  have hrest := h.rest
  have hkept {α : Type} (f : State → α) : f t.rest = f s.rest := congrArg f hrest
  exact ⟨hkept State.pending, hkept State.tick, hkept State.refTick, hkept State.ftimeAt, hkept State.phaseK, hkept State.shadow,
    hkept State.captured, hkept State.hiLatch, hkept State.hiLatchSb, hkept State.env, hkept State.stagedLo, hkept State.zones,
    hkept State.store, hkept State.cat, hkept State.accs, hkept State.sec, hkept State.nd, hkept State.cur, hkept State.aperture⟩

/-- Settles O23: every vector instruction stays in its scope (`doVec_frame`), which names its destinations where no bit error strikes
and its engine where one does. -/
theorem vectorFrame : Obligations.VectorFrame := by
  intro h o s t hvec hexec
  rw [exec_vec hvec] at hexec
  obtain ⟨hload, rfl⟩ := gate_next hexec
  obtain ⟨hquiet, hupset, -⟩ := doVec_frame h s hvec hload
  have hkept {α : Type} (f : State → α) : f (doVec h o s).rest = f s.rest := congrArg f hupset.rest
  refine ⟨hupset.machineKept, hupset.bytes, hkept State.abfs, hkept State.xfers, hkept State.chains, hkept State.sent, hkept State.hubs,
    hkept State.nextXfer, hkept State.ready, fun hcvt => hupset.stats ?_, fun k' hk hx => (hupset.engs k').2 hk hx, fun hu => ?_⟩
  · cases o with
    | cvt d => exact hcvt d rfl
    | _ => rfl
  have hin := hquiet hu
  have hsame := hin.engs (storeKey s h.leng.toNat)
  change ite _ _ _ at hsame
  rw [if_pos rfl] at hsame
  obtain ⟨hspares, -⟩ := hsame
  refine ⟨fun k' hk => ?_, hspares.arr, hspares.slots, fun p h0 h7 herr hvil => hin.pages p ?_, hspares.lanes.lane, hspares.lanes.quire,
    hspares.lanes.mask, fun hrows q l => ?_, fun a hholds ha => hspares.data a fun hline => ha (hline hholds)⟩
  · have hother := hin.engs k'
    change ite _ _ _ at hother
    rwa [if_neg hk] at hother
  · rintro (hp | hp | hp | hp)
    · exact h0 hp
    · exact h7 hp
    · exact herr hp
    · exact hvil hp
  · have hno : keepsRows o = false := by
      cases o with
      | smx d => exact absurd rfl (hrows d).1
      | nrm d => exact absurd rfl (hrows d).2
      | _ => rfl
    exact congrArg (fun m => tabGet (fun _ => {}) m (64 * q + l)) (hspares.lanes.row hno)

end Sys2Proof.Machine
end

