-- ==== Sys2Proof/Proofs/VectorResults.lean ====
section
/-! PROOF. The elements that vector instructions put into their lane registers and streams (R141, R145, R150, R197). -/

namespace Sys2Proof.Machine

-- One proof at a time, as in the tests: proofs that wait for one another would each hold a stack.
set_option Elab.async false

/-! ### Values that a change keeps -/

section
variable {s t : State} (h : Within markScope s t)
include h

theorem Within.laneValue (k r l : Nat) : (laneGet t k r l).value = (laneGet s k r l).value := (h.engs k).2.1.lane (64 * r + l)

theorem Within.laneTag (k r l : Nat) : (laneGet t k r l).tag = (laneGet s k r l).tag := (congrArg LaneVal.tag (h.laneValue k r l) : (laneGet t k r l).value.tag = (laneGet s k r l).value.tag)

theorem Within.laneBits (k r l : Nat) : (laneGet t k r l).bits = (laneGet s k r l).bits := (congrArg LaneVal.bits (h.laneValue k r l) : (laneGet t k r l).value.bits = (laneGet s k r l).value.bits)

theorem Within.laneOp (k r l : Nat) : laneOp t k r l = laneOp s k r l := by
  unfold Machine.laneOp vInAt
  simp only [h.laneTag, h.laneBits]
  rfl

theorem Within.quireGet (k q l : Nat) : quireGet t k q l = quireGet s k q l :=
  congrArg (fun m => tabGet (fun _ => ({} : LaneQ)) m (64 * q + l)) (h.engs k).2.1.lq

theorem Within.maskGet (k q : Nat) : maskGet t k q = maskGet s k q :=
  congrArg (fun m => tabGet (fun _ => ({} : MaskR)) m q) (h.engs k).2.1.masks

theorem Within.rowValue (k q l : Nat) : (rowGet t k q l).value = (rowGet s k q l).value := (h.engs k).2.1.row (64 * q + l)

theorem Within.line (k a : Nat) : (cRead t k a).1 = (cRead s k a).1 := cRead_congr (h.engs k).2.2 a

theorem Within.core : Keeps Eng.core s t := h.keepsCore fun _ _ _ he => he.1

end

/-! ### The effect of an instruction that issues -/

section
variable {h : IssueHdr} {x : VShape} {s s1 : State} {c : Ctx}

theorem exec_vec_next {o : EOp} (hvec : (vecShape s h o).isSome = true) (hload : vecLoads s h o = true) :
    exec (o.instr h) s = .next (doVec h o s) := by
  rw [exec_vec hvec, hload, gate_true]

theorem vecIssue_of_ready {extra : State → Ctx → Nat} {fail body : Ctx → State → State} (hc : issue .vector 0 h s = some c)
    (hfault : x.fault extra c = 0) (hs1 : otherClaims c.k c.cyc (x.claims c) c.s = some s1) :
    vecIssue h x extra fail body s = x.sfuHits h c (busyTo c.k c.g (c.cyc + x.last + x.n * x.rate) (body c (x.start c s1))) := by
  unfold vecIssue issued
  rw [hc]
  dsimp only
  rw [if_neg (not_not.2 hfault), hs1]

/-- An instruction without a stream source takes no port for reads. -/
theorem otherClaims_of_noReads (hreads : x.reads = 0) : ∃ s1, otherClaims c.k c.cyc (x.claims c) c.s = some s1 := by
  have hnone : x.claims c = [] := by simp [VShape.claims, hreads]
  rw [hnone]
  exact ⟨_, rfl⟩

/-- The unit takes an instruction: no value changes. -/
theorem start_values (hs1 : otherClaims c.k c.cyc (x.claims c) c.s = some s1) : Within markScope c.s (x.start c s1) :=
  (otherClaims_within (markScope_runs c.k) hs1).trans (start_within (markScope_runs c.k) x s1)

/-- What follows an instruction's effect changes no value. -/
theorem finish_values (t : State) (n : Nat) : Within markScope t (x.sfuHits h c (busyTo c.k c.g n t)) :=
  (busyTo_within (markScope_runs c.k) _ _ t).trans (sfuHits_values x h c _)

theorem doVec_pcMoved {o : EOp} (hvec : (vecShape s h o).isSome = true) (hload : vecLoads s h o = true) (hc : issue .vector 0 h s = some c) :
    pcMoved s (doVec h o s) h := pcMoved_of_keeps hc ((doVec_frame h s hvec hload).core c hc)

end

/-! ### Lanes put into a register, lines put into a stream -/

theorem tabGet_putLanes_self {α β : Type} [DecidableEq α] (d : Nat → α) {F : β × Nat → α} {l : List β} {i : Nat} {e : β} (he : l[i]? = some e)
    (r : Nat) (t : Tab α) : tabGet d (l.zipIdx.foldl (fun t e => tabSet d t (64 * r + e.2) (F e)) t) (64 * r + i) = F (e, i) := by
  have hkeys : (l.zipIdx.map fun e => 64 * r + e.2).Nodup := by
    have hmap : (l.zipIdx.map fun e => 64 * r + e.2) = (l.zipIdx.map Prod.snd).map (64 * r + ·) := by rw [List.map_map]; rfl
    rw [hmap]
    exact (List.nodup_zipIdx_map_snd l).map (fun a b hab => Nat.add_left_cancel hab)
  exact tabGet_foldl_tabSet d (fun e : β × Nat => 64 * r + e.2) F _ t hkeys (e := (e, i)) (List.mem_zipIdx_iff_getElem?.2 he)

theorem perLine_pos (f : Fmt) : 0 < f.perLine := by cases f <;> decide

/-- A line that its elements fill, or whose rest is not kept, is packed of them (R34, R141). -/
theorem getElem?_packStream (s : State) (k line : Nat) (f : Fmt) (keep : Bool) {fuel j : Nat} (i : Nat) {l : List (Nat × Mark)} (hj : j * f.perLine < l.length)
    (hfull : keep = true → (j + 1) * f.perLine ≤ l.length) (hfuel : j < fuel) :
    ∃ m, (packStream s k line f keep fuel i l)[j]? = some (packLine f (((l.map (·.1)).drop (j * f.perLine)).take f.perLine), m) := by
  induction fuel generalizing i j l with
  | zero => omega
  | succ fuel ih =>
    unfold packStream
    cases l with
    | nil => exact absurd hj (Nat.not_lt_zero _)
    | cons e l =>
      cases j with
      | zero =>
        have hwhole : decide (((e :: l).take f.perLine).length = f.perLine) = true ∨ (!keep) = true := by
          cases keep with
          | false => exact .inr rfl
          | true => exact .inl (by simpa [List.length_take] using hfull rfl)
        dsimp only
        rw [List.getElem?_cons_zero, if_pos hwhole, List.map_take, Nat.zero_mul, List.drop_zero]
        exact ⟨_, rfl⟩
      | succ j =>
        have hlen : ((e :: l).drop f.perLine).length = (e :: l).length - f.perLine := List.length_drop
        rw [Nat.succ_mul] at hj
        obtain ⟨m, hm⟩ := ih (j := j) (i + 1) (l := (e :: l).drop f.perLine) (by omega) (fun hk => by
          have := hfull hk
          rw [Nat.succ_mul (j + 1)] at this
          omega) (by omega)
        refine ⟨m, ?_⟩
        dsimp only
        rw [List.getElem?_cons_succ, hm, List.map_drop, List.drop_drop, Nat.succ_mul, Nat.add_comm f.perLine]

/-- With no window open every line of a stream is written (R197). -/
theorem line_writeLines {c : Ctx} {s : State} (hopen : (eng s c.k).openH = []) (line : Nat) {ls : List (Line × Mark)} (wc : Nat → Nat) {i : Nat}
    {l : Line × Mark} (hl : ls[i]? = some l) : (cRead (c.writeLines line ls wc s) c.k (line + i)).1 = l.1 := by
  have hopen' : (eng (keepOld c line ls.length wc s) c.k).openH = [] := ((keepOld_keeps (π := Eng.openH) c line ls.length wc s).engs c.k).trans hopen
  unfold Ctx.writeLines
  dsimp only
  rw [foldS_writeLine_of_noWindow _ _ _ _ hopen', cRead_congr ((noteLines_books _ _ _ _ _).coreLines.carrel c.k)]
  have hput := cRead_putLines c.k line (segMark s c.k c.g) ls 0 (keepOld c line ls.length wc s) hl
  rwa [Nat.zero_add] at hput

/-- Events touch of an engine the notes of the instruction under way. -/
theorem vecTell_keeps {π : Eng → Eng} (x : VShape) (c : Ctx) (fl : Flags) (ev : Option (Nat × Nat × Nat × Nat)) (reads : Mark) (s : State)
    (hπ : ∀ e v, π { e with vec := v } = π e := by intros; rfl) : Keeps π s (vecTell x c fl ev reads s) := by
  have hnote (f : VecRun → VecRun) (s : State) : Keeps π s (runNote c.k f s) := engMod_keeps _ _ _ fun e => hπ e _
  unfold vecTell
  extract_lets pol s1 s2 s3 t
  have hrec : Keeps π s1 s2 := by
    simp only [s2]
    split
    · split
      · exact Keeps.refl _ s1
      · exact (vecRecord_logOnly _ _ _ _ _ _ _ _ s1).keeps.trans (hnote _ _)
    · exact Keeps.refl _ s1
  have htrap : Keeps π s2 s3 := whenS_keeps (fun s => (numTrap_keeps _ _ _ s).trans (hnote _ _)) s2
  exact ((countFlags_logOnly _ _ s).keeps.trans (hnote _ _)).trans (hrec.trans (htrap.trans ((consume_keeps _ _ _ _ _ s3).trans
    (whenS_keeps (hnote _) t))))

/-! ### Delivery -/

/-- Words stand in the destination of a shape: in the lanes of its register, or where no window was open in `u` in the lines of its
stream. -/
structure Delivered (x : VShape) (c : Ctx) (f : Fmt) (ws : List Nat) (u t : State) : Prop where
  lanes : ∀ r, x.reg = some r → ∀ i, i < (if x.red then x.n else 64) → (laneGet t c.k r i).value =
    { tag := some f, bits := BitVec.ofNat 32 (ws.getD i 0), ready := c.cyc + x.first + (if x.red then i * x.rate else 0) + 1 }
  lines : ∀ p, x.d = some p → (eng u c.k).openH = [] → ∀ i, i < (if x.red then x.dLines else 64 * x.n / f.perLine) →
    (cRead t c.k ((x.bases c).2.2.toNat + i)).1 = packLine f ((ws.drop (i * f.perLine)).take f.perLine)

section
variable {x : VShape} {c : Ctx} {f : Fmt} {ws : List Nat} {u t t' : State}

theorem Delivered.of_within (h : Delivered x c f ws u t) (hin : Within markScope t t') : Delivered x c f ws u t' where
  lanes r hr i hi := (hin.laneValue c.k r i).trans (h.lanes r hr i hi)
  lines p hp hopen i hi := (hin.line c.k _).trans (h.lines p hp hopen i hi)

theorem Delivered.of_openH {u' : State} (h : Delivered x c f ws u t) (hopen : (eng u c.k).openH = (eng u' c.k).openH) : Delivered x c f ws u' t where
  lanes := h.lanes
  lines p hp ho := h.lines p hp (hopen.trans ho)

/-- The Carrel's open windows. -/
def Eng.windows (e : Eng) : Eng := { openH := e.openH }

theorem Keeps.openH (h : Keeps Eng.windows t t') (k : Nat) : (eng t' k).openH = (eng t k).openH :=
  (congrArg Eng.openH (h.engs k) : (eng t' k).windows.openH = (eng t k).windows.openH)

/-- The elements of whole vectors, put out by an instruction without a reduction. -/
theorem vecOut_delivers {l : List VRes} (hred : x.red = false) (hn : 0 < x.n) (hl : l.length = 64 * x.n) {o : EOp} (htakes : x.Takes f o) :
    Delivered x c f (l.map (·.word)) t (vecOut x f l c t) where
  lanes r hr i hi := by
    rw [hred] at hi ⊢
    replace hi : i < 64 := hi
    obtain ⟨e, he⟩ : ∃ e, l[i]? = some e := ⟨_, List.getElem?_eq_getElem (by omega)⟩
    have hword : (l.map (·.word)).getD i 0 = e.word := by simp [List.getD, he]
    rw [hword]
    unfold vecOut vecPut
    extract_lets extra
    rcases x.bases c with ⟨a, b, d⟩
    dsimp only
    rw [hr]
    unfold laneGet vecMod
    rw [eng_engMod, if_pos rfl]
    dsimp only
    rw [tabGet_putLanes_self _ (e := e) (by rw [List.getElem?_take, if_pos hi, he])]
    rfl
  lines p hp hopen i hi := by
    rw [hred] at hi
    replace hi : i < 64 * x.n / f.perLine := hi
    have hpos := perLine_pos f
    have hfull : (i + 1) * f.perLine ≤ l.length := by
      rw [hl]
      exact (Nat.le_div_iff_mul_le hpos).1 hi
    unfold vecOut vecPut
    extract_lets extra vm marks els
    rcases hbases : x.bases c with ⟨a, b, d⟩
    dsimp only
    rw [(htakes.alone p hp).1]
    have hels : els.map (·.1) = l.map (·.word) := by
      conv_rhs => rw [← List.zipIdx_map_fst 0 l, List.map_map]
      exact List.map_map
    have hlen : els.length = l.length := by simp [els]
    obtain ⟨m, hm⟩ := getElem?_packStream (vecEvents x c l (readMarks l) t) c.k d.toNat f true 0 (l := els) (j := i) (fuel := els.length + 1)
      (by rw [hlen]; rw [Nat.succ_mul] at hfull; omega) (fun _ => hlen ▸ hfull) (by
        have := Nat.le_mul_of_pos_right i hpos
        rw [hlen]; rw [Nat.succ_mul] at hfull; omega)
    rw [hels] at hm
    exact line_writeLines (((vecTell_keeps _ _ _ _ _ t).openH c.k).trans hopen) _ _ hm

end

section
variable {h : IssueHdr} {x : VShape} {s s1 : State} {c : Ctx} {f : Fmt} {ws : List Nat}

theorem vecIssue_delivers {extra : State → Ctx → Nat} {fail body : Ctx → State → State} (hc : issue .vector 0 h s = some c)
    (hfault : x.fault extra c = 0) (hs1 : otherClaims c.k c.cyc (x.claims c) c.s = some s1)
    (hbody : Delivered x c f ws (x.start c s1) (body c (x.start c s1))) : Delivered x c f ws (x.start c s1) (vecIssue h x extra fail body s) := by
  rw [vecIssue_of_ready hc hfault hs1]
  exact hbody.of_within (finish_values _ _)

/-- The lines that elements take are no more than they begin (R34). -/
theorem mul_perLine_lt_of_lt_linesOf {n i : Nat} (hi : i < linesOf f n) : i * f.perLine < n := by
  have hw : f.width * f.perLine = 512 := width_mul_perLine f
  have hpos : 0 < f.width := by cases f <;> decide
  unfold linesOf at hi
  refine Nat.lt_of_mul_lt_mul_right (a := f.width) ?_
  rw [Nat.mul_assoc, Nat.mul_comm f.perLine, hw]
  omega

end

section
variable {h : IssueHdr} {s s1 : State} {c : Ctx} (hc : issue .vector 0 h s = some c)
include hc

theorem doVop_delivers {o : VOp} (hcmp : vopCmp.contains o.func.toNat = false) (hfault : (vopShape o).fault (vopBad o) c = 0)
    (hs1 : otherClaims c.k c.cyc ((vopShape o).claims c) c.s = some s1) :
    Delivered (vopShape o) c (fmtD o.dfmt) ((vopEls o ((vopShape o).start c s1) c).map (·.word)) ((vopShape o).start c s1) (doVop h o s) := by
  unfold doVop
  refine vecIssue_delivers hc hfault hs1 ?_
  dsimp only
  rw [if_neg (by rw [hcmp]; decide)]
  exact vecOut_delivers rfl (Nat.succ_pos _) (length_vecMap _ _) (vop_takes hcmp)

theorem doVred_delivers {o : VOp} (hfault : (vredShape o).fault (vredBad o) c = 0)
    (hs1 : otherClaims c.k c.cyc ((vredShape o).claims c) c.s = some s1) :
    Delivered (vredShape o) c (fmtD o.dfmt) (((vredEls o ((vredShape o).start c s1) c).map (·.1)).map (·.word)) ((vredShape o).start c s1)
      (doVred h o s) := by
  unfold doVred
  refine vecIssue_delivers hc hfault hs1 ?_
  extract_lets rs l extra t f els
  have hl : l.length = (vredShape o).n := by simp [l, rs, vredEls, vredShape]
  constructor
  · intro r hr i hi
    replace hi : i < (vredShape o).n := hi
    obtain ⟨e, he⟩ : ∃ e, l[i]? = some e := ⟨_, List.getElem?_eq_getElem (by omega)⟩
    have hword : (l.map (·.word)).getD i 0 = e.word := by simp [List.getD, he]
    rw [hword]
    rcases (vredShape o).bases c with ⟨a, b, d⟩
    dsimp only
    rw [hr]
    unfold laneGet vecMod
    rw [eng_engMod, if_pos rfl]
    dsimp only
    rw [tabGet_putLanes_self _ he]
    rfl
  · intro p hp hopen i hi
    obtain ⟨hnone, hfmt⟩ := (vred_takes o).alone p hp
    replace hi : i < (vredShape o).dLines := hi
    have hbegun : i * f.perLine < l.length := by
      rw [hl]
      unfold VShape.dLines at hi
      rw [hp] at hi
      replace hi : i < linesOf p.2 (vredShape o).n := hi
      rw [hfmt] at hi
      exact mul_perLine_lt_of_lt_linesOf hi
    rcases hbases : (vredShape o).bases c with ⟨a, b, d⟩
    dsimp only
    rw [hnone]
    have hels : els.map (·.1) = l.map (·.word) := List.map_map
    have hlen : els.length = l.length := by simp [els]
    obtain ⟨m, hm⟩ := getElem?_packStream t c.k d.toNat f false 0 (l := els) (j := i) (fuel := els.length + 1) (hlen ▸ hbegun) nofun (by
      have := Nat.le_mul_of_pos_right i (perLine_pos f)
      omega)
    rw [hels] at hm
    exact line_writeLines (((vecTell_keeps _ _ _ _ _ _).openH c.k).trans hopen) _ _ hm

theorem doCvt_delivers {o : XOp} (hfault : (cvtShape o).fault (cvtBad o) c = 0) (hs1 : otherClaims c.k c.cyc ((cvtShape o).claims c) c.s = some s1)
    (hvalid : (o.sen && !(slotGet ((cvtShape o).start c s1) c.k o.slot.toNat).valid) = false) :
    Delivered (cvtShape o) c (fmtD o.dfmt) ((cvtEls o (cvtX ((cvtShape o).start c s1) c o).1
      (if o.sen then (slotGet ((cvtShape o).start c s1) c.k o.slot.toNat).mark ||| (cvtX ((cvtShape o).start c s1) c o).2.2 else 0)
        ((cvtShape o).start c s1) c).map (·.word)) ((cvtShape o).start c s1) (doCvt h o s) := by
  unfold doCvt
  refine vecIssue_delivers hc hfault hs1 ?_
  extract_lets sl m t
  rcases (cvtShape o).bases c with ⟨a, b, d⟩
  rcases cvtX ((cvtShape o).start c s1) c o with ⟨ex, adj, pm⟩
  dsimp -zeta only
  rw [if_neg (c := (o.sen && !sl.valid) = true) (by rw [hvalid]; decide)]
  extract_lets sm srcs t
  have hout : Delivered (cvtShape o) c (fmtD o.dfmt) (srcs.map (·.word)) ((cvtShape o).start c s1) t :=
    vecOut_delivers rfl (Nat.succ_pos _) (length_vecMap _ _) (cvt_takes o)
  refine hout.of_within ?_
  split
  · exact Within.refl _ t
  split
  · exact (books_within (markScope_runs c.k) _ t).trans (busyTo_within (markScope_runs c.k) _ _ _)
  · exact tagClear_within (markScope_runs c.k) _ t

theorem doSfn_delivers {o : FOp} {cp : Bool} (hcp : cp = compatOf s h.leng.toNat h.seg) (hfault : (sfnShape o cp s).fault (fBad o cp (ninTwo s o.ctl cp)) c = 0)
    (hs1 : otherClaims c.k c.cyc ((sfnShape o cp s).claims c) c.s = some s1) :
    Delivered (sfnShape o cp s) c (fmtD o.dfmt) ((sfnEls o cp (sfnShape o cp s) ((sfnShape o cp s).start c s1) c).map (·.word))
      ((sfnShape o cp s).start c s1) (doSfn h o s) := by
  subst hcp
  unfold doSfn
  refine vecIssue_delivers hc hfault hs1 ?_
  exact vecOut_delivers rfl (Nat.succ_pos _) (length_vecMap _ _) (sfn_takes s o _)

theorem doGact_delivers {o : FOp} {cp : Bool} (hcp : cp = compatOf s h.leng.toNat h.seg) (hfault : (gactShape o cp s).fault (fBad o cp true) c = 0)
    (hs1 : otherClaims c.k c.cyc ((gactShape o cp s).claims c) c.s = some s1) :
    Delivered (gactShape o cp s) c (fmtD o.dfmt) ((gactEls o cp (gactShape o cp s) ((gactShape o cp s).start c s1) c).map (·.word))
      ((gactShape o cp s).start c s1) (doGact h o s) := by
  subst hcp
  unfold doGact
  refine vecIssue_delivers hc hfault hs1 ?_
  exact vecOut_delivers rfl (Nat.succ_pos _) (length_vecMap _ _) (gact_takes s o _)

theorem doSmx_delivers {o : FOp} (hphase : o.ctl.getLsbD 5 = true) (hfault : (smxShape o).fault (smxBad o) c = 0)
    (hs1 : otherClaims c.k c.cyc ((smxShape o).claims c) c.s = some s1) :
    Delivered (smxShape o) c (fmtD o.dfmt) ((smxEls o (!r77 ((smxShape o).start c s1) h.leng.toNat h.seg) ((smxShape o).start c s1) c).map (·.word))
      ((smxShape o).start c s1) (doSmx h o s) := by
  unfold doSmx
  refine vecIssue_delivers hc hfault hs1 ?_
  dsimp only
  rw [if_pos hphase]
  refine (vecOut_delivers rfl (Nat.succ_pos _) (length_vecMap _ _) (smx_takes hphase)).of_openH ?_
  exact (engMod_keeps (π := Eng.openH) _ _ _).engs c.k

theorem doNrm_delivers {o : FOp} (hph : o.ctl.toNat / 16 = 2) (hfault : (nrmShape o 2).fault (nrmBad o 2) c = 0)
    (hs1 : otherClaims c.k c.cyc ((nrmShape o 2).claims c) c.s = some s1) :
    Delivered (nrmShape o 2) c (fmtD o.dfmt) ((nrmEls o ((nrmShape o 2).start c s1) c).map (·.word)) ((nrmShape o 2).start c s1) (doNrm h o s) := by
  unfold doNrm
  rw [hph]
  refine vecIssue_delivers hc hfault hs1 ?_
  exact vecOut_delivers rfl (Nat.succ_pos _) (length_vecMap _ _) (nrm_takes o hph)

theorem doQrnd_delivers {o : VOp} (hfault : (qrndShape o).fault (qrndBad o) c = 0) (hs1 : otherClaims c.k c.cyc ((qrndShape o).claims c) c.s = some s1) :
    Delivered (qrndShape o) c (fmtD o.dfmt) ((qrndEls o ((qrndShape o).start c s1) c).map (·.word)) ((qrndShape o).start c s1) (doQrnd h o s) := by
  unfold doQrnd
  refine vecIssue_delivers hc hfault hs1 ?_
  exact vecOut_delivers rfl (Nat.succ_pos _) (length_vecMap _ _) (qrnd_takes o)

/-- What an instruction puts out stands in its destination. -/
theorem doVec_delivers {o : EOp} {x : VShape} {f : Fmt} {l : List VRes} (hx : vecShape s h o = some x) (hfault : x.fault (vecBad s h o) c = 0)
    (hs1 : otherClaims c.k c.cyc (x.claims c) c.s = some s1) (hout : vecOuts s h (x.start c s1) c o = some (f, l)) :
    Delivered x c f (l.map (·.word)) (x.start c s1) (doVec h o s) := by
  cases o with
  | vop o =>
    cases hx
    change ite _ _ _ = _ at hout
    split at hout
    · nomatch hout
    · next hcmp =>
      cases hout
      exact doVop_delivers hc (Bool.not_eq_true _ ▸ hcmp) hfault hs1
  | vred o =>
    cases hx
    cases hout
    exact doVred_delivers hc hfault hs1
  | cvt o =>
    cases hx
    change ite _ _ _ = _ at hout
    split at hout
    · nomatch hout
    · next hvalid =>
      cases hout
      exact doCvt_delivers hc hfault hs1 (Bool.not_eq_true _ ▸ hvalid)
  | sfn o =>
    cases hx
    cases hout
    exact doSfn_delivers hc rfl hfault hs1
  | gact o =>
    cases hx
    cases hout
    exact doGact_delivers hc rfl hfault hs1
  | smx o =>
    cases hx
    change ite _ _ _ = _ at hout
    split at hout
    · next hphase =>
      cases hout
      exact doSmx_delivers hc hphase hfault hs1
    · nomatch hout
  | nrm o =>
    change ite _ _ _ = _ at hout
    split at hout
    · next hph =>
      cases hout
      simp only [vecShape, vecBad, hph] at hx hfault
      cases hx
      exact doNrm_delivers hc hph hfault hs1
    · nomatch hout
  | qrnd o =>
    cases hx
    cases hout
    exact doQrnd_delivers hc hfault hs1
  | _ => nomatch hout

end

end Sys2Proof.Machine
end

