-- ==== Sys2Proof/Proofs/VectorElements.lean ====
section
/-! PROOF. The elements of vector instructions on lane registers: VOP's value functions and compares (R144, R145). -/

namespace Sys2Proof.Machine

-- One proof at a time, as in the tests: proofs that wait for one another would each hold a stack.
set_option Elab.async false

/-! ### One vector -/

/-- An element of one vector. -/
theorem getElem?_vecMap_one {n l : Nat} (hn : n = 1) (hl : l < 64) (g : Nat → Nat → VRes) : (vecMap n g)[l]? = some (g 0 l) := by
  subst hn
  simp [vecMap, hl]

theorem word_vecMap_one {n l : Nat} (hn : n = 1) (hl : l < 64) (g : Nat → Nat → VRes) : ((vecMap n g).map (·.word)).getD l 0 = (g 0 l).word := by
  rw [List.getD, List.getElem?_map, getElem?_vecMap_one hn hl]
  rfl

/-- What an instruction delivers into a lane of its register. -/
theorem Delivered.lane {x : VShape} {c : Ctx} {f : Fmt} {ws : List Nat} {u t : State} (h : Delivered x c f ws u t) (hred : x.red = false) {r : Nat}
    (hr : x.reg = some r) {l : Nat} (hl : l < 64) : (laneGet t c.k r l).tag = some f ∧ (laneGet t c.k r l).ready = c.cyc + x.first + 1 ∧
      (laneGet t c.k r l).bits = BitVec.ofNat 32 (ws.getD l 0) := by
  have hvalue := h.lanes r hr l (by rw [hred]; exact hl)
  rw [hred] at hvalue
  exact ⟨(congrArg LaneVal.tag hvalue : (laneGet t c.k r l).value.tag = _), (congrArg LaneVal.ready hvalue : (laneGet t c.k r l).value.ready = _),
    (congrArg LaneVal.bits hvalue : (laneGet t c.k r l).value.bits = _)⟩

/-- An instruction without a stream source takes no port for reads. -/
theorem ready_of_noStreams {x : VShape} {c : Ctx} (ha : x.a = none) (hb : x.b = none) : ∃ s1, otherClaims c.k c.cyc (x.claims c) c.s = some s1 :=
  otherClaims_of_noReads (by unfold VShape.reads; rw [ha, hb]; rfl)

theorem strm_of_reg (a : BitVec 17) (f : BitVec 4) {k : Bool} (hk : k = true) : strm k a f = none := if_pos hk

/-! ### VOP -/

section
variable {o : VOp} {c : Ctx} {l : Nat}

/-- The first operand of a VOP on a lane, in its work format. -/
def vopArgA (o : VOp) (u : State) (k l : Nat) : FVal := toWork (fmtD o.wfmt) (laneOp u k o.a.toNat l)

/-- The second operand, zero where the function has none. -/
def vopArgB (o : VOp) (u : State) (k l : Nat) : FVal :=
  if vopBin.contains o.func.toNat then toWork (fmtD o.wfmt) (laneOp u k o.b.toNat l) else toWork (fmtD o.wfmt) .zero

/-- The third operand, which only FMA has. -/
def vopArgC (o : VOp) (u : State) (k l : Nat) : FVal := if o.func = 3 then laneOp u k o.c.toNat l else .zero

theorem vop_ready (hak : o.ak = true) (hbk : o.bk = true) : ∃ s1, otherClaims c.k c.cyc ((vopShape o).claims c) c.s = some s1 := by
  refine ready_of_noStreams (strm_of_reg _ _ hak) ?_
  show (if _ then strm o.bk o.b o.bfmt else none) = none
  rw [strm_of_reg _ _ hbk, ite_self]

/-- An element of a VOP on lane registers. -/
theorem getElem?_vopEls (u : State) (hn : o.nm1 = 0) (hak : o.ak = true) (hbk : o.bk = true) (hl : l < 64) :
    ∃ e, (vopEls o u c)[l]? = some e ∧
      (vopCmp.contains o.func.toNat = true →
        e.word = b2n (cmpVal o.func.toNat (decide (fmtD o.wfmt = .fp32)) (vopArgA o u c.k l) (vopArgB o u c.k l))) ∧
      (vopCmp.contains o.func.toNat = false → e.word = (roundTo (fmtD o.dfmt) (vopVal o.func.toNat (BitVec.ofNat 8 o.b.toNat).toInt
        (vopArgA o u c.k l) (vopArgB o u c.k l) (vopArgC o u c.k l) ((maskGet u c.k o.mlq.toNat).bits.getLsbD l)).1).1) := by
  have hfma : o.func.toNat = 3 ↔ o.func = 3 := by rw [← BitVec.toNat_inj]; rfl
  unfold vopEls
  rcases (vopShape o).bases c with ⟨a, b, d⟩
  refine ⟨_, getElem?_vecMap_one (by rw [hn]; rfl) hl _, fun hcmp => ?_, fun hcmp => ?_⟩
  · dsimp only
    rw [if_pos hcmp, hak, hbk]
    unfold vopArgB
    split <;> rfl
  · dsimp only
    rw [if_neg (by rw [hcmp]; decide), hak, hbk]
    unfold vopArgB vopArgC
    simp only [← hfma]
    split <;> split <;> rfl

/-! ### A compare's mask -/

/-- A number put together of its bits, bit 0 first. -/
theorem testBit_sum_bits {α : Type} (w : α → Nat) (l : List α) (hw : ∀ e ∈ l, w e < 2) :
    (l.zipIdx.foldl (fun b e => b + w e.1 * 2 ^ e.2) 0) < 2 ^ l.length ∧
      ∀ i e, l[i]? = some e → (l.zipIdx.foldl (fun b e => b + w e.1 * 2 ^ e.2) 0).testBit i = decide (w e = 1) := by
  induction l using List.reverseRecOn with
  | nil => simp
  | append_singleton l e ih =>
    obtain ⟨hlt, hbit⟩ := ih fun a ha => hw a (List.mem_append_left _ ha)
    have hlast : w e < 2 := hw e (List.mem_append_right _ (List.mem_singleton_self e))
    rw [List.zipIdx_append, List.foldl_append, Nat.zero_add]
    simp only [List.zipIdx_singleton, List.foldl_cons, List.foldl_nil]
    generalize List.foldl _ 0 _ = n at hlt hbit ⊢
    refine ⟨?_, fun i a ha => ?_⟩
    · rw [List.length_append, List.length_singleton, Nat.pow_succ]
      have := Nat.mul_le_mul_right (2 ^ l.length) (Nat.le_of_lt_succ hlast)
      omega
    · rw [Nat.add_comm, Nat.mul_comm, Nat.testBit_two_pow_mul_add _ hlt]
      split
      · next hi =>
        rw [List.getElem?_append_left hi] at ha
        exact hbit i a ha
      · next hi =>
        rw [List.getElem?_append_right (by omega)] at ha
        obtain ⟨hi0, rfl⟩ : i - l.length = 0 ∧ e = a := by
          rcases hn : i - l.length with _ | m
          · rw [hn] at ha
            exact ⟨rfl, Option.some.inj ha⟩
          · rw [hn] at ha
            nomatch ha
        rw [hi0]
        have hcases : w e = 0 ∨ w e = 1 := by omega
        rcases hcases with h0 | h1
        · simp [h0]
        · simp [h1]

theorem doVop_mask {h : IssueHdr} {s s1 : State} (hc : issue .vector 0 h s = some c) (hcmp : vopCmp.contains o.func.toNat = true)
    (hfault : (vopShape o).fault (vopBad o) c = 0) (hs1 : otherClaims c.k c.cyc ((vopShape o).claims c) c.s = some s1) (hn : o.nm1 = 0) :
    (maskGet (doVop h o s) c.k o.mlq.toNat).written = true ∧ (maskGet (doVop h o s) c.k o.mlq.toNat).bits = BitVec.ofNat 64
      ((vopEls o ((vopShape o).start c s1) c).zipIdx.foldl (fun b e => b + e.1.word * 2 ^ e.2) 0) := by
  unfold doVop
  rw [vecIssue_of_ready hc hfault hs1, (finish_values _ _).maskGet]
  dsimp only
  rw [if_pos hcmp]
  unfold maskGet vecMod
  rw [eng_engMod, if_pos rfl]
  dsimp only
  rw [tabGet_tabSet_self]
  refine ⟨rfl, ?_⟩
  have hdrop : 64 * ((vopShape o).n - 1) = 0 := by
    show 64 * (o.nm1.toNat + 1 - 1) = 0
    rw [hn]
    rfl
  rw [hdrop, List.drop_zero]

theorem doVop_compare {h : IssueHdr} {s s1 : State} (hc : issue .vector 0 h s = some c) (hcmp : vopCmp.contains o.func.toNat = true)
    (hfault : (vopShape o).fault (vopBad o) c = 0) (hs1 : otherClaims c.k c.cyc ((vopShape o).claims c) c.s = some s1) (hn : o.nm1 = 0)
    (hak : o.ak = true) (hbk : o.bk = true) (hl : l < 64) :
    (maskGet (doVop h o s) c.k o.mlq.toNat).bits.getLsbD l =
      cmpVal o.func.toNat (decide (fmtD o.wfmt = .fp32)) (vopArgA o c.s c.k l) (vopArgB o c.s c.k l) := by
  have hlen : (vopEls o ((vopShape o).start c s1) c).length = 64 := by
    refine (length_vecMap _ _).trans ?_
    rw [hn]
    rfl
  have hbits (e : VRes) (he : e ∈ vopEls o ((vopShape o).start c s1) c) : e.word < 2 := by
    obtain ⟨i, hi⟩ := List.getElem?_of_mem he
    have hi64 : i < 64 := hlen ▸ (List.getElem?_eq_some_iff.1 hi).1
    obtain ⟨e', he', hword, -⟩ := getElem?_vopEls (c := c) ((vopShape o).start c s1) hn hak hbk hi64
    rw [hi] at he'
    rw [Option.some.inj he', hword hcmp, b2n]
    split <;> decide
  obtain ⟨e, he, hword, -⟩ := getElem?_vopEls (c := c) ((vopShape o).start c s1) hn hak hbk hl
  rw [(doVop_mask hc hcmp hfault hs1 hn).2, BitVec.getLsbD_ofNat, (testBit_sum_bits VRes.word _ hbits).2 l e he, hword hcmp]
  have hvalues := start_values hs1
  have hA : vopArgA o ((vopShape o).start c s1) c.k l = vopArgA o c.s c.k l := by unfold vopArgA; rw [hvalues.laneOp]
  have hB : vopArgB o ((vopShape o).start c s1) c.k l = vopArgB o c.s c.k l := by unfold vopArgB; rw [hvalues.laneOp]
  rw [hA, hB, decide_eq_true hl, Bool.true_and]
  cases cmpVal _ _ _ _ <;> rfl

theorem doVop_value {h : IssueHdr} {s s1 : State} (hc : issue .vector 0 h s = some c) (hcmp : vopCmp.contains o.func.toNat = false)
    (hfault : (vopShape o).fault (vopBad o) c = 0) (hs1 : otherClaims c.k c.cyc ((vopShape o).claims c) c.s = some s1) (hn : o.nm1 = 0)
    (hak : o.ak = true) (hbk : o.bk = true) (hdk : o.dk = true) (hl : l < 64) :
    (laneGet (doVop h o s) c.k (o.d.toNat % 16) l).tag = some (fmtD o.dfmt) ∧ (laneGet (doVop h o s) c.k (o.d.toNat % 16) l).ready = c.cyc + 8 ∧
      (laneGet (doVop h o s) c.k (o.d.toNat % 16) l).bits = BitVec.ofNat 32 (roundTo (fmtD o.dfmt) (vopVal o.func.toNat
        (BitVec.ofNat 8 o.b.toNat).toInt (vopArgA o c.s c.k l) (vopArgB o c.s c.k l) (vopArgC o c.s c.k l)
        ((maskGet c.s c.k o.mlq.toNat).bits.getLsbD l)).1).1 := by
  have hreg : (vopShape o).reg = some (o.d.toNat % 16) := by
    show (if (!vopCmp.contains o.func.toNat && o.dk) = true then _ else _) = _
    rw [hcmp, hdk]
    rfl
  obtain ⟨htag, hready, hbits⟩ := (doVop_delivers hc hcmp hfault hs1).lane rfl hreg hl
  obtain ⟨e, he, -, hword⟩ := getElem?_vopEls (c := c) ((vopShape o).start c s1) hn hak hbk hl
  have hvalues := start_values hs1
  refine ⟨htag, hready, ?_⟩
  rw [hbits, List.getD, List.getElem?_map, he]
  show BitVec.ofNat 32 e.word = _
  rw [hword hcmp, hvalues.maskGet]
  unfold vopArgA vopArgB vopArgC
  simp only [hvalues.laneOp]

end

/-- Settles O19: a VOP on lane registers is its elements (`doVop_value`, `doVop_compare`), and whatever an instruction puts out is delivered
into its register or stream (`doVec_delivers`). -/
theorem vectorValues : Obligations.VectorValues := by
  refine ⟨fun h o s c hwf hc hn hak hbk hfault => ?_, fun h o s c x s1 u f l hload hc hx hfault hs1 hu hout => ?_⟩
  · have hload : vecLoads s h (.vop o) = true := (Bool.and_true _).trans hwf
    obtain ⟨s1, hs1⟩ := vop_ready (c := c) hak hbk
    exact ⟨fun hcmp hdk => ⟨doVop h o s, exec_vec_next rfl hload, doVec_pcMoved rfl hload hc,
        fun l hl => doVop_value hc hcmp hfault hs1 hn hak hbk hdk hl⟩,
      fun hcmp => ⟨doVop h o s, exec_vec_next rfl hload, doVec_pcMoved rfl hload hc, (doVop_mask hc hcmp hfault hs1 hn).1,
        fun l hl => doVop_compare hc hcmp hfault hs1 hn hak hbk hl⟩⟩
  · subst hu
    have hvec : (vecShape s h o).isSome = true := by rw [hx]; rfl
    have hdone := doVec_delivers hc hx hfault hs1 hout
    refine ⟨doVec h o s, exec_vec_next hvec hload, doVec_pcMoved hvec hload hc, fun r hr i hi => ?_, hdone.lines⟩
    have hvalue := hdone.lanes r hr i hi
    exact ⟨(congrArg LaneVal.tag hvalue : (laneGet _ _ _ _).value.tag = _), (congrArg LaneVal.bits hvalue : (laneGet _ _ _ _).value.bits = _)⟩

end Sys2Proof.Machine
end

