-- ==== Sys2Proof/Proofs/FunctionElements.lean ====
section
/-! PROOF. The elements of CVT, SFN, GACT and VRED on lane registers (R120, R147, R148, R155, R164). -/

namespace Sys2Proof.Machine

-- One proof at a time, as in the tests: proofs that wait for one another would each hold a stack.
set_option Elab.async false

/-! ### What a program and a slot depend on -/

section
variable {s t : State} (hsec : t.sec = s.sec)
include hsec

theorem progOf_congr : progOf t = progOf s := by
  funext pid compat
  unfold progOf
  rw [hsec]

theorem sfuEval_congr : sfuEval t = sfuEval s := by
  funext ctl compat out x y
  unfold sfuEval
  rw [progOf_congr hsec]

theorem sfuWork_congr : sfuWork t = sfuWork s := by
  funext ctl compat out
  unfold sfuWork
  rw [progOf_congr hsec]

theorem ninTwo_congr : ninTwo t = ninTwo s := by
  funext ctl compat
  unfold ninTwo
  rw [progOf_congr hsec]

end

theorem toWork_zero (w : Fmt) : toWork w .zero = .zero := by cases w <;> rfl

section
variable {h : IssueHdr} {x : VShape} {s s1 : State} {c : Ctx}

/-- The unit that takes an instruction changes its own records only. -/
theorem start_keeps {α : Type} {π : Eng → α} (hs1 : otherClaims c.k c.cyc (x.claims c) c.s = some s1)
    (hclaims : ∀ e claims, π { e with claims := claims } = π e := by intros; rfl) (hvec : ∀ e v, π { e with vec := v } = π e := by intros; rfl) :
    Keeps π c.s (x.start c s1) := by
  unfold otherClaims at hs1
  dsimp only at hs1
  split at hs1
  · nomatch hs1
  · cases hs1
    exact (engMod_keeps _ _ _ fun e => hclaims e _).trans (engMod_keeps _ _ _ fun e => hvec e _)

theorem Within.sec {S : Scope} {s t : State} (h : Within S s t) : t.sec = s.sec := (congrArg State.sec h.rest : t.rest.sec = s.rest.sec)

theorem Within.coldTid {S : Scope} {s t : State} (h : Within S s t) (tid : BitVec 12) : coldTid t tid = coldTid s tid := by
  have hcat : t.cat = s.cat := (congrArg State.cat h.rest : t.rest.cat = s.rest.cat)
  unfold Machine.coldTid catE
  rw [hcat]

/-- Programs stay as an instruction issues and its unit takes it (R159). -/
theorem start_sec (hc : issue .vector 0 h s = some c) (hs1 : otherClaims c.k c.cyc (x.claims c) c.s = some s1) :
    (x.start c s1).sec = s.sec := (start_values hs1).sec.trans (issue_engOnly hc).sec

end

/-! ### CVT -/

section
variable {h : IssueHdr} {o : XOp} {s s1 : State} {c : Ctx} {l : Nat} (hc : issue .vector 0 h s = some c)
  (hs1 : otherClaims c.k c.cyc ((cvtShape o).claims c) c.s = some s1)

theorem cvt_ready (hak : o.ak = true) : ∃ s1, otherClaims c.k c.cyc ((cvtShape o).claims c) c.s = some s1 :=
  ready_of_noStreams (strm_of_reg _ _ hak) rfl

include hs1 in
theorem cvt_slot : slotGet ((cvtShape o).start c s1) c.k o.slot.toNat = slotGet c.s c.k o.slot.toNat :=
  (start_values hs1).core.slotGet c.k _

include hc hs1 in
theorem cvt_present : ((eng ((cvtShape o).start c s1) c.k).seg c.g).present = (segOf c.s h.leng h.seg).present := by
  obtain ⟨-, -, -, -, -, hg, -⟩ := issue_some hc
  have hseg := (start_keeps (x := cvtShape o) (π := fun e => e.seg c.g) hs1).engs c.k
  unfold segOf
  rw [issue_storeKey hc (Keeps.refl _ _), ← hg]
  exact congrArg SegSt.present hseg

/-- The exponent that a slot gives a CVT (R120, R137). -/
structure CvtExponent (o : XOp) (s : State) (sl : Slot) (present : Present) (ex : Int) : Prop where
  noSlot : o.sen = false → ex = 0
  slot : o.sen = true → (∀ out, sl.out = some out → (coldTid s out.tid && decide (out.src = 1)) = false) → ex = sl.x
  cold : ∀ out, o.sen = true → sl.out = some out → (coldTid s out.tid && decide (out.src = 1)) = true → ex = sl.x - out.adj + present.adj

include hc hs1 in
theorem cvtX_eq {ex : Int} (hex : CvtExponent o c.s (slotGet c.s c.k o.slot.toNat) (segOf c.s h.leng h.seg).present ex) :
    (cvtX ((cvtShape o).start c s1) c o).1 = ex := by
  unfold cvtX
  rw [cvt_slot hs1]
  cases hsen : o.sen with
  | false => exact (hex.noSlot hsen).symm
  | true =>
    dsimp only
    rw [if_neg (by decide)]
    cases hout : (slotGet c.s c.k o.slot.toNat).out with
    | none => exact (hex.slot hsen fun out hsome => nomatch hout.symm.trans hsome).symm
    | some out =>
      dsimp only
      rw [(start_values hs1).coldTid, cvt_present hc hs1]
      split
      · next hcold => exact (hex.cold out hsen hout hcold).symm
      · next hwarm =>
        refine (hex.slot hsen fun out' hsome => ?_).symm
        cases hout.symm.trans hsome
        exact Bool.not_eq_true _ ▸ hwarm

include hc hs1 in
theorem doCvt_value (hfault : (cvtShape o).fault (cvtBad o) c = 0) (hn : o.nm1 = 0) (hak : o.ak = true) (hdk : o.dk = true) (hl : l < 64)
    (hvalid : o.sen = false ∨ (slotGet c.s c.k o.slot.toNat).valid = true) :
    (laneGet (doCvt h o s) c.k (o.d.toNat % 16) l).tag = some (fmtD o.dfmt) ∧
      ∀ ex, CvtExponent o c.s (slotGet c.s c.k o.slot.toNat) (segOf c.s h.leng h.seg).present ex →
        (laneGet (doCvt h o s) c.k (o.d.toNat % 16) l).bits =
          BitVec.ofNat 32 (roundTo (fmtD o.dfmt) ((laneOp c.s c.k o.a.toNat l).scale ex)).1 := by
  have hgood : (o.sen && !(slotGet ((cvtShape o).start c s1) c.k o.slot.toNat).valid) = false := by
    rw [cvt_slot hs1]
    rcases hvalid with hv | hv <;> rw [hv]
    · rfl
    · exact Bool.and_false _
  obtain ⟨htag, -, hbits⟩ := (doCvt_delivers hc hfault hs1 hgood).lane rfl (if_pos hdk) hl
  refine ⟨htag, fun ex hex => ?_⟩
  rw [hbits, cvtX_eq hc hs1 hex]
  unfold cvtEls
  rw [word_vecMap_one (by rw [hn]; rfl) hl]
  show BitVec.ofNat 32 (roundTo _ ((vIn _ c _ o.ak (srcLine o.ak o.a _) _ 0 l).v.scale ex)).1 = _
  rw [hak, ← (start_values hs1).laneOp]
  rfl

include hc hs1 in
/-- A CVT of an invalid slot only marks its destination (R119). -/
theorem doCvt_invalid (hfault : (cvtShape o).fault (cvtBad o) c = 0) (hsen : o.sen = true) (hvalid : (slotGet c.s c.k o.slot.toNat).valid = false) :
    Within markScope c.s (doCvt h o s) := by
  unfold doCvt
  rw [vecIssue_of_ready hc hfault hs1]
  refine ((start_values hs1).trans ?_).trans (finish_values _ _)
  dsimp -zeta only
  extract_lets sl m t
  rcases (cvtShape o).bases c with ⟨a, b, d⟩
  dsimp -zeta only
  have hslot : sl.valid = false := (congrArg Slot.valid (cvt_slot hs1)).trans hvalid
  rw [if_pos (by rw [hsen, hslot]; rfl)]
  refine (tagClear_within (markScope_runs c.k) _ _ : Within markScope ((cvtShape o).start c s1) t).trans ?_
  split
  · exact markLanes_within (marksOnly_lanes _ _ _ _)
  · exact cMarks_within (markScope_runs c.k) _ _ _ t

end

/-! ### SFN and GACT -/

section
variable {h : IssueHdr} {o : FOp} {cp : Bool} {s s1 : State} {c : Ctx} {l : Nat} (hc : issue .vector 0 h s = some c)

theorem sfn_ready (hak : o.ak = true) (hbk : ninTwo s o.ctl cp = true → o.bk = true) :
    ∃ s1, otherClaims c.k c.cyc ((sfnShape o cp s).claims c) c.s = some s1 := by
  refine ready_of_noStreams (strm_of_reg _ _ hak) ?_
  show (if ninTwo s o.ctl cp = true then strm o.bk o.b o.bfmt else none) = none
  split
  · next htwo => exact strm_of_reg _ _ (hbk htwo)
  · rfl

theorem gact_ready (hak : o.ak = true) (hbk : o.bk = true) : ∃ s1, otherClaims c.k c.cyc ((gactShape o cp s).claims c) c.s = some s1 :=
  ready_of_noStreams (strm_of_reg _ _ hak) (strm_of_reg _ _ hbk)

include hc in
theorem doSfn_value (hcp : cp = compatOf s h.leng.toNat h.seg) (hfault : (sfnShape o cp s).fault (fBad o cp (ninTwo s o.ctl cp)) c = 0)
    (hs1 : otherClaims c.k c.cyc ((sfnShape o cp s).claims c) c.s = some s1) (hn : o.nm1 = 0) (hak : o.ak = true)
    (hbk : ninTwo s o.ctl cp = true → o.bk = true) (hdk : o.dk = true) (hl : l < 64) :
    (laneGet (doSfn h o s) c.k (o.d.toNat % 16) l).bits = BitVec.ofNat 32 (roundTo (fmtD o.dfmt)
      (sfuEval c.s o.ctl cp (fmtD o.dfmt) (toWork (sfuWork s o.ctl cp (fmtD o.dfmt)) (laneOp c.s c.k o.a.toNat l))
        (if ninTwo s o.ctl cp then toWork (sfuWork s o.ctl cp (fmtD o.dfmt)) (laneOp c.s c.k o.b.toNat l) else .zero)).1).1 := by
  obtain ⟨-, -, hbits⟩ := (doSfn_delivers hc hcp hfault hs1).lane rfl (if_pos (by rw [hdk]; rfl)) hl
  have hsec := start_sec hc hs1
  have hvalues := start_values hs1
  rw [hbits]
  unfold sfnEls
  rw [word_vecMap_one (by show o.nm1.toNat + 1 = 1; rw [hn]; rfl) hl]
  unfold fIn
  rcases (sfnShape o cp s).bases c with ⟨a, b, d⟩
  dsimp only
  rw [sfuWork_congr hsec, ninTwo_congr hsec, sfuEval_congr hvalues.sec, hak, ← hvalues.laneOp, ← hvalues.laneOp]
  by_cases htwo : ninTwo s o.ctl cp = true
  · rw [if_pos htwo, if_pos htwo, hbk htwo]
    rfl
  · rw [if_neg htwo, if_neg htwo]
    show BitVec.ofNat 32 (roundTo _ (sfuEval _ _ _ _ _ (toWork _ .zero)).1).1 = _
    rw [toWork_zero]
    rfl

include hc in
theorem doGact_value (hcp : cp = compatOf s h.leng.toNat h.seg) (hfault : (gactShape o cp s).fault (fBad o cp true) c = 0)
    (hs1 : otherClaims c.k c.cyc ((gactShape o cp s).claims c) c.s = some s1) (hn : o.nm1 = 0) (hak : o.ak = true) (hbk : o.bk = true)
    (hdk : o.dk = true) (hl : l < 64) {wf : Fmt} (hwf : wf = sfuWork s o.ctl cp (fmtD o.dfmt)) :
    (laneGet (doGact h o s) c.k (o.d.toNat % 16) l).bits = BitVec.ofNat 32 (roundTo (fmtD o.dfmt)
      ((if o.ctl.getLsbD 5 then (sfuEval c.s o.ctl cp wf (toWork wf (laneOp c.s c.k o.a.toNat l)) .zero).1
        else (roundVal wf (sfuEval c.s o.ctl cp wf (toWork wf (laneOp c.s c.k o.a.toNat l)) .zero).1).1).mul
        (toWork wf (laneOp c.s c.k o.b.toNat l))).1).1 := by
  obtain ⟨-, -, hbits⟩ := (doGact_delivers hc hcp hfault hs1).lane rfl (if_pos (by rw [hdk]; rfl)) hl
  have hsec := start_sec hc hs1
  have hvalues := start_values hs1
  rw [hbits]
  unfold gactEls
  rw [word_vecMap_one (by show o.nm1.toNat + 1 = 1; rw [hn]; rfl) hl]
  unfold fIn
  rcases (gactShape o cp s).bases c with ⟨a, b, d⟩
  dsimp only
  rw [sfuWork_congr hsec, ← hwf, sfuEval_congr hvalues.sec, hak, hbk, ← hvalues.laneOp, ← hvalues.laneOp]
  split <;> rfl

end

/-! ### VRED -/

section
variable {h : IssueHdr} {o : VOp} {s s1 : State} {c : Ctx}

theorem doVred_value (hc : issue .vector 0 h s = some c) (hfault : (vredShape o).fault (vredBad o) c = 0)
    (hs1 : otherClaims c.k c.cyc ((vredShape o).claims c) c.s = some s1) (hn : o.nm1 = 0) (hak : o.ak = true) (hdk : o.dk = true) :
    (laneGet (doVred h o s) c.k (o.d.toNat % 16) 0).tag = some (fmtD o.dfmt) ∧ (laneGet (doVred h o s) c.k (o.d.toNat % 16) 0).bits =
      BitVec.ofNat 32 (roundTo (fmtD o.dfmt) (redVal o.func.toNat
        ((List.range 64).map fun l => toWork (fmtD o.wfmt) (laneOp c.s c.k o.a.toNat l))).1).1 := by
  have hvalue := (doVred_delivers hc hfault hs1).lanes (o.d.toNat % 16) (if_pos hdk) 0 (Nat.succ_pos _)
  refine ⟨(congrArg LaneVal.tag hvalue : (laneGet _ _ _ _).value.tag = _), ?_⟩
  rw [show (laneGet (doVred h o s) c.k (o.d.toNat % 16) 0).bits = _ from
    (congrArg LaneVal.bits hvalue : (laneGet (doVred h o s) c.k (o.d.toNat % 16) 0).value.bits = _)]
  have hargs : (List.range 64).map (fun l => toWork (fmtD o.wfmt) (laneOp c.s c.k o.a.toNat l)) =
      (List.range 64).map (fun l => toWork (fmtD o.wfmt) (laneOp ((vredShape o).start c s1) c.k o.a.toNat l)) := by
    simp only [(start_values hs1).laneOp]
  rw [hargs]
  unfold vredEls
  rcases (vredShape o).bases c with ⟨a, b, d⟩
  rw [hn, hak]
  have hread : (List.range 64).map (fun l => toWork (fmtD o.wfmt) (laneOp ((vredShape o).start c s1) c.k o.a.toNat l)) =
      ((List.range 64).map fun l => vIn ((vredShape o).start c s1) c (vredShape o) true (srcLine true o.a a) (fmtD o.afmt) 0 l).map
        fun i => toWork (fmtD o.wfmt) i.v := by
    rw [List.map_map]
    rfl
  rw [hread]
  rfl

end

/-- Settles O20: the elements that CVT, SFN, GACT and VRED deliver on lane registers (`doCvt_value`, `doSfn_value`, `doGact_value`,
`doVred_value`), and a CVT of an invalid slot (`doCvt_invalid`). -/
theorem functionValues : Obligations.FunctionValues := by
  refine ⟨fun h s c hc => ⟨?_, ?_, ?_⟩, ?_⟩
  · rintro o sl hwf hn hak hdk hfault rfl
    have hload : vecLoads s h (.cvt o) = true := (Bool.and_true _).trans hwf
    obtain ⟨s1, hs1⟩ := cvt_ready (c := c) hak
    refine ⟨doCvt h o s, exec_vec_next rfl hload, doVec_pcMoved rfl hload hc, fun l hl => ⟨fun hsen hvalid => ?_, fun hvalid => ?_⟩⟩
    · exact (doCvt_invalid hc hs1 hfault hsen hvalid).laneBits _ _ _
    · obtain ⟨htag, hbits⟩ := doCvt_value hc hs1 hfault hn hak hdk hl hvalid
      exact ⟨htag, fun ex hno hslot hcold => hbits ex ⟨hno, hslot, hcold⟩⟩
  · rintro o cp two wf hwf hcp rfl rfl hsteps hn hak hbk harg hdk hfault
    have hload : vecLoads s h (.sfn o) = true := by
      subst hcp
      show ((Instr.sfn h o).wf && ((sfuSteps s o.ctl _).isSome && sfnArgB h.seg o _ s)) = true
      rw [hwf, hsteps, harg]
      rfl
    obtain ⟨s1, hs1⟩ := sfn_ready (c := c) (cp := cp) hak hbk
    exact ⟨doSfn h o s, exec_vec_next rfl hload, doVec_pcMoved rfl hload hc,
      fun l hl => doSfn_value hc hcp hfault hs1 hn hak hbk hdk hl⟩
  · rintro o cp wf hwf hcp hsteps hn hak hbk hdk hwork hfault
    have hload : vecLoads s h (.gact o) = true := by
      subst hcp
      show ((Instr.gact h o).wf && (sfuSteps s o.ctl _).isSome) = true
      rw [hwf, hsteps]
      rfl
    obtain ⟨s1, hs1⟩ := gact_ready (s := s) (c := c) (cp := cp) hak hbk
    exact ⟨doGact h o s, exec_vec_next rfl hload, doVec_pcMoved rfl hload hc,
      fun l hl => doGact_value hc hcp hfault hs1 hn hak hbk hdk hl hwork⟩
  · intro h o s c hwf hc hn hak hdk hfault
    have hload : vecLoads s h (.vred o) = true := (Bool.and_true _).trans hwf
    obtain ⟨s1, hs1⟩ := ready_of_noStreams (x := vredShape o) (c := c) (strm_of_reg _ _ hak) rfl
    exact ⟨doVred h o s, exec_vec_next rfl hload, doVec_pcMoved rfl hload hc, doVred_value hc hfault hs1 hn hak hdk⟩

end Sys2Proof.Machine
end

