-- ==== Sys2Proof/Proofs/LaneQuireSums.lean ====
section
/-! PROOF. The lane quires (R41, R43, R146). -/

namespace Sys2Proof.Machine

-- One proof at a time, as in the tests: proofs that wait for one another would each hold a stack.
set_option Elab.async false

/-! ### Lane quires put and read -/

theorem quireGet_quirePut {k q l : Nat} {ys : List LaneQ} {y : LaneQ} (hy : ys[l]? = some y) (s : State) : quireGet (quirePut k q ys s) k q l = y := by
  unfold quireGet quirePut vecMod
  rw [eng_engMod, if_pos rfl]
  exact tabGet_putLanes_self _ hy q _

theorem quireGet_quirePut_ne {k q q' l : Nat} {ys : List LaneQ} (hlen : ys.length ≤ 64) (hl : l < 64) (hq : q' ≠ q) (s : State) :
    quireGet (quirePut k q ys s) k q' l = quireGet s k q' l := by
  unfold quireGet quirePut vecMod
  rw [eng_engMod, if_pos rfl]
  exact tabGet_putLanes_ne _ hlen hl hq _

theorem getElem?_lanes {α : Type} (g : Nat → α) {l : Nat} (hl : l < 64) : ((List.range 64).map g)[l]? = some (g l) := by
  rw [List.getElem?_map, List.getElem?_range hl]
  rfl

/-- One vector's operand added to each lane's quire (R41). -/
theorem quireRun_lane {s : State} {c : Ctx} {q rate n l : Nat} (hn : n = 1) (term : Nat → Nat → FVal × Flags × Mark × Bool) (hl : l < 64) :
    ∃ y, (quireRun s c q n rate term).1[l]? = some y ∧
      y.q = (quireAdd ((quireGet s c.k q l).tag.getD .q32) (quireGet s c.k q l).q (term 0 l).1).1 := by
  subst hn
  unfold quireRun
  dsimp only
  rw [List.map_map]
  exact ⟨_, getElem?_lanes _ hl, rfl⟩

theorem quireEnd_lane {x : VShape} {c : Ctx} {q l : Nat} {p : List LaneQ × List VRes} {y : LaneQ} (hy : p.1[l]? = some y) (s : State) :
    (quireGet (quireEnd x c q p s) c.k q l).q = y.q := by
  unfold quireEnd
  extract_lets extra
  have hevents : Within markScope (quirePut c.k q (p.1.map fun x => { x with mark := x.mark ||| extra }) s)
      (vecEvents x c p.2 (readMarks p.2) (quirePut c.k q (p.1.map fun x => { x with mark := x.mark ||| extra }) s)) :=
    vecEvents_within (markScope_runs c.k) _ _ _ _
  rw [hevents.quireGet, quireGet_quirePut (y := { y with mark := y.mark ||| extra }) (by rw [List.getElem?_map, hy]; rfl)]

/-- One vector's operands added to the lanes' quires. -/
theorem quireEnd_quireRun {x : VShape} {c : Ctx} {s t : State} {q rate n l : Nat} (hn : n = 1) (term : Nat → Nat → FVal × Flags × Mark × Bool)
    (hl : l < 64) : (quireGet (quireEnd x c q (quireRun s c q n rate term) t) c.k q l).q =
      (quireAdd ((quireGet s c.k q l).tag.getD .q32) (quireGet s c.k q l).q (term 0 l).1).1 := by
  obtain ⟨y, hy, hq⟩ := quireRun_lane (s := s) (c := c) (q := q) (rate := rate) hn term hl
  rw [quireEnd_lane hy, hq]

/-! ### The instructions -/

section
variable {h : IssueHdr} {o : VOp} {s s1 : State} {c : Ctx} {l : Nat} (hc : issue .vector 0 h s = some c)
include hc

theorem doQclr_lane (hfault : (qclrShape o).fault (fun _ _ => 0) c = 0) (hs1 : otherClaims c.k c.cyc ((qclrShape o).claims c) c.s = some s1)
    (hl : l < 64) : (quireGet (doQclr h o s) c.k o.mlq.toNat l).tag = some (fmtD o.wfmt) ∧
      (quireGet (doQclr h o s) c.k o.mlq.toNat l).q = .int 0 := by
  unfold doQclr
  rw [vecIssue_of_ready hc hfault hs1, (finish_values _ _).quireGet, quireGet_quirePut (by rw [List.getElem?_replicate, if_pos hl])]
  exact ⟨rfl, rfl⟩

theorem doQmac_lane (hfault : (qmacShape o).fault (qmacBad o) c = 0) (hs1 : otherClaims c.k c.cyc ((qmacShape o).claims c) c.s = some s1)
    (hn : o.nm1 = 0) (hak : o.ak = true) (hbk : o.bk = true) (hl : l < 64) :
    (quireGet (doQmac h o s) c.k o.mlq.toNat l).q = (quireAdd ((quireGet c.s c.k o.mlq.toNat l).tag.getD .q32)
      (quireGet c.s c.k o.mlq.toNat l).q ((laneOp c.s c.k o.a.toNat l).mul (laneOp c.s c.k o.b.toNat l)).1).1 := by
  have hvalues := start_values hs1
  unfold doQmac
  rw [vecIssue_of_ready hc hfault hs1, (finish_values _ _).quireGet]
  dsimp only
  rcases (qmacShape o).bases c with ⟨a, b, d⟩
  dsimp only
  rw [quireEnd_quireRun (by show o.nm1.toNat + 1 = 1; rw [hn]; rfl) _ hl, hvalues.quireGet, hak, hbk, ← hvalues.laneOp, ← hvalues.laneOp]
  rfl

theorem doQacc_lane (hfault : (qaccShape o).fault (qaccBad o) c = 0) (hs1 : otherClaims c.k c.cyc ((qaccShape o).claims c) c.s = some s1)
    (hn : o.nm1 = 0) (hak : o.ak = true) (hl : l < 64) :
    (quireGet (doQacc h o s) c.k o.mlq.toNat l).q = (quireAdd ((quireGet c.s c.k o.mlq.toNat l).tag.getD .q32)
      (quireGet c.s c.k o.mlq.toNat l).q (laneOp c.s c.k o.a.toNat l)).1 := by
  have hvalues := start_values hs1
  unfold doQacc
  rw [vecIssue_of_ready hc hfault hs1, (finish_values _ _).quireGet]
  dsimp only
  rcases (qaccShape o).bases c with ⟨a, b, d⟩
  dsimp only
  rw [quireEnd_quireRun (by show o.nm1.toNat + 1 = 1; rw [hn]; rfl) _ hl, hvalues.quireGet, hak, ← hvalues.laneOp]
  rfl

theorem doQrnd_lane (hfault : (qrndShape o).fault (qrndBad o) c = 0) (hs1 : otherClaims c.k c.cyc ((qrndShape o).claims c) c.s = some s1)
    (hn : o.nm1 = 0) (hdk : o.dk = true) (hl : l < 64) :
    (laneGet (doQrnd h o s) c.k (o.d.toNat % 16) l).tag = some (fmtD o.dfmt) ∧ (laneGet (doQrnd h o s) c.k (o.d.toNat % 16) l).bits =
      BitVec.ofNat 32 (roundTo (fmtD o.dfmt)
        ((quireGet c.s c.k o.mlq.toNat l).q.toF ((quireGet c.s c.k o.mlq.toNat l).tag.getD .q32))).1 := by
  obtain ⟨htag, -, hbits⟩ := (doQrnd_delivers hc hfault hs1).lane rfl (if_pos hdk) hl
  refine ⟨htag, ?_⟩
  rw [hbits, ← (start_values hs1).quireGet]
  unfold qrndEls
  rw [word_vecMap_one (by rw [hn]; rfl) hl]

end

/-- Settles O21: one vector's effect on each lane's quire, and the quire's rounding (`doQclr_lane`, `doQmac_lane`, `doQacc_lane`,
`doQrnd_lane`). -/
theorem laneQuires : Obligations.LaneQuires := by
  refine fun h o s c hc hn => ⟨fun hwf hfault => ?_, fun hwf hak hbk hfault => ?_, fun hwf hak hfault => ?_, fun hwf hdk hfault => ?_⟩
  · have hload : vecLoads s h (.qclr o) = true := (Bool.and_true _).trans hwf
    obtain ⟨s1, hs1⟩ := ready_of_noStreams (x := qclrShape o) (c := c) rfl rfl
    exact ⟨doQclr h o s, exec_vec_next rfl hload, doVec_pcMoved rfl hload hc, fun l hl => doQclr_lane hc hfault hs1 hl⟩
  · have hload : vecLoads s h (.qmac o) = true := (Bool.and_true _).trans hwf
    obtain ⟨s1, hs1⟩ := ready_of_noStreams (x := qmacShape o) (c := c) (strm_of_reg _ _ hak) (strm_of_reg _ _ hbk)
    exact ⟨doQmac h o s, exec_vec_next rfl hload, doVec_pcMoved rfl hload hc, fun l hl => doQmac_lane hc hfault hs1 hn hak hbk hl⟩
  · have hload : vecLoads s h (.qacc o) = true := (Bool.and_true _).trans hwf
    obtain ⟨s1, hs1⟩ := ready_of_noStreams (x := qaccShape o) (c := c) (strm_of_reg _ _ hak) rfl
    exact ⟨doQacc h o s, exec_vec_next rfl hload, doVec_pcMoved rfl hload hc, fun l hl => doQacc_lane hc hfault hs1 hn hak hl⟩
  · have hload : vecLoads s h (.qrnd o) = true := (Bool.and_true _).trans hwf
    obtain ⟨s1, hs1⟩ := ready_of_noStreams (x := qrndShape o) (c := c) rfl rfl
    exact ⟨doQrnd h o s, exec_vec_next rfl hload, doVec_pcMoved rfl hload hc, fun l hl => doQrnd_lane hc hfault hs1 hn hdk hl⟩

end Sys2Proof.Machine
end

