-- ==== Sys2Proof/Proofs/RowSums.lean ====
section
/-! PROOF. SMX and NRM: the phases of a row (R165-R168). -/

namespace Sys2Proof.Machine

-- One proof at a time, as in the tests: proofs that wait for one another would each hold a stack.
set_option Elab.async false

/-! ### Row states put and read -/

theorem rowGet_rowPut {k q l : Nat} {rs : List RowSt} {r : RowSt} (hr : rs[l]? = some r) (s : State) : rowGet (rowPut k q rs s) k q l = r := by
  unfold rowGet rowPut vecMod
  rw [eng_engMod, if_pos rfl]
  exact tabGet_putLanes_self _ hr q _

theorem laneGet_lanePut {k r l : Nat} {ys : List LaneVal} {y : LaneVal} (hy : ys[l]? = some y) (s : State) : laneGet (lanePut k r ys s) k r l = y := by
  unfold laneGet lanePut vecMod
  rw [eng_engMod, if_pos rfl]
  exact tabGet_putLanes_self _ hy r _

theorem laneGet_lanePut_ne {k r r' l : Nat} {ys : List LaneVal} (hlen : ys.length ≤ 64) (hl : l < 64) (hr : r' ≠ r) (s : State) :
    laneGet (lanePut k r ys s) k r' l = laneGet s k r' l := by
  unfold laneGet lanePut vecMod
  rw [eng_engMod, if_pos rfl]
  exact tabGet_putLanes_ne _ hlen hl hr _

/-- Another part of the lane storage is put: the rows stay. -/
theorem rowGet_vecMod (k : Nat) (f : VecSt → VecSt) (s : State) (q l : Nat) (hf : ∀ v, (f v).sk = v.sk := by intro; rfl) :
    rowGet (vecMod k f s) k q l = rowGet s k q l := by
  unfold rowGet vecMod
  rw [eng_engMod, if_pos rfl]
  exact congrArg (fun m => tabGet (fun _ => ({} : RowSt)) m (64 * q + l)) (hf _)

theorem laneGet_vecMod (k : Nat) (f : VecSt → VecSt) (s : State) (r l : Nat) (hf : ∀ v, (f v).vr = v.vr := by intro; rfl) :
    laneGet (vecMod k f s) k r l = laneGet s k r l := by
  unfold laneGet vecMod
  rw [eng_engMod, if_pos rfl]
  exact congrArg (fun m => tabGet (fun _ => ({} : LaneVal)) m (64 * r + l)) (hf _)

section
variable {x : VShape} {c : Ctx} {s1 : State}

/-- Rows stay, marks and all, as the unit takes an instruction. -/
theorem start_rows (hs1 : otherClaims c.k c.cyc (x.claims c) c.s = some s1) (q l : Nat) :
    rowGet (x.start c s1) c.k q l = rowGet c.s c.k q l := by
  unfold otherClaims at hs1
  dsimp only at hs1
  split at hs1
  · nomatch hs1
  · cases hs1
    refine (rowGet_vecMod _ _ _ _ _).trans ?_
    unfold rowGet
    rw [eng_engMod, if_pos rfl]

/-- The IL-3610's configuration is told by the jobs and the registers, which stay as the unit takes an instruction (R170). -/
theorem start_r77 (hs1 : otherClaims c.k c.cyc (x.claims c) c.s = some s1) (l : Nat) (g : Seg) : r77 (x.start c s1) l g = r77 c.s l g := by
  unfold otherClaims at hs1
  dsimp only at hs1
  split at hs1
  · nomatch hs1
  · cases hs1
    rfl

/-- Elements put out leave the rows. -/
theorem rowGet_vecOut (f : Fmt) (l : List VRes) (t : State) (q i : Nat) : rowGet (vecOut x f l c t) c.k q i = rowGet t c.k q i := by
  have hin : Within (vecScope true true { regs := x.reg.toList, quires := [], masks := [], rows := false, line := fun _ => True } c.k) t
      (vecOut x f l c t) := vecOut_within (fun _ _ _ => trivial) (fun r hr => by simp [hr]) t
  have hsame := hin.engs c.k
  change ite _ _ _ at hsame
  rw [if_pos rfl] at hsame
  exact congrArg (fun m => tabGet (fun _ => ({} : RowSt)) m (64 * q + i)) (hsame.1.lanes.row rfl)

end

/-- GENCOMPAT stays as an instruction issues (R168). -/
theorem issue_compatOf {h : IssueHdr} {s : State} {c : Ctx} (hc : issue .vector 0 h s = some c) (l : Nat) (g : Seg) :
    compatOf c.s l g = compatOf s l g :=
  (issue_frame (stats := false) (D := { regs := [], quires := [], masks := [], rows := false, line := fun _ => True }) hc
    fun _ _ => trivial).upset.compatOf l g

/-! ### SMX -/

section
variable {h : IssueHdr} {o : FOp} {s s1 : State} {c : Ctx} {l : Nat} (hc : issue .vector 0 h s = some c)
include hc

theorem doSmx_row (hout : o.ctl.getLsbD 5 = true) (hfault : (smxShape o).fault (smxBad o) c = 0)
    (hs1 : otherClaims c.k c.cyc ((smxShape o).claims c) c.s = some s1) (hl : l < 64) : (rowGet (doSmx h o s) c.k (skOf h.seg) l).closed = true := by
  unfold doSmx
  rw [vecIssue_of_ready hc hfault hs1]
  refine (congrArg RowSt.closed ((finish_values _ _).rowValue c.k (skOf h.seg) l) : (RowSt.value _).closed = (RowSt.value _).closed).trans ?_
  dsimp only
  rw [if_pos hout, rowGet_vecOut, rowGet_rowPut (getElem?_lanes _ hl)]
  rfl

theorem doSmx_output (hout : o.ctl.getLsbD 5 = true) (hfault : (smxShape o).fault (smxBad o) c = 0)
    (hs1 : otherClaims c.k c.cyc ((smxShape o).claims c) c.s = some s1) (hn : o.nm1 = 0) (hak : o.ak = true) (hdk : o.dk = true) (hl : l < 64) :
    (laneGet (doSmx h o s) c.k (o.d.toNat % 16) l).tag = some (fmtD o.dfmt) ∧ (laneGet (doSmx h o s) c.k (o.d.toNat % 16) l).bits =
      BitVec.ofNat 32 (if (rowGet c.s c.k (skOf h.seg) l).ieee
        then (smxCompat (fmtD o.dfmt) (rowGet c.s c.k (skOf h.seg) l) (laneOp c.s c.k o.a.toNat l) (laneOp c.s c.k o.c.toNat l)
          (!(rowGet c.s c.k (skOf h.seg) l).closed) (!r77 c.s h.leng.toNat h.seg)).1
        else (smxOut (fmtD o.dfmt) (rowGet c.s c.k (skOf h.seg) l) (quireGet c.s c.k o.lq.toNat l).q (laneOp c.s c.k o.a.toNat l)
          (laneOp c.s c.k o.c.toNat l)).1) := by
  obtain ⟨-, -, -, -, -, hg, -⟩ := issue_some hc
  have hvalues := start_values hs1
  obtain ⟨htag, -, hbits⟩ := (doSmx_delivers hc hout hfault hs1).lane rfl (if_pos (by rw [hout, hdk]; rfl)) hl
  refine ⟨htag, ?_⟩
  rw [hbits]
  unfold smxEls
  dsimp only
  rw [word_vecMap_one (by show o.nm1.toNat + 1 = 1; rw [hn]; rfl) hl]
  unfold fIn
  rcases (smxShape o).bases c with ⟨a, b, d⟩
  dsimp only
  rw [hg, start_rows hs1, start_r77 hs1, hvalues.quireGet, hak, ← hvalues.laneOp, ← hvalues.laneOp]
  split <;> rfl

/-- One vector accumulated: each lane's row and quire go on by its element. -/
theorem doSmx_lanes (hout : o.ctl.getLsbD 5 = false) (hcompat : compatOf ((smxShape o).start c s1) h.leng.toNat h.seg = false)
    (hfault : (smxShape o).fault (smxBad o) c = 0) (hs1 : otherClaims c.k c.cyc ((smxShape o).claims c) c.s = some s1) (hn : o.nm1 = 0)
    (hl : l < 64) {acc : (RowSt × QVal) × Flags}
    (hacc : acc = smxAcc (rowOpen (rowGet ((smxShape o).start c s1) c.k (skOf h.seg) l), (quireGet ((smxShape o).start c s1) c.k o.lq.toNat l).q)
      (fIn o (smxShape o) false ((smxShape o).start c s1) c 0 l).1.v (laneOp ((smxShape o).start c s1) c.k o.c.toNat l)) :
    ∃ rs ys r y, Within markScope (quirePut c.k o.lq.toNat ys (rowPut c.k (skOf h.seg) rs ((smxShape o).start c s1))) (doSmx h o s) ∧
      rs[l]? = some r ∧ ys[l]? = some y ∧ r.k = acc.1.1.k ∧ y.q = acc.1.2 := by
  have hn1 : (smxShape o).n = 1 := by show o.nm1.toNat + 1 = 1; rw [hn]; rfl
  unfold doSmx
  rw [vecIssue_of_ready hc hfault hs1]
  extract_lets rdy lanes res extra t1 t2
  rw [if_neg (by rw [hout]; decide)]
  obtain ⟨p, hp, hk, hq⟩ : ∃ p, lanes[l]? = some p ∧ p.1.1.k = acc.1.1.k ∧ p.1.2.q = acc.1.2 := by
    subst hacc
    refine ⟨_, getElem?_lanes _ hl, ?_, ?_⟩ <;> rw [hn1] <;> dsimp only [List.range, List.range.loop, List.foldl] <;>
      rw [if_neg (by rw [hcompat, Bool.false_and]; decide)] <;> rfl
  have hevents : Within markScope t2 (vecEvents (smxShape o) c res (readMarks res) t2) := vecEvents_within (markScope_runs c.k) _ _ _ _
  refine ⟨_, _, { p.1.1 with mark := p.1.1.mark ||| extra }, { p.1.2 with mark := p.1.2.mark ||| extra }, hevents.trans (finish_values _ _),
    ?_, ?_, hk, hq⟩
  · rw [List.getElem?_map, hp]
    rfl
  · rw [List.getElem?_map, hp]
    rfl

theorem doSmx_accumulate (hout : o.ctl.getLsbD 5 = false) (hcompat : compatOf s h.leng.toNat h.seg = false)
    (hfault : (smxShape o).fault (smxBad o) c = 0) (hs1 : otherClaims c.k c.cyc ((smxShape o).claims c) c.s = some s1) (hn : o.nm1 = 0)
    (hak : o.ak = true) (hl : l < 64) :
    (rowGet (doSmx h o s) c.k (skOf h.seg) l).k = (smxAcc (rowOpen (rowGet c.s c.k (skOf h.seg) l), (quireGet c.s c.k o.lq.toNat l).q)
      (laneOp c.s c.k o.a.toNat l) (laneOp c.s c.k o.c.toNat l)).1.1.k ∧
    (quireGet (doSmx h o s) c.k o.lq.toNat l).q = (smxAcc (rowOpen (rowGet c.s c.k (skOf h.seg) l), (quireGet c.s c.k o.lq.toNat l).q)
      (laneOp c.s c.k o.a.toNat l) (laneOp c.s c.k o.c.toNat l)).1.2 := by
  have hvalues := start_values hs1
  have hcp : compatOf ((smxShape o).start c s1) h.leng.toNat h.seg = false := by rw [hvalues.compatOf, issue_compatOf hc, hcompat]
  obtain ⟨rs, ys, r, y, hin, hr, hy, hk, hq⟩ := doSmx_lanes hc hout hcp hfault hs1 hn hl rfl
  have harg : (fIn o (smxShape o) false ((smxShape o).start c s1) c 0 l).1.v = laneOp ((smxShape o).start c s1) c.k o.a.toNat l := by
    unfold fIn
    rcases (smxShape o).bases c with ⟨a, b, d⟩
    rw [hak]
    rfl
  rw [harg, start_rows hs1, hvalues.quireGet, hvalues.laneOp, hvalues.laneOp] at hk hq
  rw [← hk, ← hq, hin.quireGet, quireGet_quirePut hy]
  refine ⟨(congrArg RowSt.k (hin.rowValue c.k (skOf h.seg) l) : (RowSt.value _).k = (RowSt.value _).k).trans ?_, rfl⟩
  have hrow : rowGet (quirePut c.k o.lq.toNat ys (rowPut c.k (skOf h.seg) rs ((smxShape o).start c s1))) c.k (skOf h.seg) l = r :=
    (rowGet_vecMod _ _ _ _ _).trans (rowGet_rowPut hr _)
  rw [hrow]
  rfl

end

/-! ### NRM -/

theorem Within.srcFmt {s t : State} (h : Within markScope s t) (k : Nat) (reg : Bool) (a : BitVec 17) (f : BitVec 4) (l : Nat) :
    srcFmt t k reg a f l = srcFmt s k reg a f l := by
  unfold Machine.srcFmt
  rw [h.laneTag]

theorem vInAt_lane (s : State) (k r : Nat) (t : Nat → Nat) (l : Nat) : (vInAt s k true (r % 16) .p32 t 0 l).v = laneOp s k r l := by
  unfold laneOp vInAt
  rw [Nat.mod_mod]
  rfl

section
variable {h : IssueHdr} {o : FOp} {s s1 : State} {c : Ctx} {l : Nat}

/-- One vector accumulated: each lane counts its element and adds it and its square to its two quires. -/
theorem nrmAcc_lanes {x : VShape} {u : State} (hn : x.n = 1) (hl : l < 64) (hpos : (srcFmt u c.k o.ak o.a o.afmt l).isIeee = false) {a : FVal}
    (ha : a = (vIn u c x o.ak (srcLine o.ak o.a (x.bases c).1) (fmtD o.afmt) 0 l).v) :
    ∃ rs ys zs r y z, Within markScope (quirePut c.k (lqOf c.g + 1) zs (quirePut c.k (lqOf c.g) ys (rowPut c.k (skOf c.g) rs u))) (nrmAcc c o x u) ∧
      rs[l]? = some r ∧ ys[l]? = some y ∧ zs[l]? = some z ∧ zs.length = 64 ∧
      r.n = (rowOpen (rowGet u c.k (skOf c.g) l)).n + 1 ∧ y.q = (quireAdd .q32 (quireGet u c.k (lqOf c.g) l).q a).1 ∧
      z.q = (quireAdd .q32 (quireGet u c.k (lqOf c.g + 1) l).q (a.mul a).1).1 := by
  unfold nrmAcc
  rcases hbases : x.bases c with ⟨ab, b, d⟩
  rw [hbases] at ha
  dsimp -zeta only
  extract_lets q sk rdy lanes res extra t1 t2 t3
  have hevents : Within markScope t3 (vecEvents x c res (readMarks res) t3) := vecEvents_within (markScope_runs c.k) _ _ _ _
  obtain ⟨p, hp, hk, hq, hz⟩ : ∃ p, lanes[l]? = some p ∧ p.1.1.n = (rowOpen (rowGet u c.k (skOf c.g) l)).n + 1 ∧
      p.1.2.1.q = (quireAdd .q32 (quireGet u c.k (lqOf c.g) l).q a).1 ∧
      p.1.2.2.q = (quireAdd .q32 (quireGet u c.k (lqOf c.g + 1) l).q (a.mul a).1).1 := by
    subst ha
    refine ⟨_, getElem?_lanes _ hl, ?_, ?_, ?_⟩ <;> rw [hn] <;> dsimp only [List.range, List.range.loop, List.foldl] <;>
      rw [hpos] <;> rfl
  refine ⟨_, _, _, { p.1.1 with mark := p.1.1.mark ||| extra }, { p.1.2.1 with mark := p.1.2.1.mark ||| extra },
    { p.1.2.2 with mark := p.1.2.2.mark ||| extra }, hevents, ?_, ?_, ?_, ?_, hk, hq, hz⟩
  · rw [List.getElem?_map, hp]
    rfl
  · rw [List.getElem?_map, hp]
    rfl
  · rw [List.getElem?_map, hp]
    rfl
  · simp [lanes]

/-- The finish phase: mu and r of each lane's row go to registers C and C + 1, and the row is closed. -/
theorem nrmFin_lanes {x : VShape} {u : State} (hl : l < 64) {mu v : FVal} {fl : Flags} {neg : Bool}
    (hrow : (mu, v, fl, neg) = nrmRow (o.ctl.getLsbD 3) (rowGet u c.k (skOf c.g) l) (quireGet u c.k (lqOf c.g) l).q
      (quireGet u c.k (lqOf c.g + 1) l).q (laneOp u c.k o.a.toNat l)) :
    ∃ t rs ys zs r y z, Within markScope (rowPut c.k (skOf c.g) rs (lanePut c.k (o.c.toNat + 1) zs (lanePut c.k o.c.toNat ys t))) (nrmFin c o x u) ∧
      rs[l]? = some r ∧ ys[l]? = some y ∧ zs[l]? = some z ∧ zs.length = 64 ∧ r.closed = true ∧
      y.tag = some .p32 ∧ y.bits = BitVec.ofNat 32 (roundTo .p32 mu).1 ∧ z.tag = some .p32 ∧ z.bits = BitVec.ofNat 32 (roundTo .p32 v).1 := by
  unfold nrmFin
  extract_lets q sk rms rs res extra mk' p negs t1 t2 t3 t4
  have hevents : Within markScope t4 (vecEvents x c res (readMarks res) t4) := vecEvents_within (markScope_runs c.k) _ _ _ _
  obtain ⟨e, he, hmu, hv⟩ : ∃ e, rs[l]? = some e ∧ e.1 = (roundTo .p32 mu).1 ∧ e.2.1 = (roundTo .p32 v).1 := by
    refine ⟨_, getElem?_lanes _ hl, ?_, ?_⟩ <;> dsimp only <;> rw [vInAt_lane, ← hrow]
  refine ⟨t1, _, _, _, _, mk' e.1 e.2.2.1.mark, mk' e.2.1 e.2.2.1.mark, hevents, getElem?_lanes _ hl, ?_, ?_, ?_, rfl, rfl, ?_, rfl, ?_⟩
  · rw [List.getElem?_map, he]
    rfl
  · rw [List.getElem?_map, he]
    rfl
  · simp [rs]
  · exact congrArg (BitVec.ofNat 32) hmu
  · exact congrArg (BitVec.ofNat 32) hv

variable (hc : issue .vector 0 h s = some c)
include hc

theorem doNrm_accumulate (hph : o.ctl.toNat / 16 = 0) (hfault : (nrmShape o 0).fault (nrmBad o 0) c = 0)
    (hs1 : otherClaims c.k c.cyc ((nrmShape o 0).claims c) c.s = some s1) (hn : o.nm1 = 0) (hak : o.ak = true) (hl : l < 64)
    (hpos : (srcFmt c.s c.k true o.a o.afmt l).isIeee = false) :
    (rowGet (doNrm h o s) c.k (skOf h.seg) l).n = (rowOpen (rowGet c.s c.k (skOf h.seg) l)).n + 1 ∧
    (quireGet (doNrm h o s) c.k (lqOf h.seg) l).q = (quireAdd .q32 (quireGet c.s c.k (lqOf h.seg) l).q (laneOp c.s c.k o.a.toNat l)).1 ∧
    (quireGet (doNrm h o s) c.k (lqOf h.seg + 1) l).q = (quireAdd .q32 (quireGet c.s c.k (lqOf h.seg + 1) l).q
      ((laneOp c.s c.k o.a.toNat l).mul (laneOp c.s c.k o.a.toNat l)).1).1 := by
  obtain ⟨-, -, -, -, -, hg, -⟩ := issue_some hc
  have hvalues := start_values hs1
  obtain ⟨rs, ys, zs, r, y, z, hin, hr, hy, hz, hzs, hrn, hyq, hzq⟩ := nrmAcc_lanes (o := o) (c := c) (x := nrmShape o 0)
    (u := (nrmShape o 0).start c s1) (by show o.nm1.toNat + 1 = 1; rw [hn]; rfl) hl (by rw [hvalues.srcFmt, hak]; exact hpos) rfl
  have harg : (vIn ((nrmShape o 0).start c s1) c (nrmShape o 0) o.ak (srcLine o.ak o.a ((nrmShape o 0).bases c).1) (fmtD o.afmt) 0 l).v =
      laneOp c.s c.k o.a.toNat l := by
    rw [hak, ← hvalues.laneOp]
    rfl
  rw [harg, hvalues.quireGet] at hyq hzq
  rw [start_rows hs1] at hrn
  have hlast := hin.trans (finish_values (x := nrmShape o 0) (h := h) (c := c) _ (c.cyc + (nrmShape o 0).last + (nrmShape o 0).n * (nrmShape o 0).rate))
  unfold doNrm
  rw [hph, vecIssue_of_ready hc hfault hs1, ← hg, if_pos rfl, hlast.quireGet, hlast.quireGet, quireGet_quirePut hz,
    quireGet_quirePut_ne hzs.le hl (Nat.succ_ne_self _).symm, quireGet_quirePut hy]
  refine ⟨?_, hyq, hzq⟩
  rw [← hrn]
  refine (congrArg RowSt.n (hlast.rowValue c.k (skOf c.g) l) : (RowSt.value _).n = (RowSt.value _).n).trans ?_
  have hput : rowGet (quirePut c.k (lqOf c.g + 1) zs (quirePut c.k (lqOf c.g) ys (rowPut c.k (skOf c.g) rs ((nrmShape o 0).start c s1)))) c.k
      (skOf c.g) l = r := (rowGet_vecMod _ _ _ _ _).trans ((rowGet_vecMod _ _ _ _ _).trans (rowGet_rowPut hr _))
  rw [hput]
  rfl

theorem doNrm_finish (hph : o.ctl.toNat / 16 = 1) (hfault : (nrmShape o 1).fault (nrmBad o 1) c = 0)
    (hs1 : otherClaims c.k c.cyc ((nrmShape o 1).claims c) c.s = some s1) (hl : l < 64) {mu v : FVal} {fl : Flags} {neg : Bool}
    (hrow : (mu, v, fl, neg) = nrmRow (o.ctl.getLsbD 3) (rowGet c.s c.k (skOf h.seg) l) (quireGet c.s c.k (lqOf h.seg) l).q
      (quireGet c.s c.k (lqOf h.seg + 1) l).q (laneOp c.s c.k o.a.toNat l)) :
    (rowGet (doNrm h o s) c.k (skOf h.seg) l).closed = true ∧
    (laneGet (doNrm h o s) c.k o.c.toNat l).tag = some .p32 ∧ (laneGet (doNrm h o s) c.k (o.c.toNat + 1) l).tag = some .p32 ∧
    (laneGet (doNrm h o s) c.k o.c.toNat l).bits = BitVec.ofNat 32 (roundTo .p32 mu).1 ∧
    (laneGet (doNrm h o s) c.k (o.c.toNat + 1) l).bits = BitVec.ofNat 32 (roundTo .p32 v).1 := by
  obtain ⟨-, -, -, -, -, hg, -⟩ := issue_some hc
  have hvalues := start_values hs1
  rw [← hg, ← start_rows hs1, ← hvalues.quireGet, ← hvalues.quireGet, ← hvalues.laneOp] at hrow
  obtain ⟨t, rs, ys, zs, r, y, z, hin, hr, hy, hz, hzs, hclosed, hyt, hyb, hzt, hzb⟩ := nrmFin_lanes (x := nrmShape o 1) hl hrow
  have hlast := hin.trans (finish_values (x := nrmShape o 1) (h := h) (c := c) _ (c.cyc + (nrmShape o 1).last + (nrmShape o 1).n * (nrmShape o 1).rate))
  have hmu : laneGet (rowPut c.k (skOf c.g) rs (lanePut c.k (o.c.toNat + 1) zs (lanePut c.k o.c.toNat ys t))) c.k o.c.toNat l = y :=
    (laneGet_vecMod _ _ _ _ _).trans ((laneGet_lanePut_ne hzs.le hl (Nat.succ_ne_self _).symm _).trans (laneGet_lanePut hy _))
  have hr' : laneGet (rowPut c.k (skOf c.g) rs (lanePut c.k (o.c.toNat + 1) zs (lanePut c.k o.c.toNat ys t))) c.k (o.c.toNat + 1) l = z :=
    (laneGet_vecMod _ _ _ _ _).trans (laneGet_lanePut hz _)
  unfold doNrm
  rw [hph, vecIssue_of_ready hc hfault hs1, ← hg, if_neg Nat.one_ne_zero, if_pos rfl, hlast.laneTag, hlast.laneTag, hlast.laneBits, hlast.laneBits,
    hmu, hr']
  refine ⟨?_, hyt, hzt, hyb, hzb⟩
  refine (congrArg RowSt.closed (hlast.rowValue c.k (skOf c.g) l) : (RowSt.value _).closed = (RowSt.value _).closed).trans ?_
  rw [rowGet_rowPut hr]
  exact hclosed

theorem doNrm_apply (hph : o.ctl.toNat / 16 = 2) (hfault : (nrmShape o 2).fault (nrmBad o 2) c = 0)
    (hs1 : otherClaims c.k c.cyc ((nrmShape o 2).claims c) c.s = some s1) (hn : o.nm1 = 0) (hak : o.ak = true) (hdk : o.dk = true) (hl : l < 64) :
    (laneGet (doNrm h o s) c.k (o.d.toNat % 16) l).tag = some (fmtD o.dfmt) ∧ (laneGet (doNrm h o s) c.k (o.d.toNat % 16) l).bits =
      BitVec.ofNat 32 (roundTo (fmtD o.dfmt)
        (nrmVal (laneOp c.s c.k o.a.toNat l) (laneOp c.s c.k o.c.toNat l) (laneOp c.s c.k (o.c.toNat + 1) l)
          (nrmPair (nrmShape o 2) ((nrmShape o 2).start c s1) c 0).v (nrmPair (nrmShape o 2) ((nrmShape o 2).start c s1) c 1).v).1).1 := by
  obtain ⟨htag, -, hbits⟩ := (doNrm_delivers hc hph hfault hs1).lane rfl (if_pos hdk) hl
  have hvalues := start_values hs1
  refine ⟨htag, ?_⟩
  rw [hbits]
  unfold nrmEls
  dsimp only
  rw [word_vecMap_one (by show o.nm1.toNat + 1 = 1; rw [hn]; rfl) hl]
  unfold fIn
  rcases (nrmShape o 2).bases c with ⟨a, b, d⟩
  dsimp only
  rw [hak, ← hvalues.laneOp, ← hvalues.laneOp, ← hvalues.laneOp]
  rfl

end

/-- Settles O22: SMX's accumulation and output (`doSmx_accumulate`, `doSmx_row`, `doSmx_output`), and NRM's three phases
(`doNrm_accumulate`, `doNrm_finish`, `doNrm_apply`). -/
theorem rowPhases : Obligations.RowPhases := by
  intro h o s c hc
  have hnrm (hwf : (Instr.nrm h o).wf = true) (hsrc : o.ak = true ∨ o.ctl.toNat / 16 = 1) : vecLoads s h (.nrm o) = true := by
    show ((Instr.nrm h o).wf && (o.ak || !(fmtD o.afmt).isIeee || compatOf s h.leng.toNat h.seg || decide (o.ctl.toNat / 16 = 1))) = true
    rcases hsrc with hak | hph
    · rw [hwf, hak]
      rfl
    · rw [hwf, decide_eq_true hph, Bool.or_true]
      rfl
  refine ⟨?_, ?_, ?_, ?_, ?_⟩
  · intro hwf hn hak hout hcompat hfault
    have hload : vecLoads s h (.smx o) = true := (Bool.and_true _).trans hwf
    obtain ⟨s1, hs1⟩ := ready_of_noStreams (x := smxShape o) (c := c) (strm_of_reg _ _ hak) rfl
    exact ⟨doSmx h o s, exec_vec_next rfl hload, doVec_pcMoved rfl hload hc,
      fun l hl => doSmx_accumulate hc hout hcompat hfault hs1 hn hak hl⟩
  · intro hwf hn hak hdk hout hfault
    have hload : vecLoads s h (.smx o) = true := (Bool.and_true _).trans hwf
    obtain ⟨s1, hs1⟩ := ready_of_noStreams (x := smxShape o) (c := c) (strm_of_reg _ _ hak) rfl
    refine ⟨doSmx h o s, exec_vec_next rfl hload, doVec_pcMoved rfl hload hc, ?_⟩
    rintro l hl _ rfl
    exact ⟨doSmx_row hc hout hfault hs1 hl, doSmx_output hc hout hfault hs1 hn hak hdk hl⟩
  · intro hwf hn hak hph hpos hfault
    have hload := hnrm hwf (.inl hak)
    obtain ⟨s1, hs1⟩ := ready_of_noStreams (x := nrmShape o 0) (c := c) (strm_of_reg _ _ hak) rfl
    exact ⟨doNrm h o s, exec_vec_next rfl hload, doVec_pcMoved rfl hload hc,
      fun l hl => doNrm_accumulate hc hph hfault hs1 hn hak hl (hpos l hl)⟩
  · intro hwf hph hfault
    have hload := hnrm hwf (.inr hph)
    obtain ⟨s1, hs1⟩ := ready_of_noStreams (x := nrmShape o 1) (c := c) rfl rfl
    exact ⟨doNrm h o s, exec_vec_next rfl hload, doVec_pcMoved rfl hload hc,
      fun l hl mu v fl neg hrow => doNrm_finish hc hph hfault hs1 hl hrow⟩
  · rintro s1 _ hwf hph hn hak hdk hfault hs1 rfl
    have hload := hnrm hwf (.inl hak)
    exact ⟨doNrm h o s, exec_vec_next rfl hload, doVec_pcMoved rfl hload hc,
      fun l hl => doNrm_apply hc hph hfault hs1 hn hak hdk hl⟩

end Sys2Proof.Machine
end

