-- ==== Sys2Proof/Proofs/EngineWords.lean ====
section
/-! PROOF. The encoding of engine words (R184, Tables 7-4 to 7-11): every layout reads exactly what it writes, and a word decodes exactly
where it is an encoding. -/

namespace Sys2Proof

/-- Values fit fields of the given widths. -/
def fits : List Nat → List Nat → Prop := List.Forall₂ fun w v => v < 2 ^ w

theorem fits_cutFields (ws : List Nat) (n : Nat) : fits ws (cutFields ws n) := by
  induction ws generalizing n with
  | nil => exact .nil
  | cons w ws ih => exact .cons (Nat.mod_lt _ (Nat.two_pow_pos w)) (ih _)

/-- The values that fields hold: each value cut to its field's width. -/
def written (l : List (Nat × Nat)) : List Nat := l.map fun p => p.2 % 2 ^ p.1

/-- Cutting a number into the widths of fields gives what the fields hold where the number holds the packed fields. -/
theorem cutFields_eq_written_iff (l : List (Nat × Nat)) (n : Nat) :
    cutFields (l.map Prod.fst) n = written l ↔ n % 2 ^ (l.map Prod.fst).sum = packFields l := by
  induction l generalizing n with
  | nil => simp [cutFields, written, packFields, Nat.mod_one]
  | cons p l ih =>
    obtain ⟨w, v⟩ := p
    have hsplit := Nat.mod_mul (x := n) (a := 2 ^ w) (b := 2 ^ (l.map Prod.fst).sum)
    rw [List.map_cons, List.sum_cons, cutFields, pow_add, hsplit, packFields,
      show written ((w, v) :: l) = v % 2 ^ w :: written l from rfl, List.cons.injEq, ih]
    constructor
    · rintro ⟨hlow, hhigh⟩
      rw [hlow, hhigh]
    · intro h
      have hlow : n % 2 ^ w = v % 2 ^ w := by
        have := congrArg (· % 2 ^ w) h
        simpa using this
      rw [hlow, Nat.add_left_cancel_iff] at h
      exact ⟨hlow, Nat.eq_of_mul_eq_mul_left (Nat.two_pow_pos w) h⟩

/-- A layout of Tables 7-5 to 7-11: a reader of operands from fields of widths `W` that reads exactly what its writer wrote. -/
structure Layout {α : Type} (W : List Nat) (read : List Nat → Option α) (fields : α → List (Nat × Nat)) : Prop where
  widths : ∀ o, (fields o).map Prod.fst = W
  read_iff : ∀ l, fits W l → ∀ o, read l = some o ↔ l = written (fields o)

@[simp] theorem toNat_decide_eq_one {v : Nat} (h : v < 2) : (decide (v = 1)).toNat = v := by
  obtain rfl | rfl : v = 0 ∨ v = 1 := by omega
  · rfl
  · rfl

@[simp] theorem toNat_mod_two (b : Bool) : b.toNat % 2 = b.toNat := by cases b <;> rfl

/-- A layout reads an operand from the bits of a word exactly where those bits are the operand's packed fields. -/
theorem Layout.read_cutFields_iff {α : Type} {W : List Nat} {read : List Nat → Option α} {fields : α → List (Nat × Nat)}
    (h : Layout W read fields) (n : Nat) (o : α) : read (cutFields W n) = some o ↔ n % 2 ^ W.sum = packFields (fields o) := by
  rw [h.read_iff _ (fits_cutFields W n), ← h.widths o, cutFields_eq_written_iff]

theorem cutFields_packFields (l : List (Nat × Nat)) : cutFields (l.map Prod.fst) (packFields l) = written l := by
  induction l with
  | nil => rfl
  | cons p l ih =>
    rw [List.map_cons, cutFields, packFields, Nat.add_mul_mod_self_left, Nat.mod_mod, Nat.add_mul_div_left _ _ (Nat.two_pow_pos _),
      Nat.div_eq_of_lt (Nat.mod_lt _ (Nat.two_pow_pos _)), zero_add, ih]
    rfl

theorem packFields_lt (l : List (Nat × Nat)) : packFields l < 2 ^ (l.map Prod.fst).sum := by
  rw [← (cutFields_eq_written_iff l _).1 (cutFields_packFields l)]
  exact Nat.mod_lt _ (Nat.two_pow_pos _)

/-! ### Each layout reads what it writes -/

theorem ldsOf_layout : Layout ldsW ldsOf ldsFields := by
  refine ⟨fun _ => rfl, fun l hl o => ⟨fun h => ?_, ?_⟩⟩
  · unfold ldsOf at h
    split at h
    · split at h
      · cases h
        simp_all [fits, ldsW, ldsFields, written, Nat.mod_eq_of_lt]
      · cases h
    · cases h
  · rintro rfl
    simp [-Nat.reducePow, written, ldsFields, ldsOf]

theorem passOf_layout : Layout passW passOf passFields := by
  refine ⟨fun _ => rfl, fun l hl o => ⟨fun h => ?_, ?_⟩⟩
  · unfold passOf at h
    split at h
    · split at h
      · cases h
        simp_all [fits, passW, passFields, written, Nat.mod_eq_of_lt]
      · cases h
    · cases h
  · rintro rfl
    simp [-Nat.reducePow, written, passFields, passOf]

theorem drainOf_layout : Layout drainW drainOf drainFields := by
  refine ⟨fun _ => rfl, fun l hl o => ⟨fun h => ?_, ?_⟩⟩
  · unfold drainOf at h
    split at h
    · cases h
      simp_all [fits, drainW, drainFields, written, Nat.mod_eq_of_lt]
    · cases h
  · rintro rfl
    simp [-Nat.reducePow, written, drainFields, drainOf]

theorem vOf_layout : Layout vW vOf vFields := by
  refine ⟨fun _ => rfl, fun l hl o => ⟨fun h => ?_, ?_⟩⟩
  · unfold vOf at h
    split at h
    · split at h
      · cases h
        simp_all [fits, vW, vFields, written, Nat.mod_eq_of_lt]
      · cases h
    · cases h
  · rintro rfl
    simp [-Nat.reducePow, written, vFields, vOf]

theorem fOf_layout : Layout fW fOf fFields := by
  refine ⟨fun _ => rfl, fun l hl o => ⟨fun h => ?_, ?_⟩⟩
  · unfold fOf at h
    split at h
    · split at h
      · cases h
        simp_all [fits, fW, fFields, written, Nat.mod_eq_of_lt]
      · cases h
    · cases h
  · rintro rfl
    simp [-Nat.reducePow, written, fFields, fOf]

theorem xOf_layout : Layout xW xOf xFields := by
  refine ⟨fun _ => rfl, fun l hl o => ⟨fun h => ?_, ?_⟩⟩
  · unfold xOf at h
    split at h
    · split at h
      · cases h
        simp_all [fits, xW, xFields, written, Nat.mod_eq_of_lt]
      · cases h
    · cases h
  · rintro rfl
    simp [-Nat.reducePow, written, xFields, xOf]

theorem sclOf_layout : Layout sclW sclOf sclFields := by
  refine ⟨fun _ => rfl, fun l hl o => ⟨fun h => ?_, ?_⟩⟩
  · unfold sclOf at h
    split at h
    · split at h
      · cases h
        simp_all [fits, sclW, sclFields, recFields, written, Nat.mod_eq_of_lt]
      · cases h
    · cases h
  · rintro rfl
    simp [-Nat.reducePow, written, sclFields, recFields, sclOf]

theorem statOf_layout : Layout statW statOf statFields := by
  refine ⟨fun _ => rfl, fun l hl o => ⟨fun h => ?_, ?_⟩⟩
  · unfold statOf at h
    split at h
    · split at h
      · cases h
        simp_all [fits, statW, statFields, written, Nat.mod_eq_of_lt]
      · cases h
    · cases h
  · rintro rfl
    simp [-Nat.reducePow, written, statFields, statOf]

theorem movOf_layout : Layout movW movOf movFields := by
  refine ⟨fun _ => rfl, fun l hl o => ⟨fun h => ?_, ?_⟩⟩
  · unfold movOf at h
    split at h
    · split at h
      · cases h
        simp_all [fits, movW, movFields, written, Nat.mod_eq_of_lt]
      · cases h
    · cases h
  · rintro rfl
    simp [-Nat.reducePow, written, movFields, movOf]

theorem csendOf_layout : Layout csendW csendOf csendFields := by
  refine ⟨fun _ => rfl, fun l hl o => ⟨fun h => ?_, ?_⟩⟩
  · unfold csendOf at h
    split at h
    · split at h
      · cases h
        simp_all [fits, csendW, csendFields, written, Nat.mod_eq_of_lt]
      · cases h
    · cases h
  · rintro rfl
    simp [-Nat.reducePow, written, csendFields, csendOf]

theorem crecvOf_layout : Layout crecvW crecvOf crecvFields := by
  refine ⟨fun _ => rfl, fun l hl o => ⟨fun h => ?_, ?_⟩⟩
  · unfold crecvOf at h
    split at h
    · split at h
      · cases h
        simp_all [fits, crecvW, crecvFields, written, Nat.mod_eq_of_lt]
      · cases h
    · cases h
  · rintro rfl
    simp [-Nat.reducePow, written, crecvFields, crecvOf]

theorem qaddOf_layout : Layout qaddW qaddOf qaddFields := by
  refine ⟨fun _ => rfl, fun l hl o => ⟨fun h => ?_, ?_⟩⟩
  · unfold qaddOf at h
    split at h
    · split at h
      · cases h
        simp_all [fits, qaddW, qaddFields, written, Nat.mod_eq_of_lt]
      · cases h
    · cases h
  · rintro rfl
    simp [-Nat.reducePow, written, qaddFields, qaddOf]

theorem loopOf_layout : Layout loopW loopOf loopFields := by
  refine ⟨fun _ => rfl, fun l hl o => ⟨fun h => ?_, ?_⟩⟩
  · unfold loopOf at h
    split at h
    · split at h
      · cases h
        simp_all [fits, loopW, loopFields, written, Nat.mod_eq_of_lt]
      · cases h
    · cases h
  · rintro rfl
    simp [-Nat.reducePow, written, loopFields, loopOf]


/-! ### Instructions of one operand or none: NOP, BAL, CHK, ENDL, WTICK, YIELD, HALT (Tables 7-5, 7-10, 7-11) -/

/-- The operand of BAL from its fields. -/
def balOf : List Nat → Option (BitVec 20)
  | [0, v, 0] => some (BitVec.ofNat 20 v)
  | _ => none

theorem balOf_layout : Layout [85, 20, 1] balOf (fun g : BitVec 20 => [(85, 0), (20, g.toNat), (1, 0)]) := by
  refine ⟨fun _ => rfl, fun l hl g => ⟨fun h => ?_, ?_⟩⟩
  · unfold balOf at h
    split at h
    · cases h
      simp_all [fits, written, Nat.mod_eq_of_lt]
    · cases h
  · rintro rfl
    simp [-Nat.reducePow, written, balOf]

theorem EOp.ofBits_bal (n : Nat) (g : BitVec 20) : EOp.ofBits (EOp.bal g).opcode n = (balOf (cutFields [85, 20, 1] n)).map EOp.bal := by
  simp only [EOp.opcode, EOp.ofBits]
  generalize cutFields [85, 20, 1] n = l
  split
  · rfl
  · next hl =>
    unfold balOf
    split
    · next v => exact (hl v rfl).elim
    · rfl

/-- The operand of CHK from its fields. -/
def chkOf : List Nat → Option (BitVec 2)
  | [0, v, 0] => some (BitVec.ofNat 2 v)
  | _ => none

theorem chkOf_layout : Layout [103, 2, 1] chkOf (fun g : BitVec 2 => [(103, 0), (2, g.toNat), (1, 0)]) := by
  refine ⟨fun _ => rfl, fun l hl g => ⟨fun h => ?_, ?_⟩⟩
  · unfold chkOf at h
    split at h
    · cases h
      simp_all [fits, written, Nat.mod_eq_of_lt]
    · cases h
  · rintro rfl
    simp [-Nat.reducePow, written, chkOf]

theorem EOp.ofBits_chk (n : Nat) (g : BitVec 2) : EOp.ofBits (EOp.chk g).opcode n = (chkOf (cutFields [103, 2, 1] n)).map EOp.chk := by
  simp only [EOp.opcode, EOp.ofBits]
  generalize cutFields [103, 2, 1] n = l
  split
  · rfl
  · next hl =>
    unfold chkOf
    split
    · next v => exact (hl v rfl).elim
    · rfl

/-- The operand of YIELD from its fields. -/
def yieldOf : List Nat → Option (Bool)
  | [0, v, 0] => some (decide (v = 1))
  | _ => none

theorem yieldOf_layout : Layout [104, 1, 1] yieldOf (fun g : Bool => [(104, 0), (1, g.toNat), (1, 0)]) := by
  refine ⟨fun _ => rfl, fun l hl g => ⟨fun h => ?_, ?_⟩⟩
  · unfold yieldOf at h
    split at h
    · cases h
      simp_all [fits, written, Nat.mod_eq_of_lt]
    · cases h
  · rintro rfl
    simp [-Nat.reducePow, written, yieldOf]

theorem EOp.ofBits_yield (n : Nat) (g : Bool) : EOp.ofBits (EOp.yield g).opcode n = (yieldOf (cutFields [104, 1, 1] n)).map EOp.yield := by
  simp only [EOp.opcode, EOp.ofBits]
  generalize cutFields [104, 1, 1] n = l
  split
  · rfl
  · next hl =>
    unfold yieldOf
    split
    · next v => exact (hl v rfl).elim
    · rfl


/-- A word names its opcode (Table 7-4). -/
theorem EOp.opcode_of_ofBits {code n : Nat} {o : EOp} (h : EOp.ofBits code n = some o) : code = o.opcode := by
  unfold EOp.ofBits at h
  split at h <;> grind [EOp.opcode, Option.map_eq_some_iff]

section
variable {n : Nat} (hn : n < 2 ^ 106)
include hn

/-- An instruction with a layout is read from bits [105:0] exactly where they are its packed fields. -/
theorem Layout.map_read_iff {α : Type} {W : List Nat} {read : List Nat → Option α} {fields : α → List (Nat × Nat)}
    (h : Layout W read fields) (hW : W.sum = 106) {mk : α → EOp} (hmk : ∀ x y, mk x = mk y → x = y) (x : α) :
    (read (cutFields W n)).map mk = some (mk x) ↔ n = packFields (fields x) := by
  rw [← Option.map_some, (Option.map_injective fun x y => hmk x y).eq_iff, h.read_cutFields_iff, hW, Nat.mod_eq_of_lt hn]

theorem reserved_iff (o : EOp) : (if n % 2 ^ 106 = 0 then some o else none) = some o ↔ n = packFields [(106, 0)] := by
  rw [Nat.mod_eq_of_lt hn]
  simp [packFields]

/-- Of an opcode, bits [105:0] give an instruction exactly where they are its packed fields (R184). -/
theorem EOp.ofBits_opcode_iff (o : EOp) : EOp.ofBits o.opcode n = some o ↔ n = packFields o.fields := by
  cases o with
  | nop => exact reserved_iff hn _
  | lds o => exact ldsOf_layout.map_read_iff hn rfl (fun _ _ => EOp.lds.inj) o
  | pass o => exact passOf_layout.map_read_iff hn rfl (fun _ _ => EOp.pass.inj) o
  | drain o => exact drainOf_layout.map_read_iff hn rfl (fun _ _ => EOp.drain.inj) o
  | drainr o => exact drainOf_layout.map_read_iff hn rfl (fun _ _ => EOp.drainr.inj) o
  | bal g =>
    rw [EOp.ofBits_bal]
    exact balOf_layout.map_read_iff hn rfl (fun _ _ => EOp.bal.inj) g
  | vop o => exact vOf_layout.map_read_iff hn rfl (fun _ _ => EOp.vop.inj) o
  | vred o => exact vOf_layout.map_read_iff hn rfl (fun _ _ => EOp.vred.inj) o
  | cvt o => exact xOf_layout.map_read_iff hn rfl (fun _ _ => EOp.cvt.inj) o
  | sfn o => exact fOf_layout.map_read_iff hn rfl (fun _ _ => EOp.sfn.inj) o
  | gact o => exact fOf_layout.map_read_iff hn rfl (fun _ _ => EOp.gact.inj) o
  | smx o => exact fOf_layout.map_read_iff hn rfl (fun _ _ => EOp.smx.inj) o
  | nrm o => exact fOf_layout.map_read_iff hn rfl (fun _ _ => EOp.nrm.inj) o
  | qclr o => exact vOf_layout.map_read_iff hn rfl (fun _ _ => EOp.qclr.inj) o
  | qmac o => exact vOf_layout.map_read_iff hn rfl (fun _ _ => EOp.qmac.inj) o
  | qacc o => exact vOf_layout.map_read_iff hn rfl (fun _ _ => EOp.qacc.inj) o
  | qrnd o => exact vOf_layout.map_read_iff hn rfl (fun _ _ => EOp.qrnd.inj) o
  | scl o => exact sclOf_layout.map_read_iff hn rfl (fun _ _ => EOp.scl.inj) o
  | stat o => exact statOf_layout.map_read_iff hn rfl (fun _ _ => EOp.stat.inj) o
  | mov o => exact movOf_layout.map_read_iff hn rfl (fun _ _ => EOp.mov.inj) o
  | csend o => exact csendOf_layout.map_read_iff hn rfl (fun _ _ => EOp.csend.inj) o
  | crecv o => exact crecvOf_layout.map_read_iff hn rfl (fun _ _ => EOp.crecv.inj) o
  | qadd o => exact qaddOf_layout.map_read_iff hn rfl (fun _ _ => EOp.qadd.inj) o
  | chk g =>
    rw [EOp.ofBits_chk]
    exact chkOf_layout.map_read_iff hn rfl (fun _ _ => EOp.chk.inj) g
  | loop o => exact loopOf_layout.map_read_iff hn rfl (fun _ _ => EOp.loop.inj) o
  | endl => exact reserved_iff hn _
  | wtick => exact reserved_iff hn _
  | yield g =>
    rw [EOp.ofBits_yield]
    exact yieldOf_layout.map_read_iff hn rfl (fun _ _ => EOp.yield.inj) g
  | halt => exact reserved_iff hn _

end

theorem EOp.opcode_lt (o : EOp) : o.opcode < 2 ^ 6 := by cases o <;> simp [EOp.opcode]

theorem EOp.packFields_fields_lt (o : EOp) : packFields o.fields < 2 ^ 106 := by
  have hsum : (o.fields.map Prod.fst).sum = 106 := by
    cases o <;> simp [EOp.fields, ldsFields, passFields, drainFields, vFields, fFields, xFields, recFields, sclFields, statFields, movFields,
      csendFields, crecvFields, qaddFields, loopFields]
  exact hsum ▸ packFields_lt o.fields

/-- A word is its opcode, DELAY and operands side by side (R184). -/
theorem toNat_encodeWord (d : BitVec 16) (o : EOp) :
    (encodeWord d o).toNat = packFields o.fields + 2 ^ 106 * (d.toNat + 2 ^ 16 * o.opcode) := by
  have hcode := o.opcode_lt
  have hfields := o.packFields_fields_lt
  have hd := d.isLt
  exact Nat.mod_eq_of_lt (by omega)

/-- A word decodes to a DELAY and an instruction exactly where it is their encoding. -/
theorem decodeWord_eq_some_iff (w : BitVec 128) (d : BitVec 16) (o : EOp) : decodeWord w = some (d, o) ↔ encodeWord d o = w := by
  have hlow : w.toNat % 2 ^ 106 < 2 ^ 106 := Nat.mod_lt _ (by decide)
  have hw := w.isLt
  have hd := d.isLt
  have hfields := o.packFields_fields_lt
  have hcode := o.opcode_lt
  rw [← BitVec.toNat_inj, toNat_encodeWord]
  unfold decodeWord
  rw [Option.map_eq_some_iff]
  constructor
  · rintro ⟨o', ho', heq⟩
    obtain ⟨rfl, rfl⟩ := Prod.mk.inj heq
    have hop := EOp.opcode_of_ofBits ho'
    rw [hop, EOp.ofBits_opcode_iff hlow] at ho'
    rw [← ho', ← hop, BitVec.toNat_ofNat]
    omega
  · intro h
    have hop : w.toNat / 2 ^ 122 = o.opcode := by omega
    have hdelay : w.toNat / 2 ^ 106 % 2 ^ 16 = d.toNat := by omega
    have hbits : w.toNat % 2 ^ 106 = packFields o.fields := by omega
    refine ⟨o, ?_, ?_⟩
    · rw [hop, EOp.ofBits_opcode_iff hlow, hbits]
    · rw [hdelay, BitVec.ofNat_toNat, BitVec.setWidth_eq]

end Sys2Proof

namespace Sys2Proof.Machine

/-- Settles O8: a word decodes to what it encodes. -/
theorem wordRoundTrip : Obligations.WordRoundTrip := fun d o => (decodeWord_eq_some_iff _ d o).2 rfl

/-- Settles O9: a word that decodes is the encoding of what it decodes to. -/
theorem wordCanonical : Obligations.WordCanonical := fun w d o => (decodeWord_eq_some_iff w d o).1

end Sys2Proof.Machine
end

