-- ==== Sys2Proof/Proofs/RefusedWords.lean ====
section
/-! PROOF. An engine instruction that the load checks refuse stops (R185 to R187, log entry 4). -/

namespace Sys2Proof.Machine

section
variable {c : Instr} {s t : State}

/-- A command whose meaning the load checks guard stops where they refuse its word. -/
theorem exec_of_gate (hgate : exec c s = gate c.wf t) (hwf : c.wf = false) : exec c s = .fault .noSuchCommand := by
  rw [hgate, hwf, gate_false]

/-- So does one guarded by a further check. -/
theorem exec_of_gate_and {more : Bool} (hgate : exec c s = gate (c.wf && more) t) (hwf : c.wf = false) :
    exec c s = .fault .noSuchCommand := by
  rw [hgate, hwf, Bool.false_and, gate_false]

end

/-- Settles O10: every engine instruction that Instr.wf can refuse has its meaning behind the gate. -/
theorem refusedWords : Obligations.RefusedWords := by
  intro c s hwf
  cases c with
  | sfn h o =>
    refine exec_of_gate_and (t := doSfn h o s) (more := (sfuSteps s o.ctl (compatOf s h.leng.toNat h.seg)).isSome &&
      sfnArgB h.seg o (compatOf s h.leng.toNat h.seg) s) ?_ hwf
    rw [← Bool.and_assoc]
    rfl
  | gact h o => exact exec_of_gate_and rfl hwf
  | nrm h o => exact exec_of_gate_and rfl hwf
  | lds h o => exact exec_of_gate rfl hwf
  | pass h o => exact exec_of_gate rfl hwf
  | drain h o => exact exec_of_gate rfl hwf
  | drainr h o => exact exec_of_gate rfl hwf
  | bal h g => exact exec_of_gate rfl hwf
  | vop h o => exact exec_of_gate rfl hwf
  | vred h o => exact exec_of_gate rfl hwf
  | cvt h o => exact exec_of_gate rfl hwf
  | smx h o => exact exec_of_gate rfl hwf
  | qclr h o => exact exec_of_gate rfl hwf
  | qmac h o => exact exec_of_gate rfl hwf
  | qacc h o => exact exec_of_gate rfl hwf
  | qrnd h o => exact exec_of_gate rfl hwf
  | scl h o => exact exec_of_gate rfl hwf
  | stat h o => exact exec_of_gate rfl hwf
  | mov h o => exact exec_of_gate rfl hwf
  | crecv h o => exact exec_of_gate rfl hwf
  | chk h kind => exact exec_of_gate rfl hwf
  | yield h step => exact exec_of_gate rfl hwf
  | _ => cases hwf

end Sys2Proof.Machine
end

