-- ==== Sys2Proof/Proofs/MovesStartFails.lean ====
section
/-! PROOF. A MOV into the Stacks reaches its hub before a read of the same line that is under way, and the read takes the written line
(R327). -/

namespace Sys2Proof.Machine

/-- The RT job of slot 0 runs on logical engines 0 and 60; line 0 of engine 0's Carrel is not zero. -/
def twoMovers : State :=
  { State.reset with
    regs := [(ridx pgMod 0x40, 2)]
    engs := [(0, { rt := { st := 1 }, carrel := [(0, 1)] }), (75, { rt := { st := 1 } })]
    jobs := [(0, { st := 2, bound := true, engMask := 2 ^ 60 + 1 })] }

/-- A MOV of one line between line 0 of the engine's Carrel and offset 0 of this module's Stacks. -/
def lineMov (dir : Bool) : MovOp :=
  { adv := false, dir := dir, xpose := false, xfmt := 0, localLine := 0, remote := 0, len := 1, dl := 9000, tag := 0, ten := false }

/-- Both MOVs issue in cycle 1 of their engines. -/
def movHdr (l : BitVec 6) : IssueHdr := { leng := l, seg := .rt, delay := 1 }

/-- Engine 60, whose requests cross the ring to the hub of offset 0, has issued its read of the line. -/
def readUnderWay : State := doMov (movHdr 60) (lineMov false) twoMovers

set_option maxRecDepth 4000 in
/-- The premises of the statement hold there for the write of engine 0. -/
theorem readUnderWay_meets :
    (Instr.mov (movHdr 0) (lineMov true)).wf = true ∧ ((issue .move 0 (movHdr 0) readUnderWay).any fun c => !c.dup &&
      inFoot c.s c.leng c.g (advance false 0 c.loops 0) 1 && decide (ownerOf c.s c.leng c.g = some 0) &&
      decide (bitsOf ((advance false 1 c.loops 0) * 64 % 2 ^ 48).toNat 43 5 = modNum readUnderWay) &&
      decide (placeOf ((advance false 1 c.loops 0) * 64 % 2 ^ 48).toNat = .stacks 0)) = true := by
  decide +kernel

set_option maxRecDepth 4000 in
/-- The write reaches the hub first, so that the read under way is to bring the line that it writes (R327). -/
theorem doMov_readUnderWay_xfers :
    (doMov (movHdr 0) (lineMov true) readUnderWay).xfers.head? ≠ readUnderWay.xfers.head? ∧ readUnderWay.xfers.head?.isSome = true := by
  decide +kernel

/-- Refutes O27: `Obligations.MovesStart` says that a MOV into the Stacks leaves the transfers in flight as they were. A read of the same
job that reaches the hub after the write, as that of a farther engine does, takes the line that is written (R327). -/
theorem not_movesStart : ¬ Obligations.MovesStart := by
  unfold Obligations.MovesStart
  intro hmoves
  obtain ⟨hwf, hissue⟩ := readUnderWay_meets
  obtain ⟨c, hc, hmeets⟩ := (Option.any_eq_true _ _).1 hissue
  simp only [Bool.and_eq_true, decide_eq_true_eq, Bool.not_eq_true'] at hmeets
  obtain ⟨⟨⟨⟨hdup, hfoot⟩, howner⟩, hmod⟩, hplace⟩ := hmeets
  obtain ⟨t, ht, -, -, x, hxfers, -⟩ := hmoves (movHdr 0) (lineMov true) readUnderWay c 0 0 _ _ hwf hc hdup rfl hfoot howner rfl hmod hplace
  obtain ⟨hchanged, hsome⟩ := doMov_readUnderWay_xfers
  have hrun : exec (.mov (movHdr 0) (lineMov true)) readUnderWay = .next (doMov (movHdr 0) (lineMov true) readUnderWay) := rfl
  rw [hrun] at ht
  injection ht with ht
  rw [ht, hxfers, List.head?_append, Option.or_of_isSome hsome] at hchanged
  exact hchanged rfl

end Sys2Proof.Machine
end

