-- ==== Sys2Proof/Proofs/SegmentCourse.lean ====
section
/-! PROOF. What the issue of an instruction leaves of the course of a segment: its loops, its last cycle, its steps, whether it runs. -/

namespace Sys2Proof.Machine

-- One proof at a time, as in the tests: proofs that wait for one another would each hold a stack.
set_option Elab.async false

/-! ### What hold windows and bit errors leave -/

/-- The record of a segment by its course: whether it runs, its program counter, its loops, its last cycle, its steps, a waiting CHK. -/
def SegSt.course (x : SegSt) : SegSt :=
  { st := x.st, pc := x.pc, loops := x.loops, last := x.last, chk := x.chk, stepNo := x.stepNo, stepped := x.stepped }

theorem SegSt.of_course {x y : SegSt} (h : x.course = y.course) :
    x.pc = y.pc ∧ x.last = y.last ∧ x.loops = y.loops ∧ x.st = y.st ∧ x.chk = y.chk ∧ x.stepNo = y.stepNo ∧ x.stepped = y.stepped :=
  ⟨(congrArg pc h : x.course.pc = y.course.pc), (congrArg last h : x.course.last = y.course.last),
    (congrArg loops h : x.course.loops = y.course.loops), (congrArg st h : x.course.st = y.course.st),
    (congrArg chk h : x.course.chk = y.course.chk), (congrArg stepNo h : x.course.stepNo = y.course.stepNo),
    (congrArg stepped h : x.course.stepped = y.course.stepped)⟩

/-- The courses of an engine's segments. -/
def Eng.course (e : Eng) : Eng := { rt := e.rt.course, bg := e.bg.course }

/-- An engine without its Carrel, its hold windows and the records due, its segments by their courses. -/
def Eng.steady (e : Eng) : Eng :=
  { e with rt := e.rt.course, bg := e.bg.course, carrel := [], cmark := [], olds := [], openH := [], recWrs := [] }

theorem Keeps.course {s t : State} (h : Keeps Eng.steady s t) : Keeps Eng.course s t :=
  h.mono fun e e' he => (congrArg Eng.course he : e.steady.course = e'.steady.course)

theorem segMod_steady (k : Nat) (g : Seg) (f : SegSt → SegSt) (s : State) (hf : ∀ x, (f x).course = x.course := by intro; rfl) :
    Keeps Eng.steady s (segMod k g f s) :=
  engMod_keeps k _ s fun e => by cases g <;> simp [Eng.segMod, Eng.steady, hf]

theorem schedFault_steady (k : Nat) (g : Seg) (pc cause cyc : Nat) (arrival : Bool) (s : State) :
    Keeps Eng.steady s (schedFault k g pc cause cyc arrival s) := by
  unfold schedFault
  extract_lets p gb s1 s2 s3
  have hfirst : LogOnly s s1 := by
    simp only [s1]
    split
    · exact (rset_logOnly _ _ _ _).trans (rset_logOnly _ _ _ _)
    · exact LogOnly.refl s
  exact (hfirst.trans (finc_logOnly _ _ _ _ _ _)).keeps.trans ((segMod_steady _ _ _ _).trans (raise_logOnly _ _ _).keeps)

theorem turnAway_steady (k line : Nat) (g : Seg) (pc cyc : Nat) (arrival : Bool) (s : State) :
    Keeps Eng.steady s (turnAway k line g pc cyc arrival s) :=
  (engMod_keeps _ _ _).trans (schedFault_steady _ _ _ _ _ _ _)

theorem undoWrite_steady (k cyc : Nat) (g : Seg) (o : OldLine) (s : State) : Keeps Eng.steady s (undoWrite k cyc g o s) := by
  have hback : Keeps Eng.steady s (engMod k (fun e => { e with olds := e.olds.erase o }) (cPut k o.line o.was o.mark s)) :=
    (engMod_keeps _ _ _).trans (engMod_keeps _ _ _)
  unfold undoWrite
  dsimp only
  split
  · exact hback.trans (turnAway_steady _ _ _ _ _ _ _)
  · exact hback.trans (engMod_keeps _ _ _)

theorem openHolds_steady (k : Nat) (g : Seg) (pc : Nat) (ls : List Loop) (cyc : Nat) (s : State) :
    Keeps Eng.steady s (openHolds k g pc ls cyc s) :=
  (engMod_keeps _ _ _).trans (foldS_keeps (fun _ _ => undoWrite_steady _ _ _ _ _) _ _)

theorem endHolds_steady (k t : Nat) (hit : HoldOpen → Bool) (s : State) : Keeps Eng.steady s (endHolds k t hit s) := by
  have hpend : Keeps Eng.steady s (pendTo k t s) :=
    (engMod_keeps _ _ _).trans (foldS_keeps (fun _ _ => turnAway_steady _ _ _ _ _ _ _) _ _)
  unfold endHolds
  exact (hpend.trans (engMod_keeps _ _ _)).trans
    ((foldS_keeps (fun _ _ => engMod_keeps _ _ _) _ _).trans (foldS_keeps (fun _ _ => engMod_keeps _ _ _) _ _))

theorem segMod_course (k : Nat) (g : Seg) (f : SegSt → SegSt) (s : State) (hf : ∀ x, (f x).course = x.course := by intro; rfl) :
    Keeps Eng.course s (segMod k g f s) := (segMod_steady k g f s hf).course

theorem markSeg_course (k : Nat) (g : Seg) (since : Nat) (m : Mark) (s : State) : Keeps Eng.course s (markSeg k g since m s) := by
  unfold markSeg
  dsimp only
  exact (foldS_keeps (fun _ _ => engMod_keeps _ _ _) _ s).trans ((engMod_keeps _ _ _).trans ((engMod_keeps _ _ _).trans (engMod_keeps _ _ _)))

/-- A sequencer fault leaves the segments' courses: what it stops, it stops at the next tick (R246). -/
theorem seqFault_course (l : Nat) (g : Seg) (monitor : Nat) (cyc : Option Nat) (s : State) :
    Keeps Eng.course s (seqFault l g monitor cyc s) := by
  unfold seqFault
  dsimp only
  refine Keeps.trans ?_ (engMod_keeps _ _ _)
  refine Keeps.trans ?_ (whenS_keeps (foldS_keeps (fun _ _ => jobMod_keeps _ _ _) _) _)
  refine Keeps.trans ?_ (whenS_keeps (fun s => (markSeg_course _ _ _ _ s).trans (segMod_course _ _ _ _)) _)
  have hrec := (takeFree_keeps (π := Eng.course) s).trans ((rset_logOnly (pgEng (storeKey s l) 0) 0x78
    (0x80000000#32 ||| BitVec.ofNat 32 monitor) (takeFree s).2).trans (raise_logOnly (pgEng (storeKey s l) 0) 1 _)).keeps
  split
  · exact (hrec.trans (errEng_keeps _ _ _ _ _ _ _)).trans (frameMod_keeps _ _ _ _)
  · exact hrec.trans (errEng_keeps _ _ _ _ _ _ _)

theorem upset_course (k l : Nat) (g : Seg) (pc cyc : Nat) (u : Upset) (s : State) : Keeps Eng.course s (upset k l g pc cyc u s) := by
  unfold upset
  split
  · exact (finc_logOnly _ _ _ _ _ _).keeps.trans (engMod_keeps _ _ _)
  · exact (takeFree_keeps s).trans (((finc_logOnly _ _ _ _ _ _).trans (rset_logOnly _ _ _ _)).keeps.trans
      ((engMod_keeps _ _ _).trans (errata_logOnly _ _).keeps))
  · exact (finc_logOnly _ _ _ _ _ _).keeps.trans (engMod_keeps _ _ _)
  · exact (finc_logOnly _ _ _ _ _ _).keeps.trans (engMod_keeps _ _ _)
  · exact Keeps.refl _ s
  · exact ((finc_logOnly _ _ _ _ _ _).trans (raise_logOnly _ _ _)).keeps.trans (engMod_keeps _ _ _)
  · exact (fset_logOnly _ _ _ _ _ _).keeps.trans (seqFault_course _ _ _ _ _)
  · exact seqFault_course _ _ _ _ _

/-! ### One segment's course -/

/-- A change of a segment's record whose course follows from the course before. -/
def OnCourse (F : SegSt → SegSt) : Prop := ∀ x y, x.course = y.course → (F x).course = (F y).course

theorem OnCourse.of_course {F G : SegSt → SegSt} (h : ∀ x, (F x).course = G x.course) : OnCourse F := fun x y hxy => by rw [h, h, hxy]

theorem issued_onCourse (g : Seg) (pc cyc : Nat) : OnCourse (SegSt.issued g pc cyc) :=
  OnCourse.of_course (G := fun x => { x with pc := pc + 1, last := cyc }) fun _ => rfl

/-- The engines' places are kept, and the course of a segment moves by `F`. -/
structure Moves (l : BitVec 6) (g : Seg) (F : SegSt → SegSt) (s t : State) : Prop where
  store : t.store = s.store
  on : OnCourse F
  course : (segOf t l g).course = (F (segOf s l g)).course

section
variable {l : BitVec 6} {g : Seg} {k : Nat} {s t u : State} {F G : SegSt → SegSt}

theorem Moves.trans (h : Moves l g F s t) (h' : Moves l g G t u) : Moves l g (G ∘ F) s u where
  store := h'.store.trans h.store
  on := fun x y hxy => h'.on _ _ (h.on x y hxy)
  course := h'.course.trans (h'.on _ _ h.course)

/-- A course that moved and then stays. -/
theorem Moves.stays (h : Moves l g F s t) (h' : Moves l g id t u) : Moves l g F s u := h.trans h'

theorem Moves.refl (l : BitVec 6) (g : Seg) (s : State) : Moves l g id s s := ⟨rfl, fun _ _ h => h, rfl⟩

/-- The course of a segment moves by any change that has the same course. -/
theorem Moves.congr (h : Moves l g F s t) (hG : ∀ x, (G x).course = (F x).course) : Moves l g G s t where
  store := h.store
  on := fun x y hxy => by rw [hG, hG, h.on x y hxy]
  course := h.course.trans (hG _).symm

theorem Moves.storeKey (h : Moves l g F s t) (x : Nat) : storeKey t x = storeKey s x := by
  rw [Machine.storeKey, h.store, Machine.storeKey]

theorem Keeps.moves (h : Keeps Eng.course s t) (l : BitVec 6) (g : Seg) : Moves l g id s t := by
  refine ⟨h.store, fun _ _ h => h, ?_⟩
  have hengs := h.engs (Machine.storeKey s l.toNat)
  rw [Machine.segOf, h.storeKey]
  cases g
  · exact (congrArg Eng.rt hengs : (eng t _).course.rt = (eng s _).course.rt)
  · exact (congrArg Eng.bg hengs : (eng t _).course.bg = (eng s _).course.bg)

theorem LogOnly.moves (h : LogOnly s t) (l : BitVec 6) (g : Seg) : Moves l g id s t := h.keeps.moves l g

theorem whenS_moves {b : Bool} {f : State → State} (h : ∀ s, Moves l g id s (f s)) (s : State) : Moves l g id s (whenS b f s) := by
  cases b
  · exact Moves.refl l g s
  · exact h s

/-- A change of a segment's record is what the segment then holds. -/
theorem segOf_segMod (hk : storeKey s l.toNat = k) (f : SegSt → SegSt) : segOf (segMod k g f s) l g = f (segOf s l g) := by
  have hkey : storeKey (segMod k g f s) l.toNat = k := hk
  rw [segOf, hkey, segMod, eng_engMod, if_pos rfl, segOf, hk]
  cases g <;> rfl

theorem segMod_moves (hk : storeKey s l.toNat = k) (hF : OnCourse F) : Moves l g F s (segMod k g F s) :=
  ⟨rfl, hF, congrArg SegSt.course (segOf_segMod hk F)⟩

/-- A change of the other segment's record leaves a segment alone. -/
theorem segMod_other (k : Nat) {g' : Seg} (hg : g' ≠ g) (f : SegSt → SegSt) (s : State) : Moves l g id s (segMod k g' f s) := by
  refine ⟨rfl, fun _ _ h => h, congrArg SegSt.course ?_⟩
  have hkey : storeKey (segMod k g' f s) l.toNat = storeKey s l.toNat := rfl
  rw [segOf, hkey, segMod, eng_engMod, id, segOf]
  split
  · next h =>
    rw [h]
    cases g <;> cases g'
    · exact absurd rfl hg
    · rfl
    · rfl
    · exact absurd rfl hg
  · rfl

end

/-! ### Issue (R171) -/

section
variable {u : EUnit} {rel : Nat} {h : IssueHdr} {s t : State} {c : Ctx}

/-- A segment that issues with nothing held in place of `rel` does so in its declared cycle, or at `rel` where that is later. -/
theorem issue_of_issues_rel {s : State} {h : IssueHdr} (u : EUnit) (rel : Nat) (hissues : issues s h u.page = true) :
    ∃ c, issue u rel h s = some c ∧ c.cyc = max (declared s h) rel := by
  unfold issues at hissues
  simp only [Bool.and_eq_true, decide_eq_true_eq] at hissues
  obtain ⟨⟨hlive, hen⟩, hstop⟩ := hissues
  refine ⟨_, if_pos ?_, rfl⟩
  rw [hlive, hen, SegSt.goesOn, show ((eng s (storeKey s h.leng.toNat)).seg h.seg).stopAt = none from hstop]
  rfl

theorem issued_eq (hc : issue u rel h s = some c) (f : Ctx → State) : issued u rel h s f = f c := by
  rw [issued, hc]

/-- An instruction that has issued has its segment's engine. -/
theorem issue_key (hc : issue u rel h s = some c) : storeKey c.s h.leng.toNat = c.k := issue_storeKey hc (Keeps.refl _ _)

/-- The segment of an instruction that has issued: its program counter and last cycle have moved, the rest of its course is as it was. -/
theorem issue_moves (hc : issue u rel h s = some c) : Moves h.leng h.seg (SegSt.issued h.seg (segOf s h.leng h.seg).pc c.cyc) s c.s := by
  obtain ⟨-, -, -, hk, -, -, hpc, -⟩ := issue_some hc
  have hpc' : (segOf s h.leng h.seg).pc = c.pc := hpc.symm
  have hunits : Keeps Eng.course s (engMod c.k (fun e => { e with units := (u, c.cyc) :: e.units.filter fun p => decide (p.1 ≠ u) }) s) :=
    engMod_keeps _ _ _
  rw [issue_state hc, hpc']
  refine ((hunits.moves _ _).trans (segMod_moves hk.symm (issued_onCourse _ _ _))).trans (Keeps.moves ?_ _ _)
  exact (openHolds_steady _ _ _ _ _ _).course.trans (foldS_keeps (fun _ _ => upset_course _ _ _ _ _ _ _) _ _)

end

end Sys2Proof.Machine
end

