-- ==== Sys2Proof/Proofs/ControlWords.lean ====
section
/-! PROOF. NOP, LOOP, ENDL and CHK (R171, R172, R182, R194). -/

namespace Sys2Proof.Machine

set_option Elab.async false

/-! ### The control unit's duplicate check and a waiting CHK -/

theorem ctlDup_steady (c : Ctx) (s : State) : Keeps Eng.steady s (ctlDup c s) :=
  whenS_keeps (fun s => schedFault_steady _ _ _ _ _ _ s) s

theorem ctlDup_moves (c : Ctx) (l : BitVec 6) (g : Seg) (s : State) : Moves l g id s (ctlDup c s) :=
  (ctlDup_steady c s).course.moves l g

theorem revealChk_of_none {c : Ctx} {s : State} (h : ((eng s c.k).seg c.g).chk = none) : revealChk c s = s := by
  rw [revealChk, h]

theorem revealChk_of_some {c : Ctx} {s : State} {p : Nat} (h : ((eng s c.k).seg c.g).chk = some p) :
    revealChk c s = segMod c.k c.g (fun x => { x with chk := none }) (schedFault c.k c.g p 0x0B c.cyc false s) := by
  rw [revealChk, h]

/-- A waiting CHK that finds no PASS leaves nothing of the segment's course but that none waits. -/
theorem revealChk_moves {c : Ctx} {s : State} {l : BitVec 6} (hk : storeKey s l.toNat = c.k) :
    Moves l c.g (fun x => { x with chk := none }) s (revealChk c s) := by
  have hon : OnCourse fun x => { x with chk := none } := OnCourse.of_course (G := fun x => { x with chk := none }) fun _ => rfl
  cases hchk : (segOf s l c.g).chk with
  | none =>
    rw [revealChk_of_none (by rw [← hk]; exact hchk)]
    exact ⟨rfl, hon, congrArg (fun v => ({ segOf s l c.g with chk := v } : SegSt).course) hchk⟩
  | some p =>
    have hfault := (schedFault_steady c.k c.g p 0x0B c.cyc false s).course.moves l c.g
    rw [revealChk_of_some (by rw [← hk]; exact hchk)]
    exact hfault.trans (segMod_moves ((hfault.storeKey _).trans hk) hon)

/-! ### NOP, LOOP and ENDL -/

section
variable {h : IssueHdr} {s : State} {c : Ctx}

/-- An engine with nothing but its array and its lanes. -/
def Eng.arrays (e : Eng) : Eng := { arr := e.arr, vec := e.vec }

theorem Keeps.arrays {t : State} (hs : Keeps Eng.steady s t) : Keeps Eng.arrays s t :=
  hs.mono fun e e' he => (congrArg Eng.arrays he : e.steady.arrays = e'.steady.arrays)

/-- Where no bit error strikes an instruction, its issue leaves the array and the lanes. -/
theorem issue_arrays {u : EUnit} {rel : Nat} (hc : issue u rel h s = some c) (hupsets : h.upsets = []) : Keeps Eng.arrays s c.s := by
  rw [issue_state hc, hupsets]
  exact ((engMod_keeps _ _ _).trans (engMod_keeps _ _ _ fun e => by cases h.seg <;> rfl)).trans (openHolds_steady _ _ _ _ _ _).arrays

/-- NOP leaves the loops, and where no bit error strikes the array and the lanes (R182). -/
theorem doNop_effect (hc : issue .control 0 h s = some c) :
    pcMoved s (doNop h s) h ∧ (segOf (doNop h s) h.leng h.seg).last = c.cyc ∧
      (segOf (doNop h s) h.leng h.seg).loops = (segOf s h.leng h.seg).loops ∧
      (h.upsets = [] → (eng (doNop h s) (storeKey s h.leng.toNat)).arr = (eng s (storeKey s h.leng.toNat)).arr ∧
        (eng (doNop h s) (storeKey s h.leng.toNat)).vec = (eng s (storeKey s h.leng.toNat)).vec) := by
  have heq : doNop h s = ctlDup c c.s := issued_eq hc _
  obtain ⟨hpc, hlast, hloops, -⟩ := SegSt.of_course ((issue_moves hc).trans (ctlDup_moves c _ _ c.s)).course
  rw [heq]
  refine ⟨hpc, hlast, hloops, fun hupsets => ?_⟩
  have harr := ((issue_arrays hc hupsets).trans (ctlDup_steady c c.s).arrays).engs (storeKey s h.leng.toNat)
  exact ⟨(congrArg Eng.arr harr : (eng _ _).arrays.arr = (eng _ _).arrays.arr),
    (congrArg Eng.vec harr : (eng _ _).arrays.vec = (eng _ _).arrays.vec)⟩

/-- A segment at its LOOP (R182). -/
def SegSt.openLoop (pc : Nat) (o : LoopOp) (x : SegSt) : SegSt :=
  { x with loops :=
      { body := pc + 1, count := o.cntm1.toNat + 1, idx := 0, d0 := o.d0, d1 := o.d1, d2 := o.d2, d3 := o.d3 } :: x.loops }

/-- LOOP opens a level whose body is the next word (R182). -/
theorem doLoop_effect (o : LoopOp) (hc : issue .control 0 h s = some c) :
    pcMoved s (doLoop h o s) h ∧ (segOf (doLoop h o s) h.leng h.seg).last = c.cyc ∧
      (segOf (doLoop h o s) h.leng h.seg).loops =
        { body := (segOf s h.leng h.seg).pc + 1, count := o.cntm1.toNat + 1, idx := 0, d0 := o.d0, d1 := o.d1, d2 := o.d2,
          d3 := o.d3 } :: (segOf s h.leng h.seg).loops := by
  obtain ⟨-, -, -, -, -, hg, hpc, -⟩ := issue_some hc
  have heq : doLoop h o s = ctlDup c (segMod c.k h.seg (SegSt.openLoop c.pc o) c.s) := hg ▸ issued_eq hc _
  have hon : OnCourse (SegSt.openLoop c.pc o) := OnCourse.of_course (G := SegSt.openLoop c.pc o) fun _ => rfl
  obtain ⟨hpc', hlast, hloops, -⟩ :=
    SegSt.of_course (((issue_moves hc).trans (segMod_moves (issue_key hc) hon)).trans (ctlDup_moves c _ _ _)).course
  rw [heq]
  refine ⟨hpc', hlast, hloops.trans ?_⟩
  rw [hpc]
  rfl

/-- The innermost loop of a segment at its ENDL (R182). -/
def SegSt.endLoop (x : SegSt) : SegSt :=
  match x.loops with
  | [] => x
  | l :: t =>
    if l.idx + 1 < l.count then { x with loops := { l with idx := l.idx + 1 } :: t, pc := l.body } else { x with loops := t }

theorem SegSt.endLoop_course (x : SegSt) : x.endLoop.course = x.course.endLoop := by
  unfold endLoop
  rw [show x.course.loops = x.loops from rfl]
  cases x.loops with
  | nil => rfl
  | cons l t =>
    dsimp only
    split <;> rfl

theorem SegSt.endLoop_cons {x : SegSt} {l : Loop} {t : List Loop} (hloops : x.loops = l :: t) :
    x.endLoop = if l.idx + 1 < l.count then { x with loops := { l with idx := l.idx + 1 } :: t, pc := l.body } else { x with loops := t } := by
  rw [endLoop, hloops]

/-- ENDL goes back to the body of the innermost loop, or closes it after its last iteration (R182). -/
theorem doEndl_effect {l : Loop} {rest : List Loop} (hc : issue .control 0 h s = some c)
    (hloops : (segOf s h.leng h.seg).loops = l :: rest) :
    (segOf (doEndl h s) h.leng h.seg).last = c.cyc ∧
      (l.idx + 1 < l.count → (segOf (doEndl h s) h.leng h.seg).loops = { l with idx := l.idx + 1 } :: rest ∧
        (segOf (doEndl h s) h.leng h.seg).pc = l.body) ∧
      (l.count ≤ l.idx + 1 → (segOf (doEndl h s) h.leng h.seg).loops = rest ∧ pcMoved s (doEndl h s) h) := by
  obtain ⟨-, -, -, -, -, hg, -⟩ := issue_some hc
  have heq : doEndl h s = ctlDup c (segMod c.k h.seg SegSt.endLoop c.s) := hg ▸ issued_eq hc _
  have hend : (segOf (doEndl h s) h.leng h.seg).course =
      ((segOf s h.leng h.seg).issued h.seg (segOf s h.leng h.seg).pc c.cyc).endLoop.course := by
    rw [heq]
    exact (((issue_moves hc).trans (segMod_moves (issue_key hc) (OnCourse.of_course SegSt.endLoop_course))).trans (ctlDup_moves c _ _ _)).course
  have hissued : ((segOf s h.leng h.seg).issued h.seg (segOf s h.leng h.seg).pc c.cyc).loops = l :: rest := hloops
  rw [SegSt.endLoop_cons hissued] at hend
  by_cases hmore : l.idx + 1 < l.count
  · rw [if_pos hmore] at hend
    obtain ⟨hpc, hlast, hloops', -⟩ := SegSt.of_course hend
    exact ⟨hlast, fun _ => ⟨hloops', hpc⟩, fun hle => absurd hmore (Nat.not_lt.2 hle)⟩
  · rw [if_neg hmore] at hend
    obtain ⟨hpc, hlast, hloops', -⟩ := SegSt.of_course hend
    exact ⟨hlast, fun hlt => absurd hlt hmore, fun _ => ⟨hloops', hpc⟩⟩

/-! ### CHK -/

/-- A waiting CHK that finds no PASS counts one SCHED_FAULT for its segment; nothing counts where none waits (R194). -/
theorem revealChk_counts {l : BitVec 6} (hk : storeKey s l.toNat = c.k) :
    ((segOf s l c.g).chk.isSome = true → (segOf (revealChk c s) l c.g).sfCount = (segOf s l c.g).sfCount + 1) ∧
      ((segOf s l c.g).chk = none → revealChk c s = s) := by
  constructor
  · intro hsome
    obtain ⟨p, hp⟩ := Option.isSome_iff_exists.1 hsome
    have hfault := ((schedFault_steady c.k c.g p 0x0B c.cyc false s).course.moves l c.g).storeKey l.toNat
    rw [revealChk_of_some (by rw [← hk]; exact hp), segOf_segMod (hfault.trans hk)]
    show (segOf _ l c.g).sfCount = _
    rw [segOf, hfault, hk, (schedFault_counts c.k c.g c.g p 0x0B c.cyc false s).1, if_pos rfl, segOf, hk]
  · intro hnone
    exact revealChk_of_none (by rw [← hk]; exact hnone)

/-- CHK waits with its program counter for the next PASS of its segment (R194). -/
theorem doChk_effect (hc : issue .check 0 h s = some c) (hdup : c.dup = false) :
    pcMoved s (doChk h s) h ∧ (segOf (doChk h s) h.leng h.seg).chk = some (segOf s h.leng h.seg).pc ∧
      (holdsQuiet s h → (segOf s h.leng h.seg).chk.isSome = true →
        (segOf (doChk h s) h.leng h.seg).sfCount = (segOf s h.leng h.seg).sfCount + 1) ∧
      (holdsQuiet s h → (segOf s h.leng h.seg).chk = none →
        (segOf (doChk h s) h.leng h.seg).sfCount = (segOf s h.leng h.seg).sfCount) := by
  obtain ⟨-, -, -, hks, -, hg, hpc, -⟩ := issue_some hc
  have hk := issue_key hc
  have heq : doChk h s = segMod c.k h.seg (fun x => { x with chk := some c.pc }) (revealChk c c.s) := by
    rw [doChk, issued_eq hc, hdup, hg]
    rfl
  have hrev := revealChk_moves hk
  obtain ⟨hsome, hnone⟩ := revealChk_counts hk
  rw [hg] at hrev hsome hnone
  have hcourse := (issue_moves hc).trans hrev
  have hstore := (hrev.storeKey _).trans hk
  obtain ⟨-, -, -, -, hchk', -⟩ := SegSt.of_course (issue_moves hc).course
  have hchk : (segOf c.s h.leng h.seg).chk = (segOf s h.leng h.seg).chk := hchk'
  have hcount (hquiet : holdsQuiet s h) : (segOf c.s h.leng h.seg).sfCount = (segOf s h.leng h.seg).sfCount := by
    have hsame := (issue_quiet hc hquiet h.seg).2.seg
    rw [segOf, hk, hsame, segOf, ← hks]
  rw [heq, pcMoved, segOf_segMod hstore]
  refine ⟨?_, congrArg some hpc, fun hquiet hs => ?_, fun hquiet hn => ?_⟩
  · exact (SegSt.of_course hcourse.course).1
  · exact (hsome (hchk ▸ hs)).trans (congrArg (· + 1) (hcount hquiet))
  · exact (congrArg (fun t => (segOf t h.leng h.seg).sfCount) (hnone (hchk ▸ hn))).trans (hcount hquiet)

end

/-- Settles O11: each instruction changes its segment's record after it has issued, and what its issue opens, strikes and faults
leaves the loops, the program counter and the last cycle. -/
theorem loopWords : Obligations.LoopWords := by
  unfold Obligations.LoopWords
  refine ⟨fun h s hissues => ?_, fun h s hissues hfirst => ?_⟩
  · obtain ⟨c, hc, hcyc, -⟩ := issue_of_issues .control hissues
    rw [← hcyc]
    refine ⟨⟨_, rfl, doNop_effect hc⟩, fun o => ⟨_, rfl, doLoop_effect o hc⟩, fun l rest hloops => ⟨_, rfl, doEndl_effect hc hloops⟩⟩
  · obtain ⟨c, hc, -, -, hdup⟩ := issue_of_issues .check hissues
    exact ⟨_, gate_true _, doChk_effect hc (hdup hfirst)⟩

end Sys2Proof.Machine
end

