-- ==== Sys2Proof/Proofs/SegmentEnds.lean ====
section
/-! PROOF. WTICK, YIELD and HALT, the completion monitor and the BG watchdog (R177, R179 to R181, R246). -/

namespace Sys2Proof.Machine

set_option Elab.async false

/-! ### What the end of a segment writes down beside it -/

section
variable {s : State}

theorem lateFrame_course (c : Ctx) (s : State) : Keeps Eng.course s (lateFrame c s) := by
  unfold lateFrame
  split
  · exact engMod_keeps _ _ _
  · exact Keeps.refl _ s

theorem closeFrames_keeps {π : Eng → Eng} (j : Nat) (s : State) : Keeps π s (closeFrames j s) := by
  unfold closeFrames
  dsimp only
  split
  · exact Keeps.refl π s
  · exact keeps_of_engs rfl rfl rfl

theorem noteSlack_keeps {π : Eng → Eng} (j : Nat) (fr : BitVec 64) (v : Int) (s : State) : Keeps π s (noteSlack j fr v s) := by
  unfold noteSlack
  dsimp only
  split
  · exact (frameMod_keeps j fr _ s).trans (jobMod_keeps _ _ _)
  · exact frameMod_keeps j fr _ s

theorem clearSlog_logOnly (k : Nat) (s : State) : LogOnly s (clearSlog k s) := by
  unfold clearSlog
  split
  · exact fset_logOnly _ _ _ _ _ _
  · exact LogOnly.refl s

/-- The start of the BG segment leaves the RT segment alone. -/
theorem startBg_moves (k c : Nat) (l : BitVec 6) (s : State) : Moves l .rt id s (startBg k c s) :=
  (segMod_other k (by decide) _ s).trans (whenS_moves (fun s => (clearSlog_logOnly _ s).moves _ _) _)

end

/-! ### WTICK, YIELD and HALT -/

/-- A segment that ends, for the frame or for good: a CHK waits no longer. -/
def SegSt.ends (st : Nat) (x : SegSt) : SegSt := { x with st := st, chk := none }

section
variable {h : IssueHdr} {s : State} {c : Ctx} {u : EUnit} {rel : Nat}

/-- A segment that ends finds out a waiting CHK and whether it is the control unit's second instruction of the cycle. -/
theorem ending_moves (hc : issue u rel h s = some c) :
    Moves h.leng h.seg (fun x => { x with chk := none }) c.s (revealChk c (ctlDup c c.s)) := by
  obtain ⟨-, -, -, -, -, hg, -⟩ := issue_some hc
  have hdup := ctlDup_moves c h.leng h.seg c.s
  rw [← hg] at hdup ⊢
  exact hdup.trans (revealChk_moves ((hdup.storeKey _).trans (issue_key hc)))

/-- A change that sets only whether the segment runs ends it. -/
theorem ends_moves {k st : Nat} {l : BitVec 6} {g : Seg} {F : SegSt → SegSt} {t : State}
    (hs : Moves l g (fun x => { x with chk := none }) s t) (hk : storeKey t l.toNat = k)
    (hF : ∀ x, (F x).course = { x.course with st := st }) : Moves l g (SegSt.ends st) s (segMod k g F t) :=
  (hs.trans (segMod_moves hk (OnCourse.of_course (G := fun x => { x with st := st }) hF))).congr fun x => (hF { x with chk := none }).symm

/-- WTICK ends the segment for the frame (R177). -/
theorem doWtick_moves (hc : issue .control ((segOf s h.leng h.seg).busyTo + 1) h s = some c) :
    Moves h.leng h.seg (SegSt.ends 2) c.s (doWtick h s) := by
  have hend := ending_moves hc
  have hk := (hend.storeKey _).trans (issue_key hc)
  obtain ⟨-, -, -, -, -, hg, -⟩ := issue_some hc
  have heq : doWtick h s = _ := issued_eq hc _
  rw [heq]
  generalize revealChk c (ctlDup c c.s) = s1 at *
  cases hseg : h.seg with
  | bg =>
    rw [hseg] at hg hend
    rw [hg]
    exact (ends_moves hend hk fun _ => rfl).trans (((finc_logOnly _ _ _ _ _ _).keeps.trans (lateFrame_course c _)).moves _ _)
  | rt =>
    rw [hseg] at hg hend
    rw [hg]
    dsimp -zeta only
    extract_lets s2 sg sig p crossed s3 s4 s5 s6
    have hsig : Keeps Eng.course s1 s4 := ((rset_logOnly _ _ _ _).trans (rset_logOnly _ _ _ _)).keeps.trans
      (whenS_keeps (fun _ => seqFault_course _ _ _ _ _) _)
    have hstop : Moves h.leng .rt (SegSt.ends 2) c.s s5 :=
      ends_moves (hend.trans (hsig.moves _ _)) ((hsig.storeKey _).trans hk) fun _ => rfl
    have hclose : Keeps Eng.course s5 s6 := by
      simp only [s6]
      split
      · exact ((frameMod_keeps _ _ _ _).trans (noteSlack_keeps _ _ _ _)).trans (closeFrames_keeps _ _)
      · exact Keeps.refl _ s5
    refine (hstop.trans (hclose.moves _ _)).trans (?_ : Moves h.leng .rt id s6 _)
    split
    · exact (lateFrame_course c s6).moves _ _
    · exact whenS_moves (fun s => startBg_moves _ _ _ s) s6

theorem doWtick_effect (hc : issue .control ((segOf s h.leng h.seg).busyTo + 1) h s = some c) :
    pcMoved s (doWtick h s) h ∧ (segOf (doWtick h s) h.leng h.seg).st = 2 ∧ (segOf (doWtick h s) h.leng h.seg).last = c.cyc := by
  obtain ⟨hpc, hlast, -, hst, -⟩ := SegSt.of_course ((issue_moves hc).trans (doWtick_moves hc)).course
  exact ⟨hpc, hst, hlast⟩

/-! ### YIELD -/

/-- A segment at a YIELD: with STEP its next step begins, or is due where the frame's is taken (R179). -/
def SegSt.stepAt (step : Bool) (cyc : Nat) (x : SegSt) : SegSt :=
  if step then (if x.stepped then { x with stepDue := true } else x.advanceStep cyc) else x

theorem SegSt.stepAt_onCourse (step : Bool) (cyc : Nat) : OnCourse (SegSt.stepAt step cyc) := by
  refine OnCourse.of_course
    (G := fun x => if step then (if x.stepped then x else { x with stepped := true, stepNo := x.stepNo + 1 }) else x) fun x => ?_
  rw [stepAt, show x.course.stepped = x.stepped from rfl]
  split
  · split <;> rfl
  · rfl

theorem SegSt.stepAt_effect (step : Bool) (cyc : Nat) (x : SegSt) :
    (x.stepAt step cyc).pc = x.pc ∧ (x.stepAt step cyc).last = x.last ∧ (x.stepAt step cyc).st = x.st ∧
      (step = true → x.stepped = false → (x.stepAt step cyc).stepNo = x.stepNo + 1) ∧
      (step = false → (x.stepAt step cyc).stepNo = x.stepNo) := by
  unfold stepAt
  cases step with
  | false => exact ⟨rfl, rfl, rfl, fun h => absurd h (by decide), fun _ => rfl⟩
  | true =>
    rw [if_pos rfl]
    split
    · next hstepped => exact ⟨rfl, rfl, rfl, fun _ h => absurd (h.symm.trans hstepped) (by decide), fun h => absurd h (by decide)⟩
    · exact ⟨rfl, rfl, rfl, fun _ _ => rfl, fun h => absurd h (by decide)⟩

/-- A YIELD takes the step that STEP asks for, and ends the segment for the frame where it suspends (R179, R180). -/
theorem doYield_moves {step : Bool} (hbg : h.seg = .bg)
    (hc : issue .control (if yieldSuspends s h step then (segOf s h.leng .bg).busyTo + 1 else 0) h s = some c) :
    Moves h.leng .bg ((if yieldSuspends s h step then SegSt.ends 2 else id) ∘ SegSt.stepAt step c.cyc) c.s (doYield h step s) := by
  obtain ⟨-, -, -, -, -, hg, -⟩ := issue_some hc
  rw [hbg] at hg
  have heq : doYield h step s = _ := issued_eq hc _
  rw [heq]
  extract_lets s1 sg s2 s3 s4 s5
  have hdup : Moves h.leng .bg id c.s s1 := ctlDup_moves c _ _ c.s
  have hk1 := (hdup.storeKey _).trans (issue_key hc)
  have hquiet : Moves h.leng .bg id c.s s2 := hdup.trans ((segMod_course _ _ _ _).moves _ _)
  have hk2 := (hquiet.storeKey _).trans (issue_key hc)
  have hstep : Moves h.leng .bg (SegSt.stepAt step c.cyc) c.s s3 := by
    cases step with
    | false => exact hquiet
    | true => exact hquiet.trans (segMod_moves hk2 (SegSt.stepAt_onCourse true c.cyc))
  have hslog : Moves h.leng .bg (SegSt.stepAt step c.cyc) c.s s4 := hstep.trans (whenS_moves (fun s => (clearSlog_logOnly _ s).moves _ _) s3)
  split
  · have hrev : Moves h.leng .bg (fun x => { x with chk := none }) s4 s5 := hg ▸ revealChk_moves ((hslog.storeKey _).trans (issue_key hc))
    have hk5 := (hrev.storeKey _).trans ((hslog.storeKey _).trans (issue_key hc))
    have hstop := ends_moves (F := fun x => { x with st := 2 }) hrev hk5 fun _ => rfl
    exact (hslog.trans hstop).trans (((finc_logOnly _ _ _ _ _ _).keeps.trans (lateFrame_course c _)).moves _ _)
  · exact hslog

theorem doYield_effect {step : Bool} (hbg : h.seg = .bg)
    (hc : issue .control (if yieldSuspends s h step then (segOf s h.leng .bg).busyTo + 1 else 0) h s = some c) :
    pcMoved s (doYield h step s) h ∧ (segOf (doYield h step s) h.leng .bg).st = (if yieldSuspends s h step then 2 else 1) ∧
      (segOf (doYield h step s) h.leng .bg).last = c.cyc ∧
      (step = true → (segOf s h.leng .bg).stepped = false →
        (segOf (doYield h step s) h.leng .bg).stepNo = (segOf s h.leng .bg).stepNo + 1) ∧
      (step = false → (segOf (doYield h step s) h.leng .bg).stepNo = (segOf s h.leng .bg).stepNo) := by
  obtain ⟨hlive, -⟩ := issue_some hc
  have hyield := (issue_moves hc).trans (hbg.symm ▸ doYield_moves hbg hc)
  have hst : (segOf s h.leng .bg).st = 1 := by
    rw [live, hbg] at hlive
    exact of_decide_eq_true (Bool.and_eq_true_iff.1 hlive).2
  rw [hbg] at hyield
  obtain ⟨hpc, hlast, -, hrun, -, hno, -⟩ := SegSt.of_course hyield.course
  obtain ⟨hpc', hlast', hrun', hone, hnone⟩ :=
    SegSt.stepAt_effect step c.cyc ((segOf s h.leng .bg).issued .bg (segOf s h.leng .bg).pc c.cyc)
  rw [pcMoved, hbg]
  refine ⟨?_, ?_, ?_, fun hs hn => ?_, fun hs => ?_⟩
  · rw [hpc]
    split
    · exact hpc'
    · exact hpc'
  · rw [hrun]
    split
    · rfl
    · exact hrun'.trans hst
  · rw [hlast]
    split <;> exact hlast'
  · rw [hno]
    split <;> exact hone hs hn
  · rw [hno]
    split <;> exact hnone hs

end

/-! ### HALT -/

/-- The scope of everything that an engine's instruction may touch: it says what is left of the jobs (R176). -/
def openScope : Scope where
  stats := true
  page _ := True
  same _ _ _ := True
  errata := trivial
  vilri := trivial
  refl _ _ := trivial
  trans _ _ := trivial

theorem openScope_runs (k : Nat) : openScope.Runs k := ⟨trivial, trivial, fun _ _ _ => trivial⟩

theorem openScope_free (k : Nat) : openScope.Free k := ⟨fun _ _ => trivial, fun _ _ _ => trivial⟩

theorem revealChk_within (c : Ctx) (s : State) : Within openScope s (revealChk c s) := by
  unfold revealChk
  split
  · exact Within.refl _ s
  · exact (schedFault_within (openScope_runs _) _ _ _ _ _ s).trans (engMod_within trivial)

/-- The halted engines of a job are kept. -/
def SameHalted (j : Nat) (s t : State) : Prop := (job t j).halted = (job s j).halted

theorem sameHalted_of_jobs {s t : State} (h : t.jobs = s.jobs) (j : Nat) : SameHalted j s t := by
  unfold SameHalted job
  rw [h]

theorem jobMod_sameHalted (j : Nat) (f : Job → Job) (s : State) (hf : ∀ b, (f b).halted = b.halted := by intro; rfl) :
    SameHalted j s (jobMod j f s) := by
  unfold SameHalted
  rw [job_jobMod, if_pos rfl, hf]

theorem SameHalted.trans {j : Nat} {s t u : State} (h : SameHalted j s t) (h' : SameHalted j t u) : SameHalted j s u :=
  Eq.trans h' h

theorem closeFrames_sameHalted (j : Nat) (s : State) : SameHalted j s (closeFrames j s) := by
  unfold closeFrames
  dsimp only
  split
  · rfl
  · exact jobMod_sameHalted j _ { s with ready := _ }

/-- An engine that HALTs in its job's RT segment ends its part of the job's frames. -/
def endPart (j : Nat) (bit : BitVec 64) (t : State) : State :=
  closeFrames j (jobMod j (fun b => { b with frames := b.frames.map fun f => { f with done := f.done ||| bit } }) t)

theorem endPart_keeps {π : Eng → Eng} (j : Nat) (bit : BitVec 64) (t : State) : Keeps π t (endPart j bit t) :=
  (jobMod_keeps _ _ _).trans (closeFrames_keeps _ _)

theorem endPart_sameHalted (j : Nat) (bit : BitVec 64) (t : State) : SameHalted j t (endPart j bit t) :=
  (jobMod_sameHalted _ _ _).trans (closeFrames_sameHalted _ _)

/-- The job is shown halted once all its engines are (R181). -/
def haltJob (j : Nat) (s : State) : State :=
  if (job s j).engMask &&& ~~~(job s j).halted = 0 then raise pgMod 0 (sendEvent 0x000E [j, 5] (jobMod j (fun b => { b with st := 5 }) s))
  else s

theorem haltJob_keeps {π : Eng → Eng} (j : Nat) (s : State) : Keeps π s (haltJob j s) := by
  unfold haltJob
  split
  · exact (jobMod_keeps _ _ _).trans ((sendEvent_logOnly _ _ _).trans (raise_logOnly _ _ _)).keeps
  · exact Keeps.refl π s

theorem haltJob_sameHalted (j : Nat) (s : State) : SameHalted j s (haltJob j s) := by
  unfold haltJob
  split
  · exact (jobMod_sameHalted j _ s).trans (sameHalted_of_jobs ((sendEvent_logOnly _ _ _).trans (raise_logOnly _ _ _)).jobs j)
  · rfl

theorem startBg_sameHalted (j k c : Nat) (s : State) : SameHalted j s (startBg k c s) := by
  refine sameHalted_of_jobs ?_ j
  unfold startBg whenS
  dsimp only
  split
  · exact (clearSlog_logOnly _ _).jobs
  · rfl

theorem lateFrame_sameHalted (j : Nat) (c : Ctx) (s : State) : SameHalted j s (lateFrame c s) := by
  unfold lateFrame
  split <;> rfl

/-- What HALT does to the job of its engine (R181). -/
def haltPart (c : Ctx) (j : Nat) (s : State) : State :=
  let bit := BitVec.ofNat 64 (2 ^ c.leng)
  let s := haltJob j (whenS (decide (c.g = .rt)) (endPart j bit) (jobMod j (fun b => { b with halted := b.halted ||| bit }) s))
  if (eng s c.k).cyc0 < (zone s (zoneOf c.leng)).tickAbs then lateFrame c s
  else whenS (decide (c.g = .rt) && bgReady s c.leng) (startBg c.k (c.cyc + 1)) s

theorem haltPart_moves (c : Ctx) (j : Nat) (l : BitVec 6) (s : State) : Moves l c.g id s (haltPart c j s) := by
  unfold haltPart
  extract_lets bit s1
  have hjob : Keeps Eng.course s s1 :=
    ((jobMod_keeps _ _ _).trans (whenS_keeps (endPart_keeps j bit) _)).trans (haltJob_keeps j _)
  split
  · exact (hjob.trans (lateFrame_course c s1)).moves _ _
  · refine (hjob.moves l c.g).stays ?_
    cases c.g with
    | rt => exact whenS_moves (startBg_moves _ _ _) s1
    | bg => exact Moves.refl _ _ s1

theorem haltPart_halted (c : Ctx) (j : Nat) (s : State) (hleng : c.leng < 64) :
    (job (haltPart c j s) j).halted.getLsbD c.leng = true := by
  unfold haltPart
  extract_lets bit s1
  have hpart : SameHalted j (jobMod j (fun b => { b with halted := b.halted ||| bit }) s) s1 := by
    refine SameHalted.trans ?_ (haltJob_sameHalted j _)
    unfold whenS
    split
    · exact endPart_sameHalted j bit _
    · rfl
  have hs1 : (job s1 j).halted.getLsbD c.leng = true := by
    rw [hpart, job_jobMod, if_pos rfl]
    rw [BitVec.getLsbD_or, BitVec.getLsbD_ofNat, Nat.testBit_two_pow_self, decide_eq_true hleng]
    exact Bool.or_true _
  split
  · rw [lateFrame_sameHalted j c s1, hs1]
  · unfold whenS
    split
    · rw [startBg_sameHalted j, hs1]
    · exact hs1

section
variable {h : IssueHdr} {s : State} {c : Ctx}

/-- HALT ends the segment for good (R181), and its engine's part of the job. -/
theorem doHalt_effect (hc : issue .control ((segOf s h.leng h.seg).busyTo + 1) h s = some c) :
    Moves h.leng h.seg (SegSt.ends 3) c.s (doHalt h s) ∧
      ∀ j, ownerOf s h.leng.toNat h.seg = some j → (job (doHalt h s) j).halted.getLsbD h.leng.toNat = true := by
  obtain ⟨-, -, -, -, hl, hg, -⟩ := issue_some hc
  have hend := ending_moves hc
  have hk := (hend.storeKey _).trans (issue_key hc)
  have hwithin : Within openScope s (revealChk c (ctlDup c c.s)) := by
    have hissue := issue_within hc (openScope_runs _) (fun _ _ _ => trivial) (fun _ _ _ _ _ => trivial) (.inr (openScope_free _))
    exact (hissue.trans (whenS_within (fun s => schedFault_within (openScope_runs _) _ _ _ _ _ s) _)).trans (revealChk_within c _)
  have heq : doHalt h s = _ := issued_eq hc _
  rw [heq]
  generalize revealChk c (ctlDup c c.s) = s1 at *
  extract_lets s0 s2
  have hstop : Moves h.leng h.seg (SegSt.ends 3) c.s s2 := by
    have hs := ends_moves (F := fun x => { x with st := 3, quiet := 0 }) (k := c.k) (st := 3) hend hk fun _ => rfl
    rwa [← hg] at hs ⊢
  have howner : ownerOf s2 c.leng c.g = ownerOf s h.leng.toNat h.seg := by
    rw [hl, hg]
    exact (hwithin.trans (engMod_within trivial)).ownerOf _ _
  rw [howner]
  split
  · next hnone => exact ⟨hstop, fun j hj => absurd (hnone.symm.trans hj) (by simp)⟩
  · next j hj =>
    rw [hj] at howner
    refine ⟨hstop.stays (hg ▸ haltPart_moves c j h.leng s2), fun j' hj' => ?_⟩
    rw [Option.some.inj (hj'.symm.trans hj), ← hl]
    exact haltPart_halted c j s2 (hl ▸ h.leng.isLt)

end

/-! ### The monitors (R246) -/

/-- The register that shows the sequencer's fault is the event unit's of no page. -/
theorem seqReg_plain (k : Nat) : PlainReg (pgEng k 0) 0x78 := ⟨by unfold pgEng; omega, by decide, by decide⟩

/-- A sequencer fault shows its monitor on the engine's SEQ page, and its engine is due for containment (R246). -/
theorem seqFault_shows (l : Nat) (g : Seg) (monitor : Nat) (cyc : Option Nat) (s : State) :
    rget (seqFault l g monitor cyc s) (pgEng (storeKey s l) 0) 0x78 = 0x80000000#32 ||| BitVec.ofNat 32 monitor ∧
      (eng (seqFault l g monitor cyc s) (storeKey s l)).faultDue = true := by
  have hreg := seqReg_plain (storeKey s l)
  unfold seqFault
  rcases takeFree s with ⟨fr, u⟩
  dsimp -zeta only
  extract_lets k at' p pc s1 s2 s3 s4 s5 s6
  have hrecord : rget s1 p 0x78 = 0x80000000#32 ||| BitVec.ofNat 32 monitor := rget_rset_self _ _ _ _
  have hevent : regKept p 0x78 s1 s3 := (raise_regKept hreg _ _ s1).trans (errEng_regKept hreg _ _ _ _ _ _ s2)
  have hframe : regKept p 0x78 s3 s4 := by
    simp only [s4]
    split
    · exact frameMod_regKept _ _ _ _ _ _
    · exact regKept_refl _ _ s3
  have hbg : regKept p 0x78 s4 s5 := whenS_regKept (fun s => (markSeg_regKept _ _ _ _ _ _ s).trans (segMod_regKept _ _ _ _ _ _)) s4
  have hreset : regKept p 0x78 s5 s6 := whenS_regKept (fun s => foldS_regKept (fun _ _ => jobMod_regKept _ _ _ _ _) _ s) s5
  refine ⟨?_, ?_⟩
  · exact Eq.trans (((hevent.trans hframe).trans (hbg.trans hreset)).trans (engMod_regKept _ _ _ _ s6)) hrecord
  · rw [eng_engMod, if_pos rfl]

/-- Settles O12: each end of a segment moves its course after the issue and leaves it otherwise, the halted bit of HALT is set in the
segment's job, and the two monitors are sequencer faults. -/
theorem segmentEnds : Obligations.SegmentEnds := by
  unfold Obligations.SegmentEnds
  refine ⟨fun h s hissues => ⟨?_, fun hbg step => ?_, ?_⟩, fun l g s hrunning habsent => ⟨?_, fun hquiet => ?_, fun hquiet => ?_⟩⟩
  · obtain ⟨c, hc, hcyc⟩ := issue_of_issues_rel .control ((segOf s h.leng h.seg).busyTo + 1) hissues
    exact ⟨_, rfl, hcyc ▸ doWtick_effect hc⟩
  · obtain ⟨c, hc, hcyc⟩ := issue_of_issues_rel .control (if yieldSuspends s h step then (segOf s h.leng .bg).busyTo + 1 else 0) hissues
    obtain ⟨hpc, hst, hlast, hone, hnone⟩ := doYield_effect hbg hc
    refine ⟨_, (congrArg (gate · _) (by rw [Instr.wf, hbg]; rfl)).trans (gate_true _), hpc, hst, ?_, hone, hnone⟩
    rw [hlast, hcyc, declared, hbg]
    split
    · rfl
    · exact Nat.max_zero _
  · obtain ⟨c, hc, hcyc⟩ := issue_of_issues_rel .control ((segOf s h.leng h.seg).busyTo + 1) hissues
    obtain ⟨hhalt, hjob⟩ := doHalt_effect hc
    obtain ⟨hpc, hlast, -, hst, -⟩ := SegSt.of_course ((issue_moves hc).trans hhalt).course
    exact ⟨_, rfl, hpc, hst, hlast.trans hcyc, hjob⟩
  · have heq : doCompletionMonitor l.toNat g s = seqFault l.toNat g 4 none s := by
      rw [doCompletionMonitor, hrunning, habsent]
      rfl
    exact ⟨_, rfl, heq ▸ seqFault_shows _ _ _ _ _⟩
  · have heq : doBgWatchdog l.toNat s = seqFault l.toNat .bg 5 none s := by
      rw [doBgWatchdog, hrunning, habsent, decide_eq_true (p := 64 ≤ (eng s (storeKey s l.toNat)).bg.quiet) hquiet]
      rfl
    exact ⟨_, rfl, heq ▸ seqFault_shows _ _ _ _ _⟩
  · have heq : doBgWatchdog l.toNat s = s := by
      rw [doBgWatchdog, hrunning, habsent, decide_eq_false (p := 64 ≤ (eng s (storeKey s l.toNat)).bg.quiet) (Nat.not_le.2 hquiet)]
      rfl
    exact congrArg (gate true) heq

end Sys2Proof.Machine
end

