-- ==== Sys2Proof/Proofs/FrameBounds.lean ====
section
/-! PROOF. ENGINE_FRAME_START, OVERRUN and SEGMENT_CUT (R177, R207 to R211). -/

namespace Sys2Proof.Machine

set_option Elab.async false

/-! ### The commit of an engine's captured values -/

/-- The engines, their places and the jobs are kept. -/
structure SameEngines (s t : State) : Prop where
  store : t.store = s.store
  engs : t.engs = s.engs
  jobs : t.jobs = s.jobs

section
variable {s t u : State}

theorem SameEngines.refl (s : State) : SameEngines s s := ⟨rfl, rfl, rfl⟩

theorem SameEngines.trans (h : SameEngines s t) (h' : SameEngines t u) : SameEngines s u :=
  ⟨h'.store.trans h.store, h'.engs.trans h.engs, h'.jobs.trans h.jobs⟩

theorem foldS_sameEngines {α : Type} {f : α → State → State} (h : ∀ a s, SameEngines s (f a s)) (l : List α) (s : State) :
    SameEngines s (foldS l f s) := by
  induction l generalizing s with
  | nil => exact SameEngines.refl s
  | cons a t ih => exact (h a s).trans (ih (f a s))

theorem commitCaptured_sameEngines (f : Nat → Bool) (s : State) : SameEngines s (commitCaptured f s) := by
  have hfold := foldS_sameEngines (f := fun x s => match x.2 with
    | some w => commitReg x.1 w s
    | none => s) (fun x s => by split <;> exact ⟨rfl, rfl, rfl⟩) (s.captured.filter fun x => f (x.1 / 1024)) s
  exact ⟨hfold.store, hfold.engs, hfold.jobs⟩

theorem commitEngine_sameEngines (l : Nat) (s : State) : SameEngines s (commitEngine l s) := by
  unfold commitEngine whenS
  dsimp only
  split
  · exact (commitCaptured_sameEngines _ s).trans (commitCaptured_sameEngines _ _)
  · exact commitCaptured_sameEngines _ s

/-- Whether an engine's RT segment starts with its frame is told by the jobs. -/
theorem rtStarts_of_jobs (h : t.jobs = s.jobs) (l : Nat) : rtStarts t l = rtStarts s l := by
  unfold rtStarts ownerOf job
  rw [h]

end

/-! ### ENGINE_FRAME_START (R210) -/

/-- What hold windows do leaves an engine waiting for its frame or not, as it was. -/
theorem Keeps.lagged {s t : State} (h : Keeps Eng.steady s t) (k : Nat) : (eng t k).lagged = (eng s k).lagged :=
  (congrArg Eng.lagged (h.engs k) : (eng t k).steady.lagged = (eng s k).steady.lagged)

theorem lagged_segMod (k : Nat) (g : Seg) (f : SegSt → SegSt) (s : State) (k' : Nat) :
    (eng (segMod k g f s) k').lagged = (eng s k').lagged := by
  rw [segMod, eng_engMod]
  split
  · next hk =>
    rw [hk]
    cases g <;> rfl
  · rfl

/-- An engine whose RT segment starts with its frame no longer waits, and the segment is at word 0 with no loops. -/
theorem startFrame_effect {l : BitVec 6} {s : State} (c : Nat) (fr : BitVec 64) (hstarts : rtStarts s l.toNat = true) :
    (eng (startFrame l.toNat c fr s) (storeKey s l.toNat)).lagged = false ∧ (segOf (startFrame l.toNat c fr s) l .rt).st = 1 ∧
      (segOf (startFrame l.toNat c fr s) l .rt).pc = 0 ∧ (segOf (startFrame l.toNat c fr s) l .rt).loops = [] ∧
      (segOf (startFrame l.toNat c fr s) l .rt).last = c := by
  unfold startFrame
  extract_lets k s1 s2 s3 s4 s5
  have hcommit : SameEngines s2 s3 := commitEngine_sameEngines l.toNat s2
  have hjobs : s4.jobs = s.jobs := hcommit.jobs
  have hstore : s4.store = s.store := hcommit.store
  have hlag : (eng s4 k).lagged = false := by
    simp only [s4]
    rw [lagged_segMod, eng_of_engs hcommit.engs]
    simp only [s2]
    rw [eng_engMod, if_pos rfl]
  have hclose : Keeps Eng.steady s4 s5 := (endHolds_steady k c _ s4).trans (fset_logOnly _ _ _ _ _ _).keeps
  have hlag5 : (eng s5 k).lagged = false := (hclose.lagged k).trans hlag
  have hk : storeKey s5 l.toNat = k := by
    rw [storeKey, hclose.store, hstore]
    rfl
  rw [if_pos (by rw [rtStarts_of_jobs hjobs, hstarts]), segOf_segMod hk]
  exact ⟨(lagged_segMod _ _ _ _ _).trans hlag5, rfl, rfl, rfl, rfl⟩

/-! ### OVERRUN and SEGMENT_CUT (R177) -/

/-- The frame records of a job after a mark of one frame's. -/
theorem frames_frameMod (j : Nat) (fr : BitVec 64) (f : FrameSt → FrameSt) (s : State) :
    (job (frameMod j fr f s) j).frames = (job s j).frames.map fun x => if x.frame = fr then f x else x := by
  rw [frameMod, job_jobMod, if_pos rfl]

/-- An error record of an engine touches no frame record. -/
theorem errEng_frames (ty sev l : Nat) (g : Seg) (block : Nat) (detail : List Nat) (s : State) (j : Nat) :
    (job (errEng ty sev l g block detail s) j).frames = (job s j).frames := by
  unfold errEng
  extract_lets k s1
  rw [job, (errata_logOnly _ s1).jobs, ← job]
  simp only [s1]
  split
  · split
    · rw [job_jobMod]
      split
      · next hj => rw [hj]
      · rfl
    · rfl
  · rfl

/-- A closed frame's record is gone, the others are as they were. -/
theorem mem_frames_closeFrames {j : Nat} {s : State} {f : FrameSt} (hf : f ∈ (job (closeFrames j s) j).frames) : f ∈ (job s j).frames := by
  unfold closeFrames at hf
  dsimp only at hf
  split at hf
  · exact hf
  · rw [job_jobMod, if_pos rfl] at hf
    exact (List.mem_filter.1 hf).1

/-- Marks once set stay. -/
theorem or_and_self_right {n : Nat} (a b : BitVec n) : (a ||| b) &&& b = b := by
  ext i hi
  simpa using Or.inr

section
variable {l : BitVec 6} {s : State} {j : Nat} {fr : BitVec 64}

/-- Where the RT segment still runs after the frame should have ended, the frame's records carry OVERRUN. -/
theorem doOverrun_frames (howner : ownerOf s l.toNat .rt = some j) (hfr : fr = rtFrame s l.toNat) (hrunning : running s = true)
    (hst : (segOf s l .rt).st = 1) (hlate : beganAt s j fr + 1 ≤ s.tick) :
    ∀ f ∈ (job (doOverrun l.toNat s) j).frames, f.frame = fr → f.marks &&& mkOverrun = mkOverrun := by
  intro f hf hframe
  have hst' : ((eng s (storeKey s l.toNat)).rt).st = 1 := hst
  rw [doOverrun, ← hfr, howner] at hf
  dsimp only at hf
  rw [hrunning, hst', decide_eq_true hlate, if_pos (by decide), errEng_frames, frames_frameMod] at hf
  obtain ⟨x, -, rfl⟩ := List.mem_map.1 hf
  by_cases hx : x.frame = fr
  · rw [if_pos hx]
    exact or_and_self_right _ _
  · rw [if_neg hx] at hframe
    exact absurd hframe hx

/-- A frame's record after the cut of its segment. -/
def FrameSt.cut (bit : BitVec 64) (f : FrameSt) : FrameSt :=
  { f with marks := f.marks ||| mkFailed ||| mkOverrun, tevt := f.tevt ||| 0x40, done := f.done ||| bit }

/-- The record is marked as cut. -/
def FrameSt.isCut (f : FrameSt) : Prop := f.marks &&& (mkFailed ||| mkOverrun) = mkFailed ||| mkOverrun ∧ f.tevt.getLsbD 6 = true

theorem FrameSt.cut_isCut (bit : BitVec 64) (f : FrameSt) : (f.cut bit).isCut := by
  constructor
  · show (f.marks ||| mkFailed ||| mkOverrun) &&& _ = _
    rw [BitVec.or_assoc]
    exact or_and_self_right _ _
  · show (f.tevt ||| 0x40).getLsbD 6 = true
    rw [BitVec.getLsbD_or]
    exact Bool.or_true _

/-- The two frames of a cut have their records marked. -/
theorem mem_cut_frames {bit a b : BitVec 64} {f : FrameSt} {t : State}
    (hf : f ∈ (job (frameMod j a (FrameSt.cut bit) (frameMod j b (FrameSt.cut bit) t)) j).frames)
    (hframe : f.frame = a ∨ f.frame = b) : f.isCut := by
  rw [frames_frameMod, frames_frameMod] at hf
  obtain ⟨y, hy, rfl⟩ := List.mem_map.1 hf
  obtain ⟨x, -, rfl⟩ := List.mem_map.1 hy
  by_cases hb : x.frame = b
  · rw [if_pos hb]
    split
    · exact FrameSt.cut_isCut _ _
    · exact FrameSt.cut_isCut _ _
  · rw [if_neg hb] at hframe ⊢
    by_cases ha : x.frame = a
    · rw [if_pos ha]
      exact FrameSt.cut_isCut _ _
    · rw [if_neg ha] at hframe
      exact absurd hframe (not_or.2 ⟨ha, hb⟩)

/-- A segment that still runs a frame later is cut: its engine waits for its cycle 0, and the records of both frames are marked. -/
theorem doSegmentCut_effect (howner : ownerOf s l.toNat .rt = some j) (hfr : fr = rtFrame s l.toNat) (hrunning : running s = true)
    (hst : (segOf s l .rt).st = 1) (hlate : beganAt s j fr + 2 ≤ s.tick) :
    (segOf (doSegmentCut l.toNat s) l .rt).st = 3 ∧ (eng (doSegmentCut l.toNat s) (storeKey s l.toNat)).lagged = true ∧
      ∀ f ∈ (job (doSegmentCut l.toNat s) j).frames, f.frame = fr ∨ f.frame = fr + 1 → f.isCut := by
  have hst' : ((eng s (storeKey s l.toNat)).rt).st = 1 := hst
  rw [doSegmentCut, ← hfr, howner]
  dsimp -zeta only
  rw [hrunning, hst', decide_eq_true hlate]
  extract_lets c bit cut s1 s2 s3
  have hkept : Keeps id s1 (closeFrames j s3) := ((frameMod_keeps _ _ _ s1).trans (frameMod_keeps _ _ _ _)).trans
    ((errEng_keeps _ _ _ _ _ _ s2).trans (closeFrames_keeps j s3))
  rw [if_pos (by decide)]
  have heng : eng (closeFrames j s3) (storeKey s l.toNat) = eng s1 (storeKey s l.toNat) := hkept.engs _
  have hk : storeKey (closeFrames j s3) l.toNat = storeKey s l.toNat := by
    rw [storeKey, hkept.store]
    rfl
  refine ⟨?_, ?_, fun f hf hframe => ?_⟩
  · rw [segOf, hk, heng]
    simp only [s1]
    rw [eng_engMod, if_pos rfl]
    rfl
  · rw [heng]
    simp only [s1]
    rw [eng_engMod, if_pos rfl]
  · have hmem := mem_frames_closeFrames hf
    rw [errEng_frames] at hmem
    exact mem_cut_frames hmem hframe

end

/-- Settles O34: a late engine starts its frame at its cycle 0 as R210 says, and the frame records of a segment that overruns are marked
before the ended ones among them are closed. -/
theorem frameStartsAndEnds : Obligations.FrameStartsAndEnds := by
  unfold Obligations.FrameStartsAndEnds
  refine ⟨fun l s => ⟨fun hlag => ?_, fun hrunning habsent hlag hstarts => ?_⟩, fun l s j fr howner hfr hrunning hst =>
    ⟨fun hlate => ⟨_, rfl, doOverrun_frames howner hfr hrunning hst hlate⟩,
      fun hlate => ⟨_, rfl, doSegmentCut_effect howner hfr hrunning hst hlate⟩⟩⟩
  · have heq : doEngineFrameStart l.toNat s = s := by
      rw [doEngineFrameStart, hlag, Bool.and_false]
      rfl
    exact congrArg (gate true) heq
  · have heq : doEngineFrameStart l.toNat s = startFrame l.toNat (eng s (storeKey s l.toNat)).cyc0 (s.tick - 1) s := by
      rw [doEngineFrameStart, hrunning, habsent, hlag]
      rfl
    exact ⟨_, rfl, heq ▸ startFrame_effect _ _ hstarts⟩

end Sys2Proof.Machine
end

