-- ==== Sys2Proof/Proofs/JobLoads.lean ====
section
/-! PROOF. JOB_LOAD and JOB_RESUME (R198, R221, R402). -/

namespace Sys2Proof.Machine

set_option Elab.async false

/-! ### LOADRES and the job's events -/

theorem jobEvent_logOnly (j st : Nat) (s : State) : LogOnly s (jobEvent j st s) :=
  (sendEvent_logOnly _ _ s).trans (raise_logOnly _ _ _)

/-- An event of the module page leaves LOADRES. -/
theorem rget_loadres_raise (bit : Nat) (s : State) : rget (raise pgMod bit s) pgMod 0xA0 = rget s pgMod 0xA0 :=
  rget_raise_of_ne (by decide) (by decide) (by decide) bit s

theorem rget_loadres_jobEvent (j st : Nat) (s : State) : rget (jobEvent j st s) pgMod 0xA0 = rget s pgMod 0xA0 :=
  (rget_loadres_raise 0 _).trans (queueEvent_pageKept (by decide) _ _ _ _ s 0xA0 (by decide))

/-- A refused load changes no job and no engine, and LOADRES shows its code (R198). -/
theorem reject_effect (j code pc l : Nat) (s : State) :
    LogOnly s (reject j code pc l s) ∧
      rget (reject j code pc l s) pgMod 0xA0 = BitVec.ofNat 32 (code + pc % 2 ^ 16 * 2 ^ 8 + l % 2 ^ 6 * 2 ^ 24 + j * 2 ^ 30) := by
  unfold reject
  refine ⟨((rset_logOnly _ _ _ s).trans (jobEvent_logOnly j 1 _)).trans (raise_logOnly _ _ _), ?_⟩
  rw [rget_loadres_raise, rget_loadres_jobEvent, rget_rset_self]

/-! ### What the installation of an image leaves of the job -/

/-- A job without the engines that halt and the frames that were lost as it resumes. -/
def Job.asLoaded (b : Job) : Job := { b with halted := 0, firstLost := none }

/-- Every job is kept as it was loaded. -/
def SameLoads (s t : State) : Prop := ∀ j, (job t j).asLoaded = (job s j).asLoaded

section
variable {s t u : State}

theorem SameLoads.refl (s : State) : SameLoads s s := fun _ => rfl

theorem SameLoads.trans (h : SameLoads s t) (h' : SameLoads t u) : SameLoads s u := fun j => (h' j).trans (h j)

theorem sameLoads_of_jobs (h : t.jobs = s.jobs) : SameLoads s t := fun j => by rw [job, h, ← job]

theorem jobMod_sameLoads (j : Nat) (f : Job → Job) (s : State) (hf : ∀ b, (f b).asLoaded = b.asLoaded := by intro; rfl) :
    SameLoads s (jobMod j f s) := by
  intro i
  rw [job_jobMod]
  split
  · next hi => rw [hf, hi]
  · rfl

theorem whenS_sameLoads {b : Bool} {f : State → State} (h : ∀ s, SameLoads s (f s)) (s : State) : SameLoads s (whenS b f s) := by
  cases b
  · exact SameLoads.refl s
  · exact h s

theorem foldS_sameLoads {α : Type} {f : α → State → State} (h : ∀ a s, SameLoads s (f a s)) (l : List α) (s : State) :
    SameLoads s (foldS l f s) := by
  induction l generalizing s with
  | nil => exact SameLoads.refl s
  | cons a t ih => exact (h a s).trans (ih (f a s))

end

theorem staticRecs_sameLoads (j base : Nat) (cold : Bool) (s : State) : SameLoads s (staticRecs j base cold s) := by
  unfold staticRecs
  refine foldS_sameLoads (fun t s => ?_) _ s
  split
  split
  · exact sameLoads_of_jobs (stkWrite_jobs _ _ _ s)
  · exact sameLoads_of_jobs (engMod_jobs _ _ s)

theorem putShare_sameLoads (j h k : Nat) (s : State) : SameLoads s (putShare j h k s) := by
  unfold putShare packHub
  extract_lets l sorted w
  exact (sameLoads_of_jobs (rset_jobs _ _ _ s)).trans (foldS_sameLoads (fun _ s => sameLoads_of_jobs (rset_jobs _ _ _ s)) _ _)

/-- What follows the reading of one item keeps the jobs, whatever was read. -/
theorem rdBind_sameLoads {α : Type} {s : State} {x : Rd α} {f : α → Rd State} (h : ∀ a l, SameLoads s (f a l).1) (l : List Nat) :
    SameLoads s ((x >>= f) l).1 := h _ _

theorem rdPure_sameLoads {s t : State} (h : SameLoads s t) (l : List Nat) : SameLoads s ((pure t : Rd State) l).1 := h

/-- A segment read back from a save image may show its engine halted, and changes nothing else of the jobs (R221). -/
theorem rdSeq_sameLoads (s : State) (l : Nat) (g : Seg) (nums : List Nat) : SameLoads s (rdSeq s l g nums).1 := by
  have hhalted (halted : Bool) (bit : BitVec 64) (s : State) : SameLoads s
      (whenS halted (fun s => ((ownerOf s l g).map fun j => jobMod j (fun b => { b with halted := b.halted ||| bit }) s).getD s) s) := by
    refine whenS_sameLoads (fun s => ?_) s
    cases ownerOf s l g with
    | none => exact SameLoads.refl s
    | some j => exact jobMod_sameLoads _ _ _
  unfold rdSeq
  extract_lets bit
  refine rdBind_sameLoads (fun pc _ => rdBind_sameLoads (fun halted _ => rdBind_sameLoads (fun ls _ => rdBind_sameLoads (fun st _ =>
    rdBind_sameLoads (fun due _ => rdBind_sameLoads (fun px _ => rdBind_sameLoads (fun cn _ => rdBind_sameLoads (fun sf _ =>
      rdBind_sameLoads (fun sc _ => rdBind_sameLoads (fun w l9 => ?_) _) _) _) _) _) _) _) _) _) _
  refine rdPure_sameLoads (SameLoads.trans ?_ (foldS_sameLoads (fun _ s => sameLoads_of_jobs (rset_jobs _ _ _ s)) _ _)) l9
  refine SameLoads.trans ?_ (foldS_sameLoads (fun _ s => sameLoads_of_jobs (rset_jobs _ _ _ s)) _ _)
  exact (hhalted halted bit s).trans (sameLoads_of_jobs (engMod_jobs _ _ _))

theorem restoreSect_sameLoads (j base : Nat) (x : SSect) (s : State) : SameLoads s (restoreSect j base x s) := by
  unfold restoreSect
  obtain ⟨ty, e, a, bs⟩ := x
  dsimp -zeta only
  extract_lets g k nums
  split
  · exact rdSeq_sameLoads _ _ _ _
  · exact foldS_sameLoads (fun _ s => sameLoads_of_jobs (engMod_jobs _ _ s)) _ s
  · exact sameLoads_of_jobs (engMod_jobs _ _ s)
  · exact sameLoads_of_jobs (engMod_jobs _ _ s)
  · exact (sameLoads_of_jobs (engMod_jobs _ _ s)).trans (sameLoads_of_jobs (engMod_jobs _ _ _))
  · exact foldS_sameLoads (fun _ s => sameLoads_of_jobs (catMod_jobs _ _ s)) _ s
  · exact sameLoads_of_jobs (stkPut_jobs _ _ s)
  · exact SameLoads.refl s

/-- An accepted image holds the slot with what it says of its job, and LOADRES shows that it was accepted (R198). -/
theorem accept_effect (j : Nat) (m : Img) (resume : Bool) (saved : List Byte) (s : State) :
    (job (accept j m resume saved s) j).asLoaded = (jobOf s j m resume).asLoaded ∧
      rget (accept j m resume saved s) pgMod 0xA0 = BitVec.ofNat 32 (j * 2 ^ 30) := by
  unfold accept
  extract_lets b base shares s1 s2 s3 s4 s5 s6 s7 s8
  have hset : (job s3 j).asLoaded = b.asLoaded := by
    simp only [s3]
    rw [job_jobMod, if_pos rfl]
  have hrecs : SameLoads s3 s6 :=
    ((sameLoads_of_jobs (rset_jobs _ _ _ s3)).trans (foldS_sameLoads (fun _ s => sameLoads_of_jobs (catMod_jobs _ _ s)) _ s4)).trans
      ((staticRecs_sameLoads _ _ _ s5).trans (foldS_sameLoads (fun _ s => putShare_sameLoads _ _ _ s) _ _))
  have hrestore : SameLoads s6 s7 := by
    refine whenS_sameLoads (fun s => ?_) s6
    extract_lets u v
    exact ((foldS_sameLoads (fun x s => restoreSect_sameLoads _ _ x s) _ s).trans
      (foldS_sameLoads (fun _ s => sameLoads_of_jobs (rset_jobs _ _ _ s)) _ u)).trans (whenS_sameLoads (fun s => jobMod_sameLoads _ _ s) v)
  have hevent : SameLoads s7 (jobEvent j (if resume then 4 else 0) s8) :=
    (sameLoads_of_jobs (rset_jobs _ _ _ s7)).trans (sameLoads_of_jobs (jobEvent_logOnly _ _ s8).jobs)
  exact ⟨((hrecs.trans (hrestore.trans hevent)) j).trans hset, (rget_loadres_jobEvent _ _ s8).trans (rget_rset_self _ _ _ _)⟩

/-! ### JOB_LOAD and JOB_RESUME -/

/-- A job's record says nothing of the images in the Stacks. -/
theorem imageAt_jobMod (j : Nat) (f : Job → Job) (s : State) (off : Nat) : imageAt (jobMod j f s) off = imageAt s off := by
  have hbytes (n : Nat) : stkBytes (jobMod j f s) off n = stkBytes s off n := rfl
  unfold imageAt
  simp only [hbytes]

theorem rget64_jobMod (j : Nat) (f : Job → Job) (s : State) (p off : Nat) : rget64 (jobMod j f s) p off = rget64 s p off := rfl

section
variable {j : Nat} {resume : Bool} {s : State} {m : Img}

/-- The outcomes of a load of a free slot. (The definition is unfolded as a function, before it meets its arguments: the kernel would
otherwise evaluate the image's place.) -/
theorem loadNow_outcome (j : Nat) (resume : Bool) (s : State) :
    (imageAt s (rget64 s pgMod (0x60 + 16 * j)).toNat = none → loadNow j resume s = reject j 1 0 0 (jobMod j (fun _ => {}) s)) ∧
      ∀ m, imageAt s (rget64 s pgMod (0x60 + 16 * j)).toNat = some m →
        (∀ c pc l, loadCheck (jobMod j (fun _ => {}) s) j m = some (c, pc, l) →
          loadNow j resume s = reject j c pc l (jobMod j (fun _ => {}) s)) ∧
        (loadCheck (jobMod j (fun _ => {}) s) j m = none →
          (resume = false → loadNow j resume s = accept j m false [] (jobMod j (fun _ => {}) s)) ∧
          (resume = true → ∀ saved c, saved = savedAt (jobMod j (fun _ => {}) s) (rget64 s pgMod (0x68 + 16 * j)).toNat →
            c = resumeCheck (jobMod j (fun _ => {}) s) saved ((m.bytes.drop 64).take 64)
              (sameMods (jobMod j (fun _ => {}) s) saved ((m.bytes.drop 64).take 64) j) →
            (c ≠ 0 → loadNow j resume s = reject j c 0 0 (jobMod j (fun _ => {}) s)) ∧
            (c = 0 → loadNow j resume s = accept j m true saved (jobMod j (fun _ => {}) s)))) := by
  have hplace (o : Option Img) (h : imageAt s (rget64 s pgMod (0x60 + 16 * j)).toNat = o) :
      imageAt (jobMod j (fun _ => {}) s) (rget64 (jobMod j (fun _ => {}) s) pgMod (0x60 + 16 * j)).toNat = o := by
    rw [imageAt_jobMod]
    exact h
  obtain ⟨F, hF⟩ : ∃ F, F = loadNow := ⟨_, rfl⟩
  rw [← hF]
  delta loadNow at hF
  rw [hF]
  beta_reduce
  clear hF
  refine ⟨fun himage => ?_, fun m himage => ⟨fun c pc l hcheck => ?_, fun hcheck =>
    ⟨fun hload => ?_, fun hresume saved c hsaved hc => ?_⟩⟩⟩
  · simp only [hplace _ himage]
  · simp only [hplace _ himage, hcheck]
  · simp only [hplace _ himage, hcheck, hload, Bool.false_eq_true, if_false]
  · have hsaved' : savedAt (jobMod j (fun _ => {}) s) (rget64 (jobMod j (fun _ => {}) s) pgMod (0x68 + 16 * j)).toNat = saved := hsaved.symm
    simp only [hplace _ himage, hcheck, hresume, if_true, hsaved', ← hc]
    exact ⟨fun hfail => if_pos hfail, fun hpass => if_neg (not_not.2 hpass)⟩

variable (hrunning : running s = true) (henabled : enabled s pgMod = true)
include hrunning henabled

theorem doJobLoad_of_used (hst : (job s j).st ≠ 0) : doJobLoad j resume s = reject j 0x20 0 0 s := by
  rw [doJobLoad, hrunning, henabled, if_neg (by decide), if_pos (show (job s j).occupied = true from decide_eq_true hst)]

/-- A free slot is loaded at once where no test unit runs on the image's engines (log entry 49). -/
theorem doJobLoad_of_free (hst : (job s j).st = 0)
    (htests : ∀ m, imageAt s (rget64 s pgMod (0x60 + 16 * j)).toNat = some m → testsOn s m.engMask = false) :
    doJobLoad j resume s = loadNow j resume s := by
  rw [doJobLoad, hrunning, henabled, if_neg (by decide), if_neg (by rw [Job.occupied, hst]; decide)]
  split
  · next m himage => rw [htests m himage, if_neg (by decide)]
  · rfl

end

/-- Both instructions are the Registrar's load of a slot. -/
theorem exec_load {i : Instr} {slot : BitVec 2} (hi : i ∈ [Instr.jobLoad slot, Instr.jobResume slot]) (s : State) :
    ∃ resume, exec i s = .next (doJobLoad slot.toNat resume s) := by
  rcases List.mem_pair.1 hi with rfl | rfl
  · exact ⟨false, rfl⟩
  · exact ⟨true, rfl⟩

/-- A refused load of a free slot leaves it free. -/
theorem reject_free (j code pc l : Nat) (s : State) :
    (job (reject j code pc l (jobMod j (fun _ => {}) s)) j).st = 0 ∧ (reject j code pc l (jobMod j (fun _ => {}) s)).engs = s.engs ∧
      rget (reject j code pc l (jobMod j (fun _ => {}) s)) pgMod 0xA0 =
        BitVec.ofNat 32 (code + pc % 2 ^ 16 * 2 ^ 8 + l % 2 ^ 6 * 2 ^ 24 + j * 2 ^ 30) := by
  obtain ⟨hlog, hres⟩ := reject_effect j code pc l (jobMod j (fun _ => {}) s)
  refine ⟨?_, hlog.engs, hres⟩
  rw [job, hlog.jobs, ← job, job_jobMod, if_pos rfl]

/-- What an accepted image's slot shows. -/
theorem accept_shows (j : Nat) (m : Img) (resume : Bool) (saved : List Byte) (s : State) :
    (job (accept j m resume saved s) j).st = 1 ∧ (job (accept j m resume saved s) j).engMask = m.engMask ∧
      (job (accept j m resume saved s) j).bg = decide (m.cls = 1) ∧ (job (accept j m resume saved s) j).stream = m.stream ∧
      (job (accept j m resume saved s) j).digest = (m.bytes.drop 64).take 64 ∧ (job (accept j m resume saved s) j).resumed = resume ∧
      rget (accept j m resume saved s) pgMod 0xA0 = BitVec.ofNat 32 (j * 2 ^ 30) := by
  obtain ⟨hjob, hres⟩ := accept_effect j m resume saved s
  exact ⟨(congrArg Job.st hjob : Job.st (Job.asLoaded _) = _), (congrArg Job.engMask hjob : Job.engMask (Job.asLoaded _) = _),
    (congrArg Job.bg hjob : Job.bg (Job.asLoaded _) = _), (congrArg Job.stream hjob : Job.stream (Job.asLoaded _) = _),
    (congrArg Job.digest hjob : Job.digest (Job.asLoaded _) = _), (congrArg Job.resumed hjob : Job.resumed (Job.asLoaded _) = _), hres⟩

/-- Settles O40: each outcome of the load is one of a rejection, which touches the event registers and LOADRES, and the installation of the
image, which keeps what it put in the slot. -/
theorem jobLoads : Obligations.JobLoads := by
  unfold Obligations.JobLoads
  rintro slot s s0 hrunning henabled rfl
  refine ⟨fun m hst himage htests hcheck => ?_, fun m c pc l hst himage htests hcheck i hi => ?_, fun hst i hi => ?_,
    fun hst himage i hi => ?_⟩
  · have hfree (resume : Bool) : doJobLoad slot.toNat resume s = loadNow slot.toNat resume s :=
      doJobLoad_of_free hrunning henabled hst fun m' hm' => Option.some.inj (himage.symm.trans hm') ▸ htests
    refine ⟨⟨_, rfl, ?_⟩, fun saved dig c hsaved hdig hc => ?_⟩
    · obtain ⟨-, hsome⟩ := loadNow_outcome slot.toNat false s
      obtain ⟨-, hpassed⟩ := hsome m himage
      obtain ⟨hload, -⟩ := hpassed hcheck
      rw [hfree, hload rfl]
      exact accept_shows _ _ _ _ _
    · subst hdig
      obtain ⟨-, hsome⟩ := loadNow_outcome slot.toNat true s
      obtain ⟨-, hpassed⟩ := hsome m himage
      obtain ⟨-, hresume⟩ := hpassed hcheck
      obtain ⟨hrefused, haccepted⟩ := hresume rfl saved c hsaved hc
      refine ⟨fun hpass => ⟨_, rfl, ?_⟩, fun hfail => ⟨_, rfl, ?_⟩⟩
      · rw [hfree, haccepted hpass]
        exact accept_shows _ _ _ _ _
      · rw [hfree, hrefused hfail]
        exact reject_free slot.toNat c 0 0 s
  · obtain ⟨resume, hexec⟩ := exec_load hi s
    obtain ⟨-, hsome⟩ := loadNow_outcome slot.toNat resume s
    obtain ⟨hfailed, -⟩ := hsome m himage
    refine ⟨_, hexec, ?_⟩
    rw [doJobLoad_of_free hrunning henabled hst fun m' hm' => Option.some.inj (himage.symm.trans hm') ▸ htests, hfailed c pc l hcheck]
    exact reject_free _ _ _ _ s
  · obtain ⟨resume, hexec⟩ := exec_load hi s
    refine ⟨_, hexec, ?_⟩
    rw [doJobLoad_of_used hrunning henabled hst]
    obtain ⟨hlog, hres⟩ := reject_effect slot.toNat 0x20 0 0 s
    exact ⟨hlog.jobs, hlog.engs, hres⟩
  · obtain ⟨resume, hexec⟩ := exec_load hi s
    obtain ⟨hnone, -⟩ := loadNow_outcome slot.toNat resume s
    refine ⟨_, hexec, ?_⟩
    rw [doJobLoad_of_free hrunning henabled hst fun m' hm' => absurd (himage.symm.trans hm') (by simp), hnone himage]
    exact reject_free slot.toNat 1 0 0 s

end Sys2Proof.Machine
end

