-- ==== Sys2Proof/Proofs/JobRequestsFails.lean ====
section
/-! PROOF. A PASS_COMMIT leaves a free slot whose record waits for a pass boundary waiting for it. -/

namespace Sys2Proof.Machine

/-- No job, but the record of slot 0 says that the slot is to be freed at its engines' next pass boundary. -/
def endingFreeSlot : State := { State.reset with jobs := [(0, { ending := true })] }

/-- The slot holds no engine, so it is at a pass boundary, and a reset leaves a free slot as it is (R27): it still waits. -/
theorem passCommit_endingFreeSlot :
    (job (endStops (doPassCommit 0 endingFreeSlot)) 0).ending = true ∧
      atBoundary (endStops (doPassCommit 0 endingFreeSlot)) (job (endStops (doPassCommit 0 endingFreeSlot)) 0) = true := by
  decide +kernel

/-- Refutes O39: `Obligations.JobRequests` says that after a PASS_COMMIT no slot is left both waiting for its pass boundary and at one.
A free slot whose record waits is left so. No command makes such a record (freeing a slot clears it), but the statement takes every
state. -/
theorem not_jobRequests : ¬ Obligations.JobRequests := by
  unfold Obligations.JobRequests
  rintro ⟨-, hcommit, -⟩
  obtain ⟨t, ht, hstopped⟩ := hcommit 0 endingFreeSlot
  obtain ⟨hending, hboundary⟩ := passCommit_endingFreeSlot
  have hrun : exec (.passCommit 0) endingFreeSlot = .next (endStops (doPassCommit 0 endingFreeSlot)) := rfl
  rw [hrun] at ht
  injection ht with ht
  subst ht
  exact absurd ((hstopped 0 (by decide) hending).symm.trans hboundary) (by decide)

end Sys2Proof.Machine
end

