-- ==== Sys2Proof/Proofs/ResetStates.lean ====
section
/-! PROOF. What the module's state reads right after a cold reset (R199, R321, Table 15-5). -/

namespace Sys2Proof.Machine

/-- Right after a reset every register reads its reset value. -/
theorem rget_reset (p off : Nat) : rget State.reset p off = regReset (ridx p off) := rfl

theorem job_reset (j : Nat) : job State.reset j = {} := rfl

/-- Settles O7: every table of the reset state is empty, so a read of it gives the default. -/
theorem resetState : Obligations.ResetState := by
  unfold Obligations.ResetState
  refine ⟨rfl, fun a => rfl, ?_, rget_reset, fun j => congrArg Job.st (job_reset j), rfl, ?_⟩
  · rw [pstate, fget, rget_reset]
    decide
  · unfold tablesWf
    decide

end Sys2Proof.Machine
end

