-- ==== Sys2Proof/Proofs/TickAlignments.lean ====
section
/-! PROOF. TICKALIGN, TICK_IN_CAPTURE and STEPLINK (R204 to R206, R349, R356). -/

namespace Sys2Proof.Machine

set_option Elab.async false

/-! ### A pair of registers, and a page's event -/

/-- A pair reads what was put in it. -/
theorem rget64_rset64_self {p off : Nat} (hoff : ridx p off ≠ ridx p (off + 4)) (v : BitVec 64) (s : State) :
    rget64 (rset64 p off v s) p off = v := by
  have hlo : rget (rset64 p off v s) p off = BitVec.ofNat 32 v.toNat := by
    rw [rset64, rget_rset, if_neg hoff, rget_rset_self]
  have hhi : rget (rset64 p off v s) p (off + 4) = BitVec.ofNat 32 (v.toNat / 2 ^ 32) := rget_rset_self _ _ _ _
  apply BitVec.eq_of_toNat_eq
  rw [rget64, hlo, hhi]
  simp only [BitVec.toNat_ofNat]
  omega

/-- A pair is kept with its two registers. -/
theorem rget64_congr {p off : Nat} {s t : State} (hlo : rget t p off = rget s p off) (hhi : rget t p (off + 4) = rget s p (off + 4)) :
    rget64 t p off = rget64 s p off := by
  rw [rget64, hlo, hhi, ← rget64]

theorem rset64_dram_pwr (p off : Nat) (v : BitVec 64) (s : State) : (rset64 p off v s).dram = s.dram ∧ (rset64 p off v s).pwr = s.pwr :=
  ⟨rfl, rfl⟩

theorem finc_dram_pwr (p off lo w n : Nat) (s : State) : (finc p off lo w n s).dram = s.dram ∧ (finc p off lo w n s).pwr = s.pwr :=
  ⟨rfl, rfl⟩

/-- Events leave the Stacks and the pins alone. -/
theorem queueEvent_dram_pwr (code page : Nat) (bits : Word) (detail : List Nat) (s : State) :
    (queueEvent code page bits detail s).dram = s.dram ∧ (queueEvent code page bits detail s).pwr = s.pwr := by
  obtain ⟨hdram, hpwr⟩ := rset64_dram_pwr pgVilri 0x88 (rget64 s pgVilri 0x88 + 1) s
  unfold queueEvent
  dsimp only
  split
  · exact ⟨hdram, hpwr⟩
  · obtain ⟨hdram', hpwr'⟩ := finc_dram_pwr pgVilri 0x7C 0 32 1 _
    exact ⟨hdram'.trans hdram, hpwr'.trans hpwr⟩

theorem raise_dram_pwr (p bit : Nat) (s : State) : (raise p bit s).dram = s.dram ∧ (raise p bit s).pwr = s.pwr := by
  unfold raise
  dsimp only
  split
  · exact ⟨rfl, rfl⟩
  · split
    · exact ⟨rset_dram _ _ _ _, rset_pwr _ _ _ _⟩
    · exact queueEvent_dram_pwr _ _ _ _ _

/-! ### TICKALIGN (R205, R206, R356) -/

section
variable {n : BitVec 64} {s : State}

/-- The alignment of a follower without jobs: the next tick takes the number `n` − 15, and the registers show `n`. -/
theorem doTickAlign_effect (hticking : ticking s = true) (hfollower : fget s pgTick 0x44 4 2 = 2) (hjobs : anyJob s = false) :
    (doTickAlign n s).tick + 16 = n ∧ rget64 (doTickAlign n s) pgTick 0x70 = n ∧ (doTickAlign n s).pwr.tickAligned = some n := by
  rw [doTickAlign, hticking, hfollower, hjobs, if_pos (by decide)]
  extract_lets s1 s2
  have hshown (v : Word) (t : State) (off : Nat) (hoff : off ∈ [0x70, 0x74]) : rget (rset pgTick 0x6C v t) pgTick off = rget t pgTick off := by
    rw [rget_rset, if_neg]
    rcases List.mem_pair.1 hoff with rfl | rfl <;> decide
  have hraised (t : State) (off : Nat) (hoff : off ∈ [0x70, 0x74]) : rget (raise pgTick 3 t) pgTick off = rget t pgTick off := by
    rcases List.mem_pair.1 hoff with rfl | rfl <;> exact rget_raise_of_ne (by decide) (by decide) (by decide) 3 t
  refine ⟨?_, ?_, ?_⟩
  · rw [(raise_logOnly _ _ _).tick]
    exact BitVec.sub_add_cancel n 16
  · exact (rget64_congr ((hraised _ 0x70 (by decide)).trans (hshown _ _ 0x70 (by decide)))
      ((hraised _ 0x74 (by decide)).trans (hshown _ _ 0x74 (by decide)))).trans (rget64_rset64_self (by decide) n s2)
  · exact congrArg PwrSt.tickAligned (raise_dram_pwr pgTick 3 _).2

theorem doTickAlign_of_no_follower (hmaster : fget s pgTick 0x44 4 2 ≠ 2) : doTickAlign n s = s := by
  rw [doTickAlign, decide_eq_false hmaster, Bool.and_false]
  rfl

end

/-! ### TICK_IN_CAPTURE and STEPLINK -/

/-- A normal pulse's offset is kept (R204). -/
theorem doTickInCapture_of_follower {s : State} (off : Nat) (hticking : ticking s = true) (hfollower : fget s pgTick 0x44 4 2 = 2) :
    doTickInCapture off false s = pwrMod (fun p => { p with tickInAt := some off }) s := by
  rw [doTickInCapture, hticking, hfollower]
  rfl

theorem doTickInCapture_of_no_follower {s : State} (off : Nat) (wide : Bool) (hmaster : fget s pgTick 0x44 4 2 ≠ 2) :
    doTickInCapture off wide s = s := by
  rw [doTickInCapture, decide_eq_true hmaster, Bool.or_true]
  rfl

/-- A step asked for by a linked module waits for its tick (R349). -/
theorem doStepLink_of_occupied {s : State} {slot : Nat} (sender code : Nat) (n : BitVec 64) (hrunning : running s = true)
    (hslot : (job s slot).occupied = true) :
    doStepLink slot sender code n s = curMod (fun c => { c with steplinks := c.steplinks ++ [(slot, sender, n, min code 4)] }) s := by
  rw [doStepLink, hrunning, hslot]
  rfl

/-- Settles O36: each command by the case that its conditions select. -/
theorem tickAlignment : Obligations.TickAlignment := by
  unfold Obligations.TickAlignment
  refine ⟨fun m p n s => ⟨fun hticking hfollower hjobs => ⟨_, rfl, doTickAlign_effect hticking hfollower hjobs⟩, fun hmaster => ?_⟩,
    fun off s => ⟨fun hticking hfollower => ⟨_, rfl, ?_⟩, fun hmaster w => ?_⟩, fun slot m c n s hrunning hslot => ⟨_, rfl, ?_⟩⟩
  · exact congrArg (gate true) (doTickAlign_of_no_follower hmaster)
  · rw [doTickInCapture_of_follower off hticking hfollower]
    exact ⟨rfl, rfl⟩
  · exact congrArg (gate true) (doTickInCapture_of_no_follower off w hmaster)
  · rw [doStepLink_of_occupied _ _ _ hrunning hslot]
    rfl

end Sys2Proof.Machine
end

