-- ==== Sys2Proof/Proofs/SlotStops.lean ====
section
/-! PROOF. What freeing a job's slot, or having it stop, leaves of the other slots and of what decides where segments stop (R27); the save
image in the Stacks (R219), and ENGINE_RESET (R421). -/

namespace Sys2Proof.Machine

set_option Elab.async false

/-! ### Pass boundaries (R27) -/

/-- What the next pass boundaries of an engine's segments are told from: the segments and commits of its passes in flight, and its units'
newest issues. -/
def Eng.stops (e : Eng) : List (Seg × Nat) × List (EUnit × Nat) := (e.arr.flights.map fun f => (f.seg, f.commit), e.units)

theorem boundaryOf_eq (e : Eng) (g : Seg) :
    boundaryOf e g =
      let l := e.stops.1.filter fun f => decide (f.1 = g) && decide (e.stops.2.foldl (fun t u => max t u.2) 0 ≤ f.2)
      if l = [] then none else some (l.foldl (fun t f => max t (f.2 + 1)) 0) := by
  unfold boundaryOf Eng.stops
  simp only [List.filter_map, List.foldl_map, List.map_eq_nil_iff, Function.comp_def]

/-- The slots but `j` are kept, and the engines' places and pass boundaries. -/
structure SlotOnly (j : Nat) (s t : State) : Prop where
  store : t.store = s.store
  stops : ∀ k, (eng t k).stops = (eng s k).stops
  jobs : ∀ i, i ≠ j → job t i = job s i

section
variable {j : Nat} {s t u : State}

theorem SlotOnly.refl (j : Nat) (s : State) : SlotOnly j s s := ⟨rfl, fun _ => rfl, fun _ _ => rfl⟩

theorem SlotOnly.trans (h : SlotOnly j s t) (h' : SlotOnly j t u) : SlotOnly j s u :=
  ⟨h'.store.trans h.store, fun k => (h'.stops k).trans (h.stops k), fun i hi => (h'.jobs i hi).trans (h.jobs i hi)⟩

theorem SlotOnly.storeKey (h : SlotOnly j s t) (l : Nat) : storeKey t l = storeKey s l := by
  rw [Machine.storeKey, h.store, ← Machine.storeKey]

theorem SlotOnly.boundaryOf (h : SlotOnly j s t) (k : Nat) (g : Seg) : boundaryOf (eng t k) g = boundaryOf (eng s k) g := by
  rw [boundaryOf_eq, h.stops, ← boundaryOf_eq]

/-- A job is at its pass boundary or not, whatever becomes of a slot. -/
theorem SlotOnly.atBoundary (h : SlotOnly j s t) (b : Job) : atBoundary t b = atBoundary s b := by
  unfold Machine.atBoundary
  simp only [h.storeKey, h.boundaryOf]

theorem slotOnly_of_fields (hstore : t.store = s.store := by rfl) (hengs : t.engs = s.engs := by rfl) (hjobs : t.jobs = s.jobs := by rfl) :
    SlotOnly j s t :=
  ⟨hstore, fun k => by rw [eng_of_engs hengs], fun i _ => by rw [job, hjobs, ← job]⟩

theorem LogOnly.slotOnly (h : LogOnly s t) : SlotOnly j s t := slotOnly_of_fields h.store h.engs h.jobs

theorem jobMod_slotOnly (f : Job → Job) (s : State) : SlotOnly j s (jobMod j f s) :=
  ⟨rfl, fun _ => rfl, fun i hi => by rw [job_jobMod, if_neg hi]⟩

theorem engMod_slotOnly (k : Nat) (f : Eng → Eng) (s : State) (hf : ∀ e, (f e).stops = e.stops := by intro; rfl) :
    SlotOnly j s (engMod k f s) :=
  ⟨rfl, fun i => by
    rw [eng_engMod]
    split
    · next hi => rw [hf, hi]
    · rfl, fun _ _ => rfl⟩

theorem segMod_slotOnly (k : Nat) (g : Seg) (f : SegSt → SegSt) (s : State) : SlotOnly j s (segMod k g f s) :=
  engMod_slotOnly _ _ _ fun e => by cases g <;> rfl

theorem whenS_slotOnly {c : Bool} {f : State → State} (h : ∀ s, SlotOnly j s (f s)) (s : State) : SlotOnly j s (whenS c f s) := by
  cases c
  · exact SlotOnly.refl j s
  · exact h s

theorem foldS_slotOnly {α : Type} {f : α → State → State} (h : ∀ a s, SlotOnly j s (f a s)) (l : List α) (s : State) :
    SlotOnly j s (foldS l f s) := by
  induction l generalizing s with
  | nil => exact SlotOnly.refl j s
  | cons a t ih => exact (h a s).trans (ih (f a s))

end

/-! ### Freeing a slot -/

theorem endHolds_jobs (k t : Nat) (hit : HoldOpen → Bool) (s : State) : (endHolds k t hit s).jobs = s.jobs := by
  have hpend : (pendTo k t s).jobs = s.jobs := by
    unfold pendTo
    rw [foldS_jobs fun _ _ => turnAway_jobs _ _ _ _ _ _ _]
    rfl
  unfold endHolds
  extract_lets s1 l s2
  rw [foldS_jobs (f := fun w : LineW => cPut k w.line w.data w.mark) fun _ _ => rfl, foldS_jobs (f := fun a => cMark k a mkFailed) fun _ _ => rfl]
  exact hpend

theorem endHolds_slotOnly {j : Nat} (k t : Nat) (hit : HoldOpen → Bool) (s : State) : SlotOnly j s (endHolds k t hit s) := by
  have hsteady := endHolds_steady k t hit s
  exact ⟨hsteady.store, fun k' => (congrArg Eng.stops (hsteady.engs k') : (eng _ k').steady.stops = (eng s k').steady.stops),
    fun i _ => by rw [job, endHolds_jobs, ← job]⟩

section
variable {j : Nat}

/-- The passes in flight of a cleared segment are no longer checked, and commit as before (R106). -/
theorem clearSeg_slotOnly (k : Nat) (g : Seg) (s : State) : SlotOnly j s (clearSeg k g s) := by
  have hflights (l : List Flight) :
      (l.map fun f => if f.seg = g then { f with chk := false, selected := false } else f).map (fun f => (f.seg, f.commit)) =
        l.map fun f => (f.seg, f.commit) := by
    rw [List.map_map]
    refine List.map_congr_left fun f _ => ?_
    rw [Function.comp_apply]
    split <;> rfl
  unfold clearSeg
  refine (endHolds_slotOnly _ _ _ s).trans (engMod_slotOnly _ _ _ fun e => ?_)
  cases g <;> exact congrArg (·, e.units) (hflights e.arr.flights)

theorem clearLanes_slotOnly (k : Nat) (g : Seg) (s : State) : SlotOnly j s (clearLanes k g s) := engMod_slotOnly _ _ _

theorem freeWheel_slotOnly (i h : Nat) (s : State) : SlotOnly j s (freeWheel i h s) :=
  (slotOnly_of_fields : SlotOnly j s (fset (pgHub h) 0x60 (4 * i) 3 7 s)).trans
    (foldS_slotOnly (fun _ _ => whenS_slotOnly (fun _ => slotOnly_of_fields) _) _ _)

/-- A freed slot holds no job, and nothing else of the slots changes. -/
theorem freeSlot_effect (j : Nat) (s : State) : SlotOnly j s (freeSlot j s) ∧ job (freeSlot j s) j = {} := by
  unfold freeSlot
  extract_lets b o s1 s2 s3 s4 s5 s6
  have hsegs : SlotOnly j s s1 :=
    foldS_slotOnly (fun l s => (clearSeg_slotOnly _ _ s).trans slotOnly_of_fields) _ s
  have hlists : SlotOnly j s1 s2 := slotOnly_of_fields
  have hcat : SlotOnly j s2 s4 := slotOnly_of_fields
  have hwheel : SlotOnly j s4 s5 := foldS_slotOnly (fun h s => freeWheel_slotOnly _ h s) _ s4
  have hready : (whenS (decide (pstate s6 = 3) && !anyJob s6) (setPstate 2) s6).jobs = s6.jobs := by
    cases decide (pstate s6 = 3) && !anyJob s6 <;> rfl
  refine ⟨hsegs.trans (hlists.trans (hcat.trans (hwheel.trans ((jobMod_slotOnly _ s5).trans
    (whenS_slotOnly (fun _ => slotOnly_of_fields) s6))))), ?_⟩
  rw [job, hready, ← job, job_jobMod, if_pos rfl]

theorem flushFrames_slotOnly (s : State) : SlotOnly j s (flushFrames j s) := by
  unfold flushFrames
  refine SlotOnly.trans ?_ (jobMod_slotOnly _ _)
  exact slotOnly_of_fields

/-- A slot that is reset holds no job (R27). -/
theorem resetSlot_effect {s : State} (hst : (job s j).st ≠ 0) : SlotOnly j s (resetSlot j s) ∧ job (resetSlot j s) j = {} := by
  unfold resetSlot
  extract_lets b s1
  have hlanes : SlotOnly j s s1 := foldS_slotOnly (fun _ s => clearLanes_slotOnly _ _ s) _ s
  have hflush : SlotOnly j s1 (flushFrames j s1) := flushFrames_slotOnly s1
  obtain ⟨hfree, hjob⟩ := freeSlot_effect j (flushFrames j s1)
  have hevent := jobEvent_logOnly j 6 (freeSlot j (flushFrames j s1))
  rw [if_neg (by simp [b, Job.occupied, hst])]
  refine ⟨hlanes.trans (hflush.trans (hfree.trans hevent.slotOnly)), ?_⟩
  rw [job, hevent.jobs, ← job, hjob]

/-- A slot that is to stop is freed where its engines are at a pass boundary, and is kept until they are where they are not (R27). -/
theorem stopSlot_effect {s : State} (hst : (job s j).st ≠ 0) :
    SlotOnly j s (stopSlot j s) ∧ (atBoundary s (job s j) = true → (job (stopSlot j s) j).st = 0) ∧
      (atBoundary s (job s j) = false → (job (stopSlot j s) j).ending = true) := by
  have hoccupied : (job s j).occupied = true := decide_eq_true hst
  unfold stopSlot
  dsimp only
  rw [hoccupied]
  rcases hboundary : atBoundary s (job s j) with _ | _
  · rw [if_neg (by decide), job_jobMod, if_pos rfl]
    exact ⟨(foldS_slotOnly (fun _ _ => segMod_slotOnly _ _ _ _) _ s).trans (jobMod_slotOnly _ _), by simp, fun _ => rfl⟩
  · obtain ⟨hreset, hjob⟩ := resetSlot_effect hst
    rw [if_pos (by decide), hjob]
    exact ⟨hreset, fun _ => rfl, by simp⟩

end

/-! ### ENGINE_RESET (R421) -/

/-- A slot with a segment on the engine at key `k` is to stop. -/
def stopOn (k j : Nat) (s : State) : State := if (job s j).engs.any fun l => decide (storeKey s l = k) then stopSlot j s else s

theorem stopSlot_of_free {j : Nat} {s : State} (hst : (job s j).st = 0) : stopSlot j s = s := by
  unfold stopSlot resetSlot
  simp [Job.occupied, hst]

theorem stopOn_slotOnly (k j : Nat) (s : State) : SlotOnly j s (stopOn k j s) := by
  unfold stopOn
  split
  · by_cases hst : (job s j).st = 0
    · rw [stopSlot_of_free hst]
      exact SlotOnly.refl j s
    · exact (stopSlot_effect hst).1
  · exact SlotOnly.refl j s

section
variable {f : Nat → State → State} (hf : ∀ j s, SlotOnly j s (f j s)) {l : List Nat} {j : Nat}
include hf

theorem job_foldS_of_notMem (hj : j ∉ l) (s : State) : job (foldS l f s) j = job s j := by
  induction l generalizing s with
  | nil => rfl
  | cons i l ih =>
    obtain ⟨hi, hl⟩ := not_or.1 (mt List.mem_cons.2 hj)
    exact (ih hl (f i s)).trans ((hf i s).jobs j hi)

/-- A change of each slot of a list meets the slot's record and its pass boundaries as they were, and no later one touches the record. -/
theorem job_foldS_of_mem (hl : l.Nodup) (hj : j ∈ l) (s : State) :
    ∃ u, (∀ b, atBoundary u b = atBoundary s b) ∧ (∀ n, storeKey u n = storeKey s n) ∧ job u j = job s j ∧
      job (foldS l f s) j = job (f j u) j := by
  induction l generalizing s with
  | nil => cases hj
  | cons i l ih =>
    obtain ⟨hi, hrest⟩ := List.nodup_cons.1 hl
    rcases eq_or_ne j i with rfl | hne
    · exact ⟨s, fun _ => rfl, fun _ => rfl, rfl, job_foldS_of_notMem hf hi (f j s)⟩
    · obtain ⟨u, hboundary, hkey, hjob, hend⟩ := ih hrest ((List.mem_cons.1 hj).resolve_left hne) (f i s)
      exact ⟨u, fun b => (hboundary b).trans ((hf i s).atBoundary b), fun n => (hkey n).trans ((hf i s).storeKey n),
        hjob.trans ((hf i s).jobs j hne), hend⟩

end

section
variable {x k : Nat} {s : State} (hk : k = resetKey s x) (hrunning : running s = true) (hfirst : (eng s k).cutReset = false)
include hk hrunning hfirst

theorem doEngineReset_eq : doEngineReset x s = engMod k (fun e => { e with cutReset := true }) (foldS (List.range 4) (stopOn k) s) := by
  unfold doEngineReset
  dsimp only
  rw [← hk, hrunning, hfirst]
  rfl

/-- Each slot with a segment on the engine stops as a slot reset has it stop. -/
theorem doEngineReset_effect :
    (eng (doEngineReset x s) k).cutReset = true ∧ ∀ j, j < 4 → (job s j).st ≠ 0 →
      ((job s j).engs.any fun l => decide (storeKey s l = k)) = true →
      (atBoundary s (job s j) = true → (job (doEngineReset x s) j).st = 0) ∧
        (atBoundary s (job s j) = false → (job (doEngineReset x s) j).ending = true) := by
  rw [doEngineReset_eq hk hrunning hfirst]
  refine ⟨by rw [eng_engMod, if_pos rfl], fun j hj hst hon => ?_⟩
  obtain ⟨u, hboundary, hkey, hjob, hend⟩ := job_foldS_of_mem (stopOn_slotOnly k) List.nodup_range (List.mem_range.2 hj) s
  have hstop : stopOn k j u = stopSlot j u := by
    rw [stopOn, hjob, if_pos (by simpa only [hkey] using hon)]
  obtain ⟨-, hfreed, hending⟩ := stopSlot_effect (j := j) (s := u) (by rwa [hjob])
  rw [hboundary, hjob] at hfreed hending
  have hlast : job (engMod k (fun e => { e with cutReset := true }) (foldS (List.range 4) (stopOn k) s)) j = job (stopSlot j u) j := by
    rw [job, engMod_jobs, ← job, hend, hstop]
  rw [hlast]
  exact ⟨hfreed, hending⟩

end

/-! ### SAVE_IMAGE_WRITE (R219) -/

theorem jobEvent_dram (j st : Nat) (s : State) : (jobEvent j st s).dram = s.dram :=
  (raise_dram_pwr _ _ _).1.trans (queueEvent_dram_pwr _ _ _ _ _).1

theorem stkPut_dram (a : Nat) (bs : List Byte) (s : State) : (stkPut a bs s).dram = writeBytesAt s.dram a bs := rfl

/-- The job shows that it is saved, and its event leaves the Stacks. -/
theorem jobSaved_shown (j : Nat) (s : State) :
    (job (raise pgMod 2 (jobEvent j 3 (jobMod j (fun b => { b with saved := true }) s))) j).saved = true ∧
      (raise pgMod 2 (jobEvent j 3 (jobMod j (fun b => { b with saved := true }) s))).dram = s.dram := by
  have hlog := (jobEvent_logOnly j 3 (jobMod j (fun b => { b with saved := true }) s)).trans (raise_logOnly pgMod 2 _)
  constructor
  · rw [job, hlog.jobs, ← job, job_jobMod, if_pos rfl]
  · rw [(raise_dram_pwr _ _ _).1, jobEvent_dram]
    rfl

section
variable {j : Nat} {s : State}

/-- A job that was not saved in its pause shows its save once the image is written. -/
theorem doSaveImageWrite_eq {off : Nat} (hoff : off = (rget64 s pgMod (0x68 + 16 * j)).toNat) (hst : (job s j).st = 4)
    (hsaved : (job s j).saved = false) (hroom : rangeOk off (saveImage s j).length = true) (hline : off % 64 = 0) :
    ∃ u, u.dram = writeBytesAt s.dram off (saveImage s j) ∧
      doSaveImageWrite j s = raise pgMod 2 (jobEvent j 3 (jobMod j (fun b => { b with saved := true }) u)) := by
  unfold doSaveImageWrite
  simp only [← hoff]
  rw [if_pos ⟨hst, hsaved⟩, if_pos ⟨hroom, hline⟩]
  exact ⟨_, (secMod_dram _ _).trans (stkPut_dram off (saveImage s j) s), rfl⟩

/-- The save image of a paused job stands at SAVEADDR, and the job shows it. -/
theorem doSaveImageWrite_effect {off : Nat} (hoff : off = (rget64 s pgMod (0x68 + 16 * j)).toNat) (hst : (job s j).st = 4)
    (hsaved : (job s j).saved = false) (hroom : rangeOk off (saveImage s j).length = true) (hline : off % 64 = 0) :
    (job (doSaveImageWrite j s) j).saved = true ∧
      ∀ i b, (saveImage s j)[i]? = some b → stkByte (doSaveImageWrite j s) (off + i) = b := by
  obtain ⟨u, hput, heq⟩ := doSaveImageWrite_eq hoff hst hsaved hroom hline
  obtain ⟨hshown, hdram⟩ := jobSaved_shown j u
  rw [heq]
  refine ⟨hshown, fun i b hb => ?_⟩
  obtain ⟨hi, hget⟩ := List.getElem?_eq_some_iff.1 hb
  rw [stkByte, hdram, hput, tabGet_writeBytesAt, dif_pos ⟨by omega, Nat.add_lt_add_left hi off⟩]
  simpa using hget

/-- A pause is saved once. -/
theorem doSaveImageWrite_of_saved (hsaved : (job s j).saved = true) : doSaveImageWrite j s = s := by
  unfold doSaveImageWrite
  dsimp only
  rw [if_neg (by simp [hsaved])]

end

/-- Settles O41: the save's bytes are those written at SAVEADDR, and each slot on a reset engine stops on its own (`doEngineReset_effect`). -/
theorem saveAndEngineReset : Obligations.SaveAndEngineReset := by
  unfold Obligations.SaveAndEngineReset
  refine ⟨fun slot s off hoff hst => ⟨fun hsaved hroom hline => ⟨_, rfl, doSaveImageWrite_effect hoff hst hsaved hroom hline⟩,
    fun hsaved => ?_⟩, fun die e s he hrunning hfirst => ⟨_, rfl, ?_⟩⟩
  · exact congrArg (gate true) (doSaveImageWrite_of_saved hsaved)
  · rw [decide_eq_true he]
    exact doEngineReset_effect rfl hrunning hfirst

end Sys2Proof.Machine
end

