-- ==== Sys2Proof/Proofs/EdgeRegisters.lean ====
section
/-! PROOF. What the operations of a tick's edge keep once the clocks have moved: the tick's number and time, the latched counter C0 (R201),
and the canonical forms of the tables. Here for the state's own operations, the events and the records. -/

namespace Sys2Proof.Machine

set_option Elab.async false

/-- The register is not one of the pair that holds C0. -/
def C0Free (p off : Nat) : Prop := ridx p off ≠ ridx pgTick 0x60 ∧ ridx p off ≠ ridx pgTick 0x64

/-- The tick's number and time are kept, the latched counter C0 too, and the waiting commands; the tables keep their canonical forms. -/
structure EdgeKept (s t : State) : Prop where
  pending : t.pending = s.pending
  tick : t.tick = s.tick
  refTick : t.refTick = s.refTick
  latch : rget64 t pgTick 0x60 = rget64 s pgTick 0x60
  stacksWf : Memory.wf s → Memory.wf t
  regsWf : tabWf regReset s.regs = true → tabWf regReset t.regs = true
  shadowWf : tabWf (fun _ => none) s.shadow = true → tabWf (fun _ => none) t.shadow = true
  capturedWf : tabWf (fun _ => none) s.captured = true → tabWf (fun _ => none) t.captured = true

section
variable {s t u : State}

theorem EdgeKept.refl (s : State) : EdgeKept s s := ⟨rfl, rfl, rfl, rfl, id, id, id, id⟩

theorem EdgeKept.trans (h : EdgeKept s t) (h' : EdgeKept t u) : EdgeKept s u where
  pending := h'.pending.trans h.pending
  tick := h'.tick.trans h.tick
  refTick := h'.refTick.trans h.refTick
  latch := h'.latch.trans h.latch
  stacksWf := h'.stacksWf ∘ h.stacksWf
  regsWf := h'.regsWf ∘ h.regsWf
  shadowWf := h'.shadowWf ∘ h.shadowWf
  capturedWf := h'.capturedWf ∘ h.capturedWf

/-- An update of other parts of the state. -/
theorem edgeKept_of_fields (hpending : t.pending = s.pending := by rfl) (htick : t.tick = s.tick := by rfl)
    (href : t.refTick = s.refTick := by rfl) (hregs : t.regs = s.regs := by rfl) (hdram : t.dram = s.dram := by rfl)
    (hshadow : t.shadow = s.shadow := by rfl) (hcaptured : t.captured = s.captured := by rfl) : EdgeKept s t where
  pending := hpending
  tick := htick
  refTick := href
  latch := by simp only [rget64, rget, hregs]
  stacksWf := by simp only [Memory.wf, hdram]; exact id
  regsWf := by rw [hregs]; exact id
  shadowWf := by rw [hshadow]; exact id
  capturedWf := by rw [hcaptured]; exact id

theorem whenS_edge {c : Bool} {f : State → State} (h : ∀ s, EdgeKept s (f s)) (s : State) : EdgeKept s (whenS c f s) := by
  cases c
  · exact EdgeKept.refl s
  · exact h s

theorem foldS_edge_of_mem {α : Type} {f : α → State → State} {l : List α} (h : ∀ a ∈ l, ∀ s, EdgeKept s (f a s)) (s : State) :
    EdgeKept s (foldS l f s) := by
  induction l generalizing s with
  | nil => exact EdgeKept.refl s
  | cons a l ih => exact (h a List.mem_cons_self s).trans (ih (fun b hb => h b (List.mem_cons_of_mem a hb)) (f a s))

theorem foldS_edge {α : Type} {f : α → State → State} (h : ∀ a s, EdgeKept s (f a s)) (l : List α) (s : State) :
    EdgeKept s (foldS l f s) := foldS_edge_of_mem (fun a _ => h a) s

theorem ite_edge {c : Prop} [Decidable c] {t u : State} (ht : EdgeKept s t) (hu : EdgeKept s u) : EdgeKept s (if c then t else u) := by
  split
  · exact ht
  · exact hu

end

/-! ### Pages beside TICK -/

/-- The pages above TICK's hold no C0, at any offset. -/
theorem c0Free_of_lt {p : Nat} (h : pgTick < p) (off : Nat) : C0Free p off := by
  unfold C0Free ridx
  unfold pgTick at *
  omega

@[simp] theorem c0Free_pgEng (k q off : Nat) : C0Free (pgEng k q) off := c0Free_of_lt (by unfold pgTick pgEng; omega) off
@[simp] theorem c0Free_pgDie (c q off : Nat) : C0Free (pgDie c q) off := c0Free_of_lt (by unfold pgTick pgDie; omega) off
@[simp] theorem c0Free_pgHub (h off : Nat) : C0Free (pgHub h) off := c0Free_of_lt (by unfold pgTick pgHub; omega) off
@[simp] theorem c0Free_pgMc (h k off : Nat) : C0Free (pgMc h k) off := c0Free_of_lt (by unfold pgTick pgMc; omega) off
@[simp] theorem c0Free_pgAcc (q off : Nat) : C0Free (pgAcc q) off := c0Free_of_lt (by unfold pgTick pgAcc; omega) off
@[simp] theorem c0Free_pgZone (z off : Nat) : C0Free (pgZone z) off := c0Free_of_lt (by unfold pgTick pgZone; omega) off
@[simp] theorem c0Free_pgCur (off : Nat) : C0Free pgCur off := c0Free_of_lt (by decide) off
@[simp] theorem c0Free_pgErr (off : Nat) : C0Free pgErr off := c0Free_of_lt (by decide) off
@[simp] theorem c0Free_pgVilri (off : Nat) : C0Free pgVilri off := c0Free_of_lt (by decide) off

@[simp] theorem c0Free_pgAbf (f off : Nat) : C0Free (pgAbf f) off := by
  refine c0Free_of_lt ?_ off
  unfold pgAbf
  split <;> decide

/-- The pages below TICK's hold no C0 at an offset of theirs. -/
theorem c0Free_of_offset {p off : Nat} (hp : p < pgTick) (ho : off < 4096) : C0Free p off := by
  unfold C0Free ridx
  unfold pgTick at *
  omega

@[simp] theorem c0Free_pgMod {off : Nat} (ho : off < 4096) : C0Free pgMod off := c0Free_of_offset (by decide) ho

@[simp] theorem c0Free_pgSec {off : Nat} (ho : off < 4096) : C0Free pgSec off := c0Free_of_offset (by decide) ho

/-- Registers of the TICK page beside C0. -/
@[simp] theorem c0Free_pgTick {off : Nat} (hlo : off / 4 ≠ 24) (hhi : off / 4 ≠ 25) : C0Free pgTick off := by
  unfold C0Free ridx
  omega

/-! ### Registers -/

section
variable {p off : Nat} {s : State}

theorem rset_edge_of_latch {v : Word} (hlatch : rget64 (rset p off v s) pgTick 0x60 = rget64 s pgTick 0x60) : EdgeKept s (rset p off v s) :=
  ⟨rfl, rfl, rfl, hlatch, id, rset_regsWf p off v s, id, id⟩

theorem rset_edge (v : Word) (s : State) (hfree : C0Free p off := by simp) : EdgeKept s (rset p off v s) := by
  obtain ⟨hlo, hhi⟩ := hfree
  exact rset_edge_of_latch (rget64_congr (by rw [rget_rset, if_neg hlo.symm]) (by rw [rget_rset, if_neg hhi.symm]))

theorem fset_edge (lo w x : Nat) (s : State) (hfree : C0Free p off := by simp) : EdgeKept s (fset p off lo w x s) := rset_edge _ s hfree

theorem finc_edge (lo w n : Nat) (s : State) (hfree : C0Free p off := by simp) : EdgeKept s (finc p off lo w n s) := rset_edge _ s hfree

theorem rset64_edge (v : BitVec 64) (s : State) (hlo : C0Free p off := by simp) (hhi : C0Free p (off + 4) := by simp) :
    EdgeKept s (rset64 p off v s) := (rset_edge _ s hlo).trans (rset_edge _ _ hhi)

end

/-! ### Parts of the state -/

theorem engMod_edge (k : Nat) (f : Eng → Eng) (s : State) : EdgeKept s (engMod k f s) := edgeKept_of_fields
theorem segMod_edge (k : Nat) (g : Seg) (f : SegSt → SegSt) (s : State) : EdgeKept s (segMod k g f s) := edgeKept_of_fields
theorem jobMod_edge (j : Nat) (f : Job → Job) (s : State) : EdgeKept s (jobMod j f s) := edgeKept_of_fields
theorem zoneMod_edge (z : Nat) (f : Zone → Zone) (s : State) : EdgeKept s (zoneMod z f s) := edgeKept_of_fields
theorem catMod_edge (n : Nat) (f : CatE → CatE) (s : State) : EdgeKept s (catMod n f s) := edgeKept_of_fields
theorem accMod_edge (q : Nat) (f : AccPort → AccPort) (s : State) : EdgeKept s (accMod q f s) := edgeKept_of_fields
theorem hubMod_edge (h : Nat) (f : HubSt → HubSt) (s : State) : EdgeKept s (hubMod h f s) := edgeKept_of_fields
theorem abfMod_edge (p : Nat) (f : AbfSt → AbfSt) (s : State) : EdgeKept s (abfMod p f s) := edgeKept_of_fields
theorem secMod_edge (f : SecSt → SecSt) (s : State) : EdgeKept s (secMod f s) := edgeKept_of_fields
theorem pwrMod_edge (f : PwrSt → PwrSt) (s : State) : EdgeKept s (pwrMod f s) := edgeKept_of_fields
theorem vilMod_edge (f : VilriSt → VilriSt) (s : State) : EdgeKept s (vilMod f s) := edgeKept_of_fields
theorem curMod_edge (f : CurSt → CurSt) (s : State) : EdgeKept s (curMod f s) := edgeKept_of_fields
theorem emit_edge (o : Out) (s : State) : EdgeKept s (emit o s) := edgeKept_of_fields
theorem takeFree_edge (s : State) : EdgeKept s (takeFree s).2 := edgeKept_of_fields
theorem cPut_edge (k line : Nat) (l : Line) (m : Mark) (s : State) : EdgeKept s (cPut k line l m s) := edgeKept_of_fields
theorem cMark_edge (k line : Nat) (m : Mark) (s : State) : EdgeKept s (cMark k line m s) := edgeKept_of_fields

theorem stkWrite_edge (a : Nat) (l : Line) (m : Mark) (s : State) : EdgeKept s (stkWrite a l m s) :=
  ⟨rfl, rfl, rfl, rfl, stkWrite_wf a l m s, id, id, id⟩

theorem stkPut_edge (a : Nat) (bs : List Byte) (s : State) : EdgeKept s (stkPut a bs s) :=
  ⟨rfl, rfl, rfl, rfl, stkPut_wf a bs s, id, id, id⟩

/-- A shadow takes a value. -/
theorem shadow_edge (i : Nat) (w : Option Word) (s : State) : EdgeKept s { s with shadow := tabSet (fun _ => none) s.shadow i w } :=
  ⟨rfl, rfl, rfl, rfl, id, id, tabWf_tabSet _ _ _ _, id⟩

/-! ### Events and records -/

theorem queueEvent_edge (code page : Nat) (bits : Word) (detail : List Nat) (s : State) :
    EdgeKept s (queueEvent code page bits detail s) := by
  have hseq : EdgeKept s (rset64 pgVilri 0x88 (rget64 s pgVilri 0x88 + 1) s) := rset64_edge _ s
  unfold queueEvent
  dsimp only
  split
  · exact hseq.trans edgeKept_of_fields
  · exact (hseq.trans edgeKept_of_fields).trans (finc_edge _ _ _ _)

theorem sendEvent_edge (code : Nat) (detail : List Nat) (s : State) : EdgeKept s (sendEvent code detail s) := queueEvent_edge _ _ _ _ s

theorem c0Free_event (p : Nat) : C0Free p 0x10 := by
  unfold C0Free ridx pgTick
  omega

theorem raise_edge (p bit : Nat) (s : State) : EdgeKept s (raise p bit s) := by
  unfold raise
  dsimp only
  split
  · exact EdgeKept.refl s
  · split
    · exact rset_edge _ s (c0Free_event p)
    · exact (rset_edge _ s (c0Free_event p)).trans (queueEvent_edge _ _ _ _ _)

theorem alertCause_edge (bit : Nat) (s : State) : EdgeKept s (alertCause bit s) := rset_edge _ s

theorem ringWrite_edge (r : ErrRec) (s : State) : EdgeKept s (ringWrite r s) := by
  unfold ringWrite
  extract_lets i s1 s2
  have hline : EdgeKept s s1 := stkWrite_edge _ _ _ s
  have hfull : EdgeKept s1 s2 := ite_edge ((finc_edge _ _ _ s1).trans (raise_edge _ _ _)) (EdgeKept.refl s1)
  have hseen : EdgeKept s2 { s2 with pwr := { s2.pwr with ringed := s2.pwr.ringed + 1, seen := r.seq.toNat + 1 } } := edgeKept_of_fields
  exact hline.trans (hfull.trans (hseen.trans (fset_edge _ _ _ _)))

theorem ringFlush_edge (s : State) : EdgeKept s (ringFlush s) := by
  unfold ringFlush
  exact ite_edge (foldS_edge ringWrite_edge _ s) (EdgeKept.refl s)

theorem errata_edge (x : Er) (s : State) : EdgeKept s (errata x s) := by
  unfold errata
  extract_lets n r full oldest _ s1 s2 s3 s4 s5 s6
  have hlost : EdgeKept s s1 := by
    refine ite_edge ?_ (EdgeKept.refl s)
    exact (edgeKept_of_fields : EdgeKept s { s with pwr := { s.pwr with seen := oldest + 1 } }).trans
      ((finc_edge _ _ _ _).trans (raise_edge _ _ _))
  have hbuf : EdgeKept s1 s2 := edgeKept_of_fields
  have hcount : EdgeKept s2 s5 := (fset_edge _ _ _ s2).trans ((fset_edge _ _ _ s3).trans (finc_edge _ _ _ s4))
  exact hlost.trans (hbuf.trans (hcount.trans ((whenS_edge (raise_edge _ _) s5).trans (ringFlush_edge s6))))

theorem substitution_edge (x : Er) (kind logical old new : Nat) (s : State) : EdgeKept s (substitution x kind logical old new s) :=
  errata_edge _ s

theorem capacity_edge (kind sev : Nat) (x : Er) (s : State) : EdgeKept s (capacity kind sev x s) :=
  (errata_edge _ s).trans ((raise_edge _ _ _).trans ((sendEvent_edge _ _ _).trans (alertCause_edge _ _)))

theorem errZone_edge (ty sev z : Nat) (detail : List Nat) (s : State) : EdgeKept s (errZone ty sev z detail s) := errata_edge _ s

theorem jobEvent_edge (j st : Nat) (s : State) : EdgeKept s (jobEvent j st s) := (sendEvent_edge _ _ s).trans (raise_edge _ _ _)

theorem setPstate_edge (v : Nat) (s : State) : EdgeKept s (setPstate v s) := fset_edge _ _ _ s

/-! ### The commit of shadows (R394) -/

/-- A register without tick-class fields keeps its value as its shadow commits. -/
theorem commitWord_of_no_rt {p off : Nat} (h : ∀ f ∈ fieldsAt p off, f.acc ≠ .rt) (now sh : Word) : commitWord p off now sh = now := by
  have hfold (l : List Fld) (hl : ∀ f ∈ l, f.acc ≠ .rt) (v : Nat) :
      l.foldl (fun v f => if f.acc = .rt then putBits v f.lo f.w (bitsOf sh.toNat f.lo f.w) else v) v = v := by
    induction l generalizing v with
    | nil => rfl
    | cons f l ih =>
      rw [List.foldl_cons, if_neg (hl f List.mem_cons_self)]
      exact ih (fun g hg => hl g (List.mem_cons_of_mem f hg)) v
  rw [commitWord, hfold _ h, BitVec.ofNat_toNat, BitVec.setWidth_eq]

theorem c0_no_rt {p off : Nat} (h : ¬ C0Free p off) (ho : off % 4 = 0) (ho' : off < 4096) : p = pgTick ∧ (off = 0x60 ∨ off = 0x64) := by
  unfold C0Free ridx pgTick at h
  unfold pgTick
  omega

theorem commitReg_edge (i : Nat) (sh : Word) (s : State) : EdgeKept s (commitReg i sh s) := by
  have hshown (p : Nat) : C0Free p 0x20 := by
    unfold C0Free ridx pgTick
    omega
  unfold commitReg
  extract_lets p off
  refine EdgeKept.trans ?_ (fset_edge _ _ _ _ (hshown p))
  by_cases hfree : C0Free p off
  · exact rset_edge _ s hfree
  · obtain ⟨hp, hoff⟩ := c0_no_rt hfree (by omega) (by omega)
    have hno_rt : ∀ f ∈ fieldsAt p off, f.acc ≠ .rt := by
      rw [hp]
      rcases hoff with hoff | hoff <;> (rw [hoff]; decide)
    rw [commitWord_of_no_rt hno_rt]
    refine rset_edge_of_latch (rget64_congr ?_ ?_) <;>
    · rw [rget_rset]
      split
      · next h => rw [rget, rget, h]
      · rfl

/-- Shadows that commit one after another. -/
theorem foldS_commit_edge {f : Nat × Option Word → State → State} (hsome : ∀ i w s, f (i, some w) s = commitReg i w s)
    (hnone : ∀ i s, f (i, none) s = s) (l : Tab (Option Word)) (s : State) : EdgeKept s (foldS l f s) := by
  refine foldS_edge (fun x s => ?_) l s
  obtain ⟨i, w⟩ := x
  cases w with
  | none =>
    rw [hnone]
    exact EdgeKept.refl s
  | some w =>
    rw [hsome]
    exact commitReg_edge i w s

theorem commitShadows_edge (f : Nat → Bool) (s : State) : EdgeKept s (commitShadows f s) := by
  unfold commitShadows
  extract_lets due s1
  have hdue : EdgeKept s s1 := foldS_commit_edge (fun _ _ _ => rfl) (fun _ _ => rfl) due s
  refine ⟨hdue.pending, hdue.tick, hdue.refTick, hdue.latch, hdue.stacksWf, hdue.regsWf, fun h => ?_, hdue.capturedWf⟩
  exact tabWf_filter _ _ _ (hdue.shadowWf h)

theorem commitCaptured_edge (f : Nat → Bool) (s : State) : EdgeKept s (commitCaptured f s) := by
  unfold commitCaptured
  extract_lets due s1
  have hdue : EdgeKept s s1 := foldS_commit_edge (fun _ _ _ => rfl) (fun _ _ => rfl) due s
  refine ⟨hdue.pending, hdue.tick, hdue.refTick, hdue.latch, hdue.stacksWf, hdue.regsWf, hdue.shadowWf, fun h => ?_⟩
  exact tabWf_filter _ _ _ (hdue.capturedWf h)

theorem captureShadows_edge (s : State) : EdgeKept s (captureShadows s) := by
  have hcapture (l : Tab (Option Word)) (t : Tab (Option Word)) (h : tabWf (fun _ => none) t = true) :
      tabWf (fun _ => none) (l.foldl (fun t x => tabSet (fun _ => none) t x.1 x.2) t) = true := by
    induction l generalizing t with
    | nil => exact h
    | cons x l ih => exact ih _ (tabWf_tabSet _ _ _ _ h)
  exact ⟨rfl, rfl, rfl, rfl, id, id, tabWf_filter _ _ _, hcapture _ _⟩

end Sys2Proof.Machine
end

