-- ==== Sys2Proof/Proofs/EdgeEngines.lean ====
section
/-! PROOF. What a tick's edge does with engines, segments and job slots keeps the tick's number and time, C0 and the tables' forms. -/

namespace Sys2Proof.Machine

set_option Elab.async false

/-! ### Hold windows and frames (R177, R197, R207) -/

theorem schedFault_edge (k : Nat) (g : Seg) (pc cause cyc : Nat) (arrival : Bool) (s : State) :
    EdgeKept s (schedFault k g pc cause cyc arrival s) := by
  unfold schedFault
  dsimp only
  refine EdgeKept.trans ?_ (raise_edge _ _ _)
  refine EdgeKept.trans ?_ (segMod_edge _ _ _ _)
  refine EdgeKept.trans ?_ (finc_edge _ _ _ _)
  exact ite_edge ((rset_edge _ s).trans (rset_edge _ _)) (EdgeKept.refl s)

theorem turnAway_edge (k line : Nat) (g : Seg) (pc cyc : Nat) (arrival : Bool) (s : State) :
    EdgeKept s (turnAway k line g pc cyc arrival s) := (engMod_edge _ _ s).trans (schedFault_edge _ _ _ _ _ _ _)

theorem pendTo_edge (k t : Nat) (s : State) : EdgeKept s (pendTo k t s) :=
  (engMod_edge _ _ s).trans (foldS_edge (fun _ _ => turnAway_edge _ _ _ _ _ _ _) _ _)

theorem endHolds_edge (k t : Nat) (hit : HoldOpen → Bool) (s : State) : EdgeKept s (endHolds k t hit s) := by
  unfold endHolds
  exact (pendTo_edge _ _ s).trans ((engMod_edge _ _ _).trans ((foldS_edge (fun _ _ => cMark_edge _ _ _ _) _ _).trans
    (foldS_edge (fun _ _ => cPut_edge _ _ _ _ _) _ _)))

theorem clearSlog_edge (k : Nat) (s : State) : EdgeKept s (clearSlog k s) := by
  unfold clearSlog
  split
  · exact fset_edge _ _ _ s
  · exact EdgeKept.refl s

theorem startBg_edge (k c : Nat) (s : State) : EdgeKept s (startBg k c s) :=
  (segMod_edge _ _ _ s).trans (whenS_edge (clearSlog_edge k) _)

theorem commitEngine_edge (l : Nat) (s : State) : EdgeKept s (commitEngine l s) :=
  (commitCaptured_edge _ s).trans (whenS_edge (commitCaptured_edge _) _)

theorem startFrame_edge (l c : Nat) (fr : BitVec 64) (s : State) : EdgeKept s (startFrame l c fr s) := by
  unfold startFrame
  extract_lets k s1 s2 s3 s4 s5
  have hstart : EdgeKept s s4 := (rset_edge _ s).trans ((engMod_edge _ _ s1).trans ((commitEngine_edge _ s2).trans (segMod_edge _ _ _ s3)))
  refine hstart.trans (ite_edge ?_ (whenS_edge (startBg_edge _ _) s4))
  exact (endHolds_edge _ _ _ s4).trans ((fset_edge _ _ _ _).trans (segMod_edge _ _ _ s5))

theorem doEngineFrameStart_edge (l : Nat) (s : State) : EdgeKept s (doEngineFrameStart l s) :=
  ite_edge (startFrame_edge _ _ _ s) (EdgeKept.refl s)

theorem lateStarts_edge (s : State) : EdgeKept s (lateStarts s) := foldS_edge doEngineFrameStart_edge _ s

theorem slackOf_edge (j : Nat) (s : State) : EdgeKept s (slackOf j s) :=
  (jobMod_edge _ _ s).trans (foldS_edge (fun _ s => (curMod_edge _ s).trans ((rset_edge _ _).trans (rset_edge _ _))) _ _)

theorem tickEngines_edge (s : State) : EdgeKept s (tickEngines s) := by
  unfold tickEngines
  refine foldS_edge (fun l s => ?_) _ s
  refine ite_edge (EdgeKept.refl s) ?_
  have hquiet (s : State) := whenS_edge (c := decide (((eng s (storeKey s l)).bg).st = 1)) (segMod_edge (storeKey s l) .bg
    fun x => { x with quiet := x.quiet + 1 }) s
  exact ite_edge (hquiet s) ((hquiet s).trans (startFrame_edge _ _ _ _))

theorem tickCommits_edge (s : State) : EdgeKept s (tickCommits s) := by
  unfold tickCommits
  exact commitCaptured_edge _ s

/-! ### Job slots -/

theorem clearLanes_edge (k : Nat) (g : Seg) (s : State) : EdgeKept s (clearLanes k g s) := engMod_edge _ _ s

theorem clearSeg_edge (k : Nat) (g : Seg) (s : State) : EdgeKept s (clearSeg k g s) := (endHolds_edge _ _ _ s).trans (engMod_edge _ _ _)

theorem freeWheel_edge (j h : Nat) (s : State) : EdgeKept s (freeWheel j h s) :=
  (fset_edge _ _ _ s).trans (foldS_edge (fun _ s => whenS_edge (fun _ => fset_edge _ _ _ _) s) _ _)

theorem flushFrames_edge (j : Nat) (s : State) : EdgeKept s (flushFrames j s) := by
  unfold flushFrames
  exact EdgeKept.trans edgeKept_of_fields (jobMod_edge _ _ _)

section
variable {j : Nat} (hj : j < 4)
include hj

theorem freeSlot_edge (s : State) : EdgeKept s (freeSlot j s) := by
  unfold freeSlot
  extract_lets b o s1 s2 s3 s4 s5 s6
  have hsegs : EdgeKept s s1 :=
    foldS_edge (fun _ s => (clearSeg_edge _ _ s).trans ((rset_edge _ _).trans (rset_edge _ _))) _ s
  have hlists : EdgeKept s1 s2 := edgeKept_of_fields
  have hcat : EdgeKept s2 s3 := edgeKept_of_fields
  have hbase : EdgeKept s3 s4 := fset_edge _ _ _ s3 (c0Free_pgMod (by omega))
  have hwheel : EdgeKept s4 s5 := foldS_edge (freeWheel_edge j) _ s4
  exact hsegs.trans (hlists.trans (hcat.trans (hbase.trans (hwheel.trans ((jobMod_edge _ _ s5).trans (whenS_edge (setPstate_edge 2) s6))))))

theorem resetSlot_edge (s : State) : EdgeKept s (resetSlot j s) := by
  unfold resetSlot
  dsimp only
  refine ite_edge (EdgeKept.refl s) ?_
  exact (foldS_edge (fun _ s => clearLanes_edge _ _ s) _ s).trans ((flushFrames_edge j _).trans ((freeSlot_edge hj _).trans (jobEvent_edge _ _ _)))

end

theorem openRtSteps_edge (j : Nat) (s : State) : EdgeKept s (openRtSteps j s) := ite_edge (EdgeKept.refl s) edgeKept_of_fields

theorem tickResets_edge (s : State) : EdgeKept s (tickResets s) := by
  unfold tickResets
  refine foldS_edge_of_mem (fun j hmem s => ?_) s
  have hj : j < 4 := List.mem_range.1 hmem
  refine ite_edge (EdgeKept.trans ?_ (resetSlot_edge hj _)) (ite_edge ((flushFrames_edge j s).trans (freeSlot_edge hj _)) (EdgeKept.refl s))
  split
  · exact (takeFree_edge s).trans ((errata_edge _ _).trans (sendEvent_edge _ _ _))
  · exact EdgeKept.refl s

theorem tickPauses_edge (s : State) : EdgeKept s (tickPauses s) := by
  unfold tickPauses
  refine foldS_edge_of_mem (fun j hmem s => ?_) s
  refine ite_edge ((flushFrames_edge j s).trans (freeSlot_edge (List.mem_range.1 hmem) _)) (ite_edge ?_ (ite_edge ?_ (EdgeKept.refl s)))
  · exact (jobMod_edge _ _ s).trans (jobEvent_edge _ _ _)
  · exact (jobMod_edge _ _ s).trans ((openRtSteps_edge _ _).trans (jobEvent_edge _ _ _))

theorem jobLevels_edge (j : Nat) (s : State) : EdgeKept s (jobLevels j s) := foldS_edge (fun _ s => engMod_edge _ _ s) _ s

theorem tickBinds_edge (s : State) : EdgeKept s (tickBinds s) := by
  unfold tickBinds
  refine foldS_edge (fun j s => ite_edge ?_ (EdgeKept.refl s)) _ s
  extract_lets s1 o base
  have hbind : EdgeKept s s1 := (jobLevels_edge j s).trans ((jobMod_edge _ _ _).trans ((openRtSteps_edge _ _).trans (setPstate_edge _ _)))
  exact ite_edge (hbind.trans ((fset_edge _ _ _ s1).trans (foldS_edge (fun _ s => shadow_edge _ _ s) _ _))) hbind

theorem tickStarts_edge (wake : Bool) (s : State) : EdgeKept s (tickStarts wake s) := by
  unfold tickStarts
  refine foldS_edge (fun j s => ite_edge (EdgeKept.trans ?_ (jobMod_edge _ _ _)) (EdgeKept.refl s)) _ s
  split
  · exact sendEvent_edge _ _ s
  · exact EdgeKept.refl s

theorem tickFrames_edge (ev : BitVec 8) (zs : List Nat) (s : State) : EdgeKept s (tickFrames ev zs s) :=
  foldS_edge (fun _ s => ite_edge (jobMod_edge _ _ s) (EdgeKept.refl s)) _ s

theorem closeFrames_edge (j : Nat) (s : State) : EdgeKept s (closeFrames j s) := by
  unfold closeFrames
  refine ite_edge (EdgeKept.refl s) ?_
  exact EdgeKept.trans edgeKept_of_fields (jobMod_edge _ _ _)

theorem sfRecord_edge (l : Nat) (g : Seg) (cause pc count : Nat) (wt : BitVec 64) (s : State) : EdgeKept s (sfRecord l g cause pc count wt s) :=
  errata_edge _ s

theorem tickSummaries_edge (s : State) : EdgeKept s (tickSummaries s) := by
  unfold tickSummaries
  refine foldS_edge (fun l s => (whenS_edge (fun s => segMod_edge _ _ _ s) s).trans (foldS_edge (fun g s => ?_) _ _)) _ s
  have hrecords := foldS_edge (f := fun (x : Nat × Nat × Nat × BitVec 64) => sfRecord l g x.1 x.2.1 x.2.2.1 x.2.2.2)
    (fun x s => sfRecord_edge _ _ _ _ _ _ s)
  exact ite_edge (hrecords _ s) ((hrecords _ s).trans (segMod_edge _ _ _ _))

/-! ### Engines lost and bound (R21, R23, R234, R249) -/

theorem loseEngine_edge (l : Nat) (s : State) : EdgeKept s (loseEngine l s) := foldS_edge (fun _ s => jobMod_edge _ _ s) _ s

theorem countEngines_edge (s : State) : EdgeKept s (countEngines s) :=
  (fset_edge _ _ _ s).trans (rset64_edge _ _)

theorem makeAbsent_edge (l : Nat) (s : State) : EdgeKept s (makeAbsent l s) :=
  (fset_edge _ _ _ s).trans ((countEngines_edge _).trans ((loseEngine_edge l _).trans (capacity_edge _ _ _ _)))

theorem bindSpare_edge (l : Nat) (s : State) : EdgeKept s (bindSpare l s) := by
  unfold bindSpare
  extract_lets c old s1 s2 s3
  have hbind : EdgeKept s s1 := (fset_edge _ _ _ s).trans (fset_edge _ _ _ _)
  have hstore : EdgeKept s1 s2 := edgeKept_of_fields
  exact hbind.trans (hstore.trans ((substitution_edge _ _ _ _ _ s2).trans ((countEngines_edge _).trans (capacity_edge _ _ _ s3))))

theorem contain_edge (l : Nat) (s : State) : EdgeKept s (contain l s) :=
  ite_edge ((fset_edge _ _ _ s).trans (bindSpare_edge l _)) ((fset_edge _ _ _ s).trans (makeAbsent_edge l _))

theorem containAll_edge (s : State) : EdgeKept s (containAll s) := by
  unfold containAll
  refine foldS_edge (fun l s => ite_edge (EdgeKept.refl s) (ite_edge ?_ (ite_edge ?_ (EdgeKept.refl s)))) _ s
  · exact (fset_edge _ _ _ s).trans ((bindSpare_edge l _).trans (engMod_edge _ _ _))
  · exact (engMod_edge _ _ s).trans (contain_edge l _)

theorem engineFaultAt_edge (x : Nat) (s : State) : EdgeKept s (engineFaultAt x s) := by
  unfold engineFaultAt
  split
  · exact engMod_edge _ _ s
  · exact fset_edge _ _ _ s

theorem sfuSubst_edge (s : State) : EdgeKept s (sfuSubst s) := by
  unfold sfuSubst
  refine foldS_edge (fun x s => (engMod_edge _ _ s).trans (foldS_edge (fun i s => ?_) _ _)) _ s
  dsimp only
  split
  · exact engineFaultAt_edge x s
  · exact (fset_edge _ _ _ s).trans ((substitution_edge _ _ _ _ _ _).trans (capacity_edge _ _ _ _))

theorem sfuFailed_edge (x u : Nat) (s : State) : EdgeKept s (sfuFailed x u s) := by
  unfold sfuFailed
  extract_lets s1 phys
  have hbad : EdgeKept s s1 := engMod_edge _ _ s
  refine hbad.trans ?_
  split
  · exact EdgeKept.refl s1
  · exact ite_edge (EdgeKept.refl s1) (ite_edge (engineFaultAt_edge x s1) (engMod_edge _ _ s1))

theorem sfuWorn_edge (s : State) : EdgeKept s (sfuWorn s) :=
  foldS_edge (fun x s => ite_edge (EdgeKept.refl s) ((engMod_edge _ _ s).trans (foldS_edge (sfuFailed_edge x) _ _))) _ s

/-- An engine reset's clearing (R421). -/
theorem engineClear_edge (k : Nat) (s : State) : EdgeKept s (engineClear k s) := by
  unfold engineClear
  extract_lets s1 s2 s3 s4
  have hsegs : EdgeKept s s1 := (clearSeg_edge _ _ s).trans ((clearSeg_edge _ _ _).trans ((clearLanes_edge _ _ _).trans (clearLanes_edge _ _ _)))
  have hregs : EdgeKept s2 s3 := foldS_edge (fun _ s => rset_edge _ s) _ s2
  exact hsegs.trans ((engMod_edge _ _ s1).trans (hregs.trans ((fset_edge _ _ _ s3).trans (foldS_edge (fun _ s => rset_edge _ s) _ s4))))

end Sys2Proof.Machine
end

