-- ==== Sys2Proof/Proofs/EdgeLoads.lean ====
section
/-! PROOF. A load that waited for a tick (R251), the links, the hubs and the Curator on a tick's edge keep the tick's number and time, C0 and
the tables' forms. -/

namespace Sys2Proof.Machine

set_option Elab.async false

/-! ### The installation of an image (R198, R221) -/

theorem reject_edge (j code pc l : Nat) (s : State) : EdgeKept s (reject j code pc l s) :=
  (rset_edge _ s).trans ((jobEvent_edge _ _ _).trans (raise_edge _ _ _))

theorem installEngine_edge (j : Nat) (m : Img) (l : Nat) (s : State) : EdgeKept s (installEngine j m l s) := by
  unfold installEngine
  extract_lets k o base s1 s2 s3
  split
  extract_lets s4
  have hcode : EdgeKept s s2 := (engMod_edge _ _ s).trans (engMod_edge _ _ s1)
  have hdata : EdgeKept s2 s3 := foldS_edge (fun _ s => foldS_edge (fun _ s => cPut_edge _ _ _ _ s) _ s) _ s2
  have hfoot : EdgeKept s3 s4 := (rset_edge _ s3).trans (rset_edge _ _)
  exact hcode.trans (hdata.trans (hfoot.trans (whenS_edge (fun s => rset_edge _ s) s4)))

theorem packHub_edge (h : Nat) (s : State) : EdgeKept s (packHub h s) := by
  unfold packHub
  exact foldS_edge (fun _ s => rset_edge _ s) _ s

theorem putShare_edge (j h k : Nat) (s : State) : EdgeKept s (putShare j h k s) := (fset_edge _ _ _ s).trans (packHub_edge h _)

theorem staticRecs_edge (j base : Nat) (cold : Bool) (s : State) : EdgeKept s (staticRecs j base cold s) := by
  unfold staticRecs
  refine foldS_edge (fun t s => ?_) _ s
  split
  split
  · exact stkWrite_edge _ _ _ s
  · exact engMod_edge _ _ s

/-- What follows the reading of one item of a save image, whatever was read. -/
theorem rdBind_edge {α : Type} {s : State} {x : Rd α} {f : α → Rd State} (h : ∀ a l, EdgeKept s (f a l).1) (l : List Nat) :
    EdgeKept s ((x >>= f) l).1 := h _ _

theorem rdPure_edge {s t : State} (h : EdgeKept s t) (l : List Nat) : EdgeKept s ((pure t : Rd State) l).1 := h

theorem rdSeq_edge (s : State) (l : Nat) (g : Seg) (nums : List Nat) : EdgeKept s (rdSeq s l g nums).1 := by
  have hhalted (halted : Bool) (bit : BitVec 64) (s : State) : EdgeKept s
      (whenS halted (fun s => ((ownerOf s l g).map fun j => jobMod j (fun b => { b with halted := b.halted ||| bit }) s).getD s) s) := by
    refine whenS_edge (fun s => ?_) s
    cases ownerOf s l g with
    | none => exact EdgeKept.refl s
    | some j => exact jobMod_edge _ _ _
  unfold rdSeq
  extract_lets bit
  refine rdBind_edge (fun pc _ => rdBind_edge (fun halted _ => rdBind_edge (fun ls _ => rdBind_edge (fun st _ =>
    rdBind_edge (fun due _ => rdBind_edge (fun px _ => rdBind_edge (fun cn _ => rdBind_edge (fun sf _ =>
      rdBind_edge (fun sc _ => rdBind_edge (fun w l9 => ?_) _) _) _) _) _) _) _) _) _) _
  refine rdPure_edge (EdgeKept.trans ?_ (foldS_edge (fun _ s => rset_edge _ s) _ _)) l9
  exact (hhalted halted bit s).trans ((segMod_edge _ _ _ _).trans (foldS_edge (fun _ s => rset_edge _ s) _ _))

theorem restoreSect_edge (j base : Nat) (x : SSect) (s : State) : EdgeKept s (restoreSect j base x s) := by
  unfold restoreSect
  obtain ⟨ty, e, a, bs⟩ := x
  dsimp -zeta only
  extract_lets g k nums
  split
  · exact rdSeq_edge _ _ _ _
  · exact foldS_edge (fun _ s => cPut_edge _ _ _ _ s) _ s
  · exact engMod_edge _ _ s
  · exact engMod_edge _ _ s
  · exact (engMod_edge _ _ s).trans (segMod_edge _ _ _ _)
  · exact foldS_edge (fun _ s => catMod_edge _ _ s) _ s
  · exact stkPut_edge _ _ s
  · exact EdgeKept.refl s

section
variable {j : Nat} (hj : j < 4)
include hj

theorem accept_edge (m : Img) (resume : Bool) (saved : List Byte) (s : State) : EdgeKept s (accept j m resume saved s) := by
  unfold accept
  extract_lets b base shares s1 s2 s3 s4 s5 s6 s7 s8
  have hengines : EdgeKept s s2 := (foldS_edge (installEngine_edge j m) _ s).trans (foldS_edge (fun _ s => stkPut_edge _ _ s) _ s1)
  have hjob : EdgeKept s2 s5 := (jobMod_edge _ _ s2).trans ((fset_edge _ _ _ s3 (c0Free_pgMod (by omega))).trans
    (foldS_edge (fun _ s => catMod_edge _ _ s) _ s4))
  have hshares : EdgeKept s5 s6 := (staticRecs_edge _ _ _ s5).trans (foldS_edge (fun _ s => putShare_edge _ _ _ s) _ _)
  have hrestore : EdgeKept s6 s7 := by
    refine whenS_edge (fun s => ?_) s6
    exact (foldS_edge (restoreSect_edge j base) _ s).trans ((foldS_edge (fun _ s => finc_edge _ _ _ s) _ _).trans
      (whenS_edge (jobMod_edge _ _) _))
  exact hengines.trans (hjob.trans (hshares.trans (hrestore.trans ((rset_edge _ s7).trans (jobEvent_edge _ _ s8)))))

theorem loadNow_edge (resume : Bool) (s : State) : EdgeKept s (loadNow j resume s) := by
  have hclear := jobMod_edge j (fun _ => {}) s
  obtain ⟨hnone, hsome⟩ := loadNow_outcome j resume s
  rcases himage : imageAt s (rget64 s pgMod (0x60 + 16 * j)).toNat with _ | m
  · rw [hnone himage]
    exact hclear.trans (reject_edge _ _ _ _ _)
  · obtain ⟨hfailed, hpassed⟩ := hsome m himage
    rcases hcheck : loadCheck (jobMod j (fun _ => {}) s) j m with _ | ⟨c, pc, l⟩
    · obtain ⟨hload, hresume⟩ := hpassed hcheck
      cases resume with
      | false =>
        rw [hload rfl]
        exact hclear.trans (accept_edge hj _ _ _ _)
      | true =>
        obtain ⟨hrefused, haccepted⟩ := hresume rfl _ _ rfl rfl
        by_cases hc : resumeCheck (jobMod j (fun _ => {}) s) (savedAt (jobMod j (fun _ => {}) s) (rget64 s pgMod (0x68 + 16 * j)).toNat)
            ((m.bytes.drop 64).take 64) (sameMods (jobMod j (fun _ => {}) s)
              (savedAt (jobMod j (fun _ => {}) s) (rget64 s pgMod (0x68 + 16 * j)).toNat) ((m.bytes.drop 64).take 64) j) = 0
        · rw [haccepted hc]
          exact hclear.trans (accept_edge hj _ _ _ _)
        · rw [hrefused hc]
          exact hclear.trans (reject_edge _ _ _ _ _)
    · rw [hfailed c pc l hcheck]
      exact hclear.trans (reject_edge _ _ _ _ _)

end

theorem heldLoads_edge (s : State) : EdgeKept s (heldLoads s) :=
  foldS_edge_of_mem (fun _ hmem s => ite_edge (loadNow_edge (List.mem_range.1 hmem) _ s) (EdgeKept.refl s)) s

/-! ### Hubs, ports and links -/

theorem bindPackage_edge (h p : Nat) (s : State) : EdgeKept s (bindPackage h p s) :=
  (((fset_edge _ _ _ s).trans (fset_edge _ _ _ _)).trans (fset_edge _ _ _ _)).trans
    (((fset_edge _ _ _ _).trans (fset_edge _ _ _ _)).trans ((substitution_edge _ _ _ _ _ _).trans (capacity_edge _ _ _ _)))

theorem tickPackages_edge (s : State) : EdgeKept s (tickPackages s) := by
  unfold tickPackages
  refine foldS_edge (fun h s => ?_) _ s
  dsimp only
  split
  · exact ite_edge ((hubMod_edge _ _ s).trans (bindPackage_edge _ _ _)) (EdgeKept.refl s)
  · exact EdgeKept.refl s

theorem tickPorts_edge (s : State) : EdgeKept s (tickPorts s) := by
  unfold tickPorts
  refine foldS_edge (fun d s => ?_) _ s
  extract_lets f h go s1
  have hwait : EdgeKept s s1 := whenS_edge (abfMod_edge _ _) s
  refine hwait.trans (ite_edge (capacity_edge _ _ _ s1) (ite_edge ?_ (EdgeKept.refl s1)))
  exact ((fset_edge _ _ _ s1).trans (fset_edge _ _ _ _)).trans ((fset_edge _ _ _ _).trans
    ((substitution_edge _ _ _ _ _ _).trans (capacity_edge _ _ _ _)))

theorem tickHubs_edge (s : State) : EdgeKept s (tickHubs s) :=
  foldS_edge (fun _ s => (rset64_edge _ s).trans ((rset64_edge _ _).trans ((foldS_edge (fun _ s => errata_edge _ s) _ _).trans
    (hubMod_edge _ _ _)))) _ s

theorem tickCorrections_edge (s : State) : EdgeKept s (tickCorrections s) := by
  have hrecords (k : Nat) (l : List (Nat × Nat × Nat)) (s : State) := foldS_edge (f := fun d : Nat × Nat × Nat => errata
    { ty := 0x0109, sev := 1, level := 5, zq := k / 20, die := k / 5, peng := k % 5, block := d.1, detail := [d.1, d.2.1, d.2.2] })
    (fun _ s => errata_edge _ s) l s
  exact foldS_edge (fun k s => ite_edge (hrecords k _ s) ((hrecords k _ s).trans (engMod_edge _ _ _))) _ s

theorem tickAcc_edge (s : State) : EdgeKept s (tickAcc s) :=
  foldS_edge (fun _ s => (foldS_edge (fun _ s => errata_edge _ s) _ s).trans (accMod_edge _ _ _)) _ s

theorem tickAbf_edge (s : State) : EdgeKept s (tickAbf s) :=
  foldS_edge (fun _ s => whenS_edge (fun s => (abfMod_edge _ _ s).trans (errata_edge _ _)) s) _ s

theorem loseVerdicts_edge (s : State) : EdgeKept s (loseVerdicts s) := by
  have hlost := foldS_edge (f := fun r : VRec => loseVerdict r.slot r.frame)
    (fun _ s => (finc_edge _ _ _ s).trans (vilMod_edge _ _)) s.ready s
  exact hlost.trans edgeKept_of_fields

theorem tickVilri_edge (s : State) : EdgeKept s (tickVilri s) := by
  unfold tickVilri
  extract_lets s1 s2 n
  have hlost : EdgeKept s s2 := (whenS_edge loseVerdicts_edge s).trans (vilMod_edge _ s1)
  have hreplays : EdgeKept s2 { s2 with vil := { s2.vil with replays := 0 } } := edgeKept_of_fields
  exact ite_edge hlost (hlost.trans (hreplays.trans (errata_edge _ _)))

theorem tickLinks_edge (s : State) : EdgeKept s (tickLinks s) :=
  (tickAcc_edge s).trans ((tickAbf_edge _).trans (tickVilri_edge _))

theorem sendSys_edge (t ty : Nat) (bs : List Byte) (o : Out) (s : State) : EdgeKept s (sendSys t ty bs o s) := by
  unfold sendSys
  refine ite_edge (emit_edge o s) ?_
  split
  · exact (abfMod_edge _ _ s).trans (emit_edge _ _)
  · exact EdgeKept.refl s

end Sys2Proof.Machine
end

