-- ==== Sys2Proof/Proofs/EdgeCurator.lean ====
section
/-! PROOF. What the Curator does on a tick's edge (R257), and the steps of the zones (R18), keep the tick's number and time, C0 and the tables'
forms. -/

namespace Sys2Proof.Machine

set_option Elab.async false

/-! ### Shares of the hubs (R325) -/

theorem putShed_edge (s : State) : EdgeKept s (putShed s) := fset_edge _ _ _ s

theorem action_edge (detail : List Nat) (s : State) : EdgeKept s (action detail s) := (finc_edge _ _ _ s).trans (errata_edge _ _)

/-- An action that raises an event of the CURATOR page. -/
theorem raised_action_edge (bit : Nat) (detail : List Nat) (s : State) : EdgeKept s (raise pgCur bit (action detail s)) :=
  (action_edge _ s).trans (raise_edge _ _ _)

theorem withdraw_edge (h : Nat) (s : State) : EdgeKept s (withdraw h s) := by
  unfold withdraw
  refine EdgeKept.trans (foldS_edge (fun j s => ite_edge ?_ (EdgeKept.refl s)) _ s) (packHub_edge h _)
  exact (whenS_edge (raised_action_edge _ _) s).trans ((fset_edge _ _ _ _).trans (jobMod_edge _ _ _))

theorem giveBack_edge (h : Nat) (s : State) : EdgeKept s (giveBack h s) := by
  unfold giveBack
  refine foldS_edge (fun j s => ite_edge ?_ (EdgeKept.refl s)) _ s
  exact (jobMod_edge _ _ s).trans ((putShare_edge _ _ _ _).trans (whenS_edge (action_edge _) _))

theorem capShares_edge (s : State) : EdgeKept s (capShares s) := by
  unfold capShares
  extract_lets lim
  refine foldS_edge (fun h s => ite_edge (EdgeKept.refl s) ?_) _ s
  exact (fset_edge _ _ _ s).trans (ite_edge (withdraw_edge h _) (giveBack_edge h _))

/-! ### Check ratios and zone requests (R262, R268) -/

theorem putRatio_edge (j code : Nat) (s : State) : EdgeKept s (putRatio j code s) := by
  unfold putRatio
  extract_lets old s1
  have hput : EdgeKept s s1 := (fset_edge _ _ _ s).trans (foldS_edge (fun _ s => ite_edge (EdgeKept.refl s) (shadow_edge _ _ s)) _ _)
  exact ite_edge hput (hput.trans (raised_action_edge _ _ s1))

theorem ratioStep_edge (j : Nat) (s : State) : EdgeKept s (ratioStep j s) := by
  unfold ratioStep
  extract_lets b o t cur base s1
  refine ite_edge (ite_edge ?_ (ite_edge (putRatio_edge _ _ s) (putRatio_edge _ _ s))) ?_
  · exact (jobMod_edge _ _ s).trans (putRatio_edge _ _ _)
  · exact (whenS_edge (fun s => fset_edge _ _ _ s) s).trans (jobMod_edge _ _ _)

theorem thermal_edge (z : Nat) (s : State) : EdgeKept s (thermal z s) :=
  (zoneMod_edge _ _ s).trans ((whenS_edge (raise_edge _ _) _).trans (fset_edge _ _ _ _))

/-! ### The power cap (R226, R263 to R267) -/

theorem coolPolicy_edge (s : State) : EdgeKept s (coolPolicy s) := by
  unfold coolPolicy
  extract_lets hot s1 s2
  have hshed : EdgeKept s s1 := whenS_edge (raised_action_edge _ _) s
  exact hshed.trans ((whenS_edge (action_edge _) s1).trans (curMod_edge _ s2))

theorem lowRatio_edge (j : Nat) (s : State) : EdgeKept s (lowRatio j s) :=
  ite_edge ((jobMod_edge _ _ s).trans (putRatio_edge _ _ _)) (EdgeKept.refl s)

theorem restoreRatio_edge (j : Nat) (s : State) : EdgeKept s (restoreRatio j s) := by
  unfold restoreRatio
  dsimp only
  split
  · exact (jobMod_edge _ _ s).trans (whenS_edge (putRatio_edge _ _) _)
  · exact EdgeKept.refl s

theorem powerUp_edge (p : Nat) (s : State) : EdgeKept s (powerUp p s) := by
  unfold powerUp
  extract_lets s1 c s2
  refine (curMod_edge _ s).trans (ite_edge ?_ (ite_edge ?_ ((curMod_edge _ s1).trans (ite_edge (EdgeKept.refl s2) ?_))))
  · exact (curMod_edge _ s1).trans (raised_action_edge _ _ _)
  · exact (curMod_edge _ s1).trans ((fset_edge _ _ _ _).trans ((foldS_edge lowRatio_edge _ _).trans (action_edge _ _)))
  · exact (fset_edge _ _ _ s2).trans ((fset_edge _ _ _ _).trans (action_edge _ _))

theorem powerDown_edge (p : Nat) (s : State) : EdgeKept s (powerDown p s) := by
  unfold powerDown
  extract_lets lim s1 s' c s2
  have hceiling : EdgeKept s s1 := whenS_edge (fun s => (fset_edge _ _ _ s).trans (fset_edge _ _ _ _)) s
  refine hceiling.trans (ite_edge (ite_edge ?_ (EdgeKept.refl s1)) (ite_edge (ite_edge ?_ (EdgeKept.refl s1))
    (ite_edge (ite_edge ?_ (EdgeKept.refl s1)) (EdgeKept.refl s1))))
  · exact ((curMod_edge _ s1).trans (fset_edge _ _ _ s')).trans ((whenS_edge (fun s => fset_edge _ _ _ s) s2).trans (action_edge _ _))
  · exact (curMod_edge _ s1).trans ((fset_edge _ _ _ s').trans ((foldS_edge restoreRatio_edge _ _).trans (action_edge _ _)))
  · exact (curMod_edge _ s1).trans ((curMod_edge _ s').trans (action_edge _ _))

theorem powerPolicy_edge (s : State) : EdgeKept s (powerPolicy s) := by
  unfold powerPolicy
  extract_lets p cap s1 s2 s3 lim above s4 s5
  have hdraw : EdgeKept s s1 := curMod_edge _ s
  have hcap : EdgeKept s1 s3 := ite_edge (powerUp_edge p s1) (ite_edge
    ((curMod_edge _ s1).trans (ite_edge (powerDown_edge p s2) (EdgeKept.refl s2))) (curMod_edge _ s1))
  exact hdraw.trans (hcap.trans ((whenS_edge (raised_action_edge _ _) s3).trans ((whenS_edge (action_edge _) s4).trans (curMod_edge _ s5))))

theorem standbyPolicy_edge (s : State) : EdgeKept s (standbyPolicy s) := by
  unfold standbyPolicy
  extract_lets nd s1 bg
  exact (edgeKept_of_fields : EdgeKept s s1).trans (ite_edge edgeKept_of_fields (EdgeKept.refl s1))

theorem sendStepLinks_edge (s : State) : EdgeKept s (sendStepLinks s) := by
  unfold sendStepLinks
  exact foldS_edge (fun _ s => ite_edge (foldS_edge (fun _ s => sendSys_edge _ _ _ _ s) _ s) (EdgeKept.refl s)) _ s

theorem decideSteps_edge (s : State) : EdgeKept s (decideSteps s) := by
  unfold decideSteps
  extract_lets asks ask changed s'
  have hzones : EdgeKept s s' := by
    refine foldS_edge (fun z t => ite_edge ?_ ?_) _ s
    · exact (fset_edge _ _ _ t).trans ((whenS_edge (fun t => rset_edge _ t) _).trans (zoneMod_edge _ _ _))
    · exact (whenS_edge (fun t => fset_edge _ _ _ t) t).trans (zoneMod_edge _ _ _)
  exact hzones.trans (curMod_edge _ s')

theorem curate_edge (s : State) : EdgeKept s (curate s) := by
  unfold curate
  extract_lets on s1 s2 s3
  have hratios : EdgeKept s s1 := whenS_edge (foldS_edge ratioStep_edge _) s
  have hthermal : EdgeKept s1 s2 := foldS_edge thermal_edge _ s1
  have hpower : EdgeKept s2 s3 := (whenS_edge powerPolicy_edge s2).trans (coolPolicy_edge _)
  exact hratios.trans (hthermal.trans (hpower.trans ((decideSteps_edge s3).trans ((sendStepLinks_edge _).trans (whenS_edge standbyPolicy_edge _)))))

/-! ### Step closes (R131 to R134, R258 to R261) -/

theorem directive_edge (tid : Nat) (e : CatE) (closed : BitVec 64) (s : State) : EdgeKept s (directive tid e closed s) :=
  (stkWrite_edge _ _ _ s).trans (catMod_edge _ _ _)

theorem closeStep_edge (tid : Nat) (next : BitVec 64) (s : State) : EdgeKept s (closeStep tid next s) :=
  (takeFree_edge s).trans ((catMod_edge _ _ _).trans (whenS_edge (directive_edge _ _ _) _))

theorem stagWatch_edge (tid : Nat) (t : Stats) (s : State) : EdgeKept s (stagWatch tid t s) := by
  unfold stagWatch
  extract_lets e z stag run s1 win lim atL s2
  refine (catMod_edge _ _ s).trans (ite_edge ?_ (EdgeKept.refl s1))
  exact (catMod_edge _ _ s1).trans ((sendEvent_edge _ _ s2).trans ((raise_edge _ _ _).trans (action_edge _ _)))

theorem nonfinite_edge (tid : Nat) (step : BitVec 64) (s : State) : EdgeKept s (nonfinite tid step s) := by
  unfold nonfinite
  dsimp only
  split
  · exact EdgeKept.refl s
  · exact ite_edge ((catMod_edge _ _ s).trans ((sendEvent_edge _ _ _).trans ((raise_edge _ _ _).trans (action_edge _ _)))) (EdgeKept.refl s)

theorem lossEvent_edge (j tid kind : Nat) (step : BitVec 64) (s : State) : EdgeKept s (lossEvent j tid kind step s) := by
  unfold lossEvent
  extract_lets s1 s2 s3
  have hevent : EdgeKept s s3 := ((sendEvent_edge _ _ s).trans (raise_edge _ _ _)).trans ((jobMod_edge _ _ s1).trans (action_edge _ s2))
  exact ite_edge (hevent.trans (jobMod_edge _ _ s3)) hevent

theorem lossWatch_edge (tid : Nat) (step : BitVec 64) (s : State) : EdgeKept s (lossWatch tid step s) := by
  unfold lossWatch
  refine foldS_edge (fun j s => ite_edge ?_ (EdgeKept.refl s)) _ s
  split
  · exact EdgeKept.refl s
  · exact (whenS_edge (lossEvent_edge _ _ _ _) s).trans (whenS_edge (lossEvent_edge _ _ _ _) _)

theorem curateSteps_edge (s : State) : EdgeKept s (curateSteps s) := by
  refine whenS_edge (fun s => foldS_edge (fun tid s => ite_edge ?_ (EdgeKept.refl s)) _ s) s
  exact (closeStep_edge _ _ s).trans ((whenS_edge (stagWatch_edge _ _) _).trans ((lossWatch_edge _ _ _).trans (nonfinite_edge _ _ _)))

/-! ### Zone steps (R18, R210) -/

theorem takeStep_edge (z n why : Nat) (set : List Nat) (s : State) : EdgeKept s (takeStep z n why set s) := by
  unfold takeStep
  extract_lets p old late s1 s2 now req s3
  have hfree (off : Nat) : C0Free p off := c0Free_pgZone z off
  have hstep : EdgeKept s s1 := (fset_edge _ _ _ s (hfree _)).trans ((fset_edge _ _ _ _ (hfree _)).trans (fset_edge _ _ _ _ (hfree _)))
  have hcount : EdgeKept s1 s2 := (finc_edge _ _ _ s1 (hfree _)).trans (rset_edge _ _ (hfree _))
  exact hstep.trans (hcount.trans ((zoneMod_edge _ _ s2).trans ((raise_edge _ _ s3).trans (errZone_edge _ _ _ _ _))))

/-- A running change that also gathers a result. -/
theorem foldl_edge {α β : Type} {f : State × β → α → State × β} (h : ∀ p a, EdgeKept p.1 (f p a).1) (l : List α) (p : State × β) :
    EdgeKept p.1 (l.foldl f p).1 := by
  induction l generalizing p with
  | nil => exact EdgeKept.refl p.1
  | cons a l ih => exact (h p a).trans (ih (f p a))

theorem applySteps_edge (s : State) : EdgeKept s (applySteps s).1 := by
  unfold applySteps
  extract_lets s0 p deferred keep
  have hzones : EdgeKept s p.1 := by
    refine foldl_edge (fun p z => ?_) _ (s, [])
    dsimp only
    split
    · exact EdgeKept.refl p.1
    · split
      · exact (fset_edge _ _ _ p.1).trans (fset_edge _ _ _ _)
      · split
        · exact (fset_edge _ _ _ p.1).trans (fset_edge _ _ _ _)
        · exact takeStep_edge _ _ _ _ p.1
  refine hzones.trans ?_
  dsimp only
  exact curMod_edge _ p.1

end Sys2Proof.Machine
end

