-- ==== Sys2Proof/Proofs/TickEdge.lean ====
section
/-! PROOF. TICK and TICK_REPHASE (R199, R201, R203, R204, R206): the clocks move once on the edge, and nothing else on it touches the tick's
number and time, or C0. -/

namespace Sys2Proof.Machine

set_option Elab.async false

/-! ### The clocks -/

/-- The tick took the next number, its time is `len` REFCLK cycles after the last one's, and C0 is as it was. -/
structure Ticked (len : Nat) (s t : State) : Prop where
  tick : t.tick = s.tick + 1
  refTick : t.refTick = s.refTick + len
  latch : rget64 t pgTick 0x60 = rget64 s pgTick 0x60

theorem EdgeKept.ticked {len : Nat} {s t u v : State} (h : EdgeKept s t) (k : Ticked len t u) (h' : EdgeKept u v) : Ticked len s v where
  tick := by rw [h'.tick, k.tick, h.tick]
  refTick := by rw [h'.refTick, k.refTick, h.refTick]
  latch := by rw [h'.latch, k.latch, h.latch]

theorem advanceClocks_ticked (len run : Nat) (s : State) : Ticked len s (advanceClocks len run s) := by
  unfold advanceClocks
  extract_lets now s'
  have hzones : EdgeKept s s' := foldS_edge (fun _ t => zoneMod_edge _ _ t) _ s
  exact ⟨rfl, rfl, hzones.latch⟩

/-! ### The parts of the edge -/

theorem tickFabric_edge (s : State) : EdgeKept s (tickFabric s) := ite_edge edgeKept_of_fields (EdgeKept.refl s)

theorem slipCheck_edge (len : Nat) (woken : Bool) (s : State) : EdgeKept s (slipCheck len woken s).1 := by
  have hrun (x : Nat) (s : State) : EdgeKept s (fset pgTick 0x6C 16 8 x s) := fset_edge _ _ _ s
  unfold slipCheck
  extract_lets seen s1 run s2
  have hseen : EdgeKept s s1 := pwrMod_edge _ s
  have hmissed : EdgeKept s1 s2 := (finc_edge _ _ _ s1).trans ((hrun _ _).trans (raise_edge _ _ _))
  have hlost : EdgeKept s2 (alertCause 10 (sendEvent 0x000F [fget s2 pgTick 0x6C 0 16] (raise pgTick 2 s2))) :=
    (raise_edge _ _ s2).trans ((sendEvent_edge _ _ _).trans (alertCause_edge _ _))
  split
  · exact hseen
  · split
    · exact hseen
    · split
      · exact hseen.trans (hrun _ _)
      · exact hseen.trans (hmissed.trans (ite_edge hlost (EdgeKept.refl s2)))

theorem driftCheck_edge (counts : List (BitVec 64)) (s : State) : EdgeKept s (driftCheck counts s).1 := by
  unfold driftCheck
  extract_lets s1 got want
  have hcount : EdgeKept s s1 := edgeKept_of_fields
  split
  · split
    · split
      · exact hcount
      · exact hcount.trans ((rset_edge _ s1).trans (raise_edge _ _ _))
    · exact hcount
  · exact EdgeKept.refl s

theorem countsSeen_edge (counts : List (BitVec 64)) (s : State) : EdgeKept s (countsSeen counts s) :=
  foldS_edge (fun _ s => ite_edge (rset64_edge _ s) (EdgeKept.refl s)) _ s

theorem sofsCheck_edge (counts : List (BitVec 64)) (s : State) : EdgeKept s (sofsCheck counts s) := whenS_edge (pwrMod_edge _) s

theorem sense_edge (v : TickEnv) (s : State) : EdgeKept s (sense v s) := by
  unfold sense
  extract_lets lines s1 at' s2 s3 s4
  have hlines : EdgeKept s s1 := (fset_edge _ _ _ s).trans (rset64_edge _ _)
  have hjunctions : EdgeKept s1 s2 := foldS_edge (fun _ s => rset_edge _ s) _ s1
  have hdies : EdgeKept s2 s3 := foldS_edge (fun _ s => rset_edge _ s) _ s2
  have hpackages : EdgeKept s3 s4 := foldS_edge (fun _ s => fset_edge _ _ _ s) _ s3
  refine hlines.trans (hjunctions.trans (hdies.trans (hpackages.trans (foldS_edge (fun z s => ?_) _ s4))))
  exact ((fset_edge _ _ _ s).trans (fset_edge _ _ _ _)).trans ((fset_edge _ _ _ _).trans (fset_edge _ _ _ _))

theorem tickAttest_edge (s : State) : EdgeKept s (tickAttest s) := ite_edge (secMod_edge _ s) (EdgeKept.refl s)

theorem tickMaster_edge (s : State) : EdgeKept s (tickMaster s) := by
  unfold tickMaster
  extract_lets s1 n a s2
  have hpulse : EdgeKept s s1 := emit_edge _ s
  have hshow : EdgeKept s1 s2 := (pwrMod_edge _ s1).trans
    (rset64_edge _ _)
  refine ite_edge (EdgeKept.refl s) (hpulse.trans (ite_edge (hshow.trans ?_) (EdgeKept.refl s1)))
  exact foldS_edge (fun _ s => sendSys_edge _ _ _ _ s) _ s2

theorem startTests_edge (s : State) : EdgeKept s (startTests s) := by
  have hinputs (e f u : Nat) (s : State) : EdgeKept s (unitInputs e f u s) := by
    unfold unitInputs
    split
    · exact foldS_edge (fun _ s => cPut_edge _ _ _ _ s) _ s
    · exact EdgeKept.refl s
  unfold startTests
  refine foldS_edge (fun e s => ite_edge ?_ (EdgeKept.refl s)) _ s
  split
  · exact EdgeKept.refl s
  · exact (hinputs _ _ _ s).trans (secMod_edge _ _)

theorem tickIdle_edge (s : State) : EdgeKept s (tickIdle s) :=
  (commitShadows_edge _ s).trans (foldS_edge (fun _ s => jobMod_edge _ _ s) _ _)

theorem tickRun_edge (wake : Bool) (ev : BitVec 8) (s : State) : EdgeKept s (tickRun wake ev s) := by
  unfold tickRun
  extract_lets s1 s2 s3 s4 s5 s6 s7 s8 s9
  have hheld : EdgeKept s s1 := (secMod_edge _ s).trans (heldLoads_edge _)
  have hcontained : EdgeKept s1 s2 := (sfuWorn_edge s1).trans ((sfuSubst_edge _).trans (containAll_edge _))
  have hcleared : EdgeKept s2 s3 := foldS_edge (fun k s => ite_edge (engineClear_edge k s) (EdgeKept.refl s)) _ s2
  have hports : EdgeKept s3 s5 := ((tickPorts_edge s3).trans (tickPackages_edge _)).trans (foldS_edge closeFrames_edge _ s4)
  have hslots : EdgeKept s5 s6 := (tickResets_edge s5).trans (tickStarts_edge _ _)
  have hshadows : EdgeKept s6 s8 := ((putShed_edge s6).trans (commitShadows_edge _ _)).trans (capShares_edge s7)
  have hpauses : EdgeKept s8 s9 := (tickPauses_edge s8).trans (tickSummaries_edge _)
  have hbefore : EdgeKept s s9 :=
    hheld.trans (hcontained.trans (hcleared.trans (hports.trans (hslots.trans (hshadows.trans hpauses)))))
  have hsteps := hbefore.trans (applySteps_edge s9)
  split
  · exact hsteps.trans ((pwrMod_edge _ _).trans ((curateSteps_edge _).trans ((curate_edge _).trans (tickMaster_edge _))))
  · split
    next t zs hstep =>
    rw [hstep] at hsteps
    extract_lets t1 t2 t3 t4
    have hbinds : EdgeKept t t1 := (tickBinds_edge t).trans (captureShadows_edge _)
    have hframes : EdgeKept t1 t2 := (tickFrames_edge _ _ t1).trans (curateSteps_edge _)
    have hengines : EdgeKept t2 t3 := (tickEngines_edge t2).trans (tickCommits_edge _)
    exact hsteps.trans (hbinds.trans (hframes.trans (hengines.trans ((curate_edge t3).trans ((startTests_edge t4).trans (tickMaster_edge _))))))

/-! ### The edge -/

theorem bootReady_edge (s : State) : EdgeKept s (bootReady s) := by
  unfold bootReady
  refine ite_edge ?_ (EdgeKept.refl s)
  exact (foldS_edge (fun _ s => sendEvent_edge _ _ s) _ s).trans ((secMod_edge _ _).trans ((pwrMod_edge _ _).trans
    ((fset_edge _ _ _ _).trans (setPstate_edge _ _))))

/-- The sensors, the counters and what the module's state does at a tick, after the clocks and the checks of the pulse. -/
theorem edgeEnd_edge (live wake slip drift : Bool) (s : State) :
    EdgeKept s (tickAttest (tickLinks (if live then
      tickCorrections (tickHubs (tickRun wake ((if slip then 0x10 else 0) ||| (if drift then 0x20 else 0)) s))
      else tickMaster (tickIdle s)))) := by
  refine EdgeKept.trans (ite_edge ?_ ?_) ((tickLinks_edge _).trans (tickAttest_edge _))
  · exact (tickRun_edge _ _ s).trans ((tickHubs_edge _).trans (tickCorrections_edge _))
  · exact (tickIdle_edge s).trans (tickMaster_edge _)

/-- The clocks move once on the edge. -/
theorem edgeOf_ticked (len run : Nat) (wake woken : Bool) (v : Option TickEnv) (s : State) : Ticked len s (edgeOf len run wake woken v s) := by
  unfold edgeOf
  extract_lets live s1 s2 s3
  have hlate : EdgeKept s s1 := whenS_edge (fun s => (lateStarts_edge s).trans (foldS_edge slackOf_edge _ _)) s
  refine hlate.ticked (advanceClocks_ticked len run s1) ?_
  have hrefresh : EdgeKept (advanceClocks len run s1) s3 := (tickFabric_edge _).trans (foldS_edge (fun _ s => hubMod_edge _ _ s) _ s2)
  have hslip := slipCheck_edge len woken s3
  refine hrefresh.trans ?_
  split
  next s4 slip heq =>
  rw [heq] at hslip
  refine hslip.trans ?_
  cases v with
  | none =>
    dsimp -zeta only
    exact (takeFree_edge s4).trans ((whenS_edge (sense_edge _) _).trans (edgeEnd_edge _ _ _ _ _))
  | some e =>
    cases wake with
    | true => exact (countsSeen_edge _ s4).trans ((sofsCheck_edge _ _).trans ((whenS_edge (sense_edge _) _).trans (edgeEnd_edge _ _ _ _ _)))
    | false =>
      exact (driftCheck_edge e.counts s4).trans ((countsSeen_edge _ _).trans ((sofsCheck_edge _ _).trans
        ((whenS_edge (sense_edge _) _).trans (edgeEnd_edge _ _ _ _ _))))

/-! ### TICK (R199, R204, R206) -/

section
variable {s : State}

theorem doTick_ticked (v : TickEnv) (hticking : ticking s = true) : Ticked (tickLen s) s (doTick v s) := by
  rw [doTick, if_pos hticking]
  exact (bootReady_edge s).ticked (edgeOf_ticked _ _ _ _ _ _) (EdgeKept.refl _)

/-- The tick falls TICK.PERIOD after the last one where no first capture places it. -/
theorem tickLen_of_period (h : fget s pgTick 0x44 4 2 ≠ 2 ∨ s.pwr.tickSeen = true ∨ s.pwr.tickInAt = none ∨ 4 ≤ fget s pgTick 0x6C 16 8) :
    tickLen s = period s := by
  unfold tickLen
  split
  · next o hcapture =>
    refine if_neg ?_
    rintro ⟨hfollower, hseen, hrun⟩
    rcases h with hmaster | hplaced | hnone | hlost
    · exact hmaster hfollower
    · exact Bool.false_ne_true (hseen.symm.trans hplaced)
    · exact Option.some_ne_none o (hcapture.symm.trans hnone)
    · omega
  · rfl

/-- A follower's first capture places its tick INDLY cycles after it (R204). -/
theorem tickLen_of_capture {o : Nat} (hfollower : fget s pgTick 0x44 4 2 = 2) (hseen : s.pwr.tickSeen = false)
    (hrun : fget s pgTick 0x6C 16 8 < 4) (hcapture : s.pwr.tickInAt = some o) : tickLen s = o + fget s pgTick 0x54 8 8 := by
  unfold tickLen
  rw [hcapture]
  exact if_pos ⟨hfollower, hseen, hrun⟩

/-! ### TICK_REPHASE (R201) -/

/-- The generator with C0 latched and re-phased, before its tick. -/
def rephased (count : BitVec 64) (s : State) : State := fset pgTick 0x44 6 1 1 (rset64 pgTick 0x60 count { s with phaseK := 0 })

theorem rephased_latch (count : BitVec 64) (s : State) : rget64 (rephased count s) pgTick 0x60 = count := by
  rw [rephased, (fset_edge _ _ _ _).latch]
  exact rget64_rset64_self (by decide) count _

theorem doTickRephase_of_armed {count : BitVec 64} (since : Nat) (hticking : ticking s = true) (harmed : fget s pgTick 0x44 0 1 = 1)
    (hfirst : fget s pgTick 0x44 6 1 = 0) (hport : tickPortRuns s = true) (hcount : rget64 s pgTick 0x48 ≤ count)
    (hsofs : s.pwr.sofsPassed ≠ some (rget64 s pgTick 0x48)) (hjobs : anyJob s = false) :
    doTickRephase count since s = tickEdge since none (bootReady (rephased count s)) := by
  rw [doTickRephase, hticking, harmed, hfirst, hport, decide_eq_true hcount, decide_eq_true hsofs, hjobs]
  rfl

theorem doTickRephase_of_not {count : BitVec 64} (since : Nat)
    (h : fget s pgTick 0x44 0 1 = 0 ∨ s.pwr.sofsPassed = some (rget64 s pgTick 0x48)) : doTickRephase count since s = s := by
  rw [doTickRephase]
  rcases h with hoff | hpassed
  · simp [hoff]
  · simp [hpassed]

end

/-- Settles O33: the clocks move once on a tick's edge, by the length that `tickLen` gives or the re-phase's (`edgeOf_ticked`). -/
theorem tickAdvances : Obligations.TickAdvances := by
  unfold Obligations.TickAdvances
  refine ⟨fun v s => ⟨fun hticking => ?_, fun hidle => ?_⟩, fun count since s =>
    ⟨fun hticking harmed hfirst hport hcount hsofs hjobs => ?_, fun h => ?_⟩⟩
  · obtain ⟨htick, href, -⟩ := doTick_ticked v hticking
    refine ⟨_, rfl, htick, href, fun h => ?_, fun o hfollower hseen hrun hcapture => ?_⟩
    · rw [href, tickLen_of_period h]
    · rw [href, tickLen_of_capture hfollower hseen hrun hcapture, Nat.add_assoc]
  · have hstay : doTick v s = s := by rw [doTick, hidle]; rfl
    exact congrArg (gate true) hstay
  · obtain ⟨htick, -, hlatch⟩ := (bootReady_edge (rephased count s)).ticked (edgeOf_ticked since _ false false none _) (EdgeKept.refl _)
    refine ⟨_, congrArg (gate true) (doTickRephase_of_armed since hticking harmed hfirst hport hcount hsofs hjobs), ?_, ?_⟩
    · exact htick
    · exact hlatch.trans (rephased_latch count s)
  · exact congrArg (gate true) (doTickRephase_of_not since h)

end Sys2Proof.Machine
end
